-- ==== Sys2Proof/Word.lean ====
section
/-! DEFINITION. The word types of the WTN-480 and the fixed-length tables its blocks are kept in.
Quantities the manual adds or compares exactly are `Nat` or `Int`; what the manual keeps in a
fixed number of bits and lets wrap is a bit vector. -/

namespace Sys2Proof

/-- One byte of a frame, of the configuration image or of the maintenance port. -/
abbrev Byte := BitVec 8

/-- A reading of the station clock: microseconds modulo 2^32 (00_scope, Station clock and time). -/
abbrev Clock := BitVec 32

/-- A 16-bit wrapping count (R3, R76, R114, R156, R157, R187, R192, R195). -/
abbrev Count := BitVec 16

/-- A lane, held as its number less one: lane 1 is `0` (00_scope, Lanes, strips and stations). -/
abbrev Lane := Fin 4

/-- A station, held as its number less one: station 1 is `0`. -/
abbrev Station := Fin 8

/-- A lamp output, held as its number less one: output 1 is `0` (R121). -/
abbrev Output := Fin 12

/-- A fixed number of like things. -/
abbrev Tab (α : Type) (n : Nat) := Vector α n

/-- A table with the same thing everywhere. -/
def Tab.fill {α : Type} (n : Nat) (x : α) : Tab α n := Vector.replicate n x

/-- The thing at one place of a table. -/
def Tab.at {α : Type} {n : Nat} (t : Tab α n) (i : Fin n) : α := t[i]

/-- A table with one place replaced. -/
def Tab.put {α : Type} {n : Nat} (t : Tab α n) (i : Fin n) (x : α) : Tab α n :=
  t.set i.val x i.isLt

/-- A table with one place changed by a function. -/
def Tab.upd {α : Type} {n : Nat} (t : Tab α n) (i : Fin n) (f : α → α) : Tab α n :=
  t.put i (f (t.at i))

/-- A table given by what stands at each place. -/
def Tab.make {α : Type} (n : Nat) (f : Fin n → α) : Tab α n := Vector.ofFn f

/-- The number 1..4 of a lane. -/
def laneNumber (l : Lane) : Nat := l.val + 1

/-- The number 1..8 of a station. -/
def stationNumber (k : Station) : Nat := k.val + 1

end Sys2Proof
end

