-- ==== Sys2Proof/Syntax.lean ====
section
/-! DEFINITION. The commands of the WTN-480: one constructor of `Instr` per row of
spec/opcode_table.json, with the operands the row's rule names, and the names those operands use. -/

namespace Sys2Proof

/-- The position of a strip in its lane; the lead strip is the one a vehicle crosses first. -/
inductive Pos where
  | lead
  | trail
  deriving DecidableEq, Repr

/-- One of the eight strips, named by lane and position: `2T` is the trail strip of lane 2. -/
structure Strip where
  lane : Lane
  pos : Pos
  deriving DecidableEq, Repr

/-- One converter sample of a conditioned strip signal (R2): its counts, and whether it is at the
converter's full-scale value. -/
structure Sample where
  counts : Nat
  fullScale : Bool
  deriving DecidableEq, Repr

/-- How a receiver finds that a frame is bad (R56). -/
inductive BadFrame where
  /-- the line went idle for 2 byte times before the last CRC byte -/
  | truncated
  /-- the first byte that is not 0x55 is not the start byte -/
  | badStart
  /-- the frame ended and its CRC does not match -/
  | badCrc
  deriving DecidableEq, Repr

/-- A corridor tag: origin station and serial 0..4,095 (00_scope, Tags). -/
structure Tag where
  origin : Station
  serial : BitVec 12
  deriving DecidableEq, Repr

/-- The 24 alert sources, in the order of the image layout (section 11.2). -/
inductive AlertSource where
  | lampFault | laneSingle | laneBlind | spanOverdue | posture | tempInvalid | health
  | redRun | uncontrolled | noncompliant | noncompliantEntered | overUndirected
  | accountingLost | peerSilent | deliveryFail | rxMiss | txDrop | approachEvict | trimLimit
  | lineFault | phantom | queueOverflow | duplicateNumber | chainageClash
  deriving DecidableEq, Repr

/-- The commands: every step of spec/opcode_table.json. A command stands for an event at the present
reading of the station clock, or for a line taken at the maintenance port. The optional word of the
four reset causes is the check word left behind when the cause cuts off a write of the keep-alive
store (R185); `none` when no write is in progress. -/
inductive Instr where
  /-- SIGNAL_BELOW_TRIGGER (R1): the conditioned signal of a strip falls below the trigger level. -/
  | signalBelowTrigger (strip : Strip)
  /-- PULSE_START (R2): the conditioned signal of a strip rises above the trigger level. -/
  | pulseStart (strip : Strip)
  /-- PULSE_END (R2): the signal falls; `samples` are the converter samples taken in the pulse
  (log entry 7). -/
  | pulseEnd (strip : Strip) (samples : List Sample)
  /-- STUCK_REPORT (R4): a pulse is still in progress 60 s after its start. -/
  | stuckReport (strip : Strip)
  /-- COINCIDENCE_TIMER_EXPIRY (R6): the timer of one hold of a lane expires. -/
  | coincidenceTimerExpiry (lane : Lane) (pos : Pos)
  /-- LEAD_EXPIRY (R12): the pending lead at place `index` of a lane's FIFO reaches its expiry
  (log entry 10). -/
  | leadExpiry (lane : Lane) (index : Nat)
  /-- CLOSE_TIMER_EXPIRY (R40). -/
  | closeTimerExpiry (lane : Lane)
  /-- CONTENTION_IDLE_REACHED (R66). -/
  | contentionIdleReached
  /-- COLLISION (R67): a byte read back differs from the byte sent. -/
  | collision
  /-- ATTEMPT_END (R67): the last CRC byte of an attempt has been sent. -/
  | attemptEnd
  /-- RECEIPT_WAIT_EXPIRY (R69). -/
  | receiptWaitExpiry
  /-- BAD_FRAME (R56): a received frame is found to be bad. -/
  | badFrame (found : BadFrame)
  /-- FRAME_RECEIVED (R71): a frame ends; `bytes` are all its bytes, from the first preamble byte. -/
  | frameReceived (bytes : List Byte)
  /-- RECEIPT_START (R70). -/
  | receiptStart
  /-- RECEIPT_ABANDONED (R70): a byte of the receipt read back differs. -/
  | receiptAbandoned
  /-- NOTICE_HANDLING_COMPLETE (R75): handling of the oldest stored frame completes. -/
  | noticeHandlingComplete
  /-- WINDOW_CLOSE_EXPIRY (R99): the clock reaches the window close of the entry with a tag. -/
  | windowCloseExpiry (tag : Tag)
  /-- JOIN_TIMER_EXPIRY (R79). -/
  | joinTimerExpiry
  /-- BEACON_TIMER_EXPIRY (R80). -/
  | beaconTimerExpiry
  /-- SILENCE_TIMER_EXPIRY (R84). -/
  | silenceTimerExpiry (peer : Station)
  /-- PROBE_SAMPLE_TIMER (R25). -/
  | probeSampleTimer
  /-- PROBE_ANSWER (R26): a reading in sixteenths of a degree, and whether its check value matches
  (log entry 8). -/
  | probeAnswer (reading : Int) (checkMatches : Bool)
  /-- PROBE_ANSWER_TIMEOUT (R25). -/
  | probeAnswerTimeout
  /-- HOLD_TIMER_EXPIRY (R26). -/
  | holdTimerExpiry
  /-- SIGN_TIMER_EXPIRY (R117). -/
  | signTimerExpiry (lane : Lane)
  /-- BLINK_PHASE_TOGGLE (R119). -/
  | blinkPhaseToggle (lane : Lane)
  /-- OVERCURRENT (R123). -/
  | overcurrent (output : Output)
  /-- CURRENT_BELOW_THRESHOLD (R124): the current of an on output falls below the threshold. -/
  | currentBelowThreshold (output : Output)
  /-- BLANKING_END (R122): `low` is whether the current is then below the open-lamp threshold
  (log entry 9). -/
  | blankingEnd (output : Output) (low : Bool)
  /-- OPEN_TIMER_EXPIRY (R124). -/
  | openTimerExpiry (output : Output)
  /-- PROVING_TIMER_EXPIRY (R127): the proving timer of a lane's group expires. -/
  | provingTimerExpiry (lane : Lane)
  /-- PRESENCE_INPUT_CHANGE (R142): the stop-line presence input of a lane changes its reading. -/
  | presenceInputChange (lane : Lane) (occupied : Bool)
  /-- PRESENCE_SETTLED (R142). -/
  | presenceSettled (lane : Lane)
  /-- AMBER_TIMER_EXPIRY (R141). -/
  | amberTimerExpiry (lane : Lane)
  /-- RECOVERY_TIMER_EXPIRY (R136). -/
  | recoveryTimerExpiry
  /-- SPAN_DEADLINE (R150): the span set entry with a tag reaches its deadline. -/
  | spanDeadline (tag : Tag)
  /-- MINUTE_TIMER_EXPIRY (R192). -/
  | minuteTimerExpiry
  /-- POWER_ON (R184). -/
  | powerOn (torn : Option (BitVec 16))
  /-- SUPPLY_DIP (R184). -/
  | supplyDip (torn : Option (BitVec 16))
  /-- RESET_LINE (R184). -/
  | resetLine (torn : Option (BitVec 16))
  /-- RESTART_RESET (R184). -/
  | restartReset (torn : Option (BitVec 16))
  /-- RESET_END (R185). -/
  | resetEnd
  /-- LOAD_READ_COMPLETE (R180): a read attempt completes; `bytes` are the 256 bytes read. -/
  | loadReadComplete (bytes : List Byte)
  /-- LOAD_READ_TIMEOUT (R180): the memory did not answer within 10 ms (`answered = false`), or the
  transfer was not complete within 50 ms. -/
  | loadReadTimeout (answered : Bool)
  /-- CHARACTER_RECEIVED (R195). -/
  | characterReceived (char : Byte) (framingError : Bool)
  /-- RESPONSE_SENT (R195). -/
  | responseSent
  /-- STATUS (R197). -/
  | status
  /-- CONFIG (R186). -/
  | config
  /-- PEERS (R89). -/
  | peers
  /-- APPROACH (R114). -/
  | approach
  /-- QUEUE n (R156). -/
  | queue (lane : Nat)
  /-- SPAN (R156). -/
  | span
  /-- ALERTS (R194). -/
  | alerts
  /-- CLEAR name (R190); `none` for a name that is not one of the 24. -/
  | clear (source : Option AlertSource)
  /-- CLEAR ALL (R190). -/
  | clearAll
  /-- COUNTS (R193). -/
  | counts
  /-- HEALTH (R179). -/
  | health
  /-- HEALTH STEP (R175, R176). -/
  | healthStep
  /-- TRIM (R166). -/
  | trim
  /-- RELEASE n ADMIT (R153). -/
  | releaseAdmit (lane : Nat)
  /-- RELEASE n REMOVE (R154). -/
  | releaseRemove (lane : Nat)
  /-- FORGET tag (R155); `none` for a word that is not written as a tag. -/
  | forget (tag : Option Tag)
  /-- LAMP RESET n (R126). -/
  | lampReset (lane : Nat)
  /-- STRIP RESTORE id (R178); `none` for an identifier that is not in that form. -/
  | stripRestore (strip : Option Strip)
  /-- RESTART (R197). -/
  | restart
  /-- LINE_GOES_BUSY (R66): a start bit appears on the idle corridor line. -/
  | lineGoesBusy
  /-- RECEIPT_END (R70): the last byte of a receipt leaves the line. -/
  | receiptEnd
  /-- CURRENT_RISES_TO_THRESHOLD (R124). -/
  | currentRisesToThreshold (output : Output)
  deriving DecidableEq, Repr

end Sys2Proof
end

