-- ==== Sys2Proof/Decode.lean ====
section
/-! DEFINITION. The commands that words spell. No row of spec/opcode_table.json gives any bits: the
commands of this block are events and typed lines, not words, so no word spells one. The bytes the
block itself reads are decoded where it reads them: frames in Machine/Frames.lean, the image in
Machine/Startup.lean, typed lines in Machine/Operands.lean. -/

namespace Sys2Proof

/-- The command a word spells by the table's bits: none, since the table gives no row any bits (log
entry 37). -/
def decodeTableWord (_nbits _w : Nat) : Option Instr := none

end Sys2Proof
end

