-- ==== Sys2Proof/Config.lean ====
section
/-! DEFINITION. What an implementation of the WTN-480 fixes and the manual leaves open: the free
values of the model. An opaque constant has no body that anything in Lean can see, so a statement
that holds here holds whatever the chip's own choice is. -/

namespace Sys2Proof

/-- DESIGN CHOICE (log entry 6). The check word of the keep-alive store "over those values"
(section 11.6, R185): the manual gives its width and when it is formed, not the function. The
arguments are the code of the reset cause, the restart count and the four active trims. -/
opaque Config.checkWord : Nat → Byte → List Nat → BitVec 16

/-- DESIGN CHOICE (log entry 12). Whether a straddle trail goes to the lower of its two lanes when the
oldest STRADDLE leads of the pair in both lanes joined at one clock reading: R8 takes the earliest
joined and does not say which that is at equal join times. The arguments are the two lanes and the
join time. -/
opaque Config.straddleTieToLower : Lane → Lane → Clock → Bool

end Sys2Proof
end

