-- ==== Sys2Proof/Machine/State.lean ====
section
/-! DEFINITION. Everything a WTN-480 holds, block by block as 00_scope.md lists the blocks, as plain
data; the machine right after reset; the reasons a step can stop. Timers are the clock reading at
which they expire, or `none` while stopped. Times are clock readings modulo 2^32. -/

namespace Sys2Proof.Machine

/-! ## Small vocabularies -/

/-- The five start-up states (section 11.1). -/
inductive Startup where
  | reset | loading | fault | joining | running
  deriving DecidableEq, Repr

/-- The four causes of a reset (R184), in the order of their beacon codes. -/
inductive ResetCause where
  | powerOn | supplyDip | resetLine | restart
  deriving DecidableEq, Repr

/-- Lane modes (section 1.2). -/
inductive LaneMode where
  | dual | single | blind
  deriving DecidableEq, Repr

/-- Speed bands (R23). -/
inductive Band where
  | slow | mid | fast
  deriving DecidableEq, Repr

/-- Confidence; REDUCED is the worse (00_scope, Severity and confidence). -/
inductive Confidence where
  | full | reduced
  deriving DecidableEq, Repr

/-- Verdicts in order of severity (00_scope, Severity and confidence). -/
inductive Verdict where
  | clear | border | over | unweighed
  deriving DecidableEq, Repr

/-- Postures (R87), in the order of their beacon codes. -/
inductive Posture where
  | joining | normal | guarded | isolated
  deriving DecidableEq, Repr

/-- Aspects of a signal head (R140). -/
inductive Aspect where
  | red | amber | green | dark
  deriving DecidableEq, Repr

/-! ## The configuration image as read (section 11.2) -/

/-- The calibration block of one strip. -/
structure StripCal where
  kSlow : Nat
  kMid : Nat
  kFast : Nat
  beta : Int
  autoBand : Bool
  deriving DecidableEq, Repr

/-- What sets the sticky of a condition source (R188). -/
inductive Trigger where
  | level | rise | fall | change
  deriving DecidableEq, Repr

/-- One alert configuration byte. -/
structure AlertConfig where
  enable : Bool
  mapA : Bool
  mapB : Bool
  trigger : Trigger
  bypass : Bool
  deriving DecidableEq, Repr

/-- The configuration: the fields of the accepted image (R182). -/
structure Configuration where
  station : Station
  divert : Bool
  entry : Bool
  exit : Bool
  beyondExit : Bool
  exitInstalled : Bool
  flash : Bool
  minuteMode : Bool
  chainage : Nat
  laneCount : Nat
  expected : Tab Bool 8
  refPeer : Option Station
  matchTolerance : Nat
  margin : Nat
  padding : Nat
  sMax : Nat
  tMax : Nat
  longLimit : Nat
  minArea : Nat
  axleLimit : Nat
  grossLimit : Nat
  spanLimit : Nat
  heavyThreshold : Nat
  transit : Nat
  signHold : Nat
  spacing : Tab Nat 4
  cal : Tab StripCal 8
  alerts : Tab AlertConfig 24
  deriving DecidableEq, Repr

/-- Why an image was refused (R180, R181). -/
inductive RefusalCause where
  | noMemory | crc | version | range (offset : Nat) | role
  deriving DecidableEq, Repr

/-- The image status (R180). -/
inductive ImageStatus where
  | loading | valid | refused (cause : RefusalCause)
  deriving DecidableEq, Repr

/-- The configuration loader (R180). -/
structure Loader where
  image : List Byte
  status : ImageStatus
  /-- the read attempt in progress or last made, 1 or 2 -/
  attempt : Nat
  /-- clock reading at the request of that attempt -/
  requested : Clock
  deriving DecidableEq, Repr

/-- The keep-alive store (section 11.6). -/
structure Store where
  cause : ResetCause
  restarts : Byte
  trims : Tab Nat 4
  check : BitVec 16
  deriving DecidableEq, Repr

/-! ## Strip channels and pairing units (chapter 1) -/

/-- The states of a strip channel (section 1.1). -/
inductive ChannelState where
  | off | wait | armed | pulse
  deriving DecidableEq, Repr

/-- A strip channel: its state, the pulse being gathered (R2) and its noise count (R3). -/
structure Channel where
  state : ChannelState
  start : Clock
  area : Nat
  clipped : Bool
  noise : Count
  deriving DecidableEq, Repr

/-- A hit report (R2). -/
structure HitReport where
  strip : Strip
  start : Clock
  width : Nat
  area : Nat
  clipped : Bool
  deriving DecidableEq, Repr

/-- A hit in a coincidence hold (section 1.3): its report, delivery time, stamped mode and the
expiry of its 40 ms coincidence timer. The timer runs exactly while the hold holds a hit. -/
structure HeldHit where
  hit : HitReport
  delivered : Clock
  mode : LaneMode
  expires : Clock
  deriving DecidableEq, Repr

/-- A hit that has left the coincidence hold (R6, R7). It carries STRADDLE exactly when it has a
partner lane. -/
structure Hit where
  lane : Lane
  pos : Pos
  start : Clock
  width : Nat
  area : Nat
  clipped : Bool
  partner : Option Lane
  mode : LaneMode
  deriving DecidableEq, Repr

/-- A pending lead (R10); STRADDLE exactly when it has a partner lane. -/
structure PendingLead where
  start : Clock
  width : Nat
  area : Nat
  clipped : Bool
  partner : Option Lane
  joined : Clock
  expiry : Clock
  deriving DecidableEq, Repr

/-- The pairing unit of one lane (chapter 1): two coincidence holds, the pending-lead FIFO (front
first) and the speed history (oldest first). -/
structure PairingUnit where
  leadHold : Option HeldHit
  trailHold : Option HeldHit
  fifo : List PendingLead
  history : List Nat
  deriving DecidableEq, Repr

/-! ## Axles, vehicles and records (chapters 1 to 3) -/

/-- The flags of an axle record (R17), but for STRADDLE, which is the presence of a partner lane. -/
structure AxleFlags where
  slow : Bool := false
  fast : Bool := false
  long : Bool := false
  areaClip : Bool := false
  loadSat : Bool := false
  disagree : Bool := false
  unpaired : Bool := false
  single : Bool := false
  noTemp : Bool := false
  unweighed : Bool := false
  deriving DecidableEq, Repr

/-- An axle record (R17). It carries STRADDLE exactly when it has a partner lane. -/
structure Axle where
  time : Clock
  lane : Lane
  partner : Option Lane
  speed : Option Nat
  load : Option Nat
  band : Option Band
  flags : AxleFlags
  deriving DecidableEq, Repr

/-- The open vehicle of a lane (section 3.1), with the expiry of the lane's close timer, which runs
exactly while a vehicle is open. -/
structure OpenVehicle where
  axles : List Axle
  spacings : List (Option Nat)
  continuation : Bool
  closeAt : Clock
  deriving DecidableEq, Repr

/-- A closed vehicle record (section 3.8). STRADDLE is the presence of a partner lane. -/
structure Record where
  lane : Lane
  partner : Option Lane
  time : Clock
  axles : List Axle
  spacings : List (Option Nat)
  gross : Nat
  speed : Option Nat
  confidence : Confidence
  verdict : Verdict
  overlong : Bool
  continuation : Bool
  unweighed : Bool
  heavy : Bool
  tag : Option Tag
  effGross : Nat
  effVerdict : Verdict
  directed : Bool
  reference : Option Nat
  deriving DecidableEq, Repr

/-! ## The probe unit (section 2.4) -/

/-- The probe unit: the temperature, `none` while INVALID; the sample timer; the end of the 50 ms
answer time of an outstanding request; the hold timer. -/
structure Probe where
  theta : Option Int
  sampleTimer : Option Clock
  answerBy : Option Clock
  holdTimer : Option Clock
  deriving DecidableEq, Repr

/-! ## The corridor line (chapter 4) -/

/-- The VEHICLE and SIGHTING body but for its age (section 4.2), with the SPACINGS flag as the
presence of the spacing steps. A speed of 0 is an absent one; an absent load is 0xFFFF. -/
structure WeighingBody where
  tag : Tag
  lane : Lane
  partner : Option Lane
  speed : Nat
  straddle : Bool
  overlong : Bool
  continuation : Bool
  unweighed : Bool
  singleSource : Bool
  ownGross : Nat
  ownConfidence : Confidence
  ownVerdict : Verdict
  effGross : Nat
  effVerdict : Verdict
  directed : Bool
  spacings : Option (List Byte)
  loads : List (Option Nat)
  deriving DecidableEq, Repr

/-- The BEACON body (section 4.2). -/
structure BeaconBody where
  restarts : Byte
  cause : ResetCause
  divert : Bool
  entry : Bool
  exit : Bool
  beyondExit : Bool
  chainage : Nat
  laneCount : Nat
  blind : Tab Bool 4
  posture : Posture
  entryDegraded : Bool
  signDegraded : Bool
  deriving DecidableEq, Repr

/-- The body of a frame, by kind (section 4.2), with the age where the kind has one. -/
inductive Body where
  | receipt (sender sequence kind : Byte)
  | entered (tag : Tag) (lane : Lane) (weight gross age : Nat)
  | left (tag : Tag) (age : Nat)
  | vehicle (body : WeighingBody) (age : Nat)
  | sighting (body : WeighingBody) (age : Nat)
  | beacon (body : BeaconBody)
  deriving DecidableEq, Repr

/-- A frame (section 4.2). -/
structure Frame where
  sender : Station
  sequence : Byte
  receiptFrom : Option Station
  body : Body
  deriving DecidableEq, Repr

/-- A notice composed for the outbound queue: its body but for the age, receipt-from and beacon
contents, which are filled in at each attempt (R58 to R60), with the reference time of its age. -/
inductive Notice where
  | vehicle (body : WeighingBody) (reference : Clock)
  | sighting (body : WeighingBody) (reference : Clock)
  | entered (tag : Tag) (lane : Lane) (weight gross : Nat) (reference : Clock)
  | left (tag : Tag) (reference : Clock)
  | beacon
  deriving DecidableEq, Repr

/-- A waiting frame of the outbound queue (section 4.4). -/
structure Waiting where
  notice : Notice
  queued : Clock
  deriving DecidableEq, Repr

/-- The transmit state (section 4.5); AWAITING holds the earliest expiry of its receipt wait. -/
inductive Transmit where
  | idle | contending | sending | awaiting (until_ : Clock)
  deriving DecidableEq, Repr

/-- The frame in flight (section 4.5), with the bytes of its latest attempt. -/
structure Flight where
  notice : Notice
  sequence : Byte
  attempts : Nat
  collisions : Nat
  receiptFrom : Option Station
  bytes : List Byte
  deriving DecidableEq, Repr

/-- A frame in a receive slot, with its arrival time (R74). -/
structure Stored where
  frame : Frame
  arrival : Clock
  deriving DecidableEq, Repr

/-- A receipt the station owes (R70): what its body echoes. -/
structure OwedReceipt where
  sender : Station
  sequence : Byte
  kind : Byte
  deriving DecidableEq, Repr

/-- The line counts (R76). -/
structure LineCounts where
  badFrames : Count := 0
  formatDrops : Count := 0
  duplicates : Count := 0
  misses : Count := 0
  collisions : Count := 0
  retries : Count := 0
  delivered : Count := 0
  failures : Count := 0
  drops : Count := 0
  discards : Count := 0
  deriving DecidableEq, Repr

/-- The line controller (chapter 4). `slots` holds the stored frames, oldest arrival first; handling
is in progress on the first. `idleSince` is the end of the last stop bit seen, `none` while a frame
is in progress on the line. `looking` is whether a frame is looked for in the busy period that the
last LINE_GOES_BUSY began (R56); nothing reads it while the line is idle. `driving` is the receipt
being driven. -/
structure Line where
  transmit : Transmit
  flight : Option Flight
  queue : List Waiting
  nextSequence : Byte
  slots : List Stored
  owed : Option OwedReceipt
  driving : Option (List Byte)
  idleSince : Option Clock
  looking : Bool
  counts : LineCounts
  deriving DecidableEq, Repr

/-! ## The peer table (chapter 5) -/

/-- The states of a peer row. -/
inductive RowState where
  | absent | present | silent
  deriving DecidableEq, Repr

/-- What a row knows from the last beacon heard (section 5.1). -/
structure Heard where
  body : BeaconBody
  at_ : Clock
  deriving DecidableEq, Repr

/-- A row of the peer table (section 5.1). -/
structure PeerRow where
  state : RowState
  expected : Bool
  heard : Option Heard
  silence : Option Clock
  lastSequence : Option Byte
  failures : Nat
  deriving DecidableEq, Repr

/-- The peer table: its rows, the posture (R87), the join timer (R78) and the beacon timer (R80). -/
structure Peers where
  rows : Tab PeerRow 8
  posture : Posture
  joinTimer : Option Clock
  beaconTimer : Option Clock
  deriving DecidableEq, Repr

/-! ## The approach list (chapter 6) -/

/-- An approach entry (section 6.1). -/
structure ApproachEntry where
  tag : Tag
  lastStation : Station
  seen : Clock
  lane : Lane
  speed : Option Nat
  axleCount : Option Nat
  spacings : Option (List Nat)
  effGross : Nat
  effVerdict : Verdict
  confidence : Confidence
  directed : Bool
  reference : Option Nat
  straddle : Bool
  overlong : Bool
  continuation : Bool
  singleSource : Bool
  windowOpen : Clock
  windowClose : Clock
  created : Clock
  deriving DecidableEq, Repr

/-- The counts of the approach list (R114). -/
structure ApproachCounts where
  created : Count := 0
  updated : Count := 0
  matched : Count := 0
  late : Count := 0
  passedUnseen : Count := 0
  expired : Count := 0
  evicted : Count := 0
  notPresent : Count := 0
  clash : Count := 0
  held : Count := 0
  deriving DecidableEq, Repr

/-- The approach list, its entries kept in the order in which they were created. -/
structure Approach where
  entries : List ApproachEntry
  counts : ApproachCounts
  deriving DecidableEq, Repr

/-! ## Signs and lamps (chapter 7) -/

/-- The blink phase of a requested sign (R119), and the reading at which it next changes. -/
structure Blink where
  on : Bool
  changeAt : Clock
  deriving DecidableEq, Repr

/-- The sign of one lane: its sign timer and its blink phase, absent unless requested. -/
structure Sign where
  timer : Option Clock
  blink : Option Blink
  deriving DecidableEq, Repr

/-- What an output serves in its group (R121). -/
inductive Lamp where
  | red | amber | green | sign
  deriving DecidableEq, Repr

/-- A latched fault of an output (section 7.4). -/
inductive Latch where
  | none | overcurrent | open_
  deriving DecidableEq, Repr

/-- A lamp output (section 7.4). `blanking` is the end of the 20 ms blanking time of an output that
was switched on; `low` is whether its current, looked at since the blanking time ended, is below
the open-lamp threshold. -/
structure LampOutput where
  assignment : Option (Lane × Lamp)
  enable : Bool
  demand : Bool
  on : Bool
  latch : Latch
  blanking : Option Clock
  low : Bool
  openTimer : Option Clock
  deriving DecidableEq, Repr

/-- The lamp unit: the outputs and the proving timer of each lane's group. -/
structure LampUnit where
  outputs : Tab LampOutput 12
  proving : Tab (Option Clock) 4
  deriving DecidableEq, Repr

/-! ## The entry controller (chapter 8) -/

/-- The state of the record at the front of a stop-line queue (section 8.1), with the admission
weight of an ADMITTED or HELD head and the hold time of a HELD head. -/
inductive HeadState where
  | none
  | free
  | stop
  | admitted (weight : Nat)
  | held (weight : Nat) (since : Clock)
  deriving DecidableEq, Repr

/-- One lane of the entry controller: stop-line queue (head first), head state, aspect, amber timer,
presence state (`true` is OCCUPIED) and settle timer. -/
structure StopLine where
  queue : List Record
  head : HeadState
  aspect : Option Aspect
  amber : Option Clock
  occupied : Bool
  settle : Option Clock
  deriving DecidableEq, Repr

/-- A span set entry (R148). -/
structure SpanEntry where
  tag : Tag
  lane : Lane
  weight : Nat
  entered : Clock
  deadline : Clock
  overdue : Bool
  redRun : Bool
  uncontrolled : Bool
  unseen : Bool
  noncompliant : Bool
  deriving DecidableEq, Repr

/-- Accounting modes (R149). -/
inductive Accounting where
  | tracked | timed
  deriving DecidableEq, Repr

/-- The entry controller (section 8.1). `held` is the held set in its order; the committed weight
and the span weight total are the sums the manual says they are, computed from the heads and the
span set (log entry 29). -/
structure EntryController where
  lanes : Tab StopLine 4
  held : List Lane
  span : List SpanEntry
  mode : Accounting
  recovery : Option Clock
  lost : Bool
  phantoms : Count
  lightCrossed : Count
  unknownLeft : Count
  turnedAway : Count
  forgotten : Count
  deriving DecidableEq, Repr

/-! ## Trim unit, health monitor, alert unit, counters (chapters 9, 10 and 12) -/

/-- The trim unit's state of one lane (R157), but for the active trim, which the keep-alive store
holds (R158). -/
structure TrimLane where
  window : List Nat
  pending : Option Nat
  samples : Count
  refused : Count
  clamped : Count
  formed : Count
  applied : Count
  deriving DecidableEq, Repr

/-- The causes of a hard event (section 10.3). -/
inductive HardCause where
  | silent | clipped | stuck
  deriving DecidableEq, Repr

/-- The health record of one strip (section 10.1): condition, runs and indication record. The hard
flag is the presence of the hard cause. -/
structure StripHealth where
  failed : Bool
  silenceRun : Nat
  clipRun : Nat
  hard : Option HardCause
  hardTime : Option Clock
  hardOverflow : Bool
  soft : Bool
  softTime : Option Clock
  softOverflow : Bool
  deriving DecidableEq, Repr

/-- The monitor states (section 10.1). -/
inductive MonitorState where
  | idle | listen | readout
  deriving DecidableEq, Repr

/-- The health monitor. -/
structure Health where
  strips : Tab StripHealth 8
  state : MonitorState
  walk : Option Strip
  deriving DecidableEq, Repr

/-- What the alert unit keeps of one source (R187); its configuration stands in the image. -/
structure AlertState where
  remembered : Bool
  sticky : Bool
  count : Count
  deriving DecidableEq, Repr

/-- The alert unit and its two lines (R191); `true` is asserted. -/
structure AlertUnit where
  sources : Tab AlertState 24
  lineA : Bool
  lineB : Bool
  deriving DecidableEq, Repr

/-- The seven counters of a lane (R192). -/
structure LaneCounts where
  axles : Count := 0
  light : Count := 0
  heavy : Count := 0
  diverted : Count := 0
  complied : Count := 0
  stopped : Count := 0
  redRuns : Count := 0
  deriving DecidableEq, Repr

/-- The traffic counters (R192). -/
structure Counters where
  lanes : Tab LaneCounts 4
  snapshots : Option (Tab LaneCounts 4)
  minutes : Count
  minuteTimer : Option Clock
  deriving DecidableEq, Repr

/-! ## The maintenance port (section 12.5) -/

/-- A printed value (R196): absent, a number, a name, or a list. -/
inductive Value where
  | absent
  | number (n : Int)
  | name (s : String)
  | numbers (l : List (Option Int))
  | names (l : List String)
  deriving DecidableEq, Repr

/-- A printed record (R196): its name, its key and its fields. -/
structure PrintedRecord where
  name : String
  key : Value
  fields : List (String × Value)
  deriving DecidableEq, Repr

/-- The refusal codes of the port (R195, R196). -/
inductive ErrorCode where
  | badCmd | badArg | state | long
  deriving DecidableEq, Repr

/-- A response: records followed by OK, or one ERR line (R195, R196). -/
inductive Response where
  | ok (records : List PrintedRecord)
  | err (code : ErrorCode)
  deriving DecidableEq, Repr

/-- The port states (section 12.5). -/
inductive PortState where
  | collecting | discarding | responding
  deriving DecidableEq, Repr

/-- How far an accepted RESTART command has come (R184, R197). -/
inductive RestartPhase where
  | none
  /-- its OK is being sent -/
  | answering
  /-- its OK has left the port; the reset follows -/
  | due
  deriving DecidableEq, Repr

/-- The maintenance port (R195). `afterReturn` is whether the last character received was a carriage
return. -/
structure Port where
  state : PortState
  buffer : List Byte
  garbled : Bool
  afterReturn : Bool
  response : Option Response
  restart : RestartPhase
  linesTaken : Count
  linesRefused : Count
  longLines : Count
  discarded : Count
  deriving DecidableEq, Repr

/-- The levels the outside holds the inputs at: for each strip whether its conditioned signal is
above the trigger level, and for each lane what the presence input reads (`true` is occupied). -/
structure Inputs where
  above : Tab Bool 8
  presence : Tab Bool 4
  deriving DecidableEq, Repr

/-! ## The state -/

/-- Everything a WTN-480 holds. `pending` is the model's own queue of waiting commands. -/
structure State where
  pending : List Instr
  clock : Clock
  startup : Startup
  /-- the pending cause, looked at in RESET only (R184) -/
  pendingCause : ResetCause
  /-- the end of the 1 ms a RESTART lasts, `none` once it is over (R184) -/
  restartHold : Option Clock
  loader : Loader
  cfg : Configuration
  store : Store
  inputs : Inputs
  channels : Tab Channel 8
  pairing : Tab PairingUnit 4
  probe : Probe
  vehicles : Tab (Option OpenVehicle) 4
  nextSerial : BitVec 12
  line : Line
  peers : Peers
  approach : Approach
  signs : Tab Sign 4
  lamps : LampUnit
  entry : EntryController
  trim : Tab TrimLane 4
  health : Health
  alerts : AlertUnit
  counters : Counters
  port : Port
  deriving DecidableEq, Repr

/-- The reasons a step stops with a fault. There is none: the manual gives every command an effect in
every state, so the type has no constructor. -/
inductive Fault where
  deriving DecidableEq, Repr

/-- The reasons a step is refused. -/
inductive Refusal where
  /-- raised by `exec` for a command that has no meaning yet; safe, since it only stops -/
  | notModelled (mnemonic : String)
  deriving DecidableEq, Repr

/-! ## The values after reset -/

/-- The configuration before an image is accepted; nothing reads it (log entry 4). -/
def Configuration.blank : Configuration :=
  { station := 0, divert := false, entry := false, exit := false, beyondExit := false
    exitInstalled := false, flash := false, minuteMode := false, chainage := 0, laneCount := 0
    expected := Tab.fill 8 false, refPeer := none, matchTolerance := 0, margin := 0, padding := 0
    sMax := 0, tMax := 0, longLimit := 0, minArea := 0, axleLimit := 0, grossLimit := 0
    spanLimit := 0, heavyThreshold := 0, transit := 0, signHold := 0, spacing := Tab.fill 4 0
    cal := Tab.fill 8 { kSlow := 0, kMid := 0, kFast := 0, beta := 0, autoBand := false }
    alerts := Tab.fill 24
      { enable := false, mapA := false, mapB := false, trigger := .level, bypass := false } }

/-- R180: after every reset the image is empty and its status is LOADING. The rest is log entry 38. -/
def Loader.afterReset : Loader := { image := [], status := .loading, attempt := 1, requested := 0 }

/-- R1: every channel is OFF; R3: its noise count is zero. The rest is log entry 38. -/
def Channel.afterReset : Channel :=
  { state := .off, start := 0, area := 0, clipped := false, noise := 0 }

/-- Section 1.3 to 1.5: empty holds, FIFO and history. -/
def PairingUnit.afterReset : PairingUnit :=
  { leadHold := none, trailHold := none, fifo := [], history := [] }

/-- Section 2.4: INVALID, both timers stopped. -/
def Probe.afterReset : Probe :=
  { theta := none, sampleTimer := none, answerBy := none, holdTimer := none }

/-- R61, R65, R74, R76: nothing waiting, in flight, stored or owed; every count 0. Idle since reading
0 is log entry 22, and the mark of a looked-for frame log entry 38. -/
def Line.afterReset : Line :=
  { transmit := .idle, flight := none, queue := [], nextSequence := 0, slots := [], owed := none
    driving := none, idleSince := some 0, looking := false, counts := {} }

/-- R77: a row after reset. -/
def PeerRow.afterReset : PeerRow :=
  { state := .absent, expected := false, heard := none, silence := none, lastSequence := none
    failures := 0 }

/-- R77, R87. -/
def Peers.afterReset : Peers :=
  { rows := Tab.fill 8 PeerRow.afterReset, posture := .joining, joinTimer := none
    beaconTimer := none }

/-- R90. -/
def Approach.afterReset : Approach := { entries := [], counts := {} }

/-- R117, R119. -/
def Sign.afterReset : Sign := { timer := none, blink := none }

/-- Section 7.4: an output after reset. -/
def LampOutput.afterReset : LampOutput :=
  { assignment := none, enable := false, demand := false, on := false, latch := .none
    blanking := none, low := false, openTimer := none }

/-- Section 7.4. -/
def LampUnit.afterReset : LampUnit :=
  { outputs := Tab.fill 12 LampOutput.afterReset, proving := Tab.fill 4 none }

/-- Section 8.1: a lane after reset. -/
def StopLine.afterReset : StopLine :=
  { queue := [], head := .none, aspect := none, amber := none, occupied := false, settle := none }

/-- Section 8.1, R156. -/
def EntryController.afterReset : EntryController :=
  { lanes := Tab.fill 4 StopLine.afterReset, held := [], span := [], mode := .timed
    recovery := none, lost := false, phantoms := 0, lightCrossed := 0, unknownLeft := 0
    turnedAway := 0, forgotten := 0 }

/-- R157. -/
def TrimLane.afterReset : TrimLane :=
  { window := [], pending := none, samples := 0, refused := 0, clamped := 0, formed := 0
    applied := 0 }

/-- Section 10.1. -/
def StripHealth.afterReset : StripHealth :=
  { failed := false, silenceRun := 0, clipRun := 0, hard := none, hardTime := none
    hardOverflow := false, soft := false, softTime := none, softOverflow := false }

/-- Section 10.1. -/
def Health.afterReset : Health :=
  { strips := Tab.fill 8 StripHealth.afterReset, state := .idle, walk := none }

/-- R187, R191: no sticky, nothing remembered, both lines released. -/
def AlertUnit.afterReset : AlertUnit :=
  { sources := Tab.fill 24 { remembered := false, sticky := false, count := 0 }
    lineA := false, lineB := false }

/-- R192. -/
def Counters.afterReset : Counters :=
  { lanes := Tab.fill 4 {}, snapshots := none, minutes := 0, minuteTimer := none }

/-- R195: an empty buffer and counts of 0. -/
def Port.afterReset : Port :=
  { state := .collecting, buffer := [], garbled := false, afterReturn := false, response := none
    restart := .none, linesTaken := 0, linesRefused := 0, longLines := 0, discarded := 0 }

/-- The beacon code of a reset cause (section 4.2). -/
def ResetCause.code : ResetCause → Nat
  | .powerOn => 0
  | .supplyDip => 1
  | .resetLine => 2
  | .restart => 3

/-- R185 step 1: the store as after power-on, its check word formed (step 3). State.reset
takes it too (log entry 30). -/
def Store.afterPowerOn : Store :=
  { cause := .powerOn, restarts := 0, trims := Tab.fill 4 4096
    check := Config.checkWord 0 0 [4096, 4096, 4096, 4096] }

/-- A station in RESET: every block at its value after reset. The store, the input levels and the
queue of waiting commands are not touched by a reset, and come from outside. -/
def State.inReset (cause : ResetCause) (hold : Option Clock) (store : Store) (inputs : Inputs)
    (pending : List Instr) : State :=
  { pending := pending, clock := 0, startup := .reset, pendingCause := cause, restartHold := hold
    loader := Loader.afterReset, cfg := Configuration.blank, store := store, inputs := inputs
    channels := Tab.fill 8 Channel.afterReset, pairing := Tab.fill 4 PairingUnit.afterReset
    probe := Probe.afterReset, vehicles := Tab.fill 4 none, nextSerial := 0
    line := Line.afterReset, peers := Peers.afterReset, approach := Approach.afterReset
    signs := Tab.fill 4 Sign.afterReset, lamps := LampUnit.afterReset
    entry := EntryController.afterReset, trim := Tab.fill 4 TrimLane.afterReset
    health := Health.afterReset, alerts := AlertUnit.afterReset
    counters := Counters.afterReset, port := Port.afterReset }

/-- The machine right after a first power-up: in RESET with the pending cause POWER-ON (R184), every
block at its value after reset, the inputs idle (log entries 3, 4, 5). -/
def State.reset : State :=
  State.inReset .powerOn none Store.afterPowerOn
    { above := Tab.fill 8 false, presence := Tab.fill 4 false } []

end Sys2Proof.Machine
end

