-- ==== Sys2Proof/Machine/Ops.lean ====
section
/-! DEFINITION. The operations every block shares: clock arithmetic and timers, wrapping counts,
lists of lanes, strips, stations and outputs, access to per-strip tables, and the outcome of a
command whose event does not take place. -/

namespace Sys2Proof.Machine

/-- What a command answers. -/
abbrev Result := Host.Outcome State Fault Refusal

/-! ## The station clock -/

/-- The time from one reading to another, modulo 2^32 (00_scope, Station clock and time). -/
def elapsed (now since : Clock) : Nat := (now - since).toNat

/-- The reading a number of microseconds after another. -/
def later (t : Clock) (micros : Nat) : Clock := t + BitVec.ofNat 32 micros

/-- The reading a number of microseconds before another. -/
def earlier (t : Clock) (micros : Nat) : Clock := t - BitVec.ofNat 32 micros

/-- R91: reading `t` is at or after reading `x`. -/
def atOrAfter (t x : Clock) : Bool := decide ((t - x).toNat < 2147483648)

/-- The earlier of two readings, in the order of R91. -/
def earlierOf (a b : Clock) : Clock := if atOrAfter b a then a else b

/-- A running timer has reached its expiry (log entry 11). -/
def due (now : Clock) (timer : Option Clock) : Bool :=
  match timer with
  | none => false
  | some expiry => atOrAfter now expiry

/-- The signed difference of two readings (R114, R156). -/
def signedDiff (a b : Clock) : Int := (a - b).toInt

/-- Byte times of the corridor line in microseconds: one byte takes 40 µs (R55). -/
def byteTimes (n : Nat) : Nat := n * 40

/-! ## Lists of things -/

/-- Lanes 1 to 4. -/
def allLanes : List Lane := [0, 1, 2, 3]

/-- The strips in strip order (00_scope, Lanes, strips and stations). -/
def allStrips : List Strip :=
  [⟨0, .lead⟩, ⟨0, .trail⟩, ⟨1, .lead⟩, ⟨1, .trail⟩, ⟨2, .lead⟩, ⟨2, .trail⟩, ⟨3, .lead⟩,
    ⟨3, .trail⟩]

/-- Stations 1 to 8. -/
def allStations : List Station := [0, 1, 2, 3, 4, 5, 6, 7]

/-- Outputs 1 to 12. -/
def allOutputs : List Output := [0, 1, 2, 3, 4, 5, 6, 7, 8, 9, 10, 11]

/-- Where a strip stands in strip order: 1L first, 4T last. -/
def stripIndex (p : Strip) : Fin 8 :=
  match p with
  | ⟨0, .lead⟩ => 0
  | ⟨0, .trail⟩ => 1
  | ⟨1, .lead⟩ => 2
  | ⟨1, .trail⟩ => 3
  | ⟨2, .lead⟩ => 4
  | ⟨2, .trail⟩ => 5
  | ⟨3, .lead⟩ => 6
  | ⟨3, .trail⟩ => 7

/-- The lane with a number 1..4. -/
def laneOfNumber (n : Nat) : Option Lane :=
  match n with
  | 1 => some 0
  | 2 => some 1
  | 3 => some 2
  | 4 => some 3
  | _ => none

/-- The station with a number 1..8. -/
def stationOfNumber (n : Nat) : Option Station :=
  match n with
  | 1 => some 0
  | 2 => some 1
  | 3 => some 2
  | 4 => some 3
  | 5 => some 4
  | 6 => some 5
  | 7 => some 6
  | 8 => some 7
  | _ => none

/-- The lane is one the station serves: 1 up to the lane count. -/
def laneInUse (s : State) (l : Lane) : Bool := decide (l.val < s.cfg.laneCount)

/-- The lanes the station serves, in order. -/
def lanesInUse (s : State) : List Lane := allLanes.filter (laneInUse s)

/-- The strips of the lanes the station serves, in strip order. -/
def stripsInUse (s : State) : List Strip := allStrips.filter fun p => laneInUse s p.lane

/-- The station is past LOADING and not in FAULT: JOINING or RUNNING (section 11.1). -/
def working (s : State) : Bool :=
  match s.startup with
  | .joining | .running => true
  | _ => false

/-- The ENTRY controller acts (R129). -/
def entryActs (s : State) : Bool := working s && s.cfg.entry

/-! ## Per-strip and per-lane access -/

/-- The channel of a strip. -/
def channelOf (s : State) (p : Strip) : Channel := s.channels.at (stripIndex p)

/-- Replace the channel of a strip. -/
def setChannel (p : Strip) (c : Channel) (s : State) : State :=
  { s with channels := s.channels.put (stripIndex p) c }

/-- The level of a strip's signal: above the trigger level or not. -/
def signalAbove (s : State) (p : Strip) : Bool := s.inputs.above.at (stripIndex p)

/-- Record the level of a strip's signal. -/
def setSignal (p : Strip) (above : Bool) (s : State) : State :=
  { s with inputs.above := s.inputs.above.put (stripIndex p) above }

/-- The health record of a strip. -/
def healthOf (s : State) (p : Strip) : StripHealth := s.health.strips.at (stripIndex p)

/-- Replace the health record of a strip. -/
def setHealth (p : Strip) (h : StripHealth) (s : State) : State :=
  { s with health.strips := s.health.strips.put (stripIndex p) h }

/-- Replace the pairing unit of a lane. -/
def setPairing (l : Lane) (u : PairingUnit) (s : State) : State :=
  { s with pairing := s.pairing.put l u }

/-- Replace the open vehicle of a lane. -/
def setVehicle (l : Lane) (v : Option OpenVehicle) (s : State) : State :=
  { s with vehicles := s.vehicles.put l v }

/-- Replace one lane of the entry controller. -/
def setStopLine (l : Lane) (x : StopLine) (s : State) : State :=
  { s with entry.lanes := s.entry.lanes.put l x }

/-- Replace the trim unit's state of a lane. -/
def setTrim (l : Lane) (x : TrimLane) (s : State) : State :=
  { s with trim := s.trim.put l x }

/-- Replace a row of the peer table. -/
def setRow (k : Station) (r : PeerRow) (s : State) : State :=
  { s with peers.rows := s.peers.rows.put k r }

/-- Replace a lamp output. -/
def setOutput (o : Output) (x : LampOutput) (s : State) : State :=
  { s with lamps.outputs := s.lamps.outputs.put o x }

/-- Change the traffic counters of a lane (R192). -/
def countLane (l : Lane) (f : LaneCounts → LaneCounts) (s : State) : State :=
  { s with counters.lanes := s.counters.lanes.upd l f }

/-- Change the line counts (R76). -/
def countLine (f : LineCounts → LineCounts) (s : State) : State :=
  { s with line.counts := f s.line.counts }

/-- Change the approach list's counts (R114). -/
def countApproach (f : ApproachCounts → ApproachCounts) (s : State) : State :=
  { s with approach.counts := f s.approach.counts }

/-- A command whose event cannot take place in the present state (an expiry of a timer that is
stopped or not yet due, a fall of a signal that is not above the level) changes nothing: "the expiry
does not take place" (R12, R26, R41, R84, R99, R117, R124, R141). DESIGN CHOICE (log entry 2). -/
def noEvent (s : State) : Result := .next s

end Sys2Proof.Machine
end

