-- ==== Sys2Proof/Machine/Flags.lean ====
section
/-! DEFINITION. Everything the manual computes from the state without keeping it: flags and
confidence of axles and vehicles, severity, lane modes, raw states of the condition sources, faulted
groups, degraded conditions, the sums of the entry controller and the answers of the peer table. -/

namespace Sys2Proof.Machine

/-! ## Severity, confidence and flags -/

/-- The severity of a verdict, which is also its code on the line (section 4.2). -/
def Verdict.code : Verdict → Nat
  | .clear => 0
  | .border => 1
  | .over => 2
  | .unweighed => 3

/-- The worse of two verdicts (00_scope, Severity and confidence). -/
def Verdict.worse (a b : Verdict) : Verdict := if a.code < b.code then b else a

/-- The worse of two confidences. -/
def Confidence.worse (a b : Confidence) : Confidence :=
  if a = .reduced ∨ b = .reduced then .reduced else .full

/-- R17: an axle that carries any flag at all is REDUCED. -/
def Axle.reduced (a : Axle) : Bool :=
  a.partner.isSome || decide (a.flags ≠ {})

/-- R47: a value judged against a limit with a margin in percent. -/
def judge (limit margin value : Nat) : Verdict :=
  if limit < value then .over
  else if limit - limit * margin / 100 < value then .border
  else .clear

/-- STRADDLE of a vehicle record (R43). -/
def Record.straddle (r : Record) : Bool := r.partner.isSome

/-- SINGLE-source of a record: some axle carries SINGLE (R58, R106). -/
def Record.singleSource (r : Record) : Bool := r.axles.any fun a => a.flags.single

/-! ## Lane modes (R174) -/

/-- A strip is FAILED. -/
def stripFailed (s : State) (p : Strip) : Bool := (healthOf s p).failed

/-- R174: the mode of a lane follows from the conditions of its two strips. -/
def laneMode (s : State) (l : Lane) : LaneMode :=
  match stripFailed s ⟨l, .lead⟩, stripFailed s ⟨l, .trail⟩ with
  | false, false => .dual
  | true, true => .blind
  | _, _ => .single

/-- The lane is within the lane count and BLIND. -/
def laneBlind (s : State) (l : Lane) : Bool := laneInUse s l && decide (laneMode s l = .blind)

/-- A strip holds an indication (section 10.1). -/
def StripHealth.indicates (h : StripHealth) : Bool := h.hard.isSome || h.soft

/-! ## Lamp groups (R121, R125) -/

/-- An output belongs to the group of a lane. -/
def LampOutput.inGroup (x : LampOutput) (l : Lane) : Bool :=
  match x.assignment with
  | some (k, _) => decide (k = l)
  | none => false

/-- R125: the group of a lane is faulted while any output of it holds a latched fault. -/
def groupFaulted (s : State) (l : Lane) : Bool :=
  allOutputs.any fun o =>
    (s.lamps.outputs.at o).inGroup l && decide ((s.lamps.outputs.at o).latch ≠ .none)

/-- R120: a DIVERT station's sign is degraded while the sign of some lane is faulted. -/
def signDegraded (s : State) : Bool :=
  s.cfg.divert && (lanesInUse s).any (groupFaulted s)

/-- R118: the sign of a lane is requested while its timer runs or the lane is BLIND; only at DIVERT
stations and for lanes within the lane count. -/
def signRequested (s : State) (l : Lane) : Bool :=
  working s && s.cfg.divert && laneInUse s l &&
    ((s.signs.at l).timer.isSome || decide (laneMode s l = .blind))

/-! ## The entry controller's sums and gate (R134, R135, R152) -/

/-- The committed weight of one head. -/
def HeadState.committed : HeadState → Nat
  | .admitted w => w
  | _ => 0

/-- A head is ADMITTED. -/
def HeadState.isAdmitted : HeadState → Bool
  | .admitted _ => true
  | _ => false

/-- Committed weight: the sum of the admission weights of ADMITTED heads (section 8.1). -/
def committed (s : State) : Nat :=
  (allLanes.map fun l => (s.entry.lanes.at l).head.committed).sum

/-- The number of ADMITTED heads (R134). -/
def admittedHeads (s : State) : Nat :=
  (allLanes.filter fun l => (s.entry.lanes.at l).head.isAdmitted).length

/-- Span weight total: the sum of the span weights in the span set (section 8.1). -/
def spanTotal (s : State) : Nat := (s.entry.span.map SpanEntry.weight).sum

/-- R136: RECOVERING while the recovery timer runs. -/
def recovering (s : State) : Bool := s.entry.recovery.isSome

/-- R135: the admission gate is open when none of the closing conditions holds. -/
def gateOpen (s : State) : Bool :=
  !(decide (s.startup = .joining) || recovering s || decide (s.peers.posture = .isolated) ||
    s.entry.lost)

/-- R134: a head with admission weight `a` fits. -/
def fits (s : State) (a : Nat) : Bool :=
  decide (spanTotal s + committed s + a ≤ s.cfg.spanLimit) &&
  decide (s.entry.span.length + admittedHeads s < 24) &&
  (gateOpen s || (s.entry.span.isEmpty && decide (committed s = 0)))

/-- The padded weight of R133: `g + ceil(g * m_r / 100)`. -/
def padded (s : State) (g : Nat) : Nat := g + (g * s.cfg.padding + 99) / 100

/-- R133: the admission weight of a heavy head, with the posture as it stands. -/
def admissionWeight (s : State) (r : Record) : Nat :=
  if r.effVerdict = .unweighed then max s.cfg.grossLimit (padded s r.effGross)
  else if r.confidence = .full ∧ r.effGross = r.gross ∧ s.peers.posture = .normal then r.effGross
  else padded s r.effGross

/-- R145: the span weight of a non-admitted entry, whatever its confidence and the posture. -/
def nonAdmittedWeight (s : State) (r : Record) : Nat :=
  if r.effVerdict = .unweighed then max s.cfg.grossLimit (padded s r.effGross)
  else padded s r.effGross

/-- R152: the entry controller is degraded. -/
def entryDegraded (s : State) : Bool :=
  s.cfg.entry &&
    ((lanesInUse s).any (fun l => decide ((s.entry.lanes.at l).aspect = some .dark)) ||
      (lanesInUse s).any (laneBlind s) || recovering s || s.entry.lost ||
      (decide (s.entry.mode = .timed) && s.cfg.exitInstalled))

/-! ## Answers of the peer table (R86) -/

/-- Is peer `k` PRESENT? -/
def isPresent (s : State) (k : Station) : Bool := decide ((s.peers.rows.at k).state = .present)

/-- The chainage last beaconed by a peer. -/
def chainageOf (s : State) (k : Station) : Option Nat :=
  (s.peers.rows.at k).heard.map fun h => h.body.chainage

/-- Peer `k` is downstream: its row holds a chainage above the station's own. -/
def isDownstream (s : State) (k : Station) : Bool :=
  match chainageOf s k with
  | some c => decide (s.cfg.chainage < c)
  | none => false

/-- Of two optional candidates by chainage, the one `better` prefers; the first on a tie, so that
equal chainages go to the lower station number. -/
def prefer (better : Nat → Nat → Bool) (best : Option (Station × Nat)) (k : Station) (c : Nat) :
    Option (Station × Nat) :=
  match best with
  | none => some (k, c)
  | some (j, d) => if better c d then some (k, c) else some (j, d)

/-- R57, R86: the successor, the PRESENT peer with the smallest chainage above the station's own. -/
def successor (s : State) : Option Station :=
  (allStations.foldl (fun best k =>
    match isPresent s k, chainageOf s k with
    | true, some c =>
      if s.cfg.chainage < c then prefer (fun c d => decide (c < d)) best k c else best
    | _, _ => best) none).map Prod.fst

/-- R57, R86: the PRESENT peer with the ENTRY role and the largest chainage below the own. -/
def nearestEntry (s : State) : Option Station :=
  (allStations.foldl (fun best k =>
    match isPresent s k, (s.peers.rows.at k).heard with
    | true, some h =>
      if h.body.entry && decide (h.body.chainage < s.cfg.chainage) then
        prefer (fun c d => decide (d < c)) best k h.body.chainage
      else best
    | _, _ => best) none).map Prod.fst

/-- R86: is an EXIT peer present? -/
def exitPresent (s : State) : Bool :=
  allStations.any fun k =>
    isPresent s k && ((s.peers.rows.at k).heard.any fun h => h.body.exit)

/-- R87: the posture the rows give outside the join. -/
def postureOf (s : State) : Posture :=
  let expected := allStations.filter fun k => (s.peers.rows.at k).expected
  let degraded := allStations.any fun k =>
    isPresent s k &&
      ((s.peers.rows.at k).heard.any fun h => h.body.entryDegraded || h.body.signDegraded)
  if expected.all (isPresent s) && !degraded then .normal
  else if !expected.isEmpty && expected.all (fun k => !isPresent s k) then .isolated
  else .guarded

/-! ## Tags held at the station (R50, R95) -/

/-- A tag is held in a stop-line queue or in the span set. -/
def heldAtStopLine (s : State) (t : Tag) : Bool :=
  (allLanes.any fun l => (s.entry.lanes.at l).queue.any fun r => decide (r.tag = some t)) ||
    s.entry.span.any fun e => decide (e.tag = t)

/-- A tag is held anywhere at the station (R50). -/
def tagHeld (s : State) (t : Tag) : Bool :=
  (s.approach.entries.any fun e => decide (e.tag = t)) || heldAtStopLine s t

/-! ## Raw states of the condition sources (section 12.1) -/

/-- Where an alert source stands in the order of the image layout. -/
def sourceIndex : AlertSource → Fin 24
  | .lampFault => 0
  | .laneSingle => 1
  | .laneBlind => 2
  | .spanOverdue => 3
  | .posture => 4
  | .tempInvalid => 5
  | .health => 6
  | .redRun => 7
  | .uncontrolled => 8
  | .noncompliant => 9
  | .noncompliantEntered => 10
  | .overUndirected => 11
  | .accountingLost => 12
  | .peerSilent => 13
  | .deliveryFail => 14
  | .rxMiss => 15
  | .txDrop => 16
  | .approachEvict => 17
  | .trimLimit => 18
  | .lineFault => 19
  | .phantom => 20
  | .queueOverflow => 21
  | .duplicateNumber => 22
  | .chainageClash => 23

/-- The seven condition sources, in order. -/
def conditionSources : List AlertSource :=
  [.lampFault, .laneSingle, .laneBlind, .spanOverdue, .posture, .tempInvalid, .health]

/-- The seventeen event sources, in order. -/
def eventSources : List AlertSource :=
  [.redRun, .uncontrolled, .noncompliant, .noncompliantEntered, .overUndirected, .accountingLost,
    .peerSilent, .deliveryFail, .rxMiss, .txDrop, .approachEvict, .trimLimit, .lineFault, .phantom,
    .queueOverflow, .duplicateNumber, .chainageClash]

/-- All 24 sources, in the order of the image layout. -/
def allSources : List AlertSource := conditionSources ++ eventSources

/-- A source is a condition source. -/
def isCondition : AlertSource → Bool
  | .lampFault | .laneSingle | .laneBlind | .spanOverdue | .posture | .tempInvalid | .health => true
  | _ => false

/-- The raw state of a condition source: LAMP_FAULT (R125), LANE_SINGLE and LANE_BLIND (R174),
SPAN_OVERDUE (R148), POSTURE (R88), TEMP_INVALID (R27), HEALTH (R177). An event source has none. -/
def rawState (s : State) : AlertSource → Bool
  | .lampFault => allOutputs.any fun o => decide ((s.lamps.outputs.at o).latch ≠ .none)
  | .laneSingle => (lanesInUse s).any fun l => decide (laneMode s l = .single)
  | .laneBlind => (lanesInUse s).any (laneBlind s)
  | .spanOverdue => s.entry.span.any SpanEntry.overdue
  | .posture => decide (s.peers.posture ≠ .normal)
  | .tempInvalid => s.probe.theta.isNone
  | .health =>
    decide (s.health.state = .listen) && allStrips.any fun p => (healthOf s p).indicates
  | _ => false

end Sys2Proof.Machine
end

