-- ==== Sys2Proof/Machine/Alerts.lean ====
section
/-! DEFINITION. The alert unit (R187 to R191): event sources, condition sources, clearing, and the
two alert lines. -/

namespace Sys2Proof.Machine

/-- What the alert unit keeps of a source. -/
def alertOf (s : State) (x : AlertSource) : AlertState := s.alerts.sources.at (sourceIndex x)

/-- The configuration of a source. -/
def alertConfig (s : State) (x : AlertSource) : AlertConfig := s.cfg.alerts.at (sourceIndex x)

/-- Replace what the alert unit keeps of a source. -/
def setAlert (x : AlertSource) (a : AlertState) (s : State) : State :=
  { s with alerts.sources := s.alerts.sources.put (sourceIndex x) a }

/-- The trigger of a condition source; LAMP_FAULT is always taken as LEVEL (R188). -/
def triggerOf (s : State) (x : AlertSource) : Trigger :=
  if x = .lampFault then .level else (alertConfig s x).trigger

/-- R189: an event source is raised. Outside JOINING and RUNNING the unit takes no event (R187). -/
def raise (x : AlertSource) (s : State) : State :=
  if working s then
    setAlert x { alertOf s x with sticky := true, count := (alertOf s x).count + 1 } s
  else s

/-- R188: whether a change of the raw state to `raw` sets the sticky (log entry 24). -/
def Trigger.sets (t : Trigger) (raw : Bool) : Bool :=
  match t with
  | .level | .rise => raw
  | .fall => !raw
  | .change => true

/-- R188: a condition source whose raw state differs from the remembered one is compared and taken. -/
def takeRaw (s : State) (x : AlertSource) : State :=
  let raw := rawState s x
  let a := alertOf s x
  if raw = a.remembered then s
  else if (triggerOf s x).sets raw then
    setAlert x { remembered := raw, sticky := true, count := a.count + 1 } s
  else setAlert x { a with remembered := raw } s

/-- R187, R188: the unit takes every change of a raw state at the moment its block makes it. -/
def takeConditions (s : State) : State :=
  if working s then conditionSources.foldl takeRaw s else s

/-- R190: the sticky of a source is cleared; a LEVEL condition source whose raw state is true has it
set again at once and is counted once more. -/
def clearSource (s : State) (x : AlertSource) : State :=
  let a := alertOf s x
  if isCondition x ∧ triggerOf s x = .level ∧ rawState s x = true then
    setAlert x { a with sticky := true, count := a.count + 1 } s
  else setAlert x { a with sticky := false } s

/-- R191: a source is active while its sticky is set, or, with bypass, while its raw state is true. -/
def isActive (s : State) (x : AlertSource) : Bool :=
  if isCondition x && (alertConfig s x).bypass then rawState s x else (alertOf s x).sticky

/-- R191: some enabled source with the given mapping is active. -/
def anyActive (s : State) (mapped : AlertConfig → Bool) : Bool :=
  allSources.any fun x =>
    (alertConfig s x).enable && mapped (alertConfig s x) && isActive s x

/-- R191, R183: what a line must be: asserted in FAULT, released in RESET and LOADING, and otherwise
asserted exactly while an enabled source mapped to it is active. -/
def lineWanted (s : State) (mapped : AlertConfig → Bool) : Bool :=
  match s.startup with
  | .fault => true
  | .joining | .running => anyActive s mapped
  | _ => false

/-- R191: the lines follow at once. -/
def driveAlertLines (s : State) : State :=
  { s with
    alerts.lineA := lineWanted s AlertConfig.mapA
    alerts.lineB := lineWanted s AlertConfig.mapB }

end Sys2Proof.Machine
end

