-- ==== Sys2Proof/Machine/Frames.lean ====
section
/-! DEFINITION. The layouts of the corridor line (section 4.2): CRC-16, bytes of a frame and of each
body, reading them back with the format checks of R71, and what a notice becomes at the start of an
attempt (R57 to R60). -/

namespace Sys2Proof.Machine

/-! ## Bytes and the CRC -/

/-- A number as a byte. -/
def byte (n : Nat) : Byte := BitVec.ofNat 8 n

/-- Two bytes, most significant first. -/
def bytes2 (n : Nat) : List Byte := [byte (n / 256), byte n]

/-- Three bytes, most significant first. -/
def bytes3 (n : Nat) : List Byte := [byte (n / 65536), byte (n / 256), byte n]

/-- The number two bytes hold. -/
def read2 (a b : Byte) : Nat := a.toNat * 256 + b.toNat

/-- The number three bytes hold. -/
def read3 (a b c : Byte) : Nat := (a.toNat * 256 + b.toNat) * 256 + c.toNat

/-- A flag as one bit of a byte. -/
def bit (b : Bool) (k : Nat) : Nat := if b then 2 ^ k else 0

/-- One bit step of the CRC: generator x^16 + x^12 + x^5 + 1 (R56). -/
def crcBit (c : Nat) : Nat :=
  if 32768 ≤ c then Nat.xor (2 * c - 65536) 0x1021 else 2 * c

/-- One byte of the CRC, most significant bit first (R56). -/
def crcByte (c : Nat) (b : Byte) : Nat :=
  crcBit (crcBit (crcBit (crcBit (crcBit (crcBit (crcBit (crcBit (Nat.xor c (b.toNat * 256)))))))))

/-- The CRC-16 of R56 and section 11.2: starting value 0xFFFF, result not inverted. -/
def crc16 (l : List Byte) : Nat := l.foldl crcByte 0xFFFF

/-! ## Kinds and classes (section 4.2) -/

/-- The kind code of a frame. -/
def Body.kind : Body → Nat
  | .receipt .. => 0x01
  | .entered .. => 0x11
  | .left .. => 0x12
  | .vehicle .. => 0x21
  | .sighting .. => 0x22
  | .beacon _ => 0x31

/-- The kind code a notice is sent under. -/
def Notice.kind : Notice → Nat
  | .entered .. => 0x11
  | .left .. => 0x12
  | .vehicle .. => 0x21
  | .sighting .. => 0x22
  | .beacon => 0x31

/-- The class of a notice: the upper digit of its kind code (section 4.2). -/
def Notice.class_ (n : Notice) : Nat := n.kind / 16

/-- The tag of a notice; a BEACON has none (section 4.4). -/
def Notice.tag? : Notice → Option Tag
  | .entered t .. => some t
  | .left t _ => some t
  | .vehicle b _ => some b.tag
  | .sighting b _ => some b.tag
  | .beacon => none

/-! ## Writing a frame -/

/-- A tag in two bytes: origin in the upper 4 bits, serial in the lower 12. -/
def tagBytes (t : Tag) : List Byte := bytes2 (stationNumber t.origin * 4096 + t.serial.toNat)

/-- The lane byte of a weighing: lane in bits 2..0, partner lane or 0 in bits 6..4. -/
def laneByte (l : Lane) (partner : Option Lane) : Byte :=
  byte (laneNumber l + 16 * (match partner with
    | some p => laneNumber p
    | none => 0))

/-- One axle load, or 0xFFFF for an axle without one. -/
def loadBytes (load : Option Nat) : List Byte := bytes2 (load.getD 0xFFFF)

/-- The flags byte of a weighing. -/
def weighingFlags (b : WeighingBody) : Byte :=
  byte (bit b.straddle 0 + bit b.overlong 1 + bit b.continuation 2 + bit b.unweighed 3 +
    bit b.singleSource 4 + bit b.spacings.isSome 5)

/-- Own confidence and verdict in one byte. -/
def confidenceByte (c : Confidence) (v : Verdict) : Byte :=
  byte (bit (decide (c = .reduced)) 4 + v.code)

/-- The VEHICLE and SIGHTING body with its age. With SPACINGS clear the spacing bytes are 0 (R58). -/
def weighingBytes (b : WeighingBody) (age : Nat) : List Byte :=
  tagBytes b.tag ++ [laneByte b.lane b.partner] ++ bytes2 age ++ bytes2 b.speed ++
    [byte b.loads.length, weighingFlags b] ++ bytes3 b.ownGross ++
    [confidenceByte b.ownConfidence b.ownVerdict] ++ bytes3 b.effGross ++
    [byte (b.effVerdict.code + bit b.directed 7)] ++
    b.spacings.getD (List.replicate (b.loads.length - 1) 0) ++ b.loads.flatMap loadBytes

/-- The posture code of a beacon. -/
def Posture.code : Posture → Nat
  | .joining => 0
  | .normal => 1
  | .guarded => 2
  | .isolated => 3

/-- The BEACON body. -/
def beaconBytes (b : BeaconBody) : List Byte :=
  [b.restarts, byte b.cause.code,
    byte (bit b.divert 0 + bit b.entry 1 + bit b.exit 2 + bit b.beyondExit 3)] ++
    bytes2 b.chainage ++
    [byte b.laneCount,
      byte (bit (b.blind.at 0) 0 + bit (b.blind.at 1) 1 + bit (b.blind.at 2) 2 +
        bit (b.blind.at 3) 3),
      byte b.posture.code, byte (bit b.entryDegraded 0 + bit b.signDegraded 1)]

/-- The body bytes of a frame, by kind (section 4.2). -/
def bodyBytes : Body → List Byte
  | .receipt x y z => [x, y, z]
  | .entered t l w g age => tagBytes t ++ [byte (laneNumber l)] ++ bytes3 w ++ bytes3 g ++ bytes2 age
  | .left t age => tagBytes t ++ bytes2 age
  | .vehicle b age => weighingBytes b age
  | .sighting b age => weighingBytes b age
  | .beacon b => beaconBytes b

/-- The receipt-from byte: 0 for none, or a station number. -/
def receiptByte (k : Option Station) : Byte :=
  match k with
  | none => 0
  | some k => byte (stationNumber k)

/-- The bytes the CRC covers: from the sender through the last body byte (R56). -/
def coveredBytes (f : Frame) : List Byte :=
  [byte (stationNumber f.sender), byte f.body.kind, f.sequence, receiptByte f.receiptFrom,
    byte (bodyBytes f.body).length] ++ bodyBytes f.body

/-- A whole frame: preamble, start byte, header, body and CRC (section 4.2). -/
def frameBytes (f : Frame) : List Byte :=
  [0x55, 0x55, 0xC3] ++ coveredBytes f ++ bytes2 (crc16 (coveredBytes f))

/-! ## Reading a frame -/

/-- The header fields and body of a well-framed frame, before its format is checked. -/
structure RawFrame where
  sender : Byte
  kind : Byte
  sequence : Byte
  receiptFrom : Byte
  body : List Byte
  deriving DecidableEq, Repr

/-- R56: skip bytes of 0x55, then the start byte, five header bytes, the body and two CRC bytes. The
frame ends with its last CRC byte; what follows it is ignored (log entry 23). -/
def readFrame (bytes : List Byte) : Except BadFrame RawFrame :=
  match bytes.dropWhile (fun b => decide (b = 0x55)) with
  | [] => .error .truncated
  | start :: rest =>
    if start ≠ 0xC3 then .error .badStart
    else
      match rest with
      | sender :: kind :: sequence :: receiptFrom :: len :: after =>
        let body := after.take len.toNat
        match after.drop len.toNat with
        | hi :: lo :: _ =>
          if crc16 ([sender, kind, sequence, receiptFrom, len] ++ body) = read2 hi lo then
            .ok { sender := sender, kind := kind, sequence := sequence
                  receiptFrom := receiptFrom, body := body }
          else .error .badCrc
        | _ => .error .truncated
      | _ => .error .truncated

/-- A tag field; an origin outside 1..8 is out of range. -/
def readTag (a b : Byte) : Option Tag :=
  (stationOfNumber (read2 a b / 4096)).map fun k =>
    { origin := k, serial := BitVec.ofNat 12 (read2 a b) }

/-- The verdict with a code. -/
def verdictOfCode (n : Nat) : Verdict :=
  match n with
  | 0 => .clear
  | 1 => .border
  | 2 => .over
  | _ => .unweighed

/-- Bit `k` of a byte. -/
def bitOf (b : Byte) (k : Nat) : Bool := b.getLsbD k

/-- The lane byte of a weighing: the lane, and a partner lane different from it or none. -/
def readLanes (b : Byte) : Option (Lane × Option Lane) :=
  match laneOfNumber (b.toNat % 8) with
  | none => none
  | some l =>
    if b.toNat / 16 % 8 = 0 then some (l, none)
    else
      match laneOfNumber (b.toNat / 16 % 8) with
      | some p => if p = l then none else some (l, some p)
      | none => none

/-- The axle loads: each 0..6,000 ct or 0xFFFF; `none` when one is out of range. -/
def readLoads : List Byte → Option (List (Option Nat))
  | a :: b :: rest =>
    match readLoads rest with
    | none => none
    | some tail =>
      if read2 a b = 0xFFFF then some (none :: tail)
      else if read2 a b ≤ 6000 then some (some (read2 a b) :: tail)
      else none
  | _ => some []

/-- The weighing body of VEHICLE and SIGHTING, with every range of section 4.2 (R71). -/
def readWeighing (body : List Byte) : Option (WeighingBody × Nat) :=
  match body with
  | t1 :: t0 :: ln :: a1 :: a0 :: s1 :: s0 :: n :: fl :: g2 :: g1 :: g0 :: cv :: e2 :: e1 :: e0 ::
      ed :: rest =>
    match readTag t1 t0, readLanes ln, readLoads (rest.drop (n.toNat - 1)) with
    | some tag, some (lane, partner), some loads =>
      if 1 ≤ n.toNat ∧ n.toNat ≤ 12 ∧ body.length = 16 + 3 * n.toNat ∧
          (read2 s1 s0 = 0 ∨ 50 ≤ read2 s1 s0 ∧ read2 s1 s0 ≤ 4000) ∧
          read3 g2 g1 g0 ≤ 72000 ∧ read3 e2 e1 e0 ≤ 72000 then
        some ({ tag := tag, lane := lane, partner := partner, speed := read2 s1 s0
                straddle := bitOf fl 0, overlong := bitOf fl 1, continuation := bitOf fl 2
                unweighed := bitOf fl 3, singleSource := bitOf fl 4
                ownGross := read3 g2 g1 g0
                ownConfidence := if bitOf cv 4 then .reduced else .full
                ownVerdict := verdictOfCode (cv.toNat % 4)
                effGross := read3 e2 e1 e0, effVerdict := verdictOfCode (ed.toNat % 4)
                directed := bitOf ed 7
                spacings := if bitOf fl 5 then some (rest.take (n.toNat - 1)) else none
                loads := loads }, read2 a1 a0)
      else none
    | _, _, _ => none
  | _ => none

/-- The reset cause with a beacon code. -/
def causeOfCode (n : Nat) : Option ResetCause :=
  match n with
  | 0 => some .powerOn
  | 1 => some .supplyDip
  | 2 => some .resetLine
  | 3 => some .restart
  | _ => none

/-- The posture with a beacon code. -/
def postureOfCode (n : Nat) : Option Posture :=
  match n with
  | 0 => some .joining
  | 1 => some .normal
  | 2 => some .guarded
  | 3 => some .isolated
  | _ => none

/-- The BEACON body, with every range of section 4.2; a roles field that sets both DIVERT and ENTRY
is out of range (R71). -/
def readBeacon (body : List Byte) : Option BeaconBody :=
  match body with
  | [rc, ca, ro, c1, c0, lc, bl, po, fl] =>
    match causeOfCode ca.toNat, postureOfCode po.toNat with
    | some cause, some posture =>
      if 1 ≤ lc.toNat ∧ lc.toNat ≤ 4 ∧ ¬(bitOf ro 0 = true ∧ bitOf ro 1 = true) then
        some { restarts := rc, cause := cause, divert := bitOf ro 0, entry := bitOf ro 1
               exit := bitOf ro 2, beyondExit := bitOf ro 3, chainage := read2 c1 c0
               laneCount := lc.toNat, blind := #v[bitOf bl 0, bitOf bl 1, bitOf bl 2, bitOf bl 3]
               posture := posture, entryDegraded := bitOf fl 0, signDegraded := bitOf fl 1 }
      else none
    | _, _ => none
  | _ => none

/-- The body of a frame of a kind, or `none` when a format check of R71 on it fails. -/
def readBody (kind : Nat) (body : List Byte) : Option Body :=
  if kind = 0x01 then
    match body with
    | [x, y, z] => some (.receipt x y z)
    | _ => none
  else if kind = 0x11 then
    match body with
    | [t1, t0, ln, w2, w1, w0, g2, g1, g0, a1, a0] =>
      match readTag t1 t0, laneOfNumber ln.toNat with
      | some t, some l =>
        if read3 g2 g1 g0 ≤ 72000 then
          some (.entered t l (read3 w2 w1 w0) (read3 g2 g1 g0) (read2 a1 a0))
        else none
      | _, _ => none
    | _ => none
  else if kind = 0x12 then
    match body with
    | [t1, t0, a1, a0] => (readTag t1 t0).map fun t => .left t (read2 a1 a0)
    | _ => none
  else if kind = 0x21 then (readWeighing body).map fun p => .vehicle p.1 p.2
  else if kind = 0x22 then (readWeighing body).map fun p => .sighting p.1 p.2
  else if kind = 0x31 then (readBeacon body).map .beacon
  else none

/-- The receipt-from field: 0 for none; RECEIPT and BEACON carry 0 only (R71). -/
def readReceiptFrom (kind : Nat) (b : Byte) : Option (Option Station) :=
  if b = 0 then some none
  else if kind = 0x01 ∨ kind = 0x31 then none
  else (stationOfNumber b.toNat).map some

/-- The format checks of R71 step 1: the frame, or `none` when one of them fails. -/
def checkFormat (r : RawFrame) : Option Frame :=
  match stationOfNumber r.sender.toNat, readReceiptFrom r.kind.toNat r.receiptFrom,
      readBody r.kind.toNat r.body with
  | some k, some rf, some b =>
    some { sender := k, sequence := r.sequence, receiptFrom := rf, body := b }
  | _, _, _ => none

/-! ## What a notice becomes at the start of an attempt -/

/-- R59: the age of a reference time at an attempt start, in 10 ms units. -/
def ageOf (now reference : Clock) : Nat := min 65535 (elapsed now reference / 10000)

/-- R60, R81: the BEACON body from the state at the start of its attempt. -/
def beaconBody (s : State) : BeaconBody :=
  { restarts := s.store.restarts, cause := s.store.cause, divert := s.cfg.divert
    entry := s.cfg.entry, exit := s.cfg.exit, beyondExit := s.cfg.beyondExit
    chainage := s.cfg.chainage, laneCount := s.cfg.laneCount
    blind := Tab.make 4 (laneBlind s), posture := s.peers.posture
    entryDegraded := entryDegraded s, signDegraded := signDegraded s }

/-- The body a notice is sent with at this moment (R58 to R60). -/
def noticeBody (s : State) : Notice → Body
  | .vehicle b ref => .vehicle b (ageOf s.clock ref)
  | .sighting b ref => .sighting b (ageOf s.clock ref)
  | .entered t l w g ref => .entered t l w g (ageOf s.clock ref)
  | .left t ref => .left t (ageOf s.clock ref)
  | .beacon => .beacon (beaconBody s)

/-- R57: the station a notice wants its receipt from, as the rows stand at this moment. -/
def receiptTarget (s : State) : Notice → Option Station
  | .vehicle .. | .sighting .. | .entered .. => successor s
  | .left .. => nearestEntry s
  | .beacon => none

/-- R58: a spacing in steps of 5 cm. -/
def spacingStep (cm : Nat) : Nat := (cm + 2) / 5

/-- R58: the spacing steps, present when every spacing is a value. -/
def spacingSteps : List (Option Nat) → Option (List Byte)
  | [] => some []
  | none :: _ => none
  | some x :: rest => (spacingSteps rest).map fun l => byte (spacingStep x) :: l

/-- R58: the body of a VEHICLE or SIGHTING composed from a closed heavy record with a tag. -/
def weighingOf (r : Record) (t : Tag) : WeighingBody :=
  { tag := t, lane := r.lane, partner := r.partner, speed := r.speed.getD 0
    straddle := r.straddle, overlong := r.overlong, continuation := r.continuation
    unweighed := r.unweighed, singleSource := r.singleSource, ownGross := r.gross
    ownConfidence := r.confidence, ownVerdict := r.verdict, effGross := r.effGross
    effVerdict := r.effVerdict, directed := r.directed, spacings := spacingSteps r.spacings
    loads := r.axles.map Axle.load }

end Sys2Proof.Machine
end

