-- ==== Sys2Proof/Machine/Outbound.lean ====
section
/-! DEFINITION. The outbound queue and taking a frame into flight (section 4.4, R61 to R65). -/

namespace Sys2Proof.Machine

/-- Two notices are of the same kind and tag (R62); two BEACONs always are. -/
def sameNotice (a b : Notice) : Bool := decide (a.kind = b.kind) && decide (a.tag? = b.tag?)

/-- R62: the queue with the first waiting frame of the same kind and tag replaced in place by the
new one, which takes over its queued time; `none` when there is none. -/
def replaceWaiting (n : Notice) : List Waiting → Option (List Waiting)
  | [] => none
  | w :: ws =>
    if sameNotice w.notice n then some ({ w with notice := n } :: ws)
    else (replaceWaiting n ws).map fun l => w :: l

/-- R61: a new frame joins behind every frame of its own class and of better classes. -/
def joinQueue (w : Waiting) : List Waiting → List Waiting
  | [] => [w]
  | x :: xs =>
    if x.notice.class_ ≤ w.notice.class_ then x :: joinQueue w xs else w :: x :: xs

/-- R63: the worst class among the waiting frames; they are ordered by class. -/
def worstClass (q : List Waiting) : Nat := (q.map fun w => w.notice.class_).foldl max 0

/-- R65: a frame is taken into flight at once when the transmit state is IDLE, the station is RUNNING
and the queue is not empty. -/
def takeIntoFlight (s : State) : State :=
  match s.line.queue with
  | [] => s
  | w :: ws =>
    if s.startup = .running ∧ s.line.transmit = .idle then
      { s with
        line.queue := ws
        line.transmit := .contending
        line.flight := some
          { notice := w.notice, sequence := s.line.nextSequence, attempts := 0, collisions := 0
            receiptFrom := none, bytes := [] }
        line.nextSequence := s.line.nextSequence + 1 }
    else s

/-- R63: each drop raises TX_DROP and adds one to the drop count. -/
def dropFrame (s : State) : State :=
  raise .txDrop (countLine (fun c => { c with drops := c.drops + 1 }) s)

/-- R61 to R63: a new frame replaces, joins, displaces the youngest frame of the worst class, or is
dropped. -/
def queueFrame (n : Notice) (s : State) : State :=
  let w : Waiting := { notice := n, queued := s.clock }
  match replaceWaiting n s.line.queue with
  | some q => countLine (fun c => { c with discards := c.discards + 1 }) { s with line.queue := q }
  | none =>
    if s.line.queue.length < 8 then { s with line.queue := joinQueue w s.line.queue }
    else if n.class_ < worstClass s.line.queue then
      dropFrame { s with line.queue := joinQueue w s.line.queue.dropLast }
    else dropFrame s

/-- A notice is queued for the line (section 4.4), and R65 is looked at. -/
def enqueue (n : Notice) (s : State) : State := takeIntoFlight (queueFrame n s)

/-- A waiting frame is a SIGHTING of a tag. -/
def isSightingOf (t : Tag) (w : Waiting) : Bool :=
  match w.notice with
  | .sighting b _ => decide (b.tag = t)
  | _ => false

/-- R64: every waiting SIGHTING of the tag leaves the queue as DISCARDED. -/
def discardSightings (t : Tag) (s : State) : State :=
  countLine
    (fun c => { c with
      discards := c.discards + BitVec.ofNat 16 (s.line.queue.filter (isSightingOf t)).length })
    { s with line.queue := s.line.queue.filter fun w => !isSightingOf t w }

/-- The frame in flight is gone and the transmit state becomes IDLE (R67 to R69); R65 takes the next
frame. -/
def finishFlight (s : State) : State :=
  takeIntoFlight { s with line.transmit := .idle, line.flight := none }

end Sys2Proof.Machine
end

