-- ==== Sys2Proof/Machine/Entry.lean ====
section
/-! DEFINITION. The entry controller (chapter 8): evaluating heads, the held arbiter, the span set,
leaving a queue for the deck, the accounting mode, and aspects. -/

namespace Sys2Proof.Machine

/-! ## Head states and the held set -/

/-- The stop-line lane of a lane. -/
def stopLine (s : State) (l : Lane) : StopLine := s.entry.lanes.at l

/-- Set the head state of a lane. -/
def setHead (l : Lane) (h : HeadState) (s : State) : State :=
  setStopLine l { stopLine s l with head := h } s

/-- The hold time of a lane's head, when it is HELD. -/
def holdTime (s : State) (l : Lane) : Option Clock :=
  match (stopLine s l).head with
  | .held _ since => some since
  | _ => none

/-- R138: where a lane that begins to be held now joins the held set: behind every earlier hold, and
on equal hold times behind the lower lanes. -/
def insertHeld (s : State) (now : Clock) (l : Lane) : List Lane → List Lane
  | [] => [l]
  | k :: ks =>
    if holdTime s k = some now ∧ l.val < k.val then l :: k :: ks
    else k :: insertHeld s now l ks

/-- A head becomes HELD with the clock as its hold time (R134, R153). -/
def becomeHeld (l : Lane) (weight : Nat) (s : State) : State :=
  let s1 := { s with entry.held := insertHeld s s.clock l s.entry.held }
  setHead l (.held weight s.clock) s1

/-- A lane leaves the held set. -/
def leaveHeld (l : Lane) (s : State) : State :=
  { s with entry.held := s.entry.held.filter fun k => decide (k ≠ l) }

/-- R138: the arbiter takes held vehicles in order and stops at the first that does not fit. Each
trial works the admission weight out afresh. -/
def arbiterFrom : List Lane → State → State
  | [], s => s
  | l :: rest, s =>
    match (stopLine s l).head, (stopLine s l).queue with
    | .held _ since, r :: _ =>
      let a := admissionWeight s r
      if fits s a then arbiterFrom rest (leaveHeld l (setHead l (.admitted a) s))
      else setHead l (.held a since) s
    | _, _ => s

/-- R138: an arbiter run, taken whole. -/
def runArbiter (s : State) : State := if entryActs s then arbiterFrom s.entry.held s else s

/-- R132 to R134: the record at the front of a queue is evaluated. -/
def evaluateHead (l : Lane) (s : State) : State :=
  match (stopLine s l).queue with
  | [] => setHead l .none s
  | r :: _ =>
    if !r.heavy then setHead l .free s
    else if r.effVerdict = .over ∨ r.directed = true then
      countLane l (fun c => { c with stopped := c.stopped + 1 })
        (raise (if r.directed then .noncompliant else .overUndirected) (setHead l .stop s))
    else
      let a := admissionWeight s r
      if fits s a && s.entry.held.isEmpty then setHead l (.admitted a) s else becomeHeld l a s

/-! ## The span set -/

/-- R137: the accounting-lost state is cleared at the first moment at which RECOVERING has ended, the
span set is empty and the committed weight is 0. -/
def clearLost (s : State) : State :=
  if !recovering s && s.entry.span.isEmpty && decide (committed s = 0) then
    { s with entry.lost := false }
  else s

/-- R137: the accounting-lost state is set, ACCOUNTING_LOST raised and RECOVERING restarted. -/
def setLost (s : State) : State :=
  raise .accountingLost
    { s with
      entry.lost := true
      entry.recovery := some (later s.clock (s.cfg.transit * 1000000)) }

/-- R148: departures from the span set: the entries that `keep` refuses leave at once; the
accounting-lost state may clear, and the arbiter runs. -/
def departSpan (keep : SpanEntry → Bool) (s : State) : State :=
  if s.entry.span.all keep then s
  else
    runArbiter (takeConditions (clearLost { s with entry.span := s.entry.span.filter keep }))

/-- A vehicle joins the span set (R148). -/
def joinSpan (e : SpanEntry) (s : State) : State :=
  { s with entry.span := s.entry.span ++ [e] }

/-- A span set entry of a record leaving lane `l` now (R148), before its flags. -/
def spanEntry (s : State) (l : Lane) (t : Tag) (weight : Nat) : SpanEntry :=
  { tag := t, lane := l, weight := weight, entered := s.clock
    deadline := later s.clock (s.cfg.transit * 1000000), overdue := false, redRun := false
    uncontrolled := false, unseen := false, noncompliant := false }

/-! ## Leaving a queue for the deck -/

/-- The record at the front leaves the queue; the lane then has no evaluated head. -/
def popHead (l : Lane) (s : State) : State :=
  setStopLine l { stopLine s l with queue := (stopLine s l).queue.tail, head := .none } s

/-- R147: an ENTERED notice for a vehicle that leaves its queue for the deck. -/
def queueEntered (l : Lane) (r : Record) (weight : Nat) (s : State) : State :=
  match r.tag with
  | some t => enqueue (.entered t l weight r.effGross s.clock) s
  | none => s

/-- R144: an ADMITTED head moves its weight from committed to span; the arbiter runs. -/
def regularCrossing (l : Lane) (r : Record) (a : Nat) (unseen : Bool) (s : State) : State :=
  match r.tag with
  | some t =>
    queueEntered l r a
      (runArbiter (joinSpan { spanEntry s l t a with unseen := unseen } (popHead l s)))
  | none => runArbiter (popHead l s)

/-- R145: the alert source and counter of a non-admitted entry under the shown aspect. -/
def aspectAlerts (l : Lane) (aspect : Option Aspect) (s : State) : State :=
  match aspect with
  | some .red => countLane l (fun c => { c with redRuns := c.redRuns + 1 }) (raise .redRun s)
  | some .dark => raise .uncontrolled s
  | _ => s

/-- R145, R146: a HELD or STOP head enters the deck at a padded weight. A removal under R131 carries
UNSEEN and neither RED_RUN nor UNCONTROLLED, whatever the aspect, and does not raise
NONCOMPLIANT_ENTERED. That it raises neither the RED_RUN nor the UNCONTROLLED source, and that red-runs
does not count it, is the model's choice. DESIGN CHOICE (log entry 47). -/
def nonAdmittedEntry (l : Lane) (r : Record) (wasHeld wasStop unseen : Bool) (s : State) : State :=
  let w := nonAdmittedWeight s r
  let aspect := (stopLine s l).aspect
  let s1 := leaveHeld l (popHead l s)
  let s2 := if unseen then s1 else aspectAlerts l aspect s1
  let s3 := if wasStop && !unseen then raise .noncompliantEntered s2 else s2
  let s4 :=
    match r.tag with
    | some t =>
      if s3.entry.span.length + admittedHeads s3 < 24 then
        joinSpan
          { spanEntry s l t w with
            redRun := !unseen && decide (aspect = some .red)
            uncontrolled := !unseen && decide (aspect = some .dark)
            unseen := unseen, noncompliant := wasStop } s3
      else setLost s3
    | none => s3
  let s5 := queueEntered l r w s4
  if wasHeld then runArbiter s5 else s5

/-- R143: a light head leaves and is counted as light-crossed. -/
def lightCrossing (l : Lane) (s : State) : State :=
  { popHead l s with entry.lightCrossed := s.entry.lightCrossed + 1 }

/-- The head of a queue leaves for the deck (R143 to R145, R131), and the record behind it is
evaluated (R132), after the arbiter has run (log entry 16). -/
def headEnters (l : Lane) (unseen : Bool) (s : State) : State :=
  match (stopLine s l).queue with
  | [] => s
  | r :: _ =>
    evaluateHead l
      (match (stopLine s l).head with
      | .admitted a => regularCrossing l r a unseen s
      | .held _ _ => nonAdmittedEntry l r true false unseen s
      | .stop => nonAdmittedEntry l r false true unseen s
      | .free => lightCrossing l s
      | .none => popHead l s)

/-- R143 to R145: a stop-line crossing. In a lane whose queue is empty it is a phantom. -/
def crossing (l : Lane) (s : State) : State :=
  if (stopLine s l).queue.isEmpty then
    raise .phantom { s with entry.phantoms := s.entry.phantoms + 1 }
  else headEnters l false s

/-- R131: a record joining a full queue first removes the head, unseen. -/
def overflowQueue (l : Lane) (s : State) : State :=
  headEnters l true (raise .queueOverflow s)

/-- R130, R131: a record joins the stop-line queue of its lane at the tail; in an empty queue it
becomes the head and is evaluated. -/
def joinStopLine (r : Record) (s : State) : State :=
  let s1 := if 8 ≤ (stopLine s r.lane).queue.length then overflowQueue r.lane s else s
  let x := stopLine s1 r.lane
  let s2 := setStopLine r.lane { x with queue := x.queue ++ [r] } s1
  if x.queue.isEmpty then evaluateHead r.lane s2 else s2

/-! ## Accounting mode -/

/-- R149: TRACKED while an exit station is installed and present; a station that is not ENTRY keeps
TIMED. -/
def modeWanted (s : State) : Accounting :=
  if s.cfg.entry && s.cfg.exitInstalled && exitPresent s then .tracked else .timed

/-- R149: the mode is judged; on a change to TIMED every OVERDUE entry leaves at once. -/
def judgeMode (s : State) : State :=
  match s.entry.mode, modeWanted s with
  | .tracked, .timed => departSpan (fun e => !e.overdue) { s with entry.mode := .timed }
  | _, m => { s with entry.mode := m }

/-! ## Aspects -/

/-- R140: the wanted aspect of a lane. -/
def wantedAspect (s : State) (l : Lane) : Aspect :=
  if groupFaulted s l then .dark
  else if laneBlind s l then .red
  else
    match (stopLine s l).head with
    | .held .. | .stop => .red
    | _ => .green

/-- R141: the shown aspect and amber timer once the wanted aspect is looked at. -/
def followAspect (now : Clock) (wanted : Aspect) (x : StopLine) : StopLine :=
  match x.aspect, wanted with
  | none, _ => x
  | some _, .dark => { x with aspect := some .dark, amber := none }
  | some .green, .red => { x with aspect := some .amber, amber := some (later now 3000000) }
  | some .amber, .red => x
  | some .red, .red => x
  | some .dark, .red => { x with aspect := some .red, amber := none }
  | some _, .green => { x with aspect := some .green, amber := none }
  | some _, .amber => x

/-- R141: every lane's shown aspect follows its wanted aspect. -/
def driveAspects (s : State) : State :=
  if entryActs s then
    { s with entry.lanes := Tab.make 4 fun l =>
        if laneInUse s l then followAspect s.clock (wantedAspect s l) (stopLine s l)
        else stopLine s l }
  else s

/-- R129, R141: when the station leaves LOADING each shown aspect is set directly. -/
def startAspects (s : State) : State :=
  { s with entry.lanes := Tab.make 4 fun l =>
      if laneInUse s l then { stopLine s l with aspect := some (wantedAspect s l) }
      else stopLine s l }

end Sys2Proof.Machine
end

