-- ==== Sys2Proof/Machine/Peers.lean ====
section
/-! DEFINITION. The peer table (chapter 5): the join and beacon timers, beacons handled, rows going
SILENT, and the posture. -/

namespace Sys2Proof.Machine

/-- The row of a peer. -/
def rowOf (s : State) (k : Station) : PeerRow := s.peers.rows.at k

/-- R87, R88: the posture is computed from the rows. While JOINING it stays JOINING (R78). A change
takes effect at once: the POSTURE source is taken and the arbiter runs (R138). -/
def recomputePosture (s : State) : State :=
  if s.startup = .running then
    let p := postureOf s
    if p = s.peers.posture then s
    else runArbiter (takeConditions { s with peers.posture := p })
  else s

/-- R84, R85: a PRESENT row becomes SILENT, PEER_SILENT is raised, the posture is recomputed, and the
accounting mode is judged again (R149; log entry 17). -/
def goSilent (k : Station) (s : State) : State :=
  judgeMode (recomputePosture
    (raise .peerSilent (setRow k { rowOf s k with state := .silent, silence := none } s)))

/-- R85: a FAILED frame counts against the peer its last attempt named. -/
def deliveryFailed (k : Station) (s : State) : State :=
  let n := min 255 ((rowOf s k).failures + 1)
  let s1 := setRow k { rowOf s k with failures := n } s
  if 3 ≤ n ∧ (rowOf s k).state = .present then goSilent k s1 else s1

/-- R68: a valid receipt sets the consecutive delivery failures of the peer to 0. -/
def receiptedBy (k : Station) (s : State) : State :=
  setRow k { rowOf s k with failures := 0 } s

/-- The two status flags a row holds, if it was heard. -/
def statusFlags (r : PeerRow) : Option (Bool × Bool) :=
  r.heard.map fun h => (h.body.entryDegraded, h.body.signDegraded)

/-- R83: a beacon marks a restart when the row holds a restart count and the beacon's differs. -/
def marksRestart (r : PeerRow) (b : BeaconBody) : Bool :=
  match r.heard with
  | some h => decide (h.body.restarts ≠ b.restarts)
  | none => false

/-- R82 steps 1 to 4 and R83: the row of a sender once its beacon is handled. -/
def rowAfterBeacon (now arrival : Clock) (r : PeerRow) (b : BeaconBody) : PeerRow :=
  { state := .present
    expected := r.expected
    heard := some { body := b, at_ := arrival }
    silence := some (later now 2000000)
    lastSequence := if marksRestart r b then none else r.lastSequence
    failures := if marksRestart r b ∨ r.state ≠ .present then 0 else r.failures }

/-- R93: the beacon sets the row's chainage equal to the station's own and the row held a different
one, or none, before. -/
def newClash (s : State) (r : PeerRow) (b : BeaconBody) : Bool :=
  decide (b.chainage = s.cfg.chainage) &&
    (match r.heard with
    | some h => decide (h.body.chainage ≠ s.cfg.chainage)
    | none => true)

/-- R82: handling of a BEACON from a sender completes. -/
def handleBeacon (k : Station) (arrival : Clock) (b : BeaconBody) (s : State) : State :=
  let r := rowOf s k
  let r' := rowAfterBeacon s.clock arrival r b
  let s1 := setRow k r' s
  let s2 := if newClash s r b then raise .chainageClash s1 else s1
  let s3 :=
    if r.state ≠ r'.state ∨ statusFlags r ≠ statusFlags r' then recomputePosture s2 else s2
  judgeMode s3

/-- R79: the join ends. RECOVERING has begun when the change of posture runs the arbiter (log
entry 18). -/
def endJoin (s : State) : State :=
  let s1 := { s with peers.joinTimer := none }
  let s2 := queueFrame .beacon s1
  let s3 := { s2 with peers.beaconTimer := some (later s.clock 500000), startup := .running }
  let s4 :=
    if s.cfg.entry then
      { s3 with entry.recovery := some (later s.clock (s.cfg.transit * 1000000)) }
    else s3
  takeIntoFlight (recomputePosture s4)

end Sys2Proof.Machine
end

