-- ==== Sys2Proof/Machine/ApproachList.lean ====
section
/-! DEFINITION. The approach list (chapter 6): windows, notices reaching the list, expiry, and
matching a closed record. -/

namespace Sys2Proof.Machine

/-- Replace the entries of the list. -/
def setEntries (l : List ApproachEntry) (s : State) : State := { s with approach.entries := l }

/-- The entry with a tag. -/
def findEntry (s : State) (t : Tag) : Option ApproachEntry :=
  s.approach.entries.find? fun e => decide (e.tag = t)

/-- The list without the entry of a tag. -/
def withoutTag (t : Tag) (l : List ApproachEntry) : List ApproachEntry :=
  l.filter fun e => decide (e.tag ≠ t)

/-- The list with one entry replaced, in its place. -/
def replaceEntry (e : ApproachEntry) (l : List ApproachEntry) : List ApproachEntry :=
  l.map fun x => if x.tag = e.tag then e else x

/-! ## Window arithmetic (R91) -/

/-- R91 steps 2 and 3: the opening and closing offsets of a distance in cm and a speed. -/
def windowOffsets (d : Nat) (speed : Option Nat) : Nat × Nat :=
  let vHi := match speed with
    | some v => min 4000 (3 * v / 2)
    | none => 4000
  let vLo := match speed with
    | some v => max 100 (v / 4)
    | none => 100
  (min 1000000000 (d * 1000000 / vHi), min 1000000000 (d * 1000000 / vLo))

/-- R91: the window of a position: opens at and closes at. -/
def windowOf (own last : Nat) (seen : Clock) (speed : Option Nat) : Clock × Clock :=
  let o := windowOffsets ((own - last) * 100) speed
  (later seen o.1, later seen (o.2 + 5000000))

/-- R91: a record time is within the window of an entry. -/
def inWindow (t : Clock) (e : ApproachEntry) : Bool :=
  atOrAfter t e.windowOpen && atOrAfter e.windowClose t

/-! ## Notices as announcements -/

/-- What a VEHICLE, a SIGHTING, or at an EXIT station an ENTERED offers to the list (R97, R104). -/
structure Announcement where
  tag : Tag
  sender : Station
  seen : Clock
  lane : Lane
  /-- the notice is an ENTERED taken at an EXIT station (R104) -/
  entered : Bool
  speed : Option Nat
  axleCount : Option Nat
  spacings : Option (List Nat)
  ownGross : Nat
  effGross : Nat
  effVerdict : Verdict
  offered : Confidence
  ownFull : Bool
  directed : Bool
  straddle : Bool
  overlong : Bool
  continuation : Bool
  singleSource : Bool
  deriving DecidableEq, Repr

/-- R91 step 1: the seen time, the arrival time less the age. -/
def seenTime (arrival : Clock) (age : Nat) : Clock := earlier arrival (age * 10000)

/-- R97, R100: a VEHICLE or SIGHTING as an announcement. The confidence it offers is its own when its
effective gross equals its own gross, and REDUCED otherwise. -/
def announceWeighing (k : Station) (arrival : Clock) (b : WeighingBody) (age : Nat) :
    Announcement :=
  { tag := b.tag, sender := k, seen := seenTime arrival age, lane := b.lane, entered := false
    speed := if b.speed = 0 then none else some b.speed
    axleCount := some b.loads.length
    spacings := b.spacings.map fun l => l.map fun x => x.toNat * 5
    ownGross := b.ownGross, effGross := b.effGross, effVerdict := b.effVerdict
    offered := if b.effGross = b.ownGross then b.ownConfidence else .reduced
    ownFull := decide (b.ownConfidence = .full), directed := b.directed, straddle := b.straddle
    overlong := b.overlong, continuation := b.continuation, singleSource := b.singleSource }

/-- R104: an ENTERED as a sighting made at the stop line. -/
def announceEntered (s : State) (k : Station) (arrival : Clock) (t : Tag) (l : Lane) (gross age : Nat) :
    Announcement :=
  { tag := t, sender := k, seen := seenTime arrival age, lane := l, entered := true, speed := none
    axleCount := none, spacings := none, ownGross := gross, effGross := gross
    effVerdict := judge s.cfg.grossLimit s.cfg.margin gross, offered := .reduced, ownFull := false
    directed := false, straddle := false, overlong := false, continuation := false
    singleSource := false }

/-- R103: the notice is a VEHICLE or SIGHTING from the reference peer with FULL own confidence. -/
def setsReference (s : State) (a : Announcement) : Bool :=
  !a.entered && a.ownFull && decide (s.cfg.refPeer = some a.sender)

/-! ## Expiry (R99) -/

/-- R99: the lane whose complied counter an expiring entry counts in: min(entry lane, lane count). -/
def compliedLane (s : State) (e : ApproachEntry) : Lane :=
  if laneInUse s e.lane then e.lane
  else (laneOfNumber s.cfg.laneCount).getD e.lane

/-- R99: an entry leaves the list as expired. -/
def expireEntry (e : ApproachEntry) (s : State) : State :=
  let s1 := countApproach (fun c => { c with expired := c.expired + 1 })
    (setEntries (withoutTag e.tag s.approach.entries) s)
  if s.cfg.beyondExit && e.directed then
    countLane (compliedLane s e) (fun c => { c with complied := c.complied + 1 }) s1
  else s1

/-! ## Creating and updating -/

/-- R96: the window an announcement would give an entry at its sender's position. -/
def announcedWindow (s : State) (a : Announcement) (speed : Option Nat) : Clock × Clock :=
  windowOf s.cfg.chainage ((chainageOf s a.sender).getD 0) a.seen speed

/-- R97, R104: the entry an announcement creates. -/
def newEntry (s : State) (a : Announcement) : ApproachEntry :=
  let w := announcedWindow s a a.speed
  { tag := a.tag, lastStation := a.sender, seen := a.seen, lane := a.lane, speed := a.speed
    axleCount := a.axleCount, spacings := a.spacings, effGross := a.effGross
    effVerdict := a.effVerdict, confidence := a.offered, directed := a.directed
    reference := if setsReference s a then some a.ownGross else none
    straddle := a.straddle, overlong := a.overlong, continuation := a.continuation
    singleSource := a.singleSource, windowOpen := w.1, windowClose := w.2, created := s.clock }

/-- R98: a full list first evicts the entry with the earliest created time. Of entries created at one
reading it is the one that joined the list first (log entry 42). -/
def evictOldest (s : State) : State :=
  if s.approach.entries.length < 48 then s
  else
    raise .approachEvict
      (countApproach (fun c => { c with evicted := c.evicted + 1 })
        (setEntries s.approach.entries.tail s))

/-- R96 to R98: an announcement of a tag that is held nowhere. -/
def createEntry (a : Announcement) (s : State) : State :=
  if atOrAfter s.clock (announcedWindow s a a.speed).2 then
    countApproach (fun c => { c with late := c.late + 1 }) s
  else
    let s1 := evictOldest s
    countApproach (fun c => { c with created := c.created + 1 })
      (setEntries (s1.approach.entries ++ [newEntry s a]) s1)

/-- R100: the confidence after an update. -/
def mergedConfidence (e : ApproachEntry) (a : Announcement) : Confidence :=
  if e.effGross < a.effGross then a.offered
  else if e.effGross = a.effGross then
    if e.confidence = .full ∨ a.offered = .full then .full else .reduced
  else e.confidence

/-- R100: the values of an announcement merged into an entry. -/
def mergeValues (e : ApproachEntry) (a : Announcement) : ApproachEntry :=
  { e with
    effGross := max e.effGross a.effGross
    effVerdict := e.effVerdict.worse a.effVerdict
    confidence := mergedConfidence e a
    directed := e.directed || a.directed
    straddle := e.straddle || a.straddle
    overlong := e.overlong || a.overlong
    continuation := e.continuation || a.continuation
    singleSource := e.singleSource || a.singleSource }

/-- R101: the sender stands at or above the entry's last station. -/
def movesPosition (s : State) (e : ApproachEntry) (a : Announcement) : Bool :=
  decide ((chainageOf s e.lastStation).getD 0 ≤ (chainageOf s a.sender).getD 0)

/-- R101, R104: the entry with its position moved to the announcement. An ENTERED keeps the entry's
speed. -/
def movePosition (s : State) (e : ApproachEntry) (a : Announcement) : ApproachEntry :=
  let v := if a.entered then e.speed else a.speed
  let w := announcedWindow s a v
  { e with
    lastStation := a.sender, seen := a.seen, lane := a.lane, speed := v, windowOpen := w.1
    windowClose := w.2 }

/-- R102: the signature: axle count and spacings, kept once spacings are held. -/
def mergeSignature (e : ApproachEntry) (a : Announcement) : ApproachEntry :=
  if a.entered || e.spacings.isSome then e
  else { e with axleCount := a.axleCount, spacings := a.spacings }

/-- R103: the reference gross. -/
def mergeReference (s : State) (e : ApproachEntry) (a : Announcement) : ApproachEntry :=
  if setsReference s a then { e with reference := some a.ownGross } else e

/-- R100 to R103: the entry after an update. -/
def updatedEntry (s : State) (e : ApproachEntry) (a : Announcement) : ApproachEntry :=
  let e1 := mergeReference s (mergeSignature (mergeValues e a) a) a
  if movesPosition s e a then movePosition s e1 a else e1

/-- R100 to R103: an update, and its expiry at once when the recomputed window has closed (R101). -/
def updateEntry (e : ApproachEntry) (a : Announcement) (s : State) : State :=
  let e' := updatedEntry s e a
  let s1 := countApproach (fun c => { c with updated := c.updated + 1 })
    (setEntries (replaceEntry e' s.approach.entries) s)
  if movesPosition s e a && atOrAfter s.clock e'.windowClose then expireEntry e' s1 else s1

/-- R92 to R95: an announcement reaches the list. -/
def takeAnnouncement (a : Announcement) (s : State) : State :=
  if !isPresent s a.sender then
    countApproach (fun c => { c with notPresent := c.notPresent + 1 }) s
  else if chainageOf s a.sender = some s.cfg.chainage then
    raise .chainageClash (countApproach (fun c => { c with clash := c.clash + 1 }) s)
  else if isDownstream s a.sender then
    match findEntry s a.tag with
    | some _ =>
      countApproach (fun c => { c with passedUnseen := c.passedUnseen + 1 })
        (setEntries (withoutTag a.tag s.approach.entries) s)
    | none => s
  else if heldAtStopLine s a.tag then
    countApproach (fun c => { c with held := c.held + 1 }) s
  else
    match findEntry s a.tag with
    | some e => updateEntry e a s
    | none => createEntry a s

/-! ## Matching (R106 to R109) -/

/-- R106 test 1: the lanes differ by at most 1, the entry's held to the lane count. -/
def lanesAgree (s : State) (r : Record) (e : ApproachEntry) : Bool :=
  let m := min (laneNumber e.lane) s.cfg.laneCount
  decide (laneNumber r.lane ≤ m + 1) && decide (m ≤ laneNumber r.lane + 1)

/-- R106 test 3: the axle counts agree. -/
def axlesAgree (r : Record) (e : ApproachEntry) : Bool :=
  match e.axleCount with
  | none => true
  | some n =>
    decide (n = r.axles.length) ||
      ((decide (n = r.axles.length + 1) || decide (n + 1 = r.axles.length)) &&
        (r.straddle || r.overlong || r.continuation || r.singleSource || e.straddle ||
          e.overlong || e.continuation || e.singleSource))

/-- The absolute difference of two numbers. -/
def absDiff (a b : Nat) : Nat := max a b - min a b

/-- R107: the sum of the absolute differences of rounded record spacings and entry spacings; `none`
when some record spacing is absent. -/
def spacingSum : List (Option Nat) → List Nat → Option Nat
  | [], _ => some 0
  | none :: _, _ => none
  | some x :: xs, ys =>
    (spacingSum xs ys.tail).map fun t => t + absDiff (spacingStep x * 5) (ys.headD 0)

/-- R107: the spacing test. -/
def spacingsAgree (s : State) (r : Record) (e : ApproachEntry) : Bool :=
  match e.spacings with
  | none => true
  | some ys =>
    if e.axleCount = some r.axles.length then
      match spacingSum r.spacings ys with
      | none => true
      | some t => decide (t ≤ s.cfg.matchTolerance * (r.axles.length - 1))
    else true

/-- R106: an entry is a candidate for a record. -/
def isCandidate (s : State) (r : Record) (e : ApproachEntry) : Bool :=
  lanesAgree s r e && inWindow r.time e && axlesAgree r e && spacingsAgree s r e

/-- The order of tags: lower origin, then lower serial (R108). -/
def tagBefore (a b : Tag) : Bool :=
  decide (a.origin.val < b.origin.val) ||
    (decide (a.origin = b.origin) && decide (a.serial.toNat < b.serial.toNat))

/-- A reading is strictly before another, in the order of R91. -/
def strictlyBefore (x y : Clock) : Bool := decide (x ≠ y) && atOrAfter y x

/-- R108: entry `a` is tried before entry `b`: earlier window open, then created, then tag. -/
def triedBefore (a b : ApproachEntry) : Bool :=
  strictlyBefore a.windowOpen b.windowOpen ||
    (decide (a.windowOpen = b.windowOpen) &&
      (strictlyBefore a.created b.created ||
        (decide (a.created = b.created) && tagBefore a.tag b.tag)))

/-- The entry of a list that is tried first. -/
def firstTried : List ApproachEntry → Option ApproachEntry
  | [] => none
  | e :: es =>
    match firstTried es with
    | none => some e
    | some f => if triedBefore f e then some f else some e

/-- R108: the entry a record is matched to. -/
def matchFor (s : State) (r : Record) : Option ApproachEntry :=
  firstTried (s.approach.entries.filter (isCandidate s r))

/-- R109: the values a record takes from the entry it is matched to. -/
def takeMatch (r : Record) (e : ApproachEntry) : Record :=
  { r with
    tag := some e.tag
    effGross := max r.gross e.effGross
    effVerdict := r.verdict.worse e.effVerdict
    directed := e.directed
    reference := e.reference }

/-- R50: the first serial from the counter on that is not held anywhere at the station. -/
def freeSerial (s : State) : Nat → BitVec 12 → BitVec 12
  | 0, k => k
  | fuel + 1, k =>
    if tagHeld s { origin := s.cfg.station, serial := k } then freeSerial s fuel (k + 1) else k

/-- R108 to R110, R50: the record is matched, or issued a new tag. Answers the record with its tag,
the entry it was matched to, and the state. -/
def matchOrTag (r : Record) (s : State) : Record × Option ApproachEntry × State :=
  match matchFor s r with
  | some e =>
    (takeMatch r e, some e,
      countApproach (fun c => { c with matched := c.matched + 1 })
        (setEntries (withoutTag e.tag s.approach.entries) s))
  | none =>
    let k := freeSerial s 4096 s.nextSerial
    ({ r with tag := some { origin := s.cfg.station, serial := k } }, none,
      { s with nextSerial := k + 1 })

/-! ## Notices handled (R75) -/

/-- R151: the handling of a LEFT completes at an ENTRY station. -/
def handleLeft (t : Tag) (s : State) : State :=
  if s.entry.span.any fun e => decide (e.tag = t) then
    departSpan (fun e => decide (e.tag ≠ t)) s
  else { s with entry.unknownLeft := s.entry.unknownLeft + 1 }

/-- R75: the effect of a stored frame at the completion of its handling, by kind. -/
def handleNotice (x : Stored) (s : State) : State :=
  match x.frame.body with
  | .receipt .. => s
  | .beacon b => handleBeacon x.frame.sender x.arrival b s
  | .vehicle b age => takeAnnouncement (announceWeighing x.frame.sender x.arrival b age) s
  | .sighting b age =>
    let s1 := takeAnnouncement (announceWeighing x.frame.sender x.arrival b age) s
    if isDownstream s x.frame.sender then discardSightings b.tag s1 else s1
  | .entered t l _ g age =>
    if s.cfg.exit then takeAnnouncement (announceEntered s x.frame.sender x.arrival t l g age) s
    else s
  | .left t _ => if s.cfg.entry then handleLeft t s else s

end Sys2Proof.Machine
end

