-- ==== Sys2Proof/Machine/SignsLamps.lean ====
section
/-! DEFINITION. The sign driver and the lamp unit (chapter 7). -/

namespace Sys2Proof.Machine

/-! ## The sign driver -/

/-- R115: the decision confidence, from the record and the entry it was matched to. -/
def decisionConfidence (r : Record) (matched : Option ApproachEntry) : Confidence :=
  match matched with
  | some e => r.confidence.worse e.confidence
  | none => r.confidence

/-- R115: a heavy record is diverted. -/
def isDiverted (s : State) (r : Record) (matched : Option ApproachEntry) : Bool :=
  decide (r.effVerdict = .over) ||
    (decide (r.effVerdict = .border) && decide (decisionConfidence r matched = .reduced)) ||
    decide (r.effVerdict = .unweighed) || decide (s.peers.posture ≠ .normal)

/-- R117: an extension starts or restarts a sign timer at the full hold time. -/
def extendSign (l : Lane) (s : State) : State :=
  { s with signs := s.signs.upd l fun x =>
      { x with timer := some (later s.clock (s.cfg.signHold * 1000000)) } }

/-- The lanes whose sign timers a diverted record extends: its own, and its partner lane's (R116). -/
def divertedLanes (r : Record) : List Lane := r.lane :: r.partner.toList

/-- R115, R116: the divert decision and its effects. -/
def divertRecord (r : Record) (matched : Option ApproachEntry) (s : State) : Record × State :=
  if s.cfg.divert && isDiverted s r matched then
    let s1 := (divertedLanes r).foldl (fun s l => extendSign l s) s
    if (divertedLanes r).any fun l => !groupFaulted s1 l then
      ({ r with directed := true },
        countLane r.lane (fun c => { c with diverted := c.diverted + 1 }) s1)
    else (r, s1)
  else (r, s)

/-- R118, R119: a blink phase exists while the sign is requested; a new request begins at ON. -/
def followRequest (now : Clock) (requested : Bool) (x : Sign) : Sign :=
  if requested then
    match x.blink with
    | some _ => x
    | none => { x with blink := some { on := true, changeAt := later now 500000 } }
  else { x with blink := none }

/-- R118, R119: every lane's blink phase follows its request. -/
def driveSigns (s : State) : State :=
  { s with signs := Tab.make 4 fun l =>
      followRequest s.clock (signRequested s l) (s.signs.at l) }

/-! ## The lamp unit -/

/-- R121: what an output serves under a configuration: three outputs a lane at ENTRY, one at
DIVERT, within the lane count. -/
def assignmentOf (c : Configuration) (o : Output) : Option (Lane × Lamp) :=
  if c.entry then
    if o.val < 3 * c.laneCount then
      (laneOfNumber (o.val / 3 + 1)).map fun l =>
        (l, if o.val % 3 = 0 then .red else if o.val % 3 = 1 then .amber else .green)
    else none
  else if c.divert then
    if o.val < c.laneCount then (laneOfNumber (o.val + 1)).map fun l => (l, .sign) else none
  else none

/-- R122: what the owner of an output's group asks of it: the aspect of the lane, or the blink phase
of its sign (R119). -/
def demandOf (s : State) (a : Option (Lane × Lamp)) : Bool :=
  match a with
  | none => false
  | some (l, .sign) =>
    match (s.signs.at l).blink with
    | some b => b.on
    | none => false
  | some (l, .red) => decide ((stopLine s l).aspect = some .red)
  | some (l, .amber) => decide ((stopLine s l).aspect = some .amber)
  | some (l, .green) => decide ((stopLine s l).aspect = some .green)

/-- The group of an output holds a latched fault; an unassigned output has no group. -/
def ownGroupFaulted (s : State) (x : LampOutput) : Bool :=
  match x.assignment with
  | some (l, _) => groupFaulted s l
  | none => false

/-- R122: an output is driven while it is assigned, enabled and demanded, and no output of its group
holds a latched fault. -/
def isDriven (s : State) (x : LampOutput) (demand : Bool) : Bool :=
  x.assignment.isSome && x.enable && demand && !ownGroupFaulted s x

/-- R122, R124: an output's state follows; switched on it begins its blanking time, switched off its
open timer is cleared. -/
def followDrive (now : Clock) (demand driven : Bool) (x : LampOutput) : LampOutput :=
  if driven = x.on then { x with demand := demand }
  else if driven then
    { x with
      demand := demand, on := true, blanking := some (later now 20000), low := false
      openTimer := none }
  else { x with demand := demand, on := false, blanking := none, low := false, openTimer := none }

/-- R122: every output takes its demand and follows it. -/
def driveLamps (s : State) : State :=
  { s with lamps.outputs := Tab.make 12 fun o =>
      let x := s.lamps.outputs.at o
      let d := demandOf s x.assignment
      followDrive s.clock d (isDriven s x d) x }

/-- An output of the lamp unit. -/
def outputOf (s : State) (o : Output) : LampOutput := s.lamps.outputs.at o

/-- The proving timer of an output's group runs (R127). -/
def provingRuns (s : State) (x : LampOutput) : Bool :=
  match x.assignment with
  | some (l, _) => (s.lamps.proving.at l).isSome
  | none => false

/-- R124, R127: an on output past its blanking time whose current is below the threshold latches OPEN
at once while proving, and otherwise starts its open timer. -/
def judgeLow (s : State) (x : LampOutput) : LampOutput :=
  if provingRuns s x then { x with low := true, latch := .open_, openTimer := none }
  else { x with low := true, openTimer := some (later s.clock 200000) }

/-- R126, R127: an output of a group under LAMP RESET: latch and open timer cleared, enable set; if
it is on, past its blanking time and low, it latches OPEN at once, since proving has begun. -/
def resetOutput (x : LampOutput) : LampOutput :=
  { x with
    latch := if x.on && x.blanking.isNone && x.low then .open_ else .none
    enable := true
    openTimer := none }

/-- R126: the outputs of a lane's group are reset and its proving timer starts. -/
def resetGroup (l : Lane) (s : State) : State :=
  { s with
    lamps.outputs := Tab.make 12 fun o =>
      if (outputOf s o).inGroup l then resetOutput (outputOf s o) else outputOf s o
    lamps.proving := s.lamps.proving.put l (some (later s.clock 100000)) }

/-! ## What follows every event at once -/

/-- What every event of the machine brings about at once, in this order: blink phases follow the sign
requests (R118, R119), shown aspects follow the wanted ones (R140, R141), outputs follow their
demands (R122), the alert unit takes each changed raw state (R187, R188) and the alert lines follow
(R191). DEDUCED (log entry 19). -/
def settle (s : State) : State :=
  driveAlertLines (takeConditions (driveLamps (driveAspects (driveSigns s))))

/-- The outcome of an event that took place. -/
def done (s : State) : Result := .next (settle s)

end Sys2Proof.Machine
end

