-- ==== Sys2Proof/Machine/TrimUnit.lean ====
section
/-! DEFINITION. The trim unit (chapter 9). -/

namespace Sys2Proof.Machine

/-- R160: the ratio of two grosses at the scale 4,096 = 1.0, rounded half up, before the clamp. -/
def rawRatio (ref own : Nat) : Nat := (ref * 4096 + own / 2) / own

/-- A value held within bounds. -/
def clamp (lo hi x : Nat) : Nat := max lo (min hi x)

/-- R162 steps 1 and 2: the product of the active trim and the mean of the window. -/
def trimProduct (active : Nat) (window : List Nat) : Nat :=
  (active * ((window.sum + 8) / 16) + 2048) / 4096

/-- The check word over a store's values (R185 step 3). -/
def checkOf (cause : ResetCause) (restarts : Byte) (trims : Tab Nat 4) : BitVec 16 :=
  Config.checkWord cause.code restarts [trims.at 0, trims.at 1, trims.at 2, trims.at 3]

/-- R185: the active trim of a lane is written to the store and the check word formed anew. -/
def writeTrim (l : Lane) (t : Nat) (s : State) : State :=
  let trims := s.store.trims.put l t
  { s with
    store.trims := trims
    store.check := checkOf s.store.cause s.store.restarts trims }

/-- R162: a full window forms a pending trim from the active trim, and is emptied. -/
def formPending (l : Lane) (s : State) : State :=
  let x := s.trim.at l
  let p := trimProduct (s.store.trims.at l) x.window
  let s1 := setTrim l
    { x with pending := some (clamp 3686 4506 p), formed := x.formed + 1, window := [] } s
  if p < 3686 ∨ 4506 < p then raise .trimLimit s1 else s1

/-- R159 to R161: a record carrying a reference gross is offered to the trim unit. -/
def offerTrim (r : Record) (ref : Nat) (s : State) : State :=
  let x := s.trim.at r.lane
  if r.confidence = .full ∧ 1000 ≤ ref ∧ 1000 ≤ r.gross then
    let q := rawRatio ref r.gross
    let out := decide (q < 2048) || decide (8192 < q)
    let s1 := setTrim r.lane
      { x with
        window := x.window ++ [clamp 2048 8192 q], samples := x.samples + 1
        clamped := if out then x.clamped + 1 else x.clamped } s
    if 16 ≤ x.window.length + 1 then formPending r.lane s1 else s1
  else setTrim r.lane { x with refused := x.refused + 1 } s

/-- R163: a lane is quiet: no open vehicle and an empty pending-lead FIFO. -/
def laneQuiet (s : State) (l : Lane) : Bool :=
  (s.vehicles.at l).isNone && (s.pairing.at l).fifo.isEmpty

/-- R163, R164: a lane with a pending trim that is quiet has it applied. -/
def applyTrim (l : Lane) (s : State) : State :=
  match (s.trim.at l).pending with
  | some p =>
    if laneQuiet s l then
      setTrim l
        { s.trim.at l with pending := none, window := [], applied := (s.trim.at l).applied + 1 }
        (writeTrim l p s)
    else s
  | none => s

end Sys2Proof.Machine
end

