-- ==== Sys2Proof/Machine/Assembly.lean ====
section
/-! DEFINITION. The assembler: spacing, opening, joining and closing vehicles, and handing on closed
records (chapter 3). -/

namespace Sys2Proof.Machine

/-! ## Spacing (R38) -/

/-- R38 step 1: the time difference of two axles; an earlier time counts as 0. -/
def axleGap (prev next : Axle) : Nat :=
  let d := elapsed next.time prev.time
  if 2147483648 ≤ d then 0 else d

/-- R38 step 2: the mean speed of two axles, or the speed of the one that has one. -/
def meanSpeed (a b : Option Nat) : Option Nat :=
  match a, b with
  | some x, some y => some ((x + y) / 2)
  | some x, none => some x
  | none, some y => some y
  | none, none => none

/-- R38: the spacing of two axles in cm, or absent. -/
def spacingOf (prev next : Axle) : Option Nat :=
  (meanSpeed prev.speed next.speed).map fun v => min 1275 (axleGap prev next * v / 1000000)

/-! ## The closed record (R43 to R51) -/

/-- The floor of the mean of a list of numbers, absent for an empty list. -/
def meanOf (l : List Nat) : Option Nat := if l.isEmpty then none else some (l.sum / l.length)

/-- R43: the partner lane of the first axle that carries STRADDLE. -/
def firstPartner (axles : List Axle) : Option Lane := axles.findSome? fun a => a.partner

/-- R48: the verdict of a closed vehicle. -/
def vehicleVerdict (c : Configuration) (axles : List Axle) (gross : Nat) (unweighed : Bool) :
    Verdict :=
  let v := (axles.filterMap Axle.load).foldl
    (fun v x => v.worse (judge c.axleLimit c.margin x)) (judge c.grossLimit c.margin gross)
  if unweighed then v.worse .unweighed else v

/-- R43 to R51: the record of a closing vehicle. -/
def closeRecord (c : Configuration) (l : Lane) (v : OpenVehicle) (overlong : Bool) : Record :=
  let gross := (v.axles.filterMap Axle.load).sum
  let unweighed := v.axles.any fun a => a.flags.unweighed
  let verdict := vehicleVerdict c v.axles gross unweighed
  { lane := l
    partner := firstPartner v.axles
    time := match v.axles with
      | a :: _ => a.time
      | [] => 0
    axles := v.axles
    spacings := v.spacings
    gross := gross
    speed := meanOf (v.axles.filterMap Axle.speed)
    confidence := if v.axles.any Axle.reduced || overlong || v.continuation then .reduced else .full
    verdict := verdict
    overlong := overlong
    continuation := v.continuation
    unweighed := unweighed
    heavy := decide (c.heavyThreshold ≤ gross) || (unweighed && decide (3 ≤ v.axles.length))
    tag := none
    effGross := gross
    effVerdict := verdict
    directed := false
    reference := none }

/-! ## Handing on (R52, R53) -/

/-- R52 step 4, R113: at an EXIT station a LEFT notice is queued for the record's tag. -/
def queueLeft (r : Record) (t : Tag) (s : State) : State :=
  if s.cfg.exit then enqueue (.left t r.time) s else s

/-- R52 step 5, R112: a SIGHTING for a matched record, a VEHICLE for one issued a new tag. -/
def queueWeighing (r : Record) (t : Tag) (matched : Bool) (s : State) : State :=
  enqueue (if matched then .sighting (weighingOf r t) r.time else .vehicle (weighingOf r t) r.time) s

/-- R52: a heavy record is handed on, in the order of that rule. -/
def handOnHeavy (r0 : Record) (s0 : State) : State :=
  let (r1, entry, s1) := matchOrTag r0 s0
  let (r, s2) := divertRecord r1 entry s1
  let s3 := if s2.cfg.entry then joinStopLine r s2 else s2
  let s5 :=
    match r.tag with
    | some t => queueWeighing r t entry.isSome (queueLeft r t s3)
    | none => s3
  let s6 :=
    match r.reference with
    | some ref => offerTrim r ref s5
    | none => s5
  countLane r.lane (fun c => { c with heavy := c.heavy + 1 }) s6

/-- R53: a light record is counted and, at an ENTRY station, joins its stop-line queue untagged. -/
def handOnLight (r : Record) (s : State) : State :=
  let s1 := countLane r.lane (fun c => { c with light := c.light + 1 }) s
  if s.cfg.entry then joinStopLine r s1 else s1

/-- R43 to R53: the open vehicle of a lane closes and its record is handed on. The lane then has no
open vehicle. -/
def closeVehicle (l : Lane) (overlong : Bool) (s : State) : State :=
  match s.vehicles.at l with
  | none => s
  | some v =>
    let r := closeRecord s.cfg l v overlong
    let s1 := setVehicle l none s
    if r.heavy then handOnHeavy r s1 else handOnLight r s1

/-! ## An axle reaches the assembler -/

/-- The reading at which a close timer started now expires: T_max (R37). -/
def closeTime (s : State) : Clock := later s.clock (s.cfg.tMax * 1000)

/-- R37: an axle opens a vehicle. -/
def openVehicle (l : Lane) (a : Axle) (continuation : Bool) (s : State) : State :=
  setVehicle l
    (some { axles := [a], spacings := [], continuation := continuation, closeAt := closeTime s }) s

/-- R39: an axle joins the open vehicle with its spacing, and the close timer restarts. -/
def joinVehicle (l : Lane) (v : OpenVehicle) (a : Axle) (sp : Option Nat) (s : State) : State :=
  setVehicle l
    (some
      { v with
        axles := v.axles ++ [a], spacings := v.spacings ++ [sp], closeAt := closeTime s }) s

/-- R39: the spacing closes the vehicle. -/
def tooFar (s : State) (sp : Option Nat) : Bool :=
  match sp with
  | some x => decide (s.cfg.sMax < x)
  | none => false

/-- The spacing from the last axle of a vehicle to an axle. -/
def spacingTo (v : OpenVehicle) (a : Axle) : Option Nat :=
  match v.axles.getLast? with
  | some prev => spacingOf prev a
  | none => none

/-- R37, R39, R42: an axle reaches its lane's assembler. -/
def assemble (l : Lane) (a : Axle) (s : State) : State :=
  match s.vehicles.at l with
  | none => openVehicle l a false s
  | some v =>
    let sp := spacingTo v a
    if tooFar s sp then openVehicle l a false (closeVehicle l false s)
    else if 12 ≤ v.axles.length then openVehicle l a true (closeVehicle l true s)
    else joinVehicle l v a sp s

/-- R18: each axle formed is counted and goes to its lane's assembler. -/
def axleFormed (a : Axle) (s : State) : State :=
  assemble a.lane a (countLane a.lane (fun c => { c with axles := c.axles + 1 }) s)

end Sys2Proof.Machine
end

