-- ==== Sys2Proof/Machine/HealthMonitor.lean ====
section
/-! DEFINITION. The strip health monitor (chapter 10): hard and soft events, runs, the readout walk
and restoring a strip. -/

namespace Sys2Proof.Machine

/-- The time an event takes with it: the clock reading in LISTEN, none otherwise (R172, R173). -/
def eventTime (s : State) : Option Clock :=
  if s.health.state = .listen then some s.clock else none

/-- R173: the record of a strip after a soft event. -/
def StripHealth.softEvent (h : StripHealth) (time : Option Clock) : StripHealth :=
  if h.soft then { h with softOverflow := true } else { h with soft := true, softTime := time }

/-- R172: the record of a strip after a hard event; the strip is FAILED. -/
def StripHealth.hardEvent (h : StripHealth) (cause : HardCause) (time : Option Clock) :
    StripHealth :=
  match h.hard with
  | some _ => { h with failed := true, hardOverflow := true }
  | none => { h with failed := true, hard := some cause, hardTime := time }

/-- R173: a soft event on a strip. -/
def softEvent (p : Strip) (s : State) : State :=
  setHealth p ((healthOf s p).softEvent (eventTime s)) s

/-- R172, R174: a hard event on a strip; the lane mode it gives is taken at once. -/
def hardEvent (p : Strip) (cause : HardCause) (s : State) : State :=
  takeConditions (setHealth p ((healthOf s p).hardEvent cause (eventTime s)) s)

/-- R169: an unpaired hit blamed on a strip advances its silence run; the 16th is a hard event. -/
def advanceSilence (p : Strip) (s : State) : State :=
  let h := healthOf s p
  if 16 ≤ h.silenceRun + 1 then
    hardEvent p .silent (setHealth p { h with silenceRun := 0 } s)
  else setHealth p { h with silenceRun := h.silenceRun + 1 } s

/-- R168: an unpaired trail or an expired lead is a soft event on the blamed strip and advances its
silence run. -/
def blame (p : Strip) (s : State) : State := advanceSilence p (softEvent p s)

/-- R170: a delivered hit report advances or clears its strip's clip run. -/
def advanceClip (p : Strip) (clipped : Bool) (s : State) : State :=
  if clipped then
    let s1 := softEvent p s
    let h := healthOf s1 p
    if 8 ≤ h.clipRun + 1 then hardEvent p .clipped (setHealth p { h with clipRun := 0 } s1)
    else setHealth p { h with clipRun := h.clipRun + 1 } s1
  else setHealth p { healthOf s p with clipRun := 0 } s

/-- R168: the monitor takes a delivered hit report. -/
def monitorHit (p : Strip) (clipped : Bool) (s : State) : State :=
  advanceClip p clipped (setHealth p { healthOf s p with silenceRun := 0 } s)

/-- R175: a cleared indication record; condition and runs stay. -/
def StripHealth.cleared (h : StripHealth) : StripHealth :=
  { h with
    hard := none, hardTime := none, hardOverflow := false, soft := false, softTime := none
    softOverflow := false }

/-- R176: the strips in the order a search takes them: from 1L, or from the strip after a walk position
round to that position itself. -/
def walkOrder (walk : Option Strip) : List Strip :=
  match walk with
  | none => allStrips
  | some p =>
    allStrips.drop ((stripIndex p).val + 1) ++ allStrips.take ((stripIndex p).val + 1)

/-- R176: the walk position a step searches from: that of READOUT; from LISTEN it starts at 1L. -/
def searchedFrom (s : State) : Option Strip :=
  if s.health.state = .readout then s.health.walk else none

/-- R176: the strip a step presents. -/
def nextPresented (s : State) : Option Strip :=
  (walkOrder (searchedFrom s)).find? fun p => (healthOf s p).indicates

/-- R178: a FAILED strip becomes GOOD with both runs 0; the lane mode it gives is taken at once. -/
def restoreStrip (p : Strip) (s : State) : State :=
  takeConditions
    (setHealth p { healthOf s p with failed := false, silenceRun := 0, clipRun := 0 } s)

end Sys2Proof.Machine
end

