-- ==== Sys2Proof/Machine/Load.lean ====
section
/-! DEFINITION. The load calculator and the assumed speed (chapter 2, R14). All arithmetic is exact
on whole numbers. -/

namespace Sys2Proof.Machine

/-! ## Assumed speed (R14) -/

/-- The difference of two lane numbers. -/
def laneDistance (a b : Lane) : Nat := absDiff a.val b.val

/-- R14: another lane that may lend its speed: within the lane count, DUAL, with a history. -/
def lends (s : State) (l k : Lane) : Bool :=
  decide (k ≠ l) && laneInUse s k && decide (laneMode s k = .dual) &&
    !(s.pairing.at k).history.isEmpty

/-- The lending lane nearest to `l`, the lower on a tie. -/
def nearestLender (s : State) (l : Lane) : Option Lane :=
  allLanes.foldl (fun best k =>
    if lends s l k then
      match best with
      | none => some k
      | some b => if laneDistance l k < laneDistance l b then some k else best
    else best) none

/-- R14: the assumed speed of a lane. -/
def assumedSpeed (s : State) (l : Lane) : Option Nat :=
  match meanOf (s.pairing.at l).history with
  | some v => some v
  | none =>
    match nearestLender s l with
    | some k => meanOf (s.pairing.at k).history
    | none => none

/-! ## Speed, band and factors (R21 to R29) -/

/-- R21: the computed speed of a paired axle, before the clamp. -/
def rawSpeed (spacing dt : Nat) : Nat := spacing * 100000 / dt

/-- R23: the band of a speed. -/
def bandOf (v : Nat) : Band := if v < 833 then .slow else if v < 1944 then .mid else .fast

/-- R23: the band whose constant a strip is weighed with. -/
def stripBand (c : StripCal) (v : Nat) : Band := if c.autoBand then bandOf v else .mid

/-- R23: the constant of a band. -/
def StripCal.constant (c : StripCal) : Band → Nat
  | .slow => c.kSlow
  | .mid => c.kMid
  | .fast => c.kFast

/-- R28: the temperature factor of a strip; an INVALID temperature is taken as 20. -/
def tempFactor (beta : Int) (theta : Option Int) : Nat :=
  (max 768 (min 1280 (1024 + beta * (20 - theta.getD 20)))).toNat

/-- R29: the combined factor. -/
def combinedFactor (f t : Nat) : Nat := (f * t + 2048) / 4096

/-- R30: the load of one strip before the clamp. -/
def rawLoad (area v k g : Nat) : Nat := (area * v * k * g + 34359738368) / 68719476736

/-- R30: the load of one strip, and whether it was set to 6,000. -/
def stripLoad (s : State) (p : Strip) (area v : Nat) : Nat × Bool :=
  let c := s.cfg.cal.at (stripIndex p)
  let g := combinedFactor (tempFactor c.beta s.probe.theta) (s.store.trims.at p.lane)
  let x := rawLoad area v (c.constant (stripBand c v)) g
  (min 6000 x, decide (6000 < x))

/-- R31: two strip loads reconciled: the axle load, and whether they disagree. -/
def reconcile (a b : Nat) : Nat × Bool :=
  if 4 * absDiff a b ≤ max a b then ((a + b + 1) / 2, false) else (max a b, true)

/-- R34: a width above the long-pulse limit. -/
def isLong (s : State) (width : Nat) : Bool := decide (s.cfg.longLimit * 1000 < width)

/-! ## The axles (R20, R31 to R35) -/

/-- R21, R30, R31: a paired axle, from its lead, its trail and the pairing time. -/
def pairedAxle (s : State) (l : Lane) (lead : PendingLead) (trail : Hit) (dt : Nat) : Axle :=
  let raw := rawSpeed (s.cfg.spacing.at l) dt
  let v := min 4000 raw
  let a := stripLoad s ⟨l, .lead⟩ lead.area v
  let b := stripLoad s ⟨l, .trail⟩ trail.area v
  let r := reconcile a.1 b.1
  { time := lead.start
    lane := l
    partner := match lead.partner with
      | some k => some k
      | none => trail.partner
    speed := some v
    load := some r.1
    band := some (stripBand (s.cfg.cal.at (stripIndex ⟨l, .lead⟩)) v)
    flags :=
      { slow := decide (raw < 150), fast := decide (4000 < raw)
        long := isLong s lead.width || isLong s trail.width
        areaClip := lead.clipped || trail.clipped
        loadSat := a.2 || b.2, disagree := r.2
        noTemp := s.probe.theta.isNone } }

/-- R22, R32, R33: an UNPAIRED or SINGLE axle, from the one hit of a strip at the assumed speed; with
none it is UNWEIGHED and temperature and trim are not read. -/
def oneStripAxle (s : State) (p : Strip) (start : Clock) (width area : Nat) (clipped : Bool)
    (partner : Option Lane) (unpaired single : Bool) : Axle :=
  let base : AxleFlags :=
    { long := isLong s width, areaClip := clipped, unpaired := unpaired, single := single }
  match assumedSpeed s p.lane with
  | none =>
    { time := start, lane := p.lane, partner := partner, speed := none, load := none, band := none
      flags := { base with unweighed := true } }
  | some v =>
    let a := stripLoad s p area v
    { time := start, lane := p.lane, partner := partner, speed := some v, load := some a.1
      band := some (stripBand (s.cfg.cal.at (stripIndex p)) v)
      flags :=
        { base with
          slow := decide (v < 150), loadSat := a.2, noTemp := s.probe.theta.isNone } }

/-- R12: the UNPAIRED axle of an expired lead. -/
def unpairedAxle (s : State) (l : Lane) (x : PendingLead) : Axle :=
  oneStripAxle s ⟨l, .lead⟩ x.start x.width x.area x.clipped x.partner true false

/-- R15: the SINGLE axle of a hit on the live strip. -/
def singleAxle (s : State) (h : Hit) : Axle :=
  oneStripAxle s ⟨h.lane, h.pos⟩ h.start h.width h.area h.clipped h.partner false true

end Sys2Proof.Machine
end

