-- ==== Sys2Proof/Machine/Pairing.lean ====
section
/-! DEFINITION. The pairing units: coincidence holds, straddle merging, the pending-lead FIFO and
pairing (chapter 1, R5 to R16). -/

namespace Sys2Proof.Machine

/-! ## The pending-lead FIFO -/

/-- Replace the FIFO of a lane. -/
def setFifo (l : Lane) (q : List PendingLead) (s : State) : State :=
  setPairing l { s.pairing.at l with fifo := q } s

/-- R12: a lead that has left the FIFO, or never joined it, becomes an UNPAIRED axle, and its expiry
is reported to the health monitor, which blames the trail strip (R168; log entry 32). -/
def expireLead (l : Lane) (x : PendingLead) (s : State) : State :=
  blame ⟨l, .trail⟩ (axleFormed (unpairedAxle s l x) s)

/-- R10: the pairing window of a lane in µs. -/
def pairingWindow (s : State) (l : Lane) : Nat := s.cfg.spacing.at l * 2000

/-- A DUAL lead as a pending lead joining now (R10). -/
def pendingOf (s : State) (h : Hit) : PendingLead :=
  { start := h.start, width := h.width, area := h.area, clipped := h.clipped, partner := h.partner
    joined := s.clock, expiry := later h.start (pairingWindow s h.lane) }

/-- R10: at a full FIFO the oldest pending lead is first expired at once. -/
def makeRoom (l : Lane) (s : State) : State :=
  match (s.pairing.at l).fifo with
  | [] => s
  | x :: rest => if 6 ≤ rest.length + 1 then expireLead l x (setFifo l rest s) else s

/-- R10: a lead reaches the FIFO. One that arrives after its own expiry time is expired at once. -/
def leadArrives (h : Hit) (s : State) : State :=
  let x := pendingOf s h
  if atOrAfter s.clock x.expiry then expireLead h.lane x s
  else
    let s1 := makeRoom h.lane s
    setFifo h.lane ((s1.pairing.at h.lane).fifo ++ [x]) s1

/-- R13: a paired axle's speed is appended to the lane's history of the last 4. -/
def appendSpeed (l : Lane) (a : Axle) (s : State) : State :=
  let u := s.pairing.at l
  let kept := if 4 ≤ u.history.length then u.history.tail else u.history
  setPairing l { u with history := kept ++ a.speed.toList } s

/-- R11: the trail's start is after the lead's start. -/
def pairsWith (trail : Hit) (lead : PendingLead) : Bool :=
  decide (1 ≤ elapsed trail.start lead.start) && decide (elapsed trail.start lead.start < 2147483648)

/-- R11: a trail pairs with the front lead, or is an unpaired trail and blames the lead strip. -/
def trailArrives (h : Hit) (s : State) : State :=
  match (s.pairing.at h.lane).fifo with
  | [] => blame ⟨h.lane, .lead⟩ s
  | x :: rest =>
    if pairsWith h x then
      let a := pairedAxle s h.lane x h (elapsed h.start x.start)
      appendSpeed h.lane a (axleFormed a (setFifo h.lane rest s))
    else blame ⟨h.lane, .lead⟩ s

/-- R9: a hit leaving the coincidence hold, by its stamped mode and position. A hit stamped BLIND
cannot exist. -/
def hitLeaves (h : Hit) (s : State) : State :=
  match h.mode, h.pos with
  | .dual, .lead => leadArrives h s
  | .dual, .trail => trailArrives h s
  | .single, _ => axleFormed (singleAxle s h) s
  | .blind, _ => s

/-! ## The coincidence holds -/

/-- The hold of a lane for a position. -/
def holdOf (s : State) (l : Lane) (p : Pos) : Option HeldHit :=
  match p with
  | .lead => (s.pairing.at l).leadHold
  | .trail => (s.pairing.at l).trailHold

/-- Replace the hold of a lane for a position. -/
def setHold (l : Lane) (p : Pos) (x : Option HeldHit) (s : State) : State :=
  match p with
  | .lead => setPairing l { s.pairing.at l with leadHold := x } s
  | .trail => setPairing l { s.pairing.at l with trailHold := x } s

/-- R6: a held hit that leaves unmerged, with its own lane and without STRADDLE. -/
def unmerged (x : HeldHit) : Hit :=
  { lane := x.hit.strip.lane, pos := x.hit.strip.pos, start := x.hit.start, width := x.hit.width
    area := x.hit.area, clipped := x.hit.clipped, partner := none, mode := x.mode }

/-- R6: the hit of a hold, if any, leaves it unmerged. -/
def releaseHold (l : Lane) (p : Pos) (s : State) : State :=
  match holdOf s l p with
  | some x => hitLeaves (unmerged x) (setHold l p none s)
  | none => s

/-- The lane one below, if there is one. -/
def laneBelow (l : Lane) : Option Lane := laneOfNumber l.val

/-- The lane one above within the lane count, if there is one. -/
def laneAbove (s : State) (l : Lane) : Option Lane :=
  match laneOfNumber (l.val + 2) with
  | some k => if laneInUse s k then some k else none
  | none => none

/-- The hit held for a position in a lane that may not exist. -/
def heldIn (s : State) (l : Option Lane) (p : Pos) : Option (Lane × HeldHit) :=
  match l with
  | some k => (holdOf s k p).map fun x => (k, x)
  | none => none

/-- R7: the held hit an arriving hit merges with: of two, the one with the earlier delivery time, on
equal delivery times the one of the lower lane. -/
def mergePartner (s : State) (p : Strip) : Option (Lane × HeldHit) :=
  match heldIn s (laneBelow p.lane) p.pos, heldIn s (laneAbove s p.lane) p.pos with
  | some a, some b => if atOrAfter b.2.delivered a.2.delivered then some a else some b
  | some a, none => some a
  | none, x => x

/-- R8: the earliest-joined STRADDLE lead of a lane for a partner lane. -/
def straddleLead (s : State) (l partner : Lane) : Option PendingLead :=
  (s.pairing.at l).fifo.find? fun x => decide (x.partner = some partner)

/-- R8: the lane of two hits by area: the larger, the lower lane on equal areas. -/
def laneByArea (a b : HitReport) : Lane :=
  if a.area = b.area then (if a.strip.lane.val ≤ b.strip.lane.val then a.strip.lane else b.strip.lane)
  else if b.area < a.area then a.strip.lane else b.strip.lane

/-- R8: the lane a straddle hit is assigned to. On equal join times of the two lanes' leads the lane is
a free value (log entry 12). -/
def straddleLane (s : State) (a b : HitReport) : Lane :=
  match a.strip.pos with
  | .lead => laneByArea a b
  | .trail =>
    let lo := if a.strip.lane.val ≤ b.strip.lane.val then a.strip.lane else b.strip.lane
    let hi := if a.strip.lane.val ≤ b.strip.lane.val then b.strip.lane else a.strip.lane
    match straddleLead s lo hi, straddleLead s hi lo with
    | some x, some y =>
      if x.joined = y.joined then
        (if Config.straddleTieToLower lo hi x.joined then lo else hi)
      else if atOrAfter y.joined x.joined then lo else hi
    | some _, none => lo
    | none, some _ => hi
    | none, none => laneByArea a b

/-- R7: the width of a straddle hit: the later pulse end minus the earlier start, at most 60 s. -/
def straddleWidth (a b : HitReport) : Nat :=
  let start := earlierOf a.start b.start
  min 60000000
    (max (elapsed a.start start + a.width) (elapsed b.start start + b.width))

/-- R7, R8: two hits on one position of adjacent lanes become one straddle hit. -/
def straddleHit (s : State) (a b : HeldHit) : Hit :=
  let l := straddleLane s a.hit b.hit
  let own := decide (l = a.hit.strip.lane)
  { lane := l
    pos := a.hit.strip.pos
    start := earlierOf a.hit.start b.hit.start
    width := straddleWidth a.hit b.hit
    area := min 16777215 (a.hit.area + b.hit.area)
    clipped := a.hit.clipped || b.hit.clipped || decide (16777215 < a.hit.area + b.hit.area)
    partner := some (if own then b.hit.strip.lane else a.hit.strip.lane)
    mode := if own then a.mode else b.mode }

/-- R5 to R7: a hit report from a GOOD strip enters the coincidence hold: it merges with a held hit
beside it, or takes its lane's hold, from which an earlier hit leaves at once. -/
def enterHold (r : HitReport) (s : State) : State :=
  let x : HeldHit :=
    { hit := r, delivered := s.clock, mode := laneMode s r.strip.lane
      expires := later s.clock 40000 }
  match mergePartner s r.strip with
  | some (k, y) => hitLeaves (straddleHit s x y) (setHold k r.strip.pos none s)
  | none =>
    setHold r.strip.lane r.strip.pos (some x) (releaseHold r.strip.lane r.strip.pos s)

/-- R5: a hit report is delivered to its pairing unit; one from a FAILED strip is dropped there. -/
def deliverHit (r : HitReport) (s : State) : State :=
  if stripFailed s r.strip then s else enterHold r s

end Sys2Proof.Machine
end

