-- ==== Sys2Proof/Machine/LampEvents.lean ====
section
/-! DEFINITION. The commands of the sign driver and the lamp unit (chapter 7). -/

namespace Sys2Proof.Machine

/-- SIGN_TIMER_EXPIRY (R117): the timer stops; the request ends unless the lane is BLIND (R118). -/
def execSignTimerExpiry (l : Lane) (s : State) : Result :=
  if due s.clock (s.signs.at l).timer then
    done { s with signs := s.signs.upd l fun x => { x with timer := none } }
  else noEvent s

/-- R119: the next blink phase. -/
def Blink.next (b : Blink) : Blink := { on := !b.on, changeAt := later b.changeAt 500000 }

/-- BLINK_PHASE_TOGGLE (R119): in FLASH mode a blink phase changes every 500,000 µs. -/
def execBlinkPhaseToggle (l : Lane) (s : State) : Result :=
  match (s.signs.at l).blink with
  | some b =>
    if s.cfg.flash = true ∧ atOrAfter s.clock b.changeAt = true then
      done { s with signs := s.signs.upd l fun x => { x with blink := some b.next } }
    else noEvent s
  | none => noEvent s

/-- OVERCURRENT (R123): an on output is switched off, its enable cleared, its latch OVERCURRENT. -/
def execOvercurrent (o : Output) (s : State) : Result :=
  if (outputOf s o).on then
    done (setOutput o { outputOf s o with enable := false, latch := .overcurrent } s)
  else noEvent s

/-- CURRENT_BELOW_THRESHOLD (R124, R127): the current of an on output past its blanking time falls
below the open-lamp threshold. In the blanking time the threshold is not looked at (R122). -/
def execCurrentBelowThreshold (o : Output) (s : State) : Result :=
  let x := outputOf s o
  if x.on && x.blanking.isNone && !x.low then done (setOutput o (judgeLow s x) s) else noEvent s

/-- CURRENT_RISES_TO_THRESHOLD (R124): the open timer stops and is cleared. -/
def execCurrentRisesToThreshold (o : Output) (s : State) : Result :=
  let x := outputOf s o
  if x.on && x.blanking.isNone && x.low then
    done (setOutput o { x with low := false, openTimer := none } s)
  else noEvent s

/-- BLANKING_END (R122, R124, R127): the open-lamp judgement of a switched-on output begins. -/
def execBlankingEnd (o : Output) (low : Bool) (s : State) : Result :=
  let x := outputOf s o
  if x.on && due s.clock x.blanking then
    let y := { x with blanking := none }
    done (setOutput o (if low then judgeLow s y else { y with low := false }) s)
  else noEvent s

/-- OPEN_TIMER_EXPIRY (R124): the output latches OPEN; its enable is left set. -/
def execOpenTimerExpiry (o : Output) (s : State) : Result :=
  let x := outputOf s o
  if due s.clock x.openTimer then
    done (setOutput o { x with latch := .open_, openTimer := none } s)
  else noEvent s

/-- PROVING_TIMER_EXPIRY (R127): the group's proving timer stops. -/
def execProvingTimerExpiry (l : Lane) (s : State) : Result :=
  if due s.clock (s.lamps.proving.at l) then
    done { s with lamps.proving := s.lamps.proving.put l none }
  else noEvent s

end Sys2Proof.Machine
end

