-- ==== Sys2Proof/Machine/LineEvents.lean ====
section
/-! DEFINITION. The commands of the corridor line: contention, attempts, receipts, received frames and
notice handling (chapter 4). -/

namespace Sys2Proof.Machine

/-- The station is driving the line, with a frame or a receipt. -/
def isDriving (s : State) : Bool :=
  decide (s.line.transmit = .sending) || s.line.driving.isSome

/-- R55: the last stop bit on the line ended a number of microseconds ago. -/
def lineIdle (micros : Nat) (s : State) : State :=
  { s with line.idleSince := some (earlier s.clock micros) }

/-- The line has been idle for at least a number of byte times (R55; log entry 35). -/
def idleFor (s : State) (n : Nat) : Bool :=
  match s.line.idleSince with
  | some t => decide (byteTimes n ≤ elapsed s.clock t)
  | none => false

/-- R56: a frame is looked for in the present busy period: it began after at least 2 byte times of
idle. Where no LINE_GOES_BUSY began one, the idle time up to now decides (log entry 39). -/
def looksForFrame (s : State) : Bool :=
  match s.line.idleSince with
  | none => s.line.looking
  | some _ => idleFor s 2

/-- R66: the idle time, in byte times, a frame needs before its attempt begins. -/
def contentionTime (s : State) (n : Notice) : Nat := 4 + 8 * n.class_ + stationNumber s.cfg.station

/-! ## Sending -/

/-- The frame an attempt sends, composed at its start (R57 to R60, R65). -/
def attemptFrame (s : State) (f : Flight) : Frame :=
  { sender := s.cfg.station, sequence := f.sequence, receiptFrom := receiptTarget s f.notice
    body := noticeBody s f.notice }

/-- CONTENTION_IDLE_REACHED (R66): the attempt begins, with receipt-from, age and beacon contents
filled in (R57, R59, R60). -/
def execContentionIdleReached (s : State) : Result :=
  match s.line.flight with
  | some f =>
    if s.startup = .running ∧ s.line.transmit = .contending ∧
        idleFor s (contentionTime s f.notice) = true then
      done
        { s with
          line.transmit := .sending
          line.idleSince := none
          line.flight := some
            { f with
              receiptFrom := receiptTarget s f.notice, bytes := frameBytes (attemptFrame s f) } }
    else noEvent s
  | none => noEvent s

/-- COLLISION (R67): the attempt is abandoned and counted; after 16 the frame is DROPPED. The
line is then idle unless another sender goes on (log entry 21). -/
def execCollision (s : State) : Result :=
  match s.line.flight with
  | some f =>
    if s.line.transmit = .sending then
      let s1 := countLine (fun c => { c with collisions := c.collisions + 1 }) (lineIdle 0 s)
      if 16 ≤ f.collisions + 1 then done (finishFlight (raise .lineFault s1))
      else
        done
          { s1 with
            line.transmit := .contending
            line.flight := some { f with collisions := f.collisions + 1 } }
    else noEvent s
  | none => noEvent s

/-- ATTEMPT_END (R67, R68): the frame is SENT, or its 12 byte times of receipt wait begin. -/
def execAttemptEnd (s : State) : Result :=
  match s.line.flight with
  | some f =>
    if s.line.transmit = .sending then
      let s1 := lineIdle 0 s
      match f.receiptFrom with
      | none => done (finishFlight s1)
      | some _ =>
        done
          { s1 with
            line.transmit := .awaiting (later s.clock (byteTimes 12))
            line.flight := some { f with collisions := 0 } }
    else noEvent s
  | none => noEvent s

/-- The receipt wait has run out: its time has passed and no frame is in progress (R68). -/
def waitOver (s : State) : Bool :=
  match s.line.transmit with
  | .awaiting t => atOrAfter s.clock t && s.line.idleSince.isSome
  | _ => false

/-- R69: the frame in flight has FAILED. -/
def failFlight (f : Flight) (s : State) : State :=
  let s1 := raise .deliveryFail (countLine (fun c => { c with failures := c.failures + 1 }) s)
  let s2 := match f.receiptFrom with
    | some k => deliveryFailed k s1
    | none => s1
  finishFlight s2

/-- RECEIPT_WAIT_EXPIRY (R69): the frame is retried, or FAILED after three retries. -/
def execReceiptWaitExpiry (s : State) : Result :=
  match s.line.flight with
  | some f =>
    if waitOver s then
      if f.attempts < 3 then
        done
          (countLine (fun c => { c with retries := c.retries + 1 })
            { s with
              line.transmit := .contending
              line.flight := some { f with attempts := f.attempts + 1 } })
      else done (failFlight f s)
    else noEvent s
  | none => noEvent s

/-! ## Receiving -/

/-- How long ago a bad frame ended: one found by an idle of 2 byte times ended that long ago (log
entry 20). -/
def badFrameEnd : BadFrame → Nat
  | .badCrc => 0
  | .truncated | .badStart => byteTimes 2

/-- R71: a bad frame is counted and goes no further. -/
def badFrameFound (found : BadFrame) (s : State) : State :=
  countLine (fun c => { c with badFrames := c.badFrames + 1 }) (lineIdle (badFrameEnd found) s)

/-- R60: what the receipt of a frame echoes. -/
def owedFor (f : Frame) : OwedReceipt :=
  { sender := f.sender, sequence := f.sequence, kind := byte f.body.kind }

/-- R73, R74: the station owes a receipt when the frame asks it for one. -/
def oweReceipt (f : Frame) (s : State) : State :=
  if f.receiptFrom = some s.cfg.station then { s with line.owed := some (owedFor f) } else s

/-- R68: a receipt that echoes this station's number, the sequence of the frame in flight and its
kind code, from the station the attempt asked. -/
def receiptFits (s : State) (f : Flight) (sender : Station) (x y z : Byte) : Bool :=
  decide (f.receiptFrom = some sender) && decide (x = byte (stationNumber s.cfg.station)) &&
    decide (y = f.sequence) && decide (z = byte f.notice.kind)

/-- R68, R71 step 3: a RECEIPT goes to the transmit state. -/
def takeReceipt (sender : Station) (x y z : Byte) (s : State) : State :=
  match s.line.transmit, s.line.flight with
  | .awaiting _, some f =>
    if receiptFits s f sender x y z then
      finishFlight
        (countLine (fun c => { c with delivered := c.delivered + 1 }) (receiptedBy sender s))
    else s
  | _, _ => s

/-- R74: a frame is stored in a free slot, or missed. -/
def storeFrame (f : Frame) (s : State) : State :=
  if s.line.slots.length < 2 then
    oweReceipt f
      (setRow f.sender { rowOf s f.sender with lastSequence := some f.sequence }
        { s with line.slots := s.line.slots ++ [{ frame := f, arrival := s.clock }] })
  else raise .rxMiss (countLine (fun c => { c with misses := c.misses + 1 }) s)

/-- R71 steps 2 to 4, R73: a frame that passed its format checks. -/
def routeFrame (f : Frame) (s : State) : State :=
  if f.sender = s.cfg.station then raise .duplicateNumber s
  else
    match f.body with
    | .receipt x y z => takeReceipt f.sender x y z s
    | _ =>
      if (rowOf s f.sender).lastSequence = some f.sequence then
        oweReceipt f (countLine (fun c => { c with duplicates := c.duplicates + 1 }) s)
      else storeFrame f s

/-- R56, R71: the bytes of a frame are read and checked at its arrival. -/
def receiveBytes (bytes : List Byte) (s : State) : State :=
  match readFrame bytes with
  | .error e => badFrameFound e s
  | .ok raw =>
    match checkFormat raw with
    | none => countLine (fun c => { c with formatDrops := c.formatDrops + 1 }) (lineIdle 0 s)
    | some f => routeFrame f (lineIdle 0 s)

/-- The controller is active and listening (R55, R71): in JOINING and RUNNING, while it does not
drive the line itself (log entries 22 and 31). -/
def isListening (s : State) : Bool := working s && !isDriving s

/-- BAD_FRAME (R56, R71). Bytes in which no frame is looked for are no frame: the busy period ends
and nothing is counted (log entry 39). -/
def execBadFrame (found : BadFrame) (s : State) : Result :=
  if isListening s then
    done (if looksForFrame s then badFrameFound found s else lineIdle (badFrameEnd found) s)
  else noEvent s

/-- FRAME_RECEIVED (R56, R71 to R74). Bytes in which no frame is looked for are not taken: the busy
period ends (log entry 39). -/
def execFrameReceived (bytes : List Byte) (s : State) : Result :=
  if isListening s then
    done (if looksForFrame s then receiveBytes bytes s else lineIdle 0 s)
  else noEvent s

/-- LINE_GOES_BUSY (R56, R66, R68): a start bit appears; idle time is counted afresh from the end of
the busy period, and the receiver looks for a frame in it if the line was idle for 2 byte times; at a
line already busy that stays as it was (log entry 39). -/
def execLineGoesBusy (s : State) : Result :=
  if isListening s then
    done { s with line.idleSince := none, line.looking := looksForFrame s }
  else noEvent s

/-! ## Receipts driven -/

/-- R60: the RECEIPT that answers a frame. -/
def receiptFrame (s : State) (o : OwedReceipt) : Frame :=
  { sender := s.cfg.station, sequence := 0, receiptFrom := none
    body := .receipt (byte (stationNumber o.sender)) o.sequence o.kind }

/-- RECEIPT_START (R70): the line has been idle for 2 byte times; the station drives the RECEIPT. -/
def execReceiptStart (s : State) : Result :=
  match s.line.owed with
  | some o =>
    if isListening s = true ∧ idleFor s 2 = true then
      done
        { s with
          line.owed := none
          line.driving := some (frameBytes (receiptFrame s o))
          line.idleSince := none }
    else noEvent s
  | none => noEvent s

/-- R70: the station stops driving its receipt. -/
def stopReceipt (s : State) : State := lineIdle 0 { s with line.driving := none }

/-- RECEIPT_END (R70): the last byte of the receipt has left the line. -/
def execReceiptEnd (s : State) : Result :=
  if s.line.driving.isSome then done (stopReceipt s) else noEvent s

/-- RECEIPT_ABANDONED (R70): a byte read back differs; the receipt is abandoned without a retry. -/
def execReceiptAbandoned (s : State) : Result :=
  if s.line.driving.isSome then done (stopReceipt s) else noEvent s

/-! ## Notice handling -/

/-- NOTICE_HANDLING_COMPLETE (R75): the effect of the oldest stored frame is taken whole and its slot
is freed. When it completes is told from outside (log entry 28). -/
def execNoticeHandlingComplete (s : State) : Result :=
  match s.line.slots with
  | x :: rest => done (handleNotice x { s with line.slots := rest })
  | [] => noEvent s

end Sys2Proof.Machine
end

