-- ==== Sys2Proof/Machine/EntryEvents.lean ====
section
/-! DEFINITION. The events of the entry controller: presence, amber, recovery and span deadlines
(chapter 8). -/

namespace Sys2Proof.Machine

/-- The entry controller acts on a lane (R129). -/
def laneActs (s : State) (l : Lane) : Bool := entryActs s && laneInUse s l

/-- R142: the settle timer of a lane whose input has come to read `occupied`: it starts when the input
reads opposite to the state and stops when it agrees again. -/
def settleTimer (now : Clock) (occupied : Bool) (x : StopLine) : StopLine :=
  if occupied = x.occupied then { x with settle := none }
  else
    match x.settle with
    | some _ => x
    | none => { x with settle := some (later now (if occupied then 50000 else 100000)) }

/-- PRESENCE_INPUT_CHANGE (R142). The level is the input's; only an acting lane looks at it. -/
def execPresenceInputChange (l : Lane) (occupied : Bool) (s : State) : Result :=
  let s1 := { s with inputs.presence := s.inputs.presence.put l occupied }
  if laneActs s l then done (setStopLine l (settleTimer s.clock occupied (stopLine s1 l)) s1)
  else done s1

/-- PRESENCE_SETTLED (R142): the state changes to match the input; a change to UNOCCUPIED is a
stop-line crossing. -/
def execPresenceSettled (l : Lane) (s : State) : Result :=
  let x := stopLine s l
  if laneActs s l = true ∧ due s.clock x.settle = true then
    let s1 := setStopLine l { x with occupied := !x.occupied, settle := none } s
    done (if x.occupied then crossing l s1 else s1)
  else noEvent s

/-- AMBER_TIMER_EXPIRY (R141): the shown aspect becomes RED. -/
def execAmberTimerExpiry (l : Lane) (s : State) : Result :=
  if due s.clock (stopLine s l).amber then
    done (setStopLine l { stopLine s l with aspect := some .red, amber := none } s)
  else noEvent s

/-- RECOVERY_TIMER_EXPIRY (R136, R137): RECOVERING ends, the accounting-lost state may clear, and the
arbiter runs if the gate opens. -/
def execRecoveryTimerExpiry (s : State) : Result :=
  if due s.clock s.entry.recovery then
    let s1 := clearLost { s with entry.recovery := none }
    done (if gateOpen s1 then runArbiter s1 else s1)
  else noEvent s

/-- R150: an ON_SPAN entry of the set becomes OVERDUE. -/
def makeOverdue (t : Tag) (s : State) : State :=
  { s with entry.span := s.entry.span.map fun e => if e.tag = t then { e with overdue := true } else e }

/-- SPAN_DEADLINE (R150): in TIMED mode the entry leaves; in TRACKED mode it becomes OVERDUE. -/
def execSpanDeadline (t : Tag) (s : State) : Result :=
  match s.entry.span.find? fun e => decide (e.tag = t) with
  | some e =>
    if atOrAfter s.clock e.deadline = true ∧ e.overdue = false then
      match s.entry.mode with
      | .timed => done (departSpan (fun x => decide (x.tag ≠ t)) s)
      | .tracked => done (makeOverdue t s)
    else noEvent s
  | none => noEvent s

end Sys2Proof.Machine
end

