-- ==== Sys2Proof/Machine/TimedEvents.lean ====
section
/-! DEFINITION. The timed commands of the peer table, the approach list, the probe unit and the
traffic counters. -/

namespace Sys2Proof.Machine

/-! ## Peer table and approach list -/

/-- JOIN_TIMER_EXPIRY (R79). -/
def execJoinTimerExpiry (s : State) : Result :=
  if s.startup = .joining ∧ due s.clock s.peers.joinTimer = true then done (endJoin s)
  else noEvent s

/-- BEACON_TIMER_EXPIRY (R80): a BEACON is queued and the timer restarts. -/
def execBeaconTimerExpiry (s : State) : Result :=
  if due s.clock s.peers.beaconTimer then
    done (enqueue .beacon { s with peers.beaconTimer := some (later s.clock 500000) })
  else noEvent s

/-- SILENCE_TIMER_EXPIRY (R84). -/
def execSilenceTimerExpiry (k : Station) (s : State) : Result :=
  if (rowOf s k).state = .present ∧ due s.clock (rowOf s k).silence = true then
    done (goSilent k s)
  else noEvent s

/-- WINDOW_CLOSE_EXPIRY (R99). -/
def execWindowCloseExpiry (t : Tag) (s : State) : Result :=
  match findEntry s t with
  | some e => if atOrAfter s.clock e.windowClose then done (expireEntry e s) else noEvent s
  | none => noEvent s

/-! ## The probe unit (R25, R26) -/

/-- R25: a sample is taken: the probe is asked, an answer is due within 50 ms, and the next sample
follows in 1 s. -/
def takeSample (s : State) : State :=
  { s with
    probe.sampleTimer := some (later s.clock 1000000)
    probe.answerBy := some (later s.clock 50000) }

/-- R25: a reading in sixteenths of a degree, in whole degrees, halves upward. -/
def degrees (reading : Int) : Int := (reading + 8) / 16

/-- R26: a good sample. -/
def goodSample (theta : Int) (s : State) : State :=
  { s with probe.theta := some theta, probe.holdTimer := none, probe.answerBy := none }

/-- R26: a failed or out-of-range sample starts the hold timer if the state is VALID and it is
stopped. -/
def badSample (s : State) : State :=
  { s with
    probe.answerBy := none
    probe.holdTimer :=
      if s.probe.theta.isSome && s.probe.holdTimer.isNone then some (later s.clock 60000000)
      else s.probe.holdTimer }

/-- PROBE_SAMPLE_TIMER (R25). -/
def execProbeSampleTimer (s : State) : Result :=
  if due s.clock s.probe.sampleTimer then done (takeSample s) else noEvent s

/-- PROBE_ANSWER (R25, R26): good, failed or out of range. -/
def execProbeAnswer (reading : Int) (checkMatches : Bool) (s : State) : Result :=
  match s.probe.answerBy with
  | some t =>
    if atOrAfter t s.clock then
      if checkMatches = true ∧ -40 ≤ degrees reading ∧ degrees reading ≤ 85 then
        done (goodSample (degrees reading) s)
      else done (badSample s)
    else noEvent s
  | none => noEvent s

/-- PROBE_ANSWER_TIMEOUT (R25): no answer within 50 ms; the sample fails. -/
def execProbeAnswerTimeout (s : State) : Result :=
  if due s.clock s.probe.answerBy then done (badSample s) else noEvent s

/-- HOLD_TIMER_EXPIRY (R26): the temperature becomes INVALID. -/
def execHoldTimerExpiry (s : State) : Result :=
  if due s.clock s.probe.holdTimer then
    done { s with probe.theta := none, probe.holdTimer := none }
  else noEvent s

/-! ## The minute (R192) -/

/-- MINUTE_TIMER_EXPIRY (R192): snapshots take the counters, which return to 0. -/
def execMinuteTimerExpiry (s : State) : Result :=
  if due s.clock s.counters.minuteTimer then
    done
      { s with
        counters.lanes := Tab.fill 4 {}
        counters.snapshots := some s.counters.lanes
        counters.minutes := s.counters.minutes + 1
        counters.minuteTimer := some (later s.clock 60000000) }
  else noEvent s

end Sys2Proof.Machine
end

