-- ==== Sys2Proof/Machine/Startup.lean ====
section
/-! DEFINITION. The configuration image and its checks, accepting and refusing it, and the resets
(chapter 11). -/

namespace Sys2Proof.Machine

/-! ## Reading the image (section 11.2) -/

/-- The byte at an offset of the image. -/
def imageByte (img : List Byte) (o : Nat) : Nat := (img.getD o 0).toNat

/-- The two bytes at an offset, most significant first. -/
def image2 (img : List Byte) (o : Nat) : Nat := imageByte img o * 256 + imageByte img (o + 1)

/-- The three bytes at an offset, most significant first. -/
def image3 (img : List Byte) (o : Nat) : Nat := image2 img o * 256 + imageByte img (o + 2)

/-- Bit `k` of the byte at an offset. -/
def imageBit (img : List Byte) (o k : Nat) : Bool := bitOf (img.getD o 0) k

/-- The offset of a strip's calibration block. -/
def calOffset (k : Fin 8) : Nat := 41 + 8 * k.val

/-- The calibration block of a strip. -/
def imageCal (img : List Byte) (k : Fin 8) : StripCal :=
  let o := calOffset k
  { kSlow := image2 img o, kMid := image2 img (o + 2), kFast := image2 img (o + 4)
    beta := (img.getD (o + 6) 0).toInt, autoBand := decide (imageByte img (o + 7) = 1) }

/-- The trigger with a code. -/
def triggerOfCode (n : Nat) : Trigger :=
  match n with
  | 0 => .level
  | 1 => .rise
  | 2 => .fall
  | _ => .change

/-- The trigger bits 5..4 of an alert configuration byte. -/
def triggerBits (b : Byte) : Nat := b.toNat / 16 % 4

/-- An alert configuration byte. -/
def alertOfByte (b : Byte) : AlertConfig :=
  { enable := bitOf b 0, mapA := bitOf b 1, mapB := bitOf b 2
    trigger := triggerOfCode (triggerBits b), bypass := bitOf b 6 }

/-- The configuration an image holds (section 11.2). -/
def readConfig (img : List Byte) : Configuration :=
  { station := (stationOfNumber (imageByte img 1)).getD 0
    divert := imageBit img 2 0, entry := imageBit img 2 1, exit := imageBit img 2 2
    beyondExit := imageBit img 3 0, exitInstalled := imageBit img 3 1, flash := imageBit img 3 2
    minuteMode := imageBit img 3 3
    chainage := image2 img 4
    laneCount := imageByte img 6
    expected := Tab.make 8 fun k => imageBit img 7 k.val
    refPeer := stationOfNumber (imageByte img 8)
    matchTolerance := imageByte img 9
    margin := imageByte img 10
    padding := imageByte img 11
    sMax := image2 img 12
    tMax := image2 img 14
    longLimit := image2 img 16
    minArea := image2 img 18
    axleLimit := image2 img 20
    grossLimit := image3 img 22
    spanLimit := image3 img 25
    heavyThreshold := image2 img 28
    transit := image2 img 30
    signHold := imageByte img 32
    spacing := Tab.make 4 fun l => image2 img (33 + 2 * l.val)
    cal := Tab.make 8 (imageCal img)
    alerts := Tab.make 24 fun k => alertOfByte (img.getD (105 + k.val) 0) }

/-! ## The checks (R181) -/

/-- A value within a range. -/
def within (lo hi x : Nat) : Bool := decide (lo ≤ x) && decide (x ≤ hi)

/-- A field's offset, with whether its value is within its range or coding. -/
abbrev FieldCheck := Nat × Bool

/-- R181 step 2: the fields at offsets 1 to 32. -/
def headChecks (img : List Byte) : List FieldCheck :=
  [(1, within 1 8 (imageByte img 1)),
    (2, decide (imageByte img 2 < 8)),
    (3, decide (imageByte img 3 < 16)),
    (6, within 1 4 (imageByte img 6)),
    (8, within 0 8 (imageByte img 8)),
    (9, within 10 60 (imageByte img 9)),
    (10, within 0 20 (imageByte img 10)),
    (11, within 0 30 (imageByte img 11)),
    (12, within 300 1200 (image2 img 12)),
    (14, within 500 5000 (image2 img 14)),
    (16, within 50 2000 (image2 img 16)),
    (18, within 1 65535 (image2 img 18)),
    (20, within 100 6000 (image2 img 20)),
    (22, within 200 72000 (image3 img 22)),
    (25, within 500 200000 (image3 img 25)),
    (28, within 200 2000 (image2 img 28)),
    (30, within 10 600 (image2 img 30)),
    (32, within 4 60 (imageByte img 32))]

/-- R181 step 2: the strip spacing of a lane. -/
def spacingCheck (img : List Byte) (l : Nat) : FieldCheck :=
  (33 + 2 * l, within 1000 4000 (image2 img (33 + 2 * l)))

/-- R181 step 2: the calibration block of a strip, field by field. -/
def calChecks (img : List Byte) (k : Nat) : List FieldCheck :=
  let o := 41 + 8 * k
  [(o, within 1 65535 (image2 img o)),
    (o + 2, within 1 65535 (image2 img (o + 2))),
    (o + 4, within 1 65535 (image2 img (o + 4))),
    (o + 6, decide (-8 ≤ (img.getD (o + 6) 0).toInt) && decide ((img.getD (o + 6) 0).toInt ≤ 8)),
    (o + 7, within 0 1 (imageByte img (o + 7)))]

/-- R181 step 2: the alert configuration byte of source `k`. Bit 7 is 0; an event source has neither
trigger nor bypass. Bit 3, which the layout does not give, is not looked at (log entry 13). -/
def alertCheck (img : List Byte) (k : Nat) : FieldCheck :=
  let b := img.getD (105 + k) 0
  (105 + k, !bitOf b 7 && (decide (k < 7) || (decide (triggerBits b = 0) && !bitOf b 6)))

/-- R181 step 2: every check, in order of offset, within the image's own lane count. -/
def rangeChecks (img : List Byte) : List FieldCheck :=
  let n := imageByte img 6
  headChecks img ++ (List.range n).map (spacingCheck img) ++
    (List.range (2 * n)).flatMap (calChecks img) ++ (List.range 24).map (alertCheck img)

/-- R181 step 3: the cross-checks. -/
def crossChecks (img : List Byte) : List FieldCheck :=
  [(7, !imageBit img 7 (imageByte img 1 - 1)), (8, decide (imageByte img 8 ≠ imageByte img 1))]

/-- The first check that fails. -/
def firstFailure (l : List FieldCheck) : Option Nat := (l.find? fun c => !c.2).map Prod.fst

/-- R181: the cause an image that passed its CRC is refused with, or `none` when it is accepted. -/
def imageRefusal (img : List Byte) : Option RefusalCause :=
  if imageByte img 0 ≠ 1 then some .version
  else
    match firstFailure (rangeChecks img ++ crossChecks img) with
    | some o => some (.range o)
    | none => if imageBit img 2 0 && imageBit img 2 1 then some .role else none

/-- R180, section 11.2: the CRC over offsets 0..253 as computed, and as stored at offset 254. -/
def crcComputed (img : List Byte) : Nat := crc16 (img.take 254)

/-- The CRC as read. -/
def crcRead (img : List Byte) : Nat := image2 img 254

/-! ## Accepting and refusing (R182, R183) -/

/-- R183: the image is refused and the station enters FAULT. -/
def refuseImage (cause : RefusalCause) (s : State) : State :=
  { s with startup := .fault, loader.status := .refused cause }

/-- R1: the channel of a strip when the station leaves LOADING: OFF to WAIT, and at once to ARMED if
the signal is already below the trigger level; a strip beyond the lane count stays OFF. -/
def startChannel (used above : Bool) (c : Channel) : Channel :=
  if used then { c with state := if above then .wait else .armed } else c

/-- The lane of a strip, by its place in strip order. -/
def laneOfStrip (k : Fin 8) : Lane := ⟨k.val / 2, by omega⟩

/-- R182: the strip channels start. -/
def startChannels (s : State) : State :=
  { s with channels := Tab.make 8 fun k =>
      startChannel (laneInUse s (laneOfStrip k)) (s.inputs.above.at k) (s.channels.at k) }

/-- R77, R182: the expected field of every row. -/
def startRows (s : State) : State :=
  { s with peers.rows := Tab.make 8 fun k =>
      { s.peers.rows.at k with expected := s.cfg.expected.at k } }

/-- R121: the outputs are assigned and those assigned are enabled. -/
def startOutputs (s : State) : State :=
  { s with lamps.outputs := Tab.make 12 fun o =>
      { outputOf s o with
        assignment := assignmentOf s.cfg o, enable := (assignmentOf s.cfg o).isSome } }

/-- R129, R142: the entry controller begins work: presence inputs are looked at, aspects set and the
accounting mode judged. -/
def startEntry (s : State) : State :=
  if s.cfg.entry then
    judgeMode (startAspects
      { s with entry.lanes := Tab.make 4 fun l =>
          if laneInUse s l then settleTimer s.clock (s.inputs.presence.at l) (stopLine s l)
          else stopLine s l })
  else s

/-- R192: in MINUTE mode the minute timer starts when the station leaves LOADING. -/
def startMinute (s : State) : State :=
  { s with counters.minuteTimer :=
      if s.cfg.minuteMode then some (later s.clock 60000000) else none }

/-- R182: the image is accepted; the transition to JOINING, taken whole. R78: the join timer starts
at 3 s. The alert unit's fields take their values after reset, and `settle` takes the raw state of
every condition source (R187). -/
def acceptImage (img : List Byte) (s : State) : State :=
  startMinute (startEntry (startOutputs (startRows (startChannels (takeSample
    { s with
      cfg := readConfig img
      startup := .joining
      loader.status := .valid
      alerts := AlertUnit.afterReset
      peers.joinTimer := some (later s.clock 3000000) })))))

/-- R180: a second attempt begins. -/
def secondAttempt (s : State) : State :=
  { s with loader.attempt := 2, loader.requested := s.clock }

/-- R180, R181: 256 bytes have been read: the CRC check, then the checks of R181. -/
def judgeImage (img : List Byte) (s : State) : State :=
  let s1 := { s with loader.image := img }
  if crcComputed img ≠ crcRead img then
    if s.loader.attempt < 2 then secondAttempt s1 else refuseImage .crc s1
  else
    match imageRefusal img with
    | some cause => refuseImage cause s1
    | none => acceptImage img s1

/-- LOAD_READ_COMPLETE (R180 to R183): the 256 bytes arrive within 50 ms of the request. -/
def execLoadReadComplete (bytes : List Byte) (s : State) : Result :=
  if s.startup = .loading ∧ bytes.length = 256 ∧ elapsed s.clock s.loader.requested ≤ 50000 then
    done (judgeImage bytes s)
  else noEvent s

/-- LOAD_READ_TIMEOUT (R180, R183): the memory did not answer within 10 ms, or the transfer was not
complete within 50 ms; a second attempt, or NO_MEMORY. That the image held stays as it was before a
transfer that began and was not complete, is the model's choice. DESIGN CHOICE (log entry 46). -/
def execLoadReadTimeout (answered : Bool) (s : State) : Result :=
  if s.startup = .loading ∧
      (if answered then 50000 else 10000) ≤ elapsed s.clock s.loader.requested then
    if s.loader.attempt < 2 then done (secondAttempt s) else done (refuseImage .noMemory s)
  else noEvent s

/-! ## Resets (R184, R185) -/

/-- A reset that cuts off a write of the store leaves a check word behind (R185). -/
def tearStore (torn : Option (BitVec 16)) (st : Store) : Store :=
  match torn with
  | some w => { st with check := w }
  | none => st

/-- R184: a cause puts the station into RESET at once; in RESET only the supply falling below the
retention threshold changes the pending cause. The 1 ms of a RESTART in progress runs on beside the
new cause, since the reset ends when every cause present has ended. -/
def enterReset (cause : ResetCause) (hold : Option Clock) (torn : Option (BitVec 16)) (s : State) :
    State :=
  if s.startup = .reset then
    { s with
      pendingCause := if cause = .powerOn then .powerOn else s.pendingCause
      store := tearStore torn s.store }
  else State.inReset cause hold (tearStore torn s.store) s.inputs s.pending

/-- POWER_ON (R184). -/
def execPowerOn (torn : Option (BitVec 16)) (s : State) : Result :=
  done (enterReset .powerOn none torn s)

/-- SUPPLY_DIP (R184). -/
def execSupplyDip (torn : Option (BitVec 16)) (s : State) : Result :=
  done (enterReset .supplyDip none torn s)

/-- RESET_LINE (R184). -/
def execResetLine (torn : Option (BitVec 16)) (s : State) : Result :=
  done (enterReset .resetLine none torn s)

/-- RESTART_RESET (R184): the last character of the OK to an accepted RESTART has left the port; the
reset lasts 1 ms, counted on the clock that starts again at 0 (log entries 27 and 36). -/
def execRestartReset (torn : Option (BitVec 16)) (s : State) : Result :=
  if s.port.restart ≠ .none then done (enterReset .restart (some 1000) torn s) else noEvent s

/-- R185 step 1: the check word matches the stored fields. -/
def Store.sound (st : Store) : Bool := decide (st.check = checkOf st.cause st.restarts st.trims)

/-- R185: the store written when a reset ends. -/
def Store.atResetEnd (st : Store) (cause : ResetCause) : Store :=
  if cause = .powerOn ∨ st.sound = false then Store.afterPowerOn
  else
    { cause := cause, restarts := st.restarts + 1, trims := st.trims
      check := checkOf cause (st.restarts + 1) st.trims }

/-- R184: no RESTART keeps the station in RESET: its 1 ms is over, or there is none. -/
def holdOver (s : State) : Bool :=
  match s.restartHold with
  | some t => atOrAfter s.clock t
  | none => true

/-- One microsecond of the station clock (00_scope, Station clock and time). The 1 ms of a RESTART is
over for good at the reading at which it is reached, however long another cause lasts (R184). -/
def tick (s : State) : State :=
  let now := s.clock + 1
  { s with clock := now, restartHold := if due now s.restartHold then none else s.restartHold }

/-- RESET_END (R185, R180, R195): every cause has ended (log entry 36); the store is written, the
station enters LOADING, the first read attempt begins and the port is COLLECTING. -/
def execResetEnd (s : State) : Result :=
  if s.startup = .reset ∧ holdOver s = true then
    done
      { s with
        startup := .loading
        restartHold := none
        store := s.store.atResetEnd s.pendingCause
        loader := { Loader.afterReset with requested := s.clock }
        port := Port.afterReset }
  else noEvent s

end Sys2Proof.Machine
end

