-- ==== Sys2Proof/Machine/Print.lean ====
section
/-! DEFINITION. The records the maintenance port prints (R196 and the rules each command names). What
is printed is the manual's; the record names, the field names, the spelling of values, the keys of
records, the layout of lists of records and of sets, and the one space inside a line are the model's
where no rule gives them (log entries 14, 44 and 50 to 52). -/

namespace Sys2Proof.Machine

/-! ## Values -/

/-- A number. -/
def natValue (n : Nat) : Value := .number n

/-- A wrapping count or another bit vector as a number. -/
def bitsValue {w : Nat} (x : BitVec w) : Value := .number x.toNat

/-- Yes or no. -/
def flagValue (b : Bool) : Value := .name (if b then "YES" else "NO")

/-- A value that may be absent. -/
def optValue {α : Type} (f : α → Value) : Option α → Value
  | some x => f x
  | none => .absent

/-- A set as the list of the names of what is in it, in the order of the table that names them. R196 says
how a list prints and no rule how a set does. DESIGN CHOICE (log entry 52). -/
def flagNames (l : List (Bool × String)) : Value := .names ((l.filter Prod.fst).map Prod.snd)

/-- The name of a lane's strip position. -/
def posLetter : Pos → String
  | .lead => "L"
  | .trail => "T"

/-- The decimal digits of a number, in four places (00_scope, Tags). -/
def fourDigits (n : Nat) : String :=
  Nat.repr (n / 1000 % 10) ++ Nat.repr (n / 100 % 10) ++ Nat.repr (n / 10 % 10) ++
    Nat.repr (n % 10)

/-- A tag as written: `3-0417`. -/
def tagName (t : Tag) : String :=
  Nat.repr (stationNumber t.origin) ++ "-" ++ fourDigits t.serial.toNat

/-- A strip as written: `2T`. -/
def stripName (p : Strip) : String := Nat.repr (laneNumber p.lane) ++ posLetter p.pos

/-- A tag. -/
def tagValue (t : Tag) : Value := .name (tagName t)

/-- A lane number. -/
def laneValue (l : Lane) : Value := natValue (laneNumber l)

/-- A station number. -/
def stationValue (k : Station) : Value := natValue (stationNumber k)

/-- Whole milliseconds of a time in microseconds. -/
def millis (micros : Nat) : Value := natValue (micros / 1000)

/-- A signed time in whole milliseconds, floored (R114, R156). -/
def signedMillis (micros : Int) : Value := .number (micros / 1000)

/-- The time left on a timer in whole milliseconds, floored, as R128 has it for the sign timer; for the
join, amber, recovery and minute timers unit or rounding are the model's (log entry 43). It is 0 once
the expiry is reached (log entry 34). A stopped timer prints as absent, the model's choice for the timers
of which no rule says what is printed then (log entry 43); the sign timer has a word of its own. -/
def timeLeft (now : Clock) (timer : Option Clock) : Value :=
  match timer with
  | none => .absent
  | some t => millis (if atOrAfter now t then 0 else elapsed t now)

/-! ## Names of the vocabularies

That a word the manual writes in small letters prints in capitals is the model's choice. DESIGN CHOICE
(log entry 52). -/

/-- Start-up states. -/
def Startup.label : Startup → String
  | .reset => "RESET"
  | .loading => "LOADING"
  | .fault => "FAULT"
  | .joining => "JOINING"
  | .running => "RUNNING"

/-- Reset causes. -/
def ResetCause.label : ResetCause → String
  | .powerOn => "POWER-ON"
  | .supplyDip => "SUPPLY-DIP"
  | .resetLine => "RESET line"
  | .restart => "RESTART"

/-- Verdicts. -/
def Verdict.label : Verdict → String
  | .clear => "CLEAR"
  | .border => "BORDER"
  | .over => "OVER"
  | .unweighed => "UNWEIGHED"

/-- Confidence. -/
def Confidence.label : Confidence → String
  | .full => "FULL"
  | .reduced => "REDUCED"

/-- Postures. -/
def Posture.label : Posture → String
  | .joining => "JOINING"
  | .normal => "NORMAL"
  | .guarded => "GUARDED"
  | .isolated => "ISOLATED"

/-- Row states. -/
def RowState.label : RowState → String
  | .absent => "ABSENT"
  | .present => "PRESENT"
  | .silent => "SILENT"

/-- Lane modes. -/
def LaneMode.label : LaneMode → String
  | .dual => "DUAL"
  | .single => "SINGLE"
  | .blind => "BLIND"

/-- Aspects. -/
def Aspect.label : Aspect → String
  | .red => "RED"
  | .amber => "AMBER"
  | .green => "GREEN"
  | .dark => "DARK"

/-- Speed bands. -/
def Band.label : Band → String
  | .slow => "SLOW"
  | .mid => "MID"
  | .fast => "FAST"

/-- Refusal causes (R180, R181). -/
def RefusalCause.label : RefusalCause → String
  | .noMemory => "NO_MEMORY"
  | .crc => "CRC"
  | .version => "VERSION"
  | .range _ => "RANGE"
  | .role => "ROLE"

/-- The offset a RANGE refusal names. -/
def RefusalCause.offset : RefusalCause → Option Nat
  | .range o => some o
  | _ => none

/-- Transmit states. -/
def Transmit.label : Transmit → String
  | .idle => "IDLE"
  | .contending => "CONTENDING"
  | .sending => "SENDING"
  | .awaiting _ => "AWAITING"

/-- Frame kinds of notices. -/
def Notice.label : Notice → String
  | .vehicle .. => "VEHICLE"
  | .sighting .. => "SIGHTING"
  | .entered .. => "ENTERED"
  | .left .. => "LEFT"
  | .beacon => "BEACON"

/-- Latches. -/
def Latch.label : Latch → String
  | .none => "NONE"
  | .overcurrent => "OVERCURRENT"
  | .open_ => "OPEN"

/-- What an output serves. -/
def Lamp.label : Lamp → String
  | .red => "RED"
  | .amber => "AMBER"
  | .green => "GREEN"
  | .sign => "SIGN"

/-- Hard causes. -/
def HardCause.label : HardCause → String
  | .silent => "SILENT"
  | .clipped => "CLIPPED"
  | .stuck => "STUCK"

/-- Monitor states. -/
def MonitorState.label : MonitorState → String
  | .idle => "IDLE"
  | .listen => "LISTEN"
  | .readout => "READOUT"

/-- Head states. -/
def HeadState.label : HeadState → String
  | .none => "NONE"
  | .free => "FREE"
  | .stop => "STOP"
  | .admitted _ => "ADMITTED"
  | .held _ _ => "HELD"

/-- Triggers. -/
def Trigger.label : Trigger → String
  | .level => "LEVEL"
  | .rise => "RISE"
  | .fall => "FALL"
  | .change => "CHANGE"

/-- The names of the 24 alert sources (section 12.1). -/
def alertName : AlertSource → String
  | .lampFault => "LAMP_FAULT"
  | .laneSingle => "LANE_SINGLE"
  | .laneBlind => "LANE_BLIND"
  | .spanOverdue => "SPAN_OVERDUE"
  | .posture => "POSTURE"
  | .tempInvalid => "TEMP_INVALID"
  | .health => "HEALTH"
  | .redRun => "RED_RUN"
  | .uncontrolled => "UNCONTROLLED"
  | .noncompliant => "NONCOMPLIANT"
  | .noncompliantEntered => "NONCOMPLIANT_ENTERED"
  | .overUndirected => "OVER_UNDIRECTED"
  | .accountingLost => "ACCOUNTING_LOST"
  | .peerSilent => "PEER_SILENT"
  | .deliveryFail => "DELIVERY_FAIL"
  | .rxMiss => "RX_MISS"
  | .txDrop => "TX_DROP"
  | .approachEvict => "APPROACH_EVICT"
  | .trimLimit => "TRIM_LIMIT"
  | .lineFault => "LINE_FAULT"
  | .phantom => "PHANTOM"
  | .queueOverflow => "QUEUE_OVERFLOW"
  | .duplicateNumber => "DUPLICATE_NUMBER"
  | .chainageClash => "CHAINAGE_CLASH"

/-! ## STATUS (R197) -/

/-- The image status in one word. -/
def ImageStatus.label : ImageStatus → String
  | .loading => "LOADING"
  | .valid => "VALID"
  | .refused _ => "REFUSED"

/-- The image status with its cause and offset (R180). That an image which is not refused prints both as
absent, and does not leave them out, is the model's choice. DESIGN CHOICE (log entry 51). -/
def imageFields (st : ImageStatus) : List (String × Value) :=
  match st with
  | .refused c =>
    [("IMAGE", .name st.label), ("CAUSE", .name c.label), ("OFFSET", optValue natValue c.offset)]
  | _ => [("IMAGE", .name st.label), ("CAUSE", .absent), ("OFFSET", .absent)]

/-- R186: start-up state, image status and keep-alive store. -/
def startupRecord (s : State) : PrintedRecord :=
  { name := "STARTUP"
    key := .absent
    fields :=
      ("STATE", .name s.startup.label) :: imageFields s.loader.status ++
        [("RESET_CAUSE", .name s.store.cause.label), ("RESTARTS", bitsValue s.store.restarts),
          ("TRIMS", .numbers (allLanes.map fun l => some ((s.store.trims.at l : Nat) : Int))),
          ("CHECK", bitsValue s.store.check)] }

/-- R89: clock reading, join timer and posture. The unit of the time left is the model's (log entry
43). -/
def clockRecord (s : State) : PrintedRecord :=
  { name := "CLOCK"
    key := .absent
    fields :=
      [("CLOCK", bitsValue s.clock),
        ("JOIN", if s.startup = .joining then timeLeft s.clock s.peers.joinTimer else .absent),
        ("POSTURE", .name s.peers.posture.label)] }

/-- R27: temperature, validity and hold timer. -/
def probeRecord (s : State) : PrintedRecord :=
  { name := "PROBE"
    key := .absent
    fields :=
      [("TEMPERATURE", optValue Value.number s.probe.theta),
        ("STATE", .name (if s.probe.theta.isSome then "VALID" else "INVALID")),
        ("HOLD", flagValue s.probe.holdTimer.isSome)] }

/-- The name of a field that stands once for each of several numbered things. -/
def numbered (thing : String) (n : Nat) (field : String) : String :=
  thing ++ Nat.repr n ++ "_" ++ field

/-- R54: one lane's assembler. That a lane with no open vehicle prints 0 as the axle count it holds is
the model's choice: R54 and R197 ask for the count and say neither 0 nor absent. DESIGN CHOICE (log
entry 48). -/
def assemblyFields (s : State) (l : Lane) : List (String × Value) :=
  [(numbered "LANE" (laneNumber l) "OPEN", flagValue (s.vehicles.at l).isSome),
    (numbered "LANE" (laneNumber l) "AXLES", natValue (match s.vehicles.at l with
      | some v => v.axles.length
      | none => 0))]

/-- R54: the assemblers of the lanes within the lane count and the tag serial counter. -/
def assemblyRecord (s : State) : PrintedRecord :=
  { name := "ASSEMBLY"
    key := .absent
    fields := (lanesInUse s).flatMap (assemblyFields s) ++ [("SERIAL", bitsValue s.nextSerial)] }

/-- R76: the line counts. -/
def lineCountFields (c : LineCounts) : List (String × Value) :=
  [("BAD_FRAMES", bitsValue c.badFrames), ("FORMAT_DROPS", bitsValue c.formatDrops),
    ("DUPLICATES", bitsValue c.duplicates), ("MISSES", bitsValue c.misses),
    ("COLLISIONS", bitsValue c.collisions), ("RETRIES", bitsValue c.retries),
    ("DELIVERED", bitsValue c.delivered), ("FAILURES", bitsValue c.failures),
    ("DROPS", bitsValue c.drops), ("DISCARDS", bitsValue c.discards)]

/-- R76: the frame in flight. That its fields print as absent, and are not left out, when there is none
is the model's choice. DESIGN CHOICE (log entry 51). So is that the receipt-from is absent before the
first attempt and for an attempt whose receipt-from is 0. DESIGN CHOICE (log entry 45). -/
def flightFields (f : Option Flight) : List (String × Value) :=
  [("FLIGHT_KIND", optValue (fun x => .name (Notice.label (Flight.notice x))) f),
    ("FLIGHT_TAG", optValue tagValue (f.bind fun x => x.notice.tag?)),
    ("FLIGHT_SEQUENCE", optValue (fun x => bitsValue (Flight.sequence x)) f),
    ("FLIGHT_ATTEMPTS", optValue (fun x => natValue (Flight.attempts x)) f),
    ("FLIGHT_COLLISIONS", optValue (fun x => natValue (Flight.collisions x)) f),
    ("FLIGHT_RECEIPT_FROM", optValue stationValue (f.bind Flight.receiptFrom))]

/-- R76: the waiting frames, in queue order. That each one's kind and tag are fields of their own, numbered
from 1 at the front, is the model's choice. DESIGN CHOICE (log entry 52). -/
def waitingFields : Nat → List Waiting → List (String × Value)
  | _, [] => []
  | i, w :: rest =>
    (numbered "WAITING" i "KIND", .name w.notice.label) ::
      (numbered "WAITING" i "TAG", optValue tagValue w.notice.tag?) :: waitingFields (i + 1) rest

/-- R76: the line controller: transmit state, frame in flight, outbound queue, receive slots,
sequence counter and counts. -/
def lineRecord (s : State) : PrintedRecord :=
  { name := "LINE"
    key := .absent
    fields :=
      ("TRANSMIT", .name s.line.transmit.label) :: flightFields s.line.flight ++
        ("WAITING", natValue s.line.queue.length) :: waitingFields 1 s.line.queue ++
        [("SLOTS", natValue s.line.slots.length), ("SEQUENCE", bitsValue s.line.nextSequence)] ++
        lineCountFields s.line.counts }

/-- R128: one output. Section 7.4 calls the assignment of an output that serves no group "unused" and no
rule spells it: that the assignment stands in two fields, its lane and its lamp, and that both are absent
for an unused output is the model's choice. DESIGN CHOICE (log entry 51). -/
def outputFields (s : State) (o : Output) : List (String × Value) :=
  let x := outputOf s o
  let n := numbered "OUTPUT" (o.val + 1)
  [(n "LANE", optValue (fun a => laneValue a.1) x.assignment),
    (n "LAMP", optValue (fun a => .name (Lamp.label a.2)) x.assignment),
    (n "ENABLE", flagValue x.enable), (n "DEMAND", flagValue x.demand), (n "ON", flagValue x.on),
    (n "LATCH", .name x.latch.label)]

/-- R128: one group. -/
def groupFields (s : State) (l : Lane) : List (String × Value) :=
  [(numbered "GROUP" (laneNumber l) "PROVING", flagValue (s.lamps.proving.at l).isSome)]

/-- R128: the time left on a sign timer, or that it is stopped. -/
def signTimeLeft (now : Clock) : Option Clock → Value
  | none => .name "STOPPED"
  | some t => timeLeft now (some t)

/-- R128: the sign of one lane of a DIVERT station. -/
def signFields (s : State) (l : Lane) : List (String × Value) :=
  let n := numbered "SIGN" (laneNumber l)
  [(n "REQUESTED", flagValue (signRequested s l)), (n "TIMER", signTimeLeft s.clock (s.signs.at l).timer),
    (n "BLINK", optValue (fun b => .name (if Blink.on b then "ON" else "OFF")) (s.signs.at l).blink),
    (n "FAULTED", flagValue (groupFaulted s l))]

/-- The lanes that have a lamp group: those within the lane count of a DIVERT or ENTRY station. -/
def lampLanes (s : State) : List Lane :=
  if s.cfg.divert || s.cfg.entry then lanesInUse s else []

/-- R128: every output, every group, and the signs of a DIVERT station. -/
def lampsRecord (s : State) : PrintedRecord :=
  { name := "LAMPS"
    key := .absent
    fields :=
      allOutputs.flatMap (outputFields s) ++ (lampLanes s).flatMap (groupFields s) ++
        (if s.cfg.divert then (lanesInUse s).flatMap (signFields s) else []) }

/-- R156: the aspects, amber timer and presence of one lane. -/
def aspectFields (s : State) (l : Lane) : List (String × Value) :=
  let x := stopLine s l
  let n := numbered "LANE" (laneNumber l)
  [(n "WANTED", .name (wantedAspect s l).label),
    (n "SHOWN", optValue (fun a => .name (Aspect.label a)) x.aspect),
    (n "AMBER", timeLeft s.clock x.amber),
    (n "PRESENCE", .name (if x.occupied then "OCCUPIED" else "UNOCCUPIED"))]

/-- R156: the aspects of an ENTRY station. -/
def aspectsRecord (s : State) : PrintedRecord :=
  { name := "ASPECTS", key := .absent, fields := (lanesInUse s).flatMap (aspectFields s) }

/-- R195: the port's counts. -/
def portRecord (s : State) : PrintedRecord :=
  { name := "PORT"
    key := .absent
    fields :=
      [("TAKEN", bitsValue s.port.linesTaken), ("REFUSED", bitsValue s.port.linesRefused),
        ("LONG", bitsValue s.port.longLines), ("DISCARDED", bitsValue s.port.discarded)] }

/-- R197, R186: STATUS, one record per section in the rule's order, the aspects at an ENTRY station;
in LOADING and FAULT the first section only. -/
def statusRecords (s : State) : List PrintedRecord :=
  if working s then
    [startupRecord s, clockRecord s, probeRecord s, assemblyRecord s, lineRecord s, lampsRecord s] ++
      (if s.cfg.entry then [aspectsRecord s] else []) ++ [portRecord s]
  else [startupRecord s]

/-! ## CONFIG (R186) -/

/-- A list of numbers. -/
def natList (l : List Nat) : Value := .numbers (l.map fun n => some (n : Int))

/-- One strip's calibration fields, as read. -/
def calFields (img : List Byte) (p : Strip) : List (String × Value) :=
  let c := imageCal img (stripIndex p)
  let n := stripName p
  [(n ++ "_K_SLOW", natValue c.kSlow), (n ++ "_K_MID", natValue c.kMid),
    (n ++ "_K_FAST", natValue c.kFast), (n ++ "_BETA", .number c.beta),
    (n ++ "_AUTO_BAND", natValue (imageByte img (calOffset (stripIndex p) + 7)))]

/-- R186: every field of the image as read, in layout order, and the CRC as read and as computed. That a
byte of several bits prints as one number, that strip spacings and fill are one list each, and that the
fields are a record of their own behind the image status, is the model's choice. DESIGN CHOICE (log
entries 14 and 52). -/
def imageRecord (img : List Byte) : PrintedRecord :=
  { name := "FIELDS"
    key := .absent
    fields :=
      [("VERSION", natValue (imageByte img 0)), ("STATION", natValue (imageByte img 1)),
        ("ROLES", natValue (imageByte img 2)), ("OPTIONS", natValue (imageByte img 3)),
        ("CHAINAGE", natValue (image2 img 4)), ("LANE_COUNT", natValue (imageByte img 6)),
        ("EXPECTED", natValue (imageByte img 7)), ("REFERENCE", natValue (imageByte img 8)),
        ("MATCH_TOLERANCE", natValue (imageByte img 9)), ("MARGIN", natValue (imageByte img 10)),
        ("PADDING", natValue (imageByte img 11)), ("S_MAX", natValue (image2 img 12)),
        ("T_MAX", natValue (image2 img 14)), ("LONG_PULSE", natValue (image2 img 16)),
        ("MINIMUM_AREA", natValue (image2 img 18)), ("AXLE_LIMIT", natValue (image2 img 20)),
        ("GROSS_LIMIT", natValue (image3 img 22)), ("SPAN_LIMIT", natValue (image3 img 25)),
        ("HEAVY_THRESHOLD", natValue (image2 img 28)), ("TRANSIT", natValue (image2 img 30)),
        ("SIGN_HOLD", natValue (imageByte img 32)),
        ("SPACING", natList (allLanes.map fun l => image2 img (33 + 2 * l.val)))] ++
        allStrips.flatMap (calFields img) ++
        allSources.map (fun x => (alertName x, natValue (imageByte img (105 + (sourceIndex x).val)))) ++
        [("FILL", natList (((img.drop 129).take 125).map BitVec.toNat)),
          ("CRC_READ", natValue (crcRead img)), ("CRC_COMPUTED", natValue (crcComputed img))] }

/-- R186: CONFIG; after a NO_MEMORY refusal no fields are printed. -/
def configRecords (s : State) : List PrintedRecord :=
  let head : PrintedRecord :=
    { name := "CONFIG", key := .absent, fields := imageFields s.loader.status }
  if s.loader.status = .refused .noMemory then [head] else [head, imageRecord s.loader.image]

/-! ## PEERS (R89) -/

/-- The fields of a row that has been heard. -/
def heardFields (now : Clock) (h : Heard) : List (String × Value) :=
  let b := h.body
  [("ROLES", flagNames [(b.divert, "DIVERT"), (b.entry, "ENTRY"), (b.exit, "EXIT"),
      (b.beyondExit, "BEYOND_EXIT")]),
    ("CHAINAGE", natValue b.chainage), ("LANE_COUNT", natValue b.laneCount),
    ("BLIND", natList ((allLanes.filter fun l => b.blind.at l).map laneNumber)),
    ("POSTURE", .name b.posture.label),
    ("FLAGS", flagNames [(b.entryDegraded, "ENTRY_DEGRADED"), (b.signDegraded, "SIGN_DEGRADED")]),
    ("RESTARTS", bitsValue b.restarts), ("CAUSE", .name b.cause.label),
    ("HEARD", millis (elapsed now h.at_))]

/-- The same fields of a row not heard since reset, printed as absent (log entry 41). -/
def unheardFields : List (String × Value) :=
  [("ROLES", .absent), ("CHAINAGE", .absent), ("LANE_COUNT", .absent), ("BLIND", .absent),
    ("POSTURE", .absent), ("FLAGS", .absent), ("RESTARTS", .absent), ("CAUSE", .absent),
    ("HEARD", .absent)]

/-- R89: one row. A row not heard has every field too, with the sequence and the failures it holds
(log entry 41). -/
def peerRecord (s : State) (k : Station) : PrintedRecord :=
  let r := rowOf s k
  { name := "PEER"
    key := stationValue k
    fields :=
      [("STATE", .name r.state.label), ("EXPECTED", flagValue r.expected)] ++
        (match r.heard with
          | some h => heardFields s.clock h
          | none => unheardFields) ++
        [("LAST_SEQUENCE", optValue bitsValue r.lastSequence), ("FAILURES", natValue r.failures)] }

/-- R89: one record for each row but the station's own. -/
def peersRecords (s : State) : List PrintedRecord :=
  (allStations.filter fun k => decide (k ≠ s.cfg.station)).map (peerRecord s)

/-! ## APPROACH (R114) -/

/-- An entry put in its place in a list that is in the order of R108. -/
def insertTried (e : ApproachEntry) : List ApproachEntry → List ApproachEntry
  | [] => [e]
  | x :: xs => if triedBefore e x then e :: x :: xs else x :: insertTried e xs

/-- The entries in the order R108 would try them. -/
def triedOrder (l : List ApproachEntry) : List ApproachEntry := l.foldr insertTried []

/-- R114: one entry. That its tag is the key alone, and that the created time, of which R114 gives no other
form, is a clock reading, is the model's choice. DESIGN CHOICE (log entry 52). -/
def entryRecord (s : State) (e : ApproachEntry) : PrintedRecord :=
  { name := "ENTRY"
    key := tagValue e.tag
    fields :=
      [("LAST_STATION", stationValue e.lastStation), ("SEEN", signedMillis (signedDiff e.seen s.clock)),
        ("LANE", laneValue e.lane), ("SPEED", optValue natValue e.speed),
        ("AXLES", optValue natValue e.axleCount), ("SPACINGS", optValue natList e.spacings),
        ("EFFECTIVE_GROSS", natValue e.effGross), ("EFFECTIVE_VERDICT", .name e.effVerdict.label),
        ("CONFIDENCE", .name e.confidence.label), ("DIRECTED", flagValue e.directed),
        ("REFERENCE", optValue natValue e.reference),
        ("FLAGS", flagNames [(e.straddle, "STRADDLE"), (e.overlong, "OVERLONG"),
          (e.continuation, "CONTINUATION"), (e.singleSource, "SINGLE-source")]),
        ("OPENS", signedMillis (signedDiff e.windowOpen s.clock)),
        ("CLOSES", signedMillis (signedDiff e.windowClose s.clock)),
        ("CREATED", bitsValue e.created)] }

/-- R114: the approach list's counts. -/
def approachCountsRecord (c : ApproachCounts) : PrintedRecord :=
  { name := "COUNTS"
    key := .absent
    fields :=
      [("CREATED", bitsValue c.created), ("UPDATED", bitsValue c.updated),
        ("MATCHED", bitsValue c.matched), ("LATE", bitsValue c.late),
        ("PASSED_UNSEEN", bitsValue c.passedUnseen), ("EXPIRED", bitsValue c.expired),
        ("EVICTED", bitsValue c.evicted), ("NOT_PRESENT", bitsValue c.notPresent),
        ("CLASH", bitsValue c.clash), ("HELD", bitsValue c.held)] }

/-- R114: APPROACH. -/
def approachRecords (s : State) : List PrintedRecord :=
  (triedOrder s.approach.entries).map (entryRecord s) ++ [approachCountsRecord s.approach.counts]

/-! ## QUEUE and SPAN (R156) -/

/-- The names of the flags an axle record carries (R17). -/
def axleFlags (a : Axle) : Value :=
  flagNames
    [(a.flags.slow, "SLOW"), (a.flags.fast, "FAST"), (a.flags.long, "LONG"),
      (a.flags.areaClip, "AREA_CLIP"), (a.flags.loadSat, "LOAD_SAT"),
      (a.flags.disagree, "DISAGREE"), (a.partner.isSome, "STRADDLE"),
      (a.flags.unpaired, "UNPAIRED"), (a.flags.single, "SINGLE"), (a.flags.noTemp, "NO_TEMP"),
      (a.flags.unweighed, "UNWEIGHED")]

/-- R17, R54: one axle record of a vehicle. R196 separates the values of a list by commas and says nothing
of a list of records: that each of the seven fields of an axle record is a field of its own, numbered
with the axle from 1 in order of arrival (`AXLE1_TIME` to `AXLE1_FLAGS`), is the model's choice. DESIGN
CHOICE (log entry 52). -/
def axlePrint (i : Nat) (a : Axle) : List (String × Value) :=
  let n := numbered "AXLE" (i + 1)
  [(n "TIME", bitsValue a.time), (n "LANE", laneValue a.lane),
    (n "PARTNER", optValue laneValue a.partner), (n "SPEED", optValue natValue a.speed),
    (n "LOAD", optValue natValue a.load),
    (n "BAND", optValue (fun b => .name (Band.label b)) a.band), (n "FLAGS", axleFlags a)]

/-- The fields of the axle records of a vehicle, where section 3.8 has the axles (log entry 52). -/
def axlesPrint : Nat → List Axle → List (String × Value)
  | _, [] => []
  | i, a :: rest => axlePrint i a ++ axlesPrint (i + 1) rest

/-- The fields of the vehicle record (section 3.8). -/
def vehicleFields (r : Record) : List (String × Value) :=
  [("LANE", laneValue r.lane), ("PARTNER", optValue laneValue r.partner), ("TIME", bitsValue r.time)] ++
    axlesPrint 0 r.axles ++
    [("SPACINGS", .numbers (r.spacings.map fun x => x.map fun n => (n : Int))),
      ("GROSS", natValue r.gross), ("SPEED", optValue natValue r.speed),
      ("CONFIDENCE", .name r.confidence.label), ("VERDICT", .name r.verdict.label),
      ("FLAGS", flagNames [(r.straddle, "STRADDLE"), (r.overlong, "OVERLONG"),
        (r.continuation, "CONTINUATION"), (r.unweighed, "UNWEIGHED")]),
      ("HEAVY", flagValue r.heavy), ("TAG", optValue tagValue r.tag),
      ("EFFECTIVE_GROSS", natValue r.effGross), ("EFFECTIVE_VERDICT", .name r.effVerdict.label),
      ("DIRECTED", flagValue r.directed), ("REFERENCE", optValue natValue r.reference)]

/-- The admission weight of a head, if it is ADMITTED or HELD. -/
def headWeight (h : HeadState) : Option Nat :=
  match h with
  | .admitted w => some w
  | .held w _ => some w
  | _ => none

/-- R156: the further fields of the head. -/
def headFields (s : State) (l : Lane) : List (String × Value) :=
  let h := (stopLine s l).head
  [("HEAD", .name h.label), ("ADMISSION_WEIGHT", optValue natValue (headWeight h)),
    ("HELD_AT", optValue bitsValue (holdTime s l))]

/-- A waiting vehicle. That its key is its place in the queue, 1 for the head, is the model's choice: R54
and R156 give the order and the fields, and R196 no key for it. DESIGN CHOICE (log entry 44). -/
def queueRecord (i : Nat) (fields : List (String × Value)) : PrintedRecord :=
  { name := "VEHICLE", key := natValue i, fields := fields }

/-- The vehicles behind the head. -/
def queueTail : Nat → List Record → List PrintedRecord
  | _, [] => []
  | i, r :: rest => queueRecord i (vehicleFields r) :: queueTail (i + 1) rest

/-- R156: QUEUE n, head first. -/
def queueRecords (s : State) (l : Lane) : List PrintedRecord :=
  match (stopLine s l).queue with
  | [] => []
  | r :: rest => queueRecord 1 (vehicleFields r ++ headFields s l) :: queueTail 2 rest

/-- R148, R156: one span set entry. That its tag is the key alone, and that its entered time and deadline
print as clock readings beside the two times of R156, is the model's choice. DESIGN CHOICE (log entry
52). -/
def spanRecord (s : State) (e : SpanEntry) : PrintedRecord :=
  { name := "SPAN"
    key := tagValue e.tag
    fields :=
      [("LANE", laneValue e.lane), ("WEIGHT", natValue e.weight), ("ENTERED", bitsValue e.entered),
        ("DEADLINE", bitsValue e.deadline), ("STATE", .name (if e.overdue then "OVERDUE" else "ON_SPAN")),
        ("FLAGS", flagNames [(e.redRun, "RED_RUN"), (e.uncontrolled, "UNCONTROLLED"),
          (e.unseen, "UNSEEN"), (e.noncompliant, "NONCOMPLIANT")]),
        ("SINCE_ENTERED", millis (elapsed s.clock e.entered)),
        ("TO_DEADLINE", signedMillis (signedDiff e.deadline s.clock))] }

/-- A held vehicle in the printed held set: R156 says "in order" and not by what it is named. That it is
the tag of the held head is the model's choice. DESIGN CHOICE (log entry 52). Held heads are heavy and
have a tag; the lane number stands in where there is none. -/
def heldName (s : State) (l : Lane) : String :=
  match (stopLine s l).queue with
  | r :: _ =>
    match r.tag with
    | some t => tagName t
    | none => Nat.repr (laneNumber l)
  | [] => Nat.repr (laneNumber l)

/-- R156: the entry controller's accounting state. -/
def accountingRecord (s : State) : PrintedRecord :=
  { name := "ACCOUNTING"
    key := .absent
    fields :=
      [("SPAN_TOTAL", natValue (spanTotal s)), ("COMMITTED", natValue (committed s)),
        ("HELD", .names (s.entry.held.map (heldName s))),
        ("MODE", .name (match s.entry.mode with
          | .tracked => "TRACKED"
          | .timed => "TIMED")),
        ("GATE_OPEN", flagValue (gateOpen s)), ("RECOVERY", timeLeft s.clock s.entry.recovery),
        ("ACCOUNTING_LOST", flagValue s.entry.lost), ("DEGRADED", flagValue (entryDegraded s)),
        ("PHANTOMS", bitsValue s.entry.phantoms), ("LIGHT_CROSSED", bitsValue s.entry.lightCrossed),
        ("UNKNOWN_LEFT", bitsValue s.entry.unknownLeft), ("TURNED_AWAY", bitsValue s.entry.turnedAway),
        ("FORGOTTEN", bitsValue s.entry.forgotten)] }

/-- R156: SPAN. The set is kept in order of entered time. -/
def spanRecords (s : State) : List PrintedRecord :=
  s.entry.span.map (spanRecord s) ++ [accountingRecord s]

/-! ## ALERTS (R194) -/

/-- Asserted or released. -/
def lineValue (asserted : Bool) : Value := .name (if asserted then "ASSERTED" else "RELEASED")

/-- R194: one source. -/
def alertRecord (s : State) (x : AlertSource) : PrintedRecord :=
  let c := alertConfig s x
  let a := alertOf s x
  { name := "SOURCE"
    key := .name (alertName x)
    fields :=
      [("KIND", .name (if isCondition x then "CONDITION" else "EVENT")),
        ("ENABLE", flagValue c.enable), ("MAP_A", flagValue c.mapA), ("MAP_B", flagValue c.mapB),
        ("COUNT", bitsValue a.count), ("STICKY", flagValue a.sticky)] ++
        (if isCondition x then
          [("TRIGGER", .name (triggerOf s x).label), ("BYPASS", flagValue c.bypass),
            ("RAW", flagValue (rawState s x))]
        else []) ++
        [("ACTIVE", flagValue (isActive s x))] }

/-- R194: ALERTS. -/
def alertsRecords (s : State) : List PrintedRecord :=
  { name := "LINES", key := .absent
    fields := [("ALERT-A", lineValue s.alerts.lineA), ("ALERT-B", lineValue s.alerts.lineB)] } ::
    allSources.map (alertRecord s)

/-! ## COUNTS (R193) -/

/-- The seven counts of a lane. -/
def laneCountFields (c : LaneCounts) : List (String × Value) :=
  [("AXLES", bitsValue c.axles), ("LIGHT", bitsValue c.light), ("HEAVY", bitsValue c.heavy),
    ("DIVERTED", bitsValue c.diverted), ("COMPLIED", bitsValue c.complied),
    ("STOPPED", bitsValue c.stopped), ("RED_RUNS", bitsValue c.redRuns)]

/-- The seven snapshots before the first complete minute. R193 says "or absent"; that each of the seven
prints as absent is the model's choice. DESIGN CHOICE (log entry 52). -/
def absentCountFields : List (String × Value) :=
  (laneCountFields {}).map fun f => (f.1, .absent)

/-- R193: what COUNTS shows of a lane. -/
def countsRecord (s : State) (l : Lane) : PrintedRecord :=
  { name := "LANE"
    key := laneValue l
    fields :=
      if s.cfg.minuteMode then
        match s.counters.snapshots with
        | some t => laneCountFields (t.at l)
        | none => absentCountFields
      else laneCountFields (s.counters.lanes.at l) }

/-- R193: the mode line. That the mode is its key is the model's choice (log entry 44). -/
def countModeRecord (s : State) : PrintedRecord :=
  { name := "MODE"
    key := .name (if s.cfg.minuteMode then "MINUTE" else "TOTAL")
    fields :=
      if s.cfg.minuteMode then
        [("MINUTES", bitsValue s.counters.minutes), ("LEFT", timeLeft s.clock s.counters.minuteTimer)]
      else [] }

/-- R193: COUNTS. -/
def countsRecords (s : State) : List PrintedRecord :=
  countModeRecord s :: (lanesInUse s).map (countsRecord s)

/-! ## HEALTH and HEALTH STEP (R175, R176, R179) -/

/-- The indication record of a strip. -/
def indicationFields (h : StripHealth) : List (String × Value) :=
  [("HARD", flagValue h.hard.isSome),
    ("HARD_CAUSE", optValue (fun c => .name (HardCause.label c)) h.hard),
    ("HARD_TIME", optValue bitsValue h.hardTime), ("HARD_OVERFLOW", flagValue h.hardOverflow),
    ("SOFT", flagValue h.soft), ("SOFT_TIME", optValue bitsValue h.softTime),
    ("SOFT_OVERFLOW", flagValue h.softOverflow)]

/-- The condition of a strip. -/
def conditionField (h : StripHealth) : String × Value :=
  ("CONDITION", .name (if h.failed then "FAILED" else "GOOD"))

/-- R179: one strip. -/
def stripRecord (s : State) (p : Strip) : PrintedRecord :=
  let h := healthOf s p
  { name := "STRIP"
    key := .name (stripName p)
    fields :=
      [conditionField h, ("SILENCE_RUN", natValue h.silenceRun), ("CLIP_RUN", natValue h.clipRun)] ++
        indicationFields h ++ [("NOISE", bitsValue (channelOf s p).noise)] }

/-- R179: HEALTH. That the clock reading, last in the rule's list, stands in the first record, with monitor
state and walk position, is the model's choice. DESIGN CHOICE (log entry 52). -/
def healthRecords (s : State) : List PrintedRecord :=
  [{ name := "HEALTH", key := .absent
     fields :=
      [("STATE", .name s.health.state.label),
        ("WALK", optValue (fun p => .name (stripName p)) s.health.walk),
        ("CLOCK", bitsValue s.clock)] }] ++
    (lanesInUse s).map (fun l =>
      { name := "LANE", key := laneValue l, fields := [("MODE", .name (laneMode s l).label)] }) ++
    (stripsInUse s).map (stripRecord s)

/-- R175, R176: the response to HEALTH STEP: the monitor state it leaves, the clock, and the strip it
presents with its record before clearing. R175 has a step from IDLE name the monitor state; that a step
from LISTEN or READOUT prints it too, and one from IDLE the clock too, is the model's choice. DESIGN
CHOICE (log entry 49). -/
def stepRecords (s : State) (after : MonitorState) (presented : Option Strip) :
    List PrintedRecord :=
  { name := "HEALTH", key := .absent
    fields :=
      [("STATE", .name after.label), ("STRIP", optValue (fun p => .name (stripName p)) presented),
        ("CLOCK", bitsValue s.clock)] } ::
    presented.toList.map fun p =>
      { name := "STRIP", key := .name (stripName p)
        fields := conditionField (healthOf s p) :: indicationFields (healthOf s p) }

/-! ## TRIM (R166) -/

/-- R166: one lane. -/
def trimRecord (s : State) (l : Lane) : PrintedRecord :=
  let x := s.trim.at l
  { name := "TRIM"
    key := laneValue l
    fields :=
      [("ACTIVE", natValue (s.store.trims.at l)), ("PENDING", optValue natValue x.pending),
        ("RATIOS", natValue x.window.length), ("WINDOW", natList x.window),
        ("SAMPLES", bitsValue x.samples), ("REFUSED", bitsValue x.refused),
        ("CLAMPED", bitsValue x.clamped), ("FORMED", bitsValue x.formed),
        ("APPLIED", bitsValue x.applied), ("REFERENCE", optValue stationValue s.cfg.refPeer)] }

/-- R166: TRIM. -/
def trimRecords (s : State) : List PrintedRecord := (lanesInUse s).map (trimRecord s)

/-! ## The text of a response (R196) -/

/-- An optional number as text. -/
def numberText : Option Int → String
  | some n => Int.repr n
  | none => "-"

/-- A printed value: absent as a hyphen, a list with commas. -/
def Value.text : Value → String
  | .absent => "-"
  | .number n => Int.repr n
  | .name s => s
  | .numbers l => String.intercalate "," (l.map numberText)
  | .names l => String.intercalate "," l

/-- R196: the first line of a record: its name, and its key where it has one (log entry 44). That one
space stands between them is the model's choice. DESIGN CHOICE (log entry 50). -/
def PrintedRecord.heading (r : PrintedRecord) : String :=
  match r.key with
  | .absent => r.name
  | k => r.name ++ " " ++ k.text

/-- R196: the lines of a record; fields are indented by two spaces. That one space stands between the
name of a field and its value, and that an empty list prints nothing after it, is the model's choice.
DESIGN CHOICE (log entry 50). -/
def PrintedRecord.lines (r : PrintedRecord) : List String :=
  r.heading :: r.fields.map fun f => "  " ++ f.1 ++ " " ++ f.2.text

/-- The word of a refusal code. -/
def ErrorCode.label : ErrorCode → String
  | .badCmd => "BADCMD"
  | .badArg => "BADARG"
  | .state => "STATE"
  | .long => "LONG"

/-- The lines of a response. -/
def Response.lines : Response → List String
  | .ok records => records.flatMap PrintedRecord.lines ++ ["OK"]
  | .err code => ["ERR " ++ code.label]

/-- The characters of a response: every line ends with a carriage return and a line feed. -/
def Response.characters (r : Response) : List Byte :=
  r.lines.flatMap fun l => (l.toList.map fun c => byte c.toNat) ++ [0x0D, 0x0A]

end Sys2Proof.Machine
end

