-- ==== Sys2Proof/Machine/Operands.lean ====
section
/-! DEFINITION. The operand forms of the maintenance port: a line split into words and read as a
command with its arguments (R196). -/

namespace Sys2Proof.Machine

/-! ## Words -/

/-- The ASCII bytes of a word. -/
def ascii (s : String) : List Byte := s.toList.map fun c => byte c.toNat

/-- R196: letters are taken without regard to case. -/
def upper (b : Byte) : Byte := if 0x61 ≤ b.toNat ∧ b.toNat ≤ 0x7A then b - 0x20 else b

/-- Words split at runs of spaces, with the letters of the word in progress. -/
def wordsFrom (word : List Byte) : List Byte → List (List Byte)
  | [] => if word.isEmpty then [] else [word]
  | c :: rest =>
    if c = 0x20 then
      if word.isEmpty then wordsFrom [] rest else word :: wordsFrom [] rest
    else wordsFrom (word ++ [upper c]) rest

/-- R196: the words of a line, in capitals; leading and trailing spaces are ignored. -/
def words (line : List Byte) : List (List Byte) := wordsFrom [] line

/-- The value of a decimal digit. -/
def digit (b : Byte) : Option Nat :=
  if 0x30 ≤ b.toNat ∧ b.toNat ≤ 0x39 then some (b.toNat - 0x30) else none

/-- R196: a lane number is a single digit 1..4; anything else is lane 0, which no station has
(log entry 33). -/
def laneWord (w : List Byte) : Nat :=
  match w with
  | [b] => if 0x31 ≤ b.toNat ∧ b.toNat ≤ 0x34 then b.toNat - 0x30 else 0
  | _ => 0

/-- R155: a tag written as an origin 1..8, a hyphen and four digits. -/
def tagWord (w : List Byte) : Option Tag :=
  match w with
  | [o, h, a, b, c, d] =>
    match digit o, digit a, digit b, digit c, digit d with
    | some o, some a, some b, some c, some d =>
      let n := a * 1000 + b * 100 + c * 10 + d
      if h = 0x2D ∧ n < 4096 then
        (stationOfNumber o).map fun k => { origin := k, serial := BitVec.ofNat 12 n }
      else none
    | _, _, _, _, _ => none
  | _ => none

/-- R178: a strip written as a lane number 1..4 and L or T. -/
def stripWord (w : List Byte) : Option Strip :=
  match w with
  | [n, p] =>
    match laneOfNumber (laneWord [n]) with
    | some l =>
      if p = 0x4C then some ⟨l, .lead⟩ else if p = 0x54 then some ⟨l, .trail⟩ else none
    | none => none
  | _ => none

/-- R190: the alert source with a name. -/
def sourceWord (w : List Byte) : Option AlertSource :=
  allSources.find? fun x => decide (ascii (alertName x) = w)

/-! ## Commands -/

/-- A role a command needs before its arguments are looked at (section 12.6). -/
inductive RoleNeeded where
  | any
  /-- the ENTRY role (R153 to R156) -/
  | entry
  /-- DIVERT or ENTRY (R126) -/
  | lamps
  deriving DecidableEq, Repr

/-- The start-up states before JOINING in which a command word is accepted (R186). -/
inductive Early where
  | never
  | inFault
  | always
  deriving DecidableEq, Repr

/-- A line read as a command. A lane that is not a single digit 1..4 is lane 0; a tag, strip or source
that is not in its form is absent; `wrong` is a command with a missing or extra word or a wrong
keyword, with the role its word needs and the states its word is accepted in. -/
inductive PortCommand where
  | unknown
  | wrong (role : RoleNeeded) (early : Early)
  | status | config | peers | approach | span | alerts | clearAll | counts | health | healthStep
  | trim | restart
  | queue (lane : Nat)
  | clear (source : Option AlertSource)
  | releaseAdmit (lane : Nat)
  | releaseRemove (lane : Nat)
  | forget (tag : Option Tag)
  | lampReset (lane : Nat)
  | stripRestore (strip : Option Strip)
  deriving DecidableEq, Repr

/-- R186: where a command is accepted before JOINING. A line that names no command is judged first
(R196). -/
def earlyOf : PortCommand → Early
  | .unknown => .always
  | .wrong _ e => e
  | .status | .restart => .always
  | .config => .inFault
  | _ => .never

/-- A command without arguments: anything after it is an extra word. -/
def bare (c : PortCommand) (role : RoleNeeded) (args : List (List Byte)) : PortCommand :=
  if args.isEmpty then c else .wrong role (earlyOf c)

/-- A command with one argument. -/
def withOne (f : List Byte → PortCommand) (role : RoleNeeded) (args : List (List Byte)) :
    PortCommand :=
  match args with
  | [w] => f w
  | _ => .wrong role .never

/-- R153, R154: RELEASE n ADMIT and RELEASE n REMOVE. -/
def releaseCommand (args : List (List Byte)) : PortCommand :=
  match args with
  | [n, k] =>
    if k = ascii "ADMIT" then .releaseAdmit (laneWord n)
    else if k = ascii "REMOVE" then .releaseRemove (laneWord n)
    else .wrong .entry .never
  | _ => .wrong .entry .never

/-- R190: CLEAR name and CLEAR ALL. -/
def clearCommand (w : List Byte) : PortCommand :=
  if w = ascii "ALL" then .clearAll else .clear (sourceWord w)

/-- R196: the command a line's words name. LAMP and STRIP are command words only when followed by
RESET and RESTORE; HEALTH followed by STEP is HEALTH STEP. -/
def commandOf (l : List (List Byte)) : PortCommand :=
  match l with
  | [] => .unknown
  | w :: args =>
    if w = ascii "STATUS" then bare .status .any args
    else if w = ascii "CONFIG" then bare .config .any args
    else if w = ascii "PEERS" then bare .peers .any args
    else if w = ascii "APPROACH" then bare .approach .any args
    else if w = ascii "QUEUE" then withOne (fun x => .queue (laneWord x)) .entry args
    else if w = ascii "SPAN" then bare .span .entry args
    else if w = ascii "ALERTS" then bare .alerts .any args
    else if w = ascii "CLEAR" then withOne clearCommand .any args
    else if w = ascii "COUNTS" then bare .counts .any args
    else if w = ascii "HEALTH" then
      match args with
      | x :: rest => if x = ascii "STEP" then bare .healthStep .any rest else .wrong .any .never
      | [] => .health
    else if w = ascii "TRIM" then bare .trim .any args
    else if w = ascii "RELEASE" then releaseCommand args
    else if w = ascii "FORGET" then withOne (fun x => .forget (tagWord x)) .entry args
    else if w = ascii "LAMP" then
      match args with
      | x :: rest =>
        if x = ascii "RESET" then withOne (fun y => .lampReset (laneWord y)) .lamps rest
        else .unknown
      | [] => .unknown
    else if w = ascii "STRIP" then
      match args with
      | x :: rest =>
        if x = ascii "RESTORE" then withOne (fun y => .stripRestore (stripWord y)) .any rest
        else .unknown
      | [] => .unknown
    else if w = ascii "RESTART" then bare .restart .any args
    else .unknown

end Sys2Proof.Machine
end

