-- ==== Sys2Proof/Machine/Port.lean ====
section
/-! DEFINITION. The maintenance port (sections 11.7 and 12.5): judging a command, its effect, taking a
line, and characters; and the command rows, which stand for a line taken. -/

namespace Sys2Proof.Machine

/-! ## What each command answers -/

/-- What judging a command gives: a refusal, or the records it prints and the state it leaves. -/
abbrev Judged := Except ErrorCode (List PrintedRecord × State)

/-- A command that prints and changes nothing. -/
def prints (records : List PrintedRecord) (s : State) : Judged := .ok (records, s)

/-- A lane number within the lane count. -/
def laneArg (s : State) (n : Nat) : Option Lane := (laneOfNumber n).filter (laneInUse s)

/-- STATUS (R197, R186). -/
def judgeStatus (s : State) : Judged := prints (statusRecords s) s

/-- CONFIG (R186). -/
def judgeConfig (s : State) : Judged := prints (configRecords s) s

/-- PEERS (R89). -/
def judgePeers (s : State) : Judged := prints (peersRecords s) s

/-- APPROACH (R114). -/
def judgeApproach (s : State) : Judged := prints (approachRecords s) s

/-- QUEUE n (R156). -/
def judgeQueue (n : Nat) (s : State) : Judged :=
  if s.cfg.entry then
    match laneArg s n with
    | some l => prints (queueRecords s l) s
    | none => .error .badArg
  else .error .state

/-- SPAN (R156). -/
def judgeSpan (s : State) : Judged :=
  if s.cfg.entry then prints (spanRecords s) s else .error .state

/-- ALERTS (R194). -/
def judgeAlerts (s : State) : Judged := prints (alertsRecords s) s

/-- CLEAR name (R190). -/
def judgeClear (source : Option AlertSource) (s : State) : Judged :=
  match source with
  | some x => prints [] (clearSource s x)
  | none => .error .badArg

/-- CLEAR ALL (R190). -/
def judgeClearAll (s : State) : Judged := prints [] (allSources.foldl clearSource s)

/-- COUNTS (R193). -/
def judgeCounts (s : State) : Judged := prints (countsRecords s) s

/-- HEALTH (R179). -/
def judgeHealth (s : State) : Judged := prints (healthRecords s) s

/-- R175: every strip's indication record cleared. -/
def clearIndications (s : State) : State :=
  { s with health.strips := Tab.make 8 fun k => (s.health.strips.at k).cleared }

/-- HEALTH STEP (R175, R176). -/
def judgeHealthStep (s : State) : Judged :=
  match s.health.state with
  | .idle =>
    prints (stepRecords s .listen none) { clearIndications s with health.state := .listen }
  | _ =>
    match nextPresented s with
    | some p =>
      let s1 := setHealth p (healthOf s p).cleared s
      prints (stepRecords s .readout (some p))
        { s1 with health.state := .readout, health.walk := some p }
    | none =>
      prints (stepRecords s .listen none)
        { s with health.state := .listen, health.walk := none }

/-- TRIM (R166). -/
def judgeTrim (s : State) : Judged := prints (trimRecords s) s

/-- RELEASE n ADMIT (R153): a STOP head becomes HELD and the arbiter runs. -/
def judgeReleaseAdmit (n : Nat) (s : State) : Judged :=
  if s.cfg.entry then
    match laneArg s n with
    | none => .error .badArg
    | some l =>
      match (stopLine s l).head, (stopLine s l).queue with
      | .stop, r :: _ => prints [] (runArbiter (becomeHeld l (admissionWeight s r) s))
      | _, _ => .error .state
  else .error .state

/-- R154: a head is turned away; the record behind it is evaluated, after an arbiter run where the
head was HELD. -/
def turnAway (l : Lane) (wasHeld : Bool) (s : State) : State :=
  let s1 := leaveHeld l (popHead l s)
  let s2 := { s1 with entry.turnedAway := s1.entry.turnedAway + 1 }
  evaluateHead l (if wasHeld then runArbiter s2 else s2)

/-- RELEASE n REMOVE (R154). -/
def judgeReleaseRemove (n : Nat) (s : State) : Judged :=
  if s.cfg.entry then
    match laneArg s n with
    | none => .error .badArg
    | some l =>
      match (stopLine s l).head with
      | .held _ _ => prints [] (turnAway l true s)
      | .stop => prints [] (turnAway l false s)
      | _ => .error .state
  else .error .state

/-- FORGET tag (R155). -/
def judgeForget (tag : Option Tag) (s : State) : Judged :=
  if s.cfg.entry then
    match tag with
    | some t =>
      if s.entry.span.any fun e => decide (e.tag = t) then
        prints []
          (departSpan (fun e => decide (e.tag ≠ t))
            { s with entry.forgotten := s.entry.forgotten + 1 })
      else .error .badArg
    | none => .error .badArg
  else .error .state

/-- LAMP RESET n (R126). -/
def judgeLampReset (n : Nat) (s : State) : Judged :=
  if s.cfg.divert || s.cfg.entry then
    match laneArg s n with
    | some l => prints [] (resetGroup l s)
    | none => .error .badArg
  else .error .state

/-- STRIP RESTORE id (R178). -/
def judgeStripRestore (strip : Option Strip) (s : State) : Judged :=
  match strip with
  | some p =>
    if laneInUse s p.lane then
      if stripFailed s p then prints [] (restoreStrip p s) else .error .state
    else .error .badArg
  | none => .error .badArg

/-- RESTART (R184, R197): answered OK; the reset follows when the answer has left the port. -/
def judgeRestart (s : State) : Judged := prints [] { s with port.restart := .answering }

/-- R196: the role check of a command with wrong arguments, then ERR BADARG. -/
def judgeWrong (role : RoleNeeded) (s : State) : Judged :=
  let ok := match role with
    | .any => true
    | .entry => s.cfg.entry
    | .lamps => s.cfg.divert || s.cfg.entry
  if ok then .error .badArg else .error .state

/-- R196 step 3: the command's own checks, and what it does. -/
def judgeCommand (c : PortCommand) (s : State) : Judged :=
  match c with
  | .unknown => .error .badCmd
  | .wrong role _ => judgeWrong role s
  | .status => judgeStatus s
  | .config => judgeConfig s
  | .peers => judgePeers s
  | .approach => judgeApproach s
  | .span => judgeSpan s
  | .alerts => judgeAlerts s
  | .clearAll => judgeClearAll s
  | .counts => judgeCounts s
  | .health => judgeHealth s
  | .healthStep => judgeHealthStep s
  | .trim => judgeTrim s
  | .restart => judgeRestart s
  | .queue n => judgeQueue n s
  | .clear x => judgeClear x s
  | .releaseAdmit n => judgeReleaseAdmit n s
  | .releaseRemove n => judgeReleaseRemove n s
  | .forget t => judgeForget t s
  | .lampReset n => judgeLampReset n s
  | .stripRestore p => judgeStripRestore p s

/-- R186, R196 step 2: the commands accepted in the present start-up state. -/
def commandAllowed (s : State) (c : PortCommand) : Bool :=
  match s.startup with
  | .joining | .running => true
  | .fault => decide (earlyOf c ≠ .never)
  | .loading => decide (earlyOf c = .always)
  | .reset => false

/-! ## Taking a line (R196) -/

/-- The port enters RESPONDING with an empty buffer and counts the line. -/
def beginLine (s : State) : State :=
  { s with
    port.state := .responding, port.buffer := [], port.garbled := false
    port.linesTaken := s.port.linesTaken + 1 }

/-- The response of a judged command, and what the command changed. A refused command changes nothing
and is counted. -/
def respond (j : Judged) (s : State) : State :=
  match j with
  | .ok (records, t) => { t with port.response := some (.ok records) }
  | .error e =>
    { s with port.response := some (.err e), port.linesRefused := s.port.linesRefused + 1 }

/-- R196: a line is taken as a command. -/
def takeLine (garbled : Bool) (c : PortCommand) (s : State) : State :=
  let s1 := beginLine s
  respond
    (if garbled then .error .badCmd
      else if commandAllowed s1 c then judgeCommand c s1 else .error .state) s1

/-- The command rows of the opcode table: a line with that command is taken. The port must be
COLLECTING, and in RESET it neither receives nor sends (R195; log entry 15). -/
def portReady (s : State) : Bool :=
  decide (s.port.state = .collecting) && decide (s.startup ≠ .reset)

/-- A command line arrives at the port. -/
def portCommand (c : PortCommand) (s : State) : Result :=
  if portReady s then done (takeLine false c s) else noEvent s

/-! ## Characters (R195) -/

/-- The line ends: one that holds nothing but spaces is discarded without a response. -/
def endLine (s : State) : State :=
  if s.port.buffer.all fun b => decide (b = 0x20) then
    { s with port.buffer := [], port.garbled := false }
  else takeLine s.port.garbled (commandOf (words s.port.buffer)) s

/-- A character stored in the line buffer; the 65th enters DISCARDING. -/
def storeChar (c : Byte) (s : State) : State :=
  if 64 ≤ s.port.buffer.length then
    { s with port.state := .discarding, port.buffer := [], port.garbled := false }
  else { s with port.buffer := s.port.buffer ++ [c] }

/-- The character ends a line: a carriage return, or a line feed not directly after one. -/
def endsLine (c : Byte) (s : State) : Bool :=
  decide (c = 0x0D) || (decide (c = 0x0A) && !s.port.afterReturn)

/-- R195: a character received in COLLECTING, without a framing error. -/
def collectChar (c : Byte) (s : State) : State :=
  if endsLine c s then endLine s
  else if c = 0x08 ∨ c = 0x7F then { s with port.buffer := s.port.buffer.dropLast }
  else if 0x20 ≤ c.toNat ∧ c.toNat ≤ 0x7E then storeChar c s
  else s

/-- R195: the end of an over-long line: ERR LONG is sent and the long line counted (log
entry 25). -/
def longLine (s : State) : State :=
  { s with
    port.state := .responding, port.response := some (.err .long)
    port.longLines := s.port.longLines + 1 }

/-- A character in one of the three port states; one with a framing error never ends a line
(log entry 26). -/
def takeChar (c : Byte) (framingError : Bool) (s : State) : State :=
  match s.port.state with
  | .collecting =>
    if framingError then { s with port.garbled := true } else collectChar c s
  | .discarding =>
    if framingError then s else if c = 0x0D ∨ c = 0x0A then longLine s else s
  | .responding => { s with port.discarded := s.port.discarded + 1 }

/-- CHARACTER_RECEIVED (R195). -/
def execCharacterReceived (c : Byte) (framingError : Bool) (s : State) : Result :=
  if s.startup = .reset then noEvent s
  else
    let s1 := takeChar c framingError s
    done { s1 with port.afterReturn := !framingError && decide (c = 0x0D) }

/-- RESPONSE_SENT (R195, R184): the port returns to COLLECTING with an empty buffer; after the OK to
RESTART the reset is due. -/
def execResponseSent (s : State) : Result :=
  if s.port.state = .responding then
    done
      { s with
        port.state := .collecting, port.buffer := [], port.garbled := false, port.response := none
        port.restart := if s.port.restart = .none then .none else .due }
  else noEvent s

/-! ## The command rows -/

/-- STATUS (R197). -/
def execStatus (s : State) : Result := portCommand .status s

/-- CONFIG (R186). -/
def execConfig (s : State) : Result := portCommand .config s

/-- PEERS (R89). -/
def execPeers (s : State) : Result := portCommand .peers s

/-- APPROACH (R114). -/
def execApproach (s : State) : Result := portCommand .approach s

/-- QUEUE n (R156). -/
def execQueue (n : Nat) (s : State) : Result := portCommand (.queue n) s

/-- SPAN (R156). -/
def execSpan (s : State) : Result := portCommand .span s

/-- ALERTS (R194). -/
def execAlerts (s : State) : Result := portCommand .alerts s

/-- CLEAR name (R190). -/
def execClear (x : Option AlertSource) (s : State) : Result := portCommand (.clear x) s

/-- CLEAR ALL (R190). -/
def execClearAll (s : State) : Result := portCommand .clearAll s

/-- COUNTS (R193). -/
def execCounts (s : State) : Result := portCommand .counts s

/-- HEALTH (R179). -/
def execHealth (s : State) : Result := portCommand .health s

/-- HEALTH STEP (R175, R176). -/
def execHealthStep (s : State) : Result := portCommand .healthStep s

/-- TRIM (R166). -/
def execTrim (s : State) : Result := portCommand .trim s

/-- RELEASE n ADMIT (R153). -/
def execReleaseAdmit (n : Nat) (s : State) : Result := portCommand (.releaseAdmit n) s

/-- RELEASE n REMOVE (R154). -/
def execReleaseRemove (n : Nat) (s : State) : Result := portCommand (.releaseRemove n) s

/-- FORGET tag (R155). -/
def execForget (t : Option Tag) (s : State) : Result := portCommand (.forget t) s

/-- LAMP RESET n (R126). -/
def execLampReset (n : Nat) (s : State) : Result := portCommand (.lampReset n) s

/-- STRIP RESTORE id (R178). -/
def execStripRestore (p : Option Strip) (s : State) : Result := portCommand (.stripRestore p) s

/-- RESTART (R184, R197). -/
def execRestart (s : State) : Result := portCommand .restart s

end Sys2Proof.Machine
end

