-- ==== Sys2Proof/Machine/StripEvents.lean ====
section
/-! DEFINITION. The commands of the strip channels, pairing units and assemblers (chapters 1 and 3). -/

namespace Sys2Proof.Machine

/-- R2: one converter sample added to the pulse being gathered. The area is held at its ceiling. -/
def addSample (c : Channel) (x : Sample) : Channel :=
  { c with
    area := min 16777215 (c.area + x.counts)
    clipped := c.clipped || x.fullScale || decide (16777215 < c.area + x.counts) }

/-- R3: a hit report below the minimum area is noise; any other goes to the pairing unit and then to
the health monitor (R5). -/
def reportHit (r : HitReport) (s : State) : State :=
  if r.area < s.cfg.minArea then
    setChannel r.strip { channelOf s r.strip with noise := (channelOf s r.strip).noise + 1 } s
  else monitorHit r.strip r.clipped (deliverHit r s)

/-- R2: the hit report of a pulse that ends now. Its width is the end minus the start, 0 for a pulse
whose rise and fall come at one clock reading (log entry 40). -/
def hitReportOf (p : Strip) (c : Channel) (now : Clock) : HitReport :=
  { strip := p, start := c.start, width := elapsed now c.start, area := c.area, clipped := c.clipped }

/-- SIGNAL_BELOW_TRIGGER (R1, R4): a channel in WAIT goes to ARMED; while it is OFF the signal alone
changes. In PULSE the fall is a PULSE_END. -/
def execSignalBelowTrigger (p : Strip) (s : State) : Result :=
  match (channelOf s p).state with
  | .wait => done (setChannel p { channelOf s p with state := .armed } (setSignal p false s))
  | .off => done (setSignal p false s)
  | .armed | .pulse => noEvent s

/-- PULSE_START (R2): an ARMED channel enters PULSE and records start, zero area and no clip. -/
def execPulseStart (p : Strip) (s : State) : Result :=
  match (channelOf s p).state with
  | .armed =>
    done
      (setChannel p
        { channelOf s p with state := .pulse, start := s.clock, area := 0, clipped := false }
        (setSignal p true s))
  | .off => done (setSignal p true s)
  | .wait | .pulse => noEvent s

/-- PULSE_END (R2, R3): the channel goes to ARMED and forms a hit report. A pulse still in progress
60 s after its start is abandoned (R4), so a later fall ends no pulse. -/
def execPulseEnd (p : Strip) (samples : List Sample) (s : State) : Result :=
  let c := samples.foldl addSample (channelOf s p)
  if (channelOf s p).state = .pulse ∧ elapsed s.clock c.start ≤ 60000000 then
    done
      (reportHit (hitReportOf p c s.clock)
        (setChannel p { c with state := .armed } (setSignal p false s)))
  else noEvent s

/-- STUCK_REPORT (R4, R171): the pulse is abandoned, the channel goes to WAIT, and the stuck report is
a hard event with cause STUCK. -/
def execStuckReport (p : Strip) (s : State) : Result :=
  if (channelOf s p).state = .pulse ∧ 60000000 ≤ elapsed s.clock (channelOf s p).start then
    done (hardEvent p .stuck (setChannel p { channelOf s p with state := .wait } s))
  else noEvent s

/-- COINCIDENCE_TIMER_EXPIRY (R6): the held hit leaves its hold unmerged. -/
def execCoincidenceTimerExpiry (l : Lane) (p : Pos) (s : State) : Result :=
  match holdOf s l p with
  | some x => if atOrAfter s.clock x.expires then done (releaseHold l p s) else noEvent s
  | none => noEvent s

/-- LEAD_EXPIRY (R12): a pending lead whose expiry time is reached leaves the FIFO, wherever it
stands, and becomes an UNPAIRED axle. -/
def execLeadExpiry (l : Lane) (index : Nat) (s : State) : Result :=
  match (s.pairing.at l).fifo[index]? with
  | some x =>
    if atOrAfter s.clock x.expiry then
      done (expireLead l x (setFifo l ((s.pairing.at l).fifo.eraseIdx index) s))
    else noEvent s
  | none => noEvent s

/-- CLOSE_TIMER_EXPIRY (R40): the open vehicle closes; a waiting trim is applied if the lane is then
quiet (R163). -/
def execCloseTimerExpiry (l : Lane) (s : State) : Result :=
  match s.vehicles.at l with
  | some v =>
    if atOrAfter s.clock v.closeAt then done (applyTrim l (closeVehicle l false s)) else noEvent s
  | none => noEvent s

end Sys2Proof.Machine
end

