-- ==== Sys2Proof/Machine/Dispatch.lean ====
section
/-! DEFINITION. One arm per command: `exec` sends each command to its meaning. -/

namespace Sys2Proof.Machine

/-- The effect of a command on everything but the queue of waiting commands. -/
def exec (i : Instr) (s : State) : Host.Outcome State Fault Refusal :=
  match i with
  | .signalBelowTrigger strip => Sys2Proof.Machine.execSignalBelowTrigger strip s
  | .pulseStart strip => Sys2Proof.Machine.execPulseStart strip s
  | .pulseEnd strip samples => Sys2Proof.Machine.execPulseEnd strip samples s
  | .stuckReport strip => Sys2Proof.Machine.execStuckReport strip s
  | .coincidenceTimerExpiry lane pos => Sys2Proof.Machine.execCoincidenceTimerExpiry lane pos s
  | .leadExpiry lane index => Sys2Proof.Machine.execLeadExpiry lane index s
  | .closeTimerExpiry lane => Sys2Proof.Machine.execCloseTimerExpiry lane s
  | .contentionIdleReached => Sys2Proof.Machine.execContentionIdleReached s
  | .collision => Sys2Proof.Machine.execCollision s
  | .attemptEnd => Sys2Proof.Machine.execAttemptEnd s
  | .receiptWaitExpiry => Sys2Proof.Machine.execReceiptWaitExpiry s
  | .badFrame found => Sys2Proof.Machine.execBadFrame found s
  | .frameReceived bytes => Sys2Proof.Machine.execFrameReceived bytes s
  | .receiptStart => Sys2Proof.Machine.execReceiptStart s
  | .receiptAbandoned => Sys2Proof.Machine.execReceiptAbandoned s
  | .noticeHandlingComplete => Sys2Proof.Machine.execNoticeHandlingComplete s
  | .windowCloseExpiry tag => Sys2Proof.Machine.execWindowCloseExpiry tag s
  | .joinTimerExpiry => Sys2Proof.Machine.execJoinTimerExpiry s
  | .beaconTimerExpiry => Sys2Proof.Machine.execBeaconTimerExpiry s
  | .silenceTimerExpiry peer => Sys2Proof.Machine.execSilenceTimerExpiry peer s
  | .probeSampleTimer => Sys2Proof.Machine.execProbeSampleTimer s
  | .probeAnswer reading checkMatches => Sys2Proof.Machine.execProbeAnswer reading checkMatches s
  | .probeAnswerTimeout => Sys2Proof.Machine.execProbeAnswerTimeout s
  | .holdTimerExpiry => Sys2Proof.Machine.execHoldTimerExpiry s
  | .signTimerExpiry lane => Sys2Proof.Machine.execSignTimerExpiry lane s
  | .blinkPhaseToggle lane => Sys2Proof.Machine.execBlinkPhaseToggle lane s
  | .overcurrent output => Sys2Proof.Machine.execOvercurrent output s
  | .currentBelowThreshold output => Sys2Proof.Machine.execCurrentBelowThreshold output s
  | .blankingEnd output low => Sys2Proof.Machine.execBlankingEnd output low s
  | .openTimerExpiry output => Sys2Proof.Machine.execOpenTimerExpiry output s
  | .provingTimerExpiry lane => Sys2Proof.Machine.execProvingTimerExpiry lane s
  | .presenceInputChange lane occupied => Sys2Proof.Machine.execPresenceInputChange lane occupied s
  | .presenceSettled lane => Sys2Proof.Machine.execPresenceSettled lane s
  | .amberTimerExpiry lane => Sys2Proof.Machine.execAmberTimerExpiry lane s
  | .recoveryTimerExpiry => Sys2Proof.Machine.execRecoveryTimerExpiry s
  | .spanDeadline tag => Sys2Proof.Machine.execSpanDeadline tag s
  | .minuteTimerExpiry => Sys2Proof.Machine.execMinuteTimerExpiry s
  | .powerOn torn => Sys2Proof.Machine.execPowerOn torn s
  | .supplyDip torn => Sys2Proof.Machine.execSupplyDip torn s
  | .resetLine torn => Sys2Proof.Machine.execResetLine torn s
  | .restartReset torn => Sys2Proof.Machine.execRestartReset torn s
  | .resetEnd => Sys2Proof.Machine.execResetEnd s
  | .loadReadComplete bytes => Sys2Proof.Machine.execLoadReadComplete bytes s
  | .loadReadTimeout answered => Sys2Proof.Machine.execLoadReadTimeout answered s
  | .characterReceived char framingError => Sys2Proof.Machine.execCharacterReceived char framingError s
  | .responseSent => Sys2Proof.Machine.execResponseSent s
  | .status => Sys2Proof.Machine.execStatus s
  | .config => Sys2Proof.Machine.execConfig s
  | .peers => Sys2Proof.Machine.execPeers s
  | .approach => Sys2Proof.Machine.execApproach s
  | .queue lane => Sys2Proof.Machine.execQueue lane s
  | .span => Sys2Proof.Machine.execSpan s
  | .alerts => Sys2Proof.Machine.execAlerts s
  | .clear source => Sys2Proof.Machine.execClear source s
  | .clearAll => Sys2Proof.Machine.execClearAll s
  | .counts => Sys2Proof.Machine.execCounts s
  | .health => Sys2Proof.Machine.execHealth s
  | .healthStep => Sys2Proof.Machine.execHealthStep s
  | .trim => Sys2Proof.Machine.execTrim s
  | .releaseAdmit lane => Sys2Proof.Machine.execReleaseAdmit lane s
  | .releaseRemove lane => Sys2Proof.Machine.execReleaseRemove lane s
  | .forget tag => Sys2Proof.Machine.execForget tag s
  | .lampReset lane => Sys2Proof.Machine.execLampReset lane s
  | .stripRestore strip => Sys2Proof.Machine.execStripRestore strip s
  | .restart => Sys2Proof.Machine.execRestart s
  | .lineGoesBusy => Sys2Proof.Machine.execLineGoesBusy s
  | .receiptEnd => Sys2Proof.Machine.execReceiptEnd s
  | .currentRisesToThreshold output => Sys2Proof.Machine.execCurrentRisesToThreshold output s

end Sys2Proof.Machine
end

