-- ==== Sys2Proof/Safety.lean ====
section
/-! DEFINITION. The terms claims are stated in: what a step leaves unchanged, what every event brings
about at once, the sizes the collections keep to, and the ranges frames and trims keep to. -/

namespace Sys2Proof.Machine

/-! ## Frames -/

/-- The parts of the state, one per field of `State`. -/
inductive Block where
  | pending | clock | startup | pendingCause | restartHold | loader | cfg | store | inputs
  | channels | pairing | probe | vehicles | nextSerial | line | peers | approach | signs | lamps
  | entry | trim | health | alerts | counters | port
  deriving DecidableEq, Repr

/-- A part is the same in two states. -/
def same (s t : State) : Block → Prop
  | .pending => t.pending = s.pending
  | .clock => t.clock = s.clock
  | .startup => t.startup = s.startup
  | .pendingCause => t.pendingCause = s.pendingCause
  | .restartHold => t.restartHold = s.restartHold
  | .loader => t.loader = s.loader
  | .cfg => t.cfg = s.cfg
  | .store => t.store = s.store
  | .inputs => t.inputs = s.inputs
  | .channels => t.channels = s.channels
  | .pairing => t.pairing = s.pairing
  | .probe => t.probe = s.probe
  | .vehicles => t.vehicles = s.vehicles
  | .nextSerial => t.nextSerial = s.nextSerial
  | .line => t.line = s.line
  | .peers => t.peers = s.peers
  | .approach => t.approach = s.approach
  | .signs => t.signs = s.signs
  | .lamps => t.lamps = s.lamps
  | .entry => t.entry = s.entry
  | .trim => t.trim = s.trim
  | .health => t.health = s.health
  | .alerts => t.alerts = s.alerts
  | .counters => t.counters = s.counters
  | .port => t.port = s.port

/-- Every part of the state outside a list is unchanged. -/
def changesOnly (l : List Block) (s t : State) : Prop := ∀ b, b ∉ l → same s t b

/-- What two tables hold is the same everywhere but at one place. -/
def sameBut {α : Type} {n : Nat} (i : Fin n) (a b : Tab α n) : Prop :=
  ∀ k, k ≠ i → b.at k = a.at k

/-- The entry controller but for aspects and amber timers. -/
def bareEntry (e : EntryController) : EntryController :=
  { e with lanes := Tab.make 4 fun l => { e.lanes.at l with aspect := none, amber := none } }

/-- The lamp unit but for what the outputs show: demand, state, blanking time, current and open timer
are left out; assignment, enable, latch and proving timers are kept. -/
def bareLamps (u : LampUnit) : LampUnit :=
  { u with outputs := Tab.make 12 fun o =>
      { u.outputs.at o with
        demand := false, on := false, blanking := none, low := false, openTimer := none } }

/-- The signs but for their blink phases. -/
def bareSigns (x : Tab Sign 4) : Tab Sign 4 := Tab.make 4 fun l => { x.at l with blink := none }

/-- Of signs, aspects, lamps and alert sources only what follows other state (R118, R122, R140, R141,
R188, R191) may differ: queues, heads, the span set, sign timers, assignments, enables, latches,
proving timers and event sources are the same. -/
def followsOnly (s t : State) : Prop :=
  bareEntry t.entry = bareEntry s.entry ∧ bareLamps t.lamps = bareLamps s.lamps ∧
    bareSigns t.signs = bareSigns s.signs ∧
      ∀ x, isCondition x = false → alertOf t x = alertOf s x

/-! ## What several commands do alike -/

/-- R65: the line once the frame in flight is gone: the front waiting frame is in flight at a RUNNING
station, and with none waiting, or elsewhere, the transmit state is IDLE. -/
def lineFreed (s : State) : Line :=
  match s.line.queue with
  | w :: ws =>
    if s.startup = .running then
      { s.line with
        queue := ws, transmit := .contending, nextSequence := s.line.nextSequence + 1
        flight :=
          some { notice := w.notice, sequence := s.line.nextSequence, attempts := 0
                 collisions := 0, receiptFrom := none, bytes := [] } }
    else { s.line with transmit := .idle, flight := none }
  | [] => { s.line with transmit := .idle, flight := none }

/-- R18, R37: an axle is counted and opens a vehicle in a lane that has none, and its close timer runs
T_max. -/
def opensVehicle (l : Lane) (a : Axle) (s t : State) : Prop :=
  t.vehicles.at l =
      some { axles := [a], spacings := [], continuation := false
             closeAt := later s.clock (s.cfg.tMax * 1000) } ∧
    sameBut l s.vehicles t.vehicles ∧
    t.counters.lanes.at l = { s.counters.lanes.at l with axles := (s.counters.lanes.at l).axles + 1 } ∧
    sameBut l s.counters.lanes t.counters.lanes

/-- R14, R22, R32, R33: an axle weighed from one strip at its lane's assumed speed, or UNWEIGHED
without speed and load where the lane has none. -/
def fromOneStrip (s : State) (p : Strip) (area : Nat) (a : Axle) : Prop :=
  a.lane = p.lane ∧ a.speed = assumedSpeed s p.lane ∧
    a.load = (assumedSpeed s p.lane).map (fun v => (stripLoad s p area v).1) ∧
    a.flags.unweighed = (assumedSpeed s p.lane).isNone

/-- R173: the record of a strip after a soft event: the flag with, in LISTEN, the time; a flag already
set gives the soft overflow. -/
def softened (s : State) (h : StripHealth) : StripHealth :=
  { h with
    soft := true
    softTime :=
      if h.soft = true then h.softTime
      else if s.health.state = .listen then some s.clock else none
    softOverflow := h.softOverflow || h.soft }

/-- R172: the record of a strip after a hard event: FAILED, the flag with its cause and, in LISTEN, the
time; a flag already set keeps both and gives the hard overflow. -/
def hardened (s : State) (cause : HardCause) (h : StripHealth) : StripHealth :=
  { h with
    failed := true
    hard := some (h.hard.getD cause)
    hardTime :=
      if h.hard.isSome = true then h.hardTime
      else if s.health.state = .listen then some s.clock else none
    hardOverflow := h.hardOverflow || h.hard.isSome }

/-- R168, R170: what the monitor holds of a strip after one of its hit reports: the silence run is 0,
and the clip run 0 or, after a clipped report, one more with a soft event; the 8th clipped report in a
row is a hard event with cause CLIPPED, and the run is 0. -/
def afterReport (s : State) (clipped : Bool) (h : StripHealth) : StripHealth :=
  if clipped = false then { h with silenceRun := 0, clipRun := 0 }
  else if h.clipRun < 7 then softened s { h with silenceRun := 0, clipRun := h.clipRun + 1 }
  else hardened s .clipped (softened s { h with silenceRun := 0, clipRun := 0 })

/-- R168, R169: what the monitor holds of a strip after an unpaired hit blamed on it: a soft event, and
the silence run advances; the 16th in a row is a hard event with cause SILENT, and the run is 0. -/
def afterBlame (s : State) (h : StripHealth) : StripHealth :=
  if h.silenceRun < 15 then softened s { h with silenceRun := h.silenceRun + 1 }
  else hardened s .silent (softened s { h with silenceRun := 0 })

/-- R174: the mode of a strip's lane if that strip is FAILED or not and the other strip stands as it
does. -/
def modeWith (s : State) (p : Strip) (failed : Bool) : LaneMode :=
  let other := stripFailed s ⟨p.lane, if p.pos = .lead then .trail else .lead⟩
  if failed = true ∧ other = true then .blind
  else if failed = true ∨ other = true then .single
  else .dual

/-- R168, R169, R172 to R174: a strip is blamed for an unpaired hit, and its lane's mode follows. -/
def blamed (p : Strip) (s t : State) : Prop :=
  healthOf t p = afterBlame s (healthOf s p) ∧
    laneMode t p.lane = modeWith s p (afterBlame s (healthOf s p)).failed ∧
    (∀ q, q ≠ p → healthOf t q = healthOf s q) ∧ t.health.state = s.health.state ∧
    t.health.walk = s.health.walk

/-- R132 to R134: the head state a record is evaluated to: free, STOP, ADMITTED or HELD from now. -/
def headFor (s : State) (r : Record) : HeadState :=
  if r.heavy = false then .free
  else if r.effVerdict = .over ∨ r.directed = true then .stop
  else if fits s (admissionWeight s r) = true ∧ s.entry.held = [] then
    .admitted (admissionWeight s r)
  else .held (admissionWeight s r) s.clock

/-- R145: the weight at which the head of a lane enters the deck: its admission weight if it is ADMITTED,
otherwise the padded weight, or for an UNWEIGHED verdict the larger of that and the gross limit. -/
def deckWeight (s : State) (l : Lane) (r : Record) : Nat :=
  let p := r.effGross + (r.effGross * s.cfg.padding + 99) / 100
  match (stopLine s l).head with
  | .admitted a => a
  | _ => if r.effVerdict = .unweighed then max s.cfg.grossLimit p else p

/-- R143 to R146, R148: the station once the head `r` of lane `l`, with the tag `g` if it is heavy, has
crossed and its presence state has become UNOCCUPIED, before the record behind it is evaluated. A light
head is counted. An ADMITTED head joins the span set; a HELD or STOP head leaves the held set, and joins
the span set where there is room, or the accounting is lost (R137). After an ADMITTED or a HELD head the
arbiter has run (R138, R144; log entry 16). -/
def afterCrossing (l : Lane) (r : Record) (g : Tag) (behind : List Record) (s : State) : State :=
  let x := stopLine s l
  let gone := setStopLine l
    { x with queue := behind, head := .none, occupied := false, settle := none } s
  let deadline := later s.clock (s.cfg.transit * 1000000)
  let unflagged : SpanEntry :=
    { tag := g, lane := l, weight := deckWeight s l r, entered := s.clock, deadline := deadline
      overdue := false, redRun := false, uncontrolled := false, unseen := false
      noncompliant := false }
  let unadmitted (stop : Bool) : State :=
    { gone with
      entry :=
        if s.entry.span.length + admittedHeads s < 24 then
          { gone.entry with
            held := s.entry.held.filter (fun k => decide (k ≠ l))
            span := s.entry.span ++
              [{ unflagged with
                redRun := decide (x.aspect = some .red)
                uncontrolled := decide (x.aspect = some .dark), noncompliant := stop }] }
        else
          { gone.entry with
            held := s.entry.held.filter (fun k => decide (k ≠ l)), lost := true
            recovery := some deadline } }
  match x.head with
  | .free => { gone with entry.lightCrossed := s.entry.lightCrossed + 1 }
  | .admitted _ => runArbiter { gone with entry.span := s.entry.span ++ [unflagged] }
  | .held _ _ => runArbiter (unadmitted false)
  | .stop => unadmitted true
  | .none => gone

/-- R138: the held set once a lane is held from the present reading on: behind every lane held before, of
lanes held from that same reading on behind the lower ones. -/
def heldWith (l : Lane) (s : State) : List Lane :=
  let before (k : Lane) : Bool := !decide (holdTime s k = some s.clock ∧ l.val < k.val)
  s.entry.held.takeWhile before ++ l :: s.entry.held.dropWhile before

/-- R132 to R134: from a station `s` a command has led to `u`, in which no head stands at lane `l`, and
then evaluated the record now at the front of that lane, if there is one. A STOP head is counted as
stopped and raises NONCOMPLIANT or OVER_UNDIRECTED; a HELD one joins the held set. But for the shown
aspects, which follow, nothing else of the entry controller differs from `u`. -/
def headEvaluated (l : Lane) (s u t : State) : Prop :=
  let next := (stopLine u l).queue.head?
  let h := next.elim .none (headFor u)
  let bare (x : StopLine) : StopLine := { x with aspect := none, amber := none }
  bare (stopLine t l) = bare { stopLine u l with head := h } ∧
    (∀ k, k ≠ l → bare (stopLine t k) = bare (stopLine u k) ∧
      ((stopLine u k).head = (stopLine s k).head → stopLine t k = stopLine s k)) ∧
    t.entry = { u.entry with lanes := t.entry.lanes, held := t.entry.held } ∧
    t.entry.held = (match h with
      | .held _ _ => heldWith l u
      | _ => u.entry.held) ∧
    (∀ y ∈ [AlertSource.noncompliant, .overUndirected],
      alertOf t y =
        if h = .stop ∧ (y = .noncompliant ↔ next.any Record.directed = true) then
          { alertOf s y with sticky := true, count := (alertOf s y).count + 1 }
        else alertOf s y) ∧
    (t.counters.lanes.at l).stopped =
      (s.counters.lanes.at l).stopped + (if h = .stop then 1 else 0) ∧
    sameBut l s.counters.lanes t.counters.lanes ∧ bareLamps t.lamps = bareLamps s.lamps

/-- R61, R65: the line once notices have joined it that stand behind every waiting frame and repeat
none. At a RUNNING station in IDLE the front frame is taken into flight at once. -/
def lineTakes (notices : List Notice) (s : State) : Line :=
  let joined : State :=
    { s with line.queue :=
        s.line.queue ++ notices.map fun n => { notice := n, queued := s.clock } }
  if s.startup = .running ∧ s.line.transmit = .idle then lineFreed joined else joined.line

/-- R52, R53: what the closing of a vehicle of lane `l` has brought about, from the station `s`, in the
sign driver and the entry controller: what `j` holds of them; shown aspects and blink phases follow. A
station without the role keeps its part as it was. -/
def handedOn (l : Lane) (s j t : State) : Prop :=
  bareSigns t.signs = bareSigns j.signs ∧ bareEntry t.entry = bareEntry j.entry ∧
    bareLamps t.lamps = bareLamps s.lamps ∧
    t.counters = { s.counters with lanes := t.counters.lanes } ∧
    sameBut l s.counters.lanes t.counters.lanes ∧
    (s.cfg.divert = false → t.signs = s.signs) ∧
    (s.cfg.entry = false → t.entry = s.entry) ∧
    (s.cfg.divert = false → s.cfg.entry = false → t.lamps = s.lamps)

/-- R138, R149: the entry controller once the peer table has become that of `t`: a change of posture runs
the arbiter, and then the accounting mode is judged (log entry 17). -/
def entryFollowsPeers (s t : State) : Prop :=
  let u : State := { s with peers := t.peers }
  bareEntry t.entry =
      bareEntry (judgeMode (if t.peers.posture = s.peers.posture then u else runArbiter u)).entry ∧
    bareLamps t.lamps = bareLamps s.lamps

/-- The port once a line is taken and answered (R196). -/
def answered (s : State) (r : Response) : Port :=
  { s.port with
    state := .responding, buffer := [], garbled := false, response := some r
    linesTaken := s.port.linesTaken + 1 }

/-! ## Typed lines (R196) -/

/-- R196: the words of a line: what stands between its spaces, in capitals. -/
def wordsTyped (line : List Byte) : List (List Byte) :=
  ((line.splitOn 0x20).filter fun w => !w.isEmpty).map fun w =>
    w.map fun b => if 0x61 ≤ b.toNat ∧ b.toNat ≤ 0x7A then byte (b.toNat - 32) else b

/-- R196: a word is a lane number, a single digit 1..4; any other word stands for lane 0, which no
station serves (log entry 33). -/
def laneTyped (w : List Byte) (n : Nat) : Prop :=
  let named (m : Nat) : Prop := w = ascii (Nat.repr m)
  (n ∈ [1, 2, 3, 4] ∧ named n) ∨ (n = 0 ∧ ∀ m ∈ [1, 2, 3, 4], ¬named m)

/-- R153 to R156, R178, R190, R196, R197: the words that spell a command. A source, tag or strip that is
not in its form is absent. -/
def typedAs (said : List (List Byte)) : Instr → Prop
  | .status => said = [ascii "STATUS"]
  | .config => said = [ascii "CONFIG"]
  | .peers => said = [ascii "PEERS"]
  | .approach => said = [ascii "APPROACH"]
  | .span => said = [ascii "SPAN"]
  | .alerts => said = [ascii "ALERTS"]
  | .counts => said = [ascii "COUNTS"]
  | .health => said = [ascii "HEALTH"]
  | .healthStep => said = [ascii "HEALTH", ascii "STEP"]
  | .trim => said = [ascii "TRIM"]
  | .restart => said = [ascii "RESTART"]
  | .clearAll => said = [ascii "CLEAR", ascii "ALL"]
  | .clear x => ∃ w, said = [ascii "CLEAR", w] ∧ w ≠ ascii "ALL" ∧
      ∀ y, x = some y ↔ w = ascii (alertName y)
  | .queue n => ∃ w, said = [ascii "QUEUE", w] ∧ laneTyped w n
  | .releaseAdmit n => ∃ w, said = [ascii "RELEASE", w, ascii "ADMIT"] ∧ laneTyped w n
  | .releaseRemove n => ∃ w, said = [ascii "RELEASE", w, ascii "REMOVE"] ∧ laneTyped w n
  | .lampReset n => ∃ w, said = [ascii "LAMP", ascii "RESET", w] ∧ laneTyped w n
  | .forget x => ∃ w, said = [ascii "FORGET", w] ∧ ∀ g, x = some g ↔ w = ascii (tagName g)
  | .stripRestore x => ∃ w, said = [ascii "STRIP", ascii "RESTORE", w] ∧
      ∀ p, x = some p ↔ w = ascii (stripName p)
  | _ => False

/-- R186, R196, section 12.6: the command words, with the role each needs and the start-up states before
JOINING in which it is accepted. -/
def commandWords : List (List String × RoleNeeded × Early) :=
  [(["STATUS"], .any, .always), (["RESTART"], .any, .always), (["CONFIG"], .any, .inFault)] ++
    ([["PEERS"], ["APPROACH"], ["ALERTS"], ["CLEAR"], ["COUNTS"], ["HEALTH"], ["TRIM"],
        ["STRIP", "RESTORE"]].map fun w => (w, .any, .never)) ++
    ([["QUEUE"], ["SPAN"], ["RELEASE"], ["FORGET"]].map fun w => (w, .entry, .never)) ++
    [(["LAMP", "RESET"], .lamps, .never)]

/-- R186, R196: how a line that begins with a command word, but has a word too many or too few or a
wrong keyword, is refused. -/
def wrongAnswer (s : State) (role : RoleNeeded) (early : Early) : ErrorCode :=
  let accepted := working s = true ∨ early = .always ∨ (early = .inFault ∧ s.startup = .fault)
  let serves := match role with
    | .any => true
    | .entry => s.cfg.entry
    | .lamps => s.cfg.divert || s.cfg.entry
  if accepted ∧ serves = true then .badArg else .state

/-! ## What follows every event at once -/

/-- R118, R119: a sign has a blink phase exactly while it is requested. -/
def signsFollow (s : State) : Bool :=
  allLanes.all fun l => decide ((s.signs.at l).blink.isSome = signRequested s l)

/-- R141: what a lane may show while an aspect is wanted; the amber timer runs exactly in AMBER. -/
def shows (wanted : Aspect) (x : StopLine) : Bool :=
  match x.aspect with
  | some .amber => decide (wanted = .red) && x.amber.isSome
  | some a => decide (a = wanted) && x.amber.isNone
  | none => false

/-- R140, R141: every lane the entry controller works on shows what is wanted of it; no other lane
has an aspect or an amber timer. -/
def aspectsFollow (s : State) : Bool :=
  allLanes.all fun l =>
    if laneActs s l then shows (wantedAspect s l) (stopLine s l)
    else (stopLine s l).aspect.isNone && (stopLine s l).amber.isNone

/-- R122, R124: an output takes its demand and is on exactly while it is driven; an output that is
off has neither a blanking time nor an open timer. -/
def outputFollows (s : State) (x : LampOutput) : Bool :=
  decide (x.demand = demandOf s x.assignment) && decide (x.on = isDriven s x x.demand) &&
    (x.on || (x.blanking.isNone && x.openTimer.isNone))

/-- R122: every output follows. -/
def lampsFollow (s : State) : Bool := allOutputs.all fun o => outputFollows s (outputOf s o)

/-- R187, R188: the remembered raw of a condition source is its raw state, and a LEVEL source whose
raw state is true has its sticky set. -/
def sourceTaken (s : State) (x : AlertSource) : Bool :=
  decide ((alertOf s x).remembered = rawState s x) &&
    (!(decide (triggerOf s x = .level) && rawState s x) || (alertOf s x).sticky)

/-- R187, R188: in JOINING and RUNNING every condition source has been taken; in RESET, LOADING and
FAULT the alert unit holds no source state. -/
def alertsTaken (s : State) : Bool :=
  if working s then conditionSources.all (sourceTaken s)
  else decide (s.alerts.sources = AlertUnit.afterReset.sources)

/-- R191: both alert lines are as they must be. -/
def alertLinesFollow (s : State) : Bool :=
  decide (s.alerts.lineA = lineWanted s AlertConfig.mapA) &&
    decide (s.alerts.lineB = lineWanted s AlertConfig.mapB)

/-- Signs, aspects, lamps, alert sources and alert lines all stand as the rest of the state asks. It
holds after reset and after every step. -/
def settled (s : State) : Bool :=
  signsFollow s && aspectsFollow s && lampsFollow s && alertsTaken s && alertLinesFollow s

/-! ## Channels -/

/-- R1: a channel is OFF outside JOINING and RUNNING, and beyond the lane count. -/
def channelsOff (s : State) : Bool :=
  allStrips.all fun p =>
    (working s && laneInUse s p.lane) || decide ((channelOf s p).state = .off)

/-! ## Sizes and ranges -/

/-- The sizes of the lane collections: FIFO 6 (R10), speed history 4 (R13), open vehicle 1..12 axles
with one spacing fewer (R37, R42), stop-line queue 8 (R131), trim window below 16 (R162). -/
def laneBounds (s : State) (l : Lane) : Bool :=
  decide ((s.pairing.at l).fifo.length ≤ 6) && decide ((s.pairing.at l).history.length ≤ 4) &&
    (match s.vehicles.at l with
      | none => true
      | some v => decide (1 ≤ v.axles.length) && decide (v.axles.length ≤ 12) &&
          decide (v.spacings.length + 1 = v.axles.length)) &&
    decide ((stopLine s l).queue.length ≤ 8) && decide ((s.trim.at l).window.length < 16)

/-- Every collection keeps to its largest size: those of the lanes, outbound queue 8 (R61), receive
slots 2 (R74), approach list 48 (R98), span set 24 with room kept for every ADMITTED head (R134),
line buffer 64 (R195). -/
def bounded (s : State) : Bool :=
  allLanes.all (laneBounds s) && decide (s.line.queue.length ≤ 8) &&
    decide (s.line.slots.length ≤ 2) && decide (s.approach.entries.length ≤ 48) &&
    decide (s.entry.span.length + admittedHeads s ≤ 24) && decide (s.port.buffer.length ≤ 64)

/-- R165: a trim is in 3,686..4,506. -/
def trimInRange (t : Nat) : Bool := decide (3686 ≤ t) && decide (t ≤ 4506)

/-- R165: every active trim, and every trim waiting to become one, is in range. -/
def trimsInRange (s : State) : Bool :=
  allLanes.all fun l =>
    trimInRange (s.store.trims.at l) && ((s.trim.at l).pending.all trimInRange)

/-- R61, R62: the outbound queue is ordered by class and holds no two frames of one kind and tag. -/
def queueOrdered (q : List Waiting) : Prop :=
  q.Pairwise fun a b => a.notice.class_ ≤ b.notice.class_ ∧ sameNotice a.notice b.notice = false

/-- Section 8.1: an empty queue has no head state, a head has one, and the held set names each lane
with a HELD head once and no other. -/
def headsRight (s : State) : Prop :=
  (∀ l, (stopLine s l).queue = [] ↔ (stopLine s l).head = .none) ∧
    (∀ l, l ∈ s.entry.held ↔ (holdTime s l).isSome = true) ∧ s.entry.held.Nodup

/-- R87: outside RUNNING the posture is JOINING; in RUNNING it is what the rows give: NORMAL exactly
when every expected row is PRESENT and no PRESENT row is degraded, ISOLATED exactly when some row is
expected and no expected row is PRESENT, and GUARDED in every other case. -/
def postureRight (s : State) : Prop :=
  let present (k : Station) := (s.peers.rows.at k).state = .present
  let expected (k : Station) := (s.peers.rows.at k).expected = true
  let degraded := ∃ k h, present k ∧ (s.peers.rows.at k).heard = some h ∧
    (h.body.entryDegraded = true ∨ h.body.signDegraded = true)
  let normal := (∀ k, expected k → present k) ∧ ¬degraded
  let isolated := (∃ k, expected k) ∧ ∀ k, expected k → ¬present k
  (s.startup ≠ .running → s.peers.posture = .joining) ∧
    (s.startup = .running →
      (s.peers.posture = .normal ↔ normal) ∧ (s.peers.posture = .isolated ↔ isolated) ∧
        (s.peers.posture = .guarded ↔ ¬normal ∧ ¬isolated))

/-! ## Frames of the corridor line -/

/-- The ranges of section 4.2 for a weighing body and its age. -/
def weighingInRange (b : WeighingBody) (age : Nat) : Bool :=
  decide (1 ≤ b.loads.length) && decide (b.loads.length ≤ 12) &&
    decide (b.partner ≠ some b.lane) &&
    (decide (b.speed = 0) || (decide (50 ≤ b.speed) && decide (b.speed ≤ 4000))) &&
    decide (b.ownGross ≤ 72000) && decide (b.effGross ≤ 72000) &&
    (b.spacings.all fun l => decide (l.length + 1 = b.loads.length)) &&
    (b.loads.all fun x => x.all fun n => decide (n ≤ 6000)) && decide (age < 65536)

/-- The ranges of section 4.2 for a beacon body. -/
def beaconInRange (b : BeaconBody) : Bool :=
  !(b.divert && b.entry) && decide (b.chainage < 65536) && decide (1 ≤ b.laneCount) &&
    decide (b.laneCount ≤ 4)

/-- R71 step 1, section 4.2: a well framed frame fails a format check: its kind code is unknown, its
sender or receipt-from is out of range, its body has not the length of its kind, or a body field lies
outside the range or the codes its table gives. -/
def formatFails (r : RawFrame) : Prop :=
  let kind := r.kind.toNat
  let length := r.body.length
  let at_ (i : Nat) := (r.body.getD i 0).toNat
  let two (i : Nat) := at_ i * 256 + at_ (i + 1)
  let three (i : Nat) := two i * 256 + at_ (i + 2)
  let badTag := at_ 0 / 16 < 1 ∨ 8 < at_ 0 / 16
  kind ∉ [0x01, 0x11, 0x12, 0x21, 0x22, 0x31] ∨
    r.sender.toNat < 1 ∨ 8 < r.sender.toNat ∨ 8 < r.receiptFrom.toNat ∨
    ((kind = 0x01 ∨ kind = 0x31) ∧ r.receiptFrom ≠ 0) ∨
    (kind = 0x01 ∧ length ≠ 3) ∨
    (kind = 0x11 ∧ (length ≠ 11 ∨ badTag ∨ at_ 2 < 1 ∨ 4 < at_ 2 ∨ 72000 < three 6)) ∨
    (kind = 0x12 ∧ (length ≠ 4 ∨ badTag)) ∨
    (kind = 0x31 ∧
      (length ≠ 9 ∨ 3 < at_ 1 ∨ at_ 2 % 4 = 3 ∨ at_ 5 < 1 ∨ 4 < at_ 5 ∨ 3 < at_ 7)) ∨
    ((kind = 0x21 ∨ kind = 0x22) ∧
      (length ≠ 16 + 3 * at_ 7 ∨ at_ 7 < 1 ∨ 12 < at_ 7 ∨ badTag ∨
        at_ 2 % 8 < 1 ∨ 4 < at_ 2 % 8 ∨ 4 < at_ 2 / 16 % 8 ∨ at_ 2 / 16 % 8 = at_ 2 % 8 ∨
        (two 5 ≠ 0 ∧ (two 5 < 50 ∨ 4000 < two 5)) ∨ 72000 < three 9 ∨ 72000 < three 13 ∨
        ∃ i, i < at_ 7 ∧ 6000 < two (16 + at_ 7 + 2 * i) ∧ two (16 + at_ 7 + 2 * i) ≠ 65535))

/-- A frame whose every field is in the range section 4.2 gives it; RECEIPT and BEACON ask for no
receipt. -/
def frameInRange (f : Frame) : Bool :=
  match f.body with
  | .receipt .. => f.receiptFrom.isNone
  | .entered _ _ w g age => decide (w < 16777216) && decide (g ≤ 72000) && decide (age < 65536)
  | .left _ age => decide (age < 65536)
  | .vehicle b age => weighingInRange b age
  | .sighting b age => weighingInRange b age
  | .beacon b => f.receiptFrom.isNone && beaconInRange b

end Sys2Proof.Machine
end

