-- ==== Sys2Proof/WellFormed.lean ====
section
/-! DEFINITION. Which commands are well formed: the operands are such as the event or the typed line
can have by the manual. The machine takes ill-formed ones too: a lane, tag, strip or name that is not
in its form is answered ERR BADARG, and an event that cannot happen changes nothing. -/

namespace Sys2Proof

/-- A lane number as a line gives it: a digit 1..4 (R196). -/
def isLaneNumber (n : Nat) : Bool := decide (1 ≤ n) && decide (n ≤ 4)

/-- The bytes of a frame are well framed: start byte, length and CRC agree, and the frame ends with
its last CRC byte (R56). -/
def isFrame (bytes : List Byte) : Bool :=
  match Machine.readFrame bytes with
  | .ok raw =>
    decide ((bytes.dropWhile fun b => decide (b = 0x55)).length = raw.body.length + 8)
  | .error _ => false

/-- A command is well formed. -/
def wellFormed : Instr → Bool
  | .signalBelowTrigger _ => true
  | .pulseStart _ => true
  | .pulseEnd _ _ => true
  | .stuckReport _ => true
  | .coincidenceTimerExpiry _ _ => true
  /- R10: a FIFO holds at most 6 leads -/
  | .leadExpiry _ index => decide (index < 6)
  | .closeTimerExpiry _ => true
  | .contentionIdleReached => true
  | .collision => true
  | .attemptEnd => true
  | .receiptWaitExpiry => true
  | .badFrame _ => true
  | .frameReceived bytes => isFrame bytes
  | .receiptStart => true
  | .receiptAbandoned => true
  | .noticeHandlingComplete => true
  | .windowCloseExpiry _ => true
  | .joinTimerExpiry => true
  | .beaconTimerExpiry => true
  | .silenceTimerExpiry _ => true
  | .probeSampleTimer => true
  | .probeAnswer _ _ => true
  | .probeAnswerTimeout => true
  | .holdTimerExpiry => true
  | .signTimerExpiry _ => true
  | .blinkPhaseToggle _ => true
  | .overcurrent _ => true
  | .currentBelowThreshold _ => true
  | .blankingEnd _ _ => true
  | .openTimerExpiry _ => true
  | .provingTimerExpiry _ => true
  | .presenceInputChange _ _ => true
  | .presenceSettled _ => true
  | .amberTimerExpiry _ => true
  | .recoveryTimerExpiry => true
  | .spanDeadline _ => true
  | .minuteTimerExpiry => true
  | .powerOn _ => true
  | .supplyDip _ => true
  | .resetLine _ => true
  | .restartReset _ => true
  | .resetEnd => true
  /- R180: the loader reads 256 bytes -/
  | .loadReadComplete bytes => decide (bytes.length = 256)
  | .loadReadTimeout _ => true
  | .characterReceived _ _ => true
  | .responseSent => true
  | .status => true
  | .config => true
  | .peers => true
  | .approach => true
  | .queue lane => isLaneNumber lane
  | .span => true
  | .alerts => true
  /- R190: the name is one of the 24 -/
  | .clear source => source.isSome
  | .clearAll => true
  | .counts => true
  | .health => true
  | .healthStep => true
  | .trim => true
  | .releaseAdmit lane => isLaneNumber lane
  | .releaseRemove lane => isLaneNumber lane
  /- R155: written as an origin, a hyphen and four digits -/
  | .forget tag => tag.isSome
  | .lampReset lane => isLaneNumber lane
  /- R178: written as a lane number and L or T -/
  | .stripRestore strip => strip.isSome
  | .restart => true
  | .lineGoesBusy => true
  | .receiptEnd => true
  | .currentRisesToThreshold _ => true

end Sys2Proof
end

