-- ==== Sys2Proof/Certificates/Slice0/Obligations.lean ====
section
/-! DEFINITION. The statements for the provers. Each is about the machine and about every state that
meets its hypotheses; `settled`, a premise of many, holds after reset and is kept by every step
(`ResetIsSound`, `StepKeepsSettled`). A statement says what changes, and with `changesOnly` and
`followsOnly` that nothing else does. -/

section Statements

open Sys2Proof Sys2Proof.Machine

/-! ## The step, reset and the invariants -/

/-- A step runs the command at the front of the queue with the queue's rest. With no command waiting the
clock counts one microsecond (the model's choice, log entry 1): the 1 ms of a RESTART that is then
over is over for good (R184), and nothing else changes. -/
def Obligations.StepTakesFrontCommand : Prop :=
  (∀ (s : State) (c : Instr) (rest : List Instr), s.pending = c :: rest →
    step s = exec c { s with pending := rest }) ∧
  ∀ s : State, s.pending = [] →
    ∃ t, step s = .next t ∧ elapsed t.clock s.clock = 1 ∧
      t.restartHold = (if due t.clock s.restartHold = true then none else s.restartHold) ∧
      changesOnly [.clock, .restartHold] s t

/-- After reset the machine is in RESET, the image is empty, no channel works, no output is on and no
alert line is asserted (R1, R180, R184, R191); and every invariant stated below holds. Two clauses
are the model's choice: that State.reset is a first power-up with the cause POWER-ON pending (log
entry 3), and that its keep-alive store holds the values of a power-on, on which the range of the
trims rests (log entry 30). -/
def Obligations.ResetIsSound : Prop :=
  State.reset.startup = .reset ∧ State.reset.pendingCause = .powerOn ∧
    State.reset.loader.image = [] ∧ State.reset.loader.status = .loading ∧
    (∀ p, (channelOf State.reset p).state = .off) ∧ channelsOff State.reset = true ∧
    State.reset.alerts.lineA = false ∧ State.reset.alerts.lineB = false ∧
    (∀ o, (outputOf State.reset o).on = false) ∧
    settled State.reset = true ∧ bounded State.reset = true ∧ trimsInRange State.reset = true ∧
    headsRight State.reset ∧ queueOrdered State.reset.line.queue ∧ postureRight State.reset

/-- No command ends in a fault or a refusal: each gives a next state, and leaves the commands that
wait alone. That a command whose event cannot take place in the present state gives one too, is the
model's choice (log entry 2); the rules say of such expiries only that they do not take place (R12,
R26, R41, R84, R99, R117, R124, R141). -/
def Obligations.EveryCommandCompletes : Prop :=
  ∀ (i : Instr) (s : State), ∃ t, exec i s = .next t ∧ t.pending = s.pending

/-- Every step keeps signs, aspects, lamps, condition sources and alert lines as the rest of the state
asks (R118, R119, R140, R141, R122, R187, R188, R191). -/
def Obligations.StepKeepsSettled : Prop :=
  ∀ s t : State, settled s = true → step s = .next t → settled t = true

/-- Every step keeps every collection to its largest size (R10, R13, R42, R61, R74, R98, R131, R134,
R162, R195). -/
def Obligations.StepKeepsBounded : Prop :=
  ∀ s t : State, bounded s = true → step s = .next t → bounded t = true

/-- Every step keeps every active trim, and every pending one, within 3,686..4,506 (R165); the outbound
queue ordered by class, with no two frames of one kind and tag (R61, R62); and every channel OFF outside
JOINING and RUNNING, and every channel beyond the lane count (R1, R183). -/
def Obligations.StepKeepsTrimsAndQueue : Prop :=
  ∀ s t : State, step s = .next t →
    (trimsInRange s = true → trimsInRange t = true) ∧
      (queueOrdered s.line.queue → queueOrdered t.line.queue) ∧
      (channelsOff s = true → channelsOff t = true)

/-- Every step keeps heads and held set right: an empty queue has no head state, a waiting record at
the front has one, and the held set names the lanes with HELD heads, each once (section 8.1). -/
def Obligations.StepKeepsHeadsRight : Prop :=
  ∀ s t : State, headsRight s → step s = .next t → headsRight t

/-- Every step keeps the posture what R87 makes it: JOINING until the join ends, and from then on what
the rows of the peer table give. -/
def Obligations.StepKeepsPostureRight : Prop :=
  ∀ s t : State, postureRight s → step s = .next t → postureRight t

/-! ## Strip channels, pairing, assembly and trim (chapters 1 to 3 and 9) -/

/-- The edges of a conditioned signal that are no pulse end, and a pulse that has no end. PULSE_START:
an ARMED channel enters PULSE with the clock as its start, area zero and clip no (R2).
SIGNAL_BELOW_TRIGGER: a channel in WAIT goes to ARMED; one that is OFF stays OFF (R1). Neither
delivers anything. STUCK_REPORT: a pulse in progress for 60 s is abandoned, the channel goes to WAIT,
and the strip has a hard event: FAILED, the hard flag with cause STUCK and, in LISTEN, the time; a
flag already set gives the hard overflow (R4, R171, R172). -/
def Obligations.SignalEdgesAndStuckPulses : Prop :=
  ∀ (s : State) (p : Strip), settled s = true →
    ((channelOf s p).state = .armed →
      ∃ t, exec (.pulseStart p) s = .next t ∧
        channelOf t p =
          { state := .pulse, start := s.clock, area := 0, clipped := false
            noise := (channelOf s p).noise } ∧
        (∀ q, q ≠ p → channelOf t q = channelOf s q) ∧
        signalAbove t p = true ∧ (∀ q, q ≠ p → signalAbove t q = signalAbove s q) ∧
        t.inputs.presence = s.inputs.presence ∧ changesOnly [.channels, .inputs] s t) ∧
    ((channelOf s p).state = .wait ∨ (channelOf s p).state = .off →
      ∃ t, exec (.signalBelowTrigger p) s = .next t ∧
        channelOf t p =
          { channelOf s p with
            state := if (channelOf s p).state = .wait then .armed else .off } ∧
        (∀ q, q ≠ p → channelOf t q = channelOf s q) ∧
        signalAbove t p = false ∧ (∀ q, q ≠ p → signalAbove t q = signalAbove s q) ∧
        t.inputs.presence = s.inputs.presence ∧ changesOnly [.channels, .inputs] s t) ∧
    ((channelOf s p).state = .pulse → 60000000 ≤ elapsed s.clock (channelOf s p).start →
      ∃ t, exec (.stuckReport p) s = .next t ∧
        channelOf t p = { channelOf s p with state := .wait } ∧
        (∀ q, q ≠ p → channelOf t q = channelOf s q) ∧
        healthOf t p =
          (match (healthOf s p).hard with
          | none =>
            { healthOf s p with
              failed := true, hard := some .stuck
              hardTime := if s.health.state = .listen then some s.clock else none }
          | some _ => { healthOf s p with failed := true, hardOverflow := true }) ∧
        (∀ q, q ≠ p → healthOf t q = healthOf s q) ∧
        t.health.state = s.health.state ∧ t.health.walk = s.health.walk ∧ followsOnly s t ∧
        changesOnly [.channels, .health, .signs, .lamps, .entry, .alerts] s t)

/-- PULSE_END. An area, the sum of the samples held at 16,777,215, below the minimum is noise: it is
counted and goes no further. Otherwise the hit is reported, clipped at a full scale sample or a held
area. From a FAILED strip it is dropped by the pairing unit. From a GOOD one with no hit held in an
adjacent lane it takes its own hold with its start, width and area, its lane mode and a 40 ms
coincidence timer; an earlier hit there leaves first, unmerged: a DUAL lead, in time and with room,
joins the FIFO, a DUAL trail with no lead waiting blames the lead strip, and one that pairs with the
front lead, or a hit stamped SINGLE, forms an axle, here in a lane with no open vehicle (R2, R3, R5,
R6, R9 to R11, R13, R15, R18, R37, R169). An earlier lead that is late or meets a full FIFO is the
matter of `HeldLeadJoinsFifo`, an axle in a lane with an open vehicle of `AxlesJoinOrCloseVehicle`. A
pulse that rises and falls at one clock reading has width 0, though the range of R2 begins at 1: the
model's choice (log entry 40). The monitor sees every such report: the strip's silence run becomes 0,
and its clip run 0 or, clipped, one more with a soft event; the 8th clipped report in a row is a hard
event with cause CLIPPED: the strip is FAILED, its lane's mode follows and the run is 0 (R168, R170,
R172 to R174). The channel goes to ARMED. -/
def Obligations.PulseEndCountsNoiseOrTakesHold : Prop :=
  ∀ (s : State) (p : Strip) (l : List Sample) (a : Nat) (c : Bool), settled s = true →
    (channelOf s p).state = .pulse → elapsed s.clock (channelOf s p).start ≤ 60000000 →
    (channelOf s p).area ≤ 16777215 → a = (channelOf s p).area + (l.map Sample.counts).sum →
    (c = true ↔ (channelOf s p).clipped = true ∨ (∃ x ∈ l, x.fullScale = true) ∨ 16777215 < a) →
    let x : HeldHit :=
      { hit :=
          { strip := p, start := (channelOf s p).start
            width := elapsed s.clock (channelOf s p).start, area := min 16777215 a, clipped := c }
        delivered := s.clock, mode := laneMode s p.lane, expires := later s.clock 40000 }
    let lane := s.pairing.at p.lane
    let ended (noise : Count) (t : State) : Prop :=
      (channelOf t p).state = .armed ∧ (channelOf t p).noise = noise ∧
        (∀ q, q ≠ p → channelOf t q = channelOf s q) ∧
        signalAbove t p = false ∧ (∀ q, q ≠ p → signalAbove t q = signalAbove s q) ∧
        t.inputs.presence = s.inputs.presence
    let reported (t : State) : Prop :=
      ended (channelOf s p).noise t ∧ healthOf t p = afterReport s c (healthOf s p) ∧
        t.health.state = s.health.state ∧ t.health.walk = s.health.walk ∧ followsOnly s t
    let alone (t : State) : Prop :=
      reported t ∧ (∀ q, q ≠ p → healthOf t q = healthOf s q) ∧
        laneMode t p.lane = modeWith s p (afterReport s c (healthOf s p)).failed
    (min 16777215 a < s.cfg.minArea →
      ∃ t, exec (.pulseEnd p l) s = .next t ∧ ended ((channelOf s p).noise + 1) t ∧
        changesOnly [.channels, .inputs] s t) ∧
    (s.cfg.minArea ≤ min 16777215 a → stripFailed s p = true →
      ∃ t, exec (.pulseEnd p l) s = .next t ∧ alone t ∧
        changesOnly [.channels, .inputs, .health, .signs, .lamps, .entry, .alerts] s t) ∧
    (s.cfg.minArea ≤ min 16777215 a → stripFailed s p = false → mergePartner s p = none →
      (holdOf s p.lane p.pos = none →
        ∃ t, exec (.pulseEnd p l) s = .next t ∧ alone t ∧
          holdOf t p.lane p.pos = some x ∧
          (∀ k q, (k, q) ≠ (p.lane, p.pos) → holdOf t k q = holdOf s k q) ∧
          (∀ k, (t.pairing.at k).fifo = (s.pairing.at k).fifo ∧
            (t.pairing.at k).history = (s.pairing.at k).history) ∧
          (c = false → changesOnly [.channels, .inputs, .pairing, .health] s t) ∧
          changesOnly [.channels, .inputs, .pairing, .health, .signs, .lamps, .entry, .alerts] s t) ∧
      ∀ y, holdOf s p.lane p.pos = some y → y.hit.strip = p →
        (y.mode = .dual → p.pos = .lead → lane.fifo.length < 6 →
          atOrAfter s.clock (later y.hit.start (s.cfg.spacing.at p.lane * 2000)) = false →
          ∃ t, exec (.pulseEnd p l) s = .next t ∧ alone t ∧
            t.pairing.at p.lane =
              { lane with
                leadHold := some x
                fifo := lane.fifo ++
                  [{ start := y.hit.start, width := y.hit.width, area := y.hit.area
                     clipped := y.hit.clipped, partner := none, joined := s.clock
                     expiry := later y.hit.start (s.cfg.spacing.at p.lane * 2000) }] } ∧
            sameBut p.lane s.pairing t.pairing ∧
            changesOnly [.channels, .inputs, .pairing, .health, .signs, .lamps, .entry, .alerts]
              s t) ∧
        (y.mode = .dual → p.pos = .trail → lane.fifo = [] →
          ∃ t, exec (.pulseEnd p l) s = .next t ∧ reported t ∧
            healthOf t ⟨p.lane, .lead⟩ = afterBlame s (healthOf s ⟨p.lane, .lead⟩) ∧
            (∀ q : Strip, q.lane ≠ p.lane → healthOf t q = healthOf s q) ∧
            t.pairing.at p.lane = { lane with trailHold := some x } ∧
            sameBut p.lane s.pairing t.pairing ∧
            changesOnly [.channels, .inputs, .pairing, .health, .signs, .lamps, .entry, .alerts]
              s t) ∧
        (y.mode = .dual → p.pos = .trail → s.vehicles.at p.lane = none →
          ∀ (z : PendingLead) (rest : List PendingLead) (v : Nat), lane.fifo = z :: rest →
          1 ≤ elapsed y.hit.start z.start → elapsed y.hit.start z.start < 2147483648 →
          v = min 4000 (s.cfg.spacing.at p.lane * 100000 / elapsed y.hit.start z.start) →
          ∃ (t : State) (e : Axle), exec (.pulseEnd p l) s = .next t ∧ alone t ∧
            opensVehicle p.lane e s t ∧ e.time = z.start ∧ e.partner = z.partner ∧
            e.speed = some v ∧
            t.pairing.at p.lane =
              { lane with
                trailHold := some x, fifo := rest
                history := (if 4 ≤ lane.history.length then lane.history.tail
                  else lane.history) ++ [v] } ∧
            sameBut p.lane s.pairing t.pairing ∧
            changesOnly [.channels, .inputs, .pairing, .vehicles, .health, .counters, .signs,
              .lamps, .entry, .alerts] s t) ∧
        (y.mode = .single → s.vehicles.at p.lane = none →
          ∃ (t : State) (e : Axle), exec (.pulseEnd p l) s = .next t ∧ alone t ∧
            opensVehicle p.lane e s t ∧ e.time = y.hit.start ∧ e.partner = none ∧
            e.flags.single = true ∧ fromOneStrip s p y.hit.area e ∧
            holdOf t p.lane p.pos = some x ∧
            (∀ k q, (k, q) ≠ (p.lane, p.pos) → holdOf t k q = holdOf s k q) ∧
            (∀ k, (t.pairing.at k).fifo = (s.pairing.at k).fifo ∧
              (t.pairing.at k).history = (s.pairing.at k).history) ∧
            changesOnly [.channels, .inputs, .pairing, .vehicles, .health, .counters, .signs,
              .lamps, .entry, .alerts] s t))

/-- PULSE_END on a lead strip beside an adjacent lane whose lead hold holds a hit. The two become one
straddle hit; of two such lanes it is the one whose hit was delivered earlier, at equal times the
lower. The partner leaves its hold, and the straddle hit, under DUAL, in time and with room in the
FIFO, joins the FIFO of its lane as a lead with its partner lane (R5, R7, R9, R10). A straddle hit
has the earlier start, the later end, at most 60 s after it, and the sum of the areas, held at
16,777,215; it is clipped if either hit was or the sum was held. Its lane is that of the larger area,
the lower lane on equal areas; a trail whose pair has a STRADDLE lead waiting goes to the lane whose
lead joined earlier; partner lane and mode follow (R7, R8). At equal join times no lane is stated
(log entry 12). The command is spoken of on lead strips only; what is said of the straddle hit holds for
leads and trails. A pulse that rises and falls at one clock reading enters with width 0, though the range
of R2 begins at 1: the model's choice (log entry 40). -/
def Obligations.AdjacentHitsBecomeStraddle : Prop :=
  (∀ (s : State) (p : Strip) (k : Lane) (l : List Sample) (a : Nat) (x y : HeldHit) (h : Hit),
    let adjacent (j : Lane) :=
      j.val + 1 = p.lane.val ∨ (j.val = p.lane.val + 1 ∧ laneInUse s j = true)
    settled s = true → (channelOf s p).state = .pulse →
    elapsed s.clock (channelOf s p).start ≤ 60000000 →
    a = (channelOf s p).area + (l.map Sample.counts).sum → s.cfg.minArea ≤ a → a ≤ 16777215 →
    (channelOf s p).clipped = false → (∀ z ∈ l, z.fullScale = false) → stripFailed s p = false →
    p.pos = .lead → laneMode s p.lane = .dual → adjacent k → holdOf s k .lead = some y →
    y.hit.strip = ⟨k, .lead⟩ → y.mode = .dual →
    (∀ j z, adjacent j → j ≠ k → holdOf s j .lead = some z →
      atOrAfter z.delivered y.delivered = true ∧ (z.delivered = y.delivered → k.val < j.val)) →
    x =
      { hit :=
          { strip := p, start := (channelOf s p).start
            width := elapsed s.clock (channelOf s p).start, area := a, clipped := false }
        delivered := s.clock, mode := .dual, expires := later s.clock 40000 } →
    h = straddleHit s x y → (s.pairing.at h.lane).fifo.length < 6 →
    atOrAfter s.clock (later h.start (s.cfg.spacing.at h.lane * 2000)) = false →
    ∃ t, exec (.pulseEnd p l) s = .next t ∧ holdOf t k .lead = none ∧
      (∀ j q, (j, q) ≠ (k, .lead) → holdOf t j q = holdOf s j q) ∧
      (t.pairing.at h.lane).fifo =
        (s.pairing.at h.lane).fifo ++
          [{ start := h.start, width := h.width, area := h.area, clipped := h.clipped
             partner := h.partner, joined := s.clock
             expiry := later h.start (s.cfg.spacing.at h.lane * 2000) }] ∧
      (∀ j, j ≠ h.lane → (t.pairing.at j).fifo = (s.pairing.at j).fifo) ∧
      (∀ j, (t.pairing.at j).history = (s.pairing.at j).history) ∧
      healthOf t p = { healthOf s p with silenceRun := 0, clipRun := 0 } ∧
      (∀ q, q ≠ p → healthOf t q = healthOf s q) ∧
      t.health.state = s.health.state ∧ t.health.walk = s.health.walk ∧
      (channelOf t p).state = .armed ∧ (channelOf t p).noise = (channelOf s p).noise ∧
      (∀ q, q ≠ p → channelOf t q = channelOf s q) ∧
      signalAbove t p = false ∧ (∀ q, q ≠ p → signalAbove t q = signalAbove s q) ∧
      t.inputs.presence = s.inputs.presence ∧
      changesOnly [.channels, .inputs, .pairing, .health] s t) ∧
  ∀ (s : State) (a b : HeldHit), a.hit.strip.lane ≠ b.hit.strip.lane →
    let h := straddleHit s a b
    let la := a.hit.strip.lane
    let lb := b.hit.strip.lane
    let lead (l k : Lane) := (s.pairing.at l).fifo.find? fun x => decide (x.partner = some k)
    h.pos = a.hit.strip.pos ∧ h.area = min 16777215 (a.hit.area + b.hit.area) ∧
      (h.clipped = true ↔ a.hit.clipped = true ∨ b.hit.clipped = true ∨
        16777215 < a.hit.area + b.hit.area) ∧
      ((h.lane = la ∧ h.partner = some lb ∧ h.mode = a.mode) ∨
        (h.lane = lb ∧ h.partner = some la ∧ h.mode = b.mode)) ∧
      (∀ d, d ≤ 60000000 → b.hit.start = later a.hit.start d →
        h.start = a.hit.start ∧
          h.width = min 60000000 (max a.hit.width (d + b.hit.width))) ∧
      (∀ d, d ≤ 60000000 → a.hit.start = later b.hit.start d →
        h.start = b.hit.start ∧
          h.width = min 60000000 (max (d + a.hit.width) b.hit.width)) ∧
      (a.hit.strip.pos = .lead ∨ (lead la lb = none ∧ lead lb la = none) →
        (h.lane = la ↔ b.hit.area < a.hit.area ∨
          (b.hit.area = a.hit.area ∧ la.val < lb.val))) ∧
      (a.hit.strip.pos = .trail → ∀ x, lead la lb = some x →
        (∀ y, lead lb la = some y →
          x.joined ≠ y.joined ∧ atOrAfter y.joined x.joined = true) → h.lane = la) ∧
      (a.hit.strip.pos = .trail → ∀ y, lead lb la = some y →
        (∀ x, lead la lb = some x →
          x.joined ≠ y.joined ∧ atOrAfter x.joined y.joined = true) → h.lane = lb)

/-- COINCIDENCE_TIMER_EXPIRY of a DUAL lead: the hit leaves the hold unmerged, without STRADDLE (R6,
R9). Before its expiry, D x 2,000 microseconds after its start, it joins the FIFO at the tail with the
clock as its join time; a FIFO that holds 6 leads first expires its oldest. After its expiry it does
not join and is itself expired at once (R10). An expired lead forms an UNPAIRED axle, here in a lane
with no open vehicle, and the trail strip is blamed: a soft event, and its silence run advances; the
16th in a row is a hard event with cause SILENT, the strip is FAILED, the lane's mode follows and the
run is 0 (R12, R14, R18, R22, R32, R33, R37, R168, R169, R172 to R174). -/
def Obligations.HeldLeadJoinsFifo : Prop :=
  ∀ (s : State) (l : Lane) (x : HeldHit) (y : PendingLead), settled s = true →
    holdOf s l .lead = some x → atOrAfter s.clock x.expires = true →
    x.hit.strip = ⟨l, .lead⟩ → x.mode = .dual →
    y =
      { start := x.hit.start, width := x.hit.width, area := x.hit.area
        clipped := x.hit.clipped, partner := none, joined := s.clock
        expiry := later x.hit.start (s.cfg.spacing.at l * 2000) } →
    (atOrAfter s.clock y.expiry = false → (s.pairing.at l).fifo.length < 6 →
      ∃ t, exec (.coincidenceTimerExpiry l .lead) s = .next t ∧
        t.pairing.at l =
          { s.pairing.at l with leadHold := none, fifo := (s.pairing.at l).fifo ++ [y] } ∧
        sameBut l s.pairing t.pairing ∧ changesOnly [.pairing] s t) ∧
    ∀ (e : PendingLead) (q : List PendingLead),
      (atOrAfter s.clock y.expiry = false ∧ 6 ≤ (s.pairing.at l).fifo.length ∧
          ∃ rest, (s.pairing.at l).fifo = e :: rest ∧ q = rest ++ [y]) ∨
        (atOrAfter s.clock y.expiry = true ∧ e = y ∧ q = (s.pairing.at l).fifo) →
      s.vehicles.at l = none →
      ∃ (t : State) (a : Axle), exec (.coincidenceTimerExpiry l .lead) s = .next t ∧
        t.pairing.at l = { s.pairing.at l with leadHold := none, fifo := q } ∧
        sameBut l s.pairing t.pairing ∧ opensVehicle l a s t ∧
        a.time = e.start ∧ a.partner = e.partner ∧ a.flags.unpaired = true ∧
        fromOneStrip s ⟨l, .lead⟩ e.area a ∧ blamed ⟨l, .trail⟩ s t ∧ followsOnly s t ∧
        changesOnly [.pairing, .vehicles, .health, .counters, .signs, .lamps, .entry, .alerts] s t

/-- COINCIDENCE_TIMER_EXPIRY of a DUAL trail. One whose start is after the front lead's, in a lane with
no open vehicle: the lead leaves the FIFO, the pair forms one axle with the lead's start as its time,
the speed floor(D x 100,000 / pairing time) held at 4,000 and the reconciled load of both strips, the
speed joins the history, the axle is counted and opens a vehicle whose close timer runs T_max (R11,
R13, R18, R21, R31, R37). One that finds the FIFO empty, or whose start is not after the front lead's,
is an unpaired trail: it forms no axle, leaves the FIFO as it was, and the lead strip is blamed, which
at the 16th in a row is a hard event with cause SILENT (R11, R168, R169, R172 to R174). -/
def Obligations.HeldTrailPairsWithFrontLead : Prop :=
  ∀ (s : State) (l : Lane) (x : HeldHit), settled s = true → holdOf s l .trail = some x →
    atOrAfter s.clock x.expires = true → x.hit.strip = ⟨l, .trail⟩ → x.mode = .dual →
    (∀ (y : PendingLead) (rest : List PendingLead) (v : Nat),
      (s.pairing.at l).fifo = y :: rest →
      1 ≤ elapsed x.hit.start y.start → elapsed x.hit.start y.start < 2147483648 →
      s.vehicles.at l = none →
      v = min 4000 (s.cfg.spacing.at l * 100000 / elapsed x.hit.start y.start) →
      ∃ (t : State) (a : Axle), exec (.coincidenceTimerExpiry l .trail) s = .next t ∧
        opensVehicle l a s t ∧
        a.time = y.start ∧ a.lane = l ∧ a.partner = y.partner ∧ a.speed = some v ∧
        a.load = some
          (reconcile (stripLoad s ⟨l, .lead⟩ y.area v).1
            (stripLoad s ⟨l, .trail⟩ x.hit.area v).1).1 ∧
        (a.flags.slow = true ↔ s.cfg.spacing.at l * 100000 / elapsed x.hit.start y.start < 150) ∧
        (a.flags.fast = true ↔ 4000 < s.cfg.spacing.at l * 100000 / elapsed x.hit.start y.start) ∧
        t.pairing.at l =
          { s.pairing.at l with
            trailHold := none, fifo := rest
            history := (if 4 ≤ (s.pairing.at l).history.length then (s.pairing.at l).history.tail
              else (s.pairing.at l).history) ++ [v] } ∧
        sameBut l s.pairing t.pairing ∧ changesOnly [.pairing, .vehicles, .counters] s t) ∧
    ((∀ y rest, (s.pairing.at l).fifo = y :: rest →
        ¬(1 ≤ elapsed x.hit.start y.start ∧ elapsed x.hit.start y.start < 2147483648)) →
      ∃ t, exec (.coincidenceTimerExpiry l .trail) s = .next t ∧
        t.pairing.at l = { s.pairing.at l with trailHold := none } ∧
        sameBut l s.pairing t.pairing ∧ blamed ⟨l, .lead⟩ s t ∧ followsOnly s t ∧
        changesOnly [.pairing, .health, .signs, .lamps, .entry, .alerts] s t)

/-- The axles formed from one strip, in a lane with no open vehicle. LEAD_EXPIRY: the lead leaves the
FIFO wherever it stands and opens a vehicle as an UNPAIRED axle at the assumed speed, weighed from its
one strip, or UNWEIGHED without speed and load where the lane has no assumed speed; the trail strip
is blamed, which at the 16th in a row is a hard event with cause SILENT (R12, R14, R22, R32, R33, R168,
R169, R172 to R174). COINCIDENCE_TIMER_EXPIRY of a hit stamped SINGLE: it is a
SINGLE axle at once, formed alike from the live strip, the FIFO is not touched and no strip is blamed
(R6, R9, R15, R18). -/
def Obligations.OneStripHitsFormAxles : Prop :=
  ∀ (s : State) (l : Lane), settled s = true → s.vehicles.at l = none →
    (∀ (i : Nat) (x : PendingLead), (s.pairing.at l).fifo[i]? = some x →
      atOrAfter s.clock x.expiry = true →
      ∃ (t : State) (a : Axle), exec (.leadExpiry l i) s = .next t ∧
        t.pairing.at l =
          { s.pairing.at l with fifo := (s.pairing.at l).fifo.eraseIdx i } ∧
        sameBut l s.pairing t.pairing ∧ opensVehicle l a s t ∧
        a.time = x.start ∧ a.partner = x.partner ∧ a.flags.unpaired = true ∧
        a.flags.single = false ∧ fromOneStrip s ⟨l, .lead⟩ x.area a ∧
        blamed ⟨l, .trail⟩ s t ∧ followsOnly s t ∧
        changesOnly [.pairing, .vehicles, .health, .counters, .signs, .lamps, .entry, .alerts] s t) ∧
    ∀ (p : Pos) (x : HeldHit), holdOf s l p = some x → atOrAfter s.clock x.expires = true →
      x.hit.strip = ⟨l, p⟩ → x.mode = .single →
      ∃ (t : State) (a : Axle), exec (.coincidenceTimerExpiry l p) s = .next t ∧
        holdOf t l p = none ∧ (∀ k q, (k, q) ≠ (l, p) → holdOf t k q = holdOf s k q) ∧
        (∀ k, (t.pairing.at k).fifo = (s.pairing.at k).fifo ∧
          (t.pairing.at k).history = (s.pairing.at k).history) ∧
        opensVehicle l a s t ∧ a.time = x.hit.start ∧ a.partner = none ∧
        a.flags.single = true ∧ a.flags.unpaired = false ∧ fromOneStrip s ⟨l, p⟩ x.hit.area a ∧
        changesOnly [.pairing, .vehicles, .counters] s t

/-- The load of one strip. The band of a speed is SLOW below 833, FAST from 1,944 up and MID between;
the constant is that of the band with auto-band set and K_mid with it clear (R23). F = 1,024 +
beta (20 - theta), held to 768..1,280, with an INVALID theta taken as 20 (R28), and
G = floor((F T + 2,048) / 4,096) with the lane's active trim T (R29). The load is A v K G / 2^36
rounded half up, set to 6,000, with LOAD_SAT, above it (R30). Two strip loads that differ by at most
a quarter of the larger agree on their mean rounded half up; otherwise the larger is taken, with
DISAGREE (R31). -/
def Obligations.StripLoadsAreComputed : Prop :=
  (∀ v : Nat, (bandOf v = .slow ↔ v < 833) ∧ (bandOf v = .mid ↔ 833 ≤ v ∧ v < 1944) ∧
    (bandOf v = .fast ↔ 1944 ≤ v)) ∧
  (∀ (s : State) (p : Strip) (area v x k f g : Nat) (c : StripCal),
    c = s.cfg.cal.at (stripIndex p) →
    k = (if c.autoBand = true then
        (match bandOf v with
        | .slow => c.kSlow
        | .mid => c.kMid
        | .fast => c.kFast) else c.kMid) →
    (f : Int) = max 768 (min 1280 (1024 + c.beta * (20 - s.probe.theta.getD 20))) →
    g = (f * s.store.trims.at p.lane + 2048) / 4096 →
    x * 68719476736 ≤ area * v * k * g + 34359738368 →
    area * v * k * g + 34359738368 < (x + 1) * 68719476736 →
    (stripLoad s p area v).1 = min 6000 x ∧ ((stripLoad s p area v).2 = true ↔ 6000 < x)) ∧
  ∀ a b : Nat,
    (4 * (max a b - min a b) ≤ max a b → reconcile a b = ((a + b + 1) / 2, false)) ∧
      (max a b < 4 * (max a b - min a b) → reconcile a b = (max a b, true))

/-- An axle that reaches a lane with an open vehicle. Its spacing from the last axle is
floor(time difference x mean speed / 1,000,000) held at 1,275, an earlier time counting as a difference
of 0, the speed of one axle standing for a missing one, and absent when neither has a speed (R38). A
spacing above S_max closes the vehicle, and the axle opens a new one with no spacings; otherwise it
joins with its spacing and the close timer restarts at T_max (R39). At 12 axles the vehicle closes
OVERLONG instead, and the axle opens a CONTINUATION (R42). -/
def Obligations.AxlesJoinOrCloseVehicle : Prop :=
  ∀ (s : State) (l : Lane) (v : OpenVehicle) (prev a : Axle), s.vehicles.at l = some v →
    v.axles.getLast? = some prev →
    let t := assemble l a s
    let gap := if elapsed a.time prev.time < 2147483648 then elapsed a.time prev.time else 0
    let mean : Option Nat :=
      match prev.speed, a.speed with
      | some x, some y => some ((x + y) / 2)
      | some x, none => some x
      | none, y => y
    let spacing := mean.map fun m => min 1275 (gap * m / 1000000)
    let fresh (continuation : Bool) : OpenVehicle :=
      { axles := [a], spacings := [], continuation := continuation
        closeAt := later s.clock (s.cfg.tMax * 1000) }
    sameBut l s.vehicles t.vehicles ∧
      (∀ x, spacing = some x → s.cfg.sMax < x →
        t.vehicles.at l = some (fresh false) ∧
          changesOnly [.vehicles] (closeVehicle l false s) t) ∧
      ((∀ x, spacing = some x → x ≤ s.cfg.sMax) →
        (v.axles.length < 12 →
          t.vehicles.at l =
              some
                { v with
                  axles := v.axles ++ [a], spacings := v.spacings ++ [spacing]
                  closeAt := later s.clock (s.cfg.tMax * 1000) } ∧
            changesOnly [.vehicles] s t) ∧
          (12 ≤ v.axles.length →
            t.vehicles.at l = some (fresh true) ∧
              changesOnly [.vehicles] (closeVehicle l true s) t))

/-- CLOSE_TIMER_EXPIRY of a heavy vehicle of a lane without a pending trim, matched by no approach
entry, handed on in the order of R52. The record takes the tag serial counter's value, and the counter
advances; at a DIVERT station the divert decision is made (`divertRecord`: sign timers, DIRECTED,
diverted counter); at an ENTRY station the record, as that decision leaves it, joins the stop-line queue
of its lane (`joinStopLine`: the head states, an overflow, its counts and sources); at an EXIT station
a LEFT notice of the tag is queued, and then a VEHICLE notice that carries the record as it now stands;
and the heavy counter counts it. With an empty outbound queue the notices wait in that order, behind an
ENTERED notice of an overflow; at a RUNNING station in IDLE the first is in flight at once. At a full
queue that holds no VEHICLE of the tag, said of a station with neither EXIT nor ENTRY and not RUNNING in
IDLE, the VEHICLE displaces a waiting BEACON, the only frame of a worse class; with none waiting it is
itself dropped; either way TX_DROP is raised and the drop is counted (R49, R50, R52, R58, R61, R63, R65,
R112, R113, R116, R130, R189). -/
def Obligations.HeavyVehicleIsTaggedAndAnnounced : Prop :=
  ∀ (s : State) (l : Lane) (v : OpenVehicle) (r : Record) (g : Tag), settled s = true →
    working s = true → s.vehicles.at l = some v → atOrAfter s.clock v.closeAt = true →
    (s.trim.at l).pending = none →
    s.cfg.heavyThreshold ≤ (v.axles.filterMap Axle.load).sum →
    r = closeRecord s.cfg l v false → matchFor s r = none →
    g = { origin := s.cfg.station, serial := s.nextSerial } → tagHeld s g = false →
    let d := divertRecord { r with tag := some g } none s
    let j := if s.cfg.entry = true then joinStopLine d.1 d.2 else d.2
    let announced : Notice := .vehicle (weighingOf d.1 g) r.time
    ∃ t, exec (.closeTimerExpiry l) s = .next t ∧
      t.vehicles.at l = none ∧ sameBut l s.vehicles t.vehicles ∧
      t.nextSerial = s.nextSerial + 1 ∧ handedOn l s j t ∧
      (s.line.queue = [] →
        t.line =
            lineTakes ((if s.cfg.exit = true then [.left g r.time] else []) ++ [announced]) j ∧
          (∀ y, alertOf t y = alertOf j y) ∧ (s.cfg.entry = false → t.alerts = s.alerts)) ∧
      (∀ (front : List Waiting) (last : Waiting), s.cfg.exit = false → s.cfg.entry = false →
        s.startup = .joining ∨ s.line.transmit ≠ .idle →
        s.line.queue = front ++ [last] → front.length = 7 → queueOrdered s.line.queue →
        (∀ w ∈ s.line.queue, w.notice.kind = 0x21 → w.notice.tag? ≠ some g) →
        t.line =
          { s.line with
            queue :=
              (if last.notice = .beacon then front ++ [{ notice := announced, queued := s.clock }]
              else s.line.queue)
            counts := { s.line.counts with drops := s.line.counts.drops + 1 } } ∧
          (alertOf t .txDrop).sticky = true ∧
          (alertOf t .txDrop).count = (alertOf s .txDrop).count + 1 ∧
          (∀ y, y ≠ .txDrop → alertOf t y = alertOf s y)) ∧
      t.counters.lanes.at l =
        { j.counters.lanes.at l with heavy := (j.counters.lanes.at l).heavy + 1 } ∧
      changesOnly [.vehicles, .nextSerial, .line, .counters, .alerts, .signs, .lamps, .entry] s t

/-- Matching. Of a list with distinct tags, created not longer ago than the clock tells apart, a record
is matched to the first candidate by window open, then created time, then tag (R108). A candidate is
at most a lane away, with its lane held to the lane count; has the record's time in its window; agrees
in axle count, or differs by one where record or entry carries a flag (R106); and has spacings that
sum, where both have them all, to differences within the tolerance times n - 1 (R107).
CLOSE_TIMER_EXPIRY of a matched heavy vehicle, with an empty outbound queue: the entry leaves the list
and is counted as matched, the record takes its tag, the larger gross, the worse verdict, DIRECTED and
the reference gross, and no serial is used. At a DIVERT station the divert decision is made with the
entry (`divertRecord`), at an ENTRY station the record as it then stands joins its stop-line queue
(`joinStopLine`), at an EXIT station a LEFT is queued, then a SIGHTING; at a RUNNING station in IDLE the
first notice is in flight at once. A reference gross is offered to the trim unit (R52, R65, R109, R112,
R113, R115, R130, R159); a trim it forms in a lane that is then quiet is applied at once (R164). -/
def Obligations.RecordTakesItsMatch : Prop :=
  (∀ (s : State) (r : Record), r.spacings.length + 1 = r.axles.length →
    (s.approach.entries.Pairwise fun a b => a.tag ≠ b.tag) →
    (∀ f ∈ s.approach.entries, elapsed s.clock f.created < 2147483648 ∧
      ∀ ys, f.spacings = some ys → f.axleCount = some (ys.length + 1)) →
    let n := r.axles.length
    let candidate (f : ApproachEntry) : Prop :=
      laneNumber r.lane ≤ min (laneNumber f.lane) s.cfg.laneCount + 1 ∧
        min (laneNumber f.lane) s.cfg.laneCount ≤ laneNumber r.lane + 1 ∧
        atOrAfter r.time f.windowOpen = true ∧ atOrAfter f.windowClose r.time = true ∧
        (∀ c, f.axleCount = some c → c = n ∨
          ((c = n + 1 ∨ c + 1 = n) ∧
            (r.straddle = true ∨ r.overlong = true ∨ r.continuation = true ∨
              r.singleSource = true ∨ f.straddle = true ∨ f.overlong = true ∨
              f.continuation = true ∨ f.singleSource = true))) ∧
        (∀ xs ys : List Nat, f.spacings = some ys → ys.length + 1 = n →
          r.spacings = xs.map some →
          ((xs.zip ys).map fun z =>
            max ((z.1 + 2) / 5 * 5) z.2 - min ((z.1 + 2) / 5 * 5) z.2).sum ≤
            s.cfg.matchTolerance * (n - 1))
    let before (f g : ApproachEntry) : Prop :=
      elapsed r.time g.windowOpen < elapsed r.time f.windowOpen ∨
        (f.windowOpen = g.windowOpen ∧
          (elapsed s.clock g.created < elapsed s.clock f.created ∨
            (f.created = g.created ∧
              (f.tag.origin.val < g.tag.origin.val ∨
                (f.tag.origin = g.tag.origin ∧ f.tag.serial.toNat < g.tag.serial.toNat)))))
    ∀ e, matchFor s r = some e ↔
      e ∈ s.approach.entries ∧ candidate e ∧
        ∀ f ∈ s.approach.entries, candidate f → f = e ∨ before e f) ∧
  ∀ (s : State) (l : Lane) (v : OpenVehicle) (r m : Record) (e : ApproachEntry),
    settled s = true → working s = true → s.vehicles.at l = some v →
    atOrAfter s.clock v.closeAt = true → (s.trim.at l).pending = none →
    s.cfg.heavyThreshold ≤ (v.axles.filterMap Axle.load).sum →
    r = closeRecord s.cfg l v false → matchFor s r = some e → s.line.queue = [] →
    m =
      { r with
        tag := some e.tag, effGross := max r.gross e.effGross
        effVerdict := if r.verdict.code < e.effVerdict.code then e.effVerdict else r.verdict
        directed := e.directed, reference := e.reference } →
    let d := divertRecord m (some e) s
    let j := if s.cfg.entry = true then joinStopLine d.1 d.2 else d.2
    ∃ t, exec (.closeTimerExpiry l) s = .next t ∧
      t.vehicles.at l = none ∧ sameBut l s.vehicles t.vehicles ∧
      t.approach.entries = s.approach.entries.filter (fun f => decide (f.tag ≠ e.tag)) ∧
      t.approach.counts = { s.approach.counts with matched := s.approach.counts.matched + 1 } ∧
      handedOn l s j t ∧
      t.line =
        lineTakes
          ((if s.cfg.exit = true then [.left e.tag r.time] else []) ++
            [.sighting (weighingOf d.1 e.tag) r.time]) j ∧
      t.counters.lanes.at l =
        { j.counters.lanes.at l with heavy := (j.counters.lanes.at l).heavy + 1 } ∧
      (∀ y, y ≠ .trimLimit → alertOf t y = alertOf j y) ∧
      changesOnly [.vehicles, .approach, .line, .counters, .trim, .store, .alerts, .signs, .lamps,
        .entry] s t ∧
      (e.reference = none →
        t.trim = s.trim ∧ t.store = s.store ∧ alertOf t .trimLimit = alertOf s .trimLimit ∧
          (s.cfg.entry = false → t.alerts = s.alerts)) ∧
      (∀ ref, e.reference = some ref →
        (((offerTrim m ref s).trim.at l).pending = none →
          t.trim = (offerTrim m ref s).trim ∧ t.store = s.store ∧
            alertOf t .trimLimit = alertOf s .trimLimit ∧
            (s.cfg.entry = false → t.alerts = s.alerts)) ∧
          ∀ p, ((offerTrim m ref s).trim.at l).pending = some p →
            sameBut l s.trim t.trim ∧
              ((s.pairing.at l).fifo = [] →
                t.store.trims.at l = p ∧ (t.trim.at l).pending = none ∧
                  (t.trim.at l).window = []) ∧
              ((s.pairing.at l).fifo ≠ [] →
                t.trim = (offerTrim m ref s).trim ∧ t.store = s.store) ∧
              alertOf t .trimLimit = alertOf (offerTrim m ref s) .trimLimit)

/-- CLOSE_TIMER_EXPIRY of a light vehicle, below the heavy threshold and not UNWEIGHED with 3 axles or
more: it is counted as light, takes no tag and queues no notice; at an ENTRY station its record joins
the stop-line queue of its lane (`joinStopLine`: the head state, and at a full queue what leaves it);
the sign driver does not see it (R49, R53, R130). If its lane has a pending trim and no pending lead,
the lane is quiet: the pending trim becomes the active trim in the store, whose check word is formed
anew, the window is emptied and the application counted; with a pending lead the trim waits (R163,
R164, R185). -/
def Obligations.LightVehicleAppliesTrim : Prop :=
  ∀ (s : State) (l : Lane) (v : OpenVehicle), settled s = true → s.vehicles.at l = some v →
    atOrAfter s.clock v.closeAt = true →
    (v.axles.filterMap Axle.load).sum < s.cfg.heavyThreshold →
    (∀ a ∈ v.axles, a.flags.unweighed = false) ∨ v.axles.length < 3 →
    let j := if s.cfg.entry = true then joinStopLine (closeRecord s.cfg l v false) s else s
    ∃ t, exec (.closeTimerExpiry l) s = .next t ∧
      t.vehicles.at l = none ∧ sameBut l s.vehicles t.vehicles ∧
      handedOn l s j t ∧ t.signs = s.signs ∧ t.line = j.line ∧
      (∀ y, alertOf t y = alertOf j y) ∧
      t.counters.lanes.at l =
        { j.counters.lanes.at l with light := (j.counters.lanes.at l).light + 1 } ∧
      (s.cfg.entry = false → t.lamps = s.lamps ∧ t.alerts = s.alerts) ∧
      changesOnly [.vehicles, .counters, .trim, .store, .entry, .line, .lamps, .alerts] s t ∧
      ((s.trim.at l).pending = none ∨ (s.pairing.at l).fifo ≠ [] →
        t.trim = s.trim ∧ t.store = s.store) ∧
      (∀ p, (s.trim.at l).pending = some p → (s.pairing.at l).fifo = [] →
        t.trim.at l =
            { s.trim.at l with
              pending := none, window := [], applied := (s.trim.at l).applied + 1 } ∧
          sameBut l s.trim t.trim ∧ t.store.trims.at l = p ∧
          sameBut l s.store.trims t.store.trims ∧ t.store.cause = s.store.cause ∧
          t.store.restarts = s.store.restarts ∧
          t.store.check = checkOf t.store.cause t.store.restarts t.store.trims)

/-- A value is judged against a limit X with the margin m: CLEAR up to the border floor
X - floor(X m / 100), OVER above X, BORDER between them (R47). The record of a closing vehicle: its
gross is the sum of the known loads, its verdict the worst of the gross against the gross limit and
each load against the axle limit, and UNWEIGHED with an UNWEIGHED axle (R48); heavy from the
threshold up, or UNWEIGHED with 3 axles or more (R49). -/
def Obligations.ClosedRecordIsJudged : Prop :=
  (∀ limit m x : Nat,
    (judge limit m x = .clear ↔ x ≤ limit - limit * m / 100) ∧
      (judge limit m x = .border ↔ limit - limit * m / 100 < x ∧ x ≤ limit) ∧
      (judge limit m x = .over ↔ limit < x)) ∧
  ∀ (c : Configuration) (l : Lane) (v : OpenVehicle) (b : Bool),
    let r := closeRecord c l v b
    let loads := v.axles.filterMap Axle.load
    let floor (x : Nat) := x - x * c.margin / 100
    r.gross = loads.sum ∧
      (r.unweighed = true ↔ ∃ a ∈ v.axles, a.flags.unweighed = true) ∧
      (r.verdict = .unweighed ↔ r.unweighed = true) ∧
      (r.verdict = .over ↔ r.unweighed = false ∧
        (c.grossLimit < loads.sum ∨ ∃ x ∈ loads, c.axleLimit < x)) ∧
      (r.verdict = .clear ↔ r.unweighed = false ∧
        loads.sum ≤ floor c.grossLimit ∧ ∀ x ∈ loads, x ≤ floor c.axleLimit) ∧
      r.effVerdict = r.verdict ∧ r.effGross = r.gross ∧
      (r.heavy = true ↔ c.heavyThreshold ≤ loads.sum ∨ (r.unweighed = true ∧ 3 ≤ v.axles.length)) ∧
      (r.confidence = .full ↔
        (∀ a ∈ v.axles, a.partner = none ∧ a.flags = {}) ∧ b = false ∧ v.continuation = false)

/-- A record offered to the trim unit with FULL confidence and both grosses from 1,000 up gives the
ratio floor((ref x 4,096 + floor(own / 2)) / own), held to 2,048..8,192 with each clamp counted
(R160); it joins the tail of its lane's window and is counted (R161). The 16th forms the pending trim
from the active trim and the mean, held to 3,686..4,506 with TRIM_LIMIT raised at a clamp, and empties
the window (R162). A record with REDUCED confidence, a reference below 1,000 or an own gross below 1,000
gives none: its lane's refused count alone advances (R159). -/
def Obligations.OfferedReferenceTakesRatio : Prop :=
  ∀ (s : State) (r : Record) (ref : Nat),
    let x := s.trim.at r.lane
    let q := (ref * 4096 + r.gross / 2) / r.gross
    let taken := if q < 2048 then 2048 else if 8192 < q then 8192 else q
    let p := (s.store.trims.at r.lane * (((x.window ++ [taken]).sum + 8) / 16) + 2048) / 4096
    let t := offerTrim r ref s
    (r.confidence = .reduced ∨ ref < 1000 ∨ r.gross < 1000 →
      t.trim.at r.lane = { x with refused := x.refused + 1 } ∧
        sameBut r.lane s.trim t.trim ∧ changesOnly [.trim] s t) ∧
    (working s = true → r.confidence = .full → 1000 ≤ ref → 1000 ≤ r.gross →
      (t.trim.at r.lane).samples = x.samples + 1 ∧
        (t.trim.at r.lane).clamped = x.clamped + (if q < 2048 ∨ 8192 < q then 1 else 0) ∧
        (t.trim.at r.lane).refused = x.refused ∧ (t.trim.at r.lane).applied = x.applied ∧
        (x.window.length < 15 →
          (t.trim.at r.lane).window = x.window ++ [taken] ∧
            (t.trim.at r.lane).pending = x.pending ∧ (t.trim.at r.lane).formed = x.formed ∧
            t.alerts = s.alerts) ∧
        (x.window.length = 15 →
          (t.trim.at r.lane).window = [] ∧ (t.trim.at r.lane).formed = x.formed + 1 ∧
            (t.trim.at r.lane).pending =
              some (if p < 3686 then 3686 else if 4506 < p then 4506 else p) ∧
            (p < 3686 ∨ 4506 < p →
              (alertOf t .trimLimit).sticky = true ∧
                (alertOf t .trimLimit).count = (alertOf s .trimLimit).count + 1) ∧
            (3686 ≤ p → p ≤ 4506 → t.alerts = s.alerts)) ∧
        (∀ y, y ≠ .trimLimit → alertOf t y = alertOf s y) ∧
        sameBut r.lane s.trim t.trim ∧ changesOnly [.trim, .alerts] s t)

/-! ## The corridor line (chapter 4) -/

/-- A frame whose fields are in range reads back as itself: the receiver finds it well framed with a
matching CRC, and the format checks give the same frame (section 4.2, R56, R71). -/
def Obligations.FrameReadsBack : Prop :=
  ∀ f : Frame, frameInRange f = true →
    ∃ raw, readFrame (frameBytes f) = .ok raw ∧ checkFormat raw = some f

/-- CONTENTION_IDLE_REACHED: a station in CONTENDING with a frame of class c begins its attempt when the
line has been idle for 4 + 8 c + s byte times of 40 microseconds, s being its station number: it is
SENDING the whole frame, composed with receipt-from, age and beacon contents of this moment. Before
that it keeps waiting. LINE_GOES_BUSY ends the idle count; the count starts again with the next end of
a busy period (R57, R59, R60, R65, R66). That the receiver looks for a frame in the busy period
if the line was idle for 2 byte times before it is R56; that LINE_GOES_BUSY decides and keeps it, and
leaves it as it was when the line is already busy, is the model's choice (log entry 39). -/
def Obligations.ContentionBeginsAttempt : Prop :=
  ∀ (s : State) (f : Flight), settled s = true → s.startup = .running →
    s.line.transmit = .contending → s.line.flight = some f →
    (s.line.driving = none →
      ∃ t, exec .lineGoesBusy s = .next t ∧
        t.line =
          { s.line with
            idleSince := none
            looking :=
              match s.line.idleSince with
              | none => s.line.looking
              | some i => decide (80 ≤ elapsed s.clock i) } ∧
        changesOnly [.line] s t) ∧
    (s.line.idleSince = none → exec .contentionIdleReached s = .next s) ∧
    ∀ i, s.line.idleSince = some i →
      (elapsed s.clock i < (4 + 8 * f.notice.class_ + stationNumber s.cfg.station) * 40 →
        exec .contentionIdleReached s = .next s) ∧
      ((4 + 8 * f.notice.class_ + stationNumber s.cfg.station) * 40 ≤ elapsed s.clock i →
        ∃ t, exec .contentionIdleReached s = .next t ∧
          t.line =
            { s.line with
              transmit := .sending, idleSince := none
              flight := some
                { f with
                  receiptFrom := receiptTarget s f.notice
                  bytes := frameBytes
                    { sender := s.cfg.station, sequence := f.sequence
                      receiptFrom := receiptTarget s f.notice, body := noticeBody s f.notice } } } ∧
          changesOnly [.line] s t)

/-- COLLISION: the attempt is abandoned and counted. The frame contends again with its attempt count
unchanged until its 16th collision in a row, which drops it, raises LINE_FAULT and takes the next
frame (R65, R67). That idle time then counts from the moment of the collision is the model's choice
(log entry 21). -/
def Obligations.CollisionsAreCounted : Prop :=
  ∀ (s : State) (f : Flight), settled s = true → s.startup = .running →
    s.line.transmit = .sending → s.line.flight = some f →
    ∃ t, exec .collision s = .next t ∧
      t.line.counts = { s.line.counts with collisions := s.line.counts.collisions + 1 } ∧
      t.line.idleSince = some s.clock ∧ t.line.slots = s.line.slots ∧ t.line.owed = s.line.owed ∧
      t.line.driving = s.line.driving ∧
      (f.collisions < 15 →
        t.line.transmit = .contending ∧
          t.line.flight = some { f with collisions := f.collisions + 1 } ∧
          t.line.queue = s.line.queue ∧ t.line.nextSequence = s.line.nextSequence ∧
          changesOnly [.line] s t) ∧
      (15 ≤ f.collisions →
        (alertOf t .lineFault).sticky = true ∧
          (alertOf t .lineFault).count = (alertOf s .lineFault).count + 1 ∧
          (∀ x, x ≠ .lineFault → alertOf t x = alertOf s x) ∧
          (s.line.queue = [] → t.line.transmit = .idle ∧ t.line.flight = none) ∧
          (∀ w ws, s.line.queue = w :: ws →
            t.line.transmit = .contending ∧ t.line.queue = ws ∧
              (∃ g, t.line.flight = some g ∧ g.notice = w.notice ∧
                g.sequence = s.line.nextSequence ∧ g.attempts = 0 ∧ g.collisions = 0)) ∧
          changesOnly [.line, .alerts] s t)

/-- ATTEMPT_END: an attempt that wants no receipt is SENT and the next frame is taken, or the transmit
state becomes IDLE; one that wants a receipt goes to AWAITING with a wait of 12 byte times, its
collision count 0 (R65, R67, R68). RECEIPT_WAIT_EXPIRY while no frame is in progress: a frame with
fewer than three retries contends again with the same sequence and is counted as a retry; after three
it has FAILED: DELIVERY_FAIL is raised, the failure is counted on the line and, holding at 255,
against the peer it named, and the next frame is taken. The third failure in a row makes a PRESENT row
SILENT: its silence timer stops, PEER_SILENT is raised and a RUNNING station's posture is recomputed;
a changed posture runs the arbiter, then the accounting mode is judged (R69, R85, R87, R138, R149; the
order is log entry 17). -/
def Obligations.AttemptsEndAndAreRetried : Prop :=
  ∀ (s : State) (f : Flight), settled s = true → s.line.flight = some f →
    (s.line.transmit = .sending →
      ∃ t, exec .attemptEnd s = .next t ∧
        (f.receiptFrom.isSome = true →
          t.line =
            { s.line with
              transmit := .awaiting (later s.clock 480), idleSince := some s.clock
              flight := some { f with collisions := 0 } }) ∧
        (f.receiptFrom = none → t.line = { lineFreed s with idleSince := some s.clock }) ∧
        changesOnly [.line] s t) ∧
    ∀ w, working s = true → s.line.transmit = .awaiting w → atOrAfter s.clock w = true →
      s.line.idleSince.isSome = true →
      (f.attempts < 3 →
        ∃ t, exec .receiptWaitExpiry s = .next t ∧
          t.line =
            { s.line with
              transmit := .contending, flight := some { f with attempts := f.attempts + 1 }
              counts := { s.line.counts with retries := s.line.counts.retries + 1 } } ∧
          changesOnly [.line] s t) ∧
      ∀ k, 3 ≤ f.attempts → f.receiptFrom = some k →
        let n := min 255 ((rowOf s k).failures + 1)
        ∃ t, exec .receiptWaitExpiry s = .next t ∧
          t.line =
            { lineFreed s with
              counts := { s.line.counts with failures := s.line.counts.failures + 1 } } ∧
          (∀ j, j ≠ k → rowOf t j = rowOf s j) ∧
          t.peers.joinTimer = s.peers.joinTimer ∧ t.peers.beaconTimer = s.peers.beaconTimer ∧
          (alertOf t .deliveryFail).sticky = true ∧
          (alertOf t .deliveryFail).count = (alertOf s .deliveryFail).count + 1 ∧
          (¬(3 ≤ n ∧ (rowOf s k).state = .present) →
            rowOf t k = { rowOf s k with failures := n } ∧ t.peers.posture = s.peers.posture ∧
              (∀ x, x ≠ .deliveryFail → alertOf t x = alertOf s x) ∧
              changesOnly [.line, .peers, .alerts] s t) ∧
          (3 ≤ n → (rowOf s k).state = .present →
            rowOf t k = { rowOf s k with failures := n, state := .silent, silence := none } ∧
              (alertOf t .peerSilent).sticky = true ∧
              (alertOf t .peerSilent).count = (alertOf s .peerSilent).count + 1 ∧
              (∀ x, isCondition x = false → x ≠ .deliveryFail → x ≠ .peerSilent →
                alertOf t x = alertOf s x) ∧
              (s.startup = .running → t.peers.posture = postureOf t) ∧
              (s.startup ≠ .running → t.peers.posture = s.peers.posture) ∧
              entryFollowsPeers s t ∧
              changesOnly [.line, .peers, .alerts, .entry, .lamps] s t)

/-- BAD_FRAME, and FRAME_RECEIVED with bytes that are no frame (log entry 23): the frame adds one to
the bad-frame count and goes no further (R56, R71). A receiver looks for a frame after 2 byte times
of idle; bytes in which it looks for none are not counted, and they only end the busy period (R56; for
a frame that no LINE_GOES_BUSY began the idle time up to now decides, the model's choice, log entry
39). Idle time counts from now, or from 2 byte times ago for a frame found bad by an idle of that
length (log entry 20). -/
def Obligations.BadFramesAreCounted : Prop :=
  ∀ (s : State) (c : Instr) (found : BadFrame), settled s = true → isListening s = true →
    let looked :=
      match s.line.idleSince with
      | none => s.line.looking
      | some i => decide (80 ≤ elapsed s.clock i)
    let ended := earlier s.clock (if found = .badCrc then 0 else 80)
    (looked = true →
      c = .badFrame found ∨ (∃ bytes, c = .frameReceived bytes ∧ readFrame bytes = .error found) →
      ∃ t, exec c s = .next t ∧
        t.line =
          { s.line with
            counts := { s.line.counts with badFrames := s.line.counts.badFrames + 1 }
            idleSince := some ended } ∧
        changesOnly [.line] s t) ∧
    (looked = false → c = .badFrame found →
      ∃ t, exec c s = .next t ∧ t.line = { s.line with idleSince := some ended } ∧
        changesOnly [.line] s t) ∧
    (looked = false → (∃ bytes, c = .frameReceived bytes) →
      ∃ t, exec c s = .next t ∧ t.line = { s.line with idleSince := some s.clock } ∧
        changesOnly [.line] s t)

/-- FRAME_RECEIVED with a frame in range that is looked for, other than a RECEIPT, from another
station: a repeated sequence is counted as a duplicate and not stored; otherwise it is stored in a
free slot with its arrival time and its sequence becomes the sender's last accepted one; with both
slots full RX_MISS is raised and the miss counted. A stored frame or duplicate that asks this station
is owed a receipt, a missed one is not (R56, R72 to R74). Before that, in the order of R71: a well
framed frame that fails a format check, by kind, sender, receipt-from, body length or a field out of
its range, is dropped and counted as a format drop, and nothing else; a frame of any kind in range that
bears the station's own number raises DUPLICATE_NUMBER and is dropped (section 4.2, R71, R189). -/
def Obligations.FramesAreStoredOrCounted : Prop :=
  (∀ (s : State) (f : Frame), settled s = true → isListening s = true →
    looksForFrame s = true → frameInRange f = true →
    f.sender ≠ s.cfg.station → f.body.kind ≠ 1 →
    ∃ t, exec (.frameReceived (frameBytes f)) s = .next t ∧
      t.line.idleSince = some s.clock ∧ t.line.transmit = s.line.transmit ∧
      t.line.flight = s.line.flight ∧ t.line.queue = s.line.queue ∧
      t.line.nextSequence = s.line.nextSequence ∧ t.line.driving = s.line.driving ∧
      (∀ j, j ≠ f.sender → rowOf t j = rowOf s j) ∧
      t.peers = { s.peers with rows := t.peers.rows } ∧
      ((rowOf s f.sender).lastSequence = some f.sequence →
        t.line.counts = { s.line.counts with duplicates := s.line.counts.duplicates + 1 } ∧
          t.line.slots = s.line.slots ∧ rowOf t f.sender = rowOf s f.sender ∧
          t.line.owed = (if f.receiptFrom = some s.cfg.station then some (owedFor f)
            else s.line.owed) ∧
          t.alerts = s.alerts) ∧
      ((rowOf s f.sender).lastSequence ≠ some f.sequence → s.line.slots.length < 2 →
        t.line.counts = s.line.counts ∧
          t.line.slots = s.line.slots ++ [{ frame := f, arrival := s.clock }] ∧
          rowOf t f.sender = { rowOf s f.sender with lastSequence := some f.sequence } ∧
          t.line.owed = (if f.receiptFrom = some s.cfg.station then some (owedFor f)
            else s.line.owed) ∧
          t.alerts = s.alerts) ∧
      ((rowOf s f.sender).lastSequence ≠ some f.sequence → 2 ≤ s.line.slots.length →
        t.line.counts = { s.line.counts with misses := s.line.counts.misses + 1 } ∧
          t.line.slots = s.line.slots ∧ rowOf t f.sender = rowOf s f.sender ∧
          t.line.owed = s.line.owed ∧ (alertOf t .rxMiss).sticky = true ∧
          (alertOf t .rxMiss).count = (alertOf s .rxMiss).count + 1 ∧
          (∀ x, x ≠ .rxMiss → alertOf t x = alertOf s x)) ∧
      changesOnly [.line, .peers, .alerts] s t) ∧
  (∀ (s : State) (bytes : List Byte) (raw : RawFrame), settled s = true → isListening s = true →
    looksForFrame s = true → readFrame bytes = .ok raw → formatFails raw →
    ∃ t, exec (.frameReceived bytes) s = .next t ∧
      t.line =
        { s.line with
          idleSince := some s.clock
          counts := { s.line.counts with formatDrops := s.line.counts.formatDrops + 1 } } ∧
      changesOnly [.line] s t) ∧
  ∀ (s : State) (f : Frame), settled s = true → isListening s = true →
    looksForFrame s = true → frameInRange f = true → f.sender = s.cfg.station →
    ∃ t, exec (.frameReceived (frameBytes f)) s = .next t ∧
      t.line = { s.line with idleSince := some s.clock } ∧
      (alertOf t .duplicateNumber).sticky = true ∧
      (alertOf t .duplicateNumber).count = (alertOf s .duplicateNumber).count + 1 ∧
      (∀ y, y ≠ .duplicateNumber → alertOf t y = alertOf s y) ∧
      changesOnly [.line, .alerts] s t

/-- FRAME_RECEIVED with a RECEIPT from another station: in AWAITING, from the station the attempt asked
and with the station number, sequence and kind it sent, it delivers the frame, counts it, sets that
peer's failures to 0 and frees the line for the next frame; any other RECEIPT in AWAITING, and every
RECEIPT in IDLE or CONTENDING, is ignored (R56, R65, R68, R71). Said of bytes in which the receiver
looks for a frame. -/
def Obligations.ValidReceiptDelivers : Prop :=
  ∀ (s : State) (k : Station) (x y z q : Byte), settled s = true → isListening s = true →
    looksForFrame s = true → k ≠ s.cfg.station →
    let fits (f : Flight) : Prop :=
      f.receiptFrom = some k ∧ x.toNat = stationNumber s.cfg.station ∧ y = f.sequence ∧
        z.toNat = f.notice.kind
    ∃ t, exec (.frameReceived (frameBytes
          { sender := k, sequence := q, receiptFrom := none, body := .receipt x y z })) s = .next t ∧
      (∀ w f, s.line.transmit = .awaiting w → s.line.flight = some f → fits f →
        t.line =
          { lineFreed s with
            idleSince := some s.clock
            counts := { s.line.counts with delivered := s.line.counts.delivered + 1 } } ∧
          rowOf t k = { rowOf s k with failures := 0 } ∧
          (∀ j, j ≠ k → rowOf t j = rowOf s j) ∧
          t.peers = { s.peers with rows := t.peers.rows } ∧ changesOnly [.line, .peers] s t) ∧
      ((∀ w f, s.line.transmit = .awaiting w → s.line.flight = some f → ¬fits f) →
        t.line = { s.line with idleSince := some s.clock } ∧ changesOnly [.line] s t)

/-- RECEIPT_START: once the line has been idle for 2 byte times the station drives the RECEIPT it owes,
with sequence and receipt-from 0 and the sender, sequence and kind it echoes, whatever its transmit
state but SENDING. RECEIPT_END and RECEIPT_ABANDONED: it stops driving, and neither a collision nor a
retry is counted (R60, R70). That idle time then counts from the moment of the abandonment is the
model's choice (log entry 21). -/
def Obligations.ReceiptsAreDriven : Prop :=
  ∀ s : State, settled s = true →
    (∀ o i, isListening s = true → s.line.owed = some o → s.line.idleSince = some i →
      80 ≤ elapsed s.clock i →
      ∃ t, exec .receiptStart s = .next t ∧
        t.line =
          { s.line with
            owed := none, idleSince := none
            driving := some (frameBytes
              { sender := s.cfg.station, sequence := 0, receiptFrom := none
                body := .receipt (byte (stationNumber o.sender)) o.sequence o.kind }) } ∧
        changesOnly [.line] s t) ∧
    (s.line.driving.isSome = true → ∀ c, c = Instr.receiptEnd ∨ c = Instr.receiptAbandoned →
      ∃ t, exec c s = .next t ∧
        t.line = { s.line with driving := none, idleSince := some s.clock } ∧
        changesOnly [.line] s t)

/-! ## Peers, approach list, probe and minute (chapters 5, 6, 2 and 12) -/

/-- NOTICE_HANDLING_COMPLETE of a BEACON: the slot is freed, the sender's row holds the beacon's body
and its arrival time and is PRESENT with a 2 s silence timer; a changed restart count clears the last
accepted sequence and the failures, a return to PRESENT the failures. A beacon of the station's own
chainage raises CHAINAGE_CLASH where the row held another chainage or none, and no beacon else does. A
change of posture runs the arbiter of an ENTRY station, then the accounting mode is judged (the order is
log entry 17). Said of a RUNNING station (R75, R82, R83, R87, R93, R138, R149, R189). -/
def Obligations.BeaconUpdatesRow : Prop :=
  ∀ (s : State) (x : Stored) (rest : List Stored) (b : BeaconBody) (k : Station),
    settled s = true → s.startup = .running →
    s.line.slots = x :: rest → x.frame.body = .beacon b → k = x.frame.sender →
    let clashes := b.chainage = s.cfg.chainage ∧ chainageOf s k ≠ some s.cfg.chainage
    ∃ t, exec .noticeHandlingComplete s = .next t ∧
      t.line = { s.line with slots := rest } ∧
      (rowOf t k).state = .present ∧ (rowOf t k).expected = (rowOf s k).expected ∧
      (rowOf t k).heard = some { body := b, at_ := x.arrival } ∧
      (rowOf t k).silence = some (later s.clock 2000000) ∧
      (rowOf t k).lastSequence =
        (if (rowOf s k).heard.any (fun h => decide (h.body.restarts ≠ b.restarts)) then none
          else (rowOf s k).lastSequence) ∧
      (rowOf t k).failures =
        (if (rowOf s k).heard.any (fun h => decide (h.body.restarts ≠ b.restarts)) ∨
            (rowOf s k).state ≠ .present then 0 else (rowOf s k).failures) ∧
      (∀ j, j ≠ k → rowOf t j = rowOf s j) ∧
      t.peers.posture =
        (if (rowOf s k).state ≠ .present ∨
            (rowOf s k).heard.map (fun h => (h.body.entryDegraded, h.body.signDegraded)) ≠
              some (b.entryDegraded, b.signDegraded) then postureOf t
          else s.peers.posture) ∧
      t.peers.joinTimer = s.peers.joinTimer ∧ t.peers.beaconTimer = s.peers.beaconTimer ∧
      (clashes →
        (alertOf t .chainageClash).sticky = true ∧
          (alertOf t .chainageClash).count = (alertOf s .chainageClash).count + 1) ∧
      (¬clashes → alertOf t .chainageClash = alertOf s .chainageClash) ∧
      (∀ y, isCondition y = false → y ≠ .chainageClash → alertOf t y = alertOf s y) ∧
      entryFollowsPeers s t ∧
      (s.cfg.entry = false → s.entry.mode = .timed → t.entry = s.entry ∧ t.lamps = s.lamps) ∧
      changesOnly [.line, .peers, .alerts, .entry, .lamps] s t

/-- JOIN_TIMER_EXPIRY with an empty outbound queue: the station enters RUNNING, the posture is computed
from the rows, a BEACON is queued and taken into flight, the beacon timer starts at 500,000
microseconds, and an ENTRY station begins RECOVERING for its transit allowance; the change of posture
runs the arbiter, with the gate closed by RECOVERING (the order is log entry 18; R65, R79, R87, R136,
R138). -/
def Obligations.JoinEnds : Prop :=
  ∀ s : State, settled s = true → s.startup = .joining → due s.clock s.peers.joinTimer = true →
    s.line.queue = [] → s.line.transmit = .idle →
    let u : State :=
      { s with
        startup := .running, peers := { s.peers with posture := postureOf s }
        entry :=
          { s.entry with
            recovery := if s.cfg.entry then some (later s.clock (s.cfg.transit * 1000000))
              else s.entry.recovery } }
    ∃ t, exec .joinTimerExpiry s = .next t ∧ t.startup = .running ∧
      t.peers =
        { s.peers with
          joinTimer := none, beaconTimer := some (later s.clock 500000), posture := postureOf s } ∧
      t.line =
        { s.line with
          transmit := .contending, queue := [], nextSequence := s.line.nextSequence + 1
          flight :=
            some { notice := .beacon, sequence := s.line.nextSequence, attempts := 0
                   collisions := 0, receiptFrom := none, bytes := [] } } ∧
      bareEntry t.entry =
        bareEntry (if s.peers.posture = postureOf s then u else runArbiter u).entry ∧
      (s.entry.held = [] → t.entry = u.entry ∧ t.lamps = s.lamps) ∧
      bareLamps t.lamps = bareLamps s.lamps ∧
      (∀ y, isCondition y = false → alertOf t y = alertOf s y) ∧
      changesOnly [.startup, .peers, .line, .entry, .lamps, .alerts] s t

/-- BEACON_TIMER_EXPIRY: the timer restarts at 500,000 microseconds and a BEACON is queued; one that
waits already is replaced in place, and a full queue that holds none drops the new one (R62, R63, R80).
That is said of a station with a frame in flight; at a RUNNING station in IDLE with an empty queue the
BEACON, as any notice queued there, is taken into flight at once with the next sequence (R65). A frame
of any kind that replaces none, queued into a full queue: where its class is better than the worst
waiting, the youngest frame of the worst class, the last, leaves and the new one joins behind every
frame of its own and of better classes; otherwise the new frame is dropped. Each drop raises TX_DROP
and is counted (R61, R63, R189). SILENCE_TIMER_EXPIRY at a RUNNING station: the PRESENT row becomes
SILENT and its timer stops, PEER_SILENT is raised, and the posture is recomputed; the row keeps what it
knows (R77, R84, R87). At an ENTRY station a changed posture runs the arbiter, then the accounting mode
is judged (R138, R149; the order is log entry 17). -/
def Obligations.PeerTimersExpire : Prop :=
  (∀ s : State, settled s = true → working s = true → due s.clock s.peers.beaconTimer = true →
    s.line.transmit ≠ .idle →
    ∃ t, exec .beaconTimerExpiry s = .next t ∧
      t.peers = { s.peers with beaconTimer := some (later s.clock 500000) } ∧
      t.line.transmit = s.line.transmit ∧ t.line.flight = s.line.flight ∧
      t.line.nextSequence = s.line.nextSequence ∧ t.line.slots = s.line.slots ∧
      ((∀ w ∈ s.line.queue, w.notice ≠ .beacon) → s.line.queue.length < 8 →
        t.line.queue.length = s.line.queue.length + 1 ∧
          ({ notice := .beacon, queued := s.clock } : Waiting) ∈ t.line.queue ∧
          (∀ w ∈ s.line.queue, w ∈ t.line.queue) ∧ t.line.counts = s.line.counts ∧
          t.alerts = s.alerts) ∧
      ((∃ w ∈ s.line.queue, w.notice = .beacon) →
        t.line.queue = s.line.queue ∧
          t.line.counts = { s.line.counts with discards := s.line.counts.discards + 1 } ∧
          t.alerts = s.alerts) ∧
      ((∀ w ∈ s.line.queue, w.notice ≠ .beacon) → 8 ≤ s.line.queue.length →
        t.line.queue = s.line.queue ∧
          t.line.counts = { s.line.counts with drops := s.line.counts.drops + 1 } ∧
          (alertOf t .txDrop).sticky = true ∧
          (alertOf t .txDrop).count = (alertOf s .txDrop).count + 1 ∧
          (∀ y, y ≠ .txDrop → alertOf t y = alertOf s y)) ∧
      changesOnly [.peers, .line, .alerts] s t) ∧
  (∀ s : State, s.startup = .running → s.line.transmit = .idle → s.line.queue = [] →
    let inFlight (n : Notice) : Line :=
      { s.line with
        transmit := .contending, nextSequence := s.line.nextSequence + 1
        flight := some
          { notice := n, sequence := s.line.nextSequence, attempts := 0, collisions := 0
            receiptFrom := none, bytes := [] } }
    (∀ n, (enqueue n s).line = inFlight n ∧ changesOnly [.line] s (enqueue n s)) ∧
      (settled s = true → due s.clock s.peers.beaconTimer = true →
        ∃ t, exec .beaconTimerExpiry s = .next t ∧
          t.peers = { s.peers with beaconTimer := some (later s.clock 500000) } ∧
          t.line = inFlight .beacon ∧ changesOnly [.peers, .line] s t)) ∧
  (∀ (s : State) (n : Notice) (front : List Waiting) (last : Waiting), working s = true →
    s.line.queue = front ++ [last] → 7 ≤ front.length → queueOrdered s.line.queue →
    (∀ w ∈ s.line.queue, w.notice.kind = n.kind → w.notice.tag? ≠ n.tag?) →
    let t := queueFrame n s
    let ahead (w : Waiting) : Bool := decide (w.notice.class_ ≤ n.class_)
    t.line =
        { s.line with
          queue :=
            (if n.class_ < last.notice.class_ then
              front.filter ahead ++ { notice := n, queued := s.clock } ::
                front.filter (fun w => !ahead w)
            else s.line.queue)
          counts := { s.line.counts with drops := s.line.counts.drops + 1 } } ∧
      (alertOf t .txDrop).sticky = true ∧
      (alertOf t .txDrop).count = (alertOf s .txDrop).count + 1 ∧
      (∀ y, y ≠ .txDrop → alertOf t y = alertOf s y) ∧ changesOnly [.line, .alerts] s t) ∧
  ∀ (s : State) (k : Station), settled s = true → s.startup = .running → (rowOf s k).state = .present →
    due s.clock (rowOf s k).silence = true →
    ∃ t, exec (.silenceTimerExpiry k) s = .next t ∧
      rowOf t k = { rowOf s k with state := .silent, silence := none } ∧
      (∀ j, j ≠ k → rowOf t j = rowOf s j) ∧ t.peers.posture = postureOf t ∧
      t.peers.joinTimer = s.peers.joinTimer ∧ t.peers.beaconTimer = s.peers.beaconTimer ∧
      (alertOf t .peerSilent).sticky = true ∧
      (alertOf t .peerSilent).count = (alertOf s .peerSilent).count + 1 ∧
      (∀ y, isCondition y = false → y ≠ .peerSilent → alertOf t y = alertOf s y) ∧
      entryFollowsPeers s t ∧
      (s.cfg.entry = false → s.entry.mode = .timed → t.entry = s.entry ∧ t.lamps = s.lamps) ∧
      changesOnly [.peers, .alerts, .entry, .lamps] s t

/-- NOTICE_HANDLING_COMPLETE of a VEHICLE or SIGHTING from a PRESENT upstream peer, of a tag held
nowhere, with the window still open: an entry is created with the notice's values, a speed of 0 taken as
absent, and the window of R91, opening d x 10^6 / v_hi and closing d x 10^6 / v_lo + 5 s after the seen
time, with v_hi 4,000 and v_lo 100 for an absent speed. A full list of 48 first evicts
its earliest entry, with APPROACH_EVICT raised and the eviction counted; the list is kept in the order
of creation, and of entries created at one reading the first to join is the earliest (log entry 42)
(R75, R91, R96 to R98). A VEHICLE, a SIGHTING or, at an EXIT station, an ENTERED that creates and
updates nothing, and is counted: from a sender that is not PRESENT (R92); from one at the station's own
chainage, which raises CHAINAGE_CLASH (R93, R189); from upstream, at an ENTRY station, of a tag in a
stop-line queue or the span set (R95); from upstream, of a tag held nowhere, at or after the close of
its window (R96, R104). One from downstream of a tag not in the list has no effect on it (R94); the
stale discard of SIGHTINGs takes place whatever is decided (R64). An ENTERED at a station without the
EXIT role has no effect (R75). -/
def Obligations.VehicleNoticeCreatesEntry : Prop :=
  (∀ (s : State) (x : Stored) (rest : List Stored) (b : WeighingBody) (age c : Nat) (k : Station)
      (v : Option Nat), settled s = true → working s = true → s.line.slots = x :: rest →
    x.frame.body = .vehicle b age ∨ x.frame.body = .sighting b age →
    k = x.frame.sender → isPresent s k = true → chainageOf s k = some c → c < s.cfg.chainage →
    tagHeld s b.tag = false → v = (if b.speed = 0 then none else some b.speed) →
    let high := match v with
      | some n => min 4000 (3 * n / 2)
      | none => 4000
    let low := match v with
      | some n => max 100 (n / 4)
      | none => 100
    let travel (speed : Nat) := min 1000000000 ((s.cfg.chainage - c) * 100 * 1000000 / speed)
    atOrAfter s.clock (later (earlier x.arrival (age * 10000)) (travel low + 5000000)) = false →
    ∃ (t : State) (e : ApproachEntry), exec .noticeHandlingComplete s = .next t ∧
      t.line = { s.line with slots := rest } ∧
      (s.approach.entries.length < 48 →
        t.approach.entries = s.approach.entries ++ [e] ∧
          t.approach.counts =
            { s.approach.counts with created := s.approach.counts.created + 1 } ∧
          t.alerts = s.alerts) ∧
      (48 ≤ s.approach.entries.length →
        t.approach.entries = s.approach.entries.tail ++ [e] ∧
          t.approach.counts =
            { s.approach.counts with
              created := s.approach.counts.created + 1
              evicted := s.approach.counts.evicted + 1 } ∧
          (alertOf t .approachEvict).sticky = true ∧
          (alertOf t .approachEvict).count = (alertOf s .approachEvict).count + 1) ∧
      (∀ y, y ≠ .approachEvict → alertOf t y = alertOf s y) ∧
      e.tag = b.tag ∧ e.lastStation = k ∧ e.seen = earlier x.arrival (age * 10000) ∧
      e.lane = b.lane ∧ e.speed = v ∧ e.axleCount = some b.loads.length ∧
      e.spacings = b.spacings.map (fun l => l.map fun y => y.toNat * 5) ∧
      e.straddle = b.straddle ∧ e.overlong = b.overlong ∧ e.continuation = b.continuation ∧
      e.singleSource = b.singleSource ∧
      e.effGross = b.effGross ∧ e.effVerdict = b.effVerdict ∧ e.directed = b.directed ∧
      e.confidence = (if b.effGross = b.ownGross then b.ownConfidence else .reduced) ∧
      e.reference = (if s.cfg.refPeer = some k ∧ b.ownConfidence = .full then some b.ownGross
        else none) ∧
      e.windowOpen = later e.seen (travel high) ∧
      e.windowClose = later e.seen (travel low + 5000000) ∧
      e.created = s.clock ∧ changesOnly [.line, .approach, .alerts] s t) ∧
  ∀ (s : State) (x : Stored) (rest : List Stored) (k : Station) (g : Tag) (age : Nat)
    (v : Option Nat), settled s = true → working s = true → s.line.slots = x :: rest →
    k = x.frame.sender →
    ((∃ b : WeighingBody, b.tag = g ∧ v = (if b.speed = 0 then none else some b.speed) ∧
        (x.frame.body = .vehicle b age ∨ x.frame.body = .sighting b age)) ∨
      ∃ lane weight gross, v = none ∧ x.frame.body = .entered g lane weight gross age) →
    let taken := s.cfg.exit = true ∨ x.frame.body.kind ≠ 0x11
    let stale (w : Waiting) : Bool :=
      decide (x.frame.body.kind = 0x22 ∧ w.notice.kind = 0x22 ∧ w.notice.tag? = some g) &&
        isDownstream s k
    let held := (∃ l, ∃ r ∈ (stopLine s l).queue, r.tag = some g) ∨ ∃ e ∈ s.entry.span, e.tag = g
    let counted (c : ApproachCounts) (t : State) : Prop :=
      exec .noticeHandlingComplete s = .next t ∧ t.approach = { s.approach with counts := c } ∧
        t.line =
          { s.line with
            slots := rest, queue := s.line.queue.filter (fun w => !stale w)
            counts :=
              { s.line.counts with
                discards := s.line.counts.discards +
                  BitVec.ofNat 16 (s.line.queue.filter stale).length } }
    let old := s.approach.counts
    (taken → isPresent s k = false →
      ∃ t, counted { old with notPresent := old.notPresent + 1 } t ∧
        changesOnly [.line, .approach] s t) ∧
    (taken → isPresent s k = true → chainageOf s k = some s.cfg.chainage →
      ∃ t, counted { old with clash := old.clash + 1 } t ∧
        (alertOf t .chainageClash).sticky = true ∧
        (alertOf t .chainageClash).count = (alertOf s .chainageClash).count + 1 ∧
        (∀ y, y ≠ .chainageClash → alertOf t y = alertOf s y) ∧
        changesOnly [.line, .approach, .alerts] s t) ∧
    (∀ c, taken → isPresent s k = true → chainageOf s k = some c → c < s.cfg.chainage →
      (s.cfg.entry = true → held →
        ∃ t, counted { old with held := old.held + 1 } t ∧ changesOnly [.line, .approach] s t) ∧
      (¬held → findEntry s g = none →
        atOrAfter s.clock
          (later (earlier x.arrival (age * 10000))
            (min 1000000000 ((s.cfg.chainage - c) * 100 * 1000000 /
              (match v with
                | some n => max 100 (n / 4)
                | none => 100)) + 5000000)) = true →
        ∃ t, counted { old with late := old.late + 1 } t ∧ changesOnly [.line, .approach] s t)) ∧
    (∀ c, taken → isPresent s k = true → chainageOf s k = some c → s.cfg.chainage < c →
      findEntry s g = none → ∃ t, counted old t ∧ changesOnly [.line] s t) ∧
    (¬taken → ∃ t, counted old t ∧ changesOnly [.line] s t)

/-- NOTICE_HANDLING_COMPLETE of a VEHICLE or SIGHTING from a PRESENT upstream peer, of a tag in the
list: the entry takes the larger gross, the worse verdict, a confidence by R100, DIRECTED and flags of
either, the reference gross of a FULL notice of the reference peer, and, while it holds no spacings,
the notice's axle count and spacings (R100, R102, R103). From the chainage of its last station on it
also takes the sender's position, seen time, lane, speed and the window they give (R101); a window
already closed expires it at once. At an EXIT station an ENTERED updates alike, offering REDUCED and
its gross judged, without touching speed, DIRECTED, flags, signature and reference; of a tag held
nowhere, with room in the list, it creates an entry (R75, R91, R97, R104). -/
def Obligations.NoticesUpdateEntry : Prop :=
  ∀ (s : State) (x : Stored) (rest : List Stored) (k : Station) (c age : Nat), settled s = true →
    s.line.slots = x :: rest → k = x.frame.sender → isPresent s k = true →
    chainageOf s k = some c → c < s.cfg.chainage →
    let seen := earlier x.arrival (age * 10000)
    let travel (v : Nat) := min 1000000000 ((s.cfg.chainage - c) * 100 * 1000000 / v)
    let opens (v : Option Nat) :=
      later seen (travel (match v with
        | some n => min 4000 (3 * n / 2)
        | none => 4000))
    let closes (v : Option Nat) :=
      later seen (travel (match v with
        | some n => max 100 (n / 4)
        | none => 100) + 5000000)
    let moves (e : ApproachEntry) : Prop := (chainageOf s e.lastStation).getD 0 ≤ c
    let stored (e e' : ApproachEntry) (t : State) : Prop :=
      t.line = { s.line with slots := rest } ∧
        t.approach.entries = s.approach.entries.map (fun f => if f.tag = e.tag then e' else f) ∧
        t.approach.counts = { s.approach.counts with updated := s.approach.counts.updated + 1 } ∧
        e'.tag = e.tag ∧ e'.created = e.created ∧ changesOnly [.line, .approach] s t
    let placed (e e' : ApproachEntry) (lane : Lane) (v : Option Nat) : Prop :=
      (moves e →
        e'.lastStation = k ∧ e'.seen = seen ∧ e'.lane = lane ∧ e'.speed = v ∧
          e'.windowOpen = opens v ∧ e'.windowClose = closes v) ∧
      (¬moves e →
        e'.lastStation = e.lastStation ∧ e'.seen = e.seen ∧ e'.lane = e.lane ∧
          e'.speed = e.speed ∧ e'.windowOpen = e.windowOpen ∧ e'.windowClose = e.windowClose)
    (∀ (e : ApproachEntry) (b : WeighingBody) (v : Option Nat) (offered : Confidence),
      findEntry s e.tag = some e → heldAtStopLine s e.tag = false → b.tag = e.tag →
      x.frame.body = .vehicle b age ∨ x.frame.body = .sighting b age →
      v = (if b.speed = 0 then none else some b.speed) →
      offered = (if b.effGross = b.ownGross then b.ownConfidence else .reduced) →
      ((moves e → atOrAfter s.clock (closes v) = false) →
        ∃ t e', exec .noticeHandlingComplete s = .next t ∧ stored e e' t ∧
          placed e e' b.lane v ∧ e'.effGross = max e.effGross b.effGross ∧
          e'.effVerdict = e.effVerdict.worse b.effVerdict ∧
          (e.effGross < b.effGross → e'.confidence = offered) ∧
          (e.effGross = b.effGross →
            (e'.confidence = .full ↔ e.confidence = .full ∨ offered = .full)) ∧
          (b.effGross < e.effGross → e'.confidence = e.confidence) ∧
          e'.directed = (e.directed || b.directed) ∧ e'.straddle = (e.straddle || b.straddle) ∧
          e'.overlong = (e.overlong || b.overlong) ∧
          e'.continuation = (e.continuation || b.continuation) ∧
          e'.singleSource = (e.singleSource || b.singleSource) ∧
          (e.spacings.isSome = true →
            e'.axleCount = e.axleCount ∧ e'.spacings = e.spacings) ∧
          (e.spacings = none →
            e'.axleCount = some b.loads.length ∧
              e'.spacings = b.spacings.map (fun l => l.map fun y => y.toNat * 5)) ∧
          e'.reference =
            (if s.cfg.refPeer = some k ∧ b.ownConfidence = .full then some b.ownGross
              else e.reference)) ∧
      (moves e → atOrAfter s.clock (closes v) = true → s.cfg.beyondExit = false →
        ∃ t, exec .noticeHandlingComplete s = .next t ∧
          t.line = { s.line with slots := rest } ∧
          t.approach.entries = s.approach.entries.filter (fun f => decide (f.tag ≠ e.tag)) ∧
          t.approach.counts =
            { s.approach.counts with
              updated := s.approach.counts.updated + 1
              expired := s.approach.counts.expired + 1 } ∧
          changesOnly [.line, .approach] s t)) ∧
    ∀ (g : Tag) (lane : Lane) (weight gross : Nat), s.cfg.exit = true →
      x.frame.body = .entered g lane weight gross age → heldAtStopLine s g = false →
      (∀ e, findEntry s g = some e → (moves e → atOrAfter s.clock (closes e.speed) = false) →
        ∃ t e', exec .noticeHandlingComplete s = .next t ∧ stored e e' t ∧
          placed e e' lane e.speed ∧ e'.effGross = max e.effGross gross ∧
          e'.effVerdict = e.effVerdict.worse (judge s.cfg.grossLimit s.cfg.margin gross) ∧
          e'.confidence = (if e.effGross < gross then .reduced else e.confidence) ∧
          e'.directed = e.directed ∧ e'.straddle = e.straddle ∧ e'.overlong = e.overlong ∧
          e'.continuation = e.continuation ∧ e'.singleSource = e.singleSource ∧
          e'.axleCount = e.axleCount ∧ e'.spacings = e.spacings ∧ e'.reference = e.reference) ∧
      (findEntry s g = none → s.approach.entries.length < 48 →
        atOrAfter s.clock (closes none) = false →
        ∃ t, exec .noticeHandlingComplete s = .next t ∧
          t.line = { s.line with slots := rest } ∧
          t.approach.entries =
            s.approach.entries ++
              [{ tag := g, lastStation := k, seen := seen, lane := lane, speed := none
                 axleCount := none, spacings := none, effGross := gross
                 effVerdict := judge s.cfg.grossLimit s.cfg.margin gross, confidence := .reduced
                 directed := false, reference := none, straddle := false, overlong := false
                 continuation := false, singleSource := false, windowOpen := opens none
                 windowClose := closes none, created := s.clock }] ∧
          t.approach.counts =
            { s.approach.counts with created := s.approach.counts.created + 1 } ∧
          changesOnly [.line, .approach] s t)

/-- Entries that leave the list. WINDOW_CLOSE_EXPIRY: the entry whose window has closed leaves as
expired; at a beyond-exit station a DIRECTED one is counted as complied in lane min(entry lane, lane
count) (R99). NOTICE_HANDLING_COMPLETE of a VEHICLE, a SIGHTING or, at an EXIT station, an ENTERED from
a PRESENT downstream peer: the entry of its tag leaves and is counted as passed unseen, and at a
SIGHTING every waiting SIGHTING of the tag leaves the outbound queue as discarded (R64, R75, R94,
R104). -/
def Obligations.EntriesLeaveList : Prop :=
  ∀ (s : State) (e : ApproachEntry), settled s = true → findEntry s e.tag = some e →
    (atOrAfter s.clock e.windowClose = true → 1 ≤ s.cfg.laneCount → s.cfg.laneCount ≤ 4 →
      ∃ t, exec (.windowCloseExpiry e.tag) s = .next t ∧
        t.approach.entries = s.approach.entries.filter (fun x => decide (x.tag ≠ e.tag)) ∧
        t.approach.counts = { s.approach.counts with expired := s.approach.counts.expired + 1 } ∧
        ((s.cfg.beyondExit && e.directed) = false → t.counters = s.counters) ∧
        ((s.cfg.beyondExit && e.directed) = true →
          ∀ l : Lane, (t.counters.lanes.at l) =
            if laneNumber l = min (laneNumber e.lane) s.cfg.laneCount then
              { s.counters.lanes.at l with complied := (s.counters.lanes.at l).complied + 1 }
            else s.counters.lanes.at l) ∧
        changesOnly [.approach, .counters] s t) ∧
    ∀ (x : Stored) (rest : List Stored) (k : Station) (c age : Nat) (body : Body),
      s.line.slots = x :: rest → k = x.frame.sender → isPresent s k = true →
      chainageOf s k = some c → s.cfg.chainage < c → body = x.frame.body →
      (∃ b : WeighingBody, b.tag = e.tag ∧ (body = .vehicle b age ∨ body = .sighting b age)) ∨
        (s.cfg.exit = true ∧ ∃ l w g, body = .entered e.tag l w g age) →
      let older (w : Waiting) : Bool :=
        match w.notice with
        | .sighting b _ => decide (b.tag = e.tag)
        | _ => false
      ∃ t, exec .noticeHandlingComplete s = .next t ∧
        t.approach.entries = s.approach.entries.filter (fun x => decide (x.tag ≠ e.tag)) ∧
        t.approach.counts =
          { s.approach.counts with passedUnseen := s.approach.counts.passedUnseen + 1 } ∧
        ((∀ b, body ≠ .sighting b age) → t.line = { s.line with slots := rest }) ∧
        (∀ b, body = .sighting b age →
          t.line =
            { s.line with
              slots := rest, queue := s.line.queue.filter (fun w => !older w)
              counts :=
                { s.line.counts with
                  discards := s.line.counts.discards +
                    BitVec.ofNat 16 (s.line.queue.filter older).length } }) ∧
        changesOnly [.line, .approach] s t

/-- The probe unit. PROBE_SAMPLE_TIMER asks the probe, with 50 ms for its answer and 1 s to the next
sample. PROBE_ANSWER within its 50 ms: a reading r whose check value matches and whose
floor((r + 8) / 16) is in -40..+85 becomes the temperature and stops the hold timer. Any other answer,
and PROBE_ANSWER_TIMEOUT, leave the temperature and start the 60 s hold timer if the temperature is
VALID and the timer stopped. HOLD_TIMER_EXPIRY makes the temperature INVALID (R25, R26). TEMP_INVALID
is remembered as it then stands (R27). MINUTE_TIMER_EXPIRY: each snapshot takes its counter's value,
each counter returns to 0, the count of completed minutes goes up by one and the timer restarts at
60 s (R192). -/
def Obligations.ProbeAndMinuteTimersRun : Prop :=
  (∀ s : State, settled s = true → working s = true →
    let held := if s.probe.theta.isSome = true ∧ s.probe.holdTimer = none then
      some (later s.clock 60000000) else s.probe.holdTimer
    (due s.clock s.probe.sampleTimer = true →
      ∃ t, exec .probeSampleTimer s = .next t ∧
        t.probe =
          { s.probe with
            sampleTimer := some (later s.clock 1000000), answerBy := some (later s.clock 50000) } ∧
        changesOnly [.probe] s t) ∧
    (∀ (r d : Int) (ok : Bool) (w : Clock), s.probe.answerBy = some w → atOrAfter w s.clock = true →
      d * 16 ≤ r + 8 → r + 8 < d * 16 + 16 →
      ∃ t, exec (.probeAnswer r ok) s = .next t ∧
        (ok = true ∧ -40 ≤ d ∧ d ≤ 85 →
          t.probe = { s.probe with theta := some d, holdTimer := none, answerBy := none } ∧
            (alertOf t .tempInvalid).remembered = false) ∧
        (ok = false ∨ d < -40 ∨ 85 < d →
          t.probe = { s.probe with answerBy := none, holdTimer := held } ∧ t.alerts = s.alerts) ∧
        (∀ y, y ≠ .tempInvalid → alertOf t y = alertOf s y) ∧ changesOnly [.probe, .alerts] s t) ∧
    (due s.clock s.probe.answerBy = true →
      ∃ t, exec .probeAnswerTimeout s = .next t ∧
        t.probe = { s.probe with answerBy := none, holdTimer := held } ∧
        changesOnly [.probe] s t) ∧
    (due s.clock s.probe.holdTimer = true →
      ∃ t, exec .holdTimerExpiry s = .next t ∧
        t.probe = { s.probe with theta := none, holdTimer := none } ∧
        (alertOf t .tempInvalid).remembered = true ∧
        (∀ y, y ≠ .tempInvalid → alertOf t y = alertOf s y) ∧
        ((alertConfig s .tempInvalid).enable = true → (alertConfig s .tempInvalid).mapA = true →
          (alertConfig s .tempInvalid).bypass = true → t.alerts.lineA = true) ∧
        changesOnly [.probe, .alerts] s t)) ∧
  ∀ s : State, settled s = true → due s.clock s.counters.minuteTimer = true →
    ∃ t, exec .minuteTimerExpiry s = .next t ∧
      t.counters.snapshots = some s.counters.lanes ∧
      (∀ l, t.counters.lanes.at l =
        { axles := 0, light := 0, heavy := 0, diverted := 0, complied := 0, stopped := 0
          redRuns := 0 }) ∧
      t.counters.minutes = s.counters.minutes + 1 ∧
      t.counters.minuteTimer = some (later s.clock 60000000) ∧ changesOnly [.counters] s t

/-! ## Signs and lamps (chapter 7) -/

/-- The divert decision of a heavy record at a DIVERT station. It is diverted if its effective verdict
is OVER or UNWEIGHED, or BORDER with its own confidence or that of the entry it was matched to
REDUCED, or if the posture is not NORMAL (R115). Then the sign timers of its lane and of its partner
lane run their full hold time; it is marked DIRECTED and counted as diverted unless each of those
signs holds a latched fault (R116, R117). Otherwise, and without the role, nothing happens.
SIGN_TIMER_EXPIRY: the timer stops; the sign's blink phase ends unless the lane is BLIND, when its
request goes on. BLINK_PHASE_TOGGLE: in FLASH mode the phase of a requested sign changes, and changes
again 500,000 microseconds later; in STEADY mode it stays as it is (R117, R118, R119). Said of a
working DIVERT station and a lane within the lane count. -/
def Obligations.DivertDecisionsRunSigns : Prop :=
  (∀ (s : State) (r : Record) (m : Option ApproachEntry),
    let diverted := r.effVerdict = .over ∨ r.effVerdict = .unweighed ∨
      (r.effVerdict = .border ∧
        (r.confidence = .reduced ∨ ∃ e, m = some e ∧ e.confidence = .reduced)) ∨
      s.peers.posture ≠ .normal
    let extended (k : Lane) := k = r.lane ∨ r.partner = some k
    let works (k : Lane) := ∀ o, (outputOf s o).inGroup k = true → (outputOf s o).latch = .none
    let t := (divertRecord r m s).2
    (s.cfg.divert = false ∨ ¬diverted → divertRecord r m s = (r, s)) ∧
      (s.cfg.divert = true → diverted →
        (∀ k, extended k →
          t.signs.at k =
            { s.signs.at k with timer := some (later s.clock (s.cfg.signHold * 1000000)) }) ∧
        (∀ k, ¬extended k → t.signs.at k = s.signs.at k) ∧
        ((∃ k, extended k ∧ works k) →
          (divertRecord r m s).1 = { r with directed := true } ∧
            t.counters.lanes.at r.lane =
              { s.counters.lanes.at r.lane with
                diverted := (s.counters.lanes.at r.lane).diverted + 1 } ∧
            sameBut r.lane s.counters.lanes t.counters.lanes ∧
            changesOnly [.signs, .counters] s t) ∧
        ((∀ k, extended k → ¬works k) →
          (divertRecord r m s).1 = r ∧ changesOnly [.signs] s t))) ∧
  ∀ (s : State) (l : Lane), settled s = true → working s = true → s.cfg.divert = true →
    laneInUse s l = true →
    (due s.clock (s.signs.at l).timer = true →
      ∃ t, exec (.signTimerExpiry l) s = .next t ∧ (t.signs.at l).timer = none ∧
        (laneMode s l ≠ .blind → (t.signs.at l).blink = none) ∧
        (laneMode s l = .blind → (t.signs.at l).blink = (s.signs.at l).blink) ∧
        sameBut l s.signs t.signs ∧ bareLamps t.lamps = bareLamps s.lamps ∧
        changesOnly [.signs, .lamps] s t) ∧
    ∀ b, (s.signs.at l).blink = some b → atOrAfter s.clock b.changeAt = true →
      (s.cfg.flash = false → exec (.blinkPhaseToggle l) s = .next s) ∧
      (s.cfg.flash = true →
        ∃ t, exec (.blinkPhaseToggle l) s = .next t ∧
          t.signs.at l =
            { s.signs.at l with
              blink := some { on := !b.on, changeAt := later b.changeAt 500000 } } ∧
          sameBut l s.signs t.signs ∧ bareLamps t.lamps = bareLamps s.lamps ∧
          changesOnly [.signs, .lamps] s t)

/-- OVERCURRENT, OPEN_TIMER_EXPIRY, and CURRENT_BELOW_THRESHOLD while the group's proving timer runs:
the output latches its fault, OVERCURRENT with its enable cleared or OPEN with its enable left set;
it is off at once, as is every output of its group, and LAMP_FAULT is remembered true with its sticky
set (R122 to R125, R127, R188). -/
def Obligations.LatchedFaultDarkensGroup : Prop :=
  ∀ (s : State) (o : Output) (l : Lane) (m : Lamp) (c : Instr), settled s = true →
    working s = true → (outputOf s o).on = true → (outputOf s o).assignment = some (l, m) →
    c = .overcurrent o ∨ (c = .openTimerExpiry o ∧ due s.clock (outputOf s o).openTimer = true) ∨
      (c = .currentBelowThreshold o ∧ (outputOf s o).blanking = none ∧ (outputOf s o).low = false ∧
        provingRuns s (outputOf s o) = true) →
    ∃ t, exec c s = .next t ∧
      (outputOf t o).assignment = (outputOf s o).assignment ∧
      (c = .overcurrent o → (outputOf t o).latch = .overcurrent ∧ (outputOf t o).enable = false) ∧
      (c ≠ .overcurrent o →
        (outputOf t o).latch = .open_ ∧ (outputOf t o).enable = (outputOf s o).enable) ∧
      (∀ q, (outputOf s q).inGroup l = true →
        (outputOf t q).on = false ∧ (outputOf t q).openTimer = none) ∧
      (∀ q, q ≠ o → (outputOf t q).latch = (outputOf s q).latch ∧
        (outputOf t q).enable = (outputOf s q).enable ∧
        (outputOf t q).assignment = (outputOf s q).assignment) ∧
      t.lamps.proving = s.lamps.proving ∧ t.signs = s.signs ∧
      (alertOf t .lampFault).remembered = true ∧ (alertOf t .lampFault).sticky = true ∧
      (∀ y, y ≠ .lampFault → alertOf t y = alertOf s y) ∧
      bareEntry t.entry = bareEntry s.entry ∧ changesOnly [.lamps, .entry, .alerts] s t

/-- The open-lamp judgement of an on output whose group is not proving. BLANKING_END with a current
below the threshold, and CURRENT_BELOW_THRESHOLD past the blanking time, start the open timer at
200 ms; BLANKING_END with a current at the threshold only ends the blanking time; and
CURRENT_RISES_TO_THRESHOLD stops and clears the timer (R122, R124). While the group's proving timer
runs, BLANKING_END with a low current latches OPEN at once, and the output is off (R127). -/
def Obligations.LowCurrentIsJudged : Prop :=
  ∀ (s : State) (o : Output), settled s = true → (outputOf s o).on = true →
    (∀ c y,
      provingRuns s (outputOf s o) = false ∧
        ((c = Instr.blankingEnd o true ∧ due s.clock (outputOf s o).blanking = true ∧
            y = { outputOf s o with
              blanking := none, low := true, openTimer := some (later s.clock 200000) }) ∨
          (c = .currentBelowThreshold o ∧ (outputOf s o).blanking = none ∧
            (outputOf s o).low = false ∧
            y = { outputOf s o with low := true, openTimer := some (later s.clock 200000) })) ∨
      (c = .blankingEnd o false ∧ due s.clock (outputOf s o).blanking = true ∧
        y = { outputOf s o with blanking := none, low := false }) ∨
      (c = .currentRisesToThreshold o ∧ (outputOf s o).blanking = none ∧
        (outputOf s o).low = true ∧ y = { outputOf s o with low := false, openTimer := none }) →
      ∃ t, exec c s = .next t ∧ outputOf t o = y ∧ (∀ q, q ≠ o → outputOf t q = outputOf s q) ∧
        t.lamps.proving = s.lamps.proving ∧ changesOnly [.lamps] s t) ∧
    (provingRuns s (outputOf s o) = true → due s.clock (outputOf s o).blanking = true →
      ∃ t, exec (.blankingEnd o true) s = .next t ∧
        (outputOf t o).latch = .open_ ∧ (outputOf t o).enable = (outputOf s o).enable ∧
        (outputOf t o).on = false ∧
        (∀ q, q ≠ o → (outputOf t q).latch = (outputOf s q).latch ∧
          (outputOf t q).enable = (outputOf s q).enable) ∧
        (∀ y, y ≠ .lampFault → alertOf t y = alertOf s y) ∧
        t.lamps.proving = s.lamps.proving ∧ bareEntry t.entry = bareEntry s.entry ∧
        changesOnly [.lamps, .entry, .alerts] s t)

/-- LAMP RESET n is answered OK: for each output of the lane's group the latch is cleared, the enable
set and the open timer cleared, and the group's proving timer starts at 100 ms; an output that is on
with a low current latches OPEN at once, since proving has begun (R126, R127). PROVING_TIMER_EXPIRY
stops the proving timer and changes nothing else (R127). -/
def Obligations.LampResetBeginsProving : Prop :=
  ∀ (s : State) (l : Lane), settled s = true → working s = true →
    (portReady s = true → s.cfg.divert = true ∨ s.cfg.entry = true → laneInUse s l = true →
      ∃ t, exec (.lampReset (laneNumber l)) s = .next t ∧
        t.port =
          { s.port with
            state := .responding, buffer := [], garbled := false, response := some (.ok [])
            linesTaken := s.port.linesTaken + 1 } ∧
        t.lamps.proving.at l = some (later s.clock 100000) ∧
        sameBut l s.lamps.proving t.lamps.proving ∧
        (∀ o, (outputOf s o).inGroup l = true →
          (outputOf t o).assignment = (outputOf s o).assignment ∧ (outputOf t o).enable = true ∧
            (outputOf t o).openTimer = none ∧
            (outputOf t o).latch =
              if (outputOf s o).on = true ∧ (outputOf s o).blanking = none ∧
                (outputOf s o).low = true then .open_ else .none) ∧
        ((∀ o, (outputOf s o).inGroup l = true → (outputOf s o).on = true →
            (outputOf s o).low = false) →
          ∀ o, (outputOf s o).inGroup l = true → (outputOf t o).on = (outputOf t o).demand) ∧
        (∀ o, (outputOf s o).inGroup l = false → outputOf t o = outputOf s o) ∧
        t.signs = s.signs ∧ bareEntry t.entry = bareEntry s.entry ∧
        (∀ y, y ≠ .lampFault → alertOf t y = alertOf s y) ∧
        changesOnly [.port, .lamps, .entry, .alerts] s t) ∧
    (due s.clock (s.lamps.proving.at l) = true →
      ∃ t, exec (.provingTimerExpiry l) s = .next t ∧ t.lamps.proving.at l = none ∧
        sameBut l s.lamps.proving t.lamps.proving ∧ t.lamps.outputs = s.lamps.outputs ∧
        changesOnly [.lamps] s t)

/-! ## The entry controller (chapter 8) -/

/-- PRESENCE_INPUT_CHANGE: at an ENTRY station, for a lane within the lane count, an input that reads
opposite to the presence state starts the settle timer, 50 ms toward OCCUPIED and 100 ms toward
UNOCCUPIED, and one that agrees stops it; elsewhere the input is not looked at (R129, R142).
PRESENCE_SETTLED. Toward OCCUPIED it has no effect of its own. Toward UNOCCUPIED it is a crossing: in a
lane with an empty queue a phantom, raised and counted; a free head leaves and is counted as
light-crossed, and with nothing behind it the lane's queue is empty (R142, R143). -/
def Obligations.PresenceSettlesAndCrosses : Prop :=
  (∀ (s : State) (l : Lane) (v : Bool), settled s = true →
    ∃ t, exec (.presenceInputChange l v) s = .next t ∧ t.inputs.presence.at l = v ∧
      sameBut l s.inputs.presence t.inputs.presence ∧ t.inputs.above = s.inputs.above ∧
      (laneActs s l = false → changesOnly [.inputs] s t) ∧
      (laneActs s l = true → v = (stopLine s l).occupied →
        stopLine t l = { stopLine s l with settle := none }) ∧
      (laneActs s l = true → v ≠ (stopLine s l).occupied → (stopLine s l).settle = none →
        stopLine t l =
          { stopLine s l with settle := some (later s.clock (if v then 50000 else 100000)) }) ∧
      (∀ k, k ≠ l → stopLine t k = stopLine s k) ∧
      t.entry = { s.entry with lanes := t.entry.lanes } ∧ changesOnly [.inputs, .entry] s t) ∧
  ∀ (s : State) (l : Lane), settled s = true → laneActs s l = true →
    due s.clock (stopLine s l).settle = true →
    ((stopLine s l).occupied = false →
      ∃ t, exec (.presenceSettled l) s = .next t ∧
        stopLine t l = { stopLine s l with occupied := true, settle := none } ∧
        (∀ k, k ≠ l → stopLine t k = stopLine s k) ∧
        t.entry = { s.entry with lanes := t.entry.lanes } ∧ changesOnly [.entry] s t) ∧
    ((stopLine s l).occupied = true → (stopLine s l).queue = [] →
      ∃ t, exec (.presenceSettled l) s = .next t ∧
        stopLine t l = { stopLine s l with occupied := false, settle := none } ∧
        (∀ k, k ≠ l → stopLine t k = stopLine s k) ∧
        t.entry = { s.entry with lanes := t.entry.lanes, phantoms := s.entry.phantoms + 1 } ∧
        (alertOf t .phantom).sticky = true ∧
        (alertOf t .phantom).count = (alertOf s .phantom).count + 1 ∧
        (∀ y, y ≠ .phantom → alertOf t y = alertOf s y) ∧ changesOnly [.entry, .alerts] s t) ∧
    (∀ r, (stopLine s l).occupied = true → (stopLine s l).queue = [r] →
      (stopLine s l).head = .free →
      ∃ t, exec (.presenceSettled l) s = .next t ∧
        stopLine t l =
          { stopLine s l with queue := [], head := .none, occupied := false, settle := none } ∧
        (∀ k, k ≠ l → stopLine t k = stopLine s k) ∧
        t.entry =
          { s.entry with lanes := t.entry.lanes, lightCrossed := s.entry.lightCrossed + 1 } ∧
        changesOnly [.entry] s t)

/-- PRESENCE_SETTLED for an ADMITTED head alone in its queue: its admission weight moves from committed
to span as an ON_SPAN entry with the transit allowance as its deadline and no flag; the committed weight
has fallen, so the arbiter runs, and admits held vehicles in their order as far as they fit
(`ArbiterKeepsToSpanLimit`). With nothing held nothing else changes, and the weight counted in all is
the same. An ENTERED notice waits for the line, or at a RUNNING station in IDLE is taken into flight at
once. Said of an empty outbound queue (R65, R138, R142, R144, R147, R148). -/
def Obligations.RegularCrossingMovesWeight : Prop :=
  ∀ (s : State) (l : Lane) (r : Record) (g : Tag) (a : Nat), settled s = true →
    laneActs s l = true → due s.clock (stopLine s l).settle = true →
    (stopLine s l).occupied = true → (stopLine s l).queue = [r] →
    (stopLine s l).head = .admitted a → r.tag = some g → s.line.queue = [] →
    ∃ t, exec (.presenceSettled l) s = .next t ∧
      (stopLine t l).queue = [] ∧ (stopLine t l).head = .none ∧
      (stopLine t l).occupied = false ∧ (stopLine t l).settle = none ∧
      headEvaluated l s (afterCrossing l r g [] s) t ∧
      t.entry.span =
        s.entry.span ++
          [{ tag := g, lane := l, weight := a, entered := s.clock
             deadline := later s.clock (s.cfg.transit * 1000000), overdue := false
             redRun := false, uncontrolled := false, unseen := false, noncompliant := false }] ∧
      t.entry = { s.entry with lanes := t.entry.lanes, held := t.entry.held, span := t.entry.span } ∧
      (∀ k, k ≠ l → k ∉ s.entry.held → stopLine t k = stopLine s k) ∧
      (s.entry.held = [] →
        t.entry.held = [] ∧ spanTotal t + committed t = spanTotal s + committed s) ∧
      t.line = lineTakes [.entered g l a r.effGross s.clock] s ∧
      (∀ y, isCondition y = false → alertOf t y = alertOf s y) ∧
      bareLamps t.lamps = bareLamps s.lamps ∧
      changesOnly [.entry, .line, .lamps, .alerts] s t

/-- PRESENCE_SETTLED for a STOP or HELD head alone in its queue: a non-admitted entry. The head leaves
queue and held set; after a HELD head the arbiter runs for those held beside it (R138). It enters the
span set, where there is room, at the padded weight g + ceil(g m_r / 100), or for an UNWEIGHED verdict
the larger of that and the gross limit, flagged NONCOMPLIANT if it was STOP and, by the aspect shown,
RED_RUN or UNCONTROLLED; with span entries and ADMITTED heads at 24 it is not stored, the
accounting-lost state is set, ACCOUNTING_LOST is raised and RECOVERING starts again.
NONCOMPLIANT_ENTERED is raised for STOP, under RED also RED_RUN with the lane's red-runs counter, under
DARK UNCONTROLLED; an ENTERED notice is queued in every case, and at a RUNNING station in IDLE taken
into flight at once (R65, R133, R136, R137, R145 to R148). Said of an empty outbound queue. -/
def Obligations.NonAdmittedHeadsEnter : Prop :=
  ∀ (s : State) (l : Lane) (r : Record) (g : Tag) (p w : Nat) (stop : Bool), settled s = true →
    laneActs s l = true → due s.clock (stopLine s l).settle = true →
    (stopLine s l).occupied = true → (stopLine s l).queue = [r] → r.tag = some g →
    ((stopLine s l).head = .stop ∧ stop = true) ∨
      ((∃ a h, (stopLine s l).head = .held a h) ∧ stop = false) →
    s.line.queue = [] →
    p = r.effGross + (r.effGross * s.cfg.padding + 99) / 100 →
    w = (if r.effVerdict = .unweighed then max s.cfg.grossLimit p else p) →
    let full := 24 ≤ s.entry.span.length + admittedHeads s
    let others := s.entry.held.filter (fun k => decide (k ≠ l))
    ∃ t, exec (.presenceSettled l) s = .next t ∧
      (stopLine t l).queue = [] ∧ (stopLine t l).head = .none ∧
      (stopLine t l).occupied = false ∧ (stopLine t l).settle = none ∧
      headEvaluated l s (afterCrossing l r g [] s) t ∧
      (stop = true ∨ others = [] →
        t.entry.held = others ∧ ∀ k, k ≠ l → stopLine t k = stopLine s k) ∧
      (¬full →
        t.entry =
          { s.entry with
            lanes := t.entry.lanes, held := t.entry.held
            span := s.entry.span ++
              [{ tag := g, lane := l, weight := w, entered := s.clock
                 deadline := later s.clock (s.cfg.transit * 1000000), overdue := false
                 redRun := decide ((stopLine s l).aspect = some .red)
                 uncontrolled := decide ((stopLine s l).aspect = some .dark)
                 unseen := false, noncompliant := stop }] }) ∧
      (full →
        t.entry =
            { s.entry with
              lanes := t.entry.lanes, held := t.entry.held
              lost := true, recovery := some (later s.clock (s.cfg.transit * 1000000)) } ∧
          (alertOf t .accountingLost).sticky = true ∧
          (alertOf t .accountingLost).count = (alertOf s .accountingLost).count + 1) ∧
      t.line = lineTakes [.entered g l w r.effGross s.clock] s ∧
      (stop = true →
        (alertOf t .noncompliantEntered).sticky = true ∧
          (alertOf t .noncompliantEntered).count = (alertOf s .noncompliantEntered).count + 1) ∧
      ((stopLine s l).aspect = some .red →
        (alertOf t .redRun).count = (alertOf s .redRun).count + 1 ∧
          (t.counters.lanes.at l).redRuns = (s.counters.lanes.at l).redRuns + 1) ∧
      ((stopLine s l).aspect = some .dark →
        (alertOf t .uncontrolled).count = (alertOf s .uncontrolled).count + 1) ∧
      ((stopLine s l).aspect ≠ some .red → t.counters = s.counters) ∧
      sameBut l s.counters.lanes t.counters.lanes ∧
      (∀ y, isCondition y = false → (stop = true → y ≠ .noncompliantEntered) →
        (full → y ≠ .accountingLost) →
        ((stopLine s l).aspect = some .red → y ≠ .redRun) →
        ((stopLine s l).aspect = some .dark → y ≠ .uncontrolled) → alertOf t y = alertOf s y) ∧
      bareLamps t.lamps = bareLamps s.lamps ∧
      changesOnly [.entry, .line, .counters, .lamps, .alerts] s t

/-- Stop-line queues move up. PRESENCE_SETTLED for a free, ADMITTED, STOP or HELD head with a record
behind it: the head leaves as R143 to R145 say (`afterCrossing`), after an ADMITTED or HELD one the
arbiter runs, and then, in the order of log entry 16, the record behind it becomes the head and is
evaluated against what is now on the deck and held: free, STOP, counted as stopped with NONCOMPLIANT or
OVER_UNDIRECTED raised, ADMITTED or HELD, behind those held before (R132 to R134, R138, R144, R145). A
record joining an empty queue is evaluated; one joining a queue of 1 to 7 stands at its tail; one
joining a queue of 8 first removes the head unseen, with QUEUE_OVERFLOW raised: an ADMITTED head enters
the span set at its weight, a HELD or STOP head at the padded weight where there is room, in both cases
with UNSEEN and neither RED_RUN nor UNCONTROLLED, an ENTERED notice is queued, and NONCOMPLIANT_ENTERED
is not raised; a light head is counted as crossed (R130, R131, R146 to R148). -/
def Obligations.StopLineQueuesMoveUp : Prop :=
  (∀ (s : State) (l : Lane) (r b : Record) (rest : List Record) (g : Tag), settled s = true →
    laneActs s l = true → due s.clock (stopLine s l).settle = true →
    (stopLine s l).occupied = true → (stopLine s l).queue = r :: b :: rest →
    (stopLine s l).head = .free ∨ ((stopLine s l).head ≠ .none ∧ r.tag = some g) →
    let u := afterCrossing l r g (b :: rest) s
    ∃ t, exec (.presenceSettled l) s = .next t ∧
      (stopLine t l).queue = b :: rest ∧ (stopLine t l).head = headFor u b ∧
      (stopLine t l).occupied = false ∧ (stopLine t l).settle = none ∧
      headEvaluated l s u t ∧
      ((stopLine s l).head = .free →
        t.line = s.line ∧ u.entry.held = s.entry.held ∧ headFor u b = headFor s b ∧
          (∀ k, k ≠ l → stopLine t k = stopLine s k) ∧
          (headFor u b ≠ .stop → t.alerts = s.alerts ∧ t.counters = s.counters) ∧
          (∀ y, y ≠ .noncompliant → y ≠ .overUndirected → alertOf t y = alertOf s y) ∧
          t.counters.lanes.at l =
            { s.counters.lanes.at l with stopped := (t.counters.lanes.at l).stopped }) ∧
      ((stopLine s l).head ≠ .free →
        t.line = (enqueue (.entered g l (deckWeight s l r) r.effGross s.clock) s).line) ∧
      (∀ y, isCondition y = false →
        y ∉ [.noncompliant, .overUndirected, .noncompliantEntered, .redRun, .uncontrolled,
          .accountingLost, .txDrop] → alertOf t y = alertOf s y) ∧
      changesOnly [.entry, .line, .counters, .lamps, .alerts] s t) ∧
  ∀ (s : State) (r : Record),
    let l := r.lane
    let t := joinStopLine r s
    ((stopLine s l).queue = [] →
      (stopLine t l).queue = [r] ∧ (stopLine t l).head = headFor s r ∧
        (∀ k, k ≠ l → stopLine t k = stopLine s k)) ∧
    ((stopLine s l).queue ≠ [] → (stopLine s l).queue.length < 8 →
      stopLine t l = { stopLine s l with queue := (stopLine s l).queue ++ [r] } ∧
        (∀ k, k ≠ l → stopLine t k = stopLine s k) ∧
        t.entry = { s.entry with lanes := t.entry.lanes } ∧ changesOnly [.entry] s t) ∧
    ∀ (q : Record) (rest : List Record) (p w : Nat), working s = true →
      (stopLine s l).queue = q :: rest → 7 ≤ rest.length →
      p = q.effGross + (q.effGross * s.cfg.padding + 99) / 100 →
      w = (if q.effVerdict = .unweighed then max s.cfg.grossLimit p else p) →
      let entered (g : Tag) (weight : Nat) (stop : Bool) : SpanEntry :=
        { tag := g, lane := l, weight := weight, entered := s.clock
          deadline := later s.clock (s.cfg.transit * 1000000), overdue := false, redRun := false
          uncontrolled := false, unseen := true, noncompliant := stop }
      (stopLine t l).queue = rest ++ [r] ∧ (alertOf t .queueOverflow).sticky = true ∧
        (alertOf t .queueOverflow).count = (alertOf s .queueOverflow).count + 1 ∧
        (alertOf t .noncompliantEntered) = (alertOf s .noncompliantEntered) ∧
        (∀ a g, (stopLine s l).head = .admitted a → q.tag = some g →
          t.entry.span = s.entry.span ++ [entered g a false] ∧
            t.line = (enqueue (.entered g l a q.effGross s.clock) s).line) ∧
        (∀ g, q.tag = some g → s.entry.span.length + admittedHeads s < 24 →
          (stopLine s l).head = .stop ∨ (∃ a h, (stopLine s l).head = .held a h) →
          t.entry.span =
              s.entry.span ++ [entered g w (decide ((stopLine s l).head = .stop))] ∧
            t.line = (enqueue (.entered g l w q.effGross s.clock) s).line) ∧
        ((stopLine s l).head = .free →
          t.entry.lightCrossed = s.entry.lightCrossed + 1 ∧ t.entry.span = s.entry.span ∧
            t.line = s.line)

/-- A heavy record's evaluation at the front of its queue: with an OVER verdict or DIRECTED it is
STOP; otherwise it is ADMITTED when it fits and nothing is held, and HELD if not. It fits when span
total, committed weight and its own together keep to the span limit, span set and ADMITTED heads
together are below 24, and the gate is open or the deck is empty; a light record is free (R132 to
R135, R139). -/
def Obligations.HeadIsEvaluated : Prop :=
  ∀ (s : State) (l : Lane) (r : Record) (rest : List Record), (stopLine s l).queue = r :: rest →
    let a := admissionWeight s r
    let fits := spanTotal s + committed s + a ≤ s.cfg.spanLimit ∧
      s.entry.span.length + admittedHeads s < 24 ∧
      ((s.startup ≠ .joining ∧ s.entry.recovery = none ∧ s.peers.posture ≠ .isolated ∧
        s.entry.lost = false) ∨ (s.entry.span = [] ∧ committed s = 0))
    let h := (stopLine (evaluateHead l s) l).head
    (r.heavy = false → h = .free) ∧
      (r.heavy = true → r.effVerdict = .over ∨ r.directed = true → h = .stop) ∧
      (r.heavy = true → r.effVerdict ≠ .over → r.directed = false →
        (fits ∧ s.entry.held = [] → h = .admitted a) ∧
          (¬(fits ∧ s.entry.held = []) → h = .held a s.clock ∧ l ∈ (evaluateHead l s).entry.held)) ∧
      (stopLine (evaluateHead l s) l).queue = r :: rest ∧
      (∀ k, k ≠ l → stopLine (evaluateHead l s) k = stopLine s k)

/-- An arbiter run at a working ENTRY station takes the held lanes in their order, up to the first that
does not fit: each lane taken is ADMITTED at its admission weight, worked out now, and fitted, with
those taken before it counted: span total, committed weight and its own within the span limit, span
set and ADMITTED heads below 24, and the gate open or the deck empty; the first lane still held does
not fit, and keeps its hold time. So the weight counted in all is within the span limit or no more
than before. Elsewhere it does nothing (R129, R134, R135, R138). -/
def Obligations.ArbiterKeepsToSpanLimit : Prop :=
  ∀ s : State, headsRight s →
    let t := runArbiter s
    let weight (l : Lane) : Nat :=
      match (stopLine s l).queue with
      | r :: _ => admissionWeight s r
      | [] => 0
    let fitsAfter (before : List Lane) (l : Lane) : Prop :=
      spanTotal s + committed s + (before.map weight).sum + weight l ≤ s.cfg.spanLimit ∧
        s.entry.span.length + admittedHeads s + before.length < 24 ∧
        ((s.startup ≠ .joining ∧ s.entry.recovery = none ∧ s.peers.posture ≠ .isolated ∧
            s.entry.lost = false) ∨
          (s.entry.span = [] ∧ committed s + (before.map weight).sum = 0))
    (entryActs s = false → t = s) ∧
      (entryActs s = true →
        ∃ taken, s.entry.held = taken ++ t.entry.held ∧
          (∀ l ∈ taken, (stopLine t l).head = .admitted (weight l)) ∧
          (∀ before l after, taken = before ++ l :: after → fitsAfter before l) ∧
          (∀ l rest, t.entry.held = l :: rest →
            ¬fitsAfter taken l ∧ ∃ h, holdTime s l = some h ∧
              (stopLine t l).head = .held (weight l) h) ∧
          (∀ l, l ∉ s.entry.held → stopLine t l = stopLine s l) ∧
          (∀ l, (stopLine t l).queue = (stopLine s l).queue) ∧ changesOnly [.entry] s t) ∧
      spanTotal t + committed t ≤ max (spanTotal s + committed s) s.cfg.spanLimit ∧
      t.entry.span = s.entry.span ∧ headsRight t

/-- AMBER_TIMER_EXPIRY: the shown aspect becomes RED and the timer stops (R141). RECOVERY_TIMER_EXPIRY:
RECOVERING ends, and the accounting-lost state clears when neither span entries nor committed weight are
left. If that opens the gate, the station being neither JOINING nor ISOLATED and its accounting not lost,
the arbiter runs, and admits held vehicles in their order as far as they fit
(`ArbiterKeepsToSpanLimit`); otherwise every head stays as it was (R135 to R138). -/
def Obligations.EntryTimersExpire : Prop :=
  ∀ s : State, settled s = true →
    (∀ l, laneActs s l = true → due s.clock (stopLine s l).amber = true →
      ∃ t, exec (.amberTimerExpiry l) s = .next t ∧
        stopLine t l = { stopLine s l with aspect := some .red, amber := none } ∧
        (∀ k, k ≠ l → stopLine t k = stopLine s k) ∧
        t.entry = { s.entry with lanes := t.entry.lanes } ∧
        bareLamps t.lamps = bareLamps s.lamps ∧ changesOnly [.entry, .lamps] s t) ∧
    (due s.clock s.entry.recovery = true →
      let u : State :=
        { s with
          entry :=
            { s.entry with
              recovery := none
              lost := s.entry.lost && !(s.entry.span.isEmpty && decide (committed s = 0)) } }
      let opens := s.startup ≠ .joining ∧ s.peers.posture ≠ .isolated ∧ u.entry.lost = false
      ∃ t, exec .recoveryTimerExpiry s = .next t ∧
        (opens → bareEntry t.entry = bareEntry (runArbiter u).entry) ∧
        (s.entry.held = [] ∨ ¬opens → t.entry = u.entry ∧ t.lamps = s.lamps) ∧
        (∀ k, k ∉ s.entry.held → stopLine t k = stopLine s k) ∧
        bareLamps t.lamps = bareLamps s.lamps ∧ changesOnly [.entry, .lamps] s t)

/-- The span set entries with a tag leave, and only those, at SPAN_DEADLINE in TIMED mode, at
NOTICE_HANDLING_COMPLETE of a LEFT and at FORGET, which is counted and answered OK; the accounting-lost
state clears when it was the last and neither RECOVERING nor committed weight is left. The span weight
total has then fallen, so the arbiter runs, and admits held vehicles in their order as far as they fit
(`ArbiterKeepsToSpanLimit`; R137, R138). In TRACKED mode SPAN_DEADLINE makes the entry OVERDUE, and it
stays (R148, R150, R151, R155). The mode is TRACKED while an exit station is installed and an EXIT peer
is PRESENT, TIMED otherwise and at a station without the ENTRY role; at a switch to TIMED every OVERDUE
entry leaves, and if one did the arbiter runs, and the others stay, as when SILENCE_TIMER_EXPIRY takes
the only EXIT peer (R84, R86, R149). A LEFT of a tag that is not in the span set, be it in a stop-line
queue, adds one to the unknown-left count and changes nothing else but its slot; at a station without
the ENTRY role it has no effect (R75, R151). -/
def Obligations.SpanEntriesLeave : Prop :=
  (∀ (s : State) (e : SpanEntry), settled s = true → working s = true → s.cfg.entry = true →
    s.entry.span.find? (fun x => decide (x.tag = e.tag)) = some e →
    let stay := s.entry.span.filter (fun x => decide (x.tag ≠ e.tag))
    let left (forgotten : Count) (t : State) :=
      let u : State :=
        { s with
          entry :=
            { s.entry with
              span := stay
              lost := s.entry.lost && !(s.entry.recovery.isNone && stay.isEmpty &&
                decide (committed s = 0))
              forgotten := forgotten } }
      bareEntry t.entry = bareEntry (runArbiter u).entry ∧
        (s.entry.held = [] → t.entry = u.entry ∧ t.lamps = s.lamps) ∧
        (∀ k, k ∉ s.entry.held → stopLine t k = stopLine s k) ∧
        bareLamps t.lamps = bareLamps s.lamps ∧
        (∀ y, y ≠ .spanOverdue → alertOf t y = alertOf s y)
    (s.entry.mode = .timed → atOrAfter s.clock e.deadline = true → e.overdue = false →
      ∃ t, exec (.spanDeadline e.tag) s = .next t ∧ left s.entry.forgotten t ∧
        changesOnly [.entry, .lamps, .alerts] s t) ∧
    (∀ x rest age, s.line.slots = x :: rest → x.frame.body = .left e.tag age →
      ∃ t, exec .noticeHandlingComplete s = .next t ∧ left s.entry.forgotten t ∧
        t.line = { s.line with slots := rest } ∧ changesOnly [.entry, .line, .lamps, .alerts] s t) ∧
    (portReady s = true →
      ∃ t, exec (.forget (some e.tag)) s = .next t ∧ left (s.entry.forgotten + 1) t ∧
        t.port =
          { s.port with
            state := .responding, buffer := [], garbled := false, response := some (.ok [])
            linesTaken := s.port.linesTaken + 1 } ∧
        changesOnly [.entry, .port, .lamps, .alerts] s t) ∧
    (s.entry.mode = .tracked → atOrAfter s.clock e.deadline = true → e.overdue = false →
      ∃ t, exec (.spanDeadline e.tag) s = .next t ∧
        t.entry =
          { s.entry with
            span := s.entry.span.map fun x =>
              if x.tag = e.tag then { x with overdue := true } else x } ∧
        spanTotal t = spanTotal s ∧ (alertOf t .spanOverdue).remembered = true ∧
        (∀ y, y ≠ .spanOverdue → alertOf t y = alertOf s y) ∧ changesOnly [.entry, .alerts] s t)) ∧
  (∀ (s : State) (x : Stored) (rest : List Stored) (g : Tag) (age : Nat), settled s = true →
    s.line.slots = x :: rest → x.frame.body = .left g age →
    (s.cfg.entry = true → (∀ e ∈ s.entry.span, e.tag ≠ g) →
      ∃ t, exec .noticeHandlingComplete s = .next t ∧
        t.entry = { s.entry with unknownLeft := s.entry.unknownLeft + 1 } ∧
        t.line = { s.line with slots := rest } ∧ changesOnly [.entry, .line] s t) ∧
    (s.cfg.entry = false →
      ∃ t, exec .noticeHandlingComplete s = .next t ∧
        t.line = { s.line with slots := rest } ∧ changesOnly [.line] s t)) ∧
  ∀ s : State,
    let exitAt (k : Station) : Prop :=
      (rowOf s k).state = .present ∧ ∃ h, (rowOf s k).heard = some h ∧ h.body.exit = true
    let tracked := s.cfg.entry = true ∧ s.cfg.exitInstalled = true ∧ ∃ k, exitAt k
    let onSpan := s.entry.span.filter fun x => !x.overdue
    ((judgeMode s).entry.mode = .tracked ↔ tracked) ∧
      (s.entry.mode = .tracked → ¬tracked →
        (judgeMode s).entry.span = onSpan ∧
          let u : State :=
            { s with
              entry :=
                { s.entry with
                  mode := .timed, span := onSpan
                  lost := s.entry.lost && !(s.entry.recovery.isNone && onSpan.isEmpty &&
                    decide (committed s = 0)) } }
          (∃ x ∈ s.entry.span, x.overdue = true) → (judgeMode s).entry = (runArbiter u).entry) ∧
      (s.entry.mode = .timed ∨ tracked →
        (judgeMode s).entry = { s.entry with mode := (judgeMode s).entry.mode } ∧
          changesOnly [.entry] s (judgeMode s)) ∧
      ∀ k, settled s = true → s.startup = .running → s.entry.mode = .tracked → exitAt k →
        due s.clock (rowOf s k).silence = true → (∀ j, j ≠ k → ¬exitAt j) →
        ∃ t, exec (.silenceTimerExpiry k) s = .next t ∧ t.entry.mode = .timed ∧
          t.entry.span = onSpan

/-- RELEASE n ADMIT: the STOP head is answered OK and becomes HELD with the clock as its hold time, behind
those held before, and the arbiter runs. With nothing held beside it, it is ADMITTED at its admission
weight when it fits, and stays HELD when not. RELEASE n REMOVE: a HELD or STOP head leaves its queue,
turned away and counted, with no notice and no weight on the deck; after a HELD head the arbiter runs,
and then, in the order of log entry 16, the record behind it is evaluated (R132, R138, R153, R154). -/
def Obligations.ReleaseAdmitsOrRemoves : Prop :=
  ∀ (s : State) (l : Lane) (r : Record) (rest : List Record), settled s = true →
    portReady s = true → laneActs s l = true → (stopLine s l).queue = r :: rest →
    let answered :=
      { s.port with
        state := .responding, buffer := [], garbled := false, response := some (.ok [])
        linesTaken := s.port.linesTaken + 1 }
    ((stopLine s l).head = .stop →
      let a := admissionWeight s r
      let u : State := setStopLine l { stopLine s l with head := .held a s.clock }
        { s with entry := { s.entry with held := heldWith l s } }
      ∃ t, exec (.releaseAdmit (laneNumber l)) s = .next t ∧ t.port = answered ∧
        (stopLine t l).queue = r :: rest ∧
        bareEntry t.entry = bareEntry (runArbiter u).entry ∧
        (s.entry.held = [] →
          (fits s a = true → (stopLine t l).head = .admitted a ∧ t.entry.held = []) ∧
            (fits s a = false →
              (stopLine t l).head = .held a s.clock ∧ t.entry.held = [l])) ∧
        (∀ k, k ≠ l → k ∉ s.entry.held → stopLine t k = stopLine s k) ∧
        t.entry = { s.entry with lanes := t.entry.lanes, held := t.entry.held } ∧
        bareLamps t.lamps = bareLamps s.lamps ∧ changesOnly [.port, .entry, .lamps] s t) ∧
    ((stopLine s l).head = .stop ∨ (∃ a h, (stopLine s l).head = .held a h) →
      let removed : State := setStopLine l { stopLine s l with queue := rest, head := .none }
        { s with
          entry :=
            { s.entry with
              held := s.entry.held.filter (fun k => decide (k ≠ l))
              turnedAway := s.entry.turnedAway + 1 } }
      let u := if (stopLine s l).head = .stop then removed else runArbiter removed
      ∃ t, exec (.releaseRemove (laneNumber l)) s = .next t ∧ t.port = answered ∧
        (stopLine t l).queue = rest ∧ headEvaluated l s u t ∧
        (rest = [] → (stopLine t l).head = .none ∧ t.alerts = s.alerts ∧ t.counters = s.counters) ∧
        (∀ k, k ≠ l → k ∉ s.entry.held → stopLine t k = stopLine s k) ∧
        t.entry =
          { s.entry with
            lanes := t.entry.lanes, held := t.entry.held, turnedAway := s.entry.turnedAway + 1 } ∧
        (∀ y, y ≠ .noncompliant → y ≠ .overUndirected → alertOf t y = alertOf s y) ∧
        changesOnly [.port, .entry, .lamps, .alerts, .counters] s t)

/-! ## Resets and loading (chapter 11) -/

/-- POWER_ON, SUPPLY_DIP, RESET_LINE, and RESTART_RESET after an accepted RESTART: from any state
outside RESET the station is in RESET at once with that cause pending, every block at its value after
reset and both alert lines released; the store, the input levels and the waiting commands are as they
were. In RESET only the supply falling below the retention threshold changes the pending cause (R184,
R185). The model's choices in it: the clock starts again at 0 (log entry 3); the input levels are kept,
which no rule says (log entry 5); configuration, idle time and the values no rule reads are those of
State.reset (log entries 4, 22 and 38); a store write that the reset cuts off leaves the check word the
command carries (log entry 6); RESTART_RESET is taken while the answer to RESTART is being sent or has
been sent (log entry 27); the 1 ms of a RESTART is counted from clock reading 0 (log entry 36). -/
def Obligations.ResetsEnterReset : Prop :=
  ∀ (s : State) (w : Option (BitVec 16)) (c : Instr) (k : ResetCause), settled s = true →
    (c = .powerOn w ∧ k = .powerOn) ∨ (c = .supplyDip w ∧ k = .supplyDip) ∨
      (c = .resetLine w ∧ k = .resetLine) ∨
      (c = .restartReset w ∧ k = .restart ∧ s.port.restart ≠ .none) →
    ∃ t, exec c s = .next t ∧ t.startup = .reset ∧
      t.store = { s.store with check := w.getD s.store.check } ∧ t.inputs = s.inputs ∧
      t.pending = s.pending ∧
      (s.startup = .reset →
        t.pendingCause = (if k = .powerOn then .powerOn else s.pendingCause) ∧
          changesOnly [.pendingCause, .store] s t) ∧
      (s.startup ≠ .reset →
        t.pendingCause = k ∧
          t.restartHold = (if k = .restart then some 1000 else none) ∧
          changesOnly [.pendingCause, .restartHold, .store, .inputs, .pending] State.reset t)

/-- RESET_END: the store is set as after power-on when the pending cause is POWER-ON or its check word
does not match; otherwise the restart count goes up by one, wrapping, the cause becomes the pending
cause and the trims are kept; the check word is formed anew. The station enters LOADING with an empty
image, the first read attempt and an empty COLLECTING port (R180, R185, R195). A read attempt that
fails: LOAD_READ_TIMEOUT, 10 ms after the request without an answer or 50 ms after it with one, and
LOAD_READ_COMPLETE with 256 bytes whose CRC does not match. After the first attempt a second one
begins; after the second the image is refused, with NO_MEMORY or CRC, and the station enters FAULT with
both alert lines asserted (R180, R183). That the image held stays as it was before a transfer that began
and was not complete in time, is the model's choice (log entry 46). -/
def Obligations.LoadingBeginsAndRetries : Prop :=
  (∀ s : State, settled s = true → s.startup = .reset → holdOver s = true →
    ∃ t, exec .resetEnd s = .next t ∧ t.startup = .loading ∧
      (s.pendingCause = .powerOn ∨
          s.store.check ≠ checkOf s.store.cause s.store.restarts s.store.trims →
        t.store.cause = .powerOn ∧ t.store.restarts = 0 ∧ (∀ l, t.store.trims.at l = 4096)) ∧
      (s.pendingCause ≠ .powerOn →
          s.store.check = checkOf s.store.cause s.store.restarts s.store.trims →
        t.store.cause = s.pendingCause ∧ t.store.restarts = s.store.restarts + 1 ∧
          t.store.trims = s.store.trims) ∧
      t.store.check = checkOf t.store.cause t.store.restarts t.store.trims ∧
      t.loader = { image := [], status := .loading, attempt := 1, requested := s.clock } ∧
      t.port.state = .collecting ∧ t.port.buffer = [] ∧ t.port.linesTaken = 0 ∧
      changesOnly [.startup, .restartHold, .store, .loader, .port] s t) ∧
  ∀ (s : State) (c : Instr) (img : List Byte) (k : RefusalCause), settled s = true →
    s.startup = .loading →
    (c = .loadReadTimeout false ∧ 10000 ≤ elapsed s.clock s.loader.requested ∧
        img = s.loader.image ∧ k = .noMemory) ∨
      (c = .loadReadTimeout true ∧ 50000 ≤ elapsed s.clock s.loader.requested ∧
        img = s.loader.image ∧ k = .noMemory) ∨
      (c = .loadReadComplete img ∧ elapsed s.clock s.loader.requested ≤ 50000 ∧
        img.length = 256 ∧ crcComputed img ≠ crcRead img ∧ k = .crc) →
    ∃ t, exec c s = .next t ∧
      (s.loader.attempt = 1 →
        t.loader =
            { image := img, status := s.loader.status, attempt := 2, requested := s.clock } ∧
          changesOnly [.loader] s t) ∧
      (s.loader.attempt = 2 →
        t.startup = .fault ∧ t.loader = { s.loader with image := img, status := .refused k } ∧
          t.alerts.lineA = true ∧ t.alerts.lineB = true ∧ t.alerts.sources = s.alerts.sources ∧
          changesOnly [.startup, .loader, .alerts] s t)

/-- LOAD_READ_COMPLETE with bytes that pass the CRC. Another version than 1 refuses the image with
VERSION; else the first field by offset outside its range or coding, of those at offsets 1 to 32, the
spacings and calibration blocks within the lane count and the 24 alert bytes, refuses it with RANGE
and its offset; else the own number in the expected set with RANGE 7, the own number as reference peer
with RANGE 8, both DIVERT and ENTRY with ROLE. A refused image puts the station into FAULT with both
alert lines asserted; otherwise the image is VALID and the station JOINING (R181 to R183). Bit 3 of an
alert byte is not checked (the model's reading, log entry 13). -/
def Obligations.ImageIsAcceptedOrRefused : Prop :=
  ∀ (s : State) (img : List Byte), settled s = true → s.startup = .loading → img.length = 256 →
    elapsed s.clock s.loader.requested ≤ 50000 → crcComputed img = crcRead img →
    let lanes := imageByte img 6
    let value (o bytes : Nat) :=
      if bytes = 1 then imageByte img o else if bytes = 2 then image2 img o else image3 img o
    -- offset, number of bytes, least and largest value
    let ranges : List (Nat × Nat × Nat × Nat) :=
      [(1, 1, 1, 8), (2, 1, 0, 7), (3, 1, 0, 15), (6, 1, 1, 4), (8, 1, 0, 8), (9, 1, 10, 60),
        (10, 1, 0, 20), (11, 1, 0, 30), (12, 2, 300, 1200), (14, 2, 500, 5000),
        (16, 2, 50, 2000), (18, 2, 1, 65535), (20, 2, 100, 6000), (22, 3, 200, 72000),
        (25, 3, 500, 200000), (28, 2, 200, 2000), (30, 2, 10, 600), (32, 1, 4, 60)] ++
        (List.range lanes).map (fun l => (33 + 2 * l, 2, 1000, 4000)) ++
        (List.range (2 * lanes)).flatMap (fun p =>
          [(41 + 8 * p, 2, 1, 65535), (43 + 8 * p, 2, 1, 65535), (45 + 8 * p, 2, 1, 65535),
            (48 + 8 * p, 1, 0, 1)])
    let bad (o : Nat) : Prop :=
      (∃ c ∈ ranges, c.1 = o ∧ (value o c.2.1 < c.2.2.1 ∨ c.2.2.2 < value o c.2.1)) ∨
        (∃ p, p < 2 * lanes ∧ o = 47 + 8 * p ∧
          ((img.getD o 0).toInt < -8 ∨ 8 < (img.getD o 0).toInt)) ∨
        (∃ k, k < 24 ∧ o = 105 + k ∧
          (imageBit img o 7 = true ∨ (7 ≤ k ∧
            (imageBit img o 4 = true ∨ imageBit img o 5 = true ∨ imageBit img o 6 = true))))
    let inSet := imageBit img 7 (imageByte img 1 - 1) = true
    let ownRef := imageByte img 8 = imageByte img 1
    let bothRoles := imageBit img 2 0 = true ∧ imageBit img 2 1 = true
    ∃ t, exec (.loadReadComplete img) s = .next t ∧ t.loader.image = img ∧
      (imageByte img 0 ≠ 1 → t.loader.status = .refused .version) ∧
      (imageByte img 0 = 1 →
        (∀ o, bad o → (∀ n, n < o → ¬bad n) → t.loader.status = .refused (.range o)) ∧
        ((∀ o, ¬bad o) →
          (inSet → t.loader.status = .refused (.range 7)) ∧
          (¬inSet → ownRef → t.loader.status = .refused (.range 8)) ∧
          (¬inSet → ¬ownRef → bothRoles → t.loader.status = .refused .role) ∧
          (¬inSet → ¬ownRef → ¬bothRoles → t.loader.status = .valid))) ∧
      (t.loader.status = .valid → t.startup = .joining ∧ t.cfg = readConfig img) ∧
      (t.loader.status ≠ .valid →
        t.startup = .fault ∧ t.alerts.lineA = true ∧ t.alerts.lineB = true ∧
          t.alerts.sources = s.alerts.sources ∧
          changesOnly [.startup, .loader, .alerts] s t)

/-- The transition to JOINING, taken whole: the join timer starts at 3 s; expected rows, output
assignments and enables come from the image; channels within the lane count go to WAIT, or at once to
ARMED where the signal is below the trigger level, and the others stay OFF; the probe takes its first
sample; POSTURE and TEMP_INVALID, true already, are remembered; the minute timer runs in MINUTE mode
(R1, R25, R77, R78, R121, R182, R187, R192). Said of a state with every channel OFF and the posture
JOINING, as in LOADING. -/
def Obligations.AcceptedImageStartsBlocks : Prop :=
  ∀ (s : State) (img : List Byte), settled s = true → s.startup = .loading → img.length = 256 →
    elapsed s.clock s.loader.requested ≤ 50000 → crcComputed img = crcRead img →
    imageRefusal img = none → (∀ p, (channelOf s p).state = .off) →
    s.peers.posture = .joining → s.probe.theta = none →
    ∃ t, exec (.loadReadComplete img) s = .next t ∧ t.startup = .joining ∧
      t.cfg = readConfig img ∧ t.loader.status = .valid ∧
      t.peers.joinTimer = some (later s.clock 3000000) ∧
      (∀ k, rowOf t k = { rowOf s k with expected := t.cfg.expected.at k }) ∧
      (∀ p, (channelOf t p).state =
        if p.lane.val < t.cfg.laneCount then
          (if signalAbove s p then .wait else .armed) else .off) ∧
      t.probe =
        { s.probe with
          sampleTimer := some (later s.clock 1000000), answerBy := some (later s.clock 50000) } ∧
      (∀ o, (outputOf t o).assignment = assignmentOf t.cfg o ∧
        (outputOf t o).enable = (assignmentOf t.cfg o).isSome) ∧
      (alertOf t .posture).remembered = true ∧ (alertOf t .tempInvalid).remembered = true ∧
      t.counters.minuteTimer =
        (if t.cfg.minuteMode then some (later s.clock 60000000) else none) ∧
      changesOnly [.startup, .loader, .cfg, .channels, .probe, .peers, .lamps, .entry, .alerts,
        .signs, .counters] s t

/-! ## The maintenance port (chapters 10 to 12) -/

/-- CHARACTER_RECEIVED, outside RESET. COLLECTING: a printable character is stored, the 65th of a line
discards the line; backspace and delete take the last one back; any other character that is no line end
is not stored; a line end discards a line of spaces, and takes any other line as a command. An
ungarbled line of words that spell a command, in letters of either case, gives the very state that the
command's own row gives. One that begins with no command word (LAMP and STRIP are none without RESET
and RESTORE) is refused with ERR BADCMD; one that begins with a command word, but has a word too many
or too few or a wrong keyword, with ERR BADARG, or with ERR STATE where the command is not accepted or
the station lacks its role. A line feed directly after a carriage return ends nothing. A framing error
marks the line garbled, and a garbled line is answered with ERR BADCMD. DISCARDING: a line end answers
ERR LONG and counts the long line. RESPONDING: the character is discarded and counted (R153 to R156,
R178, R186, R190, R195 to R197). The model's readings: the port is RESPONDING while ERR LONG is sent
(log entry 25); a character with a framing error is never a line end or a carriage return before a line
feed, nor counted as one in DISCARDING, and a garbled line of spaces is discarded (log entry 26); a
lane word that is no digit 1..4 is lane 0 (log entry 33). -/
def Obligations.CharactersFormLines : Prop :=
  ∀ (s : State) (c : Byte) (bad : Bool), settled s = true → s.startup ≠ .reset →
    ∃ t, exec (.characterReceived c bad) s = .next t ∧
      let after (p : Port) := t.port = { p with afterReturn := !bad && decide (c = 0x0D) } ∧
        changesOnly [.port] s t
      let ends := c = 0x0D ∨ (c = 0x0A ∧ s.port.afterReturn = false)
      (s.port.state = .collecting → bad = true → after { s.port with garbled := true }) ∧
      (s.port.state = .collecting → bad = false → 0x20 ≤ c.toNat → c.toNat ≤ 0x7E →
        (s.port.buffer.length < 64 → after { s.port with buffer := s.port.buffer ++ [c] }) ∧
          (64 ≤ s.port.buffer.length →
            after { s.port with state := .discarding, buffer := [], garbled := false })) ∧
      (s.port.state = .collecting → bad = false → c = 0x08 ∨ c = 0x7F →
        after { s.port with buffer := s.port.buffer.dropLast }) ∧
      (s.port.state = .collecting → bad = false → c.toNat < 0x20 ∨ 0x7F < c.toNat →
        c ≠ 0x08 → c ≠ 0x0A → c ≠ 0x0D → after s.port) ∧
      (s.port.state = .collecting → bad = false → c = 0x0A → s.port.afterReturn = true →
        after s.port) ∧
      (s.port.state = .collecting → bad = false → ends → (∀ b ∈ s.port.buffer, b = 0x20) →
        after { s.port with buffer := [], garbled := false }) ∧
      (s.port.state = .collecting → bad = false → ends → (∃ b ∈ s.port.buffer, b ≠ 0x20) →
        (s.port.garbled = true →
          after
            { s.port with
              state := .responding, buffer := [], garbled := false
              response := some (.err .badCmd), linesTaken := s.port.linesTaken + 1
              linesRefused := s.port.linesRefused + 1 }) ∧
        (s.port.garbled = false →
          let said := wordsTyped s.port.buffer
          let begins (words : List String) := words.map ascii <+: said
          let refused (e : ErrorCode) :=
            after
              { s.port with
                state := .responding, buffer := [], response := some (.err e)
                linesTaken := s.port.linesTaken + 1, linesRefused := s.port.linesRefused + 1 }
          t.port.state = .responding ∧ t.port.buffer = [] ∧ t.port.response.isSome = true ∧
            t.port.linesTaken = s.port.linesTaken + 1 ∧
            (∀ i, typedAs said i →
              exec i { s with port := { s.port with afterReturn := decide (c = 0x0D) } } =
                .next t) ∧
            ((∀ w ∈ commandWords, ¬begins w.1) → refused .badCmd) ∧
            (∀ w ∈ commandWords, begins w.1 → (∀ i, ¬typedAs said i) →
              refused (wrongAnswer s w.2.1 w.2.2)))) ∧
      (s.port.state = .discarding → bad = false → c = 0x0D ∨ c = 0x0A →
        after
          { s.port with
            state := .responding, response := some (.err .long)
            longLines := s.port.longLines + 1 }) ∧
      (s.port.state = .discarding → bad = true ∨ (c ≠ 0x0D ∧ c ≠ 0x0A) → after s.port) ∧
      (s.port.state = .responding → after { s.port with discarded := s.port.discarded + 1 })

/-- STATUS, CONFIG, PEERS, APPROACH, QUEUE, SPAN, ALERTS, COUNTS, HEALTH and TRIM in JOINING and
RUNNING print the records of the moment their line is taken, answered OK, and change nothing but the
port; QUEUE and SPAN at an ENTRY station, QUEUE for a lane within the lane count (R89, R114, R156,
R166, R179, R186, R193, R194, R196, R197). -/
def Obligations.PrintingCommandsChangeOnlyPort : Prop :=
  ∀ (s : State) (c : Instr) (print : State → List PrintedRecord), settled s = true →
    portReady s = true → working s = true →
    (c, print) ∈
        [(Instr.status, statusRecords), (.config, configRecords), (.peers, peersRecords),
          (.approach, approachRecords), (.alerts, alertsRecords), (.counts, countsRecords),
          (.health, healthRecords), (.trim, trimRecords)] ∨
      (s.cfg.entry = true ∧ c = .span ∧ print = spanRecords) ∨
      (s.cfg.entry = true ∧
        ∃ l, laneInUse s l = true ∧ c = .queue (laneNumber l) ∧ print = (queueRecords · l)) →
    ∃ t, exec c s = .next t ∧
      t.port =
        { s.port with
          state := .responding, buffer := [], garbled := false
          response := some (.ok (print
            { s with port :=
              { s.port with
                state := .responding, buffer := [], garbled := false
                linesTaken := s.port.linesTaken + 1 } }))
          linesTaken := s.port.linesTaken + 1 } ∧
      changesOnly [.port] s t

/-- CLEAR name clears the sticky of one source and CLEAR ALL that of every source, both answered OK;
counts, remembered raws and configuration are not touched, but a LEVEL condition source whose raw
state is true has its sticky set again at once and is counted once more. A name that is not one of
the 24 is refused with ERR BADARG (R190). -/
def Obligations.ClearTakesStickies : Prop :=
  ∀ s : State, settled s = true → portReady s = true → working s = true →
    let answered (r : Response) :=
      { s.port with
        state := .responding, buffer := [], garbled := false, response := some r
        linesTaken := s.port.linesTaken + 1 }
    (∀ (c : Instr) (named : AlertSource → Prop),
      (c = .clearAll ∧ ∀ y, named y) ∨ (∃ x, c = .clear (some x) ∧ ∀ y, named y ↔ y = x) →
      ∃ t, exec c s = .next t ∧ t.port = answered (.ok []) ∧
        (∀ y, named y →
          alertOf t y =
            if isCondition y = true ∧ triggerOf s y = .level ∧ rawState s y = true then
              { alertOf s y with sticky := true, count := (alertOf s y).count + 1 }
            else { alertOf s y with sticky := false }) ∧
        (∀ y, ¬named y → alertOf t y = alertOf s y) ∧ changesOnly [.port, .alerts] s t) ∧
    ∃ t, exec (.clear none) s = .next t ∧
      t.port = { answered (.err .badArg) with linesRefused := s.port.linesRefused + 1 } ∧
      changesOnly [.port] s t

/-- HEALTH STEP in IDLE clears every strip's indication record, conditions and runs staying, and the
monitor becomes LISTEN with the walk position as it was; the answer is OK and names LISTEN, no strip
and the clock (R175). In LISTEN and READOUT it presents the first strip that holds an indication, in
the order 1L, 1T, 2L to 4T: in LISTEN from 1L, in READOUT from the strip after the walk position on to
4T, then from 1L, the walk position itself last. The answer names READOUT, that strip and the clock,
with the strip's condition and its record as it was; the record is cleared, the strip is the walk
position, and the monitor is READOUT. With none the answer names LISTEN and no strip, and the monitor
is LISTEN with no walk position (R176). The names and the order of records and fields are the model's
choice (log entry 14), and so are the state that the answer names from LISTEN or READOUT, and the clock
from IDLE (log entry 49). -/
def Obligations.HealthStepListensAndWalks : Prop :=
  ∀ s : State, settled s = true → portReady s = true → working s = true →
    let cleared (h : StripHealth) : StripHealth :=
      { failed := h.failed, silenceRun := h.silenceRun, clipRun := h.clipRun, hard := none
        hardTime := none, hardOverflow := false, soft := false, softTime := none
        softOverflow := false }
    let heading (state : String) (strip : Value) : PrintedRecord :=
      { name := "HEALTH", key := .absent
        fields := [("STATE", .name state), ("STRIP", strip), ("CLOCK", .number s.clock.toNat)] }
    let reading (time : Option Clock) : Value :=
      match time with
      | some t => .number t.toNat
      | none => .absent
    let yes (b : Bool) : Value := .name (if b then "YES" else "NO")
    let presented (p : Strip) : PrintedRecord :=
      { name := "STRIP", key := .name (stripName p)
        fields :=
          [("CONDITION", .name (if (healthOf s p).failed then "FAILED" else "GOOD")),
            ("HARD", yes (healthOf s p).hard.isSome),
            ("HARD_CAUSE", match (healthOf s p).hard with
              | some .silent => .name "SILENT"
              | some .clipped => .name "CLIPPED"
              | some .stuck => .name "STUCK"
              | none => .absent),
            ("HARD_TIME", reading (healthOf s p).hardTime),
            ("HARD_OVERFLOW", yes (healthOf s p).hardOverflow), ("SOFT", yes (healthOf s p).soft),
            ("SOFT_TIME", reading (healthOf s p).softTime),
            ("SOFT_OVERFLOW", yes (healthOf s p).softOverflow)] }
    -- how far down the search a strip stands
    let place (p : Strip) : Nat := 2 * p.lane.val + (if p.pos = .lead then 0 else 1)
    let turn (p : Strip) : Nat :=
      match s.health.state, s.health.walk with
      | .readout, some w => (place p + 7 - place w) % 8
      | _, _ => place p
    ∃ (t : State) (records : List PrintedRecord), exec .healthStep s = .next t ∧
      t.port = answered s (.ok records) ∧
      (∀ y, y ≠ .health → alertOf t y = alertOf s y) ∧
      changesOnly [.port, .health, .alerts] s t ∧
      (s.health.state = .idle →
        (∀ p, healthOf t p = cleared (healthOf s p)) ∧ t.health.state = .listen ∧
          t.health.walk = s.health.walk ∧ t.alerts = s.alerts ∧
          records = [heading "LISTEN" .absent]) ∧
      (s.health.state ≠ .idle → ∀ p : Strip, (healthOf s p).indicates = true →
        (∀ q, turn q < turn p → (healthOf s q).indicates = false) →
        healthOf t p = cleared (healthOf s p) ∧ (∀ q, q ≠ p → healthOf t q = healthOf s q) ∧
          t.health.state = .readout ∧ t.health.walk = some p ∧
          records = [heading "READOUT" (.name (stripName p)), presented p]) ∧
      (s.health.state ≠ .idle → (∀ p, (healthOf s p).indicates = false) →
        t.health.strips = s.health.strips ∧ t.health.state = .listen ∧ t.health.walk = none ∧
          records = [heading "LISTEN" .absent])

/-- STRIP RESTORE id of a FAILED strip within the lane count is answered OK: the strip becomes GOOD
with its silence and clip runs 0, its indication record staying, and its lane is DUAL, or SINGLE while
the other strip is FAILED (R174, R178). -/
def Obligations.StripRestoreMakesGood : Prop :=
  ∀ (s : State) (p : Strip), settled s = true → portReady s = true → working s = true →
    laneInUse s p.lane = true → stripFailed s p = true →
    ∃ t, exec (.stripRestore (some p)) s = .next t ∧
      t.port =
        { s.port with
          state := .responding, buffer := [], garbled := false, response := some (.ok [])
          linesTaken := s.port.linesTaken + 1 } ∧
      healthOf t p = { healthOf s p with failed := false, silenceRun := 0, clipRun := 0 } ∧
      (∀ q, q ≠ p → healthOf t q = healthOf s q) ∧
      t.health.state = s.health.state ∧ t.health.walk = s.health.walk ∧
      laneMode t p.lane = (if laneMode s p.lane = .blind then .single else .dual) ∧
      followsOnly s t ∧ changesOnly [.port, .health, .signs, .lamps, .entry, .alerts] s t

/-- RESTART is answered OK in every start-up state but RESET, and the station goes on until its reset.
RESPONSE_SENT returns the port to COLLECTING with an empty buffer, and after the OK to RESTART makes
the reset due (R184, R186, R195). The two phases, answer in progress and reset due, are the model's,
and RESTART_RESET is taken in either (log entry 27). -/
def Obligations.RestartIsAnsweredBeforeReset : Prop :=
  ∀ s : State, settled s = true →
    (portReady s = true →
      ∃ t, exec .restart s = .next t ∧ t.startup = s.startup ∧
        t.port =
          { s.port with
            state := .responding, buffer := [], garbled := false, response := some (.ok [])
            restart := .answering, linesTaken := s.port.linesTaken + 1 } ∧
        changesOnly [.port] s t) ∧
    (s.port.state = .responding →
      ∃ t, exec .responseSent s = .next t ∧
        t.port =
          { s.port with
            state := .collecting, buffer := [], garbled := false, response := none
            restart := if s.port.restart = .none then .none else .due } ∧
        changesOnly [.port] s t)

/-- A refused command changes nothing but the port, which answers ERR with the code and counts the line
as taken and as refused. ERR STATE: every command but STATUS and RESTART in LOADING, and but CONFIG too
in FAULT; QUEUE, SPAN, RELEASE and FORGET without the ENTRY role; LAMP RESET with neither DIVERT nor
ENTRY; RELEASE ADMIT of a head that is not STOP, RELEASE REMOVE of one neither STOP nor HELD; STRIP
RESTORE of a GOOD strip. ERR BADARG: a lane beyond the lane count, a tag not in the span set or not in
its form, a strip beyond the lane count or not in its form (R126, R153 to R156, R178, R186, R196). -/
def Obligations.RefusedCommandsChangeNothing : Prop :=
  ∀ (s : State) (c : Instr) (e : ErrorCode), settled s = true → portReady s = true →
    (e = .state ∧ working s = false ∧
        (c ∈ [.peers, .approach, .span, .alerts, .clearAll, .counts, .health, .healthStep, .trim] ∨
          ∃ n x g p, c ∈ [.queue n, .clear x, .releaseAdmit n, .releaseRemove n, .forget g,
            .lampReset n, .stripRestore p])) ∨
      (e = .state ∧ s.startup = .loading ∧ c = .config) ∨
      (e = .state ∧ working s = true ∧ s.cfg.entry = false ∧
        ∃ n g, c ∈ [.queue n, .span, .releaseAdmit n, .releaseRemove n, .forget g]) ∨
      (e = .state ∧ working s = true ∧ s.cfg.entry = false ∧ s.cfg.divert = false ∧
        ∃ n, c = .lampReset n) ∨
      (e = .state ∧ ∃ l, laneActs s l = true ∧ (stopLine s l).head ≠ .stop ∧
        (c = .releaseAdmit (laneNumber l) ∨
          (c = .releaseRemove (laneNumber l) ∧ holdTime s l = none))) ∨
      (e = .state ∧ working s = true ∧
        ∃ p, c = .stripRestore (some p) ∧ laneInUse s p.lane = true ∧ stripFailed s p = false) ∨
      (e = .badArg ∧ working s = true ∧ s.cfg.entry = true ∧
        ∃ n, (n = 0 ∨ s.cfg.laneCount < n) ∧
          c ∈ [.queue n, .releaseAdmit n, .releaseRemove n, .lampReset n]) ∨
      (e = .badArg ∧ working s = true ∧ s.cfg.divert = true ∧
        ∃ n, (n = 0 ∨ s.cfg.laneCount < n) ∧ c = .lampReset n) ∨
      (e = .badArg ∧ working s = true ∧ s.cfg.entry = true ∧
        ∃ g, c = .forget g ∧ ∀ x ∈ s.entry.span, g ≠ some x.tag) ∨
      (e = .badArg ∧ working s = true ∧
        ∃ p, c = .stripRestore p ∧ ∀ q, p = some q → laneInUse s q.lane = false) →
    ∃ t, exec c s = .next t ∧
      t.port =
        { s.port with
          state := .responding, buffer := [], garbled := false, response := some (.err e)
          linesTaken := s.port.linesTaken + 1, linesRefused := s.port.linesRefused + 1 } ∧
      changesOnly [.port] s t

end Statements
end

