-- ==== Sys2Proof/Laws/Exec.lean ====
section
/-! SUPPORT. What a command, and a step, can do: there is no fault and no refusal, and every event
either leaves the state as it is or ends in `settle`. -/

namespace Sys2Proof.Machine

/-- The two outcomes of a command: nothing changes, or what it did is settled. -/
def Settles (s : State) (r : Result) : Prop := r = .next s ∨ ∃ u, r = .next (settle u)

theorem settles_noEvent (s : State) : Settles s (noEvent s) := Or.inl rfl

theorem settles_done (s u : State) : Settles s (done u) := Or.inr ⟨u, rfl⟩

theorem settles_portCommand (c : PortCommand) (s : State) : Settles s (portCommand c s) := by
  unfold portCommand
  split
  · exact settles_done _ _
  · exact settles_noEvent _

/-- Every command leaves the state as it is or ends in `settle`. -/
theorem exec_settles (i : Instr) (s : State) : Settles s (exec i s) := by
  cases i <;> simp only [exec]
  case signalBelowTrigger p =>
    unfold execSignalBelowTrigger; split <;> first | exact settles_done _ _ | exact settles_noEvent _
  case pulseStart p =>
    unfold execPulseStart; split <;> first | exact settles_done _ _ | exact settles_noEvent _
  case pulseEnd p l =>
    simp only [execPulseEnd]; split <;> first | exact settles_done _ _ | exact settles_noEvent _
  case stuckReport =>
    unfold execStuckReport; split <;> first | exact settles_done _ _ | exact settles_noEvent _
  case coincidenceTimerExpiry =>
    unfold execCoincidenceTimerExpiry; repeat' split
    all_goals first | exact settles_done _ _ | exact settles_noEvent _
  case leadExpiry =>
    unfold execLeadExpiry; repeat' split
    all_goals first | exact settles_done _ _ | exact settles_noEvent _
  case closeTimerExpiry =>
    unfold execCloseTimerExpiry; repeat' split
    all_goals first | exact settles_done _ _ | exact settles_noEvent _
  case contentionIdleReached =>
    unfold execContentionIdleReached; repeat' split
    all_goals first | exact settles_done _ _ | exact settles_noEvent _
  case collision =>
    simp only [execCollision]; repeat' split
    all_goals first | exact settles_done _ _ | exact settles_noEvent _
  case attemptEnd =>
    simp only [execAttemptEnd]; repeat' split
    all_goals first | exact settles_done _ _ | exact settles_noEvent _
  case receiptWaitExpiry =>
    unfold execReceiptWaitExpiry; repeat' split
    all_goals first | exact settles_done _ _ | exact settles_noEvent _
  case badFrame =>
    unfold execBadFrame; split <;> first | exact settles_done _ _ | exact settles_noEvent _
  case frameReceived =>
    unfold execFrameReceived; split <;> first | exact settles_done _ _ | exact settles_noEvent _
  case receiptStart =>
    unfold execReceiptStart; repeat' split
    all_goals first | exact settles_done _ _ | exact settles_noEvent _
  case receiptAbandoned =>
    unfold execReceiptAbandoned; split <;> first | exact settles_done _ _ | exact settles_noEvent _
  case noticeHandlingComplete =>
    unfold execNoticeHandlingComplete; split <;> first | exact settles_done _ _ | exact settles_noEvent _
  case windowCloseExpiry =>
    unfold execWindowCloseExpiry; repeat' split
    all_goals first | exact settles_done _ _ | exact settles_noEvent _
  case joinTimerExpiry =>
    unfold execJoinTimerExpiry; split <;> first | exact settles_done _ _ | exact settles_noEvent _
  case beaconTimerExpiry =>
    unfold execBeaconTimerExpiry; split <;> first | exact settles_done _ _ | exact settles_noEvent _
  case silenceTimerExpiry =>
    unfold execSilenceTimerExpiry; split <;> first | exact settles_done _ _ | exact settles_noEvent _
  case probeSampleTimer =>
    unfold execProbeSampleTimer; split <;> first | exact settles_done _ _ | exact settles_noEvent _
  case probeAnswer =>
    unfold execProbeAnswer; repeat' split
    all_goals first | exact settles_done _ _ | exact settles_noEvent _
  case probeAnswerTimeout =>
    unfold execProbeAnswerTimeout; split <;> first | exact settles_done _ _ | exact settles_noEvent _
  case holdTimerExpiry =>
    unfold execHoldTimerExpiry; split <;> first | exact settles_done _ _ | exact settles_noEvent _
  case signTimerExpiry =>
    unfold execSignTimerExpiry; split <;> first | exact settles_done _ _ | exact settles_noEvent _
  case blinkPhaseToggle =>
    unfold execBlinkPhaseToggle; repeat' split
    all_goals first | exact settles_done _ _ | exact settles_noEvent _
  case overcurrent =>
    unfold execOvercurrent; split <;> first | exact settles_done _ _ | exact settles_noEvent _
  case currentBelowThreshold =>
    simp only [execCurrentBelowThreshold]
    split <;> first | exact settles_done _ _ | exact settles_noEvent _
  case blankingEnd =>
    simp only [execBlankingEnd]; split <;> first | exact settles_done _ _ | exact settles_noEvent _
  case openTimerExpiry =>
    simp only [execOpenTimerExpiry]; split <;> first | exact settles_done _ _ | exact settles_noEvent _
  case provingTimerExpiry =>
    unfold execProvingTimerExpiry; split <;> first | exact settles_done _ _ | exact settles_noEvent _
  case presenceInputChange =>
    simp only [execPresenceInputChange]; split <;> exact settles_done _ _
  case presenceSettled =>
    simp only [execPresenceSettled]; split <;> first | exact settles_done _ _ | exact settles_noEvent _
  case amberTimerExpiry =>
    unfold execAmberTimerExpiry; split <;> first | exact settles_done _ _ | exact settles_noEvent _
  case recoveryTimerExpiry =>
    simp only [execRecoveryTimerExpiry]
    split <;> first | exact settles_done _ _ | exact settles_noEvent _
  case spanDeadline =>
    unfold execSpanDeadline; repeat' split
    all_goals first | exact settles_done _ _ | exact settles_noEvent _
  case minuteTimerExpiry =>
    unfold execMinuteTimerExpiry; split <;> first | exact settles_done _ _ | exact settles_noEvent _
  case powerOn => exact settles_done _ _
  case supplyDip => exact settles_done _ _
  case resetLine => exact settles_done _ _
  case restartReset =>
    unfold execRestartReset; split <;> first | exact settles_done _ _ | exact settles_noEvent _
  case resetEnd =>
    unfold execResetEnd; split <;> first | exact settles_done _ _ | exact settles_noEvent _
  case loadReadComplete =>
    unfold execLoadReadComplete; split <;> first | exact settles_done _ _ | exact settles_noEvent _
  case loadReadTimeout =>
    unfold execLoadReadTimeout; repeat' split
    all_goals first | exact settles_done _ _ | exact settles_noEvent _
  case characterReceived =>
    simp only [execCharacterReceived]
    split <;> first | exact settles_done _ _ | exact settles_noEvent _
  case responseSent =>
    unfold execResponseSent; split <;> first | exact settles_done _ _ | exact settles_noEvent _
  case lineGoesBusy =>
    unfold execLineGoesBusy; split <;> first | exact settles_done _ _ | exact settles_noEvent _
  case receiptEnd =>
    unfold execReceiptEnd; split <;> first | exact settles_done _ _ | exact settles_noEvent _
  case currentRisesToThreshold =>
    simp only [execCurrentRisesToThreshold]
    split <;> first | exact settles_done _ _ | exact settles_noEvent _
  all_goals exact settles_portCommand _ _

/-! ## A step with no command waiting -/

/-- With no command waiting a step is one tick of the clock. -/
theorem step_idle {s : State} (h : s.pending = []) : step s = .next (tick s) := by
  simp only [step, h]

@[simp] theorem tick_clock (s : State) : (tick s).clock = s.clock + 1 := rfl

@[simp] theorem tick_restartHold (s : State) :
    (tick s).restartHold = if due (s.clock + 1) s.restartHold then none else s.restartHold := rfl

/-- A tick touches the clock and the hold of a RESTART alone. -/
theorem tick_touches (s : State) : changesOnly [.clock, .restartHold] s (tick s) := by
  intro b hb; cases b <;> first | rfl | simp at hb

/-! ## Frames looked for (R56) -/

theorem looksForFrame_idle {s : State} {t : Clock} (h : s.line.idleSince = some t) :
    looksForFrame s = idleFor s 2 := by
  simp only [looksForFrame, h]

theorem looksForFrame_busy {s : State} (h : s.line.idleSince = none) :
    looksForFrame s = s.line.looking := by
  simp only [looksForFrame, h]

end Sys2Proof.Machine
end

