-- ==== Sys2Proof/Laws/Tab.lean ====
section
/-! SUPPORT. The laws of the fixed-length tables: read after write, and equality place by place. -/

namespace Sys2Proof

@[simp] theorem Tab.at_put_self {α : Type} {n : Nat} (t : Tab α n) (i : Fin n) (x : α) :
    (t.put i x).at i = x := by
  simp [Tab.at, Tab.put]

theorem Tab.at_put_ne {α : Type} {n : Nat} (t : Tab α n) {i k : Fin n} (x : α) (h : k ≠ i) :
    (t.put i x).at k = t.at k := by
  have : i.val ≠ k.val := fun e => h (Fin.ext e.symm)
  simp [Tab.at, Tab.put, this]

theorem Tab.at_put {α : Type} {n : Nat} (t : Tab α n) (i k : Fin n) (x : α) :
    (t.put i x).at k = if k = i then x else t.at k := by
  by_cases h : k = i
  · subst h; simp
  · simp [Tab.at_put_ne _ _ h, h]

@[simp] theorem Tab.at_make {α : Type} {n : Nat} (f : Fin n → α) (i : Fin n) :
    (Tab.make n f).at i = f i := by
  simp [Tab.at, Tab.make]

@[simp] theorem Tab.at_fill {α : Type} {n : Nat} (x : α) (i : Fin n) :
    (Tab.fill n x).at i = x := by
  simp [Tab.at, Tab.fill]

@[simp] theorem Tab.at_upd_self {α : Type} {n : Nat} (t : Tab α n) (i : Fin n) (f : α → α) :
    (t.upd i f).at i = f (t.at i) := by
  simp [Tab.upd]

theorem Tab.at_upd_ne {α : Type} {n : Nat} (t : Tab α n) {i k : Fin n} (f : α → α) (h : k ≠ i) :
    (t.upd i f).at k = t.at k := by
  simp [Tab.upd, Tab.at_put_ne _ _ h]

/-- Two tables that hold the same at every place are equal. -/
theorem Tab.ext_at {α : Type} {n : Nat} {a b : Tab α n} (h : ∀ i, a.at i = b.at i) : a = b := by
  apply Vector.ext
  intro i hi
  exact h ⟨i, hi⟩

/-- A table made from what another holds is that table. -/
theorem Tab.make_at {α : Type} {n : Nat} (t : Tab α n) {f : Fin n → α} (h : ∀ i, f i = t.at i) :
    Tab.make n f = t := Tab.ext_at fun i => by simp [h]

@[simp] theorem Tab.put_at {α : Type} {n : Nat} (t : Tab α n) (i : Fin n) : t.put i (t.at i) = t :=
  Tab.ext_at fun k => by
    by_cases h : k = i
    · subst h; simp
    · simp [Tab.at_put_ne _ _ h]

end Sys2Proof
end

