-- ==== Sys2Proof/Laws/State.lean ====
section
/-! SUPPORT. One lemma per field and named update of the state: each update writes one part and leaves
every other part as it was; and what the written part then holds. -/

namespace Sys2Proof.Machine

/-! `setChannel` writes `channels` only. -/

@[simp] theorem setChannel_pending (p : Strip) (c : Channel) (s : State) :
    (setChannel p c s).pending = s.pending := rfl

@[simp] theorem setChannel_clock (p : Strip) (c : Channel) (s : State) :
    (setChannel p c s).clock = s.clock := rfl

@[simp] theorem setChannel_startup (p : Strip) (c : Channel) (s : State) :
    (setChannel p c s).startup = s.startup := rfl

@[simp] theorem setChannel_pendingCause (p : Strip) (c : Channel) (s : State) :
    (setChannel p c s).pendingCause = s.pendingCause := rfl

@[simp] theorem setChannel_restartHold (p : Strip) (c : Channel) (s : State) :
    (setChannel p c s).restartHold = s.restartHold := rfl

@[simp] theorem setChannel_loader (p : Strip) (c : Channel) (s : State) :
    (setChannel p c s).loader = s.loader := rfl

@[simp] theorem setChannel_cfg (p : Strip) (c : Channel) (s : State) :
    (setChannel p c s).cfg = s.cfg := rfl

@[simp] theorem setChannel_store (p : Strip) (c : Channel) (s : State) :
    (setChannel p c s).store = s.store := rfl

@[simp] theorem setChannel_inputs (p : Strip) (c : Channel) (s : State) :
    (setChannel p c s).inputs = s.inputs := rfl

@[simp] theorem setChannel_pairing (p : Strip) (c : Channel) (s : State) :
    (setChannel p c s).pairing = s.pairing := rfl

@[simp] theorem setChannel_probe (p : Strip) (c : Channel) (s : State) :
    (setChannel p c s).probe = s.probe := rfl

@[simp] theorem setChannel_vehicles (p : Strip) (c : Channel) (s : State) :
    (setChannel p c s).vehicles = s.vehicles := rfl

@[simp] theorem setChannel_nextSerial (p : Strip) (c : Channel) (s : State) :
    (setChannel p c s).nextSerial = s.nextSerial := rfl

@[simp] theorem setChannel_line (p : Strip) (c : Channel) (s : State) :
    (setChannel p c s).line = s.line := rfl

@[simp] theorem setChannel_peers (p : Strip) (c : Channel) (s : State) :
    (setChannel p c s).peers = s.peers := rfl

@[simp] theorem setChannel_approach (p : Strip) (c : Channel) (s : State) :
    (setChannel p c s).approach = s.approach := rfl

@[simp] theorem setChannel_signs (p : Strip) (c : Channel) (s : State) :
    (setChannel p c s).signs = s.signs := rfl

@[simp] theorem setChannel_lamps (p : Strip) (c : Channel) (s : State) :
    (setChannel p c s).lamps = s.lamps := rfl

@[simp] theorem setChannel_entry (p : Strip) (c : Channel) (s : State) :
    (setChannel p c s).entry = s.entry := rfl

@[simp] theorem setChannel_trim (p : Strip) (c : Channel) (s : State) :
    (setChannel p c s).trim = s.trim := rfl

@[simp] theorem setChannel_health (p : Strip) (c : Channel) (s : State) :
    (setChannel p c s).health = s.health := rfl

@[simp] theorem setChannel_alerts (p : Strip) (c : Channel) (s : State) :
    (setChannel p c s).alerts = s.alerts := rfl

@[simp] theorem setChannel_counters (p : Strip) (c : Channel) (s : State) :
    (setChannel p c s).counters = s.counters := rfl

@[simp] theorem setChannel_port (p : Strip) (c : Channel) (s : State) :
    (setChannel p c s).port = s.port := rfl

/-! `setSignal` writes `inputs` only. -/

@[simp] theorem setSignal_pending (p : Strip) (b : Bool) (s : State) :
    (setSignal p b s).pending = s.pending := rfl

@[simp] theorem setSignal_clock (p : Strip) (b : Bool) (s : State) :
    (setSignal p b s).clock = s.clock := rfl

@[simp] theorem setSignal_startup (p : Strip) (b : Bool) (s : State) :
    (setSignal p b s).startup = s.startup := rfl

@[simp] theorem setSignal_pendingCause (p : Strip) (b : Bool) (s : State) :
    (setSignal p b s).pendingCause = s.pendingCause := rfl

@[simp] theorem setSignal_restartHold (p : Strip) (b : Bool) (s : State) :
    (setSignal p b s).restartHold = s.restartHold := rfl

@[simp] theorem setSignal_loader (p : Strip) (b : Bool) (s : State) :
    (setSignal p b s).loader = s.loader := rfl

@[simp] theorem setSignal_cfg (p : Strip) (b : Bool) (s : State) :
    (setSignal p b s).cfg = s.cfg := rfl

@[simp] theorem setSignal_store (p : Strip) (b : Bool) (s : State) :
    (setSignal p b s).store = s.store := rfl

@[simp] theorem setSignal_channels (p : Strip) (b : Bool) (s : State) :
    (setSignal p b s).channels = s.channels := rfl

@[simp] theorem setSignal_pairing (p : Strip) (b : Bool) (s : State) :
    (setSignal p b s).pairing = s.pairing := rfl

@[simp] theorem setSignal_probe (p : Strip) (b : Bool) (s : State) :
    (setSignal p b s).probe = s.probe := rfl

@[simp] theorem setSignal_vehicles (p : Strip) (b : Bool) (s : State) :
    (setSignal p b s).vehicles = s.vehicles := rfl

@[simp] theorem setSignal_nextSerial (p : Strip) (b : Bool) (s : State) :
    (setSignal p b s).nextSerial = s.nextSerial := rfl

@[simp] theorem setSignal_line (p : Strip) (b : Bool) (s : State) :
    (setSignal p b s).line = s.line := rfl

@[simp] theorem setSignal_peers (p : Strip) (b : Bool) (s : State) :
    (setSignal p b s).peers = s.peers := rfl

@[simp] theorem setSignal_approach (p : Strip) (b : Bool) (s : State) :
    (setSignal p b s).approach = s.approach := rfl

@[simp] theorem setSignal_signs (p : Strip) (b : Bool) (s : State) :
    (setSignal p b s).signs = s.signs := rfl

@[simp] theorem setSignal_lamps (p : Strip) (b : Bool) (s : State) :
    (setSignal p b s).lamps = s.lamps := rfl

@[simp] theorem setSignal_entry (p : Strip) (b : Bool) (s : State) :
    (setSignal p b s).entry = s.entry := rfl

@[simp] theorem setSignal_trim (p : Strip) (b : Bool) (s : State) :
    (setSignal p b s).trim = s.trim := rfl

@[simp] theorem setSignal_health (p : Strip) (b : Bool) (s : State) :
    (setSignal p b s).health = s.health := rfl

@[simp] theorem setSignal_alerts (p : Strip) (b : Bool) (s : State) :
    (setSignal p b s).alerts = s.alerts := rfl

@[simp] theorem setSignal_counters (p : Strip) (b : Bool) (s : State) :
    (setSignal p b s).counters = s.counters := rfl

@[simp] theorem setSignal_port (p : Strip) (b : Bool) (s : State) :
    (setSignal p b s).port = s.port := rfl

/-! `setHealth` writes `health` only. -/

@[simp] theorem setHealth_pending (p : Strip) (h : StripHealth) (s : State) :
    (setHealth p h s).pending = s.pending := rfl

@[simp] theorem setHealth_clock (p : Strip) (h : StripHealth) (s : State) :
    (setHealth p h s).clock = s.clock := rfl

@[simp] theorem setHealth_startup (p : Strip) (h : StripHealth) (s : State) :
    (setHealth p h s).startup = s.startup := rfl

@[simp] theorem setHealth_pendingCause (p : Strip) (h : StripHealth) (s : State) :
    (setHealth p h s).pendingCause = s.pendingCause := rfl

@[simp] theorem setHealth_restartHold (p : Strip) (h : StripHealth) (s : State) :
    (setHealth p h s).restartHold = s.restartHold := rfl

@[simp] theorem setHealth_loader (p : Strip) (h : StripHealth) (s : State) :
    (setHealth p h s).loader = s.loader := rfl

@[simp] theorem setHealth_cfg (p : Strip) (h : StripHealth) (s : State) :
    (setHealth p h s).cfg = s.cfg := rfl

@[simp] theorem setHealth_store (p : Strip) (h : StripHealth) (s : State) :
    (setHealth p h s).store = s.store := rfl

@[simp] theorem setHealth_inputs (p : Strip) (h : StripHealth) (s : State) :
    (setHealth p h s).inputs = s.inputs := rfl

@[simp] theorem setHealth_channels (p : Strip) (h : StripHealth) (s : State) :
    (setHealth p h s).channels = s.channels := rfl

@[simp] theorem setHealth_pairing (p : Strip) (h : StripHealth) (s : State) :
    (setHealth p h s).pairing = s.pairing := rfl

@[simp] theorem setHealth_probe (p : Strip) (h : StripHealth) (s : State) :
    (setHealth p h s).probe = s.probe := rfl

@[simp] theorem setHealth_vehicles (p : Strip) (h : StripHealth) (s : State) :
    (setHealth p h s).vehicles = s.vehicles := rfl

@[simp] theorem setHealth_nextSerial (p : Strip) (h : StripHealth) (s : State) :
    (setHealth p h s).nextSerial = s.nextSerial := rfl

@[simp] theorem setHealth_line (p : Strip) (h : StripHealth) (s : State) :
    (setHealth p h s).line = s.line := rfl

@[simp] theorem setHealth_peers (p : Strip) (h : StripHealth) (s : State) :
    (setHealth p h s).peers = s.peers := rfl

@[simp] theorem setHealth_approach (p : Strip) (h : StripHealth) (s : State) :
    (setHealth p h s).approach = s.approach := rfl

@[simp] theorem setHealth_signs (p : Strip) (h : StripHealth) (s : State) :
    (setHealth p h s).signs = s.signs := rfl

@[simp] theorem setHealth_lamps (p : Strip) (h : StripHealth) (s : State) :
    (setHealth p h s).lamps = s.lamps := rfl

@[simp] theorem setHealth_entry (p : Strip) (h : StripHealth) (s : State) :
    (setHealth p h s).entry = s.entry := rfl

@[simp] theorem setHealth_trim (p : Strip) (h : StripHealth) (s : State) :
    (setHealth p h s).trim = s.trim := rfl

@[simp] theorem setHealth_alerts (p : Strip) (h : StripHealth) (s : State) :
    (setHealth p h s).alerts = s.alerts := rfl

@[simp] theorem setHealth_counters (p : Strip) (h : StripHealth) (s : State) :
    (setHealth p h s).counters = s.counters := rfl

@[simp] theorem setHealth_port (p : Strip) (h : StripHealth) (s : State) :
    (setHealth p h s).port = s.port := rfl

/-! `setPairing` writes `pairing` only. -/

@[simp] theorem setPairing_pending (l : Lane) (u : PairingUnit) (s : State) :
    (setPairing l u s).pending = s.pending := rfl

@[simp] theorem setPairing_clock (l : Lane) (u : PairingUnit) (s : State) :
    (setPairing l u s).clock = s.clock := rfl

@[simp] theorem setPairing_startup (l : Lane) (u : PairingUnit) (s : State) :
    (setPairing l u s).startup = s.startup := rfl

@[simp] theorem setPairing_pendingCause (l : Lane) (u : PairingUnit) (s : State) :
    (setPairing l u s).pendingCause = s.pendingCause := rfl

@[simp] theorem setPairing_restartHold (l : Lane) (u : PairingUnit) (s : State) :
    (setPairing l u s).restartHold = s.restartHold := rfl

@[simp] theorem setPairing_loader (l : Lane) (u : PairingUnit) (s : State) :
    (setPairing l u s).loader = s.loader := rfl

@[simp] theorem setPairing_cfg (l : Lane) (u : PairingUnit) (s : State) :
    (setPairing l u s).cfg = s.cfg := rfl

@[simp] theorem setPairing_store (l : Lane) (u : PairingUnit) (s : State) :
    (setPairing l u s).store = s.store := rfl

@[simp] theorem setPairing_inputs (l : Lane) (u : PairingUnit) (s : State) :
    (setPairing l u s).inputs = s.inputs := rfl

@[simp] theorem setPairing_channels (l : Lane) (u : PairingUnit) (s : State) :
    (setPairing l u s).channels = s.channels := rfl

@[simp] theorem setPairing_probe (l : Lane) (u : PairingUnit) (s : State) :
    (setPairing l u s).probe = s.probe := rfl

@[simp] theorem setPairing_vehicles (l : Lane) (u : PairingUnit) (s : State) :
    (setPairing l u s).vehicles = s.vehicles := rfl

@[simp] theorem setPairing_nextSerial (l : Lane) (u : PairingUnit) (s : State) :
    (setPairing l u s).nextSerial = s.nextSerial := rfl

@[simp] theorem setPairing_line (l : Lane) (u : PairingUnit) (s : State) :
    (setPairing l u s).line = s.line := rfl

@[simp] theorem setPairing_peers (l : Lane) (u : PairingUnit) (s : State) :
    (setPairing l u s).peers = s.peers := rfl

@[simp] theorem setPairing_approach (l : Lane) (u : PairingUnit) (s : State) :
    (setPairing l u s).approach = s.approach := rfl

@[simp] theorem setPairing_signs (l : Lane) (u : PairingUnit) (s : State) :
    (setPairing l u s).signs = s.signs := rfl

@[simp] theorem setPairing_lamps (l : Lane) (u : PairingUnit) (s : State) :
    (setPairing l u s).lamps = s.lamps := rfl

@[simp] theorem setPairing_entry (l : Lane) (u : PairingUnit) (s : State) :
    (setPairing l u s).entry = s.entry := rfl

@[simp] theorem setPairing_trim (l : Lane) (u : PairingUnit) (s : State) :
    (setPairing l u s).trim = s.trim := rfl

@[simp] theorem setPairing_health (l : Lane) (u : PairingUnit) (s : State) :
    (setPairing l u s).health = s.health := rfl

@[simp] theorem setPairing_alerts (l : Lane) (u : PairingUnit) (s : State) :
    (setPairing l u s).alerts = s.alerts := rfl

@[simp] theorem setPairing_counters (l : Lane) (u : PairingUnit) (s : State) :
    (setPairing l u s).counters = s.counters := rfl

@[simp] theorem setPairing_port (l : Lane) (u : PairingUnit) (s : State) :
    (setPairing l u s).port = s.port := rfl

/-! `setVehicle` writes `vehicles` only. -/

@[simp] theorem setVehicle_pending (l : Lane) (v : Option OpenVehicle) (s : State) :
    (setVehicle l v s).pending = s.pending := rfl

@[simp] theorem setVehicle_clock (l : Lane) (v : Option OpenVehicle) (s : State) :
    (setVehicle l v s).clock = s.clock := rfl

@[simp] theorem setVehicle_startup (l : Lane) (v : Option OpenVehicle) (s : State) :
    (setVehicle l v s).startup = s.startup := rfl

@[simp] theorem setVehicle_pendingCause (l : Lane) (v : Option OpenVehicle) (s : State) :
    (setVehicle l v s).pendingCause = s.pendingCause := rfl

@[simp] theorem setVehicle_restartHold (l : Lane) (v : Option OpenVehicle) (s : State) :
    (setVehicle l v s).restartHold = s.restartHold := rfl

@[simp] theorem setVehicle_loader (l : Lane) (v : Option OpenVehicle) (s : State) :
    (setVehicle l v s).loader = s.loader := rfl

@[simp] theorem setVehicle_cfg (l : Lane) (v : Option OpenVehicle) (s : State) :
    (setVehicle l v s).cfg = s.cfg := rfl

@[simp] theorem setVehicle_store (l : Lane) (v : Option OpenVehicle) (s : State) :
    (setVehicle l v s).store = s.store := rfl

@[simp] theorem setVehicle_inputs (l : Lane) (v : Option OpenVehicle) (s : State) :
    (setVehicle l v s).inputs = s.inputs := rfl

@[simp] theorem setVehicle_channels (l : Lane) (v : Option OpenVehicle) (s : State) :
    (setVehicle l v s).channels = s.channels := rfl

@[simp] theorem setVehicle_pairing (l : Lane) (v : Option OpenVehicle) (s : State) :
    (setVehicle l v s).pairing = s.pairing := rfl

@[simp] theorem setVehicle_probe (l : Lane) (v : Option OpenVehicle) (s : State) :
    (setVehicle l v s).probe = s.probe := rfl

@[simp] theorem setVehicle_nextSerial (l : Lane) (v : Option OpenVehicle) (s : State) :
    (setVehicle l v s).nextSerial = s.nextSerial := rfl

@[simp] theorem setVehicle_line (l : Lane) (v : Option OpenVehicle) (s : State) :
    (setVehicle l v s).line = s.line := rfl

@[simp] theorem setVehicle_peers (l : Lane) (v : Option OpenVehicle) (s : State) :
    (setVehicle l v s).peers = s.peers := rfl

@[simp] theorem setVehicle_approach (l : Lane) (v : Option OpenVehicle) (s : State) :
    (setVehicle l v s).approach = s.approach := rfl

@[simp] theorem setVehicle_signs (l : Lane) (v : Option OpenVehicle) (s : State) :
    (setVehicle l v s).signs = s.signs := rfl

@[simp] theorem setVehicle_lamps (l : Lane) (v : Option OpenVehicle) (s : State) :
    (setVehicle l v s).lamps = s.lamps := rfl

@[simp] theorem setVehicle_entry (l : Lane) (v : Option OpenVehicle) (s : State) :
    (setVehicle l v s).entry = s.entry := rfl

@[simp] theorem setVehicle_trim (l : Lane) (v : Option OpenVehicle) (s : State) :
    (setVehicle l v s).trim = s.trim := rfl

@[simp] theorem setVehicle_health (l : Lane) (v : Option OpenVehicle) (s : State) :
    (setVehicle l v s).health = s.health := rfl

@[simp] theorem setVehicle_alerts (l : Lane) (v : Option OpenVehicle) (s : State) :
    (setVehicle l v s).alerts = s.alerts := rfl

@[simp] theorem setVehicle_counters (l : Lane) (v : Option OpenVehicle) (s : State) :
    (setVehicle l v s).counters = s.counters := rfl

@[simp] theorem setVehicle_port (l : Lane) (v : Option OpenVehicle) (s : State) :
    (setVehicle l v s).port = s.port := rfl

/-! `setStopLine` writes `entry` only. -/

@[simp] theorem setStopLine_pending (l : Lane) (x : StopLine) (s : State) :
    (setStopLine l x s).pending = s.pending := rfl

@[simp] theorem setStopLine_clock (l : Lane) (x : StopLine) (s : State) :
    (setStopLine l x s).clock = s.clock := rfl

@[simp] theorem setStopLine_startup (l : Lane) (x : StopLine) (s : State) :
    (setStopLine l x s).startup = s.startup := rfl

@[simp] theorem setStopLine_pendingCause (l : Lane) (x : StopLine) (s : State) :
    (setStopLine l x s).pendingCause = s.pendingCause := rfl

@[simp] theorem setStopLine_restartHold (l : Lane) (x : StopLine) (s : State) :
    (setStopLine l x s).restartHold = s.restartHold := rfl

@[simp] theorem setStopLine_loader (l : Lane) (x : StopLine) (s : State) :
    (setStopLine l x s).loader = s.loader := rfl

@[simp] theorem setStopLine_cfg (l : Lane) (x : StopLine) (s : State) :
    (setStopLine l x s).cfg = s.cfg := rfl

@[simp] theorem setStopLine_store (l : Lane) (x : StopLine) (s : State) :
    (setStopLine l x s).store = s.store := rfl

@[simp] theorem setStopLine_inputs (l : Lane) (x : StopLine) (s : State) :
    (setStopLine l x s).inputs = s.inputs := rfl

@[simp] theorem setStopLine_channels (l : Lane) (x : StopLine) (s : State) :
    (setStopLine l x s).channels = s.channels := rfl

@[simp] theorem setStopLine_pairing (l : Lane) (x : StopLine) (s : State) :
    (setStopLine l x s).pairing = s.pairing := rfl

@[simp] theorem setStopLine_probe (l : Lane) (x : StopLine) (s : State) :
    (setStopLine l x s).probe = s.probe := rfl

@[simp] theorem setStopLine_vehicles (l : Lane) (x : StopLine) (s : State) :
    (setStopLine l x s).vehicles = s.vehicles := rfl

@[simp] theorem setStopLine_nextSerial (l : Lane) (x : StopLine) (s : State) :
    (setStopLine l x s).nextSerial = s.nextSerial := rfl

@[simp] theorem setStopLine_line (l : Lane) (x : StopLine) (s : State) :
    (setStopLine l x s).line = s.line := rfl

@[simp] theorem setStopLine_peers (l : Lane) (x : StopLine) (s : State) :
    (setStopLine l x s).peers = s.peers := rfl

@[simp] theorem setStopLine_approach (l : Lane) (x : StopLine) (s : State) :
    (setStopLine l x s).approach = s.approach := rfl

@[simp] theorem setStopLine_signs (l : Lane) (x : StopLine) (s : State) :
    (setStopLine l x s).signs = s.signs := rfl

@[simp] theorem setStopLine_lamps (l : Lane) (x : StopLine) (s : State) :
    (setStopLine l x s).lamps = s.lamps := rfl

@[simp] theorem setStopLine_trim (l : Lane) (x : StopLine) (s : State) :
    (setStopLine l x s).trim = s.trim := rfl

@[simp] theorem setStopLine_health (l : Lane) (x : StopLine) (s : State) :
    (setStopLine l x s).health = s.health := rfl

@[simp] theorem setStopLine_alerts (l : Lane) (x : StopLine) (s : State) :
    (setStopLine l x s).alerts = s.alerts := rfl

@[simp] theorem setStopLine_counters (l : Lane) (x : StopLine) (s : State) :
    (setStopLine l x s).counters = s.counters := rfl

@[simp] theorem setStopLine_port (l : Lane) (x : StopLine) (s : State) :
    (setStopLine l x s).port = s.port := rfl

/-! `setTrim` writes `trim` only. -/

@[simp] theorem setTrim_pending (l : Lane) (x : TrimLane) (s : State) :
    (setTrim l x s).pending = s.pending := rfl

@[simp] theorem setTrim_clock (l : Lane) (x : TrimLane) (s : State) :
    (setTrim l x s).clock = s.clock := rfl

@[simp] theorem setTrim_startup (l : Lane) (x : TrimLane) (s : State) :
    (setTrim l x s).startup = s.startup := rfl

@[simp] theorem setTrim_pendingCause (l : Lane) (x : TrimLane) (s : State) :
    (setTrim l x s).pendingCause = s.pendingCause := rfl

@[simp] theorem setTrim_restartHold (l : Lane) (x : TrimLane) (s : State) :
    (setTrim l x s).restartHold = s.restartHold := rfl

@[simp] theorem setTrim_loader (l : Lane) (x : TrimLane) (s : State) :
    (setTrim l x s).loader = s.loader := rfl

@[simp] theorem setTrim_cfg (l : Lane) (x : TrimLane) (s : State) :
    (setTrim l x s).cfg = s.cfg := rfl

@[simp] theorem setTrim_store (l : Lane) (x : TrimLane) (s : State) :
    (setTrim l x s).store = s.store := rfl

@[simp] theorem setTrim_inputs (l : Lane) (x : TrimLane) (s : State) :
    (setTrim l x s).inputs = s.inputs := rfl

@[simp] theorem setTrim_channels (l : Lane) (x : TrimLane) (s : State) :
    (setTrim l x s).channels = s.channels := rfl

@[simp] theorem setTrim_pairing (l : Lane) (x : TrimLane) (s : State) :
    (setTrim l x s).pairing = s.pairing := rfl

@[simp] theorem setTrim_probe (l : Lane) (x : TrimLane) (s : State) :
    (setTrim l x s).probe = s.probe := rfl

@[simp] theorem setTrim_vehicles (l : Lane) (x : TrimLane) (s : State) :
    (setTrim l x s).vehicles = s.vehicles := rfl

@[simp] theorem setTrim_nextSerial (l : Lane) (x : TrimLane) (s : State) :
    (setTrim l x s).nextSerial = s.nextSerial := rfl

@[simp] theorem setTrim_line (l : Lane) (x : TrimLane) (s : State) :
    (setTrim l x s).line = s.line := rfl

@[simp] theorem setTrim_peers (l : Lane) (x : TrimLane) (s : State) :
    (setTrim l x s).peers = s.peers := rfl

@[simp] theorem setTrim_approach (l : Lane) (x : TrimLane) (s : State) :
    (setTrim l x s).approach = s.approach := rfl

@[simp] theorem setTrim_signs (l : Lane) (x : TrimLane) (s : State) :
    (setTrim l x s).signs = s.signs := rfl

@[simp] theorem setTrim_lamps (l : Lane) (x : TrimLane) (s : State) :
    (setTrim l x s).lamps = s.lamps := rfl

@[simp] theorem setTrim_entry (l : Lane) (x : TrimLane) (s : State) :
    (setTrim l x s).entry = s.entry := rfl

@[simp] theorem setTrim_health (l : Lane) (x : TrimLane) (s : State) :
    (setTrim l x s).health = s.health := rfl

@[simp] theorem setTrim_alerts (l : Lane) (x : TrimLane) (s : State) :
    (setTrim l x s).alerts = s.alerts := rfl

@[simp] theorem setTrim_counters (l : Lane) (x : TrimLane) (s : State) :
    (setTrim l x s).counters = s.counters := rfl

@[simp] theorem setTrim_port (l : Lane) (x : TrimLane) (s : State) :
    (setTrim l x s).port = s.port := rfl

/-! `setRow` writes `peers` only. -/

@[simp] theorem setRow_pending (k : Station) (r : PeerRow) (s : State) :
    (setRow k r s).pending = s.pending := rfl

@[simp] theorem setRow_clock (k : Station) (r : PeerRow) (s : State) :
    (setRow k r s).clock = s.clock := rfl

@[simp] theorem setRow_startup (k : Station) (r : PeerRow) (s : State) :
    (setRow k r s).startup = s.startup := rfl

@[simp] theorem setRow_pendingCause (k : Station) (r : PeerRow) (s : State) :
    (setRow k r s).pendingCause = s.pendingCause := rfl

@[simp] theorem setRow_restartHold (k : Station) (r : PeerRow) (s : State) :
    (setRow k r s).restartHold = s.restartHold := rfl

@[simp] theorem setRow_loader (k : Station) (r : PeerRow) (s : State) :
    (setRow k r s).loader = s.loader := rfl

@[simp] theorem setRow_cfg (k : Station) (r : PeerRow) (s : State) :
    (setRow k r s).cfg = s.cfg := rfl

@[simp] theorem setRow_store (k : Station) (r : PeerRow) (s : State) :
    (setRow k r s).store = s.store := rfl

@[simp] theorem setRow_inputs (k : Station) (r : PeerRow) (s : State) :
    (setRow k r s).inputs = s.inputs := rfl

@[simp] theorem setRow_channels (k : Station) (r : PeerRow) (s : State) :
    (setRow k r s).channels = s.channels := rfl

@[simp] theorem setRow_pairing (k : Station) (r : PeerRow) (s : State) :
    (setRow k r s).pairing = s.pairing := rfl

@[simp] theorem setRow_probe (k : Station) (r : PeerRow) (s : State) :
    (setRow k r s).probe = s.probe := rfl

@[simp] theorem setRow_vehicles (k : Station) (r : PeerRow) (s : State) :
    (setRow k r s).vehicles = s.vehicles := rfl

@[simp] theorem setRow_nextSerial (k : Station) (r : PeerRow) (s : State) :
    (setRow k r s).nextSerial = s.nextSerial := rfl

@[simp] theorem setRow_line (k : Station) (r : PeerRow) (s : State) :
    (setRow k r s).line = s.line := rfl

@[simp] theorem setRow_approach (k : Station) (r : PeerRow) (s : State) :
    (setRow k r s).approach = s.approach := rfl

@[simp] theorem setRow_signs (k : Station) (r : PeerRow) (s : State) :
    (setRow k r s).signs = s.signs := rfl

@[simp] theorem setRow_lamps (k : Station) (r : PeerRow) (s : State) :
    (setRow k r s).lamps = s.lamps := rfl

@[simp] theorem setRow_entry (k : Station) (r : PeerRow) (s : State) :
    (setRow k r s).entry = s.entry := rfl

@[simp] theorem setRow_trim (k : Station) (r : PeerRow) (s : State) :
    (setRow k r s).trim = s.trim := rfl

@[simp] theorem setRow_health (k : Station) (r : PeerRow) (s : State) :
    (setRow k r s).health = s.health := rfl

@[simp] theorem setRow_alerts (k : Station) (r : PeerRow) (s : State) :
    (setRow k r s).alerts = s.alerts := rfl

@[simp] theorem setRow_counters (k : Station) (r : PeerRow) (s : State) :
    (setRow k r s).counters = s.counters := rfl

@[simp] theorem setRow_port (k : Station) (r : PeerRow) (s : State) :
    (setRow k r s).port = s.port := rfl

/-! `setOutput` writes `lamps` only. -/

@[simp] theorem setOutput_pending (o : Output) (x : LampOutput) (s : State) :
    (setOutput o x s).pending = s.pending := rfl

@[simp] theorem setOutput_clock (o : Output) (x : LampOutput) (s : State) :
    (setOutput o x s).clock = s.clock := rfl

@[simp] theorem setOutput_startup (o : Output) (x : LampOutput) (s : State) :
    (setOutput o x s).startup = s.startup := rfl

@[simp] theorem setOutput_pendingCause (o : Output) (x : LampOutput) (s : State) :
    (setOutput o x s).pendingCause = s.pendingCause := rfl

@[simp] theorem setOutput_restartHold (o : Output) (x : LampOutput) (s : State) :
    (setOutput o x s).restartHold = s.restartHold := rfl

@[simp] theorem setOutput_loader (o : Output) (x : LampOutput) (s : State) :
    (setOutput o x s).loader = s.loader := rfl

@[simp] theorem setOutput_cfg (o : Output) (x : LampOutput) (s : State) :
    (setOutput o x s).cfg = s.cfg := rfl

@[simp] theorem setOutput_store (o : Output) (x : LampOutput) (s : State) :
    (setOutput o x s).store = s.store := rfl

@[simp] theorem setOutput_inputs (o : Output) (x : LampOutput) (s : State) :
    (setOutput o x s).inputs = s.inputs := rfl

@[simp] theorem setOutput_channels (o : Output) (x : LampOutput) (s : State) :
    (setOutput o x s).channels = s.channels := rfl

@[simp] theorem setOutput_pairing (o : Output) (x : LampOutput) (s : State) :
    (setOutput o x s).pairing = s.pairing := rfl

@[simp] theorem setOutput_probe (o : Output) (x : LampOutput) (s : State) :
    (setOutput o x s).probe = s.probe := rfl

@[simp] theorem setOutput_vehicles (o : Output) (x : LampOutput) (s : State) :
    (setOutput o x s).vehicles = s.vehicles := rfl

@[simp] theorem setOutput_nextSerial (o : Output) (x : LampOutput) (s : State) :
    (setOutput o x s).nextSerial = s.nextSerial := rfl

@[simp] theorem setOutput_line (o : Output) (x : LampOutput) (s : State) :
    (setOutput o x s).line = s.line := rfl

@[simp] theorem setOutput_peers (o : Output) (x : LampOutput) (s : State) :
    (setOutput o x s).peers = s.peers := rfl

@[simp] theorem setOutput_approach (o : Output) (x : LampOutput) (s : State) :
    (setOutput o x s).approach = s.approach := rfl

@[simp] theorem setOutput_signs (o : Output) (x : LampOutput) (s : State) :
    (setOutput o x s).signs = s.signs := rfl

@[simp] theorem setOutput_entry (o : Output) (x : LampOutput) (s : State) :
    (setOutput o x s).entry = s.entry := rfl

@[simp] theorem setOutput_trim (o : Output) (x : LampOutput) (s : State) :
    (setOutput o x s).trim = s.trim := rfl

@[simp] theorem setOutput_health (o : Output) (x : LampOutput) (s : State) :
    (setOutput o x s).health = s.health := rfl

@[simp] theorem setOutput_alerts (o : Output) (x : LampOutput) (s : State) :
    (setOutput o x s).alerts = s.alerts := rfl

@[simp] theorem setOutput_counters (o : Output) (x : LampOutput) (s : State) :
    (setOutput o x s).counters = s.counters := rfl

@[simp] theorem setOutput_port (o : Output) (x : LampOutput) (s : State) :
    (setOutput o x s).port = s.port := rfl

/-! `countLane` writes `counters` only. -/

@[simp] theorem countLane_pending (l : Lane) (f : LaneCounts → LaneCounts) (s : State) :
    (countLane l f s).pending = s.pending := rfl

@[simp] theorem countLane_clock (l : Lane) (f : LaneCounts → LaneCounts) (s : State) :
    (countLane l f s).clock = s.clock := rfl

@[simp] theorem countLane_startup (l : Lane) (f : LaneCounts → LaneCounts) (s : State) :
    (countLane l f s).startup = s.startup := rfl

@[simp] theorem countLane_pendingCause (l : Lane) (f : LaneCounts → LaneCounts) (s : State) :
    (countLane l f s).pendingCause = s.pendingCause := rfl

@[simp] theorem countLane_restartHold (l : Lane) (f : LaneCounts → LaneCounts) (s : State) :
    (countLane l f s).restartHold = s.restartHold := rfl

@[simp] theorem countLane_loader (l : Lane) (f : LaneCounts → LaneCounts) (s : State) :
    (countLane l f s).loader = s.loader := rfl

@[simp] theorem countLane_cfg (l : Lane) (f : LaneCounts → LaneCounts) (s : State) :
    (countLane l f s).cfg = s.cfg := rfl

@[simp] theorem countLane_store (l : Lane) (f : LaneCounts → LaneCounts) (s : State) :
    (countLane l f s).store = s.store := rfl

@[simp] theorem countLane_inputs (l : Lane) (f : LaneCounts → LaneCounts) (s : State) :
    (countLane l f s).inputs = s.inputs := rfl

@[simp] theorem countLane_channels (l : Lane) (f : LaneCounts → LaneCounts) (s : State) :
    (countLane l f s).channels = s.channels := rfl

@[simp] theorem countLane_pairing (l : Lane) (f : LaneCounts → LaneCounts) (s : State) :
    (countLane l f s).pairing = s.pairing := rfl

@[simp] theorem countLane_probe (l : Lane) (f : LaneCounts → LaneCounts) (s : State) :
    (countLane l f s).probe = s.probe := rfl

@[simp] theorem countLane_vehicles (l : Lane) (f : LaneCounts → LaneCounts) (s : State) :
    (countLane l f s).vehicles = s.vehicles := rfl

@[simp] theorem countLane_nextSerial (l : Lane) (f : LaneCounts → LaneCounts) (s : State) :
    (countLane l f s).nextSerial = s.nextSerial := rfl

@[simp] theorem countLane_line (l : Lane) (f : LaneCounts → LaneCounts) (s : State) :
    (countLane l f s).line = s.line := rfl

@[simp] theorem countLane_peers (l : Lane) (f : LaneCounts → LaneCounts) (s : State) :
    (countLane l f s).peers = s.peers := rfl

@[simp] theorem countLane_approach (l : Lane) (f : LaneCounts → LaneCounts) (s : State) :
    (countLane l f s).approach = s.approach := rfl

@[simp] theorem countLane_signs (l : Lane) (f : LaneCounts → LaneCounts) (s : State) :
    (countLane l f s).signs = s.signs := rfl

@[simp] theorem countLane_lamps (l : Lane) (f : LaneCounts → LaneCounts) (s : State) :
    (countLane l f s).lamps = s.lamps := rfl

@[simp] theorem countLane_entry (l : Lane) (f : LaneCounts → LaneCounts) (s : State) :
    (countLane l f s).entry = s.entry := rfl

@[simp] theorem countLane_trim (l : Lane) (f : LaneCounts → LaneCounts) (s : State) :
    (countLane l f s).trim = s.trim := rfl

@[simp] theorem countLane_health (l : Lane) (f : LaneCounts → LaneCounts) (s : State) :
    (countLane l f s).health = s.health := rfl

@[simp] theorem countLane_alerts (l : Lane) (f : LaneCounts → LaneCounts) (s : State) :
    (countLane l f s).alerts = s.alerts := rfl

@[simp] theorem countLane_port (l : Lane) (f : LaneCounts → LaneCounts) (s : State) :
    (countLane l f s).port = s.port := rfl

/-! `countLine` writes `line` only. -/

@[simp] theorem countLine_pending (f : LineCounts → LineCounts) (s : State) :
    (countLine f s).pending = s.pending := rfl

@[simp] theorem countLine_clock (f : LineCounts → LineCounts) (s : State) :
    (countLine f s).clock = s.clock := rfl

@[simp] theorem countLine_startup (f : LineCounts → LineCounts) (s : State) :
    (countLine f s).startup = s.startup := rfl

@[simp] theorem countLine_pendingCause (f : LineCounts → LineCounts) (s : State) :
    (countLine f s).pendingCause = s.pendingCause := rfl

@[simp] theorem countLine_restartHold (f : LineCounts → LineCounts) (s : State) :
    (countLine f s).restartHold = s.restartHold := rfl

@[simp] theorem countLine_loader (f : LineCounts → LineCounts) (s : State) :
    (countLine f s).loader = s.loader := rfl

@[simp] theorem countLine_cfg (f : LineCounts → LineCounts) (s : State) :
    (countLine f s).cfg = s.cfg := rfl

@[simp] theorem countLine_store (f : LineCounts → LineCounts) (s : State) :
    (countLine f s).store = s.store := rfl

@[simp] theorem countLine_inputs (f : LineCounts → LineCounts) (s : State) :
    (countLine f s).inputs = s.inputs := rfl

@[simp] theorem countLine_channels (f : LineCounts → LineCounts) (s : State) :
    (countLine f s).channels = s.channels := rfl

@[simp] theorem countLine_pairing (f : LineCounts → LineCounts) (s : State) :
    (countLine f s).pairing = s.pairing := rfl

@[simp] theorem countLine_probe (f : LineCounts → LineCounts) (s : State) :
    (countLine f s).probe = s.probe := rfl

@[simp] theorem countLine_vehicles (f : LineCounts → LineCounts) (s : State) :
    (countLine f s).vehicles = s.vehicles := rfl

@[simp] theorem countLine_nextSerial (f : LineCounts → LineCounts) (s : State) :
    (countLine f s).nextSerial = s.nextSerial := rfl

@[simp] theorem countLine_peers (f : LineCounts → LineCounts) (s : State) :
    (countLine f s).peers = s.peers := rfl

@[simp] theorem countLine_approach (f : LineCounts → LineCounts) (s : State) :
    (countLine f s).approach = s.approach := rfl

@[simp] theorem countLine_signs (f : LineCounts → LineCounts) (s : State) :
    (countLine f s).signs = s.signs := rfl

@[simp] theorem countLine_lamps (f : LineCounts → LineCounts) (s : State) :
    (countLine f s).lamps = s.lamps := rfl

@[simp] theorem countLine_entry (f : LineCounts → LineCounts) (s : State) :
    (countLine f s).entry = s.entry := rfl

@[simp] theorem countLine_trim (f : LineCounts → LineCounts) (s : State) :
    (countLine f s).trim = s.trim := rfl

@[simp] theorem countLine_health (f : LineCounts → LineCounts) (s : State) :
    (countLine f s).health = s.health := rfl

@[simp] theorem countLine_alerts (f : LineCounts → LineCounts) (s : State) :
    (countLine f s).alerts = s.alerts := rfl

@[simp] theorem countLine_counters (f : LineCounts → LineCounts) (s : State) :
    (countLine f s).counters = s.counters := rfl

@[simp] theorem countLine_port (f : LineCounts → LineCounts) (s : State) :
    (countLine f s).port = s.port := rfl

/-! `countApproach` writes `approach` only. -/

@[simp] theorem countApproach_pending (f : ApproachCounts → ApproachCounts) (s : State) :
    (countApproach f s).pending = s.pending := rfl

@[simp] theorem countApproach_clock (f : ApproachCounts → ApproachCounts) (s : State) :
    (countApproach f s).clock = s.clock := rfl

@[simp] theorem countApproach_startup (f : ApproachCounts → ApproachCounts) (s : State) :
    (countApproach f s).startup = s.startup := rfl

@[simp] theorem countApproach_pendingCause (f : ApproachCounts → ApproachCounts) (s : State) :
    (countApproach f s).pendingCause = s.pendingCause := rfl

@[simp] theorem countApproach_restartHold (f : ApproachCounts → ApproachCounts) (s : State) :
    (countApproach f s).restartHold = s.restartHold := rfl

@[simp] theorem countApproach_loader (f : ApproachCounts → ApproachCounts) (s : State) :
    (countApproach f s).loader = s.loader := rfl

@[simp] theorem countApproach_cfg (f : ApproachCounts → ApproachCounts) (s : State) :
    (countApproach f s).cfg = s.cfg := rfl

@[simp] theorem countApproach_store (f : ApproachCounts → ApproachCounts) (s : State) :
    (countApproach f s).store = s.store := rfl

@[simp] theorem countApproach_inputs (f : ApproachCounts → ApproachCounts) (s : State) :
    (countApproach f s).inputs = s.inputs := rfl

@[simp] theorem countApproach_channels (f : ApproachCounts → ApproachCounts) (s : State) :
    (countApproach f s).channels = s.channels := rfl

@[simp] theorem countApproach_pairing (f : ApproachCounts → ApproachCounts) (s : State) :
    (countApproach f s).pairing = s.pairing := rfl

@[simp] theorem countApproach_probe (f : ApproachCounts → ApproachCounts) (s : State) :
    (countApproach f s).probe = s.probe := rfl

@[simp] theorem countApproach_vehicles (f : ApproachCounts → ApproachCounts) (s : State) :
    (countApproach f s).vehicles = s.vehicles := rfl

@[simp] theorem countApproach_nextSerial (f : ApproachCounts → ApproachCounts) (s : State) :
    (countApproach f s).nextSerial = s.nextSerial := rfl

@[simp] theorem countApproach_line (f : ApproachCounts → ApproachCounts) (s : State) :
    (countApproach f s).line = s.line := rfl

@[simp] theorem countApproach_peers (f : ApproachCounts → ApproachCounts) (s : State) :
    (countApproach f s).peers = s.peers := rfl

@[simp] theorem countApproach_signs (f : ApproachCounts → ApproachCounts) (s : State) :
    (countApproach f s).signs = s.signs := rfl

@[simp] theorem countApproach_lamps (f : ApproachCounts → ApproachCounts) (s : State) :
    (countApproach f s).lamps = s.lamps := rfl

@[simp] theorem countApproach_entry (f : ApproachCounts → ApproachCounts) (s : State) :
    (countApproach f s).entry = s.entry := rfl

@[simp] theorem countApproach_trim (f : ApproachCounts → ApproachCounts) (s : State) :
    (countApproach f s).trim = s.trim := rfl

@[simp] theorem countApproach_health (f : ApproachCounts → ApproachCounts) (s : State) :
    (countApproach f s).health = s.health := rfl

@[simp] theorem countApproach_alerts (f : ApproachCounts → ApproachCounts) (s : State) :
    (countApproach f s).alerts = s.alerts := rfl

@[simp] theorem countApproach_counters (f : ApproachCounts → ApproachCounts) (s : State) :
    (countApproach f s).counters = s.counters := rfl

@[simp] theorem countApproach_port (f : ApproachCounts → ApproachCounts) (s : State) :
    (countApproach f s).port = s.port := rfl

/-! `setAlert` writes `alerts` only. -/

@[simp] theorem setAlert_pending (x : AlertSource) (a : AlertState) (s : State) :
    (setAlert x a s).pending = s.pending := rfl

@[simp] theorem setAlert_clock (x : AlertSource) (a : AlertState) (s : State) :
    (setAlert x a s).clock = s.clock := rfl

@[simp] theorem setAlert_startup (x : AlertSource) (a : AlertState) (s : State) :
    (setAlert x a s).startup = s.startup := rfl

@[simp] theorem setAlert_pendingCause (x : AlertSource) (a : AlertState) (s : State) :
    (setAlert x a s).pendingCause = s.pendingCause := rfl

@[simp] theorem setAlert_restartHold (x : AlertSource) (a : AlertState) (s : State) :
    (setAlert x a s).restartHold = s.restartHold := rfl

@[simp] theorem setAlert_loader (x : AlertSource) (a : AlertState) (s : State) :
    (setAlert x a s).loader = s.loader := rfl

@[simp] theorem setAlert_cfg (x : AlertSource) (a : AlertState) (s : State) :
    (setAlert x a s).cfg = s.cfg := rfl

@[simp] theorem setAlert_store (x : AlertSource) (a : AlertState) (s : State) :
    (setAlert x a s).store = s.store := rfl

@[simp] theorem setAlert_inputs (x : AlertSource) (a : AlertState) (s : State) :
    (setAlert x a s).inputs = s.inputs := rfl

@[simp] theorem setAlert_channels (x : AlertSource) (a : AlertState) (s : State) :
    (setAlert x a s).channels = s.channels := rfl

@[simp] theorem setAlert_pairing (x : AlertSource) (a : AlertState) (s : State) :
    (setAlert x a s).pairing = s.pairing := rfl

@[simp] theorem setAlert_probe (x : AlertSource) (a : AlertState) (s : State) :
    (setAlert x a s).probe = s.probe := rfl

@[simp] theorem setAlert_vehicles (x : AlertSource) (a : AlertState) (s : State) :
    (setAlert x a s).vehicles = s.vehicles := rfl

@[simp] theorem setAlert_nextSerial (x : AlertSource) (a : AlertState) (s : State) :
    (setAlert x a s).nextSerial = s.nextSerial := rfl

@[simp] theorem setAlert_line (x : AlertSource) (a : AlertState) (s : State) :
    (setAlert x a s).line = s.line := rfl

@[simp] theorem setAlert_peers (x : AlertSource) (a : AlertState) (s : State) :
    (setAlert x a s).peers = s.peers := rfl

@[simp] theorem setAlert_approach (x : AlertSource) (a : AlertState) (s : State) :
    (setAlert x a s).approach = s.approach := rfl

@[simp] theorem setAlert_signs (x : AlertSource) (a : AlertState) (s : State) :
    (setAlert x a s).signs = s.signs := rfl

@[simp] theorem setAlert_lamps (x : AlertSource) (a : AlertState) (s : State) :
    (setAlert x a s).lamps = s.lamps := rfl

@[simp] theorem setAlert_entry (x : AlertSource) (a : AlertState) (s : State) :
    (setAlert x a s).entry = s.entry := rfl

@[simp] theorem setAlert_trim (x : AlertSource) (a : AlertState) (s : State) :
    (setAlert x a s).trim = s.trim := rfl

@[simp] theorem setAlert_health (x : AlertSource) (a : AlertState) (s : State) :
    (setAlert x a s).health = s.health := rfl

@[simp] theorem setAlert_counters (x : AlertSource) (a : AlertState) (s : State) :
    (setAlert x a s).counters = s.counters := rfl

@[simp] theorem setAlert_port (x : AlertSource) (a : AlertState) (s : State) :
    (setAlert x a s).port = s.port := rfl

/-! `setEntries` writes `approach` only. -/

@[simp] theorem setEntries_pending (l : List ApproachEntry) (s : State) :
    (setEntries l s).pending = s.pending := rfl

@[simp] theorem setEntries_clock (l : List ApproachEntry) (s : State) :
    (setEntries l s).clock = s.clock := rfl

@[simp] theorem setEntries_startup (l : List ApproachEntry) (s : State) :
    (setEntries l s).startup = s.startup := rfl

@[simp] theorem setEntries_pendingCause (l : List ApproachEntry) (s : State) :
    (setEntries l s).pendingCause = s.pendingCause := rfl

@[simp] theorem setEntries_restartHold (l : List ApproachEntry) (s : State) :
    (setEntries l s).restartHold = s.restartHold := rfl

@[simp] theorem setEntries_loader (l : List ApproachEntry) (s : State) :
    (setEntries l s).loader = s.loader := rfl

@[simp] theorem setEntries_cfg (l : List ApproachEntry) (s : State) :
    (setEntries l s).cfg = s.cfg := rfl

@[simp] theorem setEntries_store (l : List ApproachEntry) (s : State) :
    (setEntries l s).store = s.store := rfl

@[simp] theorem setEntries_inputs (l : List ApproachEntry) (s : State) :
    (setEntries l s).inputs = s.inputs := rfl

@[simp] theorem setEntries_channels (l : List ApproachEntry) (s : State) :
    (setEntries l s).channels = s.channels := rfl

@[simp] theorem setEntries_pairing (l : List ApproachEntry) (s : State) :
    (setEntries l s).pairing = s.pairing := rfl

@[simp] theorem setEntries_probe (l : List ApproachEntry) (s : State) :
    (setEntries l s).probe = s.probe := rfl

@[simp] theorem setEntries_vehicles (l : List ApproachEntry) (s : State) :
    (setEntries l s).vehicles = s.vehicles := rfl

@[simp] theorem setEntries_nextSerial (l : List ApproachEntry) (s : State) :
    (setEntries l s).nextSerial = s.nextSerial := rfl

@[simp] theorem setEntries_line (l : List ApproachEntry) (s : State) :
    (setEntries l s).line = s.line := rfl

@[simp] theorem setEntries_peers (l : List ApproachEntry) (s : State) :
    (setEntries l s).peers = s.peers := rfl

@[simp] theorem setEntries_signs (l : List ApproachEntry) (s : State) :
    (setEntries l s).signs = s.signs := rfl

@[simp] theorem setEntries_lamps (l : List ApproachEntry) (s : State) :
    (setEntries l s).lamps = s.lamps := rfl

@[simp] theorem setEntries_entry (l : List ApproachEntry) (s : State) :
    (setEntries l s).entry = s.entry := rfl

@[simp] theorem setEntries_trim (l : List ApproachEntry) (s : State) :
    (setEntries l s).trim = s.trim := rfl

@[simp] theorem setEntries_health (l : List ApproachEntry) (s : State) :
    (setEntries l s).health = s.health := rfl

@[simp] theorem setEntries_alerts (l : List ApproachEntry) (s : State) :
    (setEntries l s).alerts = s.alerts := rfl

@[simp] theorem setEntries_counters (l : List ApproachEntry) (s : State) :
    (setEntries l s).counters = s.counters := rfl

@[simp] theorem setEntries_port (l : List ApproachEntry) (s : State) :
    (setEntries l s).port = s.port := rfl

/-! `setFifo` writes `pairing` only. -/

@[simp] theorem setFifo_pending (l : Lane) (q : List PendingLead) (s : State) :
    (setFifo l q s).pending = s.pending := rfl

@[simp] theorem setFifo_clock (l : Lane) (q : List PendingLead) (s : State) :
    (setFifo l q s).clock = s.clock := rfl

@[simp] theorem setFifo_startup (l : Lane) (q : List PendingLead) (s : State) :
    (setFifo l q s).startup = s.startup := rfl

@[simp] theorem setFifo_pendingCause (l : Lane) (q : List PendingLead) (s : State) :
    (setFifo l q s).pendingCause = s.pendingCause := rfl

@[simp] theorem setFifo_restartHold (l : Lane) (q : List PendingLead) (s : State) :
    (setFifo l q s).restartHold = s.restartHold := rfl

@[simp] theorem setFifo_loader (l : Lane) (q : List PendingLead) (s : State) :
    (setFifo l q s).loader = s.loader := rfl

@[simp] theorem setFifo_cfg (l : Lane) (q : List PendingLead) (s : State) :
    (setFifo l q s).cfg = s.cfg := rfl

@[simp] theorem setFifo_store (l : Lane) (q : List PendingLead) (s : State) :
    (setFifo l q s).store = s.store := rfl

@[simp] theorem setFifo_inputs (l : Lane) (q : List PendingLead) (s : State) :
    (setFifo l q s).inputs = s.inputs := rfl

@[simp] theorem setFifo_channels (l : Lane) (q : List PendingLead) (s : State) :
    (setFifo l q s).channels = s.channels := rfl

@[simp] theorem setFifo_probe (l : Lane) (q : List PendingLead) (s : State) :
    (setFifo l q s).probe = s.probe := rfl

@[simp] theorem setFifo_vehicles (l : Lane) (q : List PendingLead) (s : State) :
    (setFifo l q s).vehicles = s.vehicles := rfl

@[simp] theorem setFifo_nextSerial (l : Lane) (q : List PendingLead) (s : State) :
    (setFifo l q s).nextSerial = s.nextSerial := rfl

@[simp] theorem setFifo_line (l : Lane) (q : List PendingLead) (s : State) :
    (setFifo l q s).line = s.line := rfl

@[simp] theorem setFifo_peers (l : Lane) (q : List PendingLead) (s : State) :
    (setFifo l q s).peers = s.peers := rfl

@[simp] theorem setFifo_approach (l : Lane) (q : List PendingLead) (s : State) :
    (setFifo l q s).approach = s.approach := rfl

@[simp] theorem setFifo_signs (l : Lane) (q : List PendingLead) (s : State) :
    (setFifo l q s).signs = s.signs := rfl

@[simp] theorem setFifo_lamps (l : Lane) (q : List PendingLead) (s : State) :
    (setFifo l q s).lamps = s.lamps := rfl

@[simp] theorem setFifo_entry (l : Lane) (q : List PendingLead) (s : State) :
    (setFifo l q s).entry = s.entry := rfl

@[simp] theorem setFifo_trim (l : Lane) (q : List PendingLead) (s : State) :
    (setFifo l q s).trim = s.trim := rfl

@[simp] theorem setFifo_health (l : Lane) (q : List PendingLead) (s : State) :
    (setFifo l q s).health = s.health := rfl

@[simp] theorem setFifo_alerts (l : Lane) (q : List PendingLead) (s : State) :
    (setFifo l q s).alerts = s.alerts := rfl

@[simp] theorem setFifo_counters (l : Lane) (q : List PendingLead) (s : State) :
    (setFifo l q s).counters = s.counters := rfl

@[simp] theorem setFifo_port (l : Lane) (q : List PendingLead) (s : State) :
    (setFifo l q s).port = s.port := rfl

/-! `setHead` writes `entry` only. -/

@[simp] theorem setHead_pending (l : Lane) (h : HeadState) (s : State) :
    (setHead l h s).pending = s.pending := rfl

@[simp] theorem setHead_clock (l : Lane) (h : HeadState) (s : State) :
    (setHead l h s).clock = s.clock := rfl

@[simp] theorem setHead_startup (l : Lane) (h : HeadState) (s : State) :
    (setHead l h s).startup = s.startup := rfl

@[simp] theorem setHead_pendingCause (l : Lane) (h : HeadState) (s : State) :
    (setHead l h s).pendingCause = s.pendingCause := rfl

@[simp] theorem setHead_restartHold (l : Lane) (h : HeadState) (s : State) :
    (setHead l h s).restartHold = s.restartHold := rfl

@[simp] theorem setHead_loader (l : Lane) (h : HeadState) (s : State) :
    (setHead l h s).loader = s.loader := rfl

@[simp] theorem setHead_cfg (l : Lane) (h : HeadState) (s : State) :
    (setHead l h s).cfg = s.cfg := rfl

@[simp] theorem setHead_store (l : Lane) (h : HeadState) (s : State) :
    (setHead l h s).store = s.store := rfl

@[simp] theorem setHead_inputs (l : Lane) (h : HeadState) (s : State) :
    (setHead l h s).inputs = s.inputs := rfl

@[simp] theorem setHead_channels (l : Lane) (h : HeadState) (s : State) :
    (setHead l h s).channels = s.channels := rfl

@[simp] theorem setHead_pairing (l : Lane) (h : HeadState) (s : State) :
    (setHead l h s).pairing = s.pairing := rfl

@[simp] theorem setHead_probe (l : Lane) (h : HeadState) (s : State) :
    (setHead l h s).probe = s.probe := rfl

@[simp] theorem setHead_vehicles (l : Lane) (h : HeadState) (s : State) :
    (setHead l h s).vehicles = s.vehicles := rfl

@[simp] theorem setHead_nextSerial (l : Lane) (h : HeadState) (s : State) :
    (setHead l h s).nextSerial = s.nextSerial := rfl

@[simp] theorem setHead_line (l : Lane) (h : HeadState) (s : State) :
    (setHead l h s).line = s.line := rfl

@[simp] theorem setHead_peers (l : Lane) (h : HeadState) (s : State) :
    (setHead l h s).peers = s.peers := rfl

@[simp] theorem setHead_approach (l : Lane) (h : HeadState) (s : State) :
    (setHead l h s).approach = s.approach := rfl

@[simp] theorem setHead_signs (l : Lane) (h : HeadState) (s : State) :
    (setHead l h s).signs = s.signs := rfl

@[simp] theorem setHead_lamps (l : Lane) (h : HeadState) (s : State) :
    (setHead l h s).lamps = s.lamps := rfl

@[simp] theorem setHead_trim (l : Lane) (h : HeadState) (s : State) :
    (setHead l h s).trim = s.trim := rfl

@[simp] theorem setHead_health (l : Lane) (h : HeadState) (s : State) :
    (setHead l h s).health = s.health := rfl

@[simp] theorem setHead_alerts (l : Lane) (h : HeadState) (s : State) :
    (setHead l h s).alerts = s.alerts := rfl

@[simp] theorem setHead_counters (l : Lane) (h : HeadState) (s : State) :
    (setHead l h s).counters = s.counters := rfl

@[simp] theorem setHead_port (l : Lane) (h : HeadState) (s : State) :
    (setHead l h s).port = s.port := rfl

/-! `leaveHeld` writes `entry` only. -/

@[simp] theorem leaveHeld_pending (l : Lane) (s : State) :
    (leaveHeld l s).pending = s.pending := rfl

@[simp] theorem leaveHeld_clock (l : Lane) (s : State) :
    (leaveHeld l s).clock = s.clock := rfl

@[simp] theorem leaveHeld_startup (l : Lane) (s : State) :
    (leaveHeld l s).startup = s.startup := rfl

@[simp] theorem leaveHeld_pendingCause (l : Lane) (s : State) :
    (leaveHeld l s).pendingCause = s.pendingCause := rfl

@[simp] theorem leaveHeld_restartHold (l : Lane) (s : State) :
    (leaveHeld l s).restartHold = s.restartHold := rfl

@[simp] theorem leaveHeld_loader (l : Lane) (s : State) :
    (leaveHeld l s).loader = s.loader := rfl

@[simp] theorem leaveHeld_cfg (l : Lane) (s : State) :
    (leaveHeld l s).cfg = s.cfg := rfl

@[simp] theorem leaveHeld_store (l : Lane) (s : State) :
    (leaveHeld l s).store = s.store := rfl

@[simp] theorem leaveHeld_inputs (l : Lane) (s : State) :
    (leaveHeld l s).inputs = s.inputs := rfl

@[simp] theorem leaveHeld_channels (l : Lane) (s : State) :
    (leaveHeld l s).channels = s.channels := rfl

@[simp] theorem leaveHeld_pairing (l : Lane) (s : State) :
    (leaveHeld l s).pairing = s.pairing := rfl

@[simp] theorem leaveHeld_probe (l : Lane) (s : State) :
    (leaveHeld l s).probe = s.probe := rfl

@[simp] theorem leaveHeld_vehicles (l : Lane) (s : State) :
    (leaveHeld l s).vehicles = s.vehicles := rfl

@[simp] theorem leaveHeld_nextSerial (l : Lane) (s : State) :
    (leaveHeld l s).nextSerial = s.nextSerial := rfl

@[simp] theorem leaveHeld_line (l : Lane) (s : State) :
    (leaveHeld l s).line = s.line := rfl

@[simp] theorem leaveHeld_peers (l : Lane) (s : State) :
    (leaveHeld l s).peers = s.peers := rfl

@[simp] theorem leaveHeld_approach (l : Lane) (s : State) :
    (leaveHeld l s).approach = s.approach := rfl

@[simp] theorem leaveHeld_signs (l : Lane) (s : State) :
    (leaveHeld l s).signs = s.signs := rfl

@[simp] theorem leaveHeld_lamps (l : Lane) (s : State) :
    (leaveHeld l s).lamps = s.lamps := rfl

@[simp] theorem leaveHeld_trim (l : Lane) (s : State) :
    (leaveHeld l s).trim = s.trim := rfl

@[simp] theorem leaveHeld_health (l : Lane) (s : State) :
    (leaveHeld l s).health = s.health := rfl

@[simp] theorem leaveHeld_alerts (l : Lane) (s : State) :
    (leaveHeld l s).alerts = s.alerts := rfl

@[simp] theorem leaveHeld_counters (l : Lane) (s : State) :
    (leaveHeld l s).counters = s.counters := rfl

@[simp] theorem leaveHeld_port (l : Lane) (s : State) :
    (leaveHeld l s).port = s.port := rfl

/-! `popHead` writes `entry` only. -/

@[simp] theorem popHead_pending (l : Lane) (s : State) :
    (popHead l s).pending = s.pending := rfl

@[simp] theorem popHead_clock (l : Lane) (s : State) :
    (popHead l s).clock = s.clock := rfl

@[simp] theorem popHead_startup (l : Lane) (s : State) :
    (popHead l s).startup = s.startup := rfl

@[simp] theorem popHead_pendingCause (l : Lane) (s : State) :
    (popHead l s).pendingCause = s.pendingCause := rfl

@[simp] theorem popHead_restartHold (l : Lane) (s : State) :
    (popHead l s).restartHold = s.restartHold := rfl

@[simp] theorem popHead_loader (l : Lane) (s : State) :
    (popHead l s).loader = s.loader := rfl

@[simp] theorem popHead_cfg (l : Lane) (s : State) :
    (popHead l s).cfg = s.cfg := rfl

@[simp] theorem popHead_store (l : Lane) (s : State) :
    (popHead l s).store = s.store := rfl

@[simp] theorem popHead_inputs (l : Lane) (s : State) :
    (popHead l s).inputs = s.inputs := rfl

@[simp] theorem popHead_channels (l : Lane) (s : State) :
    (popHead l s).channels = s.channels := rfl

@[simp] theorem popHead_pairing (l : Lane) (s : State) :
    (popHead l s).pairing = s.pairing := rfl

@[simp] theorem popHead_probe (l : Lane) (s : State) :
    (popHead l s).probe = s.probe := rfl

@[simp] theorem popHead_vehicles (l : Lane) (s : State) :
    (popHead l s).vehicles = s.vehicles := rfl

@[simp] theorem popHead_nextSerial (l : Lane) (s : State) :
    (popHead l s).nextSerial = s.nextSerial := rfl

@[simp] theorem popHead_line (l : Lane) (s : State) :
    (popHead l s).line = s.line := rfl

@[simp] theorem popHead_peers (l : Lane) (s : State) :
    (popHead l s).peers = s.peers := rfl

@[simp] theorem popHead_approach (l : Lane) (s : State) :
    (popHead l s).approach = s.approach := rfl

@[simp] theorem popHead_signs (l : Lane) (s : State) :
    (popHead l s).signs = s.signs := rfl

@[simp] theorem popHead_lamps (l : Lane) (s : State) :
    (popHead l s).lamps = s.lamps := rfl

@[simp] theorem popHead_trim (l : Lane) (s : State) :
    (popHead l s).trim = s.trim := rfl

@[simp] theorem popHead_health (l : Lane) (s : State) :
    (popHead l s).health = s.health := rfl

@[simp] theorem popHead_alerts (l : Lane) (s : State) :
    (popHead l s).alerts = s.alerts := rfl

@[simp] theorem popHead_counters (l : Lane) (s : State) :
    (popHead l s).counters = s.counters := rfl

@[simp] theorem popHead_port (l : Lane) (s : State) :
    (popHead l s).port = s.port := rfl

/-! What the written place holds. -/

theorem stripIndex_inj {p q : Strip} (h : stripIndex p = stripIndex q) : p = q := by
  obtain ⟨l, a⟩ := p
  obtain ⟨k, b⟩ := q
  revert h
  fin_cases l <;> fin_cases k <;> cases a <;> cases b <;> decide

theorem sourceIndex_inj {x y : AlertSource} (h : sourceIndex x = sourceIndex y) : x = y := by
  revert h
  cases x <;> cases y <;> decide

@[simp] theorem channelOf_setChannel_self (p : Strip) (c : Channel) (s : State) :
    channelOf (setChannel p c s) p = c := by simp [channelOf, setChannel]

theorem channelOf_setChannel_ne {p q : Strip} (c : Channel) (s : State) (h : q ≠ p) :
    channelOf (setChannel p c s) q = channelOf s q := by
  simp only [channelOf, setChannel]
  exact Tab.at_put_ne _ _ fun e => h (stripIndex_inj e)

@[simp] theorem healthOf_setHealth_self (p : Strip) (h : StripHealth) (s : State) :
    healthOf (setHealth p h s) p = h := by simp [healthOf, setHealth]

theorem healthOf_setHealth_ne {p q : Strip} (h : StripHealth) (s : State) (hq : q ≠ p) :
    healthOf (setHealth p h s) q = healthOf s q := by
  simp only [healthOf, setHealth]
  exact Tab.at_put_ne _ _ fun e => hq (stripIndex_inj e)

@[simp] theorem alertOf_setAlert_self (x : AlertSource) (a : AlertState) (s : State) :
    alertOf (setAlert x a s) x = a := by simp [alertOf, setAlert]

theorem alertOf_setAlert_ne {x y : AlertSource} (a : AlertState) (s : State) (h : y ≠ x) :
    alertOf (setAlert x a s) y = alertOf s y := by
  simp only [alertOf, setAlert]
  exact Tab.at_put_ne _ _ fun e => h (sourceIndex_inj e)

@[simp] theorem stopLine_setStopLine_self (l : Lane) (x : StopLine) (s : State) :
    stopLine (setStopLine l x s) l = x := by simp [stopLine, setStopLine]

theorem stopLine_setStopLine_ne {l k : Lane} (x : StopLine) (s : State) (h : k ≠ l) :
    stopLine (setStopLine l x s) k = stopLine s k := by
  simp only [stopLine, setStopLine]
  exact Tab.at_put_ne _ _ h

@[simp] theorem rowOf_setRow_self (k : Station) (r : PeerRow) (s : State) :
    rowOf (setRow k r s) k = r := by simp [rowOf, setRow]

theorem rowOf_setRow_ne {k j : Station} (r : PeerRow) (s : State) (h : j ≠ k) :
    rowOf (setRow k r s) j = rowOf s j := by
  simp only [rowOf, setRow]
  exact Tab.at_put_ne _ _ h

@[simp] theorem outputOf_setOutput_self (o : Output) (x : LampOutput) (s : State) :
    outputOf (setOutput o x s) o = x := by simp [outputOf, setOutput]

theorem outputOf_setOutput_ne {o q : Output} (x : LampOutput) (s : State) (h : q ≠ o) :
    outputOf (setOutput o x s) q = outputOf s q := by
  simp only [outputOf, setOutput]
  exact Tab.at_put_ne _ _ h

end Sys2Proof.Machine
end

