-- ==== Sys2Proof/Laws/Settle.lean ====
section
/-! SUPPORT. What `settle` can do, said once: it writes the blink phases, the aspects and amber timers,
what the outputs show, the condition sources and the alert lines, and nothing else; it changes
nothing in a state that is settled; and it settles any state that is ready for it. -/

namespace Sys2Proof.Machine

/-! ## Taking condition sources writes the alert unit only -/

/-- A state with other source states in the alert unit. -/
def putSources (s : State) (v : Tab AlertState 24) : State := { s with alerts.sources := v }

theorem takeRaw_put (s : State) (x : AlertSource) : ∃ v, takeRaw s x = putSources s v := by
  simp only [takeRaw]; repeat' split
  · exact ⟨s.alerts.sources, rfl⟩
  · exact ⟨_, rfl⟩
  · exact ⟨_, rfl⟩

theorem foldl_takeRaw_put (l : List AlertSource) (s : State) :
    ∃ v, l.foldl takeRaw s = putSources s v := by
  induction l generalizing s with
  | nil => exact ⟨s.alerts.sources, rfl⟩
  | cons x l ih =>
    obtain ⟨v, hv⟩ := takeRaw_put s x
    obtain ⟨w, hw⟩ := ih (takeRaw s x)
    exact ⟨w, by rw [List.foldl_cons, hw, hv]; rfl⟩

theorem takeConditions_put (s : State) : ∃ v, takeConditions s = putSources s v := by
  unfold takeConditions
  split
  · exact foldl_takeRaw_put _ _
  · exact ⟨s.alerts.sources, rfl⟩

theorem takeConditions_eq (s : State) :
    takeConditions s = { s with alerts.sources := (takeConditions s).alerts.sources } := by
  obtain ⟨v, hv⟩ := takeConditions_put s
  rw [hv]; rfl

theorem raise_eq (x : AlertSource) (s : State) :
    raise x s = { s with alerts.sources := (raise x s).alerts.sources } := by
  unfold raise
  split <;> rfl

theorem clearSource_eq (s : State) (x : AlertSource) :
    clearSource s x = { s with alerts.sources := (clearSource s x).alerts.sources } := by
  simp only [clearSource]
  split <;> rfl

theorem driveAspects_eq (s : State) :
    driveAspects s = { s with entry.lanes := (driveAspects s).entry.lanes } := by
  unfold driveAspects
  split <;> rfl

/-! ## One lemma per field for each part of `settle` -/

@[simp] theorem driveSigns_pending (s : State) : (driveSigns s).pending = s.pending := rfl

@[simp] theorem driveSigns_clock (s : State) : (driveSigns s).clock = s.clock := rfl

@[simp] theorem driveSigns_startup (s : State) : (driveSigns s).startup = s.startup := rfl

@[simp] theorem driveSigns_pendingCause (s : State) : (driveSigns s).pendingCause = s.pendingCause := rfl

@[simp] theorem driveSigns_restartHold (s : State) : (driveSigns s).restartHold = s.restartHold := rfl

@[simp] theorem driveSigns_loader (s : State) : (driveSigns s).loader = s.loader := rfl

@[simp] theorem driveSigns_cfg (s : State) : (driveSigns s).cfg = s.cfg := rfl

@[simp] theorem driveSigns_store (s : State) : (driveSigns s).store = s.store := rfl

@[simp] theorem driveSigns_inputs (s : State) : (driveSigns s).inputs = s.inputs := rfl

@[simp] theorem driveSigns_channels (s : State) : (driveSigns s).channels = s.channels := rfl

@[simp] theorem driveSigns_pairing (s : State) : (driveSigns s).pairing = s.pairing := rfl

@[simp] theorem driveSigns_probe (s : State) : (driveSigns s).probe = s.probe := rfl

@[simp] theorem driveSigns_vehicles (s : State) : (driveSigns s).vehicles = s.vehicles := rfl

@[simp] theorem driveSigns_nextSerial (s : State) : (driveSigns s).nextSerial = s.nextSerial := rfl

@[simp] theorem driveSigns_line (s : State) : (driveSigns s).line = s.line := rfl

@[simp] theorem driveSigns_peers (s : State) : (driveSigns s).peers = s.peers := rfl

@[simp] theorem driveSigns_approach (s : State) : (driveSigns s).approach = s.approach := rfl

@[simp] theorem driveSigns_lamps (s : State) : (driveSigns s).lamps = s.lamps := rfl

@[simp] theorem driveSigns_entry (s : State) : (driveSigns s).entry = s.entry := rfl

@[simp] theorem driveSigns_trim (s : State) : (driveSigns s).trim = s.trim := rfl

@[simp] theorem driveSigns_health (s : State) : (driveSigns s).health = s.health := rfl

@[simp] theorem driveSigns_alerts (s : State) : (driveSigns s).alerts = s.alerts := rfl

@[simp] theorem driveSigns_counters (s : State) : (driveSigns s).counters = s.counters := rfl

@[simp] theorem driveSigns_port (s : State) : (driveSigns s).port = s.port := rfl

@[simp] theorem driveAspects_pending (s : State) : (driveAspects s).pending = s.pending := by
  rw [driveAspects_eq]

@[simp] theorem driveAspects_clock (s : State) : (driveAspects s).clock = s.clock := by
  rw [driveAspects_eq]

@[simp] theorem driveAspects_startup (s : State) : (driveAspects s).startup = s.startup := by
  rw [driveAspects_eq]

@[simp] theorem driveAspects_pendingCause (s : State) : (driveAspects s).pendingCause = s.pendingCause := by
  rw [driveAspects_eq]

@[simp] theorem driveAspects_restartHold (s : State) : (driveAspects s).restartHold = s.restartHold := by
  rw [driveAspects_eq]

@[simp] theorem driveAspects_loader (s : State) : (driveAspects s).loader = s.loader := by
  rw [driveAspects_eq]

@[simp] theorem driveAspects_cfg (s : State) : (driveAspects s).cfg = s.cfg := by
  rw [driveAspects_eq]

@[simp] theorem driveAspects_store (s : State) : (driveAspects s).store = s.store := by
  rw [driveAspects_eq]

@[simp] theorem driveAspects_inputs (s : State) : (driveAspects s).inputs = s.inputs := by
  rw [driveAspects_eq]

@[simp] theorem driveAspects_channels (s : State) : (driveAspects s).channels = s.channels := by
  rw [driveAspects_eq]

@[simp] theorem driveAspects_pairing (s : State) : (driveAspects s).pairing = s.pairing := by
  rw [driveAspects_eq]

@[simp] theorem driveAspects_probe (s : State) : (driveAspects s).probe = s.probe := by
  rw [driveAspects_eq]

@[simp] theorem driveAspects_vehicles (s : State) : (driveAspects s).vehicles = s.vehicles := by
  rw [driveAspects_eq]

@[simp] theorem driveAspects_nextSerial (s : State) : (driveAspects s).nextSerial = s.nextSerial := by
  rw [driveAspects_eq]

@[simp] theorem driveAspects_line (s : State) : (driveAspects s).line = s.line := by
  rw [driveAspects_eq]

@[simp] theorem driveAspects_peers (s : State) : (driveAspects s).peers = s.peers := by
  rw [driveAspects_eq]

@[simp] theorem driveAspects_approach (s : State) : (driveAspects s).approach = s.approach := by
  rw [driveAspects_eq]

@[simp] theorem driveAspects_signs (s : State) : (driveAspects s).signs = s.signs := by
  rw [driveAspects_eq]

@[simp] theorem driveAspects_lamps (s : State) : (driveAspects s).lamps = s.lamps := by
  rw [driveAspects_eq]

@[simp] theorem driveAspects_trim (s : State) : (driveAspects s).trim = s.trim := by
  rw [driveAspects_eq]

@[simp] theorem driveAspects_health (s : State) : (driveAspects s).health = s.health := by
  rw [driveAspects_eq]

@[simp] theorem driveAspects_alerts (s : State) : (driveAspects s).alerts = s.alerts := by
  rw [driveAspects_eq]

@[simp] theorem driveAspects_counters (s : State) : (driveAspects s).counters = s.counters := by
  rw [driveAspects_eq]

@[simp] theorem driveAspects_port (s : State) : (driveAspects s).port = s.port := by
  rw [driveAspects_eq]

@[simp] theorem driveLamps_pending (s : State) : (driveLamps s).pending = s.pending := rfl

@[simp] theorem driveLamps_clock (s : State) : (driveLamps s).clock = s.clock := rfl

@[simp] theorem driveLamps_startup (s : State) : (driveLamps s).startup = s.startup := rfl

@[simp] theorem driveLamps_pendingCause (s : State) : (driveLamps s).pendingCause = s.pendingCause := rfl

@[simp] theorem driveLamps_restartHold (s : State) : (driveLamps s).restartHold = s.restartHold := rfl

@[simp] theorem driveLamps_loader (s : State) : (driveLamps s).loader = s.loader := rfl

@[simp] theorem driveLamps_cfg (s : State) : (driveLamps s).cfg = s.cfg := rfl

@[simp] theorem driveLamps_store (s : State) : (driveLamps s).store = s.store := rfl

@[simp] theorem driveLamps_inputs (s : State) : (driveLamps s).inputs = s.inputs := rfl

@[simp] theorem driveLamps_channels (s : State) : (driveLamps s).channels = s.channels := rfl

@[simp] theorem driveLamps_pairing (s : State) : (driveLamps s).pairing = s.pairing := rfl

@[simp] theorem driveLamps_probe (s : State) : (driveLamps s).probe = s.probe := rfl

@[simp] theorem driveLamps_vehicles (s : State) : (driveLamps s).vehicles = s.vehicles := rfl

@[simp] theorem driveLamps_nextSerial (s : State) : (driveLamps s).nextSerial = s.nextSerial := rfl

@[simp] theorem driveLamps_line (s : State) : (driveLamps s).line = s.line := rfl

@[simp] theorem driveLamps_peers (s : State) : (driveLamps s).peers = s.peers := rfl

@[simp] theorem driveLamps_approach (s : State) : (driveLamps s).approach = s.approach := rfl

@[simp] theorem driveLamps_signs (s : State) : (driveLamps s).signs = s.signs := rfl

@[simp] theorem driveLamps_entry (s : State) : (driveLamps s).entry = s.entry := rfl

@[simp] theorem driveLamps_trim (s : State) : (driveLamps s).trim = s.trim := rfl

@[simp] theorem driveLamps_health (s : State) : (driveLamps s).health = s.health := rfl

@[simp] theorem driveLamps_alerts (s : State) : (driveLamps s).alerts = s.alerts := rfl

@[simp] theorem driveLamps_counters (s : State) : (driveLamps s).counters = s.counters := rfl

@[simp] theorem driveLamps_port (s : State) : (driveLamps s).port = s.port := rfl

@[simp] theorem takeConditions_pending (s : State) : (takeConditions s).pending = s.pending := by
  rw [takeConditions_eq]

@[simp] theorem takeConditions_clock (s : State) : (takeConditions s).clock = s.clock := by
  rw [takeConditions_eq]

@[simp] theorem takeConditions_startup (s : State) : (takeConditions s).startup = s.startup := by
  rw [takeConditions_eq]

@[simp] theorem takeConditions_pendingCause (s : State) : (takeConditions s).pendingCause = s.pendingCause := by
  rw [takeConditions_eq]

@[simp] theorem takeConditions_restartHold (s : State) : (takeConditions s).restartHold = s.restartHold := by
  rw [takeConditions_eq]

@[simp] theorem takeConditions_loader (s : State) : (takeConditions s).loader = s.loader := by
  rw [takeConditions_eq]

@[simp] theorem takeConditions_cfg (s : State) : (takeConditions s).cfg = s.cfg := by
  rw [takeConditions_eq]

@[simp] theorem takeConditions_store (s : State) : (takeConditions s).store = s.store := by
  rw [takeConditions_eq]

@[simp] theorem takeConditions_inputs (s : State) : (takeConditions s).inputs = s.inputs := by
  rw [takeConditions_eq]

@[simp] theorem takeConditions_channels (s : State) : (takeConditions s).channels = s.channels := by
  rw [takeConditions_eq]

@[simp] theorem takeConditions_pairing (s : State) : (takeConditions s).pairing = s.pairing := by
  rw [takeConditions_eq]

@[simp] theorem takeConditions_probe (s : State) : (takeConditions s).probe = s.probe := by
  rw [takeConditions_eq]

@[simp] theorem takeConditions_vehicles (s : State) : (takeConditions s).vehicles = s.vehicles := by
  rw [takeConditions_eq]

@[simp] theorem takeConditions_nextSerial (s : State) : (takeConditions s).nextSerial = s.nextSerial := by
  rw [takeConditions_eq]

@[simp] theorem takeConditions_line (s : State) : (takeConditions s).line = s.line := by
  rw [takeConditions_eq]

@[simp] theorem takeConditions_peers (s : State) : (takeConditions s).peers = s.peers := by
  rw [takeConditions_eq]

@[simp] theorem takeConditions_approach (s : State) : (takeConditions s).approach = s.approach := by
  rw [takeConditions_eq]

@[simp] theorem takeConditions_signs (s : State) : (takeConditions s).signs = s.signs := by
  rw [takeConditions_eq]

@[simp] theorem takeConditions_lamps (s : State) : (takeConditions s).lamps = s.lamps := by
  rw [takeConditions_eq]

@[simp] theorem takeConditions_entry (s : State) : (takeConditions s).entry = s.entry := by
  rw [takeConditions_eq]

@[simp] theorem takeConditions_trim (s : State) : (takeConditions s).trim = s.trim := by
  rw [takeConditions_eq]

@[simp] theorem takeConditions_health (s : State) : (takeConditions s).health = s.health := by
  rw [takeConditions_eq]

@[simp] theorem takeConditions_counters (s : State) : (takeConditions s).counters = s.counters := by
  rw [takeConditions_eq]

@[simp] theorem takeConditions_port (s : State) : (takeConditions s).port = s.port := by
  rw [takeConditions_eq]

@[simp] theorem driveAlertLines_pending (s : State) : (driveAlertLines s).pending = s.pending := rfl

@[simp] theorem driveAlertLines_clock (s : State) : (driveAlertLines s).clock = s.clock := rfl

@[simp] theorem driveAlertLines_startup (s : State) : (driveAlertLines s).startup = s.startup := rfl

@[simp] theorem driveAlertLines_pendingCause (s : State) : (driveAlertLines s).pendingCause = s.pendingCause := rfl

@[simp] theorem driveAlertLines_restartHold (s : State) : (driveAlertLines s).restartHold = s.restartHold := rfl

@[simp] theorem driveAlertLines_loader (s : State) : (driveAlertLines s).loader = s.loader := rfl

@[simp] theorem driveAlertLines_cfg (s : State) : (driveAlertLines s).cfg = s.cfg := rfl

@[simp] theorem driveAlertLines_store (s : State) : (driveAlertLines s).store = s.store := rfl

@[simp] theorem driveAlertLines_inputs (s : State) : (driveAlertLines s).inputs = s.inputs := rfl

@[simp] theorem driveAlertLines_channels (s : State) : (driveAlertLines s).channels = s.channels := rfl

@[simp] theorem driveAlertLines_pairing (s : State) : (driveAlertLines s).pairing = s.pairing := rfl

@[simp] theorem driveAlertLines_probe (s : State) : (driveAlertLines s).probe = s.probe := rfl

@[simp] theorem driveAlertLines_vehicles (s : State) : (driveAlertLines s).vehicles = s.vehicles := rfl

@[simp] theorem driveAlertLines_nextSerial (s : State) : (driveAlertLines s).nextSerial = s.nextSerial := rfl

@[simp] theorem driveAlertLines_line (s : State) : (driveAlertLines s).line = s.line := rfl

@[simp] theorem driveAlertLines_peers (s : State) : (driveAlertLines s).peers = s.peers := rfl

@[simp] theorem driveAlertLines_approach (s : State) : (driveAlertLines s).approach = s.approach := rfl

@[simp] theorem driveAlertLines_signs (s : State) : (driveAlertLines s).signs = s.signs := rfl

@[simp] theorem driveAlertLines_lamps (s : State) : (driveAlertLines s).lamps = s.lamps := rfl

@[simp] theorem driveAlertLines_entry (s : State) : (driveAlertLines s).entry = s.entry := rfl

@[simp] theorem driveAlertLines_trim (s : State) : (driveAlertLines s).trim = s.trim := rfl

@[simp] theorem driveAlertLines_health (s : State) : (driveAlertLines s).health = s.health := rfl

@[simp] theorem driveAlertLines_counters (s : State) : (driveAlertLines s).counters = s.counters := rfl

@[simp] theorem driveAlertLines_port (s : State) : (driveAlertLines s).port = s.port := rfl

@[simp] theorem raise_pending (x : AlertSource) (s : State) : (raise x s).pending = s.pending := by
  rw [raise_eq]

@[simp] theorem raise_clock (x : AlertSource) (s : State) : (raise x s).clock = s.clock := by
  rw [raise_eq]

@[simp] theorem raise_startup (x : AlertSource) (s : State) : (raise x s).startup = s.startup := by
  rw [raise_eq]

@[simp] theorem raise_pendingCause (x : AlertSource) (s : State) : (raise x s).pendingCause = s.pendingCause := by
  rw [raise_eq]

@[simp] theorem raise_restartHold (x : AlertSource) (s : State) : (raise x s).restartHold = s.restartHold := by
  rw [raise_eq]

@[simp] theorem raise_loader (x : AlertSource) (s : State) : (raise x s).loader = s.loader := by
  rw [raise_eq]

@[simp] theorem raise_cfg (x : AlertSource) (s : State) : (raise x s).cfg = s.cfg := by
  rw [raise_eq]

@[simp] theorem raise_store (x : AlertSource) (s : State) : (raise x s).store = s.store := by
  rw [raise_eq]

@[simp] theorem raise_inputs (x : AlertSource) (s : State) : (raise x s).inputs = s.inputs := by
  rw [raise_eq]

@[simp] theorem raise_channels (x : AlertSource) (s : State) : (raise x s).channels = s.channels := by
  rw [raise_eq]

@[simp] theorem raise_pairing (x : AlertSource) (s : State) : (raise x s).pairing = s.pairing := by
  rw [raise_eq]

@[simp] theorem raise_probe (x : AlertSource) (s : State) : (raise x s).probe = s.probe := by
  rw [raise_eq]

@[simp] theorem raise_vehicles (x : AlertSource) (s : State) : (raise x s).vehicles = s.vehicles := by
  rw [raise_eq]

@[simp] theorem raise_nextSerial (x : AlertSource) (s : State) : (raise x s).nextSerial = s.nextSerial := by
  rw [raise_eq]

@[simp] theorem raise_line (x : AlertSource) (s : State) : (raise x s).line = s.line := by
  rw [raise_eq]

@[simp] theorem raise_peers (x : AlertSource) (s : State) : (raise x s).peers = s.peers := by
  rw [raise_eq]

@[simp] theorem raise_approach (x : AlertSource) (s : State) : (raise x s).approach = s.approach := by
  rw [raise_eq]

@[simp] theorem raise_signs (x : AlertSource) (s : State) : (raise x s).signs = s.signs := by
  rw [raise_eq]

@[simp] theorem raise_lamps (x : AlertSource) (s : State) : (raise x s).lamps = s.lamps := by
  rw [raise_eq]

@[simp] theorem raise_entry (x : AlertSource) (s : State) : (raise x s).entry = s.entry := by
  rw [raise_eq]

@[simp] theorem raise_trim (x : AlertSource) (s : State) : (raise x s).trim = s.trim := by
  rw [raise_eq]

@[simp] theorem raise_health (x : AlertSource) (s : State) : (raise x s).health = s.health := by
  rw [raise_eq]

@[simp] theorem raise_counters (x : AlertSource) (s : State) : (raise x s).counters = s.counters := by
  rw [raise_eq]

@[simp] theorem raise_port (x : AlertSource) (s : State) : (raise x s).port = s.port := by
  rw [raise_eq]

@[simp] theorem clearSource_pending (s : State) (x : AlertSource) : (clearSource s x).pending = s.pending := by
  rw [clearSource_eq]

@[simp] theorem clearSource_clock (s : State) (x : AlertSource) : (clearSource s x).clock = s.clock := by
  rw [clearSource_eq]

@[simp] theorem clearSource_startup (s : State) (x : AlertSource) : (clearSource s x).startup = s.startup := by
  rw [clearSource_eq]

@[simp] theorem clearSource_pendingCause (s : State) (x : AlertSource) : (clearSource s x).pendingCause = s.pendingCause := by
  rw [clearSource_eq]

@[simp] theorem clearSource_restartHold (s : State) (x : AlertSource) : (clearSource s x).restartHold = s.restartHold := by
  rw [clearSource_eq]

@[simp] theorem clearSource_loader (s : State) (x : AlertSource) : (clearSource s x).loader = s.loader := by
  rw [clearSource_eq]

@[simp] theorem clearSource_cfg (s : State) (x : AlertSource) : (clearSource s x).cfg = s.cfg := by
  rw [clearSource_eq]

@[simp] theorem clearSource_store (s : State) (x : AlertSource) : (clearSource s x).store = s.store := by
  rw [clearSource_eq]

@[simp] theorem clearSource_inputs (s : State) (x : AlertSource) : (clearSource s x).inputs = s.inputs := by
  rw [clearSource_eq]

@[simp] theorem clearSource_channels (s : State) (x : AlertSource) : (clearSource s x).channels = s.channels := by
  rw [clearSource_eq]

@[simp] theorem clearSource_pairing (s : State) (x : AlertSource) : (clearSource s x).pairing = s.pairing := by
  rw [clearSource_eq]

@[simp] theorem clearSource_probe (s : State) (x : AlertSource) : (clearSource s x).probe = s.probe := by
  rw [clearSource_eq]

@[simp] theorem clearSource_vehicles (s : State) (x : AlertSource) : (clearSource s x).vehicles = s.vehicles := by
  rw [clearSource_eq]

@[simp] theorem clearSource_nextSerial (s : State) (x : AlertSource) : (clearSource s x).nextSerial = s.nextSerial := by
  rw [clearSource_eq]

@[simp] theorem clearSource_line (s : State) (x : AlertSource) : (clearSource s x).line = s.line := by
  rw [clearSource_eq]

@[simp] theorem clearSource_peers (s : State) (x : AlertSource) : (clearSource s x).peers = s.peers := by
  rw [clearSource_eq]

@[simp] theorem clearSource_approach (s : State) (x : AlertSource) : (clearSource s x).approach = s.approach := by
  rw [clearSource_eq]

@[simp] theorem clearSource_signs (s : State) (x : AlertSource) : (clearSource s x).signs = s.signs := by
  rw [clearSource_eq]

@[simp] theorem clearSource_lamps (s : State) (x : AlertSource) : (clearSource s x).lamps = s.lamps := by
  rw [clearSource_eq]

@[simp] theorem clearSource_entry (s : State) (x : AlertSource) : (clearSource s x).entry = s.entry := by
  rw [clearSource_eq]

@[simp] theorem clearSource_trim (s : State) (x : AlertSource) : (clearSource s x).trim = s.trim := by
  rw [clearSource_eq]

@[simp] theorem clearSource_health (s : State) (x : AlertSource) : (clearSource s x).health = s.health := by
  rw [clearSource_eq]

@[simp] theorem clearSource_counters (s : State) (x : AlertSource) : (clearSource s x).counters = s.counters := by
  rw [clearSource_eq]

@[simp] theorem clearSource_port (s : State) (x : AlertSource) : (clearSource s x).port = s.port := by
  rw [clearSource_eq]

/-! ## One lemma per field for `settle` -/

@[simp] theorem settle_pending (s : State) : (settle s).pending = s.pending := by
  simp [settle]

@[simp] theorem settle_clock (s : State) : (settle s).clock = s.clock := by
  simp [settle]

@[simp] theorem settle_startup (s : State) : (settle s).startup = s.startup := by
  simp [settle]

@[simp] theorem settle_pendingCause (s : State) : (settle s).pendingCause = s.pendingCause := by
  simp [settle]

@[simp] theorem settle_restartHold (s : State) : (settle s).restartHold = s.restartHold := by
  simp [settle]

@[simp] theorem settle_loader (s : State) : (settle s).loader = s.loader := by
  simp [settle]

@[simp] theorem settle_cfg (s : State) : (settle s).cfg = s.cfg := by
  simp [settle]

@[simp] theorem settle_store (s : State) : (settle s).store = s.store := by
  simp [settle]

@[simp] theorem settle_inputs (s : State) : (settle s).inputs = s.inputs := by
  simp [settle]

@[simp] theorem settle_channels (s : State) : (settle s).channels = s.channels := by
  simp [settle]

@[simp] theorem settle_pairing (s : State) : (settle s).pairing = s.pairing := by
  simp [settle]

@[simp] theorem settle_probe (s : State) : (settle s).probe = s.probe := by
  simp [settle]

@[simp] theorem settle_vehicles (s : State) : (settle s).vehicles = s.vehicles := by
  simp [settle]

@[simp] theorem settle_nextSerial (s : State) : (settle s).nextSerial = s.nextSerial := by
  simp [settle]

@[simp] theorem settle_line (s : State) : (settle s).line = s.line := by
  simp [settle]

@[simp] theorem settle_peers (s : State) : (settle s).peers = s.peers := by
  simp [settle]

@[simp] theorem settle_approach (s : State) : (settle s).approach = s.approach := by
  simp [settle]

@[simp] theorem settle_trim (s : State) : (settle s).trim = s.trim := by
  simp [settle]

@[simp] theorem settle_health (s : State) : (settle s).health = s.health := by
  simp [settle]

@[simp] theorem settle_counters (s : State) : (settle s).counters = s.counters := by
  simp [settle]

@[simp] theorem settle_port (s : State) : (settle s).port = s.port := by
  simp [settle]

end Sys2Proof.Machine
end

