-- ==== Sys2Proof/Laws/Settled.lean ====
section
/-! SUPPORT. A settled state is left as it is by `settle`; and `settle` settles every state that is
ready for it. -/

namespace Sys2Proof.Machine

theorem mem_allLanes (l : Lane) : l ∈ allLanes := by fin_cases l <;> decide

theorem mem_allOutputs (o : Output) : o ∈ allOutputs := by fin_cases o <;> decide

theorem mem_allStrips (p : Strip) : p ∈ allStrips := by
  obtain ⟨l, a⟩ := p
  fin_cases l <;> cases a <;> decide

theorem mem_allStations (k : Station) : k ∈ allStations := by fin_cases k <;> decide

/-! ## The parts of `settled` -/

theorem settled_parts {s : State} :
    settled s = true ↔
      signsFollow s = true ∧ aspectsFollow s = true ∧ lampsFollow s = true ∧
        alertsTaken s = true ∧ alertLinesFollow s = true := by
  simp only [settled, Bool.and_eq_true, and_assoc]

theorem signsFollow_iff {s : State} :
    signsFollow s = true ↔ ∀ l, (s.signs.at l).blink.isSome = signRequested s l := by
  simp only [signsFollow, List.all_eq_true, decide_eq_true_eq]
  exact ⟨fun h l => h l (mem_allLanes l), fun h l _ => h l⟩

theorem aspectsFollow_iff {s : State} :
    aspectsFollow s = true ↔ ∀ l,
      if laneActs s l then shows (wantedAspect s l) (stopLine s l) = true
      else (stopLine s l).aspect = none ∧ (stopLine s l).amber = none := by
  simp only [aspectsFollow, List.all_eq_true]
  constructor
  · intro h l
    have := h l (mem_allLanes l)
    split <;> simp_all
  · intro h l _
    have := h l
    split <;> simp_all

theorem lampsFollow_iff {s : State} :
    lampsFollow s = true ↔ ∀ o, outputFollows s (outputOf s o) = true := by
  simp only [lampsFollow, List.all_eq_true]
  exact ⟨fun h o => h o (mem_allOutputs o), fun h o _ => h o⟩

theorem alertLinesFollow_iff {s : State} :
    alertLinesFollow s = true ↔
      s.alerts.lineA = lineWanted s AlertConfig.mapA ∧
        s.alerts.lineB = lineWanted s AlertConfig.mapB := by
  simp only [alertLinesFollow, Bool.and_eq_true, decide_eq_true_eq]

/-! ## `settle` leaves a settled state as it is -/

theorem driveSigns_id {s : State} (h : signsFollow s = true) : driveSigns s = s := by
  have h := signsFollow_iff.mp h
  have e : Tab.make 4 (fun l => followRequest s.clock (signRequested s l) (s.signs.at l)) = s.signs :=
    Tab.make_at _ fun l => by
      have hl := h l
      unfold followRequest
      split <;> rename_i hr
      · rw [hr] at hl
        obtain ⟨b, hb⟩ := Option.isSome_iff_exists.mp hl
        rw [hb]
      · have hn : (s.signs.at l).blink = none := by
          rw [Bool.not_eq_true] at hr
          rw [hr] at hl
          exact Option.not_isSome_iff_eq_none.mp (by simp [hl])
        rw [← hn]
  unfold driveSigns
  rw [e]

theorem followAspect_id {now : Clock} {w : Aspect} {x : StopLine} (h : shows w x = true) :
    followAspect now w x = x := by
  obtain ⟨q, hd, a, m, oc, st⟩ := x
  cases a with
  | none => simp [shows] at h
  | some a => cases a <;> cases w <;> cases m <;> simp_all [shows, followAspect]

theorem driveAspects_id {s : State} (h : aspectsFollow s = true) : driveAspects s = s := by
  have h := aspectsFollow_iff.mp h
  unfold driveAspects
  split
  · rename_i hacts
    have e : Tab.make 4 (fun l =>
        if laneInUse s l then followAspect s.clock (wantedAspect s l) (stopLine s l)
        else stopLine s l) = s.entry.lanes :=
      Tab.make_at _ fun l => by
        have hl := h l
        by_cases hu : laneInUse s l = true
        · simp only [laneActs, hacts, hu, Bool.and_self, if_true] at hl
          simp only [hu, if_true]
          rw [followAspect_id hl]; rfl
        · simp only [hu]; rfl
    rw [e]
  · rfl

theorem followDrive_id {s : State} {x : LampOutput} (h : outputFollows s x = true) :
    followDrive s.clock (demandOf s x.assignment) (isDriven s x (demandOf s x.assignment)) x = x := by
  simp only [outputFollows, Bool.and_eq_true, decide_eq_true_eq] at h
  obtain ⟨⟨hd, ho⟩, -⟩ := h
  rw [← hd]
  unfold followDrive
  rw [if_pos ho.symm]

theorem driveLamps_id {s : State} (h : lampsFollow s = true) : driveLamps s = s := by
  have h := lampsFollow_iff.mp h
  have e : (Tab.make 12 fun o =>
      let x := s.lamps.outputs.at o
      let d := demandOf s x.assignment
      followDrive s.clock d (isDriven s x d) x) = s.lamps.outputs :=
    Tab.make_at _ fun o => followDrive_id (h o)
  unfold driveLamps
  rw [e]

theorem takeRaw_id {s : State} {x : AlertSource} (h : (alertOf s x).remembered = rawState s x) :
    takeRaw s x = s := by
  simp only [takeRaw, h, if_true]

theorem foldl_takeRaw_id (l : List AlertSource) {s : State}
    (h : ∀ x ∈ l, (alertOf s x).remembered = rawState s x) : l.foldl takeRaw s = s := by
  induction l with
  | nil => rfl
  | cons x l ih =>
    rw [List.foldl_cons, takeRaw_id (h x (by simp))]
    exact ih fun y hy => h y (by simp [hy])

theorem takeConditions_id {s : State} (h : alertsTaken s = true) : takeConditions s = s := by
  unfold takeConditions
  split
  · rename_i hw
    simp only [alertsTaken, hw, if_true, List.all_eq_true, sourceTaken, Bool.and_eq_true,
      decide_eq_true_eq] at h
    exact foldl_takeRaw_id _ fun x hx => (h x hx).1
  · rfl

theorem driveAlertLines_id {s : State} (h : alertLinesFollow s = true) : driveAlertLines s = s := by
  obtain ⟨ha, hb⟩ := alertLinesFollow_iff.mp h
  unfold driveAlertLines
  rw [← ha, ← hb]

/-- A settled state is left as it is. -/
theorem settle_id {s : State} (h : settled s = true) : settle s = s := by
  obtain ⟨h1, h2, h3, h4, h5⟩ := settled_parts.mp h
  unfold settle
  rw [driveSigns_id h1, driveAspects_id h2, driveLamps_id h3, takeConditions_id h4,
    driveAlertLines_id h5]

/-! ## `settle` settles every state that is ready -/

/-- What must hold of a state for `settle` to settle it: lanes the entry controller works on have an
aspect, with the amber timer running exactly in AMBER, and no other lane has either; an output that
is off has no timer; no LEVEL source was left with a remembered true raw and a clear sticky. -/
structure Ready (u : State) : Prop where
  aspects : ∀ l,
    if laneActs u l then
      (stopLine u l).aspect.isSome = true ∧
        ((stopLine u l).amber.isSome = true ↔ (stopLine u l).aspect = some .amber)
    else (stopLine u l).aspect = none ∧ (stopLine u l).amber = none
  lamps : ∀ o, (outputOf u o).on = false →
    (outputOf u o).blanking = none ∧ (outputOf u o).openTimer = none
  alerts :
    if working u then
      ∀ x ∈ conditionSources, triggerOf u x = .level → (alertOf u x).remembered = true →
        (alertOf u x).sticky = true
    else u.alerts.sources = AlertUnit.afterReset.sources

theorem followAspect_shows {now : Clock} {w : Aspect} {x : StopLine} (hw : w ≠ .amber)
    (hs : x.aspect.isSome = true) (ha : x.amber.isSome = true ↔ x.aspect = some .amber) :
    shows w (followAspect now w x) = true := by
  obtain ⟨q, hd, a, m, oc, st⟩ := x
  cases a with
  | none => simp at hs
  | some a => cases a <;> cases w <;> cases m <;> simp_all [shows, followAspect]

theorem wantedAspect_ne_amber (s : State) (l : Lane) : wantedAspect s l ≠ .amber := by
  unfold wantedAspect
  split
  · decide
  · split
    · decide
    · split <;> decide

theorem followAspect_head (now : Clock) (w : Aspect) (x : StopLine) :
    (followAspect now w x).head = x.head := by
  unfold followAspect; split <;> rfl

/-- What `driveAspects` leaves of each lane. -/
theorem stopLine_driveAspects (s : State) (l : Lane) :
    stopLine (driveAspects s) l =
      if laneActs s l then followAspect s.clock (wantedAspect s l) (stopLine s l)
      else stopLine s l := by
  unfold driveAspects laneActs
  cases hacts : entryActs s <;> simp [stopLine]

theorem head_driveAspects (s : State) (l : Lane) :
    (stopLine (driveAspects s) l).head = (stopLine s l).head := by
  rw [stopLine_driveAspects]
  split
  · exact followAspect_head _ _ _
  · rfl

/-! What the parts of `settle` read of each other's results. -/

theorem followRequest_timer (now : Clock) (r : Bool) (x : Sign) :
    (followRequest now r x).timer = x.timer := by
  unfold followRequest
  split
  · split <;> rfl
  · rfl

theorem followRequest_blink (now : Clock) (r : Bool) (x : Sign) :
    (followRequest now r x).blink.isSome = r := by
  unfold followRequest
  cases r
  · rfl
  · simp only [if_true]
    split <;> simp_all

theorem followDrive_kept (now : Clock) (d v : Bool) (x : LampOutput) :
    (followDrive now d v x).assignment = x.assignment ∧
      (followDrive now d v x).enable = x.enable ∧ (followDrive now d v x).latch = x.latch ∧
        (followDrive now d v x).demand = d ∧ (followDrive now d v x).on = v := by
  unfold followDrive
  split
  · rename_i h; exact ⟨rfl, rfl, rfl, rfl, h.symm⟩
  · split
    · rename_i h; exact ⟨rfl, rfl, rfl, rfl, h.symm⟩
    · rename_i h; exact ⟨rfl, rfl, rfl, rfl, by simpa using h⟩

theorem signs_driveSigns (s : State) (l : Lane) :
    (driveSigns s).signs.at l = followRequest s.clock (signRequested s l) (s.signs.at l) := by
  simp [driveSigns]

theorem outputs_driveLamps (s : State) (o : Output) :
    outputOf (driveLamps s) o =
      followDrive s.clock (demandOf s (outputOf s o).assignment)
        (isDriven s (outputOf s o) (demandOf s (outputOf s o).assignment)) (outputOf s o) := by
  simp [driveLamps, outputOf]

theorem groupFaulted_driveLamps (s : State) (l : Lane) :
    groupFaulted (driveLamps s) l = groupFaulted s l := by
  unfold groupFaulted
  congr 1
  funext o
  have h := followDrive_kept s.clock (demandOf s (outputOf s o).assignment)
    (isDriven s (outputOf s o) (demandOf s (outputOf s o).assignment)) (outputOf s o)
  have e := outputs_driveLamps s o
  simp only [outputOf] at e h
  rw [e]
  simp only [LampOutput.inGroup, h.1, h.2.2.1]

/-- The parts of the state that the conditions of `settled` read. -/
structure SameView (s t : State) : Prop where
  startup : t.startup = s.startup
  cfg : t.cfg = s.cfg
  health : t.health = s.health

theorem laneMode_congr {s t : State} (h : t.health = s.health) (l : Lane) :
    laneMode t l = laneMode s l := by
  simp only [laneMode, stripFailed, healthOf, h]

theorem working_congr {s t : State} (h : t.startup = s.startup) : working t = working s := by
  simp only [working, h]

theorem laneInUse_congr {s t : State} (h : t.cfg = s.cfg) (l : Lane) :
    laneInUse t l = laneInUse s l := by
  simp only [laneInUse, h]

theorem laneBlind_congr {s t : State} (hc : t.cfg = s.cfg) (hh : t.health = s.health) (l : Lane) :
    laneBlind t l = laneBlind s l := by
  simp only [laneBlind, laneInUse_congr hc, laneMode_congr hh]

theorem laneActs_congr {s t : State} (hs : t.startup = s.startup) (hc : t.cfg = s.cfg) (l : Lane) :
    laneActs t l = laneActs s l := by
  simp only [laneActs, entryActs, working_congr hs, laneInUse_congr hc, hc]

theorem groupFaulted_congr {s t : State} (h : t.lamps = s.lamps) (l : Lane) :
    groupFaulted t l = groupFaulted s l := by
  simp only [groupFaulted, h]

theorem signRequested_congr {s t : State} (hs : t.startup = s.startup) (hc : t.cfg = s.cfg)
    (hh : t.health = s.health) {l : Lane} (ht : (t.signs.at l).timer = (s.signs.at l).timer) :
    signRequested t l = signRequested s l := by
  simp only [signRequested, working_congr hs, hc, laneInUse_congr hc, ht, laneMode_congr hh]

theorem wantedAspect_congr {s t : State} (hc : t.cfg = s.cfg) (hh : t.health = s.health) {l : Lane}
    (hg : groupFaulted t l = groupFaulted s l) (hd : (stopLine t l).head = (stopLine s l).head) :
    wantedAspect t l = wantedAspect s l := by
  simp only [wantedAspect, hg, laneBlind_congr hc hh, hd]

theorem alertConfig_congr {s t : State} (hc : t.cfg = s.cfg) (x : AlertSource) :
    alertConfig t x = alertConfig s x := by
  simp only [alertConfig, hc]

theorem triggerOf_congr {s t : State} (hc : t.cfg = s.cfg) (x : AlertSource) :
    triggerOf t x = triggerOf s x := by
  simp only [triggerOf, alertConfig_congr hc]

theorem rawState_congr {s t : State} (hl : t.lamps = s.lamps) (hc : t.cfg = s.cfg)
    (hh : t.health = s.health) (he : t.entry = s.entry)
    (hp : t.peers.posture = s.peers.posture) (hb : t.probe.theta = s.probe.theta)
    (x : AlertSource) : rawState t x = rawState s x := by
  have hi : ∀ l, laneInUse t l = laneInUse s l := laneInUse_congr hc
  have hm : ∀ l, laneMode t l = laneMode s l := laneMode_congr hh
  have hbl : ∀ l, laneBlind t l = laneBlind s l := laneBlind_congr hc hh
  have hu : lanesInUse t = lanesInUse s := by
    unfold lanesInUse; congr 1; funext l; exact hi l
  cases x <;> simp only [rawState, hl, hu, hm, he, hp, hb, hh, healthOf]
  congr 1; funext l; exact hbl l

/-! Condition sources. -/

theorem takeRaw_alertOf (s : State) (x : AlertSource) :
    (alertOf (takeRaw s x) x).remembered = rawState s x := by
  simp only [takeRaw]
  split
  · rename_i h; exact h.symm
  · split <;> simp

theorem takeRaw_alertOf_ne (s : State) {x y : AlertSource} (h : y ≠ x) :
    alertOf (takeRaw s x) y = alertOf s y := by
  simp only [takeRaw]
  repeat' split
  · rfl
  · exact alertOf_setAlert_ne _ _ h
  · exact alertOf_setAlert_ne _ _ h

theorem takeRaw_level (s : State) (x : AlertSource) (ht : triggerOf s x = .level)
    (h : (alertOf s x).remembered = true → (alertOf s x).sticky = true) :
    rawState s x = true → (alertOf (takeRaw s x) x).sticky = true := by
  intro hr
  simp only [takeRaw]
  split
  · rename_i e; exact h (by rw [← e, hr])
  · split
    · simp
    · rename_i hs; simp [ht, Trigger.sets, hr] at hs

theorem rawState_takeRaw (s : State) (x y : AlertSource) :
    rawState (takeRaw s x) y = rawState s y := by
  obtain ⟨v, hv⟩ := takeRaw_put s x
  rw [hv]
  exact rawState_congr (s := s) rfl rfl rfl rfl rfl rfl y

theorem triggerOf_takeRaw (s : State) (x y : AlertSource) :
    triggerOf (takeRaw s x) y = triggerOf s y := by
  obtain ⟨v, hv⟩ := takeRaw_put s x
  rw [hv]
  exact triggerOf_congr (s := s) rfl y

theorem foldl_takeRaw_taken (l : List AlertSource) (hn : l.Nodup) (s : State)
    (h : ∀ x ∈ l, triggerOf s x = .level → (alertOf s x).remembered = true →
      (alertOf s x).sticky = true) :
    (∀ x ∈ l, (alertOf (l.foldl takeRaw s) x).remembered = rawState s x ∧
      (triggerOf s x = .level → rawState s x = true →
        (alertOf (l.foldl takeRaw s) x).sticky = true)) ∧
    ∀ y, y ∉ l → alertOf (l.foldl takeRaw s) y = alertOf s y := by
  induction l generalizing s with
  | nil => simp
  | cons x l ih =>
    have hx : x ∉ l := (List.nodup_cons.mp hn).1
    have hl : l.Nodup := (List.nodup_cons.mp hn).2
    have hne : ∀ y ∈ l, y ≠ x := fun y hy e => hx (e ▸ hy)
    obtain ⟨i1, i2⟩ := ih hl (takeRaw s x) fun y hy => by
      rw [triggerOf_takeRaw, takeRaw_alertOf_ne s (hne y hy)]
      exact h y (by simp [hy])
    simp only [rawState_takeRaw, triggerOf_takeRaw] at i1
    refine ⟨fun y hy => ?_, fun y hy => ?_⟩
    · rcases List.mem_cons.mp hy with rfl | hy
      · rw [List.foldl_cons, i2 y hx]
        exact ⟨takeRaw_alertOf s y, fun ht hr => takeRaw_level s y ht (h y (by simp) ht) hr⟩
      · rw [List.foldl_cons]
        exact i1 y hy
    · have : y ≠ x ∧ y ∉ l := by simpa [not_or] using hy
      rw [List.foldl_cons, i2 y this.2, takeRaw_alertOf_ne s this.1]

theorem conditionSources_nodup : conditionSources.Nodup := by decide

/-- The source states of a source that is no condition source are not touched by `settle`. -/
theorem alertOf_takeConditions_event (s : State) {x : AlertSource} (h : isCondition x = false) :
    alertOf (takeConditions s) x = alertOf s x := by
  have hx : x ∉ conditionSources := by cases x <;> simp_all [isCondition, conditionSources]
  have key : ∀ (l : List AlertSource) (s : State), x ∉ l →
      alertOf (l.foldl takeRaw s) x = alertOf s x := by
    intro l
    induction l with
    | nil => intro s _; rfl
    | cons y l ih =>
      intro s hy
      have hy : x ≠ y ∧ x ∉ l := by simpa [not_or] using hy
      rw [List.foldl_cons, ih _ hy.2, takeRaw_alertOf_ne s hy.1]
  unfold takeConditions
  split
  · exact key _ _ hx
  · rfl

theorem alertsTaken_takeConditions {s : State}
    (h : if working s then
      ∀ x ∈ conditionSources, triggerOf s x = .level → (alertOf s x).remembered = true →
        (alertOf s x).sticky = true
      else s.alerts.sources = AlertUnit.afterReset.sources) :
    alertsTaken (takeConditions s) = true := by
  have hw : working (takeConditions s) = working s := working_congr (by simp)
  unfold alertsTaken
  rw [hw]
  cases hws : working s
  · simp only [hws] at h
    simp only [takeConditions, hws]
    simpa using h
  · simp only [hws, if_true] at h
    simp only [if_true, List.all_eq_true]
    intro x hx
    have e : takeConditions s = conditionSources.foldl takeRaw s := by
      simp [takeConditions, hws]
    obtain ⟨a, b⟩ := (foldl_takeRaw_taken _ conditionSources_nodup s h).1 x hx
    have hr : rawState (takeConditions s) x = rawState s x := by
      obtain ⟨v, hv⟩ := takeConditions_put s
      rw [hv]; exact rawState_congr (s := s) rfl rfl rfl rfl rfl rfl x
    have ht : triggerOf (takeConditions s) x = triggerOf s x := triggerOf_congr (by simp) x
    unfold sourceTaken
    rw [hr, ht, e, a]
    cases hr' : rawState s x
    · simp
    · by_cases hl : triggerOf s x = .level
      · simp [hl, b hl hr']
      · simp [hl]

/-! The whole. -/

theorem isDriven_congr {s t : State} {x : LampOutput} {d : Bool}
    (h : ∀ l, groupFaulted t l = groupFaulted s l) : isDriven t x d = isDriven s x d := by
  unfold isDriven ownGroupFaulted
  cases x.assignment with
  | none => rfl
  | some a => simp [h]

theorem demandOf_congr {s t : State} (hs : t.signs = s.signs)
    (he : t.entry.lanes = s.entry.lanes) (a : Option (Lane × Lamp)) :
    demandOf t a = demandOf s a := by
  unfold demandOf stopLine
  rw [hs, he]

/-- The result of `settle`, part by part. -/
theorem settle_parts (u : State) :
    ∃ v, settle u = driveAlertLines (putSources (driveLamps (driveAspects (driveSigns u))) v) ∧
      takeConditions (driveLamps (driveAspects (driveSigns u))) =
        putSources (driveLamps (driveAspects (driveSigns u))) v := by
  obtain ⟨v, hv⟩ := takeConditions_put (driveLamps (driveAspects (driveSigns u)))
  exact ⟨v, by unfold settle; rw [hv], hv⟩

@[simp] theorem settle_signs (u : State) : (settle u).signs = (driveSigns u).signs := by
  simp [settle]

@[simp] theorem settle_entry (u : State) : (settle u).entry = (driveAspects (driveSigns u)).entry := by
  simp [settle]

@[simp] theorem settle_lamps (u : State) :
    (settle u).lamps = (driveLamps (driveAspects (driveSigns u))).lamps := by
  simp [settle]

theorem stopLine_settle (u : State) (l : Lane) :
    stopLine (settle u) l =
      if laneActs u l then followAspect u.clock (wantedAspect u l) (stopLine u l)
      else stopLine u l := by
  have e : stopLine (settle u) l = stopLine (driveAspects (driveSigns u)) l := by
    simp only [stopLine, settle_entry]
  rw [e, stopLine_driveAspects]
  have h1 : laneActs (driveSigns u) l = laneActs u l := laneActs_congr rfl rfl l
  have h2 : wantedAspect (driveSigns u) l = wantedAspect u l :=
    wantedAspect_congr rfl rfl rfl rfl
  rw [h1, h2]
  rfl

theorem outputOf_settle (u : State) (o : Output) :
    outputOf (settle u) o =
      followDrive u.clock (demandOf (settle u) (outputOf u o).assignment)
        (isDriven u (outputOf u o) (demandOf (settle u) (outputOf u o).assignment))
        (outputOf u o) := by
  have e : outputOf (settle u) o = outputOf (driveLamps (driveAspects (driveSigns u))) o := by
    simp only [outputOf, settle_lamps]
  have ho : outputOf (driveAspects (driveSigns u)) o = outputOf u o := by simp [outputOf]
  have hd : ∀ a, demandOf (settle u) a = demandOf (driveAspects (driveSigns u)) a := fun a =>
    demandOf_congr (by simp) (by simp) a
  have hg : ∀ l, groupFaulted (driveAspects (driveSigns u)) l = groupFaulted u l := fun l =>
    groupFaulted_congr (by simp) l
  have hv : ∀ x d, isDriven (driveAspects (driveSigns u)) x d = isDriven u x d := fun x d =>
    isDriven_congr hg
  rw [e, outputs_driveLamps, ho]
  simp only [hd, hv, driveAspects_clock, driveSigns_clock]

theorem groupFaulted_settle (u : State) (l : Lane) : groupFaulted (settle u) l = groupFaulted u l := by
  have h1 : groupFaulted (settle u) l = groupFaulted (driveLamps (driveAspects (driveSigns u))) l :=
    groupFaulted_congr (by simp) l
  rw [h1, groupFaulted_driveLamps]
  exact groupFaulted_congr (by simp) l

theorem wantedAspect_settle (u : State) (l : Lane) : wantedAspect (settle u) l = wantedAspect u l :=
  wantedAspect_congr (by simp) (by simp) (groupFaulted_settle u l) (by
    rw [stopLine_settle]
    split
    · exact followAspect_head _ _ _
    · rfl)

theorem lineWanted_congr {s t : State} (hl : t.lamps = s.lamps) (hc : t.cfg = s.cfg)
    (hh : t.health = s.health) (he : t.entry = s.entry)
    (hp : t.peers.posture = s.peers.posture) (hb : t.probe.theta = s.probe.theta)
    (hs : t.startup = s.startup) (ha : t.alerts.sources = s.alerts.sources) (m : AlertConfig → Bool) :
    lineWanted t m = lineWanted s m := by
  have hx : ∀ x, isActive t x = isActive s x := fun x => by
    simp only [isActive, alertConfig_congr hc, rawState_congr hl hc hh he hp hb, alertOf, ha]
  simp only [lineWanted, hs, anyActive, alertConfig_congr hc, hx]

/-- `settle` settles every state that is ready for it. -/
theorem settled_settle {u : State} (h : Ready u) : settled (settle u) = true := by
  refine settled_parts.mpr ⟨?_, ?_, ?_, ?_, ?_⟩
  · refine signsFollow_iff.mpr fun l => ?_
    have e : signRequested (settle u) l = signRequested u l :=
      signRequested_congr (by simp) (by simp) (by simp)
        (by rw [settle_signs, signs_driveSigns, followRequest_timer])
    rw [e, settle_signs, signs_driveSigns, followRequest_blink]
  · refine aspectsFollow_iff.mpr fun l => ?_
    have ha : laneActs (settle u) l = laneActs u l := laneActs_congr (by simp) (by simp) l
    have hl := h.aspects l
    rw [ha, wantedAspect_settle, stopLine_settle]
    cases hacts : laneActs u l
    · simp only [hacts] at hl
      simpa using hl
    · simp only [hacts, if_true] at hl ⊢
      exact followAspect_shows (wantedAspect_ne_amber u l) hl.1 hl.2
  · refine lampsFollow_iff.mpr fun o => ?_
    have hl := h.lamps o
    rw [outputOf_settle]
    generalize hx : outputOf u o = x at hl ⊢
    generalize hd : demandOf (settle u) x.assignment = d
    generalize hv : isDriven u x d = v
    obtain ⟨k1, k2, k3, k4, k5⟩ := followDrive_kept u.clock d v x
    have hdr : isDriven (settle u) (followDrive u.clock d v x) d = v := by
      rw [isDriven_congr (groupFaulted_settle u)]
      refine Eq.trans ?_ hv
      unfold isDriven ownGroupFaulted
      rw [k1, k2]
    unfold outputFollows
    rw [k1, k4, k5, hd, hdr]
    simp only [decide_true, Bool.true_and]
    cases v
    · simp only [Bool.false_or]
      cases hon : x.on
      · have := hl hon
        simp [followDrive, hon, this.1, this.2]
      · simp [followDrive, hon]
    · simp
  · have e : alertsTaken (settle u) = alertsTaken (takeConditions (driveLamps (driveAspects (driveSigns u)))) := by
      have hs : ∀ x, sourceTaken (settle u) x =
          sourceTaken (takeConditions (driveLamps (driveAspects (driveSigns u)))) x := fun x => by
        unfold settle
        generalize takeConditions (driveLamps (driveAspects (driveSigns u))) = w
        unfold sourceTaken
        rw [rawState_congr (s := w) (t := driveAlertLines w) rfl rfl rfl rfl rfl rfl x,
          triggerOf_congr (s := w) (t := driveAlertLines w) rfl x]
        rfl
      unfold alertsTaken
      have hf : (fun x => sourceTaken (settle u) x) = fun x =>
          sourceTaken (takeConditions (driveLamps (driveAspects (driveSigns u)))) x := funext hs
      rw [show sourceTaken (settle u) = _ from hf]
      rfl
    rw [e]
    apply alertsTaken_takeConditions
    have hw : working (driveLamps (driveAspects (driveSigns u))) = working u :=
      working_congr (by simp)
    have ht : ∀ x, triggerOf (driveLamps (driveAspects (driveSigns u))) x = triggerOf u x :=
      fun x => triggerOf_congr (by simp) x
    have ha : ∀ x, alertOf (driveLamps (driveAspects (driveSigns u))) x = alertOf u x :=
      fun x => by simp [alertOf]
    have h' := h.alerts
    rw [hw]
    simp only [ht, ha]
    simpa using h'
  · refine alertLinesFollow_iff.mpr ?_
    unfold settle
    generalize takeConditions (driveLamps (driveAspects (driveSigns u))) = w
    exact ⟨(lineWanted_congr (s := w) rfl rfl rfl rfl rfl rfl rfl rfl _).symm,
      (lineWanted_congr (s := w) rfl rfl rfl rfl rfl rfl rfl rfl _).symm⟩

/-! ## States that agree on what `settled` reads -/

/-- Two states that agree on start-up state, configuration, strip health, signs, lamps, entry
controller, alert unit, posture and temperature are settled together. -/
theorem settled_congr {s t : State} (hs : t.startup = s.startup) (hc : t.cfg = s.cfg)
    (hh : t.health = s.health) (hg : t.signs = s.signs) (hl : t.lamps = s.lamps)
    (he : t.entry = s.entry) (ha : t.alerts = s.alerts)
    (hp : t.peers.posture = s.peers.posture) (hb : t.probe.theta = s.probe.theta) :
    settled t = settled s := by
  have hgf : ∀ l, groupFaulted t l = groupFaulted s l := groupFaulted_congr hl
  have h1 : signsFollow t = signsFollow s := by
    unfold signsFollow
    simp only [hg, fun l => signRequested_congr hs hc hh (l := l) (by rw [hg])]
  have h2 : aspectsFollow t = aspectsFollow s := by
    have hst : ∀ l, stopLine t l = stopLine s l := fun l => by simp only [stopLine, he]
    unfold aspectsFollow
    simp only [laneActs_congr hs hc, hst,
      fun l => wantedAspect_congr hc hh (hgf l) (by rw [hst] : (stopLine t l).head = _)]
  have h3 : lampsFollow t = lampsFollow s := by
    have ho : ∀ o, outputOf t o = outputOf s o := fun o => by simp only [outputOf, hl]
    have hd : ∀ a, demandOf t a = demandOf s a := fun a => demandOf_congr hg (by rw [he]) a
    unfold lampsFollow outputFollows
    simp only [ho, hd, isDriven_congr hgf]
  have hx : ∀ x, sourceTaken t x = sourceTaken s x := fun x => by
    have hx : alertOf t x = alertOf s x := by simp only [alertOf, ha]
    unfold sourceTaken
    rw [rawState_congr hl hc hh he hp hb, triggerOf_congr hc, hx]
  have h4 : alertsTaken t = alertsTaken s := by
    have : sourceTaken t = sourceTaken s := funext hx
    simp only [alertsTaken, working_congr hs, this, ha]
  have h5 : alertLinesFollow t = alertLinesFollow s := by
    unfold alertLinesFollow
    rw [ha, lineWanted_congr hl hc hh he hp hb hs (by rw [ha]),
      lineWanted_congr hl hc hh he hp hb hs (by rw [ha])]
  unfold settled
  rw [h1, h2, h3, h4, h5]

/-- A settled state is ready. -/
theorem ready_of_settled {s : State} (h : settled s = true) : Ready s := by
  obtain ⟨-, h2, h3, h4, -⟩ := settled_parts.mp h
  refine ⟨fun l => ?_, fun o ho => ?_, ?_⟩
  · have := aspectsFollow_iff.mp h2 l
    split at this
    · rename_i hl
      rw [if_pos hl]
      generalize stopLine s l = x at this
      obtain ⟨q, hd, a, m, oc, st⟩ := x
      cases a with
      | none => simp [shows] at this
      | some a =>
        have hw := wantedAspect_ne_amber s l
        generalize wantedAspect s l = w at this hw
        cases a <;> cases m <;> cases w <;> simp_all [shows]
    · rename_i hl
      rw [if_neg hl]
      exact this
  · have := lampsFollow_iff.mp h3 o
    simp only [outputFollows, ho, Bool.and_eq_true, Bool.false_or] at this
    exact ⟨Option.isNone_iff_eq_none.mp this.2.1, Option.isNone_iff_eq_none.mp this.2.2⟩
  · unfold alertsTaken at h4
    split
    · rename_i hw
      simp only [hw, if_true, List.all_eq_true, sourceTaken, Bool.and_eq_true] at h4
      intro x hx ht hr
      have := h4 x hx
      rw [decide_eq_true_eq] at this
      rw [this.1] at hr
      simpa [ht, hr] using this.2
    · rename_i hw
      simpa [hw] using h4

theorem bareEntry_settle (u : State) : bareEntry (settle u).entry = bareEntry u.entry := by
  have hl : ∀ l, ({ stopLine (settle u) l with aspect := none, amber := none } : StopLine) =
      { stopLine u l with aspect := none, amber := none } := fun l => by
    rw [stopLine_settle]
    split
    · unfold followAspect; split <;> rfl
    · rfl
  have he : (settle u).entry = { u.entry with lanes := (settle u).entry.lanes } := by
    rw [settle_entry, driveAspects_eq]; rfl
  have hm : (Tab.make 4 fun l =>
      ({ (settle u).entry.lanes.at l with aspect := none, amber := none } : StopLine)) =
      Tab.make 4 fun l => { u.entry.lanes.at l with aspect := none, amber := none } := by
    congr 1
    funext l
    exact hl l
  unfold bareEntry
  rw [hm]
  rw [he]

theorem bareLamps_settle (u : State) : bareLamps (settle u).lamps = bareLamps u.lamps := by
  have ho : ∀ o, ({ outputOf (settle u) o with
        demand := false, on := false, blanking := none, low := false, openTimer := none } : LampOutput) =
      { outputOf u o with
        demand := false, on := false, blanking := none, low := false, openTimer := none } := fun o => by
    rw [outputOf_settle]
    unfold followDrive
    split
    · rfl
    · split <;> rfl
  have hp : (settle u).lamps.proving = u.lamps.proving := by
    rw [settle_lamps]; simp [driveLamps]
  unfold bareLamps
  have hm : (Tab.make 12 fun o => ({ (settle u).lamps.outputs.at o with
        demand := false, on := false, blanking := none, low := false, openTimer := none } : LampOutput)) =
      Tab.make 12 fun o => { u.lamps.outputs.at o with
        demand := false, on := false, blanking := none, low := false, openTimer := none } := by
    congr 1
    funext o
    exact ho o
  rw [hm, hp]

theorem bareSigns_settle (u : State) : bareSigns (settle u).signs = bareSigns u.signs := by
  unfold bareSigns
  congr 1
  funext l
  rw [settle_signs, signs_driveSigns]
  unfold followRequest
  split
  · split <;> rfl
  · rfl

theorem alertOf_settle_event (u : State) {x : AlertSource} (h : isCondition x = false) :
    alertOf (settle u) x = alertOf u x := by
  have e : alertOf (settle u) x = alertOf (takeConditions (driveLamps (driveAspects (driveSigns u)))) x := by
    unfold settle; rfl
  rw [e, alertOf_takeConditions_event _ h]
  simp [alertOf]

/-- What `settle` writes follows other state; nothing else differs. -/
theorem settle_followsOnly (u : State) : followsOnly u (settle u) :=
  ⟨bareEntry_settle u, bareLamps_settle u, bareSigns_settle u,
    fun _ h => alertOf_settle_event u h⟩

/-- `settle` writes signs, lamps, the entry controller and the alert unit only. -/
theorem settle_changesOnly (u : State) :
    changesOnly [.signs, .lamps, .entry, .alerts] u (settle u) := by
  intro b hb
  cases b <;> simp_all [same]

end Sys2Proof.Machine
end

