-- ==== Sys2Proof/Laws/Footprint.lean ====
section
/-! SUPPORT. What the shared operations can touch, said once for each: the parts of the state that may
differ after it. A frame proof chains these with `changesOnly_trans` and widens with
`changesOnly_mono`, and unfolds no operation. -/

namespace Sys2Proof.Machine

/-! ## The relation -/

theorem changesOnly_refl (l : List Block) (s : State) : changesOnly l s s := by
  intro b _
  cases b <;> rfl

theorem changesOnly_trans {l : List Block} {s t u : State} (h : changesOnly l s t)
    (k : changesOnly l t u) : changesOnly l s u := by
  intro b hb
  have x := h b hb
  have y := k b hb
  cases b <;> exact Eq.trans y x

theorem changesOnly_mono {l m : List Block} {s t : State} (h : changesOnly l s t) (hl : l ⊆ m) :
    changesOnly m s t :=
  fun b hb => h b fun k => hb (hl k)

/-- Two operations one after the other touch what either touches. -/
theorem changesOnly_append {l m : List Block} {s t u : State} (h : changesOnly l s t)
    (k : changesOnly m t u) : changesOnly (l ++ m) s u :=
  changesOnly_trans (changesOnly_mono h (List.subset_append_left l m))
    (changesOnly_mono k (List.subset_append_right l m))

/-! ## Writing one part -/

theorem touches_line (s : State) (x : Line) : changesOnly [.line] s { s with line := x } := by
  intro b hb; cases b <;> first | rfl | simp at hb

theorem touches_alerts (s : State) (x : AlertUnit) :
    changesOnly [.alerts] s { s with alerts := x } := by
  intro b hb; cases b <;> first | rfl | simp at hb

theorem touches_entry (s : State) (x : EntryController) :
    changesOnly [.entry] s { s with entry := x } := by
  intro b hb; cases b <;> first | rfl | simp at hb

theorem touches_peers (s : State) (x : Peers) : changesOnly [.peers] s { s with peers := x } := by
  intro b hb; cases b <;> first | rfl | simp at hb

theorem touches_approach (s : State) (x : Approach) :
    changesOnly [.approach] s { s with approach := x } := by
  intro b hb; cases b <;> first | rfl | simp at hb

theorem touches_counters (s : State) (x : Counters) :
    changesOnly [.counters] s { s with counters := x } := by
  intro b hb; cases b <;> first | rfl | simp at hb

theorem touches_trim (s : State) (x : Tab TrimLane 4) :
    changesOnly [.trim] s { s with trim := x } := by
  intro b hb; cases b <;> first | rfl | simp at hb

theorem touches_store (s : State) (x : Store) : changesOnly [.store] s { s with store := x } := by
  intro b hb; cases b <;> first | rfl | simp at hb

theorem touches_signs (s : State) (x : Tab Sign 4) :
    changesOnly [.signs] s { s with signs := x } := by
  intro b hb; cases b <;> first | rfl | simp at hb

theorem touches_health (s : State) (x : Health) :
    changesOnly [.health] s { s with health := x } := by
  intro b hb; cases b <;> first | rfl | simp at hb

theorem touches_pairing (s : State) (x : Tab PairingUnit 4) :
    changesOnly [.pairing] s { s with pairing := x } := by
  intro b hb; cases b <;> first | rfl | simp at hb

theorem touches_vehicles (s : State) (x : Tab (Option OpenVehicle) 4) :
    changesOnly [.vehicles] s { s with vehicles := x } := by
  intro b hb; cases b <;> first | rfl | simp at hb

theorem touches_nextSerial (s : State) (x : BitVec 12) :
    changesOnly [.nextSerial] s { s with nextSerial := x } := by
  intro b hb; cases b <;> first | rfl | simp at hb

/-! ## The alert unit -/

theorem raise_touches (x : AlertSource) (s : State) : changesOnly [.alerts] s (raise x s) := by
  rw [raise_eq]; exact touches_alerts s _

theorem takeConditions_touches (s : State) : changesOnly [.alerts] s (takeConditions s) := by
  rw [takeConditions_eq]; exact touches_alerts s _

/-! ## The outbound queue (R61 to R65) -/

theorem takeIntoFlight_touches (s : State) : changesOnly [.line] s (takeIntoFlight s) := by
  unfold takeIntoFlight
  repeat' split
  all_goals first | exact changesOnly_refl _ _ | exact touches_line s _

theorem dropFrame_touches (s : State) : changesOnly [.line, .alerts] s (dropFrame s) :=
  changesOnly_append (touches_line s _) (raise_touches _ _)

theorem queueFrame_touches (n : Notice) (s : State) :
    changesOnly [.line, .alerts] s (queueFrame n s) := by
  simp only [queueFrame]
  repeat' split
  · exact changesOnly_mono (touches_line s _) (by simp)
  · exact changesOnly_mono (touches_line s _) (by simp)
  · exact changesOnly_trans (changesOnly_mono (touches_line s _) (by simp)) (dropFrame_touches _)
  · exact dropFrame_touches s

theorem enqueue_touches (n : Notice) (s : State) : changesOnly [.line, .alerts] s (enqueue n s) :=
  changesOnly_trans (queueFrame_touches n s)
    (changesOnly_mono (takeIntoFlight_touches _) (by simp))

theorem discardSightings_touches (t : Tag) (s : State) :
    changesOnly [.line] s (discardSightings t s) := touches_line s _

theorem finishFlight_touches (s : State) : changesOnly [.line] s (finishFlight s) :=
  changesOnly_trans (touches_line s _) (takeIntoFlight_touches _)

/-! ## The entry controller (chapter 8) -/

theorem setHead_touches (l : Lane) (h : HeadState) (s : State) :
    changesOnly [.entry] s (setHead l h s) := touches_entry s _

theorem becomeHeld_touches (l : Lane) (w : Nat) (s : State) :
    changesOnly [.entry] s (becomeHeld l w s) := touches_entry s _

theorem popHead_touches (l : Lane) (s : State) : changesOnly [.entry] s (popHead l s) :=
  touches_entry s _

theorem leaveHeld_touches (l : Lane) (s : State) : changesOnly [.entry] s (leaveHeld l s) :=
  touches_entry s _

theorem arbiterFrom_touches (l : List Lane) (s : State) :
    changesOnly [.entry] s (arbiterFrom l s) := by
  induction l generalizing s with
  | nil => exact changesOnly_refl _ _
  | cons k l ih =>
    simp only [arbiterFrom]
    repeat' split
    · exact changesOnly_trans (touches_entry s _) (ih _)
    · exact setHead_touches _ _ _
    · exact changesOnly_refl _ _

theorem runArbiter_touches (s : State) : changesOnly [.entry] s (runArbiter s) := by
  unfold runArbiter
  split
  · exact arbiterFrom_touches _ _
  · exact changesOnly_refl _ _

theorem clearLost_touches (s : State) : changesOnly [.entry] s (clearLost s) := by
  unfold clearLost
  split
  · exact touches_entry s _
  · exact changesOnly_refl _ _

theorem setLost_touches (s : State) : changesOnly [.entry, .alerts] s (setLost s) :=
  changesOnly_append (touches_entry s _) (raise_touches _ _)

theorem joinSpan_touches (e : SpanEntry) (s : State) : changesOnly [.entry] s (joinSpan e s) :=
  touches_entry s _

theorem departSpan_touches (keep : SpanEntry → Bool) (s : State) :
    changesOnly [.entry, .alerts] s (departSpan keep s) := by
  unfold departSpan
  split
  · exact changesOnly_refl _ _
  · refine changesOnly_trans ?_ (changesOnly_mono (runArbiter_touches _) (by simp))
    exact changesOnly_append (l := [.entry])
      (changesOnly_trans (touches_entry s _) (clearLost_touches _)) (takeConditions_touches _)

theorem judgeMode_touches (s : State) : changesOnly [.entry, .alerts] s (judgeMode s) := by
  unfold judgeMode
  split
  · exact changesOnly_trans (changesOnly_mono (touches_entry s _) (by simp))
      (departSpan_touches _ _)
  · exact changesOnly_mono (touches_entry s _) (by simp)

theorem evaluateHead_touches (l : Lane) (s : State) :
    changesOnly [.entry, .alerts, .counters] s (evaluateHead l s) := by
  unfold evaluateHead
  split
  · exact changesOnly_mono (setHead_touches _ _ _) (by simp)
  · split
    · exact changesOnly_mono (setHead_touches _ _ _) (by simp)
    · split
      · exact changesOnly_append (changesOnly_append (setHead_touches _ _ _) (raise_touches _ _))
          (touches_counters _ _)
      · dsimp only
        split
        · exact changesOnly_mono (setHead_touches _ _ _) (by simp)
        · exact changesOnly_mono (becomeHeld_touches _ _ _) (by simp)

theorem queueEntered_touches (l : Lane) (r : Record) (w : Nat) (s : State) :
    changesOnly [.line, .alerts] s (queueEntered l r w s) := by
  unfold queueEntered
  split
  · exact enqueue_touches _ _
  · exact changesOnly_refl _ _

theorem regularCrossing_touches (l : Lane) (r : Record) (a : Nat) (u : Bool) (s : State) :
    changesOnly [.entry, .line, .alerts] s (regularCrossing l r a u s) := by
  unfold regularCrossing
  split
  · exact changesOnly_append (l := [.entry])
      (changesOnly_trans (changesOnly_trans (popHead_touches _ _) (joinSpan_touches _ _))
        (runArbiter_touches _)) (queueEntered_touches _ _ _ _)
  · exact changesOnly_mono (changesOnly_trans (popHead_touches _ _) (runArbiter_touches _)) (by simp)

theorem aspectAlerts_touches (l : Lane) (a : Option Aspect) (s : State) :
    changesOnly [.alerts, .counters] s (aspectAlerts l a s) := by
  unfold aspectAlerts
  split
  · exact changesOnly_append (raise_touches _ _) (touches_counters _ _)
  · exact changesOnly_mono (raise_touches _ _) (by simp)
  · exact changesOnly_refl _ _

/-- The parts a queue, its heads and the deck can touch. -/
abbrev entryBlocks : List Block := [.entry, .line, .alerts, .counters]

theorem nonAdmittedEntry_touches (l : Lane) (r : Record) (held stop unseen : Bool) (s : State) :
    changesOnly entryBlocks s (nonAdmittedEntry l r held stop unseen s) := by
  have h1 : changesOnly entryBlocks s (leaveHeld l (popHead l s)) :=
    changesOnly_mono (changesOnly_trans (popHead_touches _ _) (leaveHeld_touches _ _)) (by simp)
  have h2 : ∀ t : State, changesOnly entryBlocks t
      (if unseen then t else aspectAlerts l (stopLine s l).aspect t) := by
    intro t
    split
    · exact changesOnly_refl _ _
    · exact changesOnly_mono (aspectAlerts_touches _ _ _) (by simp)
  have h3 : ∀ t : State, changesOnly entryBlocks t
      (if stop && !unseen then raise .noncompliantEntered t else t) := by
    intro t
    split
    · exact changesOnly_mono (raise_touches _ _) (by simp)
    · exact changesOnly_refl _ _
  have h5 : ∀ t : State, changesOnly entryBlocks t (if held then runArbiter t else t) := by
    intro t
    split
    · exact changesOnly_mono (runArbiter_touches _) (by simp)
    · exact changesOnly_refl _ _
  have h4 : ∀ (e : Tag → SpanEntry) (t : State), changesOnly entryBlocks t
      (match r.tag with
      | some g => if t.entry.span.length + admittedHeads t < 24 then joinSpan (e g) t else setLost t
      | none => t) := by
    intro e t
    split
    · split
      · exact changesOnly_mono (joinSpan_touches _ _) (by simp)
      · exact changesOnly_mono (setLost_touches _) (by simp)
    · exact changesOnly_refl _ _
  exact changesOnly_trans (changesOnly_trans (changesOnly_trans (changesOnly_trans
    (changesOnly_trans h1 (h2 _)) (h3 _)) (h4 _ _))
    (changesOnly_mono (queueEntered_touches l r (nonAdmittedWeight s r) _) (by simp))) (h5 _)

theorem headEnters_touches (l : Lane) (unseen : Bool) (s : State) :
    changesOnly entryBlocks s (headEnters l unseen s) := by
  unfold headEnters
  split
  · exact changesOnly_refl _ _
  · refine changesOnly_trans ?_ (changesOnly_mono (evaluateHead_touches _ _) (by simp))
    split
    · exact changesOnly_mono (regularCrossing_touches _ _ _ _ _) (by simp)
    · exact nonAdmittedEntry_touches _ _ _ _ _ _
    · exact nonAdmittedEntry_touches _ _ _ _ _ _
    · exact changesOnly_mono (touches_entry s _) (by simp)
    · exact changesOnly_mono (popHead_touches _ _) (by simp)

theorem crossing_touches (l : Lane) (s : State) : changesOnly entryBlocks s (crossing l s) := by
  unfold crossing
  split
  · exact changesOnly_mono (changesOnly_append (touches_entry s _) (raise_touches _ _)) (by simp)
  · exact headEnters_touches _ _ _

theorem joinStopLine_touches (r : Record) (s : State) :
    changesOnly entryBlocks s (joinStopLine r s) := by
  have h1 : changesOnly entryBlocks s
      (if 8 ≤ (stopLine s r.lane).queue.length then overflowQueue r.lane s else s) := by
    split
    · exact changesOnly_trans (changesOnly_mono (raise_touches _ _) (by simp))
        (headEnters_touches _ _ _)
    · exact changesOnly_refl _ _
  have h2 : ∀ (t : State) (x : StopLine), changesOnly entryBlocks t (setStopLine r.lane x t) :=
    fun t x => changesOnly_mono (touches_entry t _) (by simp)
  have h3 : ∀ (b : Bool) (t : State), changesOnly entryBlocks t
      (if b then evaluateHead r.lane t else t) := by
    intro b t
    split
    · exact changesOnly_mono (evaluateHead_touches _ _) (by simp)
    · exact changesOnly_refl _ _
  exact changesOnly_trans (changesOnly_trans h1 (h2 _ _)) (h3 _ _)

/-! ## The peer table (chapter 5) -/

theorem recomputePosture_touches (s : State) :
    changesOnly [.peers, .alerts, .entry] s (recomputePosture s) := by
  simp only [recomputePosture]
  repeat' split
  · exact changesOnly_refl _ _
  · exact changesOnly_append (changesOnly_append (touches_peers s _) (takeConditions_touches _))
      (runArbiter_touches _)
  · exact changesOnly_refl _ _

theorem goSilent_touches (k : Station) (s : State) :
    changesOnly [.peers, .alerts, .entry] s (goSilent k s) := by
  refine changesOnly_trans (changesOnly_trans ?_ (recomputePosture_touches _))
    (changesOnly_mono (judgeMode_touches _) (by simp))
  exact changesOnly_mono (changesOnly_append (touches_peers s _) (raise_touches _ _)) (by simp)

theorem deliveryFailed_touches (k : Station) (s : State) :
    changesOnly [.peers, .alerts, .entry] s (deliveryFailed k s) := by
  simp only [deliveryFailed]
  split
  · exact changesOnly_trans (changesOnly_mono (touches_peers s _) (by simp)) (goSilent_touches _ _)
  · exact changesOnly_mono (touches_peers s _) (by simp)

theorem handleBeacon_touches (k : Station) (arrival : Clock) (b : BeaconBody) (s : State) :
    changesOnly [.peers, .alerts, .entry] s (handleBeacon k arrival b s) := by
  have h1 : ∀ t : State, changesOnly [.peers, .alerts, .entry] t
      (if newClash s (rowOf s k) b then raise .chainageClash t else t) := by
    intro t
    split
    · exact changesOnly_mono (raise_touches _ _) (by simp)
    · exact changesOnly_refl _ _
  have h2 : ∀ (p : Prop) [Decidable p] (t : State), changesOnly [.peers, .alerts, .entry] t
      (if p then recomputePosture t else t) := by
    intro p _ t
    split
    · exact recomputePosture_touches _
    · exact changesOnly_refl _ _
  have h0 : changesOnly [.peers, .alerts, .entry] s
      (setRow k (rowAfterBeacon s.clock arrival (rowOf s k) b) s) :=
    changesOnly_mono (touches_peers s _) (by simp)
  exact changesOnly_trans (changesOnly_trans (changesOnly_trans h0 (h1 _)) (h2 _ _))
    (changesOnly_mono (judgeMode_touches _) (by simp))

/-! ## The approach list (chapter 6) -/

theorem expireEntry_touches (e : ApproachEntry) (s : State) :
    changesOnly [.approach, .counters] s (expireEntry e s) := by
  simp only [expireEntry]
  split
  · exact changesOnly_append (touches_approach s _) (touches_counters _ _)
  · exact changesOnly_mono (touches_approach s _) (by simp)

theorem evictOldest_touches (s : State) :
    changesOnly [.approach, .alerts] s (evictOldest s) := by
  unfold evictOldest
  split
  · exact changesOnly_refl _ _
  · exact changesOnly_append (touches_approach s _) (raise_touches _ _)

theorem createEntry_touches (a : Announcement) (s : State) :
    changesOnly [.approach, .alerts] s (createEntry a s) := by
  simp only [createEntry]
  split
  · exact changesOnly_mono (touches_approach s _) (by simp)
  · exact changesOnly_trans (evictOldest_touches s)
      (changesOnly_mono (touches_approach _ _) (by simp))

theorem updateEntry_touches (e : ApproachEntry) (a : Announcement) (s : State) :
    changesOnly [.approach, .counters] s (updateEntry e a s) := by
  simp only [updateEntry]
  split
  · exact changesOnly_trans (changesOnly_mono (touches_approach s _) (by simp))
      (expireEntry_touches _ _)
  · exact changesOnly_mono (touches_approach s _) (by simp)

theorem takeAnnouncement_touches (a : Announcement) (s : State) :
    changesOnly [.approach, .counters, .alerts] s (takeAnnouncement a s) := by
  unfold takeAnnouncement
  split
  · exact changesOnly_mono (touches_approach s _) (by simp)
  split
  · exact changesOnly_mono (changesOnly_append (touches_approach s _) (raise_touches _ _)) (by simp)
  split
  · split
    · exact changesOnly_mono (touches_approach s _) (by simp)
    · exact changesOnly_refl _ _
  split
  · exact changesOnly_mono (touches_approach s _) (by simp)
  split
  · exact changesOnly_mono (updateEntry_touches _ _ _) (by simp)
  · exact changesOnly_mono (createEntry_touches _ _) (by simp)

theorem handleLeft_touches (t : Tag) (s : State) :
    changesOnly [.entry, .alerts] s (handleLeft t s) := by
  unfold handleLeft
  split
  · exact departSpan_touches _ _
  · exact changesOnly_mono (touches_entry s _) (by simp)

/-- R75: what handling a stored frame can touch. -/
theorem handleNotice_touches (x : Stored) (s : State) :
    changesOnly [.peers, .alerts, .entry, .approach, .counters, .line] s (handleNotice x s) := by
  unfold handleNotice
  split
  · exact changesOnly_refl _ _
  · exact changesOnly_mono (handleBeacon_touches _ _ _ _) (by simp)
  · exact changesOnly_mono (takeAnnouncement_touches _ _) (by simp)
  · dsimp only
    split
    · exact changesOnly_trans (changesOnly_mono (takeAnnouncement_touches _ _) (by simp))
        (changesOnly_mono (discardSightings_touches _ _) (by simp))
    · exact changesOnly_mono (takeAnnouncement_touches _ _) (by simp)
  · split
    · exact changesOnly_mono (takeAnnouncement_touches _ _) (by simp)
    · exact changesOnly_refl _ _
  · split
    · exact changesOnly_mono (handleLeft_touches _ _) (by simp)
    · exact changesOnly_refl _ _

theorem matchOrTag_touches (r : Record) (s : State) :
    changesOnly [.approach, .nextSerial] s (matchOrTag r s).2.2 := by
  unfold matchOrTag
  split
  · exact changesOnly_mono (touches_approach s _) (by simp)
  · exact changesOnly_mono (touches_nextSerial s _) (by simp)

/-! ## Signs and trim (chapters 7 and 9) -/

theorem extendSign_touches (l : Lane) (s : State) : changesOnly [.signs] s (extendSign l s) :=
  touches_signs s _

theorem extendSigns_touches (ls : List Lane) (s : State) :
    changesOnly [.signs] s (ls.foldl (fun s l => extendSign l s) s) := by
  induction ls generalizing s with
  | nil => exact changesOnly_refl _ _
  | cons l ls ih => exact changesOnly_trans (extendSign_touches l s) (ih _)

theorem divertRecord_touches (r : Record) (m : Option ApproachEntry) (s : State) :
    changesOnly [.signs, .counters] s (divertRecord r m s).2 := by
  simp only [divertRecord]
  split
  · split
    · exact changesOnly_append (extendSigns_touches _ _) (touches_counters _ _)
    · exact changesOnly_mono (extendSigns_touches _ _) (by simp)
  · exact changesOnly_refl _ _

theorem writeTrim_touches (l : Lane) (t : Nat) (s : State) :
    changesOnly [.store] s (writeTrim l t s) := touches_store s _

theorem formPending_touches (l : Lane) (s : State) :
    changesOnly [.trim, .alerts] s (formPending l s) := by
  simp only [formPending]
  split
  · exact changesOnly_append (touches_trim s _) (raise_touches _ _)
  · exact changesOnly_mono (touches_trim s _) (by simp)

theorem offerTrim_touches (r : Record) (ref : Nat) (s : State) :
    changesOnly [.trim, .alerts] s (offerTrim r ref s) := by
  simp only [offerTrim]
  split
  · split
    · exact changesOnly_trans (changesOnly_mono (touches_trim s _) (by simp))
        (formPending_touches _ _)
    · exact changesOnly_mono (touches_trim s _) (by simp)
  · exact changesOnly_mono (touches_trim s _) (by simp)

theorem applyTrim_touches (l : Lane) (s : State) :
    changesOnly [.store, .trim] s (applyTrim l s) := by
  unfold applyTrim
  split
  · split
    · exact changesOnly_append (writeTrim_touches _ _ _) (touches_trim _ _)
    · exact changesOnly_refl _ _
  · exact changesOnly_refl _ _

/-! ## Vehicles and axles (chapters 1 and 3) -/

/-- The parts handing a record on can touch (R52, R53). -/
abbrev recordBlocks : List Block :=
  [.approach, .nextSerial, .signs, .counters, .entry, .line, .alerts, .trim]

theorem handOnLight_touches (r : Record) (s : State) :
    changesOnly recordBlocks s (handOnLight r s) := by
  simp only [handOnLight]
  split
  · exact changesOnly_trans (changesOnly_mono (touches_counters s _) (by simp))
      (changesOnly_mono (joinStopLine_touches _ _) (by simp))
  · exact changesOnly_mono (touches_counters s _) (by simp)

theorem queueLeft_touches (r : Record) (t : Tag) (s : State) :
    changesOnly [.line, .alerts] s (queueLeft r t s) := by
  unfold queueLeft
  split
  · exact enqueue_touches _ _
  · exact changesOnly_refl _ _

theorem handOnHeavy_touches (r : Record) (s : State) :
    changesOnly recordBlocks s (handOnHeavy r s) := by
  simp only [handOnHeavy]
  refine changesOnly_trans ?_ (changesOnly_mono (touches_counters _ _) (by simp))
  have h2 : changesOnly recordBlocks s
      (divertRecord (matchOrTag r s).1 (matchOrTag r s).2.1 (matchOrTag r s).2.2).2 :=
    changesOnly_trans (changesOnly_mono (matchOrTag_touches r s) (by simp))
      (changesOnly_mono (divertRecord_touches _ _ _) (by simp))
  have h3 : ∀ (x : Record) (t : State), changesOnly recordBlocks t
      (if t.cfg.entry then joinStopLine x t else t) := by
    intro x t
    split
    · exact changesOnly_mono (joinStopLine_touches _ _) (by simp)
    · exact changesOnly_refl _ _
  have h5 : ∀ (x : Record) (m : Bool) (t : State), changesOnly recordBlocks t
      (match x.tag with
      | some g => queueWeighing x g m (queueLeft x g t)
      | none => t) := by
    intro x m t
    split
    · exact changesOnly_trans (changesOnly_mono (queueLeft_touches _ _ _) (by simp))
        (changesOnly_mono (enqueue_touches _ _) (by simp))
    · exact changesOnly_refl _ _
  have h6 : ∀ (x : Record) (t : State), changesOnly recordBlocks t
      (match x.reference with
      | some ref => offerTrim x ref t
      | none => t) := by
    intro x t
    split
    · exact changesOnly_mono (offerTrim_touches _ _ _) (by simp)
    · exact changesOnly_refl _ _
  exact changesOnly_trans (changesOnly_trans (changesOnly_trans h2 (h3 _ _)) (h5 _ _ _)) (h6 _ _)

theorem closeVehicle_touches (l : Lane) (overlong : Bool) (s : State) :
    changesOnly (.vehicles :: recordBlocks) s (closeVehicle l overlong s) := by
  unfold closeVehicle
  split
  · exact changesOnly_refl _ _
  · have h : changesOnly (.vehicles :: recordBlocks) s (setVehicle l none s) :=
      changesOnly_mono (touches_vehicles s _) (by simp)
    dsimp only
    refine changesOnly_trans h ?_
    split
    · exact changesOnly_mono (handOnHeavy_touches _ _) (by simp)
    · exact changesOnly_mono (handOnLight_touches _ _) (by simp)

theorem assemble_touches (l : Lane) (a : Axle) (s : State) :
    changesOnly (.vehicles :: recordBlocks) s (assemble l a s) := by
  have hv : ∀ (t : State) (x : Tab (Option OpenVehicle) 4),
      changesOnly (.vehicles :: recordBlocks) t { t with vehicles := x } := fun t x =>
    changesOnly_mono (touches_vehicles t x) (by simp)
  simp only [assemble]
  split
  · exact hv _ _
  · split
    · exact changesOnly_trans (closeVehicle_touches _ _ _) (hv _ _)
    · split
      · exact changesOnly_trans (closeVehicle_touches _ _ _) (hv _ _)
      · exact hv _ _

theorem axleFormed_touches (a : Axle) (s : State) :
    changesOnly (.vehicles :: recordBlocks) s (axleFormed a s) :=
  changesOnly_trans (changesOnly_mono (touches_counters s _) (by simp)) (assemble_touches _ _ _)

/-! ## Strip health and pairing (chapters 1 and 10) -/

theorem softEvent_touches (p : Strip) (s : State) : changesOnly [.health] s (softEvent p s) :=
  touches_health s _

theorem hardEvent_touches (p : Strip) (c : HardCause) (s : State) :
    changesOnly [.health, .alerts] s (hardEvent p c s) :=
  changesOnly_append (touches_health s _) (takeConditions_touches _)

theorem advanceSilence_touches (p : Strip) (s : State) :
    changesOnly [.health, .alerts] s (advanceSilence p s) := by
  simp only [advanceSilence]
  split
  · exact changesOnly_trans (changesOnly_mono (touches_health s _) (by simp))
      (hardEvent_touches _ _ _)
  · exact changesOnly_mono (touches_health s _) (by simp)

theorem blame_touches (p : Strip) (s : State) : changesOnly [.health, .alerts] s (blame p s) :=
  changesOnly_trans (changesOnly_mono (softEvent_touches p s) (by simp)) (advanceSilence_touches _ _)

theorem advanceClip_touches (p : Strip) (clipped : Bool) (s : State) :
    changesOnly [.health, .alerts] s (advanceClip p clipped s) := by
  simp only [advanceClip]
  repeat' split
  · exact changesOnly_trans (changesOnly_mono (touches_health s _) (by simp))
      (hardEvent_touches _ _ _)
  · exact changesOnly_mono (touches_health s _) (by simp)
  · exact changesOnly_mono (touches_health s _) (by simp)

theorem monitorHit_touches (p : Strip) (clipped : Bool) (s : State) :
    changesOnly [.health, .alerts] s (monitorHit p clipped s) :=
  changesOnly_trans (changesOnly_mono (touches_health s _) (by simp)) (advanceClip_touches _ _ _)

/-- The parts a hit that leaves its hold can touch. -/
abbrev hitBlocks : List Block := .pairing :: .health :: .vehicles :: recordBlocks

theorem expireLead_touches (l : Lane) (x : PendingLead) (s : State) :
    changesOnly hitBlocks s (expireLead l x s) :=
  changesOnly_trans (changesOnly_mono (axleFormed_touches _ s) (by simp))
    (changesOnly_mono (blame_touches _ _) (by simp))

theorem setFifo_touches (l : Lane) (q : List PendingLead) (s : State) :
    changesOnly hitBlocks s (setFifo l q s) :=
  changesOnly_mono (touches_pairing s _) (by simp)

theorem makeRoom_touches (l : Lane) (s : State) : changesOnly hitBlocks s (makeRoom l s) := by
  unfold makeRoom
  repeat' split
  · exact changesOnly_refl _ _
  · exact changesOnly_trans (setFifo_touches _ _ _) (expireLead_touches _ _ _)
  · exact changesOnly_refl _ _

theorem leadArrives_touches (h : Hit) (s : State) : changesOnly hitBlocks s (leadArrives h s) := by
  simp only [leadArrives]
  split
  · exact expireLead_touches _ _ _
  · exact changesOnly_trans (makeRoom_touches _ _) (setFifo_touches _ _ _)

theorem trailArrives_touches (h : Hit) (s : State) : changesOnly hitBlocks s (trailArrives h s) := by
  simp only [trailArrives]
  repeat' split
  · exact changesOnly_mono (blame_touches _ _) (by simp)
  · exact changesOnly_trans (changesOnly_trans (setFifo_touches _ _ _)
      (changesOnly_mono (axleFormed_touches _ _) (by simp)))
      (changesOnly_mono (touches_pairing _ _) (by simp))
  · exact changesOnly_mono (blame_touches _ _) (by simp)

theorem hitLeaves_touches (h : Hit) (s : State) : changesOnly hitBlocks s (hitLeaves h s) := by
  unfold hitLeaves
  split
  · exact leadArrives_touches _ _
  · exact trailArrives_touches _ _
  · exact changesOnly_mono (axleFormed_touches _ _) (by simp)
  · exact changesOnly_refl _ _

theorem setHold_touches (l : Lane) (p : Pos) (x : Option HeldHit) (s : State) :
    changesOnly hitBlocks s (setHold l p x s) := by
  cases p <;> exact changesOnly_mono (touches_pairing s _) (by simp)

theorem releaseHold_touches (l : Lane) (p : Pos) (s : State) :
    changesOnly hitBlocks s (releaseHold l p s) := by
  unfold releaseHold
  split
  · exact changesOnly_trans (setHold_touches _ _ _ _) (hitLeaves_touches _ _)
  · exact changesOnly_refl _ _

theorem deliverHit_touches (r : HitReport) (s : State) :
    changesOnly hitBlocks s (deliverHit r s) := by
  unfold deliverHit
  split
  · exact changesOnly_refl _ _
  · simp only [enterHold]
    split
    · exact changesOnly_trans (setHold_touches _ _ _ _) (hitLeaves_touches _ _)
    · exact changesOnly_trans (releaseHold_touches _ _ _) (setHold_touches _ _ _ _)

end Sys2Proof.Machine
end

