-- ==== Sys2Proof/Laws/Frames.lean ====
section
/-! SUPPORT. The CRC-16 of frames and images: its range, and what a word written high byte first reads
back as. -/

namespace Sys2Proof.Laws

open Sys2Proof Sys2Proof.Machine

theorem crcBit_lt {c : Nat} (h : c < 65536) : crcBit c < 65536 := by
  unfold crcBit
  split
  · exact Nat.xor_lt_two_pow (n := 16) (by omega) (by decide)
  · omega

theorem crcByte_lt {c : Nat} (h : c < 65536) (b : Byte) : crcByte c b < 65536 := by
  have hx : Nat.xor c (b.toNat * 256) < 65536 :=
    Nat.xor_lt_two_pow (n := 16) h (by have := b.isLt; omega)
  exact crcBit_lt (crcBit_lt (crcBit_lt (crcBit_lt (crcBit_lt (crcBit_lt (crcBit_lt (crcBit_lt hx)))))))

theorem foldl_crcByte_lt (l : List Byte) :
    ∀ c, c < 65536 → l.foldl crcByte c < 65536 := by
  induction l with
  | nil => exact fun _ h => h
  | cons b l ih =>
    intro c h
    rw [List.foldl_cons]
    exact ih _ (crcByte_lt h b)

/-- A CRC-16 fits two bytes. -/
theorem crc16_lt (l : List Byte) : crc16 l < 65536 := by
  rw [crc16]
  exact foldl_crcByte_lt l 0xFFFF (by omega)

/-- Two bytes written high byte first read back as their number modulo 65,536. -/
theorem read2_bytes2 (n : Nat) : read2 (byte (n / 256)) (byte n) = n % 65536 := by
  simp only [read2, byte, BitVec.toNat_ofNat]
  omega

/-- The CRC bytes of an image. -/
theorem crcRead_append (b : List Byte) (n : Nat) (h : b.length = 254) :
    crcRead (b ++ bytes2 n) = n % 65536 := by
  have h0 : (b ++ bytes2 n).getD 254 0 = byte (n / 256) := by
    simp [List.getD_eq_getElem?_getD, h, bytes2]
  have h1 : (b ++ bytes2 n).getD 255 0 = byte n := by
    simp [List.getD_eq_getElem?_getD, h, bytes2]
  unfold crcRead image2 imageByte
  rw [h0, h1]
  exact read2_bytes2 n

/-- The CRC of an image is taken over its first 254 bytes. -/
theorem crcComputed_append (b : List Byte) (n : Nat) (h : b.length = 254) :
    crcComputed (b ++ bytes2 n) = crc16 b := by
  simp [crcComputed, ← h]

end Sys2Proof.Laws
end

