-- ==== Sys2Proof/Laws/Monitor.lean ====
section
/-! SUPPORT. What the operations of the strip health monitor leave of a strip's record, of the others
and of its lane's mode, said once for each in the terms of the statements (R168 to R174), and what a search
of HEALTH STEP finds (R176). -/

namespace Sys2Proof.Machine

/-! ## The records -/

theorem healthOf_softEvent (p : Strip) (s : State) :
    healthOf (softEvent p s) p = softened s (healthOf s p) := by
  unfold softEvent softened StripHealth.softEvent eventTime
  rw [healthOf_setHealth_self]
  cases (healthOf s p).soft <;> simp

theorem healthOf_softEvent_ne {p q : Strip} (s : State) (hq : q ≠ p) :
    healthOf (softEvent p s) q = healthOf s q := healthOf_setHealth_ne _ s hq

theorem healthOf_hardEvent (p : Strip) (c : HardCause) (s : State) :
    healthOf (hardEvent p c s) p = hardened s c (healthOf s p) := by
  have h : healthOf (hardEvent p c s) p = (healthOf s p).hardEvent c (eventTime s) := by
    unfold hardEvent
    rw [healthOf, takeConditions_health]
    exact healthOf_setHealth_self _ _ s
  rw [h]
  unfold hardened StripHealth.hardEvent eventTime
  cases (healthOf s p).hard <;> simp

theorem healthOf_hardEvent_ne {p q : Strip} (c : HardCause) (s : State) (hq : q ≠ p) :
    healthOf (hardEvent p c s) q = healthOf s q := by
  unfold hardEvent
  rw [healthOf, takeConditions_health]
  exact healthOf_setHealth_ne _ s hq

/-- R168, R169: a blamed strip. -/
theorem healthOf_blame (p : Strip) (s : State) :
    healthOf (blame p s) p = afterBlame s (healthOf s p) := by
  unfold blame advanceSilence
  have e := healthOf_softEvent p s
  by_cases h : (healthOf s p).silenceRun < 15
  · rw [if_neg (by rw [e]; simp only [softened]; omega), healthOf_setHealth_self, e]
    simp [afterBlame, h, softened]
  · rw [if_pos (by rw [e]; simp only [softened]; omega), healthOf_hardEvent,
      healthOf_setHealth_self, e]
    simp [afterBlame, h, softened, hardened, softEvent, setHealth]
    rfl

theorem healthOf_blame_ne {p q : Strip} (s : State) (hq : q ≠ p) :
    healthOf (blame p s) q = healthOf s q := by
  unfold blame advanceSilence
  dsimp only
  split
  · rw [healthOf_hardEvent_ne _ _ hq, healthOf_setHealth_ne _ _ hq, healthOf_softEvent_ne _ hq]
  · rw [healthOf_setHealth_ne _ _ hq, healthOf_softEvent_ne _ hq]

/-- R168, R170: a strip whose hit report the monitor takes. -/
theorem healthOf_monitorHit (p : Strip) (c : Bool) (s : State) :
    healthOf (monitorHit p c s) p = afterReport s c (healthOf s p) := by
  unfold monitorHit advanceClip
  cases c
  · simp [afterReport]
  · have e := healthOf_softEvent p (setHealth p { healthOf s p with silenceRun := 0 } s)
    rw [healthOf_setHealth_self] at e
    by_cases h : (healthOf s p).clipRun < 7
    · rw [if_pos rfl]
      dsimp only
      rw [if_neg (by rw [e]; simp only [softened]; omega), healthOf_setHealth_self, e]
      simp [afterReport, h, softened, setHealth]
      rfl
    · rw [if_pos rfl]
      dsimp only
      rw [if_pos (by rw [e]; simp only [softened]; omega), healthOf_hardEvent,
        healthOf_setHealth_self, e]
      simp [afterReport, h, softened, hardened, softEvent, setHealth]
      exact ⟨rfl, rfl⟩

theorem healthOf_monitorHit_ne {p q : Strip} (c : Bool) (s : State) (hq : q ≠ p) :
    healthOf (monitorHit p c s) q = healthOf s q := by
  unfold monitorHit advanceClip
  dsimp only
  split
  · split
    · rw [healthOf_hardEvent_ne _ _ hq, healthOf_setHealth_ne _ _ hq, healthOf_softEvent_ne _ hq,
        healthOf_setHealth_ne _ _ hq]
    · rw [healthOf_setHealth_ne _ _ hq, healthOf_softEvent_ne _ hq, healthOf_setHealth_ne _ _ hq]
  · rw [healthOf_setHealth_ne _ _ hq, healthOf_setHealth_ne _ _ hq]

/-! ## The lane mode (R174) -/

/-- The mode of a lane follows from one strip's condition when the other strip stands as it did. -/
theorem laneMode_eq_modeWith {s t : State} (p : Strip)
    (h : ∀ q, q ≠ p → healthOf t q = healthOf s q) :
    laneMode t p.lane = modeWith s p (healthOf t p).failed := by
  obtain ⟨l, ps⟩ := p
  cases ps
  · have k := h ⟨l, .trail⟩ (by simp)
    simp only [laneMode, modeWith, stripFailed, if_pos, k]
    cases (healthOf t ⟨l, .lead⟩).failed <;> cases (healthOf s ⟨l, .trail⟩).failed <;> simp
  · have k := h ⟨l, .lead⟩ (by simp)
    simp only [laneMode, modeWith, stripFailed, k]
    cases (healthOf t ⟨l, .trail⟩).failed <;> cases h : (healthOf s ⟨l, .lead⟩).failed <;> simp [h]

/-! ## The search of HEALTH STEP (R176) -/

/-- A search meets every strip. -/
theorem mem_walkOrder (w : Option Strip) (p : Strip) : p ∈ walkOrder w := by
  obtain ⟨l, x⟩ := p
  rcases w with _ | ⟨k, y⟩
  · cases x <;> revert l <;> decide
  · cases x <;> cases y <;> revert l k <;> decide

/-- The strip a search presents holds an indication; where it presents none, no strip holds one. -/
theorem nextPresented_some {s : State} {p : Strip} (h : nextPresented s = some p) :
    (healthOf s p).indicates = true := List.find?_some (p := fun q => (healthOf s q).indicates) h

theorem nextPresented_none {s : State} (h : nextPresented s = none) (p : Strip) :
    (healthOf s p).indicates = false := by
  simpa using List.find?_eq_none.1 h p (mem_walkOrder _ p)

end Sys2Proof.Machine
end

