-- ==== Sys2Proof/Laws/PerInstr.lean ====
section
/-! SUPPORT. What holds of each command as syntax, one lemma per command: the table gives its row no
bits, so no word spells it. -/

namespace Sys2Proof.Laws

open Sys2Proof

/-- No word of the table spells a command. -/
def Spelling.Statement (i : Instr) : Prop := ∀ nbits w, decodeTableWord nbits w ≠ some i

theorem Spelling.signalBelowTrigger (strip : Strip) :
    Spelling.Statement (.signalBelowTrigger strip) :=
  fun _ _ => nofun

theorem Spelling.pulseStart (strip : Strip) : Spelling.Statement (.pulseStart strip) :=
  fun _ _ => nofun

theorem Spelling.pulseEnd (strip : Strip) (samples : List Sample) :
    Spelling.Statement (.pulseEnd strip samples) :=
  fun _ _ => nofun

theorem Spelling.stuckReport (strip : Strip) : Spelling.Statement (.stuckReport strip) :=
  fun _ _ => nofun

theorem Spelling.coincidenceTimerExpiry (lane : Lane) (pos : Pos) :
    Spelling.Statement (.coincidenceTimerExpiry lane pos) :=
  fun _ _ => nofun

theorem Spelling.leadExpiry (lane : Lane) (index : Nat) :
    Spelling.Statement (.leadExpiry lane index) :=
  fun _ _ => nofun

theorem Spelling.closeTimerExpiry (lane : Lane) : Spelling.Statement (.closeTimerExpiry lane) :=
  fun _ _ => nofun

theorem Spelling.contentionIdleReached : Spelling.Statement .contentionIdleReached :=
  fun _ _ => nofun

theorem Spelling.collision : Spelling.Statement .collision := fun _ _ => nofun

theorem Spelling.attemptEnd : Spelling.Statement .attemptEnd := fun _ _ => nofun

theorem Spelling.receiptWaitExpiry : Spelling.Statement .receiptWaitExpiry := fun _ _ => nofun

theorem Spelling.badFrame (found : BadFrame) : Spelling.Statement (.badFrame found) :=
  fun _ _ => nofun

theorem Spelling.frameReceived (bytes : List Byte) : Spelling.Statement (.frameReceived bytes) :=
  fun _ _ => nofun

theorem Spelling.receiptStart : Spelling.Statement .receiptStart := fun _ _ => nofun

theorem Spelling.receiptAbandoned : Spelling.Statement .receiptAbandoned := fun _ _ => nofun

theorem Spelling.noticeHandlingComplete : Spelling.Statement .noticeHandlingComplete :=
  fun _ _ => nofun

theorem Spelling.windowCloseExpiry (tag : Tag) : Spelling.Statement (.windowCloseExpiry tag) :=
  fun _ _ => nofun

theorem Spelling.joinTimerExpiry : Spelling.Statement .joinTimerExpiry := fun _ _ => nofun

theorem Spelling.beaconTimerExpiry : Spelling.Statement .beaconTimerExpiry := fun _ _ => nofun

theorem Spelling.silenceTimerExpiry (peer : Station) :
    Spelling.Statement (.silenceTimerExpiry peer) :=
  fun _ _ => nofun

theorem Spelling.probeSampleTimer : Spelling.Statement .probeSampleTimer := fun _ _ => nofun

theorem Spelling.probeAnswer (reading : Int) (checkMatches : Bool) :
    Spelling.Statement (.probeAnswer reading checkMatches) :=
  fun _ _ => nofun

theorem Spelling.probeAnswerTimeout : Spelling.Statement .probeAnswerTimeout := fun _ _ => nofun

theorem Spelling.holdTimerExpiry : Spelling.Statement .holdTimerExpiry := fun _ _ => nofun

theorem Spelling.signTimerExpiry (lane : Lane) : Spelling.Statement (.signTimerExpiry lane) :=
  fun _ _ => nofun

theorem Spelling.blinkPhaseToggle (lane : Lane) : Spelling.Statement (.blinkPhaseToggle lane) :=
  fun _ _ => nofun

theorem Spelling.overcurrent (output : Output) : Spelling.Statement (.overcurrent output) :=
  fun _ _ => nofun

theorem Spelling.currentBelowThreshold (output : Output) :
    Spelling.Statement (.currentBelowThreshold output) :=
  fun _ _ => nofun

theorem Spelling.blankingEnd (output : Output) (low : Bool) :
    Spelling.Statement (.blankingEnd output low) :=
  fun _ _ => nofun

theorem Spelling.openTimerExpiry (output : Output) : Spelling.Statement (.openTimerExpiry output) :=
  fun _ _ => nofun

theorem Spelling.provingTimerExpiry (lane : Lane) : Spelling.Statement (.provingTimerExpiry lane) :=
  fun _ _ => nofun

theorem Spelling.presenceInputChange (lane : Lane) (occupied : Bool) :
    Spelling.Statement (.presenceInputChange lane occupied) :=
  fun _ _ => nofun

theorem Spelling.presenceSettled (lane : Lane) : Spelling.Statement (.presenceSettled lane) :=
  fun _ _ => nofun

theorem Spelling.amberTimerExpiry (lane : Lane) : Spelling.Statement (.amberTimerExpiry lane) :=
  fun _ _ => nofun

theorem Spelling.recoveryTimerExpiry : Spelling.Statement .recoveryTimerExpiry := fun _ _ => nofun

theorem Spelling.spanDeadline (tag : Tag) : Spelling.Statement (.spanDeadline tag) :=
  fun _ _ => nofun

theorem Spelling.minuteTimerExpiry : Spelling.Statement .minuteTimerExpiry := fun _ _ => nofun

theorem Spelling.powerOn (torn : Option (BitVec 16)) : Spelling.Statement (.powerOn torn) :=
  fun _ _ => nofun

theorem Spelling.supplyDip (torn : Option (BitVec 16)) : Spelling.Statement (.supplyDip torn) :=
  fun _ _ => nofun

theorem Spelling.resetLine (torn : Option (BitVec 16)) : Spelling.Statement (.resetLine torn) :=
  fun _ _ => nofun

theorem Spelling.restartReset (torn : Option (BitVec 16)) :
    Spelling.Statement (.restartReset torn) :=
  fun _ _ => nofun

theorem Spelling.resetEnd : Spelling.Statement .resetEnd := fun _ _ => nofun

theorem Spelling.loadReadComplete (bytes : List Byte) :
    Spelling.Statement (.loadReadComplete bytes) :=
  fun _ _ => nofun

theorem Spelling.loadReadTimeout (answered : Bool) :
    Spelling.Statement (.loadReadTimeout answered) :=
  fun _ _ => nofun

theorem Spelling.characterReceived (char : Byte) (framingError : Bool) :
    Spelling.Statement (.characterReceived char framingError) :=
  fun _ _ => nofun

theorem Spelling.responseSent : Spelling.Statement .responseSent := fun _ _ => nofun

theorem Spelling.status : Spelling.Statement .status := fun _ _ => nofun

theorem Spelling.config : Spelling.Statement .config := fun _ _ => nofun

theorem Spelling.peers : Spelling.Statement .peers := fun _ _ => nofun

theorem Spelling.approach : Spelling.Statement .approach := fun _ _ => nofun

theorem Spelling.queue (lane : Nat) : Spelling.Statement (.queue lane) := fun _ _ => nofun

theorem Spelling.span : Spelling.Statement .span := fun _ _ => nofun

theorem Spelling.alerts : Spelling.Statement .alerts := fun _ _ => nofun

theorem Spelling.clear (source : Option AlertSource) : Spelling.Statement (.clear source) :=
  fun _ _ => nofun

theorem Spelling.clearAll : Spelling.Statement .clearAll := fun _ _ => nofun

theorem Spelling.counts : Spelling.Statement .counts := fun _ _ => nofun

theorem Spelling.health : Spelling.Statement .health := fun _ _ => nofun

theorem Spelling.healthStep : Spelling.Statement .healthStep := fun _ _ => nofun

theorem Spelling.trim : Spelling.Statement .trim := fun _ _ => nofun

theorem Spelling.releaseAdmit (lane : Nat) : Spelling.Statement (.releaseAdmit lane) :=
  fun _ _ => nofun

theorem Spelling.releaseRemove (lane : Nat) : Spelling.Statement (.releaseRemove lane) :=
  fun _ _ => nofun

theorem Spelling.forget (tag : Option Tag) : Spelling.Statement (.forget tag) := fun _ _ => nofun

theorem Spelling.lampReset (lane : Nat) : Spelling.Statement (.lampReset lane) := fun _ _ => nofun

theorem Spelling.stripRestore (strip : Option Strip) : Spelling.Statement (.stripRestore strip) :=
  fun _ _ => nofun

theorem Spelling.restart : Spelling.Statement .restart := fun _ _ => nofun

theorem Spelling.lineGoesBusy : Spelling.Statement .lineGoesBusy := fun _ _ => nofun

theorem Spelling.receiptEnd : Spelling.Statement .receiptEnd := fun _ _ => nofun

theorem Spelling.currentRisesToThreshold (output : Output) :
    Spelling.Statement (.currentRisesToThreshold output) :=
  fun _ _ => nofun

end Sys2Proof.Laws
end

