-- ==== Sys2Proof/Laws/Quiet.lean ====
section
/-! SUPPORT. When `settle` has nothing to do, and when it has only condition sources to take: what a
command leaves alone follows from what it leaves alone of the few things `settle` reads. -/

namespace Sys2Proof.Machine

/-- `settled` reads start-up state, configuration, signs with their requests, lamps, shown and wanted
aspects, alert unit and raw states; nothing else. -/
theorem settled_of {s t : State} (hs : t.startup = s.startup) (hc : t.cfg = s.cfg)
    (hg : t.signs = s.signs) (hr : ∀ l, signRequested t l = signRequested s l)
    (hl : t.lamps = s.lamps) (ha : ∀ l, (stopLine t l).aspect = (stopLine s l).aspect)
    (hm : ∀ l, (stopLine t l).amber = (stopLine s l).amber)
    (hw : ∀ l, wantedAspect t l = wantedAspect s l) (hu : t.alerts = s.alerts)
    (hx : ∀ x, rawState t x = rawState s x) : settled t = settled s := by
  have hgf : ∀ l, groupFaulted t l = groupFaulted s l := groupFaulted_congr hl
  have h1 : signsFollow t = signsFollow s := by
    unfold signsFollow
    simp only [hg, hr]
  have hsh : ∀ w l, shows w (stopLine t l) = shows w (stopLine s l) := fun w l => by
    unfold shows
    rw [ha, hm]
  have h2 : aspectsFollow t = aspectsFollow s := by
    unfold aspectsFollow
    simp only [laneActs_congr hs hc, hsh, hw, ha, hm]
  have hd : ∀ a, demandOf t a = demandOf s a := fun a => by
    unfold demandOf
    simp only [hg, ha]
  have h3 : lampsFollow t = lampsFollow s := by
    have ho : ∀ o, outputOf t o = outputOf s o := fun o => by simp only [outputOf, hl]
    unfold lampsFollow outputFollows
    simp only [ho, hd, isDriven_congr hgf]
  have hal : ∀ x, alertOf t x = alertOf s x := fun x => by simp only [alertOf, hu]
  have h4 : alertsTaken t = alertsTaken s := by
    have : sourceTaken t = sourceTaken s := funext fun x => by
      unfold sourceTaken
      rw [hx, triggerOf_congr hc, hal]
    simp only [alertsTaken, working_congr hs, this, hu]
  have h5 : alertLinesFollow t = alertLinesFollow s := by
    have hi : ∀ x, isActive t x = isActive s x := fun x => by
      simp only [isActive, alertConfig_congr hc, hx, hal]
    have hlw : ∀ m, lineWanted t m = lineWanted s m := fun m => by
      simp only [lineWanted, hs, anyActive, alertConfig_congr hc, hi]
    unfold alertLinesFollow
    rw [hu, hlw, hlw]
  unfold settled
  rw [h1, h2, h3, h4, h5]

/-- What `settle` leaves of a state that agrees with a settled one on what `settled` reads: all. -/
theorem settle_of {s t : State} (h : settled s = true) (hs : t.startup = s.startup)
    (hc : t.cfg = s.cfg) (hg : t.signs = s.signs)
    (hr : ∀ l, signRequested t l = signRequested s l) (hl : t.lamps = s.lamps)
    (ha : ∀ l, (stopLine t l).aspect = (stopLine s l).aspect)
    (hm : ∀ l, (stopLine t l).amber = (stopLine s l).amber)
    (hw : ∀ l, wantedAspect t l = wantedAspect s l) (hu : t.alerts = s.alerts)
    (hx : ∀ x, rawState t x = rawState s x) : settle t = t :=
  settle_id (by rw [settled_of hs hc hg hr hl ha hm hw hu hx, h])

/-- The same for a state that agrees with a settled one on the blocks `settled` reads. -/
theorem settle_same {s t : State} (h : settled s = true) (hs : t.startup = s.startup)
    (hc : t.cfg = s.cfg) (hh : t.health = s.health) (hg : t.signs = s.signs)
    (hl : t.lamps = s.lamps) (he : t.entry = s.entry) (ha : t.alerts = s.alerts)
    (hp : t.peers.posture = s.peers.posture) (hb : t.probe.theta = s.probe.theta) :
    settle t = t :=
  settle_id (by rw [settled_congr hs hc hh hg hl he ha hp hb, h])

/-! ## Strip health -/

theorem laneMode_of {s t : State} (h : ∀ p, stripFailed t p = stripFailed s p) (l : Lane) :
    laneMode t l = laneMode s l := by
  simp only [laneMode, h]

/-- What a change of strip health leaves alone while no condition changes. -/
theorem signRequested_of {s t : State} (hs : t.startup = s.startup) (hc : t.cfg = s.cfg)
    (hg : t.signs = s.signs) (h : ∀ p, stripFailed t p = stripFailed s p) (l : Lane) :
    signRequested t l = signRequested s l := by
  simp only [signRequested, working_congr hs, hc, laneInUse_congr hc, hg, laneMode_of h]

theorem wantedAspect_of {s t : State} (hc : t.cfg = s.cfg) (hl : t.lamps = s.lamps)
    (h : ∀ p, stripFailed t p = stripFailed s p) {l : Lane}
    (hd : (stopLine t l).head = (stopLine s l).head) :
    wantedAspect t l = wantedAspect s l := by
  have hb : laneBlind t l = laneBlind s l := by
    simp only [laneBlind, laneInUse_congr hc, laneMode_of h]
  simp only [wantedAspect, groupFaulted_congr hl, hb, hd]

/-- The raw states but for HEALTH. -/
theorem rawState_of {s t : State} (hl : t.lamps = s.lamps) (hc : t.cfg = s.cfg)
    (hf : ∀ p, stripFailed t p = stripFailed s p) (he : t.entry.span = s.entry.span)
    (hp : t.peers.posture = s.peers.posture) (hb : t.probe.theta = s.probe.theta)
    {x : AlertSource} (hx : x ≠ .health) : rawState t x = rawState s x := by
  have hi : ∀ l, laneInUse t l = laneInUse s l := laneInUse_congr hc
  have hm : ∀ l, laneMode t l = laneMode s l := laneMode_of hf
  cases x <;> simp_all [rawState, lanesInUse, laneBlind]

/-! ## One condition source to take -/

theorem conditionSources_mem {x : AlertSource} (h : isCondition x = true) : x ∈ conditionSources := by
  cases x <;> simp_all [isCondition, conditionSources]

/-- With at most one condition source unlike its raw state, the unit takes that one. -/
theorem foldl_takeRaw_one (l : List AlertSource) (hn : l.Nodup) {s : State} {x : AlertSource}
    (h : ∀ y ∈ l, y ≠ x → (alertOf s y).remembered = rawState s y) :
    l.foldl takeRaw s = if x ∈ l then takeRaw s x else s := by
  induction l generalizing s with
  | nil => rfl
  | cons y l ih =>
    rw [List.foldl_cons]
    have hn' := List.nodup_cons.mp hn
    by_cases hy : y = x
    · subst hy
      rw [if_pos (by simp)]
      refine foldl_takeRaw_id l fun z hz => ?_
      have hzy : z ≠ y := fun e => hn'.1 (e ▸ hz)
      rw [takeRaw_alertOf_ne s hzy, rawState_takeRaw]
      exact h z (by simp [hz]) hzy
    · rw [takeRaw_id (h y (by simp) hy), ih hn'.2 fun z hz => h z (by simp [hz])]
      by_cases hx : x ∈ l <;> simp [hx, Ne.symm hy]

/-- Signs, aspects and outputs follow, and every condition source but perhaps `x` is taken: then
`settle` takes `x` and lets the lines follow. -/
theorem settle_takes {u : State} {x : AlertSource} (hw : working u = true)
    (hx : isCondition x = true) (h1 : signsFollow u = true) (h2 : aspectsFollow u = true)
    (h3 : lampsFollow u = true)
    (h : ∀ y, isCondition y = true → y ≠ x → (alertOf u y).remembered = rawState u y) :
    settle u = driveAlertLines (takeRaw u x) := by
  unfold settle
  rw [driveSigns_id h1, driveAspects_id h2, driveLamps_id h3]
  unfold takeConditions
  rw [if_pos hw, foldl_takeRaw_one _ conditionSources_nodup (x := x) fun y hy hyx => ?_,
    if_pos (conditionSources_mem hx)]
  exact h y (by revert hy; cases y <;> simp [conditionSources, isCondition]) hyx

/-! ## What a settled state gives -/

theorem remembered_of_settled {s : State} (h : settled s = true) (hw : working s = true)
    {x : AlertSource} (hx : isCondition x = true) : (alertOf s x).remembered = rawState s x := by
  have h4 := (settled_parts.mp h).2.2.2.1
  simp only [alertsTaken, hw, if_true, List.all_eq_true, sourceTaken, Bool.and_eq_true,
    decide_eq_true_eq] at h4
  exact (h4 x (conditionSources_mem hx)).1

theorem sticky_of_settled {s : State} (h : settled s = true) (hw : working s = true)
    {x : AlertSource} (hx : isCondition x = true) (ht : triggerOf s x = .level)
    (hr : rawState s x = true) : (alertOf s x).sticky = true := by
  have h4 := (settled_parts.mp h).2.2.2.1
  simp only [alertsTaken, hw, if_true, List.all_eq_true, sourceTaken, Bool.and_eq_true] at h4
  simpa [ht, hr] using (h4 x (conditionSources_mem hx)).2

/-- What the wanted aspect of a lane being looked at gives for a settled one. -/
theorem shows_of_settled {s : State} (h : settled s = true) {l : Lane} (ha : laneActs s l = true) :
    shows (wantedAspect s l) (stopLine s l) = true := by
  have := aspectsFollow_iff.mp (settled_parts.mp h).2.1 l
  rwa [if_pos ha] at this

theorem outputFollows_of_settled {s : State} (h : settled s = true) (o : Output) :
    outputFollows s (outputOf s o) = true :=
  lampsFollow_iff.mp (settled_parts.mp h).2.2.1 o

end Sys2Proof.Machine
end

