-- ==== Sys2Proof/Tests/Slice0.lean ====
section
/-! SUPPORT. Tests: ill-formed commands are refused, the worked figures of the manual, one step of each
kind of command, and for every statement with hypotheses a state and operands that meet them. -/

namespace Sys2Proof.Tests

open Sys2Proof Sys2Proof.Machine

-- one test at a time: each `decide +kernel` waits for the ones before it, on a thread of its own
set_option Elab.async false

/-! ## Stations to test on -/

/-- A configuration with the defaults of section 11.2: station 6 at chainage 2,400 with two lanes and
no role. -/
def plain : Configuration :=
  { station := 5, divert := false, entry := false, exit := false, beyondExit := false
    exitInstalled := false, flash := false, minuteMode := false, chainage := 2400, laneCount := 2
    expected := Tab.fill 8 false, refPeer := some 1, matchTolerance := 30, margin := 5, padding := 10
    sMax := 900, tMax := 1500, longLimit := 400, minArea := 2000, axleLimit := 900
    grossLimit := 1800, spanLimit := 4000, heavyThreshold := 350, transit := 120, signHold := 12
    spacing := Tab.fill 4 3000
    cal := Tab.fill 8 { kSlow := 820, kMid := 800, kFast := 700, beta := 3, autoBand := true }
    alerts := Tab.fill 24
      { enable := true, mapA := true, mapB := false, trigger := .level, bypass := true } }

/-- The same at a station with the ENTRY role. -/
def entry : Configuration := { plain with entry := true }

/-- The same at a station with the DIVERT role. -/
def divert : Configuration := { plain with divert := true }

/-- The clock of the test stations. -/
def now : Clock := 1000000000

/-- A station in a start-up state with a configuration, nothing else having happened. -/
def station (c : Configuration) (at_ : Startup) : State :=
  settle (startEntry (startOutputs { State.reset with clock := now, startup := at_, cfg := c }))

/-- What an outcome leaves, or the state before it. -/
def after (c : Instr) (s : State) : State :=
  match exec c s with
  | .next t => t
  | _ => s

/-- A state with a part changed, and what follows it. -/
def with_ (f : State → State) (s : State) : State := settle (f s)

/-! ## Well-formed commands -/

theorem test_illFormed_leadExpiry : wellFormed (.leadExpiry 0 6) = false := by decide

theorem test_illFormed_queue : wellFormed (.queue 5) = false := by decide

theorem test_illFormed_releaseAdmit : wellFormed (.releaseAdmit 0) = false := by decide

theorem test_illFormed_releaseRemove : wellFormed (.releaseRemove 5) = false := by decide

theorem test_illFormed_lampReset : wellFormed (.lampReset 0) = false := by decide

theorem test_illFormed_clear : wellFormed (.clear none) = false := by decide

theorem test_illFormed_forget : wellFormed (.forget none) = false := by decide

theorem test_illFormed_stripRestore : wellFormed (.stripRestore none) = false := by decide

theorem test_illFormed_loadReadComplete : wellFormed (.loadReadComplete [1, 2, 3]) = false := by decide

theorem test_illFormed_frameReceived :
    wellFormed (.frameReceived [0x55, 0x55, 0xC3, 1, 1, 0, 0, 3, 1, 2, 3, 0, 0]) = false := by
  decide +kernel

theorem test_wellFormed_leadExpiry : wellFormed (.leadExpiry 0 5) = true := by decide

/-! ## Worked figures -/

/-- Section 2.8: the strip loads 1,089 and 1,070 and their mean, then with the trim 4,200. -/
theorem test_load_coldMorning :
    rawLoad 48000 2000 700 (combinedFactor (tempFactor 3 (some (-10))) 4096) = 1089 ∧
      rawLoad 46500 2000 710 (combinedFactor (tempFactor 3 (some (-10))) 4096) = 1070 ∧
      reconcile 1089 1070 = (1080, false) ∧
      rawLoad 48000 2000 700 (combinedFactor (tempFactor 3 (some (-10))) 4200) = 1117 ∧
      rawLoad 46500 2000 710 (combinedFactor (tempFactor 3 (some (-10))) 4200) = 1097 ∧
      reconcile 1117 1097 = (1107, false) := by decide +kernel

/-- Section 2.9: a saturated strip and its quiet partner. -/
theorem test_load_saturated :
    rawLoad 16777215 600 800 1024 = 120000 ∧ rawLoad 30000 600 800 1024 = 215 ∧
      reconcile 6000 215 = (6000, true) := by decide +kernel

/-- Section 2.10: an unpaired lead, and the same without a temperature. -/
theorem test_load_unpaired :
    rawLoad 40000 142 820 (combinedFactor (tempFactor 2 (some 30)) 4096) = 68 ∧
      rawLoad 40000 142 820 (combinedFactor (tempFactor 2 none) 4096) = 69 := by decide +kernel

/-- R25: -161 sixteenths are -10 degrees, 1,368 are 86. -/
theorem test_degrees : degrees (-161) = -10 ∧ degrees 1368 = 86 := by decide

/-- Section 9.6: ratios before the clamp. -/
theorem test_ratio :
    rawRatio 1770 1784 = 4064 ∧ rawRatio 2400 2310 = 4256 ∧ rawRatio 3000 1200 = 10240 ∧
      rawRatio 1000 2500 = 1638 := by decide

/-- Section 9.7: from a full window to a pending trim. -/
theorem test_trim :
    trimProduct 4096 [4064, 4256, 4120, 4180, 4150, 4200, 4090, 4310, 4140, 4170, 4105, 4215, 4160,
      4130, 4175, 4095] = 4160 ∧ trimProduct 4160 (List.replicate 16 4160) = 4225 ∧
      trimProduct 4400 (List.replicate 16 4300) = 4619 := by decide

/-- Section 6.8: the windows of the lorry 2-0017. -/
theorem test_window :
    windowOf 2400 600 7600000 (some 1997) = (67700166, 373321442) ∧
      windowOf 2400 1800 68120000 (some 1980) = (88322020, 194332121) := by decide +kernel

/-- R133: 1,790 is padded to 1,969 at 10 %. -/
theorem test_padded : padded (station entry .joining) 1790 = 1969 := by decide +kernel

/-- Section 3.10: the verdict BORDER of a gross of 1,770 against 1,800 at 5 %. -/
theorem test_judge :
    judge 1800 5 1770 = .border ∧ judge 1800 5 1710 = .clear ∧ judge 1800 5 1801 = .over := by decide

/-- The check value of the CRC-16 with generator 0x1021, starting value 0xFFFF and no inversion, over
the characters 1 to 9. -/
theorem test_crc : crc16 (ascii "123456789") = 0x29B1 := by decide +kernel

/-- R60, section 4.2: a RECEIPT is 13 bytes long. -/
theorem test_receipt_length :
    (frameBytes { sender := 5, sequence := 0, receiptFrom := none, body := .receipt 3 7 0x21 }).length
      = 13 := by decide +kernel

/-! ## States and operands that meet the hypotheses of the statements

One theorem for each statement with hypotheses, with a boundary value for each of its clauses. -/

/-- Strips, records and states the witnesses use. -/
def lead1 : Strip := ⟨0, .lead⟩

def trail1 : Strip := ⟨0, .trail⟩

def jn : State := station plain .joining

def rn : State := station plain .running

def je : State := station entry .joining

def re : State := station entry .running

def jd : State := station divert .joining

def someHit (p : Strip) (start : Clock) : HitReport :=
  { strip := p, start := start, width := 10000, area := 40000, clipped := false }

def someAxle (load : Option Nat) : Axle :=
  { time := 900000000, lane := 0, partner := none, speed := some 1997, load := load, band := some .mid
    flags := { unweighed := load.isNone } }

def someVehicle (load : Option Nat) : OpenVehicle :=
  { axles := [someAxle load], spacings := [], continuation := false, closeAt := now }

def someTag : Tag := { origin := 2, serial := 4095 }

def heavyRecord : Record := { closeRecord plain 0 (someVehicle (some 350)) false with tag := some someTag }

def flight (n : Notice) (attempts collisions : Nat) (k : Option Station) : Flight :=
  { notice := n, sequence := 255, attempts := attempts, collisions := collisions, receiptFrom := k
    bytes := [] }

def left : Notice := .left someTag 0

def onLine (t : Transmit) (f : Option Flight) (s : State) : State :=
  { s with line.transmit := t, line.flight := f }

def row (r : RowState) (chainage : Nat) : PeerRow :=
  { state := r, expected := true, silence := some now, lastSequence := some 7, failures := 1
    heard := some
      { at_ := 0
        body :=
          { restarts := 3, cause := .powerOn, divert := false, entry := false, exit := false
            beyondExit := false, chainage := chainage, laneCount := 2, blind := Tab.fill 4 false
            posture := .normal, entryDegraded := false, signDegraded := false } } }

def atFront (q : List Record) (h : HeadState) (s : State) : State :=
  { s with
    entry.lanes := s.entry.lanes.upd 0 fun x =>
      { x with queue := q, head := h, occupied := true, settle := some now } }

def spanOf (weight : Nat) : SpanEntry :=
  { tag := someTag, lane := 0, weight := weight, entered := 0, deadline := now, overdue := false
    redRun := false, uncontrolled := false, unseen := false, noncompliant := false }

/-- A command waiting; and none, with the 1 ms of a RESTART over at the next microsecond. -/
theorem test_witness_StepTakesFrontCommand :
    ({ jn with pending := [.status] }).pending = .status :: [] ∧ jn.pending = [] ∧
      ({ jn with restartHold := some (now + 1) }).pending = [] := by decide +kernel

theorem test_witness_invariants :
    settled jn = true ∧ bounded jn = true ∧ trimsInRange jn = true ∧ channelsOff jn = true ∧
      headsRight jn ∧ queueOrdered jn.line.queue ∧
      ∃ t, step { jn with pending := [.healthStep] } = .next t := by
  refine ⟨by decide +kernel, by decide +kernel, by decide +kernel, by decide +kernel, ?_, ?_, _, rfl⟩
  · unfold headsRight; decide +kernel
  · unfold queueOrdered; decide +kernel

theorem test_witness_StepKeepsPostureRight : postureRight jn ∧ ∃ t, step jn = .next t :=
  ⟨⟨fun _ => by decide +kernel, fun h => absurd h (by decide +kernel)⟩, _, rfl⟩

def edges (c : ChannelState) : State := with_ (setChannel lead1 { channelOf jn lead1 with state := c }) jn

theorem test_witness_SignalEdgesAndStuckPulses :
    (∀ c ∈ [ChannelState.armed, .wait, .off],
      settled (edges c) = true ∧ (channelOf (edges c) lead1).state = c) := by decide +kernel

def pulsing (area : Nat) : State :=
  with_ (setChannel lead1
    { state := .pulse, start := now - 60000000, area := area, clipped := false, noise := 65535 }) jn

theorem test_witness_PulseEndCountsNoiseOrTakesHold :
    ∀ n ∈ [1999, 2000, 16777215],
      settled (pulsing n) = true ∧ (channelOf (pulsing n) lead1).state = .pulse ∧
        elapsed (pulsing n).clock (channelOf (pulsing n) lead1).start = 60000000 ∧
        (channelOf (pulsing n) lead1).area = n ∧ (pulsing n).cfg.minArea = 2000 ∧
        (channelOf (pulsing n) lead1).clipped = false ∧ stripFailed (pulsing n) lead1 = false ∧
        mergePartner (pulsing n) lead1 = none ∧ holdOf (pulsing n) 0 .lead = none := by
  decide +kernel

theorem test_witness_SignalEdgesAndStuckPulses_stuck :
    settled (pulsing 0) = true ∧ (channelOf (pulsing 0) lead1).state = .pulse ∧
      60000000 ≤ elapsed (pulsing 0).clock (channelOf (pulsing 0) lead1).start := by decide +kernel

/-- A hit in its hold since a reading. -/
def heldHit (p : Strip) (start delivered : Clock) : HeldHit :=
  { hit := someHit p start, delivered := delivered, mode := .dual, expires := delivered + 40000 }

def held (p : Strip) (start : Clock) (q : List PendingLead) : State :=
  with_ (fun s => setHold 0 p.pos (some (heldHit p start (now - 40000))) (setFifo 0 q s)) jn

def waitingLead (start : Clock) : PendingLead :=
  { start := start, width := 10000, area := 40000, clipped := false, partner := none
    joined := start + 50000, expiry := start + 6000000 }

/-- The state with runs of a strip, and whether it is FAILED. -/
def withRuns (p : Strip) (silence clip : Nat) (failed : Bool) (s : State) : State :=
  with_ (setHealth p
    { healthOf s p with silenceRun := silence, clipRun := clip, failed := failed }) s

/-- The 7th and the 8th clipped report in a row, of a GOOD and of a FAILED strip; the area passes its
ceiling by one, or a sample is at full scale. -/
theorem test_witness_PulseEndCountsNoiseOrTakesHold_clipped :
    (∀ c ∈ [(6, false), (7, false), (6, true), (7, true)],
      let s := withRuns lead1 0 c.1 c.2 (pulsing 16777215)
      settled s = true ∧ (channelOf s lead1).state = .pulse ∧ (channelOf s lead1).area = 16777215 ∧
        elapsed s.clock (channelOf s lead1).start = 60000000 ∧ stripFailed s lead1 = c.2 ∧
        (healthOf s lead1).clipRun = c.1 ∧ mergePartner s lead1 = none ∧
        holdOf s 0 .lead = none ∧ s.cfg.minArea ≤ min 16777215 (16777215 + 1)) ∧
      16777215 < 16777215 + ([⟨1, false⟩].map Sample.counts).sum ∧
      ∃ x ∈ [(⟨0, true⟩ : Sample)], x.fullScale = true := by
  refine ⟨by decide +kernel, by decide, _, List.mem_singleton.2 rfl, rfl⟩

/-- A pulse that ends on a strip of lane 1 whose hold still holds an earlier hit. -/
def pulseEnding (p : Pos) (mode : LaneMode) (q : List PendingLead) : State :=
  with_ (fun s =>
    setChannel ⟨0, p⟩ { state := .pulse, start := now, area := 2000, clipped := false, noise := 0 }
      (setHold 0 p (some { heldHit ⟨0, p⟩ (now - 5999999) now with mode := mode }) (setFifo 0 q s))) jn

/-- The earlier hit is a lead and the FIFO has room for one more; a trail with no lead waiting, and
one microsecond after the front lead; and a hit stamped SINGLE. -/
theorem test_witness_PulseEndCountsNoiseOrTakesHold_held :
    ∀ c ∈ [(Pos.lead, LaneMode.dual, List.replicate 5 (waitingLead now)), (.trail, .dual, []),
        (.trail, .dual, [waitingLead (now - 6000000)]), (.trail, .single, [])],
      let s := pulseEnding c.1 c.2.1 c.2.2
      let p : Strip := ⟨0, c.1⟩
      settled s = true ∧ (channelOf s p).state = .pulse ∧ (channelOf s p).area = 2000 ∧
        s.cfg.minArea = 2000 ∧ elapsed s.clock (channelOf s p).start = 0 ∧
        (channelOf s p).clipped = false ∧ stripFailed s p = false ∧ mergePartner s p = none ∧
        holdOf s 0 c.1 = some { heldHit p (now - 5999999) now with mode := c.2.1 } ∧
        (s.pairing.at 0).fifo = c.2.2 ∧ s.vehicles.at 0 = none ∧
        atOrAfter s.clock (later (now - 5999999) (s.cfg.spacing.at 0 * 2000)) = false ∧
        elapsed (now - 5999999) (waitingLead (now - 6000000)).start = 1 := by decide +kernel

/-- Lane 2's lead ends its pulse between two held hits delivered at one reading, with 5 leads in the
FIFO of lane 1; its area is smaller than theirs, or the same. -/
def beside (area : Nat) : State :=
  with_ (fun s =>
    setHold 0 .lead (some (heldHit lead1 (now - 5999999) (now - 1)))
      (setHold 2 .lead (some (heldHit ⟨2, .lead⟩ (now - 5999999) (now - 1)))
        (setFifo 0 (List.replicate 5 (waitingLead (now - 5999999)))
          (setChannel ⟨1, .lead⟩
            { state := .pulse, start := now - 5999999, area := area, clipped := false, noise := 0 } s))))
    (station { plain with laneCount := 4 } .joining)

/-- The hit it delivers. -/
def besideHit (area : Nat) : HeldHit :=
  { hit :=
      { strip := ⟨1, .lead⟩, start := now - 5999999, width := 5999999, area := area, clipped := false }
    delivered := now, mode := .dual, expires := later now 40000 }

theorem test_witness_AdjacentHitsBecomeStraddle :
    ∀ n ∈ [2000, 40000],
      let s := beside n
      let p : Strip := ⟨1, .lead⟩
      let y := heldHit lead1 (now - 5999999) (now - 1)
      let h := straddleHit s (besideHit n) y
      holdOf s 0 .lead = some y ∧
        holdOf s 2 .lead = some (heldHit ⟨2, .lead⟩ (now - 5999999) (now - 1)) ∧
        settled s = true ∧ (channelOf s p).state = .pulse ∧
        elapsed s.clock (channelOf s p).start = 5999999 ∧ (channelOf s p).area = n ∧
        s.cfg.minArea = 2000 ∧ (channelOf s p).clipped = false ∧ stripFailed s p = false ∧
        laneMode s p.lane = .dual ∧ laneInUse s 2 = true ∧ h.lane = 0 ∧
        (s.pairing.at h.lane).fifo.length = 5 ∧
        atOrAfter s.clock (later h.start (s.cfg.spacing.at h.lane * 2000)) = false := by
  decide +kernel

/-- Two hits that overlap, in leads and in trails; the trails with a STRADDLE lead in each lane. -/
theorem test_witness_AdjacentHitsBecomeStraddle_lane :
    let x (l : Lane) (p : Pos) (start : Clock) : HeldHit := heldHit ⟨l, p⟩ start now
    let straddling (k : Lane) (joined : Clock) : PendingLead :=
      { waitingLead now with partner := some k, joined := joined }
    let s := setFifo 0 [straddling 1 5] (setFifo 1 [straddling 0 4] jn)
    (straddleHit jn (x 0 .lead 100) (x 1 .lead 600)).lane = 0 ∧
      (straddleHit jn (x 0 .lead 100) (x 1 .lead 600)).width = 10500 ∧
      (600 : Clock) = later 100 500 ∧ (straddleHit s (x 0 .trail 100) (x 1 .trail 600)).lane = 1 := by
  decide +kernel

/-- A held lead that reaches a FIFO with room for one more, a full one, and none after its expiry; the
trail strip blamed for the 15th and the 16th time in a row. -/
theorem test_witness_HeldLeadJoinsFifo :
    ∀ c ∈ [((5999999 : Clock), 5, false), (5999999, 6, false), (6000000, 0, true)], ∀ n ∈ [14, 15],
      let s := withRuns trail1 n 0 false
        (held lead1 (now - c.1) (List.replicate c.2.1 (waitingLead (now - 5999999))))
      holdOf s 0 .lead = some (heldHit lead1 (now - c.1) (now - 40000)) ∧ settled s = true ∧
        atOrAfter s.clock (now - 40000 + 40000) = true ∧
        atOrAfter s.clock (later (now - c.1) (s.cfg.spacing.at 0 * 2000)) = c.2.2 ∧
        (s.pairing.at 0).fifo.length = c.2.1 ∧ s.vehicles.at 0 = none ∧
        (healthOf s trail1).silenceRun = n := by decide +kernel

/-- A trail one microsecond after the front lead pairs; one at the same reading, or with no lead, does
not, and blames the lead strip for the 15th and the 16th time in a row. -/
theorem test_witness_HeldTrailPairsWithFrontLead :
    ∀ c ∈ [([waitingLead (now - 50001)], true), ([waitingLead (now - 50000)], false), ([], false)],
      ∀ n ∈ [14, 15],
      let s := withRuns lead1 n 0 false (held trail1 (now - 50000) c.1)
      holdOf s 0 .trail = some (heldHit trail1 (now - 50000) (now - 40000)) ∧ settled s = true ∧
        atOrAfter s.clock (now - 40000 + 40000) = true ∧ (s.pairing.at 0).fifo = c.1 ∧
        (c.1.any fun y =>
          decide (1 ≤ elapsed (now - 50000) y.start ∧
            elapsed (now - 50000) y.start < 2147483648)) = c.2 ∧
        s.vehicles.at 0 = none ∧ (healthOf s lead1).silenceRun = n := by decide +kernel

def expiring (silence : Nat) : State :=
  withRuns trail1 silence 0 false
    (setFifo 0 [waitingLead now, waitingLead (now - 6000000)] jn)

/-- The trail strip blamed for the 15th and the 16th time in a row. -/
theorem test_witness_OneStripHitsFormAxles :
    ∀ n ∈ [14, 15],
      let s := expiring n
      settled s = true ∧ (s.pairing.at 0).fifo[1]? = some (waitingLead (now - 6000000)) ∧
        atOrAfter s.clock (waitingLead (now - 6000000)).expiry = true ∧
        s.vehicles.at 0 = none ∧ (healthOf s trail1).silenceRun = n := by decide +kernel

/-- A hit stamped SINGLE in the hold of a trail whose lane's lead strip is FAILED. -/
def heldSingle : State :=
  with_ (fun s => setHold 0 .trail
    (some { hit := someHit trail1 0, delivered := now - 40000, mode := .single, expires := now })
    (setHealth lead1 { healthOf s lead1 with failed := true } s)) jn

theorem test_witness_OneStripHitsFormAxles_single :
    ∃ x, holdOf heldSingle 0 .trail = some x ∧ settled heldSingle = true ∧
      heldSingle.vehicles.at 0 = none ∧ atOrAfter heldSingle.clock x.expires = true ∧
      x.hit.strip = trail1 ∧ x.mode = .single := by
  refine ⟨_, rfl, ?_⟩
  decide +kernel

/-- Section 2.8: 1,089 kg. -/
theorem test_witness_StripLoadsAreComputed :
    let s : State := { jn with probe.theta := some (-10) }
    (s.cfg.cal.at (stripIndex lead1)).autoBand = true ∧ bandOf 2000 = .fast ∧
      ((1114 : Nat) : Int) = max 768 (min 1280 (1024 + 3 * (20 - s.probe.theta.getD 20))) ∧
      (1114 * s.store.trims.at 0 + 2048) / 4096 = 1114 ∧
      1089 * 68719476736 ≤ 48000 * 2000 * 700 * 1114 + 34359738368 ∧
      48000 * 2000 * 700 * 1114 + 34359738368 < (1089 + 1) * 68719476736 := by decide +kernel

/-- Spacings of 900 and 901 against an S_max of 900, with 11 and with 12 axles. -/
theorem test_witness_AxlesJoinOrCloseVehicle :
    let v (n : Nat) : OpenVehicle :=
      { axles := List.replicate n (someAxle none), spacings := List.replicate (n - 1) none
        continuation := false, closeAt := 0 }
    let a (gap : Clock) : Axle := { someAxle none with time := 900000000 + gap }
    (∀ n ∈ [11, 12], (setVehicle 0 (some (v n)) jn).vehicles.at 0 = some (v n) ∧
        (v n).axles.getLast? = some (someAxle none)) ∧
      jn.cfg.sMax = 900 ∧ spacingOf (someAxle none) (a 451176) = some 900 ∧
      spacingOf (someAxle none) (a 451177) = some 901 := by decide +kernel

def heavyVehicle (exit : Bool) : State :=
  with_ (setVehicle 0 (some (someVehicle (some 350)))) (station { plain with exit := exit } .joining)

theorem test_witness_HeavyVehicleIsTaggedAndAnnounced :
    ∀ b ∈ [true, false],
      let s := heavyVehicle b
      settled s = true ∧ s.startup = .joining ∧
        s.vehicles.at 0 = some (someVehicle (some 350)) ∧ atOrAfter s.clock now = true ∧
        s.cfg.divert = false ∧ s.cfg.entry = false ∧ s.cfg.exit = b ∧
        (s.trim.at 0).pending = none ∧ s.cfg.heavyThreshold = 350 ∧
        matchFor s (closeRecord s.cfg 0 (someVehicle (some 350)) false) = none ∧
        tagHeld s { origin := 5, serial := s.nextSerial } = false ∧ s.line.queue = [] := by
  decide +kernel

/-- Seven LEFT notices and a last frame. -/
def fullQueue (last : Notice) : List Waiting :=
  ((List.range 7).map fun k =>
    { notice := .left { origin := 0, serial := BitVec.ofNat 12 k } 0, queued := 0 }) ++
    [{ notice := last, queued := 0 }]

/-- The heavy vehicle closes at a full queue whose last frame is of a worse class, and of a better. -/
theorem test_witness_HeavyVehicleIsTaggedAndAnnounced_full :
    ∀ n ∈ [Notice.beacon, left],
      let s := with_ (fun s => { s with line.queue := fullQueue n }) (heavyVehicle false)
      settled s = true ∧ s.startup = .joining ∧
        s.vehicles.at 0 = some (someVehicle (some 350)) ∧
        matchFor s (closeRecord s.cfg 0 (someVehicle (some 350)) false) = none ∧
        tagHeld s { origin := 5, serial := s.nextSerial } = false ∧ s.cfg.exit = false ∧
        s.line.queue = (fullQueue n).dropLast ++ [{ notice := n, queued := 0 }] ∧
        (fullQueue n).dropLast.length = 7 ∧ queueOrdered s.line.queue ∧
        ∀ w ∈ s.line.queue, w.notice.kind ≠ 0x21 := by
  unfold queueOrdered
  decide +kernel

def anEntry (directed : Bool) : ApproachEntry :=
  { tag := someTag, lastStation := 0, seen := 0, lane := 3, speed := none, axleCount := none
    spacings := none, effGross := 1900, effVerdict := .over, confidence := .full
    directed := directed, reference := none, straddle := false, overlong := false
    continuation := false, singleSource := false, windowOpen := 0, windowClose := now, created := 0 }

/-- The entry a notice of the reference peer has left, and one that is tried after it. -/
def refEntry (ref : Option Nat) : ApproachEntry := { anEntry false with reference := ref }

def laterEntry : ApproachEntry :=
  { anEntry false with tag := { origin := 2, serial := 0 }, created := 1 }

/-- A vehicle of 1,000 that is to be matched, with a trim window and a FIFO. -/
def matching (ref : Option Nat) (n : Nat) (q : List PendingLead) : State :=
  with_ (fun s => setFifo 0 q
    { setEntries [laterEntry, refEntry ref] (setVehicle 0 (some (someVehicle (some 1000))) s) with
      trim := s.trim.put 0 { TrimLane.afterReset with window := List.replicate n 4096 } }) jn

/-- No reference gross; and one that leaves the window at 15 ratios, or forms a trim in a lane with and
without a pending lead. -/
theorem test_witness_RecordTakesItsMatch :
    ∀ c ∈ [((none : Option Nat), 15, ([] : List PendingLead)), (some 1000, 14, []),
        (some 1000, 15, []), (some 1000, 15, [waitingLead now])],
      let s := matching c.1 c.2.1 c.2.2
      let r := closeRecord s.cfg 0 (someVehicle (some 1000)) false
      settled s = true ∧ s.startup = .joining ∧
        s.vehicles.at 0 = some (someVehicle (some 1000)) ∧ atOrAfter s.clock now = true ∧
        s.cfg.divert = false ∧ s.cfg.entry = false ∧ s.cfg.exit = false ∧
        (s.trim.at 0).pending = none ∧ s.cfg.heavyThreshold ≤ 1000 ∧
        matchFor s r = some (refEntry c.1) ∧ s.line.queue = [] ∧
        (c.1.any fun ref => ((offerTrim r ref s).trim.at 0).pending.isSome) =
          decide (c.1 = some 1000 ∧ c.2.1 = 15) ∧
        (s.pairing.at 0).fifo = c.2.2 := by decide +kernel

/-- Distinct tags, created within half the clock's range, and a signature as long as the record's. -/
theorem test_witness_RecordTakesItsMatch_order :
    let s := matching none 0 []
    let r := closeRecord s.cfg 0 (someVehicle (some 1000)) false
    r.spacings.length + 1 = r.axles.length ∧
      (s.approach.entries.Pairwise fun a b => a.tag ≠ b.tag) ∧
      (∀ f ∈ s.approach.entries, elapsed s.clock f.created < 2147483648 ∧ f.spacings = none) ∧
      ∀ f ∈ s.approach.entries, isCandidate s r f = true := by decide +kernel

def lightVehicle (load : Option Nat) (q : List PendingLead) (p : Option Nat) : State :=
  with_ (fun s => setFifo 0 q
    { setVehicle 0 (some (someVehicle load)) s with
      trim := s.trim.put 0 { TrimLane.afterReset with pending := p } }) jn

/-- A light vehicle of 349, one UNWEIGHED axle, and a pending trim with and without a pending lead. -/
theorem test_witness_LightVehicleAppliesTrim :
    ∀ c ∈ [(some 349, ([] : List PendingLead), (none : Option Nat)), (none, [], none),
        (some 349, [], some 4506), (some 349, [waitingLead now], some 3686)],
      let s := lightVehicle c.1 c.2.1 c.2.2
      settled s = true ∧ s.vehicles.at 0 = some (someVehicle c.1) ∧ atOrAfter s.clock now = true ∧
        s.cfg.entry = false ∧
        ((someVehicle c.1).axles.filterMap Axle.load).sum < s.cfg.heavyThreshold ∧
        (someVehicle c.1).axles.length < 3 ∧ (s.trim.at 0).pending = c.2.2 ∧
        (s.pairing.at 0).fifo = c.2.1 := by decide +kernel

def window (n : Nat) : State :=
  { rn with trim := rn.trim.put 0 { TrimLane.afterReset with window := List.replicate n 4096 } }

def fullRecord (gross : Nat) : Record := closeRecord plain 0 (someVehicle (some gross)) false

theorem test_witness_OfferedReferenceTakesRatio :
    working (window 14) = true ∧ working (window 15) = true ∧
      (fullRecord 1000).confidence = .full ∧ (fullRecord 1000).gross = 1000 ∧
      (fullRecord 1000).lane = 0 ∧ ((window 14).trim.at 0).window.length = 14 ∧
      ((window 15).trim.at 0).window.length = 15 := by decide +kernel

/-- One short of 1,000 in the own gross and in the reference, and REDUCED confidence. -/
theorem test_witness_OfferedReferenceTakesRatio_refused :
    ∀ c ∈ [(fullRecord 999, 1000), (fullRecord 1000, 999),
        ({ fullRecord 1000 with confidence := .reduced }, 1000)],
      c.1.confidence = .reduced ∨ c.2 < 1000 ∨ c.1.gross < 1000 := by decide +kernel

def aBeacon (restarts : Byte) (degraded : Bool) : BeaconBody :=
  { restarts := restarts, cause := .powerOn, divert := false, entry := false, exit := false
    beyondExit := false, chainage := 1800, laneCount := 2, blind := Tab.fill 4 false
    posture := .normal, entryDegraded := degraded, signDegraded := false }

def leftFrame : Frame :=
  { sender := 7, sequence := 1, receiptFrom := none, body := .left someTag 0 }

def frames : List Frame :=
  [{ sender := 0, sequence := 0, receiptFrom := none, body := .receipt 8 255 0x31 },
    { sender := 7, sequence := 255, receiptFrom := some 7
      body := .entered someTag 3 16777215 72000 65535 },
    leftFrame,
    { sender := 3, sequence := 0, receiptFrom := some 0
      body := .vehicle (weighingOf heavyRecord someTag) 65535 },
    { sender := 1, sequence := 9, receiptFrom := none
      body := .beacon (aBeacon 3 true) }]

theorem test_witness_FrameReadsBack : frames.all frameInRange = true := by decide +kernel

def contending (idle : Option Nat) : State :=
  with_ (fun s =>
    { onLine .contending (some (flight left 0 0 none)) s with
      line.idleSince := idle.map (earlier now) }) rn

theorem test_witness_ContentionBeginsAttempt :
    (∀ i ∈ [none, some 719, some 720],
      settled (contending i) = true ∧ (contending i).startup = .running ∧
        (contending i).line.transmit = .contending ∧
        (contending i).line.flight = some (flight left 0 0 none) ∧
        (contending i).line.driving = none ∧
        (contending i).line.idleSince.map (elapsed now) = i) ∧
      (4 + 8 * left.class_ + stationNumber rn.cfg.station) * 40 = 720 := by decide +kernel

def sending (collisions : Nat) (k : Option Station) : State :=
  with_ (onLine .sending (some (flight left 0 collisions k))) rn

theorem test_witness_CollisionsAreCounted :
    ∀ n ∈ [14, 15], settled (sending n none) = true ∧ (sending n none).startup = .running ∧
      (sending n none).line.transmit = .sending ∧
      (sending n none).line.flight = some (flight left 0 n none) := by decide +kernel

def sendingMore : State :=
  with_ (fun s => { s with line.queue := [{ notice := .beacon, queued := 0 }] }) (sending 0 none)

theorem test_witness_AttemptEndsAndAreRetried :
    settled (sending 0 none) = true ∧ (sending 0 none).line.queue = [] ∧
      settled (sending 3 (some 4)) = true ∧
      (sending 3 (some 4)).line.flight = some (flight left 0 3 (some 4)) ∧
      settled sendingMore = true ∧ sendingMore.startup = .running ∧
      sendingMore.line.flight = some (flight left 0 0 none) ∧
      sendingMore.line.queue = [{ notice := .beacon, queued := 0 }] := by decide +kernel

def awaiting (attempts failures : Nat) : State :=
  with_ (fun s => setRow 6 { row .present 3000 with failures := failures }
    (onLine (.awaiting now) (some (flight left attempts 0 (some 6))) s)) rn

/-- A retry left, and the second and the third failure of a PRESENT row. -/
theorem test_witness_AttemptEndsAndAreRetried_wait :
    ∀ c ∈ [(2, 255), (3, 1), (3, 2)],
      let s := awaiting c.1 c.2
      settled s = true ∧ working s = true ∧ s.line.transmit = .awaiting now ∧
        s.line.flight = some (flight left c.1 0 (some 6)) ∧ atOrAfter s.clock now = true ∧
        s.line.idleSince.isSome = true ∧ (rowOf s 6).failures = c.2 ∧
        (rowOf s 6).state = .present := by decide +kernel

def idleFrom (idle : Option Nat) (looking : Bool) : State :=
  with_ (fun s => { s with line.idleSince := idle.map (earlier now), line.looking := looking }) rn

/-- Busy with and without a frame looked for; and idle for 80 and for 79 microseconds. -/
theorem test_witness_BadFramesAreCounted :
    (∀ c ∈ [((none : Option Nat), true), (none, false), (some 80, false), (some 79, true)],
      settled (idleFrom c.1 c.2) = true ∧ isListening (idleFrom c.1 c.2) = true ∧
        (idleFrom c.1 c.2).line.idleSince.map (elapsed now) = c.1 ∧
        (idleFrom c.1 c.2).line.looking = c.2) ∧
      (∃ e, readFrame [] = .error e) ∧ (∃ e, readFrame [0x55, 0x12] = .error e) := by
  refine ⟨by decide +kernel, ⟨_, rfl⟩, ⟨_, rfl⟩⟩

def slotted (last : Byte) (n : Nat) : State :=
  with_ (fun s =>
    setRow 7 { row .present 3000 with lastSequence := some last }
      { s with line.slots := List.replicate n { frame := leftFrame, arrival := now } }) rn

theorem test_witness_FramesAreStoredOrCounted :
    settled (slotted 1 2) = true ∧ isListening (slotted 1 2) = true ∧
      looksForFrame (slotted 1 2) = true ∧ looksForFrame (slotted 0 1) = true ∧
      looksForFrame (slotted 2 2) = true ∧
      frameInRange leftFrame = true ∧ leftFrame.sender = 7 ∧ leftFrame.sequence = 1 ∧
      leftFrame.body.kind ≠ 1 ∧ (rowOf (slotted 1 2) 7).lastSequence = some 1 ∧
      settled (slotted 0 1) = true ∧ (rowOf (slotted 0 1) 7).lastSequence = some 0 ∧
      (slotted 0 1).line.slots.length = 1 ∧ settled (slotted 2 2) = true ∧
      (rowOf (slotted 2 2) 7).lastSequence = some 2 ∧ (slotted 2 2).line.slots.length = 2 := by
  decide +kernel

/-- A well framed frame with any header and body. -/
def framed (r : RawFrame) : List Byte :=
  let covered := [r.sender, r.kind, r.sequence, r.receiptFrom, byte r.body.length] ++ r.body
  [0x55, 0x55, 0xC3] ++ covered ++ bytes2 (crc16 covered)

/-- Frames that fail one format check each: sender, kind, receipt-from, receipt-from of a RECEIPT,
length, tag origin, lane, gross, roles, lane count, axle count, partner lane, speed and load. -/
def brokenFrames : List RawFrame :=
  let weighing (lanes speed n load : Nat) : List Byte :=
    [0x10, 1, byte lanes, 0, 0, 0, byte speed, byte n, 0, 0, 0, 0, 0, 0, 0, 0, 0] ++
      bytes2 load ++ (if n = 1 then [] else [0, 0, 0])
  [⟨0, 0x12, 1, 0, [0x10, 1, 0, 0]⟩, ⟨9, 0x12, 1, 0, [0x10, 1, 0, 0]⟩,
    ⟨7, 0x13, 1, 0, [0x10, 1, 0, 0]⟩, ⟨7, 0x12, 1, 9, [0x10, 1, 0, 0]⟩,
    ⟨7, 0x01, 1, 1, [6, 1, 0x12]⟩, ⟨7, 0x12, 1, 0, [0x10, 1, 0]⟩,
    ⟨7, 0x12, 1, 0, [0x0F, 1, 0, 0]⟩, ⟨7, 0x12, 1, 0, [0x90, 1, 0, 0]⟩,
    ⟨7, 0x11, 1, 0, [0x10, 1, 5, 0, 0, 0, 0, 0, 0, 0, 0]⟩,
    ⟨7, 0x11, 1, 0, [0x10, 1, 1, 0, 0, 0] ++ bytes3 72001 ++ [0, 0]⟩,
    ⟨7, 0x31, 1, 0, [0, 0, 3, 0, 0, 1, 0, 0, 0]⟩, ⟨7, 0x31, 1, 0, [0, 0, 0, 0, 0, 5, 0, 0, 0]⟩,
    ⟨7, 0x21, 1, 0, weighing 1 0 0 0⟩, ⟨7, 0x21, 1, 0, weighing 0x11 0 1 0⟩,
    ⟨7, 0x22, 1, 0, weighing 1 49 1 0⟩, ⟨7, 0x22, 1, 0, weighing 1 50 1 6001⟩]

theorem test_witness_FramesAreStoredOrCounted_format :
    (∀ r ∈ brokenFrames, formatFails r ∧ (readFrame (framed r)).toOption = some r) ∧
      settled (slotted 1 0) = true ∧ isListening (slotted 1 0) = true ∧
      looksForFrame (slotted 1 0) = true := by
  unfold formatFails
  decide +kernel

/-- A LEFT and a RECEIPT that bear the station's own number. -/
theorem test_witness_FramesAreStoredOrCounted_own :
    ∀ b ∈ [Body.left someTag 0, .receipt 6 255 0x12],
      let f : Frame := { sender := 5, sequence := 1, receiptFrom := none, body := b }
      frameInRange f = true ∧ f.sender = (slotted 1 0).cfg.station := by decide +kernel

/-- AWAITING with and without a frame waiting, and IDLE. -/
theorem test_witness_ValidReceiptDelivers :
    let more := with_ (fun s => { s with line.queue := [{ notice := .beacon, queued := 0 }] })
      (awaiting 0 0)
    (∀ s ∈ [awaiting 0 0, more], settled s = true ∧ isListening s = true ∧ looksForFrame s = true ∧
        s.line.transmit = .awaiting now ∧ s.line.flight = some (flight left 0 0 (some 6)) ∧
        (byte 6).toNat = stationNumber s.cfg.station ∧ (6 : Station) ≠ s.cfg.station) ∧
      more.line.queue.length = 1 ∧ (byte left.kind).toNat = left.kind ∧
      settled rn = true ∧ isListening rn = true ∧ looksForFrame rn = true ∧
      rn.line.transmit = .idle := by decide +kernel

def owing : State :=
  with_ (fun s =>
    { s with
      line.owed := some { sender := 7, sequence := 255, kind := 0x22 }
      line.idleSince := some (now - 80) }) rn

def drivingReceipt : State := with_ (fun s => { s with line.driving := some [] }) rn

theorem test_witness_ReceiptsAreDriven :
    settled owing = true ∧ isListening owing = true ∧ owing.line.owed.isSome = true ∧
      owing.line.idleSince = some (now - 80) ∧ 80 ≤ elapsed owing.clock (now - 80) ∧
      settled drivingReceipt = true ∧ drivingReceipt.line.driving.isSome = true := by decide +kernel

def handling (body : Body) (f : State → State) (s : State) : State :=
  with_ (fun s => f
    { s with
      line.slots :=
        [{ frame := { sender := 0, sequence := 1, receiptFrom := none, body := body }, arrival := now }] }) s

def beaconed (r : RowState) (restarts : Byte) (degraded : Bool) : State :=
  handling (.beacon (aBeacon restarts degraded)) (setRow 0 (row r 1800)) rn

theorem test_witness_BeaconUpdatesRow :
    ∀ x ∈ [(RowState.present, (3 : Byte), false), (.present, 4, true), (.silent, 3, false)],
      let s := beaconed x.1 x.2.1 x.2.2
      settled s = true ∧ s.startup = .running ∧ s.cfg.entry = false ∧ s.entry.mode = .timed ∧
        s.line.slots.map (fun y => y.frame.body) = [.beacon (aBeacon x.2.1 x.2.2)] ∧
        (aBeacon x.2.1 x.2.2).chainage ≠ s.cfg.chainage := by decide +kernel

/-- A beacon of the station's own chainage, from a peer last heard at another and at the same one, and
from one not heard before. -/
theorem test_witness_BeaconUpdatesRow_clash :
    ∀ c ∈ [(some 1801, (some 1801 : Option Nat)), (some 1800, some 1800), (none, none)],
      let s := handling (.beacon (aBeacon 3 false))
        (fun s => match c.1 with
          | some n => setRow 0 (row .present n) s
          | none => s) (station { plain with chainage := 1800 } .running)
      settled s = true ∧ s.startup = .running ∧ s.cfg.entry = false ∧ s.entry.mode = .timed ∧
        (aBeacon 3 false).chainage = s.cfg.chainage ∧ chainageOf s 0 = c.2 := by decide +kernel

def joined (c : Configuration) : State :=
  with_ (fun s => { s with peers.joinTimer := some now }) (station c .joining)

theorem test_witness_JoinEnds :
    ∀ c ∈ [plain, entry], settled (joined c) = true ∧ (joined c).startup = .joining ∧
      due (joined c).clock (joined c).peers.joinTimer = true ∧ (joined c).line.queue = [] ∧
      (joined c).line.transmit = .idle ∧ (joined c).entry.held = [] := by decide +kernel

def beaconDue (n : Notice) : State :=
  with_ (fun s =>
    { onLine .contending (some (flight left 0 0 none)) s with
      peers.beaconTimer := some now
      line.queue := List.replicate 7 { notice := n, queued := 0 } }) rn

theorem test_witness_PeerTimersExpire :
    ∀ n ∈ [left, .beacon], settled (beaconDue n) = true ∧
      due (beaconDue n).clock (beaconDue n).peers.beaconTimer = true ∧
      (beaconDue n).line.transmit ≠ .idle ∧ (beaconDue n).line.queue.length = 7 ∧
      (∀ w ∈ (beaconDue n).line.queue, w.notice = n) := by decide +kernel

/-- The queue is full without a BEACON. -/
theorem test_witness_PeerTimersExpire_full :
    let s := with_ (fun s => { s with line.queue := fullQueue left }) (beaconDue left)
    settled s = true ∧ working s = true ∧ due s.clock s.peers.beaconTimer = true ∧
      s.line.transmit ≠ .idle ∧ (∀ w ∈ s.line.queue, w.notice ≠ .beacon) ∧
      s.line.queue.length = 8 := by decide +kernel

/-- A frame of a better class than the worst waiting, of the same class, and of a worse. -/
theorem test_witness_PeerTimersExpire_displacement :
    ∀ c ∈ [(Notice.beacon, Notice.left { someTag with serial := 1 } 0, true),
        (left, .left { someTag with serial := 1 } 0, false), (left, .beacon, false)],
      let s := with_ (fun s => { s with line.queue := fullQueue c.1 }) rn
      working s = true ∧
        s.line.queue = (fullQueue c.1).dropLast ++ [{ notice := c.1, queued := 0 }] ∧
        (fullQueue c.1).dropLast.length = 7 ∧ queueOrdered s.line.queue ∧
        (∀ w ∈ s.line.queue, w.notice.kind = c.2.1.kind → w.notice.tag? ≠ c.2.1.tag?) ∧
        decide (c.2.1.class_ < c.1.class_) = c.2.2 := by
  unfold queueOrdered
  decide +kernel

def quietPeer : State := with_ (setRow 6 (row .present 3000)) rn

theorem test_witness_PeerTimersExpire_silence :
    settled quietPeer = true ∧ quietPeer.startup = .running ∧ quietPeer.cfg.entry = false ∧
      quietPeer.entry.mode = .timed ∧ (rowOf quietPeer 6).state = .present ∧
      due quietPeer.clock (rowOf quietPeer 6).silence = true := by decide +kernel

def announced : WeighingBody := { weighingOf heavyRecord someTag with speed := 50 }

/-- Entries of other tags, the earliest first. -/
def entries (n : Nat) : List ApproachEntry :=
  (List.range n).map fun k => { anEntry false with tag := { origin := 0, serial := BitVec.ofNat 12 k } }

def announcing (n : Nat) : State :=
  handling (.vehicle announced 10) (fun s => setEntries (entries n) (setRow 0 (row .present 1800) s)) jn

/-- The list with room for one more, and full. -/
theorem test_witness_VehicleNoticeCreatesEntry :
    ∀ n ∈ [47, 48],
      let s := announcing n
      settled s = true ∧ working s = true ∧
        s.line.slots.map (fun y => (y.frame.body, y.frame.sender)) = [(.vehicle announced 10, 0)] ∧
        isPresent s 0 = true ∧ chainageOf s 0 = some 1800 ∧ 1800 < s.cfg.chainage ∧
        tagHeld s announced.tag = false ∧ s.approach.entries.length = n ∧ announced.speed = 50 ∧
        atOrAfter s.clock (later (earlier now (10 * 10000))
          (min 1000000000 ((s.cfg.chainage - 1800) * 100 * 1000000 / max 100 (50 / 4)) +
            5000000)) = false := by decide +kernel

/-- A notice of station 1 in some row state at some chainage, with an older SIGHTING of its tag waiting. -/
def heardFrom (body : Body) (r : RowState) (chainage : Nat) (f : State → State) (c : Configuration) :
    State :=
  handling body
    (fun s => f (setRow 0 (row r chainage)
      { s with line.queue := [{ notice := .sighting announced 0, queued := 0 }] })) (station c .joining)

/-- Notices that create and update nothing: of a SILENT peer upstream and downstream, of one at the own
chainage, of a tag in the span set and in a stop-line queue, one that comes at the close of its window,
one from downstream of an unlisted tag, and an ENTERED at a station without the EXIT role. -/
theorem test_witness_VehicleNoticeCreatesEntry_nothing :
    (∀ c ∈ [(Body.vehicle announced 0, RowState.silent, 1800), (.sighting announced 0, .silent, 2401),
        (.entered someTag 0 0 0 0, .present, 2400), (.vehicle announced 0, .present, 2400),
        (.sighting announced 60500, .present, 1800), (.entered someTag 0 0 0 60500, .present, 1800),
        (.sighting announced 0, .present, 2401)],
      let s := heardFrom c.1 c.2.1 c.2.2 id { plain with exit := true }
      settled s = true ∧ working s = true ∧
        s.line.slots.map (fun y => (y.frame.body, y.frame.sender)) = [(c.1, 0)] ∧
        isPresent s 0 = decide (c.2.1 = .present) ∧ chainageOf s 0 = some c.2.2 ∧
        s.cfg.chainage = 2400 ∧ s.cfg.exit = true ∧ findEntry s someTag = none ∧
        announced.tag = someTag ∧ announced.speed = 50 ∧ heldAtStopLine s someTag = false ∧
        atOrAfter s.clock (later (earlier now (60500 * 10000))
          (min 1000000000 ((2400 - 1800) * 100 * 1000000 / 100) + 5000000)) = true) ∧
      (∀ f ∈ [fun s => { s with entry.span := [spanOf 385] }, atFront [heavyRecord] .stop],
        let s := heardFrom (.vehicle announced 0) .present 2399 f entry
        settled s = true ∧ working s = true ∧ isPresent s 0 = true ∧
          chainageOf s 0 = some 2399 ∧ s.cfg.chainage = 2400 ∧ s.cfg.entry = true ∧
          ((stopLine s 0).queue.any (fun r => decide (r.tag = some someTag)) ||
            s.entry.span.any fun e => decide (e.tag = someTag)) = true) ∧
      (let s := heardFrom (.entered someTag 0 0 0 0) .present 1800 id plain
       settled s = true ∧ working s = true ∧ s.cfg.exit = false) := by decide +kernel

/-- An EXIT station with one entry, last seen at the chainage of station 2, handling a notice of
station 1 at chainage 1,800. -/
def updating (body : Body) (last : Nat) (listed : Bool) : State :=
  handling body
    (fun s =>
      setEntries (if listed then [{ anEntry false with lastStation := 1 }] else [])
        (setRow 1 (row .present last) (setRow 0 (row .present 1800) s)))
    (station { plain with exit := true } .joining)

/-- A notice at the last station's chainage and one below it; a window that closes now and one that
closes 10 ms later; a listed and an unlisted ENTERED. The window of a speed of 50 closes 605 s after
the seen time. -/
theorem test_witness_NoticesUpdateEntry :
    ∀ c ∈ [(Body.vehicle announced 60499, 1800, true), (.vehicle announced 60500, 1801, true),
        (.sighting announced 60500, 1800, true), (.entered someTag 1 385 1801 60499, 1800, true),
        (.entered someTag 1 385 1801 60499, 1800, false)],
      let s := updating c.1 c.2.1 c.2.2
      settled s = true ∧ s.line.slots.map (fun y => (y.frame.body, y.frame.sender)) = [(c.1, 0)] ∧
        isPresent s 0 = true ∧ chainageOf s 0 = some 1800 ∧ 1800 < s.cfg.chainage ∧
        chainageOf s 1 = some c.2.1 ∧ (findEntry s someTag).isSome = c.2.2 ∧
        heldAtStopLine s someTag = false ∧ announced.tag = someTag ∧ s.cfg.exit = true ∧
        s.cfg.beyondExit = false ∧
        atOrAfter s.clock (later (earlier now (60499 * 10000)) (600000000 + 5000000)) = false ∧
        atOrAfter s.clock (later (earlier now (60500 * 10000)) (600000000 + 5000000)) = true := by
  decide +kernel

def closing (directed : Bool) : State :=
  with_ (setEntries [anEntry directed]) (station { plain with beyondExit := true } .running)

theorem test_witness_EntriesLeaveList :
    ∀ b ∈ [true, false], settled (closing b) = true ∧
      findEntry (closing b) someTag = some (anEntry b) ∧ (anEntry b).tag = someTag ∧
      atOrAfter (closing b).clock (anEntry b).windowClose = true ∧ (closing b).cfg.laneCount = 2 ∧
      ((closing b).cfg.beyondExit && (anEntry b).directed) = b := by decide +kernel

/-- Notices of a peer one metre downstream, the SIGHTING with an older one waiting. -/
theorem test_witness_EntriesLeaveList_downstream :
    ∀ body ∈ [Body.vehicle announced 0, .sighting announced 0, .entered someTag 0 0 0 0],
      let s := handling body
        (fun s => setEntries [anEntry true] (setRow 0 (row .present 2401)
          { s with line.queue := [{ notice := .sighting announced 0, queued := 0 }] }))
        (station { plain with exit := true } .joining)
      settled s = true ∧ findEntry s someTag = some (anEntry true) ∧ announced.tag = someTag ∧
        s.line.slots.map (fun y => (y.frame.body, y.frame.sender)) = [(body, 0)] ∧
        isPresent s 0 = true ∧ chainageOf s 0 = some 2401 ∧ s.cfg.chainage = 2400 ∧
        s.cfg.exit = true ∧ s.line.queue.length = 1 := by decide +kernel

def probing (theta : Option Int) (hold : Option Clock) : State :=
  with_ (fun s =>
    { s with
      probe := { theta := theta, sampleTimer := some now, answerBy := some now, holdTimer := hold } }) jn

theorem test_witness_ProbeAndMinuteTimersRun :
    ∀ x ∈ [((none : Option Int), (none : Option Clock)), (some 20, none), (some 20, some now)],
      let s := probing x.1 x.2
      settled s = true ∧ working s = true ∧ due s.clock s.probe.sampleTimer = true ∧
        s.probe.answerBy = some now ∧ atOrAfter now s.clock = true ∧
        due s.clock s.probe.answerBy = true ∧ due s.clock s.probe.holdTimer = x.2.isSome := by
  decide +kernel

/-- The readings next to the ends of -40..+85, and the degrees they round to. -/
theorem test_witness_ProbeAndMinuteTimersRun_readings :
    ∀ x ∈ [((-648 : Int), (-40 : Int)), (-649, -41), (1367, 85), (1368, 86)],
      x.2 * 16 ≤ x.1 + 8 ∧ x.1 + 8 < x.2 * 16 + 16 := by decide

def minuteOver : State :=
  with_ (fun s => { s with counters.minuteTimer := some now })
    (station { plain with minuteMode := true } .running)

theorem test_witness_ProbeAndMinuteTimersRun_minute :
    settled minuteOver = true ∧
      due minuteOver.clock minuteOver.counters.minuteTimer = true := by decide +kernel

def blinking (flash blind : Bool) : State :=
  with_ (fun s =>
    { s with
      signs := s.signs.put 1
        { timer := some now, blink := some { on := true, changeAt := now } }
      health.strips := s.health.strips.put 2 { StripHealth.afterReset with failed := blind }
        |>.put 3 { StripHealth.afterReset with failed := blind } })
    (station { divert with flash := flash } .joining)

/-- An OVER record with its sign working, and with the sign of its lane and of its partner faulted. -/
theorem test_witness_DivertDecisionsRunSigns :
    let r : Record := { heavyRecord with effVerdict := .over, partner := some 1 }
    let faulty : State := { jd with
      lamps.outputs := Tab.make 12 fun o => { outputOf jd o with latch := .overcurrent } }
    jd.cfg.divert = true ∧ r.effVerdict = .over ∧
      (∀ o ∈ allOutputs, (outputOf jd o).latch = .none) ∧
      (∀ k : Lane, k = 0 ∨ k = 1 → groupFaulted faulty k = true) ∧ faulty.cfg.divert = true ∧
      jn.cfg.divert = false := by decide +kernel

theorem test_witness_DivertDecisionsRunSigns_timers :
    ∀ x ∈ [(true, true), (false, false)],
      let s := blinking x.1 x.2
      settled s = true ∧ working s = true ∧ s.cfg.divert = true ∧ laneInUse s 1 = true ∧
        due s.clock (s.signs.at 1).timer = true ∧
        (s.signs.at 1).blink = some { on := true, changeAt := now } ∧
        atOrAfter s.clock now = true ∧ (laneMode s 1 = .blind ↔ x.2 = true) ∧ s.cfg.flash = x.1 := by
  decide +kernel

/-- Output 6, green of lane 2, is on at an ENTRY station. -/
def lit (blanking openTimer proving : Option Clock) (low : Bool) : State :=
  with_ (fun s =>
    { s with
      lamps.outputs := s.lamps.outputs.upd 5 fun x =>
        { x with blanking := blanking, openTimer := openTimer, low := low }
      lamps.proving := s.lamps.proving.put 1 proving }) je

theorem test_witness_LatchedFaultDarkensGroup :
    let judged := lit none none (some now) false
    let open_ := lit none (some now) none true
    settled judged = true ∧ working judged = true ∧ (outputOf judged 5).on = true ∧
      (outputOf judged 5).assignment = some (1, .green) ∧ (outputOf judged 5).blanking = none ∧
      (outputOf judged 5).low = false ∧ provingRuns judged (outputOf judged 5) = true ∧
      settled open_ = true ∧ (outputOf open_ 5).on = true ∧
      due open_.clock (outputOf open_ 5).openTimer = true := by decide +kernel

theorem test_witness_LowCurrentIsJudged :
    let ending (b : Bool) := lit (some now) none (if b then some now else none) false
    let fallen := lit none (some (now + 1)) none true
    (∀ p ∈ [true, false], settled (ending p) = true ∧ (outputOf (ending p) 5).on = true ∧
        due (ending p).clock (outputOf (ending p) 5).blanking = true ∧
        provingRuns (ending p) (outputOf (ending p) 5) = p) ∧
      settled (lit none none none false) = true ∧
      (outputOf (lit none none none false) 5).on = true ∧
      (outputOf (lit none none none false) 5).blanking = none ∧
      (outputOf (lit none none none false) 5).low = false ∧
      settled fallen = true ∧ (outputOf fallen 5).on = true ∧
      (outputOf fallen 5).blanking = none ∧ (outputOf fallen 5).low = true := by decide +kernel

theorem test_witness_LampResetBeginsProving :
    let proving := lit none none (some now) false
    (∀ b ∈ [true, false], settled (lit none none none b) = true ∧
        working (lit none none none b) = true ∧ portReady (lit none none none b) = true ∧
        (lit none none none b).cfg.entry = true ∧ laneInUse (lit none none none b) 1 = true ∧
        (outputOf (lit none none none b) 5).inGroup 1 = true ∧
        (outputOf (lit none none none b) 5).low = b) ∧
      settled proving = true ∧ due proving.clock (proving.lamps.proving.at 1) = true := by
  decide +kernel

theorem test_witness_PresenceSettlesAndCrosses :
    settled jn = true ∧ laneActs jn 0 = false ∧ settled je = true ∧ laneActs je 0 = true ∧
      (stopLine je 0).occupied = false ∧ (stopLine je 0).settle = none := by decide +kernel

def lightRecord : Record := { fullRecord 349 with tag := none }

def lone (h : HeadState) (q : List Record) : State := with_ (atFront q h) je

def arriving : State :=
  with_ (fun s =>
    { s with entry.lanes := s.entry.lanes.upd 0 fun x => { x with settle := some now } }) je

theorem test_witness_PresenceSettlesAndCrosses_crossings :
    settled arriving = true ∧ laneActs arriving 0 = true ∧
      due arriving.clock (stopLine arriving 0).settle = true ∧
      (stopLine arriving 0).occupied = false ∧
      settled (lone .none []) = true ∧ laneActs (lone .none []) 0 = true ∧
      due (lone .none []).clock (stopLine (lone .none []) 0).settle = true ∧
      (stopLine (lone .none []) 0).occupied = true ∧ (stopLine (lone .none []) 0).queue = [] ∧
      settled (lone .free [lightRecord]) = true ∧
      (stopLine (lone .free [lightRecord]) 0).occupied = true ∧
      (stopLine (lone .free [lightRecord]) 0).queue = [lightRecord] ∧
      (stopLine (lone .free [lightRecord]) 0).head = .free := by decide +kernel

theorem test_witness_RegularCrossingMovesWeight :
    let s := lone (.admitted 385) [heavyRecord]
    settled s = true ∧ laneActs s 0 = true ∧ s.startup = .joining ∧
      due s.clock (stopLine s 0).settle = true ∧ (stopLine s 0).occupied = true ∧
      (stopLine s 0).queue = [heavyRecord] ∧ (stopLine s 0).head = .admitted 385 ∧
      heavyRecord.tag = some someTag ∧ s.entry.held = [] ∧ s.line.queue = [] := by decide +kernel

def stopped (a : Aspect) : State :=
  with_ (fun s =>
    { s with
      entry.lanes := s.entry.lanes.upd 0 fun x => { x with aspect := some a, amber := none }
      lamps.outputs := s.lamps.outputs.upd 2 fun x =>
        { x with latch := if a = .dark then .open_ else .none } })
    (lone .stop [heavyRecord])

/-- The head of lane 1 HELD, with nothing held beside it. -/
def heldHead : State :=
  with_ (fun s => { s with entry.held := [0] }) (lone (.held 385 0) [heavyRecord])

/-- A STOP head under RED and under DARK and a HELD head, with 23 and with 24 span entries. -/
theorem test_witness_NonAdmittedHeadsEnter :
    ∀ s0 ∈ [stopped .red, stopped .dark, heldHead], ∀ n ∈ [23, 24],
      let s := with_ (fun s => { s with entry.span := List.replicate n (spanOf 1) }) s0
      settled s = true ∧ laneActs s 0 = true ∧ s.startup = .joining ∧
        due s.clock (stopLine s 0).settle = true ∧ (stopLine s 0).occupied = true ∧
        (stopLine s 0).queue = [heavyRecord] ∧ heavyRecord.tag = some someTag ∧
        (((stopLine s 0).head = .stop ∧ s.entry.held = []) ∨
          ((stopLine s 0).head = .held 385 0 ∧ s.entry.held = [0])) ∧
        s.line.queue = [] ∧ s.entry.span.length + admittedHeads s = n := by decide +kernel

theorem test_witness_NonAdmittedHeadsEnter_aspects :
    (stopLine (stopped .red) 0).aspect = some .red ∧
      (stopLine (stopped .dark) 0).aspect = some .dark ∧ (stopLine (stopped .red) 0).head = .stop ∧
      (stopLine heldHead 0).head = .held 385 0 := by decide +kernel

/-- A free head with a record of each kind behind it. -/
theorem test_witness_StopLineQueuesMoveUp :
    ∀ b ∈ [lightRecord, heavyRecord, { heavyRecord with directed := true },
        { heavyRecord with effVerdict := .over }],
      let s := lone .free [lightRecord, b]
      settled s = true ∧ laneActs s 0 = true ∧ due s.clock (stopLine s 0).settle = true ∧
        (stopLine s 0).occupied = true ∧ (stopLine s 0).queue = [lightRecord, b] ∧
        (stopLine s 0).head = .free := by decide +kernel

/-- Queues of 0, 1, 7 and 8; the full one with each kind of head. -/
theorem test_witness_StopLineQueuesMoveUp_join :
    heavyRecord.lane = 0 ∧
      (∀ n ∈ [0, 1, 7], (stopLine (lone .none (List.replicate n lightRecord)) 0).queue.length = n) ∧
      ∀ h ∈ [HeadState.admitted 385, .stop, .held 385 0, .free],
        let s := atFront (heavyRecord :: List.replicate 7 lightRecord) h je
        working s = true ∧ (stopLine s 0).queue = heavyRecord :: List.replicate 7 lightRecord ∧
          (stopLine s 0).head = h ∧ heavyRecord.tag = some someTag ∧
          s.entry.span.length + admittedHeads s < 24 := by decide +kernel

/-- The admission weight of `heavyRecord` at a JOINING station is 385; the span limit is 4,000. -/
theorem test_witness_HeadIsEvaluated :
    let s (w : Nat) := { atFront [heavyRecord] .none re with entry.span := [spanOf w] }
    (∀ w ∈ [3615, 3616], (stopLine (s w) 0).queue = [heavyRecord] ∧ heavyRecord.heavy = true ∧
        heavyRecord.effVerdict = .clear ∧ heavyRecord.directed = false ∧
        admissionWeight (s w) heavyRecord = 385 ∧ (s w).entry.held = [] ∧ (s w).startup ≠ .joining ∧
        (s w).entry.recovery = none ∧ (s w).peers.posture ≠ .isolated ∧ (s w).entry.lost = false) ∧
      fits (s 3615) 385 = true ∧ fits (s 3616) 385 = false ∧ lightRecord.heavy = false := by
  decide +kernel

def holding : State :=
  { atFront [heavyRecord] (.held 385 (now - 5)) re with
    entry.held := [0], entry.span := [spanOf 3615] }

theorem test_witness_ArbiterKeepsToSpanLimit :
    headsRight holding ∧ entryActs holding = true ∧ entryActs rn = false ∧ headsRight rn := by
  unfold headsRight; decide +kernel

def timersUp : State :=
  with_ (fun s =>
    { s with
      entry.lanes := s.entry.lanes.upd 0 fun x =>
        { x with
          queue := [heavyRecord], head := .stop, aspect := some .amber, amber := some now }
      entry.recovery := some now, entry.lost := true }) re

theorem test_witness_EntryTimersExpire :
    settled timersUp = true ∧ laneActs timersUp 0 = true ∧
      due timersUp.clock (stopLine timersUp 0).amber = true ∧
      due timersUp.clock timersUp.entry.recovery = true ∧ timersUp.entry.held = [] := by
  decide +kernel

def onDeck (m : Accounting) : State :=
  handling (.left someTag 0)
    (fun s => { s with entry.span := [spanOf 385], entry.mode := m, entry.lost := true }) re

theorem test_witness_SpanEntriesLeave :
    ∀ m ∈ [Accounting.timed, .tracked], settled (onDeck m) = true ∧ working (onDeck m) = true ∧
      (onDeck m).cfg.entry = true ∧ (onDeck m).entry.held = [] ∧
      (onDeck m).entry.span.find? (fun x => decide (x.tag = someTag)) = some (spanOf 385) ∧
      (onDeck m).entry.mode = m ∧ atOrAfter (onDeck m).clock (spanOf 385).deadline = true ∧
      (onDeck m).line.slots.map (fun y => y.frame.body) = [.left someTag 0] ∧
      portReady (onDeck m) = true := by decide +kernel

/-- A LEFT of a tag in the stop-line queue with another in the span set, and one at a station without
the ENTRY role. -/
theorem test_witness_SpanEntriesLeave_unknown :
    let s := handling (.left someTag 0)
      (fun s => { atFront [heavyRecord] .stop s with
        entry.span := [{ spanOf 385 with tag := { someTag with serial := 0 } }] }) re
    settled s = true ∧ s.line.slots.map (fun y => y.frame.body) = [.left someTag 0] ∧
      s.cfg.entry = true ∧ (∀ e ∈ s.entry.span, e.tag ≠ someTag) ∧
      (stopLine s 0).queue.map Record.tag = [some someTag] ∧
      settled (handling (.left someTag 0) id rn) = true ∧
      (handling (.left someTag 0) id rn).cfg.entry = false := by decide +kernel

/-- The only EXIT peer of a TRACKED station is about to go SILENT, with an OVERDUE entry. -/
theorem test_witness_SpanEntriesLeave_mode :
    let exiting : PeerRow :=
      { row .present 3000 with
        heard := some { at_ := 0, body := { aBeacon 3 false with chainage := 3000, exit := true } } }
    let s := with_ (fun s => setRow 6 exiting
      { s with entry.mode := .tracked, entry.span := [spanOf 1, { spanOf 2 with overdue := true }] })
      (station { entry with exitInstalled := true } .running)
    settled s = true ∧ s.startup = .running ∧ s.entry.mode = .tracked ∧
      due s.clock (rowOf s 6).silence = true ∧ (rowOf s 6).state = .present ∧
      exitPresent s = true ∧ s.cfg.entry = true ∧ s.cfg.exitInstalled = true ∧
      ∀ j : Station, j ≠ 6 → (rowOf s j).state ≠ .present := by decide +kernel

def released (w : Nat) : State :=
  with_ (fun s => { atFront [heavyRecord] .stop s with entry.span := [spanOf w] }) re

theorem test_witness_ReleaseAdmitsOrRemoves :
    (∀ w ∈ [3615, 3616], settled (released w) = true ∧ portReady (released w) = true ∧
        laneActs (released w) 0 = true ∧ (stopLine (released w) 0).queue = [heavyRecord] ∧
        (stopLine (released w) 0).head = .stop ∧ (released w).entry.held = []) ∧
      fits (released 3615) (admissionWeight (released 3615) heavyRecord) = true ∧
      fits (released 3616) (admissionWeight (released 3616) heavyRecord) = false ∧
      settled (with_ id holding) = true ∧ portReady (with_ id holding) = true ∧
      laneActs (with_ id holding) 0 = true ∧
      (stopLine (with_ id holding) 0).queue = [heavyRecord] ∧
      (stopLine (with_ id holding) 0).head = .held 385 (now - 5) ∧
      (with_ id holding).entry.held = [0] := by decide +kernel

def restarting : State := with_ (fun s => { s with port.restart := .due }) jn

theorem test_witness_ResetsEnterReset :
    settled State.reset = true ∧ State.reset.startup = .reset ∧ settled restarting = true ∧
      restarting.startup ≠ .reset ∧ restarting.port.restart ≠ .none := by decide +kernel

/-- A store whose check word matches, under a pending cause. -/
def resetting (k : ResetCause) : State := { State.reset with pendingCause := k }

theorem test_witness_LoadingBeginsAndRetries :
    (∀ k ∈ [ResetCause.powerOn, .resetLine],
      settled (resetting k) = true ∧ (resetting k).startup = .reset ∧
        holdOver (resetting k) = true ∧ (resetting k).pendingCause = k) ∧
      State.reset.store.check =
        checkOf State.reset.store.cause State.reset.store.restarts State.reset.store.trims :=
  ⟨by decide +kernel, rfl⟩

/-- A station in LOADING whose read was requested a number of microseconds ago. -/
def loading (attempt micros : Nat) : State :=
  { State.reset with
    startup := .loading, clock := now
    loader :=
      { image := [], status := .loading, attempt := attempt
        requested := now - BitVec.ofNat 32 micros } }

/-- The first 254 bytes of the image of the defaults of section 11.2 at station 6 with chainage 2,400,
with a version and role byte, an expected set and a reference peer. -/
def imageHead (version roles : Nat) (expected : Nat := 0) (ref : Nat := 1) : List Byte :=
  ([version, 6, roles, 0, 9, 96, 2, expected, ref, 30, 5, 10, 3, 132, 5, 220, 1, 144, 7, 208, 3, 132, 0, 7, 8, 0,
    15, 160, 1, 94, 0, 120, 12, 11, 184, 11, 184, 11, 184, 11, 184] ++
    (List.replicate 8 [4, 0, 4, 0, 4, 0, 0, 0]).flatten ++ List.replicate 149 0).map byte

theorem length_imageHead (v r x k : Nat) : (imageHead v r x k).length = 254 := by
  unfold imageHead
  simp only [List.length_map, List.length_append, List.length_replicate, List.length_flatten,
    List.map_replicate, List.sum_replicate, List.length_cons, List.length_nil, smul_eq_mul]

/-- That image with the right CRC. -/
def imageOf (version roles : Nat) (expected : Nat := 0) (ref : Nat := 1) : List Byte :=
  imageHead version roles expected ref ++ bytes2 (crc16 (imageHead version roles expected ref))

theorem imageOf_sound (v r x k : Nat) :
    (imageOf v r x k).length = 256 ∧ crcComputed (imageOf v r x k) = crcRead (imageOf v r x k) := by
  refine ⟨by simp [imageOf, length_imageHead, bytes2], ?_⟩
  rw [imageOf, Laws.crcComputed_append _ _ (length_imageHead v r x k),
    Laws.crcRead_append _ _ (length_imageHead v r x k), Nat.mod_eq_of_lt (Laws.crc16_lt _)]

theorem test_witness_LoadingBeginsAndRetries_reads :
    (∀ n ∈ [1, 2], ∀ m ∈ [10000, 50000],
      settled (loading n m) = true ∧ (loading n m).startup = .loading ∧
        elapsed (loading n m).clock (loading n m).loader.requested = m ∧
        (loading n m).loader.attempt = n) ∧
      ∃ img : List Byte, img.length = 256 ∧ crcComputed img ≠ crcRead img := by
  refine ⟨by decide +kernel, imageHead 1 0 ++ bytes2 (crc16 (imageHead 1 0) + 1), ?_, ?_⟩
  · simp [length_imageHead, bytes2]
  · have h := Laws.crc16_lt (imageHead 1 0)
    rw [Laws.crcComputed_append _ _ (length_imageHead 1 0 0 1),
      Laws.crcRead_append _ _ (length_imageHead 1 0 0 1)]
    omega

/-- An image that passes, one of another version, one with a field out of range, one for each
cross-check and one with both roles; each passes the CRC (`imageOf_sound`). -/
theorem test_witness_ImageIsAcceptedOrRefused :
    settled (loading 1 50000) = true ∧ (loading 1 50000).startup = .loading ∧
      elapsed (loading 1 50000).clock (loading 1 50000).loader.requested ≤ 50000 ∧
      imageRefusal (imageOf 1 0) = none ∧ imageRefusal (imageOf 2 0) = some .version ∧
      imageRefusal (imageOf 1 128) = some (.range 2) ∧
      imageRefusal (imageOf 1 3 32) = some (.range 7) ∧
      imageRefusal (imageOf 1 3 0 6) = some (.range 8) ∧
      imageRefusal (imageOf 1 3) = some .role := by
  decide +kernel

/-- The image of a plain ENTRY station passes every check. -/
theorem test_witness_AcceptedImageStartsBlocks :
    settled (loading 2 0) = true ∧ (loading 2 0).startup = .loading ∧
      elapsed (loading 2 0).clock (loading 2 0).loader.requested ≤ 50000 ∧
      imageRefusal (imageOf 1 2) = none ∧
      (∀ p ∈ allStrips, (channelOf (loading 2 0) p).state = .off) ∧
      (loading 2 0).peers.posture = .joining ∧ (loading 2 0).probe.theta = none := by decide +kernel

def portWith (st : PortState) (buffer : List Byte) (garbled afterReturn : Bool) : State :=
  with_ (fun s =>
    { s with
      port.state := st, port.buffer := buffer, port.garbled := garbled
      port.afterReturn := afterReturn }) jn

/-- Section 12.5: every state of the port, buffers of 63 and 64 characters, of spaces and of a word,
and after a carriage return; a character that is neither printable nor one the rules name. -/
theorem test_witness_CharactersFormLines :
    (∀ x ∈ [(PortState.collecting, List.replicate 63 (0x41 : Byte), false, false),
        (.collecting, List.replicate 64 0x41, true, false), (.collecting, [0x20], false, false),
        (.collecting, [0x41], true, false), (.collecting, [], false, true),
        (.discarding, [], false, false), (.responding, [], false, false)],
      let s := portWith x.1 x.2.1 x.2.2.1 x.2.2.2
      settled s = true ∧ s.startup ≠ .reset ∧ s.port.state = x.1 ∧ s.port.buffer = x.2.1 ∧
        s.port.garbled = x.2.2.1 ∧ s.port.afterReturn = x.2.2.2) ∧
      ∀ c ∈ [(0x1F : Byte), 0x80], (c.toNat < 0x20 ∨ 0x7F < c.toNat) ∧ c ≠ 0x08 ∧ c ≠ 0x0A ∧ c ≠ 0x0D := by
  decide +kernel

theorem test_witness_PrintingCommandsChangeOnlyPort :
    settled je = true ∧ portReady je = true ∧ working je = true ∧ je.cfg.entry = true ∧
      laneInUse je 1 = true := by decide +kernel

theorem test_witness_ClearTakesStickies :
    settled jn = true ∧ portReady jn = true ∧ working jn = true ∧
      triggerOf jn .posture = .level ∧ rawState jn .posture = true ∧
      rawState jn .health = false := by decide +kernel

/-- The monitor in a state, with an indication on strip 4T or on none. -/
def monitor (m : MonitorState) (soft : Bool) : State :=
  with_ (fun s =>
    setHealth ⟨3, .trail⟩ { StripHealth.afterReset with soft := soft, failed := true }
      { s with health.state := m, health.walk := some lead1 }) jn

theorem test_witness_HealthStepListensAndWalks :
    (∀ x ∈ [(MonitorState.idle, true), (.listen, true), (.readout, true), (.readout, false)],
      settled (monitor x.1 x.2) = true ∧ portReady (monitor x.1 x.2) = true ∧
        working (monitor x.1 x.2) = true ∧ (monitor x.1 x.2).health.state = x.1) ∧
      (∀ p ∈ allStrips, (healthOf (monitor .listen true) p).indicates = decide (p = ⟨3, .trail⟩)) ∧
      (∀ p ∈ allStrips, (healthOf (monitor .readout false) p).indicates = false) := by decide +kernel

def failedStrips (both : Bool) : State :=
  with_ (fun s => setHealth trail1 { StripHealth.afterReset with failed := both }
    (setHealth lead1 { StripHealth.afterReset with failed := true } s)) jn

theorem test_witness_StripRestoreMakesGood :
    ∀ b ∈ [true, false], settled (failedStrips b) = true ∧ portReady (failedStrips b) = true ∧
      working (failedStrips b) = true ∧ laneInUse (failedStrips b) 0 = true ∧
      stripFailed (failedStrips b) lead1 = true := by decide +kernel

theorem test_witness_RestartIsAnsweredBeforeReset :
    settled jn = true ∧ portReady jn = true ∧
      settled (portWith .responding [] false false) = true ∧
      (portWith .responding [] false false).port.state = .responding := by decide +kernel

/-- A state for each ground of refusal: LOADING and FAULT; no role; an ENTRY station with an empty
lane, a GOOD strip, lane numbers 0 and 3 of two, an empty span set and strip 3L; a DIVERT station. -/
theorem test_witness_RefusedCommandsChangeNothing :
    let faulty := after (.loadReadTimeout false) (loading 2 10000)
    settled (loading 1 0) = true ∧ portReady (loading 1 0) = true ∧ working (loading 1 0) = false ∧
      (loading 1 0).startup = .loading ∧ settled faulty = true ∧ faulty.startup = .fault ∧
      portReady faulty = true ∧ working faulty = false ∧
      settled jn = true ∧ portReady jn = true ∧ working jn = true ∧ jn.cfg.entry = false ∧
      jn.cfg.divert = false ∧ settled je = true ∧ portReady je = true ∧ working je = true ∧
      laneActs je 0 = true ∧ (stopLine je 0).head ≠ .stop ∧ holdTime je 0 = none ∧
      laneInUse je 0 = true ∧ stripFailed je lead1 = false ∧ je.cfg.entry = true ∧
      je.cfg.laneCount < 3 ∧ je.entry.span = [] ∧ laneInUse je 2 = false ∧ settled jd = true ∧
      portReady jd = true ∧ working jd = true ∧ jd.cfg.divert = true ∧ jd.cfg.laneCount < 3 := by
  decide +kernel

/-! ## More states that meet the hypotheses

The same for every role, with lanes held beside the one that moves, and for typed lines. -/

/-- A lane's vehicle about to close at a station of some role and start-up state, with records already
in its stop-line queue. -/
def closingAt (c : Configuration) (at_ : Startup) (load : Option Nat) (q : List Record) : State :=
  with_ (fun s => (if q.isEmpty then id else atFront q .free)
    (setVehicle 0 (some (someVehicle load)) s)) (station c at_)

/-- The configurations of the three roles, with the records that stand in the stop-line queue. -/
def roles : List (Configuration × List Record) :=
  [(divert, []), (entry, []), (entry, List.replicate 8 lightRecord), ({ plain with exit := true }, [])]

/-- The heavy vehicle in each role, at a JOINING station and at a RUNNING one in IDLE; at an ENTRY
station its stop-line queue is empty or full. -/
theorem test_witness_HeavyVehicleIsTaggedAndAnnounced_roles :
    ∀ c ∈ roles, ∀ at_ ∈ [Startup.joining, .running],
      let s := closingAt c.1 at_ (some 350) c.2
      settled s = true ∧ s.startup = at_ ∧ s.cfg = c.1 ∧
        s.vehicles.at 0 = some (someVehicle (some 350)) ∧ atOrAfter s.clock now = true ∧
        (s.trim.at 0).pending = none ∧ s.cfg.heavyThreshold = 350 ∧
        matchFor s (closeRecord s.cfg 0 (someVehicle (some 350)) false) = none ∧
        tagHeld s { origin := 5, serial := s.nextSerial } = false ∧ s.line.queue = [] ∧
        s.line.transmit = .idle ∧ (stopLine s 0).queue = c.2 := by decide +kernel

/-- The same vehicle with an entry that matches it. -/
theorem test_witness_RecordTakesItsMatch_roles :
    ∀ c ∈ roles, ∀ at_ ∈ [Startup.joining, .running],
      let s := with_ (setEntries [refEntry (some 1000)]) (closingAt c.1 at_ (some 1000) c.2)
      settled s = true ∧ working s = true ∧ s.startup = at_ ∧ s.cfg = c.1 ∧
        s.vehicles.at 0 = some (someVehicle (some 1000)) ∧ atOrAfter s.clock now = true ∧
        (s.trim.at 0).pending = none ∧ s.cfg.heavyThreshold ≤ 1000 ∧
        matchFor s (closeRecord s.cfg 0 (someVehicle (some 1000)) false) =
          some (refEntry (some 1000)) ∧
        s.line.queue = [] ∧ s.line.transmit = .idle ∧ (stopLine s 0).queue = c.2 := by
  decide +kernel

/-- A light vehicle in each role. -/
theorem test_witness_LightVehicleAppliesTrim_roles :
    ∀ c ∈ roles,
      let s := closingAt c.1 .running (some 349) c.2
      settled s = true ∧ s.cfg = c.1 ∧ s.vehicles.at 0 = some (someVehicle (some 349)) ∧
        atOrAfter s.clock now = true ∧ s.cfg.heavyThreshold = 350 ∧
        (∀ a ∈ (someVehicle (some 349)).axles, a.flags.unweighed = false) ∧
        (stopLine s 0).queue = c.2 := by decide +kernel

/-- Lane 2 with a HELD head of its own, held behind those held before. -/
def heldBeside (s : State) : State :=
  with_ (fun s =>
    { s with
      entry.held := s.entry.held ++ [1]
      entry.lanes := s.entry.lanes.upd 1 fun x =>
        { x with
          queue := [{ heavyRecord with lane := 1, tag := some { someTag with serial := 1 } }]
          head := .held 385 (now - 4) } }) s

/-- A beacon that is degraded, at an ENTRY station with held lanes: the posture changes. -/
theorem test_witness_BeaconUpdatesRow_held :
    let s := handling (.beacon (aBeacon 3 true)) (setRow 0 (row .present 1800)) (heldBeside holding)
    settled s = true ∧ s.startup = .running ∧ s.cfg.entry = true ∧ s.entry.held = [0, 1] ∧
      s.line.slots.map (fun y => y.frame.body) = [.beacon (aBeacon 3 true)] ∧
      (rowOf s 0).state = .present := by decide +kernel

theorem test_witness_JoinEnds_held :
    let s := heldBeside (joined entry)
    settled s = true ∧ s.startup = .joining ∧ due s.clock s.peers.joinTimer = true ∧
      s.line.queue = [] ∧ s.line.transmit = .idle ∧ s.entry.held = [1] ∧
      s.peers.posture ≠ postureOf s := by decide +kernel

/-- A RUNNING station in IDLE with an empty queue; a quiet expected peer of an ENTRY station with held
lanes. -/
theorem test_witness_PeerTimersExpire_running :
    (let s := with_ (fun s => { s with peers.beaconTimer := some now }) rn
     settled s = true ∧ s.startup = .running ∧ due s.clock s.peers.beaconTimer = true ∧
       s.line.transmit = .idle ∧ s.line.queue = []) ∧
      let s := with_ (setRow 6 (row .present 3000)) (heldBeside holding)
      settled s = true ∧ s.startup = .running ∧ s.cfg.entry = true ∧ s.entry.held = [0, 1] ∧
        (rowOf s 6).state = .present ∧ due s.clock (rowOf s 6).silence = true := by decide +kernel

/-- The third failure in a row of a peer of an ENTRY station with held lanes. -/
theorem test_witness_AttemptsEndAndAreRetried_held :
    let s := with_ (fun s => setRow 6 { row .present 3000 with failures := 2 }
      (onLine (.awaiting now) (some (flight left 3 0 (some 6))) s)) (heldBeside holding)
    settled s = true ∧ s.startup = .running ∧ s.cfg.entry = true ∧ s.entry.held = [0, 1] ∧
      s.line.transmit = .awaiting now ∧ s.line.flight = some (flight left 3 0 (some 6)) ∧
      atOrAfter s.clock now = true ∧ s.line.idleSince.isSome = true ∧
      (rowOf s 6).failures = 2 ∧ (rowOf s 6).state = .present := by decide +kernel

/-- A VEHICLE and a SIGHTING, with and without a speed, the list with room for one more and full. -/
theorem test_witness_VehicleNoticeCreatesEntry_kinds :
    ∀ v ∈ [0, 50], ∀ n ∈ [47, 48],
      ∀ body ∈ [Body.vehicle { announced with speed := v } 10, .sighting { announced with speed := v } 10],
      let s := handling body
        (fun s => setEntries (entries n) (setRow 0 (row .present 1800) s)) jn
      settled s = true ∧ working s = true ∧
        s.line.slots.map (fun y => (y.frame.body, y.frame.sender)) = [(body, 0)] ∧
        isPresent s 0 = true ∧ chainageOf s 0 = some 1800 ∧ 1800 < s.cfg.chainage ∧
        tagHeld s announced.tag = false ∧ s.approach.entries.length = n ∧
        atOrAfter s.clock (later (earlier now (10 * 10000))
          (min 1000000000 ((s.cfg.chainage - 1800) * 100 * 1000000 / 100) + 5000000)) = false := by
  decide +kernel

/-- An ADMITTED head with a HELD one beside it, at a JOINING station and at a RUNNING one in IDLE. -/
theorem test_witness_RegularCrossingMovesWeight_held :
    ∀ s0 ∈ [je, re],
      let s := heldBeside (with_ (atFront [heavyRecord] (.admitted 385)) s0)
      settled s = true ∧ laneActs s 0 = true ∧ s.startup = s0.startup ∧
        due s.clock (stopLine s 0).settle = true ∧ (stopLine s 0).occupied = true ∧
        (stopLine s 0).queue = [heavyRecord] ∧ (stopLine s 0).head = .admitted 385 ∧
        heavyRecord.tag = some someTag ∧ s.line.queue = [] ∧ s.line.transmit = .idle ∧
        s.entry.held = [1] := by decide +kernel

/-- A STOP and a HELD head with a HELD one beside it, with 23 and with 24 span entries. -/
theorem test_witness_NonAdmittedHeadsEnter_held :
    ∀ s0 ∈ [stopped .red, heldHead], ∀ n ∈ [23, 24],
      let s := heldBeside (with_ (fun s =>
        { s with startup := .running, entry.span := List.replicate n (spanOf 1) }) s0)
      settled s = true ∧ laneActs s 0 = true ∧ s.startup = .running ∧
        due s.clock (stopLine s 0).settle = true ∧ (stopLine s 0).occupied = true ∧
        (stopLine s 0).queue = [heavyRecord] ∧ heavyRecord.tag = some someTag ∧
        (((stopLine s 0).head = .stop ∧ s.entry.held = [1]) ∨
          ((stopLine s 0).head = .held 385 0 ∧ s.entry.held = [0, 1])) ∧
        s.line.queue = [] ∧ s.line.transmit = .idle ∧
        s.entry.span.length + admittedHeads s = n := by decide +kernel

/-- Each kind of heavy head with a record of each kind behind it. -/
theorem test_witness_StopLineQueuesMoveUp_heavy :
    ∀ h ∈ [HeadState.admitted 385, .stop, .held 385 0],
      ∀ b ∈ [lightRecord, heavyRecord, { heavyRecord with directed := true },
        { heavyRecord with effVerdict := .over }],
      let s := heldBeside (with_ (fun s =>
        { atFront [heavyRecord, b] h s with
          entry.held := if h = .held 385 0 then [0] else [] }) re)
      settled s = true ∧ laneActs s 0 = true ∧ due s.clock (stopLine s 0).settle = true ∧
        (stopLine s 0).occupied = true ∧ (stopLine s 0).queue = [heavyRecord, b] ∧
        (stopLine s 0).head = h ∧ h ≠ .none ∧ heavyRecord.tag = some someTag := by decide +kernel

/-- RECOVERING ends with a head held: the gate opens, or the accounting stays lost. -/
theorem test_witness_EntryTimersExpire_held :
    ∀ b ∈ [true, false],
      let s := heldBeside (with_ (fun s =>
        { s with entry.span := if b then [] else [spanOf 1] }) timersUp)
      settled s = true ∧ due s.clock s.entry.recovery = true ∧ s.entry.held = [1] ∧
        s.startup ≠ .joining ∧ s.peers.posture ≠ .isolated ∧
        (s.entry.lost && !(s.entry.span.isEmpty && decide (committed s = 0))) = !b := by
  decide +kernel

theorem test_witness_SpanEntriesLeave_held :
    ∀ m ∈ [Accounting.timed, .tracked],
      let s := heldBeside (onDeck m)
      settled s = true ∧ working s = true ∧ s.cfg.entry = true ∧ s.entry.held = [1] ∧
        s.entry.span.find? (fun x => decide (x.tag = someTag)) = some (spanOf 385) ∧
        s.entry.mode = m ∧ atOrAfter s.clock (spanOf 385).deadline = true ∧
        s.line.slots.map (fun y => y.frame.body) = [.left someTag 0] ∧ portReady s = true := by
  decide +kernel

/-- RELEASE ADMIT and REMOVE with a HELD head beside, REMOVE with a record behind the head. -/
theorem test_witness_ReleaseAdmitsOrRemoves_held :
    ∀ h ∈ [HeadState.stop, .held 385 (now - 5)],
      let s := heldBeside (with_ (fun s =>
        { atFront [heavyRecord, lightRecord] h s with
          entry.held := if h = .stop then [] else [0] }) re)
      settled s = true ∧ portReady s = true ∧ laneActs s 0 = true ∧
        (stopLine s 0).queue = [heavyRecord, lightRecord] ∧ (stopLine s 0).head = h ∧
        s.entry.held = (if h = .stop then [1] else [0, 1]) := by decide +kernel

/-- Lines that spell a command, in letters of either case. -/
theorem test_witness_CharactersFormLines_words :
    typedAs (wordsTyped (ascii " Health  step")) .healthStep ∧
      typedAs (wordsTyped (ascii "lamp reset 2")) (.lampReset 2) ∧
      typedAs (wordsTyped (ascii "QUEUE 5")) (.queue 0) ∧
      typedAs (wordsTyped (ascii "clear all")) .clearAll ∧
      typedAs (wordsTyped (ascii "clear PHANTOM")) (.clear (some .phantom)) ∧
      (∀ b ∈ ascii "lamp reset 2", 0x20 ≤ b.toNat ∧ b.toNat ≤ 0x7E) := by
  refine ⟨show _ = _ by decide +kernel,
    ⟨ascii "2", by decide +kernel, by unfold laneTyped; decide +kernel⟩,
    ⟨ascii "5", by decide +kernel, by unfold laneTyped; decide +kernel⟩, show _ = _ by decide +kernel,
    ⟨ascii "PHANTOM", by decide +kernel, by decide +kernel, ?_⟩, by decide +kernel⟩
  intro y
  cases y <;> decide +kernel

/-- A word is the name of the tag 2-0017 only of that tag. -/
theorem tagName_eq_2_0017 (g : Tag) :
    some { origin := 1, serial := 17 } = some g ↔ ascii "2-0017" = ascii (tagName g) := by
  refine ⟨fun h => by cases h; decide +kernel, fun h => ?_⟩
  have digit : ∀ n < 10, ascii (Nat.repr n) = [byte (48 + n)] := by decide +kernel
  have same : ∀ n < 10, ∀ m < 10, byte (48 + n) = byte (48 + m) → n = m := by decide +kernel
  obtain ⟨o, n⟩ := g
  have joined : ∀ x y : String, ascii (x ++ y) = ascii x ++ ascii y := fun x y => by simp [ascii]
  have lt (k : Nat) : k % 10 < 10 := Nat.mod_lt _ (by decide)
  have ho := o.isLt
  simp only [tagName, fourDigits, stationNumber, joined, digit _ (lt _),
    digit (o.val + 1) (by omega)] at h
  have left : ascii "2-0017" = [byte (48 + 2), 0x2D, byte (48 + 0), byte (48 + 0), byte (48 + 1),
    byte (48 + 7)] := by decide +kernel
  have dash : ascii "-" = [0x2D] := by decide +kernel
  simp only [left, dash, List.cons_append, List.nil_append, List.cons.injEq, true_and, and_true] at h
  have h1 := same _ (by decide) _ (by omega) h.1
  have h2 := same _ (by decide) _ (lt _) h.2.1
  have h3 := same _ (by decide) _ (lt _) h.2.2.1
  have h4 := same _ (by decide) _ (lt _) h.2.2.2.1
  have h5 := same _ (by decide) _ (lt _) h.2.2.2.2
  have hn := n.isLt
  have : n.toNat = 17 := by omega
  rw [Option.some.injEq, Tag.mk.injEq]
  exact ⟨Fin.ext (by simp; omega), BitVec.eq_of_toNat_eq (by simp [this])⟩

/-- A tag and a strip in their form, and a strip that is not. -/
theorem test_witness_CharactersFormLines_names :
    typedAs (wordsTyped (ascii "forget 2-0017")) (.forget (some { origin := 1, serial := 17 })) ∧
      typedAs (wordsTyped (ascii "strip restore 2t")) (.stripRestore (some ⟨1, .trail⟩)) ∧
      typedAs (wordsTyped (ascii "STRIP RESTORE 5T")) (.stripRestore none) := by
  refine ⟨⟨ascii "2-0017", by decide +kernel, tagName_eq_2_0017⟩, ⟨ascii "2T", by decide +kernel, ?_⟩,
    ⟨ascii "5T", by decide +kernel, ?_⟩⟩ <;>
  · rintro ⟨l, p⟩
    cases p <;> revert l <;> decide +kernel

/-- LAMP alone begins no command; STATUS, HEALTH and STRIP RESTORE with a word too many, or a wrong
keyword, spell none. -/
theorem test_witness_CharactersFormLines_refused :
    (∀ w ∈ commandWords, ¬w.1.map ascii <+: wordsTyped (ascii "lamp 2")) ∧
      (∀ c ∈ [(["STATUS"], "status now"), (["HEALTH"], "health test"),
          (["STRIP", "RESTORE"], "strip restore 1L 1T")],
        c.1.map ascii <+: wordsTyped (ascii c.2)) ∧
      ∀ said ∈ [wordsTyped (ascii "status now"), wordsTyped (ascii "health test"),
          wordsTyped (ascii "strip restore 1L 1T")], ∀ i, ¬typedAs said i := by
  refine ⟨by decide +kernel, by decide +kernel, fun said hs i => ?_⟩
  have e : said ∈ [[ascii "STATUS", ascii "NOW"], [ascii "HEALTH", ascii "TEST"],
      [ascii "STRIP", ascii "RESTORE", ascii "1L", ascii "1T"]] := by
    revert said; decide +kernel
  have words : ∀ x ∈ ["CONFIG", "PEERS", "APPROACH", "SPAN", "ALERTS", "COUNTS", "TRIM", "RESTART", "CLEAR",
      "QUEUE", "RELEASE", "LAMP", "FORGET"], ∀ y ∈ ["STATUS", "HEALTH", "STRIP"],
      ascii y ≠ ascii x := by decide +kernel
  simp only [List.mem_cons, List.not_mem_nil, or_false, forall_eq_or_imp, forall_eq] at e words
  have apart : ascii "STATUS" ≠ ascii "HEALTH" ∧ ascii "STATUS" ≠ ascii "STRIP" ∧
      ascii "HEALTH" ≠ ascii "STRIP" ∧ ascii "TEST" ≠ ascii "STEP" := by decide +kernel
  have back := And.intro apart.1.symm (And.intro apart.2.1.symm apart.2.2.1.symm)
  rcases e with rfl | rfl | rfl <;> cases i <;> simp [typedAs, words, apart, back]

/-- The monitor with an indication on strips 1L and 4T: the walk from 1L, and after 1L and 4T. -/
theorem test_witness_HealthStepListensAndWalks_turns :
    ∀ c ∈ [(MonitorState.listen, lead1, lead1), (.readout, lead1, ⟨3, .trail⟩),
        (.readout, ⟨3, .trail⟩, lead1)],
      let s := with_ (fun s =>
        setHealth lead1 { StripHealth.afterReset with soft := true }
          { s with health.walk := some c.2.1 }) (monitor c.1 true)
      let place (p : Strip) : Nat := 2 * p.lane.val + (if p.pos = .lead then 0 else 1)
      let turn (p : Strip) : Nat :=
        match s.health.state, s.health.walk with
        | .readout, some w => (place p + 7 - place w) % 8
        | _, _ => place p
      settled s = true ∧ portReady s = true ∧ working s = true ∧ s.health.state = c.1 ∧
        (healthOf s c.2.2).indicates = true ∧
        ∀ q ∈ allStrips, turn q < turn c.2.2 → (healthOf s q).indicates = false := by decide +kernel

/-! ## One step of each kind of command

Expected values are from the worked sequences of the manual, or worked out by hand from its rules. -/

/-- R2: an area of 2,000, the least that is a hit, is held until 40 ms later. -/
theorem test_pulseEnd :
    (holdOf (after (.pulseEnd lead1 [⟨1500, false⟩, ⟨500, true⟩])
      { pulsing 0 with clock := now - 59991000 }) 0 .lead).map
        (fun x => (x.hit.area, x.hit.width, x.hit.clipped, x.expires)) =
      some (2000, 9000, true, now - 59951000) := by decide +kernel

/-- Section 1.8: T1 pairs with L1 at a pairing time of 250,000: speed 1,200, and the history moves. -/
theorem test_coincidenceTimerExpiry :
    let s := held trail1 (now - 50000) [waitingLead (now - 300000), waitingLead (now - 187500)]
    let t := after (.coincidenceTimerExpiry 0 .trail)
      { s with pairing := s.pairing.upd 0 fun u => { u with history := [1310, 1280, 1250, 1230] } }
    (t.pairing.at 0).history = [1280, 1250, 1230, 1200] ∧ (t.pairing.at 0).fifo.length = 1 := by
  decide +kernel

/-- Section 3.10: gross 1,770, speed 1,997, spacings 360, 129, 648, 129, FULL, BORDER and heavy. -/
theorem test_closeTimerExpiry :
    let axle (time speed load : Nat) :=
      { someAxle (some load) with time := BitVec.ofNat 32 time, speed := some speed }
    let v : OpenVehicle :=
      { someVehicle none with
        axles := [axle 0 2000 420, axle 180000 2000 600, axle 245000 1998 260, axle 570000 1995 250,
          axle 635000 1994 240]
        spacings := [some 360, some 129, some 648, some 129] }
    let r := closeRecord plain 0 v false
    let t := after (.closeTimerExpiry 0) (with_ (setVehicle 0 (some v)) { jn with nextSerial := 17 })
    (r.gross, r.speed, r.confidence, r.verdict, r.heavy) = (1770, some 1997, .full, .border, true) ∧
      spacingOf (axle 180000 2000 600) (axle 245000 1998 260) = some 129 ∧
      spacingOf (axle 245000 1998 260) (axle 570000 1995 250) = some 648 ∧
      t.nextSerial = 18 ∧
      (t.line.queue.map fun w => w.notice.tag?) = [some { origin := 5, serial := 17 }] ∧
      (t.counters.lanes.at 0).heavy = 1 := by decide +kernel

/-- Section 4.8: the third attempt of station 3 needs 920 microseconds of idle. -/
theorem test_contentionIdleReached :
    let s (n : Nat) : State :=
      { contending (some n) with
        cfg.station := 2
        line.flight := some (flight (.vehicle (weighingOf heavyRecord someTag) 0) 2 0 none) }
    (after .contentionIdleReached (s 919)).line.transmit = .contending ∧
      (after .contentionIdleReached (s 920)).line.transmit = .sending := by decide +kernel

/-- R67: the 16th collision in a row drops the frame. -/
theorem test_collision :
    (after .collision (sending 15 none)).line.transmit = .idle ∧
      (alertOf (after .collision (sending 15 none)) .lineFault).count = 1 := by decide +kernel

/-- R69: three retries, then FAILED. -/
theorem test_receiptWaitExpiry :
    (after .receiptWaitExpiry (awaiting 2 1)).line.counts.retries = 1 ∧
      (after .receiptWaitExpiry (awaiting 3 1)).line.counts.failures = 1 ∧
      (rowOf (after .receiptWaitExpiry (awaiting 3 1)) 6).failures = 2 := by decide +kernel

/-- R79, R87, R136: with no expected row the posture is NORMAL; an ENTRY station recovers for 120 s. -/
theorem test_joinTimerExpiry :
    (after .joinTimerExpiry (joined entry)).startup = .running ∧
      (after .joinTimerExpiry (joined entry)).peers.posture = .normal ∧
      (after .joinTimerExpiry (joined entry)).entry.recovery = some (now + 120000000) := by
  decide +kernel

/-- R26: 85 degrees is in range, 86 is not. -/
theorem test_probeAnswer :
    (after (.probeAnswer 1367 true) (probing none none)).probe.theta = some 85 ∧
      (after (.probeAnswer 1368 true) (probing none none)).probe.theta = none := by decide +kernel

/-- R127: a low current while proving latches OPEN. -/
theorem test_currentBelowThreshold :
    (outputOf (after (.currentBelowThreshold 5) (lit none none (some now) false)) 5).latch = .open_ ∧
      (outputOf (after (.currentBelowThreshold 5) (lit none none none false)) 5).openTimer =
        some (now + 200000) := by decide +kernel

/-- R131, R145: under RED a STOP head is a red run. -/
theorem test_presenceSettled :
    let t := after (.presenceSettled 0) (stopped .red)
    (alertOf t .redRun).count = 1 ∧ (t.counters.lanes.at 0).redRuns = 1 ∧
      (t.entry.span.map fun x => (x.weight, x.noncompliant, x.redRun)) = [(385, true, true)] := by
  decide +kernel

/-- Section 8.10: at 30 s the lane held first is admitted, then the other: 1,969, 1,200 and 380. -/
theorem test_arbiter :
    let r (l : Lane) (w : Nat) : Record :=
      { fullRecord w with lane := l, tag := some { origin := 3, serial := BitVec.ofNat 12 w } }
    let s : State :=
      { re with
        peers.posture := .normal
        entry.held := [1, 0]
        entry.span := [spanOf 1650, { spanOf 1969 with tag := { origin := 1, serial := 17 } }]
        entry.lanes :=
          (re.entry.lanes.put 0
            { stopLine re 0 with queue := [r 0 380], head := .held 380 (now - 21000000) }).put 1
            { stopLine re 1 with queue := [r 1 1200], head := .held 1200 (now - 28000000) } }
    committed (after (.forget (some someTag)) s) = 1580 ∧
      (after (.forget (some someTag)) s).entry.held = [] ∧
      committed (runArbiter s) = 0 := by decide +kernel

/-- R185: a reset ends in LOADING. -/
theorem test_resetEnd : (after .resetEnd State.reset).startup = .loading := by decide +kernel

/-- R184: a RESTART of 1 ms that a low RESET line outlasts does not hold the station in RESET an hour
later. -/
theorem test_tick :
    let s : State := { State.reset with restartHold := some 1000, clock := 999 }
    holdOver s = false ∧ (tick s).restartHold = none ∧
      holdOver { tick s with clock := 3600000000 } = true := by decide +kernel

/-- R56: after 79 microseconds of idle no frame is looked for, after 80 one is. -/
theorem test_lineGoesBusy :
    (after (.badFrame .badCrc) (after .lineGoesBusy (idleFrom (some 79) false))).line.counts.badFrames
        = 0 ∧
      (after (.badFrame .badCrc) (after .lineGoesBusy (idleFrom (some 80) false))).line.counts.badFrames
        = 1 := by decide +kernel

/-- R197: one record per section, the aspects at an ENTRY station. -/
theorem test_status :
    (statusRecords je).length = 8 ∧ (statusRecords jn).length = 7 ∧
      (statusRecords (loading 1 0)).length = 1 := by decide +kernel

/-- R128: a stopped sign timer, and one with 11,999 ms left. -/
theorem test_status_sign :
    signFields jd 0 =
        [("SIGN1_REQUESTED", .name "NO"), ("SIGN1_TIMER", .name "STOPPED"), ("SIGN1_BLINK", .absent),
          ("SIGN1_FAULTED", .name "NO")] ∧
      signTimeLeft now (some (now + 11999999)) = .number 11999 := by decide +kernel

/-- R197, R195: the line STATUS is answered OK. -/
theorem test_characterReceived :
    let t := after (.characterReceived 0x0D false) (portWith .collecting (ascii " status") false false)
    t.port.state = .responding ∧ t.port.linesTaken = 1 ∧ t.port.linesRefused = 0 := by decide +kernel

/-- R190: POSTURE is LEVEL and true at a JOINING station, and sets its sticky again. -/
theorem test_clear :
    (alertOf (after (.clear (some .posture)) jn) .posture).sticky = true ∧
      (alertOf (after (.clear (some .posture)) jn) .posture).count = 2 := by decide +kernel

/-- R176: the first strip after the walk position that holds an indication. -/
theorem test_healthStep :
    (after .healthStep (monitor .listen true)).health.walk = some ⟨3, .trail⟩ := by decide +kernel

/-- R174: with one strip restored a BLIND lane is SINGLE. -/
theorem test_stripRestore :
    laneMode (after (.stripRestore (some lead1)) (failedStrips true)) 0 = .single := by decide +kernel

end Sys2Proof.Tests
end

