-- ==== Sys2Proof/Proofs/Verdicts.lean ====
section
/-! PROOFS. The verdict, class and confidence of a closed record (section 3.7). The worst of several
verdicts is described by its severity code: the worst is at most `n` exactly if each verdict is. -/

namespace Sys2Proof.Proofs

open Sys2Proof Sys2Proof.Machine

/-! ## A value against a limit (R47) -/

theorem judge_eq_clear_iff {limit m x : Nat} :
    judge limit m x = .clear ↔ x ≤ limit - limit * m / 100 := by
  unfold judge
  split
  · simp; omega
  · split <;> simp <;> omega

theorem judge_eq_border_iff {limit m x : Nat} :
    judge limit m x = .border ↔ limit - limit * m / 100 < x ∧ x ≤ limit := by
  unfold judge
  split
  · simp; omega
  · split <;> simp <;> omega

theorem judge_eq_over_iff {limit m x : Nat} : judge limit m x = .over ↔ limit < x := by
  unfold judge
  split
  · simpa
  · split <;> simp <;> omega

theorem judge_ne_unweighed (limit m x : Nat) : judge limit m x ≠ .unweighed := by
  unfold judge
  split
  · simp
  · split <;> simp

/-! ## Severity -/

theorem code_le_zero_iff {v : Verdict} : v.code ≤ 0 ↔ v = .clear := by
  cases v <;> simp [Verdict.code]

theorem code_le_one_iff {v : Verdict} : v.code ≤ 1 ↔ v = .clear ∨ v = .border := by
  cases v <;> simp [Verdict.code]

theorem code_le_two_iff {v : Verdict} : v.code ≤ 2 ↔ v ≠ .unweighed := by
  cases v <;> simp [Verdict.code]

theorem eq_over_iff_code {v : Verdict} : v = .over ↔ v.code ≤ 2 ∧ ¬ v.code ≤ 1 := by
  cases v <;> simp [Verdict.code]

theorem code_worse (a b : Verdict) : (a.worse b).code = max a.code b.code := by
  unfold Verdict.worse
  split <;> omega

theorem worse_unweighed (v : Verdict) : v.worse .unweighed = .unweighed := by
  cases v <;> rfl

/-- The worst of a list of verdicts is no worse than `n` exactly if none of them is. -/
theorem code_foldl_worse_le_iff (f : Nat → Verdict) (n : Nat) (xs : List Nat) (v : Verdict) :
    (xs.foldl (fun v x => v.worse (f x)) v).code ≤ n ↔
      v.code ≤ n ∧ ∀ x ∈ xs, (f x).code ≤ n := by
  induction xs generalizing v with
  | nil => simp
  | cons x xs ih => simp [ih, code_worse, and_assoc]

theorem code_judge_le_one_iff {limit m x : Nat} : (judge limit m x).code ≤ 1 ↔ x ≤ limit := by
  rw [code_le_one_iff, judge_eq_clear_iff, judge_eq_border_iff]
  omega

/-! ## The verdict of a vehicle (R48) -/

theorem vehicleVerdict_true (c : Configuration) (axles : List Axle) (gross : Nat) :
    vehicleVerdict c axles gross true = .unweighed :=
  worse_unweighed _

theorem code_vehicleVerdict_false_le_iff (c : Configuration) (axles : List Axle) (gross n : Nat) :
    (vehicleVerdict c axles gross false).code ≤ n ↔
      (judge c.grossLimit c.margin gross).code ≤ n ∧
        ∀ x ∈ axles.filterMap Axle.load, (judge c.axleLimit c.margin x).code ≤ n :=
  code_foldl_worse_le_iff _ n _ _

theorem code_vehicleVerdict_false_le_two (c : Configuration) (axles : List Axle) (gross : Nat) :
    (vehicleVerdict c axles gross false).code ≤ 2 :=
  (code_vehicleVerdict_false_le_iff c axles gross 2).2
    ⟨code_le_two_iff.2 (judge_ne_unweighed _ _ _),
      fun x _ => code_le_two_iff.2 (judge_ne_unweighed _ _ x)⟩

theorem vehicleVerdict_eq_unweighed_iff (c : Configuration) (axles : List Axle) (gross : Nat)
    (u : Bool) : vehicleVerdict c axles gross u = .unweighed ↔ u = true := by
  cases u with
  | false => simpa using code_le_two_iff.1 (code_vehicleVerdict_false_le_two c axles gross)
  | true => simp [vehicleVerdict_true]

theorem vehicleVerdict_eq_over_iff (c : Configuration) (axles : List Axle) (gross : Nat) (u : Bool) :
    vehicleVerdict c axles gross u = .over ↔ u = false ∧
      (c.grossLimit < gross ∨ ∃ x ∈ axles.filterMap Axle.load, c.axleLimit < x) := by
  cases u with
  | false =>
    have hle := code_vehicleVerdict_false_le_two c axles gross
    rw [eq_over_iff_code, code_vehicleVerdict_false_le_iff c axles gross 1]
    simp only [hle, code_judge_le_one_iff, true_and, not_and_or, not_forall, not_le, exists_prop]
  | true => simp [vehicleVerdict_true]

theorem vehicleVerdict_eq_clear_iff (c : Configuration) (axles : List Axle) (gross : Nat)
    (u : Bool) :
    vehicleVerdict c axles gross u = .clear ↔ u = false ∧
      gross ≤ c.grossLimit - c.grossLimit * c.margin / 100 ∧
        ∀ x ∈ axles.filterMap Axle.load, x ≤ c.axleLimit - c.axleLimit * c.margin / 100 := by
  cases u with
  | false =>
    rw [← code_le_zero_iff, code_vehicleVerdict_false_le_iff]
    simp only [code_le_zero_iff, judge_eq_clear_iff, true_and]
  | true => simp [vehicleVerdict_true]

/-! ## Confidence and class (R17, R49) -/

theorem reduced_eq_false_iff {a : Axle} : a.reduced = false ↔ a.partner = none ∧ a.flags = {} := by
  simp [Axle.reduced]

theorem closeRecord_confidence_eq_full_iff (c : Configuration) (l : Lane) (v : OpenVehicle)
    (b : Bool) :
    (closeRecord c l v b).confidence = .full ↔
      (∀ a ∈ v.axles, a.partner = none ∧ a.flags = {}) ∧ b = false ∧ v.continuation = false := by
  simp [closeRecord, ← reduced_eq_false_iff, and_assoc]

theorem closeRecord_unweighed_iff (c : Configuration) (l : Lane) (v : OpenVehicle) (b : Bool) :
    (closeRecord c l v b).unweighed = true ↔ ∃ a ∈ v.axles, a.flags.unweighed = true := by
  simp [closeRecord]

theorem closeRecord_heavy_iff (c : Configuration) (l : Lane) (v : OpenVehicle) (b : Bool) :
    (closeRecord c l v b).heavy = true ↔
      c.heavyThreshold ≤ (v.axles.filterMap Axle.load).sum ∨
        ((closeRecord c l v b).unweighed = true ∧ 3 ≤ v.axles.length) := by
  simp only [closeRecord, Bool.or_eq_true, Bool.and_eq_true, decide_eq_true_eq]

/-- Settles O20: the verdict by the severity codes of the judged values, the rest field by field. -/
theorem closedRecordIsJudged : Obligations.ClosedRecordIsJudged :=
  ⟨fun _ _ _ => ⟨judge_eq_clear_iff, judge_eq_border_iff, judge_eq_over_iff⟩,
    fun c l v b => ⟨rfl, closeRecord_unweighed_iff c l v b, vehicleVerdict_eq_unweighed_iff ..,
      vehicleVerdict_eq_over_iff .., vehicleVerdict_eq_clear_iff .., rfl, rfl,
      closeRecord_heavy_iff c l v b, closeRecord_confidence_eq_full_iff c l v b⟩⟩

end Sys2Proof.Proofs
end

