-- ==== Sys2Proof/Proofs/Posture.lean ====
section
/-! PROOFS. The posture (R87): outside RUNNING it is JOINING, in RUNNING it is what the rows of the peer
table give. Each operation keeps this for one of three reasons: it leaves start-up state, posture and
what the rows answer as they are; it works the posture out again from the rows; or the station is not
RUNNING afterwards and its posture is JOINING. -/

namespace Sys2Proof.Proofs

open Sys2Proof Sys2Proof.Machine

/-! ## What the rows give (R87) -/

theorem mem_allStations (k : Station) : k ∈ allStations := by
  revert k; decide

/-- Every expected row is PRESENT. -/
def expectedPresent (s : State) : Prop :=
  ∀ k, (s.peers.rows.at k).expected = true → (s.peers.rows.at k).state = .present

/-- Some PRESENT row holds a status flag. -/
def degradedPresent (s : State) : Prop :=
  ∃ k h, (s.peers.rows.at k).state = .present ∧ (s.peers.rows.at k).heard = some h ∧
    (h.body.entryDegraded = true ∨ h.body.signDegraded = true)

/-- Some row is expected, and no expected row is PRESENT. -/
def expectedAway (s : State) : Prop :=
  (∃ k, (s.peers.rows.at k).expected = true) ∧
    ∀ k, (s.peers.rows.at k).expected = true → (s.peers.rows.at k).state ≠ .present

theorem not_expectedPresent_of_away {s : State} (h : expectedAway s) : ¬expectedPresent s :=
  fun hp => h.1.elim fun k hk => h.2 k hk (hp k hk)

open Classical in
/-- R87 in its own words: the three postures outside the join. -/
theorem postureOf_eq (s : State) :
    postureOf s = if expectedPresent s ∧ ¬degradedPresent s then .normal
      else if expectedAway s then .isolated else .guarded := by
  simp [postureOf, expectedPresent, degradedPresent, expectedAway, mem_allStations, isPresent,
    Option.any_eq_true, List.filter_eq_nil_iff, imp_iff_not_or]

/-- The posture is what R87 makes it, by the model's own formula. -/
def postureFollows (s : State) : Prop :=
  s.peers.posture = if s.startup = .running then postureOf s else .joining

theorem postureFollows_iff (s : State) :
    postureFollows s ↔ (s.startup ≠ .running → s.peers.posture = .joining) ∧
      (s.startup = .running → s.peers.posture = postureOf s) := by
  unfold postureFollows
  split <;> simp_all

/-- A posture is the one of R87 exactly when each of the three is taken in its own case. -/
theorem eq_postureOf_iff (s : State) (p : Posture) :
    p = postureOf s ↔ (p = .normal ↔ expectedPresent s ∧ ¬degradedPresent s) ∧
      (p = .isolated ↔ expectedAway s) ∧
        (p = .guarded ↔ ¬(expectedPresent s ∧ ¬degradedPresent s) ∧ ¬expectedAway s) := by
  have excl := @not_expectedPresent_of_away s
  rw [postureOf_eq]
  by_cases hn : expectedPresent s ∧ ¬degradedPresent s
  · have ha : ¬expectedAway s := fun h => excl h hn.1
    cases p <;> simp [hn, ha]
  · by_cases ha : expectedAway s <;> cases p <;> simp [hn, ha]

theorem postureRight_iff (s : State) : postureRight s ↔ postureFollows s := by
  rw [postureFollows_iff, eq_postureOf_iff]
  rfl

/-! ## Tables that answer alike -/

/-- The rows of two peer tables have the same state, expected field and status flags. -/
def rowsAgree (s t : State) : Prop :=
  ∀ k, (rowOf t k).state = (rowOf s k).state ∧ (rowOf t k).expected = (rowOf s k).expected ∧
    statusFlags (rowOf t k) = statusFlags (rowOf s k)

theorem rowsAgree_of_rows {s t : State} (h : t.peers.rows = s.peers.rows) : rowsAgree s t := by
  intro k
  simp only [rowOf, h, and_self]

/-- What the posture reads of a row's last beacon is in its status flags. -/
theorem heard_any_degraded_eq (r : PeerRow) :
    (r.heard.any fun h => h.body.entryDegraded || h.body.signDegraded) =
      (statusFlags r).any fun f => f.1 || f.2 := by
  simp only [statusFlags]
  cases r.heard <;> rfl

theorem postureOf_congr {s t : State} (h : rowsAgree s t) : postureOf t = postureOf s := by
  have hp : isPresent t = isPresent s := funext fun k => by
    simp only [isPresent]
    rw [show (t.peers.rows.at k).state = _ from (h k).1]
    rfl
  have he (k : Station) : (t.peers.rows.at k).expected = (s.peers.rows.at k).expected := (h k).2.1
  have hf (k : Station) : statusFlags (t.peers.rows.at k) = statusFlags (s.peers.rows.at k) :=
    (h k).2.2
  simp only [postureOf, heard_any_degraded_eq, hp, he, hf]

/-! ## Keeping the posture right -/

/-- If the posture is right in the first state, it is right in the second. -/
def postureStays (s t : State) : Prop := postureFollows s → postureFollows t

theorem postureStays_trans {s t u : State} (h : postureStays s t) (k : postureStays t u) :
    postureStays s u := fun hs => k (h hs)

theorem postureStays_refl (s : State) : postureStays s s := id

theorem postureStays_of_rowsAgree {s t : State} (hs : t.startup = s.startup)
    (hp : t.peers.posture = s.peers.posture) (hr : rowsAgree s t) : postureStays s t := by
  intro h
  unfold postureFollows at *
  rw [hp, hs, postureOf_congr hr, h]

theorem postureStays_of_same {s t : State} (hs : t.startup = s.startup)
    (hp : t.peers = s.peers) : postureStays s t :=
  postureStays_of_rowsAgree hs (congrArg _ hp) (rowsAgree_of_rows (congrArg _ hp))

/-- What touches neither the start-up state nor the peer table keeps the posture right. -/
theorem postureStays_of_touches {l : List Block} {s t : State} (h : changesOnly l s t)
    (hs : Block.startup ∉ l := by decide) (hp : Block.peers ∉ l := by decide) :
    postureStays s t :=
  postureStays_of_same (h .startup hs) (h .peers hp)

theorem postureFollows_of_touches {l : List Block} {s t : State} (hf : postureFollows s)
    (h : changesOnly l s t) (hs : Block.startup ∉ l := by decide)
    (hp : Block.peers ∉ l := by decide) : postureFollows t :=
  postureStays_of_touches h hs hp hf

theorem postureFollows_of_joining {s : State} (hs : s.startup ≠ .running)
    (hp : s.peers.posture = .joining) : postureFollows s :=
  (postureFollows_iff s).2 ⟨fun _ => hp, fun h => absurd h hs⟩

theorem posture_eq_joining {s : State} (h : postureFollows s) (hs : s.startup ≠ .running) :
    s.peers.posture = .joining := ((postureFollows_iff s).1 h).1 hs

theorem settle_postureStays (s : State) : postureStays s (settle s) :=
  postureStays_of_same (settle_startup s) (settle_peers s)

/-! ## The peer table (chapter 5) -/

/-- A row rewritten with the same state, expected field and status flags leaves the posture right. -/
theorem setRow_postureStays {k : Station} {r : PeerRow} {s : State}
    (hs : r.state = (rowOf s k).state) (he : r.expected = (rowOf s k).expected)
    (hf : statusFlags r = statusFlags (rowOf s k)) : postureStays s (setRow k r s) := by
  refine postureStays_of_rowsAgree rfl rfl fun j => ?_
  by_cases hj : j = k
  · subst hj
    simp only [rowOf_setRow_self]
    exact ⟨hs, he, hf⟩
  · simp only [rowOf_setRow_ne r s hj, and_self]

theorem setFailures_postureStays (k : Station) (n : Nat) (s : State) :
    postureStays s (setRow k { rowOf s k with failures := n } s) := setRow_postureStays rfl rfl rfl

theorem setLastSequence_postureStays (k : Station) (q : Option Byte) (s : State) :
    postureStays s (setRow k { rowOf s k with lastSequence := q } s) :=
  setRow_postureStays rfl rfl rfl

/-- R87: recomputing makes the posture right, whatever the rows held before. -/
theorem recomputePosture_follows {s : State}
    (h : s.startup ≠ .running → s.peers.posture = .joining) :
    postureFollows (recomputePosture s) := by
  by_cases hr : s.startup = .running
  · simp only [recomputePosture, if_pos hr]
    split
    next he => exact (postureFollows_iff s).2 ⟨h, fun _ => he.symm⟩
    next =>
      have hset : postureFollows { s with peers.posture := postureOf s } :=
        (postureFollows_iff _).2 ⟨fun hn => absurd hr hn, fun _ => rfl⟩
      exact postureStays_trans (postureStays_of_touches (takeConditions_touches _))
        (postureStays_of_touches (runArbiter_touches _)) hset
  · rw [recomputePosture, if_neg hr]
    exact postureFollows_of_joining hr (h hr)

/-- R84, R85: a row going SILENT recomputes the posture. -/
theorem goSilent_postureStays (k : Station) (s : State) : postureStays s (goSilent k s) := by
  intro h
  have hj : s.startup ≠ .running → s.peers.posture = .joining := posture_eq_joining h
  refine postureFollows_of_touches (recomputePosture_follows fun hn => ?_) (judgeMode_touches _)
  rw [raise_startup, setRow_startup] at hn
  rw [raise_peers]
  exact hj hn

theorem deliveryFailed_postureStays (k : Station) (s : State) :
    postureStays s (deliveryFailed k s) := by
  simp only [deliveryFailed]
  split
  · exact postureStays_trans (setFailures_postureStays k _ s) (goSilent_postureStays _ _)
  · exact setFailures_postureStays k _ s

/-- R82: a beacon recomputes the posture when the row's state or a status flag changes; otherwise the
row answers as before. -/
theorem handleBeacon_postureStays (k : Station) (arrival : Clock) (b : BeaconBody) (s : State) :
    postureStays s (handleBeacon k arrival b s) := by
  have hclash (t : State) : changesOnly [.alerts] t
      (if newClash s (rowOf s k) b then raise .chainageClash t else t) := by
    split
    · exact raise_touches _ _
    · exact changesOnly_refl _ _
  intro h
  have hj : s.startup ≠ .running → s.peers.posture = .joining := posture_eq_joining h
  refine postureFollows_of_touches ?_ (judgeMode_touches _)
  have hrow := hclash (setRow k (rowAfterBeacon s.clock arrival (rowOf s k) b) s)
  split
  next =>
    refine recomputePosture_follows fun hn => ?_
    have hs := hrow .startup (by decide)
    have hp := hrow .peers (by decide)
    exact (congrArg Peers.posture hp).trans (hj fun hr => hn (Eq.trans hs hr))
  next hsame =>
    simp only [not_or, not_not] at hsame
    exact postureStays_trans (setRow_postureStays hsame.1.symm rfl hsame.2.symm)
      (postureStays_of_touches hrow) h

/-- R79: at the end of the join the posture is worked out from the rows. -/
theorem endJoin_follows (s : State) : postureFollows (endJoin s) := by
  simp only [endJoin]
  refine postureFollows_of_touches (recomputePosture_follows fun hn => ?_) (takeIntoFlight_touches _)
  refine absurd ?_ hn
  split <;> rfl

/-! ## The corridor line (chapter 4) -/

theorem failFlight_postureStays (f : Flight) (s : State) : postureStays s (failFlight f s) := by
  simp only [failFlight]
  refine postureStays_trans ?_ (postureStays_of_touches (finishFlight_touches _))
  have hfail : postureStays s
      (raise .deliveryFail (countLine (fun c => { c with failures := c.failures + 1 }) s)) :=
    postureStays_of_touches (changesOnly_append (touches_line s _) (raise_touches _ _))
  split
  · exact postureStays_trans hfail (deliveryFailed_postureStays _ _)
  · exact hfail

theorem lineIdle_touches (n : Nat) (s : State) : changesOnly [.line] s (lineIdle n s) :=
  touches_line s _

theorem oweReceipt_touches (f : Frame) (s : State) : changesOnly [.line] s (oweReceipt f s) := by
  unfold oweReceipt
  split
  · exact touches_line s _
  · exact changesOnly_refl _ _

theorem takeReceipt_postureStays (sender : Station) (x y z : Byte) (s : State) :
    postureStays s (takeReceipt sender x y z s) := by
  unfold takeReceipt
  split
  · split
    · exact postureStays_trans (setFailures_postureStays sender 0 s)
        (postureStays_of_touches (changesOnly_trans (touches_line _ _) (finishFlight_touches _)))
    · exact postureStays_refl s
  · exact postureStays_refl s

theorem storeFrame_postureStays (f : Frame) (s : State) : postureStays s (storeFrame f s) := by
  unfold storeFrame
  split
  · refine postureStays_trans ?_ (postureStays_of_touches (oweReceipt_touches f _))
    exact postureStays_trans (postureStays_of_touches (touches_line s _))
      (setLastSequence_postureStays f.sender (some f.sequence) _)
  · exact postureStays_of_touches (changesOnly_append (touches_line s _) (raise_touches _ _))

theorem routeFrame_postureStays (f : Frame) (s : State) : postureStays s (routeFrame f s) := by
  unfold routeFrame
  split
  · exact postureStays_of_touches (raise_touches _ _)
  split
  · exact takeReceipt_postureStays _ _ _ _ _
  split
  · exact postureStays_of_touches (changesOnly_trans (touches_line s _) (oweReceipt_touches f _))
  · exact storeFrame_postureStays f s

theorem receiveBytes_postureStays (bytes : List Byte) (s : State) :
    postureStays s (receiveBytes bytes s) := by
  unfold receiveBytes
  split
  · exact postureStays_of_touches (touches_line s _)
  split
  · exact postureStays_of_touches (touches_line s _)
  · exact postureStays_trans (postureStays_of_touches (lineIdle_touches 0 s))
      (routeFrame_postureStays _ _)

/-- R75: of the notices only a beacon reaches the peer table. -/
theorem handleNotice_postureStays (x : Stored) (s : State) :
    postureStays s (handleNotice x s) := by
  unfold handleNotice
  split
  · exact postureStays_refl s
  · exact handleBeacon_postureStays _ _ _ s
  · exact postureStays_of_touches (takeAnnouncement_touches _ _)
  · dsimp only
    split
    · exact postureStays_of_touches
        (changesOnly_append (takeAnnouncement_touches _ _) (discardSightings_touches _ _))
    · exact postureStays_of_touches (takeAnnouncement_touches _ _)
  · split
    · exact postureStays_of_touches (takeAnnouncement_touches _ _)
    · exact postureStays_refl s
  · split
    · exact postureStays_of_touches (handleLeft_touches _ _)
    · exact postureStays_refl s

/-! ## Resets and loading (chapter 11) -/

/-- R184: a reset enters RESET with the posture JOINING, or finds the station in RESET and leaves both
as they are. -/
theorem enterReset_postureStays (cause : ResetCause) (hold : Option Clock)
    (torn : Option (BitVec 16)) (s : State) : postureStays s (enterReset cause hold torn s) := by
  unfold enterReset
  split
  · exact postureStays_of_same rfl rfl
  · exact fun _ => postureFollows_of_joining nofun rfl

/-- R183: FAULT is reached from LOADING, where the posture is JOINING. -/
theorem refuseImage_postureStays (cause : RefusalCause) {s : State} (hs : s.startup ≠ .running) :
    postureStays s (refuseImage cause s) := by
  intro h
  have hj : s.peers.posture = .joining := posture_eq_joining h hs
  exact postureFollows_of_joining nofun hj

theorem startEntry_touches (s : State) : changesOnly [.entry, .alerts] s (startEntry s) := by
  unfold startEntry
  split
  · exact changesOnly_trans (changesOnly_mono (touches_entry s _) (by simp))
      (judgeMode_touches _)
  · exact changesOnly_refl _ _

theorem startEntry_startup (s : State) : (startEntry s).startup = s.startup :=
  startEntry_touches s .startup (by decide)

theorem startEntry_posture (s : State) : (startEntry s).peers.posture = s.peers.posture :=
  congrArg Peers.posture (startEntry_touches s .peers (by decide))

theorem acceptImage_startup (img : List Byte) (s : State) :
    (acceptImage img s).startup = .joining := startEntry_startup _

theorem acceptImage_posture (img : List Byte) (s : State) :
    (acceptImage img s).peers.posture = s.peers.posture := startEntry_posture _

/-- R180 to R183: from LOADING an image leads to LOADING, JOINING or FAULT, never to RUNNING. -/
theorem judgeImage_postureStays (img : List Byte) {s : State} (hs : s.startup = .loading) :
    postureStays s (judgeImage img s) := by
  intro h
  have hp : s.peers.posture = .joining := posture_eq_joining h (by simp [hs])
  simp only [judgeImage]
  split
  · split
    · exact postureStays_of_same (s := s) rfl rfl h
    · exact postureFollows_of_joining nofun hp
  · split
    · exact postureFollows_of_joining nofun hp
    · refine postureFollows_of_joining ?_ ((acceptImage_posture img _).trans hp)
      rw [acceptImage_startup]
      nofun

/-! ## The maintenance port (section 12.5) -/

/-- Whatever a judged command answers, the state it leaves keeps the posture right. -/
def judgedStays (s : State) (j : Judged) : Prop :=
  ∀ records t, j = .ok (records, t) → postureStays s t

theorem judgedStays_error (s : State) (e : ErrorCode) : judgedStays s (.error e) := by
  rintro _ _ ⟨⟩

theorem judgedStays_prints {s t : State} (records : List PrintedRecord) (h : postureStays s t) :
    judgedStays s (prints records t) := by
  rintro _ _ ⟨⟩
  exact h

theorem judgedStays_record (s : State) (records : List PrintedRecord) :
    judgedStays s (prints records s) := judgedStays_prints records (postureStays_refl s)

/-- A command refused unless a condition holds. -/
theorem judgedStays_if {s : State} {j : Judged} {e : ErrorCode} {p : Prop} [Decidable p]
    (h : judgedStays s j) : judgedStays s (if p then j else .error e) := by
  split
  · exact h
  · exact judgedStays_error s e

theorem clearSource_touches (s : State) (x : AlertSource) :
    changesOnly [.alerts] s (clearSource s x) := by
  rw [clearSource_eq]
  exact touches_alerts s _

theorem clearSources_touches (l : List AlertSource) (s : State) :
    changesOnly [.alerts] s (l.foldl clearSource s) := by
  induction l generalizing s with
  | nil => exact changesOnly_refl _ _
  | cons x l ih => exact changesOnly_trans (clearSource_touches s x) (ih _)

theorem turnAway_touches (l : Lane) (wasHeld : Bool) (s : State) :
    changesOnly [.entry, .alerts, .counters] s (turnAway l wasHeld s) := by
  simp only [turnAway]
  refine changesOnly_trans ?_ (evaluateHead_touches _ _)
  split
  · exact changesOnly_mono (changesOnly_trans (touches_entry s _) (runArbiter_touches _)) (by simp)
  · exact changesOnly_mono (touches_entry s _) (by simp)

theorem restoreStrip_touches (p : Strip) (s : State) :
    changesOnly [.health, .alerts] s (restoreStrip p s) :=
  changesOnly_append (touches_health s _) (takeConditions_touches _)

theorem judgeQueue_stays (n : Nat) (s : State) : judgedStays s (judgeQueue n s) := by
  refine judgedStays_if ?_
  split
  · exact judgedStays_record _ _
  · exact judgedStays_error _ _

theorem judgeClear_stays (x : Option AlertSource) (s : State) :
    judgedStays s (judgeClear x s) := by
  cases x with
  | none => exact judgedStays_error _ _
  | some x => exact judgedStays_prints _ (postureStays_of_touches (clearSource_touches s x))

theorem judgeHealthStep_stays (s : State) : judgedStays s (judgeHealthStep s) := by
  unfold judgeHealthStep
  repeat' split
  all_goals exact judgedStays_prints _ (postureStays_of_touches (touches_health s _))

theorem judgeReleaseAdmit_stays (n : Nat) (s : State) :
    judgedStays s (judgeReleaseAdmit n s) := by
  refine judgedStays_if ?_
  split
  · exact judgedStays_error _ _
  · split
    · exact judgedStays_prints _ (postureStays_of_touches
        (changesOnly_trans (becomeHeld_touches _ _ _) (runArbiter_touches _)))
    · exact judgedStays_error _ _

theorem judgeReleaseRemove_stays (n : Nat) (s : State) :
    judgedStays s (judgeReleaseRemove n s) := by
  refine judgedStays_if ?_
  split
  · exact judgedStays_error _ _
  · split
    · exact judgedStays_prints _ (postureStays_of_touches (turnAway_touches _ _ _))
    · exact judgedStays_prints _ (postureStays_of_touches (turnAway_touches _ _ _))
    · exact judgedStays_error _ _

theorem judgeForget_stays (tag : Option Tag) (s : State) : judgedStays s (judgeForget tag s) := by
  refine judgedStays_if ?_
  cases tag with
  | none => exact judgedStays_error _ _
  | some t =>
    exact judgedStays_if (judgedStays_prints _ (postureStays_of_touches (l := [.entry, .alerts])
      (changesOnly_trans (changesOnly_mono (touches_entry s _) (by simp))
        (departSpan_touches _ _))))

theorem judgeLampReset_stays (n : Nat) (s : State) : judgedStays s (judgeLampReset n s) := by
  refine judgedStays_if ?_
  split
  · exact judgedStays_prints _ (postureStays_of_same rfl rfl)
  · exact judgedStays_error _ _

theorem judgeStripRestore_stays (p : Option Strip) (s : State) :
    judgedStays s (judgeStripRestore p s) := by
  cases p with
  | none => exact judgedStays_error _ _
  | some p =>
    exact judgedStays_if (judgedStays_if (judgedStays_prints _
      (postureStays_of_touches (restoreStrip_touches p s))))

/-- No command of the port reaches the start-up state or the peer table. -/
theorem judgeCommand_stays (c : PortCommand) (s : State) : judgedStays s (judgeCommand c s) := by
  cases c with
  | unknown => exact judgedStays_error _ _
  | wrong => exact judgedStays_if (judgedStays_error s _)
  | status | config | peers | approach | alerts | counts | health | trim =>
    exact judgedStays_record _ _
  | span => exact judgedStays_if (judgedStays_record s _)
  | clearAll => exact judgedStays_prints _ (postureStays_of_touches (clearSources_touches _ _))
  | healthStep => exact judgeHealthStep_stays s
  | restart => exact judgedStays_prints _ (postureStays_of_same rfl rfl)
  | queue n => exact judgeQueue_stays n s
  | clear x => exact judgeClear_stays x s
  | releaseAdmit n => exact judgeReleaseAdmit_stays n s
  | releaseRemove n => exact judgeReleaseRemove_stays n s
  | forget t => exact judgeForget_stays t s
  | lampReset n => exact judgeLampReset_stays n s
  | stripRestore p => exact judgeStripRestore_stays p s

theorem respond_postureStays {j : Judged} {s : State} (h : judgedStays s j) :
    postureStays s (respond j s) := by
  match j with
  | .ok (records, t) => exact postureStays_trans (h records t rfl) (postureStays_of_same rfl rfl)
  | .error e => exact postureStays_of_same rfl rfl

theorem takeLine_postureStays (garbled : Bool) (c : PortCommand) (s : State) :
    postureStays s (takeLine garbled c s) := by
  simp only [takeLine]
  refine postureStays_trans (t := beginLine s) (postureStays_of_same rfl rfl)
    (respond_postureStays ?_)
  split
  · exact judgedStays_error _ _
  · exact judgedStays_if (judgeCommand_stays c _)

theorem collectChar_postureStays (c : Byte) (s : State) : postureStays s (collectChar c s) := by
  simp only [collectChar, endLine, storeChar]
  repeat' split
  any_goals exact postureStays_of_same rfl rfl
  exact takeLine_postureStays _ _ s

theorem takeChar_postureStays (c : Byte) (framingError : Bool) (s : State) :
    postureStays s (takeChar c framingError s) := by
  simp only [takeChar, longLine]
  repeat' split
  any_goals exact postureStays_of_same rfl rfl
  exact collectChar_postureStays c s

/-! ## Every command -/

/-- If a result is a next state, that state keeps the posture right. -/
def resultStays (s : State) (r : Result) : Prop := ∀ t, r = .next t → postureStays s t

theorem resultStays_noEvent (s : State) : resultStays s (noEvent s) := by
  rintro _ ⟨⟩
  exact postureStays_refl s

theorem resultStays_done {s u : State} (h : postureStays s u) : resultStays s (done u) := by
  rintro _ ⟨⟩
  exact postureStays_trans h (settle_postureStays u)

/-- An event that takes place under a condition, and otherwise not at all. -/
theorem resultStays_when {s u : State} {p : Prop} [Decidable p] (h : p → postureStays s u) :
    resultStays s (if p then done u else noEvent s) := by
  split
  next hp => exact resultStays_done (h hp)
  next => exact resultStays_noEvent s

/-- A conditional event that leaves the start-up state and the peer table as they are. -/
theorem resultStays_same {s u : State} {p : Prop} [Decidable p]
    (hs : u.startup = s.startup := by rfl) (hp : u.peers = s.peers := by rfl) :
    resultStays s (if p then done u else noEvent s) :=
  resultStays_when fun _ => postureStays_of_same hs hp

/-! ### Strips and vehicles -/

theorem execSignalBelowTrigger_stays (p : Strip) (s : State) :
    resultStays s (execSignalBelowTrigger p s) := by
  unfold execSignalBelowTrigger
  split
  · exact resultStays_done (postureStays_of_same rfl rfl)
  · exact resultStays_done (postureStays_of_same rfl rfl)
  · exact resultStays_noEvent s
  · exact resultStays_noEvent s

theorem execPulseStart_stays (p : Strip) (s : State) : resultStays s (execPulseStart p s) := by
  unfold execPulseStart
  split
  · exact resultStays_done (postureStays_of_same rfl rfl)
  · exact resultStays_done (postureStays_of_same rfl rfl)
  · exact resultStays_noEvent s
  · exact resultStays_noEvent s

theorem reportHit_postureStays (r : HitReport) (s : State) : postureStays s (reportHit r s) := by
  unfold reportHit
  split
  · exact postureStays_of_same rfl rfl
  · exact postureStays_of_touches
      (changesOnly_append (deliverHit_touches r s) (monitorHit_touches _ _ _))

theorem execPulseEnd_stays (p : Strip) (l : List Sample) (s : State) :
    resultStays s (execPulseEnd p l s) :=
  resultStays_when fun _ => postureStays_trans
    (postureStays_of_same (s := s) (t := setChannel p _ (setSignal p false s)) rfl rfl)
    (reportHit_postureStays _ _)

theorem execStuckReport_stays (p : Strip) (s : State) : resultStays s (execStuckReport p s) :=
  resultStays_when fun _ => postureStays_trans
    (postureStays_of_same (s := s) (t := setChannel p _ s) rfl rfl)
    (postureStays_of_touches (hardEvent_touches _ _ _))

theorem execCoincidenceTimerExpiry_stays (l : Lane) (p : Pos) (s : State) :
    resultStays s (execCoincidenceTimerExpiry l p s) := by
  unfold execCoincidenceTimerExpiry
  split
  · exact resultStays_when fun _ => postureStays_of_touches (releaseHold_touches l p s)
  · exact resultStays_noEvent s

theorem execLeadExpiry_stays (l : Lane) (index : Nat) (s : State) :
    resultStays s (execLeadExpiry l index s) := by
  unfold execLeadExpiry
  split
  · exact resultStays_when fun _ => postureStays_of_touches
      (changesOnly_trans (setFifo_touches l _ s) (expireLead_touches l _ _))
  · exact resultStays_noEvent s

theorem execCloseTimerExpiry_stays (l : Lane) (s : State) :
    resultStays s (execCloseTimerExpiry l s) := by
  unfold execCloseTimerExpiry
  split
  · exact resultStays_when fun _ => postureStays_of_touches
      (changesOnly_append (closeVehicle_touches l false s) (applyTrim_touches l _))
  · exact resultStays_noEvent s

/-! ### The corridor line -/

theorem execContentionIdleReached_stays (s : State) :
    resultStays s (execContentionIdleReached s) := by
  unfold execContentionIdleReached
  split
  · exact resultStays_same
  · exact resultStays_noEvent s

theorem execCollision_stays (s : State) : resultStays s (execCollision s) := by
  simp only [execCollision]
  repeat' split
  · exact resultStays_done (postureStays_of_touches (changesOnly_append
      (changesOnly_append (touches_line s _) (raise_touches _ _)) (finishFlight_touches _)))
  · exact resultStays_done (postureStays_of_same rfl rfl)
  · exact resultStays_noEvent s
  · exact resultStays_noEvent s

theorem execAttemptEnd_stays (s : State) : resultStays s (execAttemptEnd s) := by
  simp only [execAttemptEnd]
  repeat' split
  · exact resultStays_done (postureStays_of_touches
      (changesOnly_trans (lineIdle_touches 0 s) (finishFlight_touches _)))
  · exact resultStays_done (postureStays_of_same rfl rfl)
  · exact resultStays_noEvent s
  · exact resultStays_noEvent s

theorem execReceiptWaitExpiry_stays (s : State) : resultStays s (execReceiptWaitExpiry s) := by
  unfold execReceiptWaitExpiry
  repeat' split
  · exact resultStays_done (postureStays_of_same rfl rfl)
  · exact resultStays_done (failFlight_postureStays _ s)
  · exact resultStays_noEvent s
  · exact resultStays_noEvent s

theorem execBadFrame_stays (found : BadFrame) (s : State) :
    resultStays s (execBadFrame found s) := by
  refine resultStays_when fun _ => ?_
  split <;> exact postureStays_of_same rfl rfl

theorem execFrameReceived_stays (bytes : List Byte) (s : State) :
    resultStays s (execFrameReceived bytes s) := by
  refine resultStays_when fun _ => ?_
  split
  · exact receiveBytes_postureStays bytes s
  · exact postureStays_of_same rfl rfl

theorem execReceiptStart_stays (s : State) : resultStays s (execReceiptStart s) := by
  unfold execReceiptStart
  split
  · exact resultStays_same
  · exact resultStays_noEvent s

theorem execNoticeHandlingComplete_stays (s : State) :
    resultStays s (execNoticeHandlingComplete s) := by
  unfold execNoticeHandlingComplete
  split
  · exact resultStays_done (postureStays_trans (postureStays_of_touches (touches_line s _))
      (handleNotice_postureStays _ _))
  · exact resultStays_noEvent s

/-! ### Timers of the peer table, the approach list and the probe -/

theorem execBeaconTimerExpiry_stays (s : State) : resultStays s (execBeaconTimerExpiry s) :=
  resultStays_when fun _ => postureStays_trans
    (t := { s with peers.beaconTimer := some (later s.clock 500000) })
    (postureStays_of_rowsAgree rfl rfl (rowsAgree_of_rows rfl))
    (postureStays_of_touches (enqueue_touches .beacon _))

theorem execWindowCloseExpiry_stays (t : Tag) (s : State) :
    resultStays s (execWindowCloseExpiry t s) := by
  unfold execWindowCloseExpiry
  split
  · exact resultStays_when fun _ => postureStays_of_touches (expireEntry_touches _ s)
  · exact resultStays_noEvent s

theorem execProbeAnswer_stays (reading : Int) (checkMatches : Bool) (s : State) :
    resultStays s (execProbeAnswer reading checkMatches s) := by
  unfold execProbeAnswer
  repeat' split
  · exact resultStays_done (postureStays_of_same rfl rfl)
  · exact resultStays_done (postureStays_of_same rfl rfl)
  · exact resultStays_noEvent s
  · exact resultStays_noEvent s

/-! ### Signs and the entry controller -/

theorem execBlinkPhaseToggle_stays (l : Lane) (s : State) :
    resultStays s (execBlinkPhaseToggle l s) := by
  unfold execBlinkPhaseToggle
  split
  · exact resultStays_same
  · exact resultStays_noEvent s

theorem execPresenceInputChange_stays (l : Lane) (occupied : Bool) (s : State) :
    resultStays s (execPresenceInputChange l occupied s) := by
  simp only [execPresenceInputChange]
  split <;> exact resultStays_done (postureStays_of_same rfl rfl)

theorem execPresenceSettled_stays (l : Lane) (s : State) :
    resultStays s (execPresenceSettled l s) := by
  refine resultStays_when fun _ => ?_
  split
  · exact postureStays_of_touches (l := entryBlocks)
      (changesOnly_trans (changesOnly_mono (touches_entry s _) (by simp)) (crossing_touches l _))
  · exact postureStays_of_same rfl rfl

theorem execRecoveryTimerExpiry_stays (s : State) :
    resultStays s (execRecoveryTimerExpiry s) := by
  refine resultStays_when fun _ => ?_
  have hclear : changesOnly [.entry] s (clearLost { s with entry.recovery := none }) :=
    changesOnly_trans (touches_entry s _) (clearLost_touches _)
  split
  · exact postureStays_of_touches (changesOnly_trans hclear (runArbiter_touches _))
  · exact postureStays_of_touches hclear

theorem execSpanDeadline_stays (t : Tag) (s : State) : resultStays s (execSpanDeadline t s) := by
  unfold execSpanDeadline
  repeat' split
  · exact resultStays_done (postureStays_of_touches (departSpan_touches _ s))
  · exact resultStays_done (postureStays_of_same rfl rfl)
  · exact resultStays_noEvent s
  · exact resultStays_noEvent s

/-! ### Loading and the port -/

theorem execResetEnd_stays (s : State) : resultStays s (execResetEnd s) := by
  refine resultStays_when fun hp h => ?_
  have hj : s.peers.posture = .joining := posture_eq_joining h (by simp [hp.1])
  exact postureFollows_of_joining nofun hj

theorem execLoadReadTimeout_stays (answered : Bool) (s : State) :
    resultStays s (execLoadReadTimeout answered s) := by
  unfold execLoadReadTimeout
  generalize (if answered then 50000 else 10000) = limit
  split
  next hp =>
    split
    · exact resultStays_done (postureStays_of_same rfl rfl)
    · exact resultStays_done (refuseImage_postureStays _ (by simp [hp.1]))
  next => exact resultStays_noEvent s

theorem execCharacterReceived_stays (c : Byte) (framingError : Bool) (s : State) :
    resultStays s (execCharacterReceived c framingError s) := by
  simp only [execCharacterReceived]
  split
  · exact resultStays_noEvent s
  · exact resultStays_done (postureStays_trans (takeChar_postureStays c framingError s)
      (postureStays_of_same rfl rfl))

theorem portCommand_stays (c : PortCommand) (s : State) : resultStays s (portCommand c s) :=
  resultStays_when fun _ => takeLine_postureStays false c s

/-- Every command keeps the posture right. -/
theorem exec_resultStays (i : Instr) (s : State) : resultStays s (exec i s) := by
  cases i with
  | signalBelowTrigger p => exact execSignalBelowTrigger_stays p s
  | pulseStart p => exact execPulseStart_stays p s
  | pulseEnd p l => exact execPulseEnd_stays p l s
  | stuckReport p => exact execStuckReport_stays p s
  | coincidenceTimerExpiry l p => exact execCoincidenceTimerExpiry_stays l p s
  | leadExpiry l index => exact execLeadExpiry_stays l index s
  | closeTimerExpiry l => exact execCloseTimerExpiry_stays l s
  | contentionIdleReached => exact execContentionIdleReached_stays s
  | collision => exact execCollision_stays s
  | attemptEnd => exact execAttemptEnd_stays s
  | receiptWaitExpiry => exact execReceiptWaitExpiry_stays s
  | badFrame found => exact execBadFrame_stays found s
  | frameReceived bytes => exact execFrameReceived_stays bytes s
  | receiptStart => exact execReceiptStart_stays s
  | noticeHandlingComplete => exact execNoticeHandlingComplete_stays s
  | windowCloseExpiry t => exact execWindowCloseExpiry_stays t s
  | joinTimerExpiry => exact resultStays_when fun _ _ => endJoin_follows s
  | beaconTimerExpiry => exact execBeaconTimerExpiry_stays s
  | silenceTimerExpiry k => exact resultStays_when fun _ => goSilent_postureStays k s
  | probeAnswer reading checkMatches => exact execProbeAnswer_stays reading checkMatches s
  | blinkPhaseToggle l => exact execBlinkPhaseToggle_stays l s
  | presenceInputChange l occupied => exact execPresenceInputChange_stays l occupied s
  | presenceSettled l => exact execPresenceSettled_stays l s
  | recoveryTimerExpiry => exact execRecoveryTimerExpiry_stays s
  | spanDeadline t => exact execSpanDeadline_stays t s
  | powerOn torn | supplyDip torn | resetLine torn =>
    exact resultStays_done (enterReset_postureStays _ none torn s)
  | restartReset torn => exact resultStays_when fun _ => enterReset_postureStays _ _ torn s
  | resetEnd => exact execResetEnd_stays s
  | loadReadComplete bytes => exact resultStays_when fun h => judgeImage_postureStays bytes h.1
  | loadReadTimeout answered => exact execLoadReadTimeout_stays answered s
  | characterReceived c framingError => exact execCharacterReceived_stays c framingError s
  | receiptAbandoned | receiptEnd | lineGoesBusy | probeSampleTimer | probeAnswerTimeout
  | holdTimerExpiry | signTimerExpiry | overcurrent | currentBelowThreshold | blankingEnd
  | openTimerExpiry | provingTimerExpiry | amberTimerExpiry | minuteTimerExpiry | responseSent
  | currentRisesToThreshold => exact resultStays_same
  | status | config | peers | approach | queue | span | alerts | clear | clearAll | counts | health
  | healthStep | trim | releaseAdmit | releaseRemove | forget | lampReset | stripRestore
  | restart => exact portCommand_stays _ s

theorem step_postureStays {s t : State} (h : step s = .next t) : postureStays s t := by
  cases hq : s.pending with
  | nil =>
    obtain rfl : tick s = t := by simpa [step_idle hq] using h
    exact postureStays_of_touches (tick_touches s)
  | cons c rest =>
    simp only [step, hq] at h
    exact postureStays_trans (t := { s with pending := rest })
      (postureStays_of_same rfl rfl) (exec_resultStays c _ t h)

/-- Settles O8: every operation of the model keeps start-up state, posture and rows in step. -/
theorem stepKeepsPostureRight : Obligations.StepKeepsPostureRight := by
  intro s t hs hstep
  rw [postureRight_iff] at *
  exact step_postureStays hstep hs

end Sys2Proof.Proofs
end

