-- ==== Sys2Proof/Proofs/TrimOffer.lean ====
section
/-! PROOFS. A reference offered to the trim unit (section 9.1). What the offer does is said by three
equations: a refused record advances one count, a taken ratio joins a window it does not fill, and the
16th ratio joins the window and then forms the pending trim. The obligation reads them off. -/

namespace Sys2Proof.Proofs

open Sys2Proof Sys2Proof.Machine

/-! ## Writing one lane's trim, and raising an event -/

@[simp] theorem trim_at_setTrim_self (l : Lane) (x : TrimLane) (s : State) :
    (setTrim l x s).trim.at l = x := by simp [setTrim]

theorem sameBut_setTrim (l : Lane) (x : TrimLane) (s : State) :
    sameBut l s.trim (setTrim l x s).trim := fun _ hk => Tab.at_put_ne _ _ hk

theorem sameBut_trans {α : Type} {n : Nat} {i : Fin n} {a b c : Tab α n} (h : sameBut i a b)
    (k : sameBut i b c) : sameBut i a c := fun j hj => (k j hj).trans (h j hj)

theorem setTrim_touches (l : Lane) (x : TrimLane) (s : State) :
    changesOnly [.trim] s (setTrim l x s) := touches_trim s _

theorem raise_of_working {s : State} (x : AlertSource) (h : working s = true) :
    raise x s = setAlert x { alertOf s x with sticky := true, count := (alertOf s x).count + 1 } s :=
  if_pos h

theorem alertOf_raise_ne {x y : AlertSource} (s : State) (h : y ≠ x) :
    alertOf (raise x s) y = alertOf s y := by
  unfold raise
  split
  · exact alertOf_setAlert_ne _ _ h
  · rfl

/-- A value held within bounds, by its three cases. -/
theorem clamp_eq_ite {lo hi : Nat} (h : lo ≤ hi) (x : Nat) :
    clamp lo hi x = if x < lo then lo else if hi < x then hi else x := by
  unfold clamp
  split
  · omega
  · split <;> omega

/-! ## The window forms a pending trim (R162) -/

/-- What R162 works out from the active trim and the window of a lane, before the clamp. -/
def formedProduct (l : Lane) (s : State) : Nat :=
  trimProduct (s.store.trims.at l) (s.trim.at l).window

/-- R162: a lane whose window has just formed a pending trim. -/
def laneFormed (l : Lane) (s : State) : TrimLane :=
  { s.trim.at l with
    pending := some (clamp 3686 4506 (formedProduct l s))
    formed := (s.trim.at l).formed + 1
    window := [] }

theorem formPending_eq (l : Lane) (s : State) :
    formPending l s =
      if formedProduct l s < 3686 ∨ 4506 < formedProduct l s then
        raise .trimLimit (setTrim l (laneFormed l s) s)
      else setTrim l (laneFormed l s) s := rfl

theorem formPending_trim (l : Lane) (s : State) :
    (formPending l s).trim = (setTrim l (laneFormed l s) s).trim := by
  rw [formPending_eq]
  split
  · exact raise_trim _ _
  · rfl

@[simp] theorem trim_at_formPending (l : Lane) (s : State) :
    (formPending l s).trim.at l = laneFormed l s := by
  rw [formPending_trim, trim_at_setTrim_self]

theorem alertOf_formPending_ne (l : Lane) (s : State) {y : AlertSource} (h : y ≠ .trimLimit) :
    alertOf (formPending l s) y = alertOf s y := by
  rw [formPending_eq]
  split
  · exact alertOf_raise_ne _ h
  · rfl

theorem formPending_alerts_of_within {l : Lane} {s : State} (lo : 3686 ≤ formedProduct l s)
    (hi : formedProduct l s ≤ 4506) : (formPending l s).alerts = s.alerts := by
  rw [formPending_eq, if_neg (by omega), setTrim_alerts]

theorem alertOf_formPending_of_clamped {l : Lane} {s : State} (hs : working s = true)
    (h : formedProduct l s < 3686 ∨ 4506 < formedProduct l s) :
    alertOf (formPending l s) .trimLimit =
      { alertOf s .trimLimit with
        sticky := true, count := (alertOf s .trimLimit).count + 1 } := by
  have hw : working (setTrim l (laneFormed l s) s) = true := hs
  rw [formPending_eq, if_pos h, raise_of_working _ hw, alertOf_setAlert_self]
  rfl

/-! ## A record is offered (R159 to R161) -/

/-- R159: the trim unit takes a ratio from a record. -/
def takesRatio (r : Record) (ref : Nat) : Prop :=
  r.confidence = .full ∧ 1000 ≤ ref ∧ 1000 ≤ r.gross

/-- R160, R161: a lane whose window a ratio has joined, clamped and counted. -/
def laneJoined (q : Nat) (x : TrimLane) : TrimLane :=
  { x with
    window := x.window ++ [clamp 2048 8192 q]
    samples := x.samples + 1
    clamped := x.clamped + if q < 2048 ∨ 8192 < q then 1 else 0 }

/-- The state with the ratio of an offered record in the window of its lane. -/
def withRatio (r : Record) (ref : Nat) (s : State) : State :=
  setTrim r.lane (laneJoined (rawRatio ref r.gross) (s.trim.at r.lane)) s

theorem not_takesRatio_iff {r : Record} {ref : Nat} :
    ¬takesRatio r ref ↔ r.confidence = .reduced ∨ ref < 1000 ∨ r.gross < 1000 := by
  cases hc : r.confidence with
  | full => simp only [takesRatio, hc, true_and, reduceCtorEq, false_or]; omega
  | reduced => simp [takesRatio, hc]

theorem offerTrim_of_refused {r : Record} {ref : Nat} (h : ¬takesRatio r ref) (s : State) :
    offerTrim r ref s =
      setTrim r.lane { s.trim.at r.lane with refused := (s.trim.at r.lane).refused + 1 } s :=
  if_neg h

theorem offerTrim_of_taken {r : Record} {ref : Nat} (h : takesRatio r ref) (s : State) :
    offerTrim r ref s =
      if 16 ≤ (s.trim.at r.lane).window.length + 1 then formPending r.lane (withRatio r ref s)
      else withRatio r ref s := by
  have hcount (c : Count) (q : Nat) :
      (if decide (q < 2048) || decide (8192 < q) then c + 1 else c) =
        c + if q < 2048 ∨ 8192 < q then 1 else 0 := by
    by_cases hq : q < 2048 ∨ 8192 < q <;> simp [hq]
  simp only [offerTrim, hcount]
  exact if_pos h

theorem offerTrim_of_short {r : Record} {ref : Nat} {s : State} (h : takesRatio r ref)
    (hl : (s.trim.at r.lane).window.length < 15) : offerTrim r ref s = withRatio r ref s := by
  rw [offerTrim_of_taken h, if_neg (by omega)]

theorem offerTrim_of_full {r : Record} {ref : Nat} {s : State} (h : takesRatio r ref)
    (hl : 15 ≤ (s.trim.at r.lane).window.length) :
    offerTrim r ref s = formPending r.lane (withRatio r ref s) := by
  rw [offerTrim_of_taken h, if_pos (by omega)]

@[simp] theorem trim_at_withRatio (r : Record) (ref : Nat) (s : State) :
    (withRatio r ref s).trim.at r.lane =
      laneJoined (rawRatio ref r.gross) (s.trim.at r.lane) := trim_at_setTrim_self ..

theorem formedProduct_withRatio (r : Record) (ref : Nat) (s : State) :
    formedProduct r.lane (withRatio r ref s) =
      trimProduct (s.store.trims.at r.lane)
        ((s.trim.at r.lane).window ++ [clamp 2048 8192 (rawRatio ref r.gross)]) := by
  rw [formedProduct, trim_at_withRatio]
  rfl

/-- Whatever becomes of the window, a taken ratio is counted, and its lane's other counts stay. -/
theorem counts_offerTrim_of_taken {r : Record} {ref : Nat} (h : takesRatio r ref) (s : State) :
    let x := s.trim.at r.lane
    let y := (offerTrim r ref s).trim.at r.lane
    let q := rawRatio ref r.gross
    y.samples = x.samples + 1 ∧ y.clamped = x.clamped + (if q < 2048 ∨ 8192 < q then 1 else 0) ∧
      y.refused = x.refused ∧ y.applied = x.applied := by
  rw [offerTrim_of_taken h]
  split <;> simp [laneFormed, laneJoined]

theorem sameBut_offerTrim (r : Record) (ref : Nat) (s : State) :
    sameBut r.lane s.trim (offerTrim r ref s).trim := by
  by_cases h : takesRatio r ref
  · rw [offerTrim_of_taken h]
    split
    · rw [formPending_trim]
      exact sameBut_trans (sameBut_setTrim _ _ _) (sameBut_setTrim _ _ _)
    · exact sameBut_setTrim _ _ _
  · rw [offerTrim_of_refused h]
    exact sameBut_setTrim _ _ _

theorem alertOf_offerTrim_ne (r : Record) (ref : Nat) (s : State) {y : AlertSource}
    (hy : y ≠ .trimLimit) : alertOf (offerTrim r ref s) y = alertOf s y := by
  by_cases h : takesRatio r ref
  · rw [offerTrim_of_taken h]
    split
    · exact alertOf_formPending_ne _ _ hy
    · rfl
  · rw [offerTrim_of_refused h]
    rfl

/-- Settles O21: the three equations of an offer, with the clamps written out. -/
theorem offeredReferenceTakesRatio : Obligations.OfferedReferenceTakesRatio := by
  intro s r ref x q taken p t
  refine ⟨fun h => ?refused, fun hs hc hr hg => ?taken⟩
  case refused =>
    have ht : t = setTrim r.lane { x with refused := x.refused + 1 } s :=
      offerTrim_of_refused (not_takesRatio_iff.mpr h) s
    rw [ht]
    exact ⟨trim_at_setTrim_self _ _ _, sameBut_setTrim _ _ _, setTrim_touches _ _ _⟩
  case taken =>
    have h : takesRatio r ref := ⟨hc, hr, hg⟩
    have htaken : clamp 2048 8192 (rawRatio ref r.gross) = taken := clamp_eq_ite (by decide) q
    have hp : formedProduct r.lane (withRatio r ref s) = p := by
      rw [formedProduct_withRatio, htaken]
      rfl
    obtain ⟨hsamples, hclamped, hrefused, happlied⟩ := counts_offerTrim_of_taken h s
    refine ⟨hsamples, hclamped, hrefused, happlied, fun hl => ?short, fun hl => ?full,
      fun y hy => alertOf_offerTrim_ne r ref s hy, sameBut_offerTrim r ref s,
      offerTrim_touches r ref s⟩
    case short =>
      have ht : t = withRatio r ref s := offerTrim_of_short h hl
      rw [ht, trim_at_withRatio]
      exact ⟨by simp only [laneJoined, htaken, x], rfl, rfl, rfl⟩
    case full =>
      have ht : t = formPending r.lane (withRatio r ref s) := offerTrim_of_full h hl.ge
      have hw : working (withRatio r ref s) = true := hs
      rw [ht, trim_at_formPending]
      refine ⟨rfl, ?formed, ?pending, fun hout => ?clampedTrim, fun lo hi => ?withinTrim⟩
      case formed => simp only [laneFormed, trim_at_withRatio, laneJoined, x]
      case pending => simp only [laneFormed, hp, clamp_eq_ite (show 3686 ≤ 4506 by decide)]
      case clampedTrim =>
        rw [alertOf_formPending_of_clamped hw (hp ▸ hout)]
        exact ⟨rfl, rfl⟩
      case withinTrim => exact formPending_alerts_of_within (hp ▸ lo) (hp ▸ hi)

end Sys2Proof.Proofs
end

