-- ==== Sys2Proof/Proofs/ClearStickies.lean ====
section
/-! PROOFS. CLEAR name and CLEAR ALL (R190). Both clear the sources of a list one after the other. A
clear writes its own source only, and neither a raw state nor a remembered one, so each source of the
list ends as one clear of it alone would leave it, and `settle` finds nothing to take afterwards: it
lets the alert lines follow. -/

namespace Sys2Proof.Proofs

open Sys2Proof Sys2Proof.Machine

/-! ## A line is taken in JOINING or RUNNING (R186, R196) -/

theorem commandAllowed_of_working {s : State} (h : working s = true) (c : PortCommand) :
    commandAllowed s c = true := by
  unfold working at h
  unfold commandAllowed
  split at h <;> simp_all

theorem takeLine_of_working {s : State} (h : working s = true) (c : PortCommand) :
    takeLine false c s = respond (judgeCommand c (beginLine s)) (beginLine s) := by
  have ha : commandAllowed (beginLine s) c = true := commandAllowed_of_working (s := beginLine s) h c
  simp [takeLine, ha]

theorem portCommand_of_working {s : State} (hp : portReady s = true) (hw : working s = true)
    (c : PortCommand) :
    portCommand c s = done (respond (judgeCommand c (beginLine s)) (beginLine s)) := by
  rw [portCommand, if_pos hp, takeLine_of_working hw]

theorem touches_port (s : State) (x : Port) : changesOnly [.port] s { s with port := x } := by
  rintro (_ | _) hb
  case port => simp at hb
  all_goals rfl

/-! ## One source is cleared -/

/-- R190: what the alert unit keeps of a source that has just been cleared. -/
def clearedAlert (s : State) (x : AlertSource) : AlertState :=
  if isCondition x = true ∧ triggerOf s x = .level ∧ rawState s x = true then
    { alertOf s x with sticky := true, count := (alertOf s x).count + 1 }
  else { alertOf s x with sticky := false }

theorem clearSource_eq_setAlert (s : State) (x : AlertSource) :
    clearSource s x = setAlert x (clearedAlert s x) s := by
  simp only [clearSource, clearedAlert]
  split <;> rfl

@[simp] theorem alertOf_clearSource_self (s : State) (x : AlertSource) :
    alertOf (clearSource s x) x = clearedAlert s x := by
  rw [clearSource_eq_setAlert, alertOf_setAlert_self]

theorem alertOf_clearSource_ne (s : State) {x y : AlertSource} (h : y ≠ x) :
    alertOf (clearSource s x) y = alertOf s y := by
  rw [clearSource_eq_setAlert, alertOf_setAlert_ne _ _ h]

@[simp] theorem remembered_clearedAlert (s : State) (x : AlertSource) :
    (clearedAlert s x).remembered = (alertOf s x).remembered := by
  unfold clearedAlert
  split <;> rfl

/-- What a clear leaves of a source depends on nothing else the alert unit keeps. -/
theorem clearedAlert_putSources {s : State} {v : Tab AlertState 24} {x : AlertSource}
    (h : alertOf (putSources s v) x = alertOf s x) :
    clearedAlert (putSources s v) x = clearedAlert s x := by
  have hr : rawState (putSources s v) x = rawState s x :=
    rawState_congr (s := s) rfl rfl rfl rfl rfl rfl x
  have ht : triggerOf (putSources s v) x = triggerOf s x := triggerOf_congr (s := s) rfl x
  simp only [clearedAlert, h, hr, ht]

theorem clearedAlert_clearSource_ne (s : State) {x y : AlertSource} (h : y ≠ x) :
    clearedAlert (clearSource s x) y = clearedAlert s y := by
  have ha := alertOf_clearSource_ne s h
  rw [clearSource_eq] at ha ⊢
  exact clearedAlert_putSources ha

/-! ## A list of sources is cleared -/

theorem foldl_clearSource_put (l : List AlertSource) (s : State) :
    ∃ v, l.foldl clearSource s = putSources s v := by
  induction l generalizing s with
  | nil => exact ⟨s.alerts.sources, rfl⟩
  | cons x l ih =>
    obtain ⟨v, hv⟩ := ih (clearSource s x)
    exact ⟨v, by rw [List.foldl_cons, hv, clearSource_eq]; rfl⟩

theorem alertOf_foldl_clearSource_of_notMem (l : List AlertSource) (s : State) {y : AlertSource}
    (h : y ∉ l) : alertOf (l.foldl clearSource s) y = alertOf s y := by
  induction l generalizing s with
  | nil => rfl
  | cons x l ih =>
    obtain ⟨hx, hl⟩ := not_or.mp (mt List.mem_cons.mpr h)
    rw [List.foldl_cons, ih _ hl, alertOf_clearSource_ne s hx]

theorem alertOf_foldl_clearSource_of_mem {l : List AlertSource} (hn : l.Nodup) (s : State)
    {y : AlertSource} (h : y ∈ l) : alertOf (l.foldl clearSource s) y = clearedAlert s y := by
  induction l generalizing s with
  | nil => simp at h
  | cons x l ih =>
    obtain ⟨hx, hn⟩ := List.nodup_cons.mp hn
    rw [List.foldl_cons]
    rcases List.mem_cons.mp h with rfl | hy
    · rw [alertOf_foldl_clearSource_of_notMem l _ hx, alertOf_clearSource_self]
    · have hne : y ≠ x := fun e => hx (e ▸ hy)
      rw [ih hn _ hy, clearedAlert_clearSource_ne s hne]

theorem remembered_foldl_clearSource {l : List AlertSource} (hn : l.Nodup) (s : State)
    (y : AlertSource) :
    (alertOf (l.foldl clearSource s) y).remembered = (alertOf s y).remembered := by
  by_cases hy : y ∈ l
  · rw [alertOf_foldl_clearSource_of_mem hn s hy, remembered_clearedAlert]
  · rw [alertOf_foldl_clearSource_of_notMem l s hy]

/-! ## The command line that clears them -/

/-- The line is taken, the sources of a list are cleared, and OK is the response. -/
def cleared (l : List AlertSource) (s : State) : State :=
  respond (prints [] (l.foldl clearSource (beginLine s))) (beginLine s)

theorem alertOf_cleared_of_mem {l : List AlertSource} (hn : l.Nodup) (s : State) {y : AlertSource}
    (h : y ∈ l) : alertOf (cleared l s) y = clearedAlert s y :=
  alertOf_foldl_clearSource_of_mem hn (beginLine s) h

theorem alertOf_cleared_of_notMem (l : List AlertSource) (s : State) {y : AlertSource} (h : y ∉ l) :
    alertOf (cleared l s) y = alertOf s y :=
  alertOf_foldl_clearSource_of_notMem l (beginLine s) h

theorem remembered_cleared {l : List AlertSource} (hn : l.Nodup) (s : State) (y : AlertSource) :
    (alertOf (cleared l s) y).remembered = (alertOf s y).remembered :=
  remembered_foldl_clearSource hn (beginLine s) y

/-- The line is taken and OK is the response. -/
def answeredOk (s : State) : State := respond (prints [] (beginLine s)) (beginLine s)

theorem cleared_put (l : List AlertSource) (s : State) :
    ∃ v, cleared l s = putSources (answeredOk s) v := by
  obtain ⟨v, hv⟩ := foldl_clearSource_put l (beginLine s)
  exact ⟨v, by rw [cleared, hv]; rfl⟩

theorem cleared_port (l : List AlertSource) (s : State) :
    (cleared l s).port = (answeredOk s).port := by
  obtain ⟨v, hv⟩ := cleared_put l s
  rw [hv]
  rfl

theorem cleared_touches (l : List AlertSource) (s : State) :
    changesOnly [.port, .alerts] s (cleared l s) := by
  have hbegin : changesOnly [.port] s (beginLine s) := touches_port s _
  have hclear := clearSources_touches l (beginLine s)
  have hrespond : changesOnly [.port] (l.foldl clearSource (beginLine s)) (cleared l s) :=
    touches_port _ _
  exact changesOnly_trans (changesOnly_append hbegin hclear)
    (changesOnly_mono hrespond (by simp))

/-- A settled state in which only source states of the alert unit were replaced, with every remembered
raw as it was: no block differs and no source is to be taken, so the lines alone follow. -/
theorem settle_putSources {s : State} (h : settled s = true) (hw : working s = true)
    {v : Tab AlertState 24}
    (hv : ∀ y, (alertOf (putSources s v) y).remembered = (alertOf s y).remembered) :
    settle (putSources s v) = driveAlertLines (putSources s v) := by
  obtain ⟨hsigns, haspects, hlamps, -, -⟩ := settled_parts.mp h
  have htaken (y : AlertSource) (hy : isCondition y = true) :
      (alertOf (putSources s v) y).remembered = rawState (putSources s v) y := by
    rw [hv, remembered_of_settled h hw hy]
    exact (rawState_congr (s := s) rfl rfl rfl rfl rfl rfl y).symm
  rw [settle_takes (u := putSources s v) (x := .health) hw rfl hsigns haspects hlamps fun y hy _ => htaken y hy,
    takeRaw_id (htaken .health rfl)]

theorem settle_cleared {l : List AlertSource} (hn : l.Nodup) {s : State} (h : settled s = true)
    (hw : working s = true) : settle (cleared l s) = driveAlertLines (cleared l s) := by
  obtain ⟨v, hv⟩ := cleared_put l s
  have hrem := remembered_cleared hn s
  have hok : settled (answeredOk s) = true :=
    (settled_congr (s := s) rfl rfl rfl rfl rfl rfl rfl rfl rfl).trans h
  rw [hv] at hrem ⊢
  exact settle_putSources hok hw hrem

theorem driveAlertLines_touches (s : State) : changesOnly [.alerts] s (driveAlertLines s) :=
  touches_alerts s _

/-! ## CLEAR name and CLEAR ALL -/

theorem exec_clear_some {s : State} (hp : portReady s = true) (hw : working s = true)
    (x : AlertSource) : exec (.clear (some x)) s = done (cleared [x] s) :=
  portCommand_of_working hp hw (.clear (some x))

theorem exec_clearAll {s : State} (hp : portReady s = true) (hw : working s = true) :
    exec .clearAll s = done (cleared allSources s) :=
  portCommand_of_working hp hw .clearAll

theorem exec_clear_none {s : State} (hp : portReady s = true) (hw : working s = true) :
    exec (.clear none) s = done (respond (.error .badArg) (beginLine s)) :=
  portCommand_of_working hp hw (.clear none)

theorem allSources_nodup : allSources.Nodup := by decide

theorem mem_allSources (x : AlertSource) : x ∈ allSources := by cases x <;> decide

/-- Both commands clear a list that holds the named sources, each once. -/
theorem exec_clears {s : State} (hp : portReady s = true) (hw : working s = true) {c : Instr}
    {named : AlertSource → Prop}
    (h : (c = .clearAll ∧ ∀ y, named y) ∨ (∃ x, c = .clear (some x) ∧ ∀ y, named y ↔ y = x)) :
    ∃ l : List AlertSource, l.Nodup ∧ (∀ y, y ∈ l ↔ named y) ∧ exec c s = done (cleared l s) := by
  rcases h with ⟨rfl, hall⟩ | ⟨x, rfl, hone⟩
  · exact ⟨allSources, allSources_nodup, fun y => iff_of_true (mem_allSources y) (hall y),
      exec_clearAll hp hw⟩
  · exact ⟨[x], List.nodup_singleton x, fun y => List.mem_singleton.trans (hone y).symm,
      exec_clear_some hp hw x⟩

/-- Settles O56: both commands clear a list of sources, and after it only the alert lines follow; a
refused name writes the port alone, which leaves a settled state settled. -/
theorem clearTakesStickies : Obligations.ClearTakesStickies := by
  intro s hs hp hw answered
  refine ⟨fun c named hc => ?named, ?unknown⟩
  case named =>
    obtain ⟨l, hn, hl, hexec⟩ := exec_clears hp hw hc
    rw [done, settle_cleared hn hs hw] at hexec
    refine ⟨_, hexec, cleared_port l s, fun y hy => ?_, fun y hy => ?_, ?_⟩
    · exact alertOf_cleared_of_mem hn s ((hl y).mpr hy)
    · exact alertOf_cleared_of_notMem l s fun h => hy ((hl y).mp h)
    · exact changesOnly_trans (cleared_touches l s)
        (changesOnly_mono (driveAlertLines_touches _) (by simp))
  case unknown =>
    have hexec := exec_clear_none hp hw
    rw [done, settle_same (t := respond (.error .badArg) (beginLine s)) hs rfl rfl rfl rfl rfl rfl rfl rfl rfl] at hexec
    exact ⟨_, hexec, rfl, touches_port s _⟩

end Sys2Proof.Proofs
end

