-- ==== Sys2Proof/Proofs/Moves.lean ====
section
/-! PROOFS. What commands are made of. A move is one operation of one block, whole; every command is a
chain of moves (`exec_moves`), so a property every move keeps is kept by every step
(`step_keeps`). The operations of the entry controller stay whole, because the heads are only right
again at their end. -/

namespace Sys2Proof.Proofs

open Sys2Proof Sys2Proof.Machine

-- one declaration at a time: side by side they need a thread each
set_option Elab.async false

/-! ## The moves, block by block -/

/-- The parts of the state on which no size, head, range or aspect rests. -/
abbrev unreadBlocks : List Block :=
  [.clock, .pendingCause, .restartHold, .loader, .inputs, .probe, .nextSerial, .peers,
    .signs, .health, .counters]

/-- The alert unit takes an event or its condition sources (R187 to R189). -/
inductive AlertMove : State → State → Prop
  | raise (x : AlertSource) (s : State) : AlertMove s (raise x s)
  | takeConditions (s : State) : AlertMove s (takeConditions s)

/-- The line controller: a frame is queued, taken into flight or discarded (R61 to R65), a frame is
stored or its slot freed (R74, R75), or what is neither queue nor slots changes. -/
inductive LineMove : State → State → Prop
  | queueFrame (n : Notice) (s : State) : LineMove s (queueFrame n s)
  | takeIntoFlight (s : State) : LineMove s (takeIntoFlight s)
  | discardSightings (t : Tag) (s : State) : LineMove s (discardSightings t s)
  | other {s : State} {x : Line} (hq : x.queue = s.line.queue) (hs : x.slots = s.line.slots) :
      LineMove s { s with line := x }
  | store {s : State} (x : Stored) (h : s.line.slots.length < 2) :
      LineMove s { s with line.slots := s.line.slots ++ [x] }
  | free {s : State} {x : Stored} {rest : List Stored} (h : s.line.slots = x :: rest) :
      LineMove s { s with line.slots := rest }

/-- The entry controller, by whole operations (chapter 8). -/
inductive EntryMove : State → State → Prop
  | joinStopLine (r : Record) (s : State) : EntryMove s (joinStopLine r s)
  | crossing (l : Lane) (s : State) : EntryMove s (crossing l s)
  | runArbiter (s : State) : EntryMove s (runArbiter s)
  | departSpan (keep : SpanEntry → Bool) (s : State) : EntryMove s (departSpan keep s)
  | makeOverdue (t : Tag) (s : State) : EntryMove s (makeOverdue t s)
  | released {l : Lane} {s : State} {r : Record} {q : List Record} (w : Nat)
      (hh : (stopLine s l).head = .stop) (hq : (stopLine s l).queue = r :: q) :
      EntryMove s (becomeHeld l w s)
  | turnAway {l : Lane} {s : State} {held : Bool}
      (h : if held = true then (holdTime s l).isSome = true else (stopLine s l).head = .stop) :
      EntryMove s (turnAway l held s)
  | presence {l : Lane} {s : State} {x : StopLine} (hq : x.queue = (stopLine s l).queue)
      (hh : x.head = (stopLine s l).head) (ha : x.aspect = (stopLine s l).aspect)
      (hm : x.amber = (stopLine s l).amber) : EntryMove s (setStopLine l x s)
  | amberEnds {l : Lane} {s : State} (h : (stopLine s l).amber.isSome = true) :
      EntryMove s (setStopLine l { stopLine s l with aspect := some .red, amber := none } s)
  | other {s : State} {x : EntryController} (hl : x.lanes = s.entry.lanes)
      (hh : x.held = s.entry.held) (hp : x.span = s.entry.span) :
      EntryMove s { s with entry := x }

/-- The pairing units (R6, R10 to R13). Where `B` holds a lead joins a FIFO with room. -/
inductive PairingMove (B : Prop) : State → State → Prop
  | hold (l : Lane) (p : Pos) (x : Option HeldHit) (s : State) : PairingMove B s (setHold l p x s)
  | leads {l : Lane} {q : List PendingLead} {s : State}
      (h : q.length ≤ (s.pairing.at l).fifo.length) : PairingMove B s (setFifo l q s)
  | joins {l : Lane} {s : State} (x : PendingLead)
      (h : B → (s.pairing.at l).fifo.length < 6) :
      PairingMove B s (setFifo l ((s.pairing.at l).fifo ++ [x]) s)
  | speed (l : Lane) (a : Axle) (s : State) : PairingMove B s (appendSpeed l a s)

/-- The assemblers (R37, R39, R40). -/
inductive VehicleMove : State → State → Prop
  | opens (l : Lane) (a : Axle) (c : Bool) (s : State) : VehicleMove s (openVehicle l a c s)
  | joins {l : Lane} {v : OpenVehicle} {s : State} (a : Axle) (sp : Option Nat)
      (hv : s.vehicles.at l = some v) (h : v.axles.length < 12) :
      VehicleMove s (joinVehicle l v a sp s)
  | closes (l : Lane) (s : State) : VehicleMove s (setVehicle l none s)

/-- The trim unit (R159 to R164). -/
inductive TrimMove : State → State → Prop
  | offer (r : Record) (ref : Nat) (s : State) : TrimMove s (offerTrim r ref s)
  | apply (l : Lane) (s : State) : TrimMove s (applyTrim l s)

/-- The lamp unit (R121 to R127): an output that is off gets no timer. -/
inductive LampMove : State → State → Prop
  | output {o : Output} {x : LampOutput} {s : State} (ho : x.on = (outputOf s o).on)
      (h : x.on = false → x.blanking = (outputOf s o).blanking ∧
        (x.openTimer = none ∨ x.openTimer = (outputOf s o).openTimer)) :
      LampMove s (setOutput o x s)
  | resetGroup (l : Lane) (s : State) : LampMove s (resetGroup l s)
  | proving (s : State) (x : Tab (Option Clock) 4) : LampMove s { s with lamps.proving := x }

/-- R182: an accepted image has started every block but the entry controller and the minute timer. -/
def blocksBegun (img : List Byte) (s : State) : State :=
  startOutputs (startRows (startChannels (takeSample
    { s with
      cfg := readConfig img
      startup := .joining
      loader.status := .valid
      alerts := AlertUnit.afterReset
      peers.joinTimer := some (later s.clock 3000000) })))

/-- R142: the settle timers run for the presence inputs as they stand. -/
def presenceBegun (s : State) : State :=
  { s with entry.lanes := Tab.make 4 fun l =>
      if laneInUse s l then settleTimer s.clock (s.inputs.presence.at l) (stopLine s l)
      else stopLine s l }

/-- R129, R142: the entry controller has looked at its presence inputs and set its aspects. -/
def entryBegun (s : State) : State := startAspects (presenceBegun s)

/-- R182: an accepted image has started every block but the accounting mode and the minute timer. -/
def begun (img : List Byte) (s : State) : State :=
  if (readConfig img).entry then entryBegun (blocksBegun img s) else blocksBegun img s

/-- RESET_END: the store is written and the station enters LOADING (R180, R185). -/
def resetEnded (s : State) : State :=
  { s with
    startup := .loading
    restartHold := none
    store := s.store.atResetEnd s.pendingCause
    loader := { Loader.afterReset with requested := s.clock }
    port := Port.afterReset }

/-- The start-up state changes (chapter 11, R79). -/
inductive StartMove : State → State → Prop
  | reset (cause : ResetCause) (hold : Option Clock) (torn : Option (BitVec 16)) (s : State) :
      StartMove s (enterReset cause hold torn s)
  | load {s : State} (h : s.startup = .reset) : StartMove s (resetEnded s)
  | fault {s : State} (x : Loader) (h : s.startup = .loading) :
      StartMove s { s with startup := .fault, loader := x }
  | join {s : State} (img : List Byte) (h : s.startup = .loading) : StartMove s (begun img s)
  | run {s : State} (x : Peers) (h : s.startup = .joining) :
      StartMove s { s with startup := .running, peers := x }

/-- R187, R188: a working alert unit remembers every condition source as it stands. -/
def remembersAll (s : State) : Prop :=
  working s = true ∧ ∀ x, isCondition x = true → (alertOf s x).remembered = rawState s x

/-- One operation of one block. Where `C` holds a source is cleared once every condition is taken. -/
inductive Move (B C : Prop) : State → State → Prop
  | unread {s t : State} (h : changesOnly unreadBlocks s t) : Move B C s t
  | alert {s t : State} (h : AlertMove s t) : Move B C s t
  | line {s t : State} (h : LineMove s t) : Move B C s t
  | entry {s t : State} (h : EntryMove s t) : Move B C s t
  | pairing {s t : State} (h : PairingMove B s t) : Move B C s t
  | vehicle {s t : State} (h : VehicleMove s t) : Move B C s t
  | trim {s t : State} (h : TrimMove s t) : Move B C s t
  | lamp {s t : State} (h : LampMove s t) : Move B C s t
  | start {s t : State} (h : StartMove s t) : Move B C s t
  | channel {p : Strip} {c : Channel} {s : State}
      (h : (channelOf s p).state = .off → c.state = .off) : Move B C s (setChannel p c s)
  | approach {s : State} {x : Approach}
      (h : x.entries.length ≤ max 48 s.approach.entries.length) :
      Move B C s { s with approach := x }
  | port {s : State} {x : Port} (h : x.buffer.length ≤ max 64 s.port.buffer.length) :
      Move B C s { s with port := x }
  | clear {s : State} (x : AlertSource) (h : C → remembersAll s) : Move B C s (clearSource s x)
  | settle (s : State) : Move B C s (settle s)

/-- A chain of moves. -/
abbrev Moves (B C : Prop) : State → State → Prop := Relation.ReflTransGen (Move B C)

theorem Move.one {B C : Prop} {s t : State} (h : Move B C s t) : Moves B C s t := .single h

/-- What every move keeps, a chain of moves keeps. -/
theorem Moves.keeps {B C : Prop} {P : State → Prop} (h : ∀ {s t}, Move B C s t → P s → P t)
    {s t : State} (hm : Moves B C s t) (hs : P s) : P t := by
  induction hm with
  | refl => exact hs
  | tail _ hb ih => exact h hb ih

variable {B C : Prop}

/-! ## Operations that move one block -/

theorem moves_unread {l : List Block} {s t : State} (h : changesOnly l s t)
    (hl : l ⊆ unreadBlocks := by decide) : Moves B C s t := .single (.unread (changesOnly_mono h hl))

theorem moves_raise (x : AlertSource) (s : State) : Moves B C s (raise x s) :=
  .single (.alert (.raise x s))

theorem moves_takeConditions (s : State) : Moves B C s (takeConditions s) :=
  .single (.alert (.takeConditions s))

theorem moves_settle (s : State) : Moves B C s (settle s) := .single (.settle s)

theorem moves_counters (s : State) (x : Counters) : Moves B C s { s with counters := x } :=
  moves_unread (touches_counters s x)

theorem moves_countLane (l : Lane) (f : LaneCounts → LaneCounts) (s : State) :
    Moves B C s (countLane l f s) := moves_counters s _

theorem moves_peers (s : State) (x : Peers) : Moves B C s { s with peers := x } :=
  moves_unread (touches_peers s x)

theorem moves_health (s : State) (x : Health) : Moves B C s { s with health := x } :=
  moves_unread (touches_health s x)

theorem moves_setHealth (p : Strip) (h : StripHealth) (s : State) : Moves B C s (setHealth p h s) :=
  moves_health s _

theorem moves_line {s : State} {x : Line} (hq : x.queue = s.line.queue := by rfl)
    (hs : x.slots = s.line.slots := by rfl) : Moves B C s { s with line := x } :=
  .single (.line (.other hq hs))

theorem moves_countLine (f : LineCounts → LineCounts) (s : State) : Moves B C s (countLine f s) :=
  moves_line

theorem moves_lineIdle (n : Nat) (s : State) : Moves B C s (lineIdle n s) := moves_line

theorem moves_entry {s : State} {x : EntryController} (hl : x.lanes = s.entry.lanes := by rfl)
    (hh : x.held = s.entry.held := by rfl) (hp : x.span = s.entry.span := by rfl) :
    Moves B C s { s with entry := x } := .single (.entry (.other hl hh hp))

theorem moves_runArbiter (s : State) : Moves B C s (runArbiter s) := .single (.entry (.runArbiter s))

theorem moves_departSpan (keep : SpanEntry → Bool) (s : State) : Moves B C s (departSpan keep s) :=
  .single (.entry (.departSpan keep s))

theorem moves_if {p : Prop} [Decidable p] {s t : State} (h : p → Moves B C s t) :
    Moves B C s (if p then t else s) := by
  split
  next hp => exact h hp
  next => exact .refl

/-! ## The outbound queue -/

theorem moves_enqueue (n : Notice) (s : State) : Moves B C s (enqueue n s) :=
  .trans (.single (.line (.queueFrame n s))) (.single (.line (.takeIntoFlight _)))

theorem moves_finishFlight (s : State) : Moves B C s (finishFlight s) :=
  .trans moves_line (.single (.line (.takeIntoFlight _)))

/-! ## The peer table -/

theorem moves_judgeMode (s : State) : Moves B C s (judgeMode s) := by
  unfold judgeMode
  split
  · exact .trans moves_entry (moves_departSpan _ _)
  · exact moves_entry

theorem moves_recomputePosture (s : State) : Moves B C s (recomputePosture s) := by
  simp only [recomputePosture]
  repeat' split
  · exact .refl
  · exact .trans (.trans (moves_peers s _) (moves_takeConditions _)) (moves_runArbiter _)
  · exact .refl

theorem moves_goSilent (k : Station) (s : State) : Moves B C s (goSilent k s) :=
  .trans (.trans (.trans (moves_peers s _) (moves_raise _ _)) (moves_recomputePosture _))
    (moves_judgeMode _)

theorem moves_deliveryFailed (k : Station) (s : State) : Moves B C s (deliveryFailed k s) := by
  simp only [deliveryFailed]
  split
  · exact .trans (moves_peers s _) (moves_goSilent _ _)
  · exact moves_peers s _

theorem moves_handleBeacon (k : Station) (arrival : Clock) (b : BeaconBody) (s : State) :
    Moves B C s (handleBeacon k arrival b s) :=
  .trans (.trans (.trans (moves_peers s _) (moves_if fun _ => moves_raise _ _))
    (moves_if fun _ => moves_recomputePosture _)) (moves_judgeMode _)

theorem moves_endJoin {s : State} (h : s.startup = .joining) : Moves B C s (endJoin s) := by
  have hq : Moves B C s (queueFrame .beacon { s with peers.joinTimer := none }) :=
    .trans (moves_peers s _) (.single (.line (.queueFrame _ _)))
  have hs : (queueFrame .beacon { s with peers.joinTimer := none }).startup = .joining :=
    (queueFrame_touches .beacon { s with peers.joinTimer := none } .startup (by decide)).trans h
  have hrun : Moves B C s { queueFrame .beacon { s with peers.joinTimer := none } with
      peers.beaconTimer := some (later s.clock 500000), startup := .running } :=
    .trans hq (.single (.start (.run _ hs)))
  exact .trans (.trans (.trans hrun (moves_if fun _ => moves_entry)) (moves_recomputePosture _))
    (.single (.line (.takeIntoFlight _)))

/-! ## The approach list -/

theorem length_withoutTag_le (t : Tag) (l : List ApproachEntry) :
    (withoutTag t l).length ≤ l.length := List.length_filter_le _ _

@[simp] theorem length_replaceEntry (e : ApproachEntry) (l : List ApproachEntry) :
    (replaceEntry e l).length = l.length := List.length_map _

theorem moves_approach {s : State} {x : Approach}
    (h : x.entries.length ≤ s.approach.entries.length) : Moves B C s { s with approach := x } :=
  .single (.approach (le_max_of_le_right h))

theorem moves_setEntries {l : List ApproachEntry} {s : State}
    (h : l.length ≤ s.approach.entries.length) : Moves B C s (setEntries l s) := moves_approach h

theorem moves_countApproach (f : ApproachCounts → ApproachCounts) (s : State) :
    Moves B C s (countApproach f s) := moves_approach le_rfl

theorem moves_expireEntry (e : ApproachEntry) (s : State) : Moves B C s (expireEntry e s) := by
  exact .trans (.trans (moves_setEntries (length_withoutTag_le e.tag _)) (moves_countApproach _ _))
    (moves_if fun _ => moves_countLane _ _ _)

theorem moves_updateEntry (e : ApproachEntry) (a : Announcement) (s : State) :
    Moves B C s (updateEntry e a s) :=
  .trans (.trans (moves_setEntries (length_replaceEntry (updatedEntry s e a) _).le)
    (moves_countApproach _ _)) (moves_if fun _ => moves_expireEntry _ _)

/-- R97, R98: the list once an entry is created: at a full list the oldest entry has left. -/
def entriesWith (s : State) (e : ApproachEntry) : List ApproachEntry :=
  (if s.approach.entries.length < 48 then s.approach.entries else s.approach.entries.tail) ++ [e]

theorem length_entriesWith_le (s : State) (e : ApproachEntry) :
    (entriesWith s e).length ≤ max 48 s.approach.entries.length := by
  unfold entriesWith
  split <;> simp <;> omega

/-- Raising an event and writing the approach list do not see each other. -/
theorem raise_setApproach (x : AlertSource) (a : Approach) (s : State) :
    raise x { s with approach := a } = { raise x s with approach := a } := by
  unfold raise
  rw [working_congr (s := s) (t := { s with approach := a }) rfl]
  split <;> rfl

theorem createEntry_of_full (a : Announcement) {s : State}
    (h : atOrAfter s.clock (announcedWindow s a a.speed).2 = false)
    (hlen : ¬s.approach.entries.length < 48) :
    createEntry a s =
      raise .approachEvict
        { s with approach :=
            { entries := entriesWith s (newEntry s a)
              counts :=
                { s.approach.counts with
                  created := s.approach.counts.created + 1
                  evicted := s.approach.counts.evicted + 1 } } } := by
  have he : evictOldest s = { raise .approachEvict s with
      approach :=
        { entries := s.approach.entries.tail
          counts := { s.approach.counts with evicted := s.approach.counts.evicted + 1 } } } := by
    rw [evictOldest, if_neg hlen, ← raise_setApproach]
    rfl
  rw [raise_setApproach, createEntry, h, if_neg Bool.false_ne_true, he, entriesWith, if_neg hlen]
  rfl

theorem createEntry_of_room (a : Announcement) {s : State}
    (h : atOrAfter s.clock (announcedWindow s a a.speed).2 = false)
    (hlen : s.approach.entries.length < 48) :
    createEntry a s =
      { s with approach :=
          { entries := entriesWith s (newEntry s a)
            counts := { s.approach.counts with created := s.approach.counts.created + 1 } } } := by
  have he : evictOldest s = s := if_pos hlen
  rw [createEntry, h, if_neg Bool.false_ne_true, he, entriesWith, if_pos hlen]
  rfl

theorem createEntry_of_late (a : Announcement) {s : State}
    (h : atOrAfter s.clock (announcedWindow s a a.speed).2 = true) :
    createEntry a s = countApproach (fun c => { c with late := c.late + 1 }) s := if_pos h

theorem moves_createEntry (a : Announcement) (s : State) : Moves B C s (createEntry a s) := by
  have hentry (c : ApproachCounts) : Moves B C s { s with approach :=
      { entries := entriesWith s (newEntry s a), counts := c } } :=
    .single (.approach (length_entriesWith_le s (newEntry s a)))
  cases h : atOrAfter s.clock (announcedWindow s a a.speed).2 with
  | true => exact createEntry_of_late a h ▸ moves_countApproach _ s
  | false =>
    by_cases hlen : s.approach.entries.length < 48
    · exact createEntry_of_room a h hlen ▸ hentry _
    · exact createEntry_of_full a h hlen ▸ .trans (hentry _) (moves_raise _ _)

theorem moves_takeAnnouncement (a : Announcement) (s : State) :
    Moves B C s (takeAnnouncement a s) := by
  unfold takeAnnouncement
  split
  · exact moves_countApproach _ _
  split
  · exact .trans (moves_countApproach _ _) (moves_raise _ _)
  split
  · split
    · exact .trans (moves_setEntries (length_withoutTag_le a.tag _)) (moves_countApproach _ _)
    · exact .refl
  split
  · exact moves_countApproach _ _
  split
  · exact moves_updateEntry _ _ _
  · exact moves_createEntry _ _

theorem moves_handleLeft (t : Tag) (s : State) : Moves B C s (handleLeft t s) := by
  unfold handleLeft
  split
  · exact moves_departSpan _ _
  · exact moves_entry

theorem moves_handleNotice (x : Stored) (s : State) : Moves B C s (handleNotice x s) := by
  unfold handleNotice
  split
  · exact .refl
  · exact moves_handleBeacon _ _ _ s
  · exact moves_takeAnnouncement _ _
  · exact .trans (moves_takeAnnouncement _ _)
      (moves_if fun _ => .single (.line (.discardSightings _ _)))
  · exact moves_if fun _ => moves_takeAnnouncement _ _
  · exact moves_if fun _ => moves_handleLeft _ _

/-! ## Vehicles and axles -/

theorem moves_matchOrTag (r : Record) (s : State) : Moves B C s (matchOrTag r s).2.2 := by
  unfold matchOrTag
  split
  next e _ => exact moves_approach (s := s) (length_withoutTag_le e.tag s.approach.entries)
  · exact moves_unread (touches_nextSerial s _)

theorem moves_joinStopLine (r : Record) (s : State) : Moves B C s (joinStopLine r s) :=
  .single (.entry (.joinStopLine r s))

theorem moves_handOnLight (r : Record) (s : State) : Moves B C s (handOnLight r s) := by
  simp only [handOnLight]
  split
  · exact .trans (moves_countLane _ _ s) (moves_joinStopLine _ _)
  · exact moves_countLane _ _ s

theorem moves_queueLeft (r : Record) (t : Tag) (s : State) : Moves B C s (queueLeft r t s) :=
  moves_if fun _ => moves_enqueue _ _

theorem moves_handOnHeavy (r : Record) (s : State) : Moves B C s (handOnHeavy r s) := by
  have hdivert : Moves B C s
      (divertRecord (matchOrTag r s).1 (matchOrTag r s).2.1 (matchOrTag r s).2.2).2 :=
    .trans (moves_matchOrTag r s) (moves_unread (divertRecord_touches _ _ _))
  have hjoin (x : Record) (t : State) : Moves B C t (if t.cfg.entry then joinStopLine x t else t) :=
    moves_if fun _ => moves_joinStopLine _ _
  have hnotices (x : Record) (m : Bool) (t : State) : Moves B C t (match x.tag with
      | some g => queueWeighing x g m (queueLeft x g t)
      | none => t) := by
    split
    · exact .trans (moves_queueLeft _ _ _) (moves_enqueue _ _)
    · exact .refl
  have htrim (x : Record) (t : State) : Moves B C t (match x.reference with
      | some ref => offerTrim x ref t
      | none => t) := by
    split
    · exact .single (.trim (.offer _ _ _))
    · exact .refl
  exact .trans (.trans (.trans (.trans hdivert (hjoin _ _)) (hnotices _ _ _)) (htrim _ _))
    (moves_countLane _ _ _)

theorem moves_closeVehicle (l : Lane) (overlong : Bool) (s : State) :
    Moves B C s (closeVehicle l overlong s) := by
  unfold closeVehicle
  split
  · exact .refl
  · refine .trans (b := setVehicle l none s) (.single (.vehicle (.closes l s))) ?_
    dsimp only
    split
    · exact moves_handOnHeavy _ _
    · exact moves_handOnLight _ _

theorem moves_assemble (l : Lane) (a : Axle) (s : State) : Moves B C s (assemble l a s) := by
  simp only [assemble]
  split
  · exact .single (.vehicle (.opens _ _ _ _))
  next v hv =>
    split
    · exact .trans (moves_closeVehicle _ _ _) (.single (.vehicle (.opens _ _ _ _)))
    split
    · exact .trans (moves_closeVehicle _ _ _) (.single (.vehicle (.opens _ _ _ _)))
    next hlen => exact .single (.vehicle (.joins _ _ hv (by omega)))

theorem moves_axleFormed (a : Axle) (s : State) : Moves B C s (axleFormed a s) :=
  .trans (moves_counters s _) (moves_assemble _ _ _)

/-! ## Strip health -/

theorem moves_hardEvent (p : Strip) (c : HardCause) (s : State) : Moves B C s (hardEvent p c s) :=
  .trans (moves_health s _) (moves_takeConditions _)

theorem moves_softEvent (p : Strip) (s : State) : Moves B C s (softEvent p s) :=
  moves_setHealth _ _ s

theorem moves_advanceSilence (p : Strip) (s : State) : Moves B C s (advanceSilence p s) := by
  simp only [advanceSilence]
  split
  · exact .trans (moves_setHealth _ _ _) (moves_hardEvent _ _ _)
  · exact moves_setHealth _ _ _

theorem moves_blame (p : Strip) (s : State) : Moves B C s (blame p s) :=
  .trans (moves_softEvent p s) (moves_advanceSilence _ _)

theorem moves_advanceClip (p : Strip) (clipped : Bool) (s : State) :
    Moves B C s (advanceClip p clipped s) := by
  simp only [advanceClip]
  repeat' split
  · exact .trans (.trans (moves_softEvent _ _) (moves_setHealth _ _ _)) (moves_hardEvent _ _ _)
  · exact .trans (moves_softEvent _ _) (moves_setHealth _ _ _)
  · exact moves_setHealth _ _ _

theorem moves_monitorHit (p : Strip) (clipped : Bool) (s : State) :
    Moves B C s (monitorHit p clipped s) :=
  .trans (moves_setHealth _ _ s) (moves_advanceClip _ _ _)

theorem moves_restoreStrip (p : Strip) (s : State) : Moves B C s (restoreStrip p s) :=
  .trans (moves_health s _) (moves_takeConditions _)

/-! ## Pairing -/

/-- R10: every FIFO holds at most 6 leads. -/
def fifosBounded (s : State) : Prop := ∀ l, (s.pairing.at l).fifo.length ≤ 6

/-- Forming an axle and blaming a strip leave the pairing units alone. -/
@[simp] theorem expireLead_pairing (l : Lane) (x : PendingLead) (s : State) :
    (expireLead l x s).pairing = s.pairing :=
  (blame_touches _ _ .pairing (by decide)).trans (axleFormed_touches _ s .pairing (by decide))

@[simp] theorem fifo_setFifo_self (l : Lane) (q : List PendingLead) (s : State) :
    ((setFifo l q s).pairing.at l).fifo = q := by simp [setFifo, setPairing]

theorem fifo_setHold (l k : Lane) (p : Pos) (x : Option HeldHit) (s : State) :
    ((setHold l p x s).pairing.at k).fifo = (s.pairing.at k).fifo := by
  cases p <;> simp only [setHold, setPairing, Tab.at_put] <;> split <;> simp_all

theorem fifosBounded_setHold {s : State} (h : fifosBounded s) (l : Lane) (p : Pos)
    (x : Option HeldHit) : fifosBounded (setHold l p x s) := by
  intro k
  rw [fifo_setHold]
  exact h k

/-- R10: once room is made, a FIFO that kept to 6 leads holds at most 5. -/
theorem fifo_makeRoom_lt {s : State} (h : fifosBounded s) (l : Lane) :
    ((makeRoom l s).pairing.at l).fifo.length < 6 := by
  have hl := h l
  unfold makeRoom
  split
  next he => simp [he]
  next x rest he =>
    rw [he, List.length_cons] at hl
    split
    · rw [expireLead_pairing, fifo_setFifo_self]; omega
    · rw [he, List.length_cons]; omega

theorem moves_expireLead (l : Lane) (x : PendingLead) (s : State) : Moves B C s (expireLead l x s) :=
  .trans (moves_axleFormed _ s) (moves_blame _ _)

theorem moves_makeRoom (l : Lane) (s : State) : Moves B C s (makeRoom l s) := by
  unfold makeRoom
  split
  · exact .refl
  next x rest he =>
    exact moves_if fun _ => .trans (.single (.pairing (.leads (by simp [he]))))
      (moves_expireLead _ _ _)

theorem moves_leadArrives (h : Hit) {s : State} (hb : B → fifosBounded s) :
    Moves B C s (leadArrives h s) := by
  simp only [leadArrives]
  split
  · exact moves_expireLead _ _ _
  · exact .trans (moves_makeRoom _ _)
      (.single (.pairing (.joins _ fun b => fifo_makeRoom_lt (hb b) _)))

theorem moves_trailArrives (h : Hit) (s : State) : Moves B C s (trailArrives h s) := by
  simp only [trailArrives]
  split
  · exact moves_blame _ _
  next x rest he =>
    split
    · exact .trans (.trans (.single (.pairing (.leads (by simp [he])))) (moves_axleFormed _ _))
        (.single (.pairing (.speed _ _ _)))
    · exact moves_blame _ _

theorem moves_hitLeaves (h : Hit) {s : State} (hb : B → fifosBounded s) :
    Moves B C s (hitLeaves h s) := by
  unfold hitLeaves
  split
  · exact moves_leadArrives h hb
  · exact moves_trailArrives h s
  · exact moves_axleFormed _ _
  · exact .refl

theorem moves_setHold (l : Lane) (p : Pos) (x : Option HeldHit) (s : State) :
    Moves B C s (setHold l p x s) := .single (.pairing (.hold l p x s))

theorem moves_releaseHold (l : Lane) (p : Pos) {s : State} (hb : B → fifosBounded s) :
    Moves B C s (releaseHold l p s) := by
  unfold releaseHold
  split
  · exact .trans (moves_setHold _ _ _ _)
      (moves_hitLeaves _ fun b => fifosBounded_setHold (hb b) _ _ _)
  · exact .refl

theorem moves_deliverHit (r : HitReport) {s : State} (hb : B → fifosBounded s) :
    Moves B C s (deliverHit r s) := by
  unfold deliverHit
  split
  · exact .refl
  simp only [enterHold]
  split
  · exact .trans (moves_setHold _ _ _ _)
      (moves_hitLeaves _ fun b => fifosBounded_setHold (hb b) _ _ _)
  · exact .trans (moves_releaseHold _ _ hb) (moves_setHold _ _ _ _)

theorem moves_reportHit (r : HitReport) {s : State} (hb : B → fifosBounded s) :
    Moves B C s (reportHit r s) := by
  unfold reportHit
  split
  · exact .single (.channel id)
  · exact .trans (moves_deliverHit r hb) (moves_monitorHit _ _ _)

/-! ## The corridor line -/

theorem moves_failFlight (f : Flight) (s : State) : Moves B C s (failFlight f s) := by
  simp only [failFlight]
  have hfail : Moves B C s
      (raise .deliveryFail (countLine (fun c => { c with failures := c.failures + 1 }) s)) :=
    .trans (moves_countLine _ _) (moves_raise _ _)
  split
  · exact .trans (.trans hfail (moves_deliveryFailed _ _)) (moves_finishFlight _)
  · exact .trans hfail (moves_finishFlight _)

theorem moves_badFrameFound (found : BadFrame) (s : State) : Moves B C s (badFrameFound found s) :=
  moves_line (s := s)

theorem moves_oweReceipt (f : Frame) (s : State) : Moves B C s (oweReceipt f s) :=
  moves_if fun _ => moves_line

theorem moves_takeReceipt (sender : Station) (x y z : Byte) (s : State) :
    Moves B C s (takeReceipt sender x y z s) := by
  unfold takeReceipt
  split
  · exact moves_if fun _ => .trans (.trans (moves_peers s _) moves_line) (moves_finishFlight _)
  · exact .refl

theorem moves_storeFrame (f : Frame) (s : State) : Moves B C s (storeFrame f s) := by
  unfold storeFrame
  split
  next h => exact .trans (.trans (.single (.line (.store _ h))) (moves_peers _ _)) (moves_oweReceipt _ _)
  · exact .trans (moves_line (s := s)) (moves_raise _ _)

theorem moves_routeFrame (f : Frame) (s : State) : Moves B C s (routeFrame f s) := by
  unfold routeFrame
  split
  · exact moves_raise _ _
  split
  · exact moves_takeReceipt _ _ _ _ _
  split
  · exact .trans (moves_line (s := s)) (moves_oweReceipt _ _)
  · exact moves_storeFrame _ _

theorem moves_receiveBytes (bytes : List Byte) (s : State) : Moves B C s (receiveBytes bytes s) := by
  unfold receiveBytes
  split
  · exact moves_badFrameFound _ _
  split
  · exact moves_line (s := s)
  · exact .trans (moves_line (s := s)) (moves_routeFrame _ _)

/-! ## Loading -/

theorem acceptImage_eq (img : List Byte) (s : State) :
    acceptImage img s =
      startMinute (if (readConfig img).entry then judgeMode (begun img s) else begun img s) := by
  change startMinute (if (readConfig img).entry then judgeMode (entryBegun (blocksBegun img s))
    else blocksBegun img s) = _
  unfold begun
  split <;> rfl

theorem moves_acceptImage (img : List Byte) {s : State} (h : s.startup = .loading) :
    Moves B C s (acceptImage img s) := by
  rw [acceptImage_eq]
  exact .trans (.trans (.single (.start (.join img h))) (moves_if fun _ => moves_judgeMode _))
    (moves_counters _ _)

theorem touches_loader (s : State) (x : Loader) : changesOnly [.loader] s { s with loader := x } := by
  intro b hb; cases b <;> first | rfl | simp at hb

theorem moves_judgeImage (img : List Byte) {s : State} (h : s.startup = .loading) :
    Moves B C s (judgeImage img s) := by
  refine .trans (b := { s with loader.image := img }) (moves_unread (touches_loader s _)) ?_
  simp only [judgeImage]
  split
  · split
    · exact moves_unread (touches_loader { s with loader.image := img } _)
    · exact .single (.start (.fault _ h))
  · split
    · exact .single (.start (.fault _ h))
    · exact moves_acceptImage img h

/-! ## The maintenance port -/

theorem moves_port {s : State} {x : Port} (h : x.buffer.length ≤ max 64 s.port.buffer.length) :
    Moves B C s { s with port := x } := .single (.port h)

theorem remembersAll_clearSource {s : State} (x : AlertSource) (h : remembersAll s) :
    remembersAll (clearSource s x) := by
  have hraw (y : AlertSource) : rawState (clearSource s x) y = rawState s y := by
    rw [clearSource_eq]
    exact rawState_congr (s := s) rfl rfl rfl rfl rfl rfl y
  refine ⟨(working_congr (by rw [clearSource_eq])).trans h.1, fun y hy => ?_⟩
  rw [hraw, ← h.2 y hy]
  by_cases hxy : y = x
  · rw [hxy, alertOf_clearSource_self, remembered_clearedAlert]
  · rw [alertOf_clearSource_ne s hxy]

theorem moves_foldl_clearSource (l : List AlertSource) {s : State} (hc : C → remembersAll s) :
    Moves B C s (l.foldl clearSource s) := by
  induction l generalizing s with
  | nil => exact .refl
  | cons x l ih => exact .trans (.single (.clear x hc)) (ih fun c => remembersAll_clearSource x (hc c))

/-- The state a judged command leaves is reached by moves. -/
def judgedMoves (B C : Prop) (s : State) (j : Judged) : Prop :=
  ∀ records t, j = .ok (records, t) → Moves B C s t

theorem judgedMoves_error (s : State) (e : ErrorCode) : judgedMoves B C s (.error e) := by
  rintro _ _ ⟨⟩

theorem judgedMoves_prints {s t : State} {records : List PrintedRecord} (h : Moves B C s t) :
    judgedMoves B C s (prints records t) := by
  rintro _ _ ⟨⟩
  exact h

theorem judgedMoves_if {s : State} {j : Judged} {e : ErrorCode} {p : Prop} [Decidable p]
    (h : p → judgedMoves B C s j) : judgedMoves B C s (if p then j else .error e) := by
  split
  next hp => exact h hp
  next => exact judgedMoves_error s e

theorem judgedMoves_releaseAdmit (n : Nat) (s : State) :
    judgedMoves B C s (judgeReleaseAdmit n s) := by
  refine judgedMoves_if fun _ => ?_
  split
  · exact judgedMoves_error _ _
  split
  next hh hq =>
    exact judgedMoves_prints (.trans (.single (.entry (.released _ hh hq))) (moves_runArbiter _))
  · exact judgedMoves_error _ _

theorem judgedMoves_releaseRemove (n : Nat) (s : State) :
    judgedMoves B C s (judgeReleaseRemove n s) := by
  refine judgedMoves_if fun _ => ?_
  split
  · exact judgedMoves_error _ _
  split
  next hh => exact judgedMoves_prints (.single (.entry (.turnAway (by simp [holdTime, hh]))))
  next hh => exact judgedMoves_prints (.single (.entry (.turnAway (by simp [hh]))))
  · exact judgedMoves_error _ _

theorem judgedMoves_forget (tag : Option Tag) (s : State) : judgedMoves B C s (judgeForget tag s) := by
  refine judgedMoves_if fun _ => ?_
  cases tag with
  | none => exact judgedMoves_error _ _
  | some t =>
    exact judgedMoves_if fun _ => judgedMoves_prints (.trans (moves_entry (s := s)) (moves_departSpan _ _))

theorem judgedMoves_healthStep (s : State) : judgedMoves B C s (judgeHealthStep s) := by
  unfold judgeHealthStep
  repeat' split
  all_goals exact judgedMoves_prints (moves_health s _)

/-- R186: a command that is never early is accepted in JOINING and RUNNING only. -/
theorem working_of_commandAllowed {s : State} {c : PortCommand} (h : commandAllowed s c = true)
    (hn : earlyOf c = .never) : working s = true := by
  unfold commandAllowed at h
  unfold working
  split at h <;> simp_all

theorem judgeCommand_moves (c : PortCommand) {s : State} (hc : C → working s = true → remembersAll s)
    (ha : commandAllowed s c = true) : judgedMoves B C s (judgeCommand c s) := by
  have hclear (hn : earlyOf c = .never) (h : C) : remembersAll s :=
    hc h (working_of_commandAllowed ha hn)
  cases c with
  | unknown => exact judgedMoves_error _ _
  | wrong => exact judgedMoves_if fun _ => judgedMoves_error s _
  | status | config | peers | approach | alerts | counts | health | trim =>
    exact judgedMoves_prints .refl
  | span => exact judgedMoves_if fun _ => judgedMoves_prints .refl
  | clearAll => exact judgedMoves_prints (moves_foldl_clearSource _ (hclear rfl))
  | healthStep => exact judgedMoves_healthStep s
  | restart => exact judgedMoves_prints (moves_port (le_max_right _ _))
  | queue n =>
    refine judgedMoves_if fun _ => ?_
    split
    · exact judgedMoves_prints .refl
    · exact judgedMoves_error _ _
  | clear x =>
    cases x with
    | none => exact judgedMoves_error _ _
    | some x => exact judgedMoves_prints (.single (.clear x (hclear rfl)))
  | releaseAdmit n => exact judgedMoves_releaseAdmit n s
  | releaseRemove n => exact judgedMoves_releaseRemove n s
  | forget t => exact judgedMoves_forget t s
  | lampReset n =>
    refine judgedMoves_if fun _ => ?_
    split
    · exact judgedMoves_prints (.single (.lamp (.resetGroup _ _)))
    · exact judgedMoves_error _ _
  | stripRestore p =>
    cases p with
    | none => exact judgedMoves_error _ _
    | some p =>
      exact judgedMoves_if fun _ => judgedMoves_if fun _ =>
        judgedMoves_prints (moves_restoreStrip p s)

theorem moves_takeLine (garbled : Bool) (c : PortCommand) {s : State}
    (hc : C → working s = true → remembersAll s) :
    Moves B C s (takeLine garbled c s) := by
  simp only [takeLine]
  refine .trans (b := beginLine s) (moves_port (s := s) (by simp)) ?_
  have hj : judgedMoves B C (beginLine s) (if garbled then .error .badCmd
      else if commandAllowed (beginLine s) c then judgeCommand c (beginLine s)
      else .error .state) := by
    split
    · exact judgedMoves_error _ _
    · exact judgedMoves_if fun ha => judgeCommand_moves c (s := beginLine s) hc ha
  generalize (if garbled then .error .badCmd
      else if commandAllowed (beginLine s) c then judgeCommand c (beginLine s)
      else .error .state : Judged) = j at hj
  match j with
  | .ok (records, t) => exact .trans (hj records t rfl) (moves_port (le_max_right _ _))
  | .error e => exact moves_port (le_max_right _ _)

theorem moves_collectChar (c : Byte) {s : State} (hc : C → working s = true → remembersAll s) :
    Moves B C s (collectChar c s) := by
  simp only [collectChar, endLine, storeChar]
  split
  · split
    · exact moves_port (s := s) (by simp)
    · exact moves_takeLine _ _ hc
  split
  · exact moves_port (s := s) (by simp only [List.length_dropLast]; omega)
  split
  · split
    · exact moves_port (s := s) (by simp)
    next h => exact moves_port (s := s) (by simp only [List.length_append, List.length_singleton]; omega)
  · exact .refl

theorem moves_takeChar (c : Byte) (framingError : Bool) {s : State}
    (hc : C → working s = true → remembersAll s) :
    Moves B C s (takeChar c framingError s) := by
  simp only [takeChar, longLine]
  split
  · split
    · exact moves_port (le_max_right _ _)
    · exact moves_collectChar c hc
  · split
    · exact .refl
    · exact moves_if fun _ => moves_port (s := s) (le_max_right _ _)
  · exact moves_port (s := s) (le_max_right _ _)

/-! ## Every command -/

/-- A result leaves the state as it is, or settles a state that moves lead to. -/
def resultMoves (B C : Prop) (s : State) (r : Result) : Prop :=
  r = .next s ∨ ∃ u, Moves B C s u ∧ r = done u

theorem resultMoves_noEvent (s : State) : resultMoves B C s (noEvent s) := .inl rfl

theorem resultMoves_done {s u : State} (h : Moves B C s u) : resultMoves B C s (done u) :=
  .inr ⟨u, h, rfl⟩

/-- An event that takes place under a condition, and otherwise not at all. -/
theorem resultMoves_when {s u : State} {p : Prop} [Decidable p] (h : p → Moves B C s u) :
    resultMoves B C s (if p then done u else noEvent s) := by
  split
  next hp => exact resultMoves_done (h hp)
  next => exact resultMoves_noEvent s

theorem portCommand_moves (c : PortCommand) {s : State}
    (hc : C → working s = true → remembersAll s) : resultMoves B C s (portCommand c s) :=
  resultMoves_when fun _ => moves_takeLine false c hc

/-! ### Strips and vehicles -/

theorem touches_inputs (s : State) (x : Inputs) : changesOnly [.inputs] s { s with inputs := x } := by
  intro b hb; cases b <;> first | rfl | simp at hb

theorem moves_setSignal (p : Strip) (b : Bool) (s : State) : Moves B C s (setSignal p b s) :=
  moves_unread (touches_inputs s _)

theorem execSignalBelowTrigger_moves (p : Strip) (s : State) :
    resultMoves B C s (execSignalBelowTrigger p s) := by
  unfold execSignalBelowTrigger
  split
  next h =>
    exact resultMoves_done (.trans (moves_setSignal p _ s) (.single (.channel fun ho => by
      change (channelOf s p).state = _ at ho
      simp [h] at ho)))
  · exact resultMoves_done (moves_setSignal p _ s)
  · exact resultMoves_noEvent s
  · exact resultMoves_noEvent s

theorem execPulseStart_moves (p : Strip) (s : State) : resultMoves B C s (execPulseStart p s) := by
  unfold execPulseStart
  split
  next h =>
    exact resultMoves_done (.trans (moves_setSignal p _ s) (.single (.channel fun ho => by
      change (channelOf s p).state = _ at ho
      simp [h] at ho)))
  · exact resultMoves_done (moves_setSignal p _ s)
  · exact resultMoves_noEvent s
  · exact resultMoves_noEvent s

theorem execPulseEnd_moves (p : Strip) (l : List Sample) {s : State} (hb : B → fifosBounded s) :
    resultMoves B C s (execPulseEnd p l s) :=
  resultMoves_when fun h => .trans (.trans (moves_setSignal p false s)
    (.single (.channel fun ho => by
      change (channelOf s p).state = _ at ho
      simp [h.1] at ho))) (moves_reportHit _ hb)

theorem execStuckReport_moves (p : Strip) (s : State) : resultMoves B C s (execStuckReport p s) :=
  resultMoves_when fun h => .trans (.single (.channel fun ho => by simp [h.1] at ho))
    (moves_hardEvent _ _ _)

theorem execCoincidenceTimerExpiry_moves (l : Lane) (p : Pos) {s : State}
    (hb : B → fifosBounded s) : resultMoves B C s (execCoincidenceTimerExpiry l p s) := by
  unfold execCoincidenceTimerExpiry
  split
  · exact resultMoves_when fun _ => moves_releaseHold l p hb
  · exact resultMoves_noEvent s

theorem execLeadExpiry_moves (l : Lane) (index : Nat) (s : State) :
    resultMoves B C s (execLeadExpiry l index s) := by
  unfold execLeadExpiry
  split
  · exact resultMoves_when fun _ => .trans
      (.single (.pairing (.leads (List.length_eraseIdx_le _ _)))) (moves_expireLead l _ _)
  · exact resultMoves_noEvent s

theorem execCloseTimerExpiry_moves (l : Lane) (s : State) :
    resultMoves B C s (execCloseTimerExpiry l s) := by
  unfold execCloseTimerExpiry
  split
  · exact resultMoves_when fun _ => .trans (moves_closeVehicle l false s)
      (.single (.trim (.apply l _)))
  · exact resultMoves_noEvent s

/-! ### The corridor line -/

theorem execContentionIdleReached_moves (s : State) :
    resultMoves B C s (execContentionIdleReached s) := by
  unfold execContentionIdleReached
  split
  · exact resultMoves_when fun _ => moves_line
  · exact resultMoves_noEvent s

theorem execCollision_moves (s : State) : resultMoves B C s (execCollision s) := by
  unfold execCollision
  split
  · split
    · dsimp only
      split
      · exact resultMoves_done (.trans (.trans (.trans (moves_lineIdle 0 s) (moves_countLine _ _))
          (moves_raise _ _)) (moves_finishFlight _))
      · exact resultMoves_done (.trans (.trans (moves_lineIdle 0 s) (moves_countLine _ _))
          (moves_line))
    · exact resultMoves_noEvent s
  · exact resultMoves_noEvent s

theorem execAttemptEnd_moves (s : State) : resultMoves B C s (execAttemptEnd s) := by
  unfold execAttemptEnd
  split
  · split
    · dsimp only
      split
      · exact resultMoves_done (.trans (moves_lineIdle 0 s) (moves_finishFlight _))
      · exact resultMoves_done (.trans (moves_lineIdle 0 s) moves_line)
    · exact resultMoves_noEvent s
  · exact resultMoves_noEvent s

theorem execReceiptWaitExpiry_moves (s : State) : resultMoves B C s (execReceiptWaitExpiry s) := by
  unfold execReceiptWaitExpiry
  split
  · split
    · split
      · exact resultMoves_done (.trans (moves_line (s := s)) (moves_countLine _ _))
      · exact resultMoves_done (moves_failFlight _ s)
    · exact resultMoves_noEvent s
  · exact resultMoves_noEvent s

theorem execBadFrame_moves (found : BadFrame) (s : State) :
    resultMoves B C s (execBadFrame found s) := by
  refine resultMoves_when fun _ => ?_
  split
  · exact moves_badFrameFound _ _
  · exact moves_lineIdle _ _

theorem execFrameReceived_moves (bytes : List Byte) (s : State) :
    resultMoves B C s (execFrameReceived bytes s) := by
  refine resultMoves_when fun _ => ?_
  split
  · exact moves_receiveBytes _ _
  · exact moves_lineIdle _ _

theorem execReceiptStart_moves (s : State) : resultMoves B C s (execReceiptStart s) := by
  unfold execReceiptStart
  split
  · exact resultMoves_when fun _ => moves_line
  · exact resultMoves_noEvent s

theorem execNoticeHandlingComplete_moves (s : State) :
    resultMoves B C s (execNoticeHandlingComplete s) := by
  unfold execNoticeHandlingComplete
  split
  next h => exact resultMoves_done (.trans (.single (.line (.free h))) (moves_handleNotice _ _))
  · exact resultMoves_noEvent s

/-! ### Timed events -/

theorem execBeaconTimerExpiry_moves (s : State) : resultMoves B C s (execBeaconTimerExpiry s) :=
  resultMoves_when fun _ => .trans (moves_peers s _) (moves_enqueue _ _)

theorem execWindowCloseExpiry_moves (t : Tag) (s : State) :
    resultMoves B C s (execWindowCloseExpiry t s) := by
  unfold execWindowCloseExpiry
  split
  · exact resultMoves_when fun _ => moves_expireEntry _ s
  · exact resultMoves_noEvent s

theorem touches_probe (s : State) (x : Probe) : changesOnly [.probe] s { s with probe := x } := by
  intro b hb; cases b <;> first | rfl | simp at hb

theorem moves_probe (s : State) (x : Probe) : Moves B C s { s with probe := x } :=
  moves_unread (touches_probe s x)

theorem execProbeAnswer_moves (reading : Int) (checkMatches : Bool) (s : State) :
    resultMoves B C s (execProbeAnswer reading checkMatches s) := by
  unfold execProbeAnswer
  split
  · split
    · split
      · exact resultMoves_done (moves_probe s _)
      · exact resultMoves_done (moves_probe s _)
    · exact resultMoves_noEvent s
  · exact resultMoves_noEvent s

/-! ### Signs and lamps -/

theorem moves_signs (s : State) (x : Tab Sign 4) : Moves B C s { s with signs := x } :=
  moves_unread (touches_signs s x)

theorem execBlinkPhaseToggle_moves (l : Lane) (s : State) :
    resultMoves B C s (execBlinkPhaseToggle l s) := by
  unfold execBlinkPhaseToggle
  split
  · exact resultMoves_when fun _ => moves_signs s _
  · exact resultMoves_noEvent s

/-- An output that is on, and stays on, may have any timers. -/
theorem moves_output {o : Output} {x : LampOutput} {s : State} (hon : (outputOf s o).on = true)
    (hx : x.on = true) : Moves B C s (setOutput o x s) :=
  .single (.lamp (.output (hx.trans hon.symm) fun h => by simp [hx] at h))

theorem judgeLow_on (s : State) (x : LampOutput) : (judgeLow s x).on = x.on := by
  unfold judgeLow
  split <;> rfl

theorem execCurrentBelowThreshold_moves (o : Output) (s : State) :
    resultMoves B C s (execCurrentBelowThreshold o s) := by
  refine resultMoves_when fun h => ?_
  simp only [Bool.and_eq_true] at h
  exact moves_output h.1.1 ((judgeLow_on s _).trans h.1.1)

theorem execCurrentRisesToThreshold_moves (o : Output) (s : State) :
    resultMoves B C s (execCurrentRisesToThreshold o s) := by
  refine resultMoves_when fun h => ?_
  simp only [Bool.and_eq_true] at h
  exact moves_output h.1.1 h.1.1

theorem execBlankingEnd_moves (o : Output) (low : Bool) (s : State) :
    resultMoves B C s (execBlankingEnd o low s) := by
  refine resultMoves_when fun h => ?_
  simp only [Bool.and_eq_true] at h
  refine moves_output h.1 ?_
  split
  · rw [judgeLow_on]; exact h.1
  · exact h.1

theorem execOpenTimerExpiry_moves (o : Output) (s : State) :
    resultMoves B C s (execOpenTimerExpiry o s) :=
  resultMoves_when fun _ => .single (.lamp (.output rfl fun _ => ⟨rfl, .inl rfl⟩))

/-! ### The entry controller -/

theorem execPresenceInputChange_moves (l : Lane) (occupied : Bool) (s : State) :
    resultMoves B C s (execPresenceInputChange l occupied s) := by
  have hin : Moves B C s { s with inputs.presence := s.inputs.presence.put l occupied } :=
    moves_unread (touches_inputs s _)
  have hx (x : StopLine) : (settleTimer s.clock occupied x).queue = x.queue ∧
      (settleTimer s.clock occupied x).head = x.head ∧
      (settleTimer s.clock occupied x).aspect = x.aspect ∧
      (settleTimer s.clock occupied x).amber = x.amber := by
    unfold settleTimer
    repeat' split
    all_goals exact ⟨rfl, rfl, rfl, rfl⟩
  simp only [execPresenceInputChange]
  split
  · obtain ⟨hq, hh, ha, hm⟩ := hx (stopLine s l)
    exact resultMoves_done (.trans hin (.single (.entry (.presence hq hh ha hm))))
  · exact resultMoves_done hin

theorem execPresenceSettled_moves (l : Lane) (s : State) :
    resultMoves B C s (execPresenceSettled l s) := by
  refine resultMoves_when fun _ => ?_
  have hs : Moves B C s (setStopLine l
      { stopLine s l with occupied := !(stopLine s l).occupied, settle := none } s) :=
    .single (.entry (.presence rfl rfl rfl rfl))
  split
  · exact .trans hs (.single (.entry (.crossing l _)))
  · exact hs

theorem execAmberTimerExpiry_moves (l : Lane) (s : State) :
    resultMoves B C s (execAmberTimerExpiry l s) :=
  resultMoves_when fun h => .single (.entry (.amberEnds (by
    unfold due at h
    split at h
    next => exact absurd h Bool.false_ne_true
    next he => rw [he]; rfl)))

theorem moves_clearLost (s : State) : Moves B C s (clearLost s) := moves_if fun _ => moves_entry

theorem execRecoveryTimerExpiry_moves (s : State) :
    resultMoves B C s (execRecoveryTimerExpiry s) :=
  resultMoves_when fun _ => .trans (.trans (moves_entry (s := s)) (moves_clearLost _))
    (moves_if fun _ => moves_runArbiter _)

theorem execSpanDeadline_moves (t : Tag) (s : State) :
    resultMoves B C s (execSpanDeadline t s) := by
  unfold execSpanDeadline
  split
  · split
    · split
      · exact resultMoves_done (moves_departSpan _ s)
      · exact resultMoves_done (.single (.entry (.makeOverdue t s)))
    · exact resultMoves_noEvent s
  · exact resultMoves_noEvent s

/-! ### Resets, loading and the port -/

theorem execResetEnd_moves (s : State) : resultMoves B C s (execResetEnd s) :=
  resultMoves_when fun h => .single (.start (.load h.1))

theorem execLoadReadTimeout_moves (answered : Bool) (s : State) :
    resultMoves B C s (execLoadReadTimeout answered s) := by
  rw [execLoadReadTimeout]
  by_cases h : s.startup = .loading ∧
      (if answered then 50000 else 10000) ≤ elapsed s.clock s.loader.requested
  · rw [if_pos h]
    split
    · exact resultMoves_done (moves_unread (touches_loader s _))
    · exact resultMoves_done (.single (.start (.fault _ h.1)))
  · rw [if_neg h]
    exact resultMoves_noEvent s

theorem moves_reset (cause : ResetCause) (hold : Option Clock) (torn : Option (BitVec 16))
    (s : State) : Moves B C s (enterReset cause hold torn s) :=
  .single (.start (.reset cause hold torn s))

theorem execCharacterReceived_moves (c : Byte) (framingError : Bool) {s : State}
    (hc : C → working s = true → remembersAll s) :
    resultMoves B C s (execCharacterReceived c framingError s) := by
  unfold execCharacterReceived
  split
  · exact resultMoves_noEvent s
  · exact resultMoves_done (.trans (moves_takeChar c framingError hc) (moves_port (le_max_right _ _)))

/-- Every command is a chain of moves. -/
theorem exec_moves (i : Instr) {s : State} (hb : B → fifosBounded s)
    (hc : C → working s = true → remembersAll s) :
    resultMoves B C s (exec i s) := by
  cases i with
  | signalBelowTrigger p => exact execSignalBelowTrigger_moves p s
  | pulseStart p => exact execPulseStart_moves p s
  | pulseEnd p l => exact execPulseEnd_moves p l hb
  | stuckReport p => exact execStuckReport_moves p s
  | coincidenceTimerExpiry l p => exact execCoincidenceTimerExpiry_moves l p hb
  | leadExpiry l index => exact execLeadExpiry_moves l index s
  | closeTimerExpiry l => exact execCloseTimerExpiry_moves l s
  | contentionIdleReached => exact execContentionIdleReached_moves s
  | collision => exact execCollision_moves s
  | attemptEnd => exact execAttemptEnd_moves s
  | receiptWaitExpiry => exact execReceiptWaitExpiry_moves s
  | badFrame found => exact execBadFrame_moves found s
  | frameReceived bytes => exact execFrameReceived_moves bytes s
  | receiptStart => exact execReceiptStart_moves s
  | noticeHandlingComplete => exact execNoticeHandlingComplete_moves s
  | windowCloseExpiry t => exact execWindowCloseExpiry_moves t s
  | joinTimerExpiry => exact resultMoves_when fun h => moves_endJoin h.1
  | beaconTimerExpiry => exact execBeaconTimerExpiry_moves s
  | silenceTimerExpiry k => exact resultMoves_when fun _ => moves_goSilent k s
  | probeAnswer reading checkMatches => exact execProbeAnswer_moves reading checkMatches s
  | probeSampleTimer | probeAnswerTimeout | holdTimerExpiry =>
    exact resultMoves_when fun _ => moves_probe s _
  | signTimerExpiry l => exact resultMoves_when fun _ => moves_signs s _
  | blinkPhaseToggle l => exact execBlinkPhaseToggle_moves l s
  | overcurrent o => exact resultMoves_when fun h => moves_output h h
  | currentBelowThreshold o => exact execCurrentBelowThreshold_moves o s
  | currentRisesToThreshold o => exact execCurrentRisesToThreshold_moves o s
  | blankingEnd o low => exact execBlankingEnd_moves o low s
  | openTimerExpiry o => exact execOpenTimerExpiry_moves o s
  | provingTimerExpiry l => exact resultMoves_when fun _ => .single (.lamp (.proving s _))
  | presenceInputChange l occupied => exact execPresenceInputChange_moves l occupied s
  | presenceSettled l => exact execPresenceSettled_moves l s
  | amberTimerExpiry l => exact execAmberTimerExpiry_moves l s
  | recoveryTimerExpiry => exact execRecoveryTimerExpiry_moves s
  | spanDeadline t => exact execSpanDeadline_moves t s
  | minuteTimerExpiry => exact resultMoves_when fun _ => moves_counters s _
  | powerOn torn | supplyDip torn | resetLine torn => exact resultMoves_done (moves_reset _ _ torn s)
  | restartReset torn => exact resultMoves_when fun _ => moves_reset _ _ torn s
  | resetEnd => exact execResetEnd_moves s
  | loadReadComplete bytes => exact resultMoves_when fun h => moves_judgeImage bytes h.1
  | loadReadTimeout answered => exact execLoadReadTimeout_moves answered s
  | characterReceived c framingError => exact execCharacterReceived_moves c framingError hc
  | responseSent => exact resultMoves_when fun _ => moves_port (by simp)
  | receiptAbandoned | receiptEnd => exact resultMoves_when fun _ => moves_line (s := s)
  | lineGoesBusy => exact resultMoves_when fun _ => moves_line
  | status | config | peers | approach | queue | span | alerts | clear | clearAll | counts | health
  | healthStep | trim | releaseAdmit | releaseRemove | forget | lampReset | stripRestore
  | restart => exact portCommand_moves _ hc

/-- The next state of a result is reached by moves. -/
theorem moves_of_result {s t : State} {r : Result} (h : resultMoves B C s r) (hr : r = .next t) :
    Moves B C s t := by
  obtain hr' | ⟨u, hu, hr'⟩ := h
  · obtain rfl : s = t := by simpa [hr'] using hr
    exact .refl
  · obtain rfl : settle u = t := by simpa [hr', done] using hr
    exact .trans hu (moves_settle u)

/-- A step lets the clock count or runs the command at the front of the queue. -/
theorem step_cases {s t : State} (h : step s = .next t) :
    tick s = t ∨ ∃ c rest, exec c { s with pending := rest } = .next t := by
  cases hq : s.pending with
  | nil => exact .inl (by simpa [step_idle hq] using h)
  | cons c rest =>
    simp only [step, hq] at h
    exact .inr ⟨c, rest, h⟩

/-- What every move keeps, and does not rest on the waiting commands, every step keeps. -/
theorem step_keeps {P : State → Prop} {s t : State} (hb : ∀ u, P u → B → fifosBounded u)
    (hP : ∀ {s t}, Move B False s t → P s → P t) (hq : ∀ rest, P s → P { s with pending := rest })
    (h : step s = .next t) (hs : P s) : P t := by
  obtain rfl | ⟨c, rest, hc⟩ := step_cases h
  · exact hP (.unread (changesOnly_mono (tick_touches s) (by decide))) hs
  · exact (moves_of_result (exec_moves c (hb _ (hq rest hs)) False.elim) hc).keeps hP (hq rest hs)

end Sys2Proof.Proofs
end

