-- ==== Sys2Proof/Proofs/EntryLaws.lean ====
section
/-! PROOFS. The rules of the entry controller: what each of its small operations leaves of the lanes, the
held set, the span set and the sums over the heads; and heads and held set in agreement (section 8.1). -/

namespace Sys2Proof.Proofs

open Sys2Proof Sys2Proof.Machine

-- one declaration at a time: side by side they need a thread each
set_option Elab.async false

/-! ## What one lane's line, the held set and the span set are after an operation -/

theorem stopLine_congr {s t : State} (h : t.entry.lanes = s.entry.lanes) (k : Lane) :
    stopLine t k = stopLine s k := by simp only [stopLine, h]

theorem stopLine_of_touches {l : List Block} {s t : State} (h : changesOnly l s t)
    (hl : Block.entry ∉ l := by decide) (k : Lane) : stopLine t k = stopLine s k :=
  stopLine_congr (congrArg EntryController.lanes (h .entry hl)) k

theorem stopLine_setStopLine (l k : Lane) (x : StopLine) (s : State) :
    stopLine (setStopLine l x s) k = if k = l then x else stopLine s k := by
  by_cases h : k = l
  · subst h; simp
  · simp [h, stopLine_setStopLine_ne]

theorem stopLine_setHead (l k : Lane) (h : HeadState) (s : State) :
    stopLine (setHead l h s) k = if k = l then { stopLine s l with head := h } else stopLine s k :=
  stopLine_setStopLine _ _ _ _

theorem stopLine_popHead (l k : Lane) (s : State) :
    stopLine (popHead l s) k =
      if k = l then { stopLine s l with queue := (stopLine s l).queue.tail, head := .none }
      else stopLine s k := stopLine_setStopLine _ _ _ _

@[simp] theorem stopLine_leaveHeld (l k : Lane) (s : State) :
    stopLine (leaveHeld l s) k = stopLine s k := rfl

theorem stopLine_becomeHeld (l k : Lane) (w : Nat) (s : State) :
    stopLine (becomeHeld l w s) k =
      if k = l then { stopLine s l with head := .held w s.clock } else stopLine s k :=
  stopLine_setHead _ _ _ _

@[simp] theorem setStopLine_held (l : Lane) (x : StopLine) (s : State) :
    (setStopLine l x s).entry.held = s.entry.held := rfl

@[simp] theorem setStopLine_span (l : Lane) (x : StopLine) (s : State) :
    (setStopLine l x s).entry.span = s.entry.span := rfl

@[simp] theorem setHead_held (l : Lane) (h : HeadState) (s : State) :
    (setHead l h s).entry.held = s.entry.held := rfl

@[simp] theorem setHead_span (l : Lane) (h : HeadState) (s : State) :
    (setHead l h s).entry.span = s.entry.span := rfl

@[simp] theorem popHead_held (l : Lane) (s : State) :
    (popHead l s).entry.held = s.entry.held := rfl

@[simp] theorem popHead_span (l : Lane) (s : State) :
    (popHead l s).entry.span = s.entry.span := rfl

@[simp] theorem leaveHeld_held (l : Lane) (s : State) :
    (leaveHeld l s).entry.held = s.entry.held.filter fun k => decide (k ≠ l) := rfl

@[simp] theorem leaveHeld_span (l : Lane) (s : State) :
    (leaveHeld l s).entry.span = s.entry.span := rfl

@[simp] theorem becomeHeld_held (l : Lane) (w : Nat) (s : State) :
    (becomeHeld l w s).entry.held = insertHeld s s.clock l s.entry.held := rfl

@[simp] theorem becomeHeld_span (l : Lane) (w : Nat) (s : State) :
    (becomeHeld l w s).entry.span = s.entry.span := rfl

/-- A lane is held exactly when its head is HELD. -/
theorem holdTime_isSome {s : State} {k : Lane} :
    (holdTime s k).isSome = true ↔ ∃ w c, (stopLine s k).head = .held w c := by
  unfold holdTime
  cases (stopLine s k).head <;> simp

theorem holdTime_congr {s t : State} {k : Lane} (h : (stopLine t k).head = (stopLine s k).head) :
    holdTime t k = holdTime s k := by simp only [holdTime, h]

theorem insertHeld_perm (s : State) (now : Clock) (l : Lane) (ks : List Lane) :
    (insertHeld s now l ks).Perm (l :: ks) := by
  induction ks with
  | nil => exact .refl _
  | cons k ks ih =>
    unfold insertHeld
    split
    · exact .refl _
    · exact (ih.cons k).trans (.swap l k ks)

/-! ## Sums over the heads -/

theorem admittedHeads_eq (s : State) :
    admittedHeads s = (allLanes.map fun l => if (stopLine s l).head.isAdmitted then 1 else 0).sum := by
  have hsum (f : Lane → Bool) (ls : List Lane) :
      (ls.filter f).length = (ls.map fun l => if f l then 1 else 0).sum := by
    induction ls with
    | nil => rfl
    | cons l ls ih => by_cases h : f l = true <;> simp [h, ih]; omega
  exact hsum (fun l => (stopLine s l).head.isAdmitted) allLanes

/-- A sum over the lanes, one of which is replaced. -/
theorem sum_setStopLine (f : StopLine → Nat) (l : Lane) (x : StopLine) (s : State) :
    (allLanes.map fun k => f (stopLine (setStopLine l x s) k)).sum + f (stopLine s l) =
      (allLanes.map fun k => f (stopLine s k)).sum + f x := by
  simp only [stopLine_setStopLine, allLanes, List.map_cons, List.map_nil, List.sum_cons, List.sum_nil]
  revert l
  refine Fin.forall_iff.2 fun l hl => ?_
  obtain rfl | rfl | rfl | rfl : l = 0 ∨ l = 1 ∨ l = 2 ∨ l = 3 := by omega
  all_goals simp; omega

theorem admittedHeads_setStopLine (l : Lane) (x : StopLine) (s : State) :
    admittedHeads (setStopLine l x s) + (if (stopLine s l).head.isAdmitted then 1 else 0) =
      admittedHeads s + (if x.head.isAdmitted then 1 else 0) := by
  rw [admittedHeads_eq, admittedHeads_eq]
  exact sum_setStopLine (fun y => if y.head.isAdmitted then 1 else 0) l x s

theorem committed_setStopLine (l : Lane) (x : StopLine) (s : State) :
    committed (setStopLine l x s) + (stopLine s l).head.committed =
      committed s + x.head.committed :=
  sum_setStopLine (fun y => y.head.committed) l x s

theorem admittedHeads_congr {s t : State} (h : ∀ k, (stopLine t k).head = (stopLine s k).head) :
    admittedHeads t = admittedHeads s := by
  rw [admittedHeads_eq, admittedHeads_eq]
  simp only [h]

theorem committed_congr {s t : State} (h : ∀ k, (stopLine t k).head = (stopLine s k).head) :
    committed t = committed s := by
  change (allLanes.map fun k => (stopLine t k).head.committed).sum = _
  simp only [h]
  rfl

/-! ## The arbiter writes heads only -/

/-- What an operation that writes heads and held set only leaves of each line. -/
def headsOnly (s t : State) : Prop :=
  t.entry = { s.entry with lanes := t.entry.lanes, held := t.entry.held } ∧
    ∀ k, stopLine t k = { stopLine s k with head := (stopLine t k).head }

theorem headsOnly_refl (s : State) : headsOnly s s := ⟨rfl, fun _ => rfl⟩

theorem headsOnly_trans {s t u : State} (h : headsOnly s t) (k : headsOnly t u) : headsOnly s u := by
  refine ⟨?_, fun j => ?_⟩
  · rw [k.1, h.1]
  · rw [k.2 j, h.2 j]

theorem setHead_headsOnly (l : Lane) (h : HeadState) (s : State) : headsOnly s (setHead l h s) := by
  refine ⟨rfl, fun k => ?_⟩
  rw [stopLine_setHead]
  split
  next hk => rw [hk]
  next => rfl

theorem leaveHeld_headsOnly (l : Lane) (s : State) : headsOnly s (leaveHeld l s) := ⟨rfl, fun _ => rfl⟩

theorem becomeHeld_headsOnly (l : Lane) (w : Nat) (s : State) : headsOnly s (becomeHeld l w s) := by
  refine ⟨rfl, fun k => ?_⟩
  rw [stopLine_becomeHeld]
  split
  next hk => rw [hk]
  next => rfl

theorem arbiterFrom_headsOnly (ls : List Lane) (s : State) : headsOnly s (arbiterFrom ls s) := by
  induction ls generalizing s with
  | nil => exact headsOnly_refl s
  | cons l ls ih =>
    simp only [arbiterFrom]
    split
    · split
      · exact headsOnly_trans (headsOnly_trans (setHead_headsOnly l _ s) (leaveHeld_headsOnly l _))
          (ih _)
      · exact setHead_headsOnly _ _ _
    · exact headsOnly_refl s

theorem runArbiter_headsOnly (s : State) : headsOnly s (runArbiter s) := by
  unfold runArbiter
  split
  · exact arbiterFrom_headsOnly _ _
  · exact headsOnly_refl s

theorem headsOnly_queue {s t : State} (h : headsOnly s t) (k : Lane) :
    (stopLine t k).queue = (stopLine s k).queue := by rw [h.2 k]

theorem headsOnly_aspect {s t : State} (h : headsOnly s t) (k : Lane) :
    (stopLine t k).aspect = (stopLine s k).aspect := by rw [h.2 k]

theorem headsOnly_amber {s t : State} (h : headsOnly s t) (k : Lane) :
    (stopLine t k).amber = (stopLine s k).amber := by rw [h.2 k]

theorem headsOnly_span {s t : State} (h : headsOnly s t) : t.entry.span = s.entry.span := by rw [h.1]

/-! ## Heads and held set right (section 8.1) -/

/-- The front of a lane's queue has a head state exactly if there is a front. -/
def frontRight (s : State) (k : Lane) : Prop :=
  (stopLine s k).queue = [] ↔ (stopLine s k).head = .none

/-- The held set names the lanes with HELD heads, each once. -/
def heldRight (s : State) : Prop :=
  (∀ k, k ∈ s.entry.held ↔ (holdTime s k).isSome = true) ∧ s.entry.held.Nodup

/-- Heads and held set are right but for the front of one lane, which is still to be evaluated. -/
def unevaluated (l : Lane) (s : State) : Prop :=
  (∀ k, k ≠ l → frontRight s k) ∧ (stopLine s l).head = .none ∧ heldRight s

theorem frontRight_congr {s t : State} {k : Lane} (h : stopLine t k = stopLine s k) :
    frontRight t k ↔ frontRight s k := by simp only [frontRight, h]

theorem heldRight_congr {s t : State} (hh : t.entry.held = s.entry.held)
    (h : ∀ k, (stopLine t k).head = (stopLine s k).head) : heldRight t ↔ heldRight s := by
  simp only [heldRight, hh, holdTime_congr (h _)]

theorem headsRight_of_entry {s t : State} (hl : ∀ k, stopLine t k = stopLine s k)
    (hh : t.entry.held = s.entry.held) (h : headsRight s) : headsRight t :=
  ⟨fun k => (frontRight_congr (hl k)).2 (h.1 k),
    (heldRight_congr hh fun k => by rw [hl k]).2 h.2⟩

theorem unevaluated_of_entry {l : Lane} {s t : State} (hl : ∀ k, stopLine t k = stopLine s k)
    (hh : t.entry.held = s.entry.held) (h : unevaluated l s) : unevaluated l t :=
  ⟨fun k hk => (frontRight_congr (hl k)).2 (h.1 k hk), by rw [hl l]; exact h.2.1,
    (heldRight_congr hh fun k => by rw [hl k]).2 h.2.2⟩

theorem unevaluated_of_touches {l : Lane} {bs : List Block} {s t : State} (h : changesOnly bs s t)
    (hu : unevaluated l s) (hb : Block.entry ∉ bs := by decide) : unevaluated l t :=
  unevaluated_of_entry (stopLine_of_touches h hb) (congrArg EntryController.held (h .entry hb)) hu

theorem headsRight_of_touches {bs : List Block} {s t : State} (h : changesOnly bs s t)
    (hu : headsRight s) (hb : Block.entry ∉ bs := by decide) : headsRight t :=
  headsRight_of_entry (stopLine_of_touches h hb) (congrArg EntryController.held (h .entry hb)) hu

/-- A line written with its head state kept. -/
theorem heldRight_setStopLine {l : Lane} {x : StopLine} {s : State} (hs : heldRight s)
    (hx : x.head = (stopLine s l).head) : heldRight (setStopLine l x s) := by
  refine (heldRight_congr (s := s) (t := setStopLine l x s) rfl fun k => ?_).2 hs
  rw [stopLine_setStopLine]
  split
  next hk => rw [hk, hx]
  next => rfl

/-- A head that is neither HELD before nor after leaves the held set right. -/
theorem heldRight_setHead {l : Lane} {h : HeadState} {s : State} (hs : heldRight s)
    (hold : ∀ w c, (stopLine s l).head ≠ .held w c) (hnew : ∀ w c, h ≠ .held w c) :
    heldRight (setHead l h s) := by
  refine ⟨fun k => ?_, hs.2⟩
  rw [setHead_held, hs.1 k, holdTime_isSome, holdTime_isSome, stopLine_setHead]
  split
  next hk => subst hk; simp [hold, hnew]
  next => rfl

/-- A HELD head that stays HELD leaves the held set right. -/
theorem heldRight_setHead_held {l : Lane} {w w' : Nat} {c : Clock} {s : State} (hs : heldRight s)
    (hold : (stopLine s l).head = .held w c) : heldRight (setHead l (.held w' c) s) := by
  refine ⟨fun k => ?_, hs.2⟩
  rw [setHead_held, hs.1 k, holdTime_isSome, holdTime_isSome, stopLine_setHead]
  split
  next hk => subst hk; simp [hold]
  next => rfl

/-- A lane that leaves the held set, and whose head is HELD no longer. -/
theorem heldRight_leaveHeld {l : Lane} {s t : State} (hs : heldRight s)
    (hh : t.entry.held = s.entry.held.filter fun k => decide (k ≠ l))
    (hl : ∀ w c, (stopLine t l).head ≠ .held w c)
    (hk : ∀ k, k ≠ l → (stopLine t k).head = (stopLine s k).head) : heldRight t := by
  refine ⟨fun k => ?_, hh ▸ hs.2.filter _⟩
  rw [hh, List.mem_filter, decide_eq_true_eq, hs.1 k, holdTime_isSome, holdTime_isSome]
  by_cases he : k = l
  · subst he; simp [hl]
  · simp [he, hk k he]

/-- A lane that begins to be held. -/
theorem heldRight_becomeHeld {l : Lane} {w : Nat} {s : State} (hs : heldRight s)
    (hold : ∀ w c, (stopLine s l).head ≠ .held w c) : heldRight (becomeHeld l w s) := by
  have hmem : l ∉ s.entry.held := fun h => by
    obtain ⟨w, c, hw⟩ := holdTime_isSome.1 ((hs.1 l).1 h)
    exact hold w c hw
  have hperm := insertHeld_perm s s.clock l s.entry.held
  refine ⟨fun k => ?_, ?_⟩
  · rw [becomeHeld_held, hperm.mem_iff, List.mem_cons, hs.1 k, holdTime_isSome, holdTime_isSome,
      stopLine_becomeHeld]
    by_cases hk : k = l <;> simp [hk]
  · rw [becomeHeld_held, hperm.nodup_iff, List.nodup_cons]
    exact ⟨hmem, hs.2⟩

theorem frontRight_setHead {l k : Lane} {h : HeadState} {s : State} (hs : frontRight s k)
    (hl : (stopLine s l).queue ≠ []) (hh : h ≠ .none) : frontRight (setHead l h s) k := by
  unfold frontRight at *
  rw [stopLine_setHead]
  split
  next => simp [hl, hh]
  next => exact hs

/-- The arbiter leaves fronts and held set right, and a lane without a head without one. -/
theorem arbiterFrom_right (ls : List Lane) {s : State} (hs : heldRight s) :
    heldRight (arbiterFrom ls s) ∧ (∀ k, frontRight s k → frontRight (arbiterFrom ls s) k) ∧
      ∀ k, (stopLine s k).head = .none → (stopLine (arbiterFrom ls s) k).head = .none := by
  induction ls generalizing s with
  | nil => exact ⟨hs, fun _ => id, fun _ => id⟩
  | cons l ls ih =>
    simp only [arbiterFrom]
    split
    next w c r q hh hq =>
      have hne : (stopLine s l).queue ≠ [] := by simp [hq]
      have hnone (h : HeadState) (k : Lane) (hk : (stopLine s k).head = .none) :
          (stopLine (setHead l h s) k).head = .none := by
        rw [stopLine_setHead]
        split
        next e => subst e; simp [hh] at hk
        next => exact hk
      split
      · have hheld : heldRight (leaveHeld l (setHead l (.admitted (admissionWeight s r)) s)) :=
          heldRight_leaveHeld hs rfl (by simp [stopLine_setHead])
            fun k hk => by simp [stopLine_setHead, hk]
        obtain ⟨h1, h2, h3⟩ := ih hheld
        exact ⟨h1, fun k hk => h2 k (frontRight_setHead hk hne nofun),
          fun k hk => h3 k (hnone _ k hk)⟩
      · exact ⟨heldRight_setHead_held hs hh, fun k hk => frontRight_setHead hk hne nofun,
          fun k hk => hnone _ k hk⟩
    · exact ⟨hs, fun _ => id, fun _ => id⟩

theorem headsRight_runArbiter {s : State} (h : headsRight s) : headsRight (runArbiter s) := by
  unfold runArbiter
  split
  · obtain ⟨h1, h2, -⟩ := arbiterFrom_right s.entry.held h.2
    exact ⟨fun k => h2 k (h.1 k), h1⟩
  · exact h

theorem unevaluated_runArbiter {l : Lane} {s : State} (h : unevaluated l s) :
    unevaluated l (runArbiter s) := by
  unfold runArbiter
  split
  · obtain ⟨h1, h2, h3⟩ := arbiterFrom_right s.entry.held h.2.2
    exact ⟨fun k hk => h2 k (h.1 k hk), h3 l h.2.1, h1⟩
  · exact h

/-- R132 to R134: once its front is evaluated, the lane is right like the others. -/
theorem headsRight_evaluateHead {l : Lane} {s : State} (h : unevaluated l s) :
    headsRight (evaluateHead l s) := by
  obtain ⟨hk, hl, hheld⟩ := h
  have hold : ∀ w c, (stopLine s l).head ≠ .held w c := by simp [hl]
  have hset {x : HeadState} (hx : ∀ w c, x ≠ .held w c)
      (hq : (stopLine s l).queue = [] ↔ x = .none) : headsRight (setHead l x s) := by
    refine ⟨fun k => ?_, heldRight_setHead hheld hold hx⟩
    rw [stopLine_setHead]
    split
    · exact hq
    next hkl => exact hk k hkl
  unfold evaluateHead
  split
  next hq => exact hset nofun (by simp [hq])
  next r q hq =>
    have hne : ∀ x : HeadState, x ≠ .none → ((stopLine s l).queue = [] ↔ x = .none) := by simp [hq]
    split
    · exact hset nofun (hne _ nofun)
    split
    · exact headsRight_of_touches (changesOnly_append (raise_touches _ _) (touches_counters _ _))
        (hset (x := .stop) nofun (hne _ nofun))
    · dsimp only
      split
      · exact hset nofun (hne _ nofun)
      · refine ⟨fun k => ?_, heldRight_becomeHeld hheld hold⟩
        rw [stopLine_becomeHeld]
        split
        · simp [hq]
        next hkl => exact hk k hkl

/-- A head that is not HELD leaves its queue. -/
theorem unevaluated_popHead {l : Lane} {s : State} (h : headsRight s)
    (hold : ∀ w c, (stopLine s l).head ≠ .held w c) : unevaluated l (popHead l s) := by
  refine ⟨fun k hk => ?_, by simp [stopLine_popHead], fun k => ?_, h.2.2⟩
  · exact (frontRight_congr (by simp [stopLine_popHead, hk])).2 (h.1 k)
  · rw [popHead_held, h.2.1 k, holdTime_isSome, holdTime_isSome, stopLine_popHead]
    split
    next he => subst he; simp [hold]
    next => rfl

/-- A head leaves its queue and the held set. -/
theorem unevaluated_leaveHeld_popHead {l : Lane} {s : State} (h : headsRight s) :
    unevaluated l (leaveHeld l (popHead l s)) :=
  ⟨fun k hk => (frontRight_congr (by simp [stopLine_popHead, hk])).2 (h.1 k),
    by simp [stopLine_popHead],
    heldRight_leaveHeld h.2 rfl (by simp [stopLine_popHead]) fun k hk => by simp [stopLine_popHead, hk]⟩

theorem unevaluated_joinSpan {l : Lane} (e : SpanEntry) {s : State} (h : unevaluated l s) :
    unevaluated l (joinSpan e s) := unevaluated_of_entry (fun _ => rfl) rfl h

theorem unevaluated_setLost {l : Lane} {s : State} (h : unevaluated l s) :
    unevaluated l (setLost s) :=
  unevaluated_of_touches (raise_touches _ _) (unevaluated_of_entry (s := s) (fun _ => rfl) rfl h)

theorem unevaluated_regularCrossing {l : Lane} {r : Record} {a : Nat} {unseen : Bool} {s : State}
    (h : headsRight s) (hold : ∀ w c, (stopLine s l).head ≠ .held w c) :
    unevaluated l (regularCrossing l r a unseen s) := by
  unfold regularCrossing
  split
  · exact unevaluated_of_touches (queueEntered_touches _ _ _ _)
      (unevaluated_runArbiter (unevaluated_joinSpan _ (unevaluated_popHead h hold)))
  · exact unevaluated_runArbiter (unevaluated_popHead h hold)

theorem unevaluated_nonAdmittedEntry {l : Lane} {r : Record} {wasHeld wasStop unseen : Bool}
    {s : State} (h : headsRight s) :
    unevaluated l (nonAdmittedEntry l r wasHeld wasStop unseen s) := by
  have hgone := unevaluated_leaveHeld_popHead (l := l) h
  have haspect : unevaluated l (if unseen then leaveHeld l (popHead l s)
      else aspectAlerts l (stopLine s l).aspect (leaveHeld l (popHead l s))) := by
    split
    · exact hgone
    · exact unevaluated_of_touches (aspectAlerts_touches _ _ _) hgone
  have hraise (b : Bool) {t : State} (ht : unevaluated l t) :
      unevaluated l (if b then raise .noncompliantEntered t else t) := by
    split
    · exact unevaluated_of_touches (raise_touches _ _) ht
    · exact ht
  have hspan (e : Tag → SpanEntry) {t : State} (ht : unevaluated l t) :
      unevaluated l (match r.tag with
        | some g => if t.entry.span.length + admittedHeads t < 24 then joinSpan (e g) t else setLost t
        | none => t) := by
    split
    · split
      · exact unevaluated_joinSpan _ ht
      · exact unevaluated_setLost ht
    · exact ht
  have hnotice := unevaluated_of_touches (queueEntered_touches l r (nonAdmittedWeight s r) _)
    (hspan (fun g => { spanEntry s l g (nonAdmittedWeight s r) with
      redRun := !unseen && decide ((stopLine s l).aspect = some .red)
      uncontrolled := !unseen && decide ((stopLine s l).aspect = some .dark)
      unseen := unseen, noncompliant := wasStop }) (hraise (wasStop && !unseen) haspect))
  unfold nonAdmittedEntry
  cases wasHeld
  · exact hnotice
  · exact unevaluated_runArbiter hnotice

theorem headsRight_headEnters {l : Lane} {unseen : Bool} {s : State} (h : headsRight s) :
    headsRight (headEnters l unseen s) := by
  unfold headEnters
  split
  · exact h
  next hq =>
    refine headsRight_evaluateHead ?_
    split
    next hh => exact unevaluated_regularCrossing h (by simp [hh])
    · exact unevaluated_nonAdmittedEntry h
    · exact unevaluated_nonAdmittedEntry h
    next hh =>
      exact unevaluated_of_entry (s := popHead l s) (t := lightCrossing l s) (fun _ => rfl) rfl
        (unevaluated_popHead h (by simp [hh]))
    next hh => exact unevaluated_popHead h (by simp [hh])

theorem headsRight_crossing {l : Lane} {s : State} (h : headsRight s) : headsRight (crossing l s) := by
  unfold crossing
  split
  · exact headsRight_of_touches (raise_touches _ _)
      (headsRight_of_entry (s := s) (fun _ => rfl) rfl h)
  · exact headsRight_headEnters h

/-- R130: a record at the tail of a queue with a head, or the front of an empty one. -/
theorem headsRight_joinStopLine {r : Record} {s : State} (h : headsRight s) :
    headsRight (joinStopLine r s) := by
  have hroom : headsRight
      (if 8 ≤ (stopLine s r.lane).queue.length then overflowQueue r.lane s else s) := by
    split
    · exact headsRight_headEnters (headsRight_of_touches (raise_touches _ _) h)
    · exact h
  simp only [joinStopLine]
  generalize (if 8 ≤ (stopLine s r.lane).queue.length then overflowQueue r.lane s else s) = u at hroom
  have hheld : heldRight (setStopLine r.lane
      { stopLine u r.lane with queue := (stopLine u r.lane).queue ++ [r] } u) :=
    heldRight_setStopLine hroom.2 rfl
  have hother (k : Lane) (hk : k ≠ r.lane) : frontRight (setStopLine r.lane
      { stopLine u r.lane with queue := (stopLine u r.lane).queue ++ [r] } u) k :=
    (frontRight_congr (by simp [stopLine_setStopLine, hk])).2 (hroom.1 k)
  split
  next he =>
    exact headsRight_evaluateHead ⟨hother, by
      simpa [stopLine_setStopLine] using (hroom.1 r.lane).1 (List.isEmpty_iff.1 he), hheld⟩
  next he =>
    refine ⟨fun k => ?_, hheld⟩
    by_cases hk : k = r.lane
    · subst hk
      have := mt (hroom.1 r.lane).2 (by simpa using he)
      simpa [stopLine_setStopLine] using this
    · exact hother k hk

theorem headsRight_departSpan {keep : SpanEntry → Bool} {s : State} (h : headsRight s) :
    headsRight (departSpan keep s) := by
  unfold departSpan
  split
  · exact h
  · refine headsRight_runArbiter (headsRight_of_touches (takeConditions_touches _) ?_)
    unfold clearLost
    split
    · exact headsRight_of_entry (s := s) (fun _ => rfl) rfl h
    · exact headsRight_of_entry (s := s) (fun _ => rfl) rfl h

theorem headsRight_turnAway {l : Lane} {wasHeld : Bool} {s : State} (h : headsRight s) :
    headsRight (turnAway l wasHeld s) := by
  have hgone : unevaluated l { leaveHeld l (popHead l s) with
      entry.turnedAway := (leaveHeld l (popHead l s)).entry.turnedAway + 1 } :=
    unevaluated_of_entry (s := leaveHeld l (popHead l s)) (fun _ => rfl) rfl
      (unevaluated_leaveHeld_popHead h)
  refine headsRight_evaluateHead ?_
  split
  · exact unevaluated_runArbiter hgone
  · exact hgone

/-- Lines that hold the same queue and head state, and the same held set. -/
theorem headsRight_of_lines {s t : State}
    (hl : ∀ k, (stopLine t k).queue = (stopLine s k).queue ∧ (stopLine t k).head = (stopLine s k).head)
    (hh : t.entry.held = s.entry.held) (h : headsRight s) : headsRight t := by
  refine ⟨fun k => ?_, (heldRight_congr hh fun k => (hl k).2).2 h.2⟩
  rw [(hl k).1, (hl k).2]
  exact h.1 k

theorem EntryMove.headsRight {s t : State} (hm : EntryMove s t) (h : headsRight s) :
    headsRight t := by
  cases hm with
  | joinStopLine r => exact headsRight_joinStopLine h
  | crossing l => exact headsRight_crossing h
  | runArbiter => exact headsRight_runArbiter h
  | departSpan keep => exact headsRight_departSpan h
  | makeOverdue g => exact headsRight_of_entry (s := s) (fun _ => rfl) rfl h
  | @released l _ r q w hh hq =>
    refine ⟨fun k => ?_, heldRight_becomeHeld h.2 (by simp [hh])⟩
    rw [stopLine_becomeHeld]
    split
    · simp [hq]
    · exact h.1 k
  | turnAway => exact headsRight_turnAway h
  | @presence l _ x hq hh ha hm =>
    refine headsRight_of_lines (s := s) (fun k => ?_) rfl h
    rw [stopLine_setStopLine]
    split
    next he => exact ⟨by rw [he, hq], by rw [he, hh]⟩
    next => exact ⟨rfl, rfl⟩
  | @amberEnds l =>
    refine headsRight_of_lines (s := s) (fun k => ?_) rfl h
    rw [stopLine_setStopLine]
    split
    next he => exact ⟨by rw [he], by rw [he]⟩
    next => exact ⟨rfl, rfl⟩
  | other hl hh hp => exact headsRight_of_entry (stopLine_congr (s := s) hl) hh h

end Sys2Proof.Proofs
end

