-- ==== Sys2Proof/Proofs/MoveFrames.lean ====
section
/-! PROOFS. What each kind of move leaves unchanged, and what an accepted image starts: from these a
property of one block is kept by the moves of the other blocks. -/

namespace Sys2Proof.Proofs

open Sys2Proof Sys2Proof.Machine

-- one declaration at a time: side by side they need a thread each
set_option Elab.async false

/-! ## Footprints of the moves -/

theorem AlertMove.touches {s t : State} (h : AlertMove s t) : changesOnly [.alerts] s t := by
  cases h with
  | raise x => exact raise_touches x s
  | takeConditions => exact takeConditions_touches s

theorem LineMove.touches {s t : State} (h : LineMove s t) : changesOnly [.line, .alerts] s t := by
  cases h with
  | queueFrame n => exact queueFrame_touches n s
  | takeIntoFlight => exact changesOnly_mono (takeIntoFlight_touches s) (by simp)
  | discardSightings g => exact changesOnly_mono (discardSightings_touches g s) (by simp)
  | other => exact changesOnly_mono (touches_line s _) (by simp)
  | store => exact changesOnly_mono (touches_line s _) (by simp)
  | free => exact changesOnly_mono (touches_line s _) (by simp)

theorem makeOverdue_touches (g : Tag) (s : State) : changesOnly [.entry] s (makeOverdue g s) :=
  touches_entry s _

theorem setStopLine_touches (l : Lane) (x : StopLine) (s : State) :
    changesOnly [.entry] s (setStopLine l x s) := touches_entry s _

theorem EntryMove.touches {s t : State} (h : EntryMove s t) : changesOnly entryBlocks s t := by
  cases h with
  | joinStopLine r => exact joinStopLine_touches r s
  | crossing l => exact crossing_touches l s
  | runArbiter => exact changesOnly_mono (runArbiter_touches s) (by simp)
  | departSpan keep => exact changesOnly_mono (departSpan_touches keep s) (by simp)
  | makeOverdue g => exact changesOnly_mono (makeOverdue_touches g s) (by simp)
  | released w => exact changesOnly_mono (becomeHeld_touches _ w s) (by simp)
  | turnAway => exact changesOnly_mono (turnAway_touches _ _ s) (by simp)
  | presence => exact changesOnly_mono (setStopLine_touches _ _ s) (by simp)
  | amberEnds => exact changesOnly_mono (setStopLine_touches _ _ s) (by simp)
  | other => exact changesOnly_mono (touches_entry s _) (by simp)

theorem PairingMove.touches {B : Prop} {s t : State} (h : PairingMove B s t) :
    changesOnly [.pairing] s t := by
  cases h with
  | hold l p x =>
    unfold setHold
    split
    · exact touches_pairing s _
    · exact touches_pairing s _
  | leads => exact touches_pairing s _
  | joins => exact touches_pairing s _
  | speed l a => exact touches_pairing s _

theorem VehicleMove.touches {s t : State} (h : VehicleMove s t) : changesOnly [.vehicles] s t := by
  cases h with
  | opens => exact touches_vehicles s _
  | joins => exact touches_vehicles s _
  | closes => exact touches_vehicles s _

theorem TrimMove.touches {s t : State} (h : TrimMove s t) :
    changesOnly [.trim, .alerts, .store] s t := by
  cases h with
  | offer r ref => exact changesOnly_mono (offerTrim_touches r ref s) (by simp)
  | apply l => exact changesOnly_mono (applyTrim_touches l s) (by simp)

theorem touches_lamps (s : State) (x : LampUnit) : changesOnly [.lamps] s { s with lamps := x } := by
  intro b hb; cases b <;> first | rfl | simp at hb

theorem LampMove.touches {s t : State} (h : LampMove s t) : changesOnly [.lamps] s t := by
  cases h with
  | output => exact touches_lamps s _
  | resetGroup => exact touches_lamps s _
  | proving => exact touches_lamps s _

theorem touches_channels (s : State) (x : Tab Channel 8) :
    changesOnly [.channels] s { s with channels := x } := by
  intro b hb; cases b <;> first | rfl | simp at hb

theorem touches_startup (s : State) (x : Startup) :
    changesOnly [.startup] s { s with startup := x } := by
  intro b hb; cases b <;> first | rfl | simp at hb

/-! ## What an accepted image starts -/

/-- The parts an accepted image writes outside the entry controller. -/
abbrev begunBlocks : List Block :=
  [.cfg, .startup, .loader, .alerts, .peers, .probe, .channels, .lamps]

theorem blocksBegun_touches (img : List Byte) (s : State) :
    changesOnly begunBlocks s (blocksBegun img s) := by
  intro b hb; cases b <;> first | rfl | simp at hb

theorem entryBegun_touches (s : State) : changesOnly [.entry] s (entryBegun s) := by
  intro b hb; cases b <;> first | rfl | simp at hb

theorem begun_touches (img : List Byte) (s : State) :
    changesOnly (.entry :: begunBlocks) s (begun img s) := by
  unfold begun
  split
  · exact changesOnly_trans (changesOnly_mono (blocksBegun_touches img s) (by simp))
      (changesOnly_mono (entryBegun_touches _) (by simp))
  · exact changesOnly_mono (blocksBegun_touches img s) (by simp)

theorem resetEnded_touches (s : State) :
    changesOnly [.startup, .restartHold, .store, .loader, .port] s (resetEnded s) := by
  intro b hb; cases b <;> first | rfl | simp at hb

theorem settleTimer_keeps (now : Clock) (occupied : Bool) (x : StopLine) :
    (settleTimer now occupied x).queue = x.queue ∧ (settleTimer now occupied x).head = x.head ∧
      (settleTimer now occupied x).aspect = x.aspect ∧
      (settleTimer now occupied x).amber = x.amber := by
  unfold settleTimer
  repeat' split
  all_goals exact ⟨rfl, rfl, rfl, rfl⟩

theorem stopLine_presenceBegun (s : State) (k : Lane) :
    stopLine (presenceBegun s) k =
      if laneInUse s k then settleTimer s.clock (s.inputs.presence.at k) (stopLine s k)
      else stopLine s k := Tab.at_make _ _

theorem stopLine_startAspects (s : State) (k : Lane) :
    stopLine (startAspects s) k =
      if laneInUse s k then { stopLine s k with aspect := some (wantedAspect s k) }
      else stopLine s k := Tab.at_make _ _

theorem stopLine_entryBegun (s : State) (k : Lane) :
    stopLine (entryBegun s) k =
      if laneInUse s k then
        { settleTimer s.clock (s.inputs.presence.at k) (stopLine s k) with
          aspect := some (wantedAspect s k) }
      else stopLine s k := by
  have hline := stopLine_presenceBegun s k
  have hw : wantedAspect (presenceBegun s) k = wantedAspect s k :=
    wantedAspect_congr (s := s) (t := presenceBegun s) rfl rfl (groupFaulted_congr rfl k) (by
      rw [hline]
      split
      · exact (settleTimer_keeps _ _ _).2.1
      · rfl)
  rw [entryBegun, stopLine_startAspects, hw, hline, laneInUse_congr (s := s) (t := presenceBegun s) rfl]
  split <;> rfl

end Sys2Proof.Proofs
end

