-- ==== Sys2Proof/Proofs/HeadsKept.lean ====
section
/-! PROOFS. Heads and held set stay right (section 8.1). -/

namespace Sys2Proof.Proofs

open Sys2Proof Sys2Proof.Machine

-- one declaration at a time: side by side they need a thread each
set_option Elab.async false

theorem followAspect_queue (now : Clock) (w : Aspect) (x : StopLine) :
    (followAspect now w x).queue = x.queue := by
  unfold followAspect; split <;> rfl

theorem settle_held (s : State) : (settle s).entry.held = s.entry.held := by
  rw [settle_entry, driveAspects_eq]; rfl

theorem settle_span (s : State) : (settle s).entry.span = s.entry.span := by
  rw [settle_entry, driveAspects_eq]; rfl

theorem settle_line_kept (s : State) (k : Lane) :
    (stopLine (settle s) k).queue = (stopLine s k).queue ∧
      (stopLine (settle s) k).head = (stopLine s k).head := by
  rw [stopLine_settle]
  split
  · exact ⟨followAspect_queue _ _ _, followAspect_head _ _ _⟩
  · exact ⟨rfl, rfl⟩

/-- A queue and head state as they are after reset. -/
theorem stopLine_inReset (cause : ResetCause) (hold : Option Clock) (st : Store) (i : Inputs)
    (p : List Instr) (k : Lane) :
    stopLine (State.inReset cause hold st i p) k = StopLine.afterReset := Tab.at_fill _ _

theorem headsRight_reset (cause : ResetCause) (hold : Option Clock) (st : Store) (i : Inputs)
    (p : List Instr) : headsRight (State.inReset cause hold st i p) := by
  refine ⟨fun k => ?_, fun k => ?_, List.nodup_nil⟩
  · rw [stopLine_inReset]; exact ⟨fun _ => rfl, fun _ => rfl⟩
  · rw [holdTime, stopLine_inReset]; exact ⟨nofun, nofun⟩

theorem begun_line_kept (img : List Byte) (s : State) (k : Lane) :
    (stopLine (begun img s) k).queue = (stopLine s k).queue ∧
      (stopLine (begun img s) k).head = (stopLine s k).head := by
  unfold begun
  split
  · rw [stopLine_entryBegun, stopLine_of_touches (blocksBegun_touches img s)]
    split
    · obtain ⟨hq, hh, -, -⟩ := settleTimer_keeps (blocksBegun img s).clock
        ((blocksBegun img s).inputs.presence.at k) (stopLine s k)
      exact ⟨hq, hh⟩
    · exact ⟨rfl, rfl⟩
  · rw [stopLine_of_touches (blocksBegun_touches img s)]
    exact ⟨rfl, rfl⟩

theorem begun_held (img : List Byte) (s : State) : (begun img s).entry.held = s.entry.held := by
  unfold begun; split <;> rfl

theorem begun_span (img : List Byte) (s : State) : (begun img s).entry.span = s.entry.span := by
  unfold begun; split <;> rfl

theorem StartMove.headsRight {s t : State} (hm : StartMove s t) (h : headsRight s) :
    headsRight t := by
  cases hm with
  | reset cause hold torn =>
    unfold enterReset
    split
    · exact headsRight_of_entry (s := s) (fun _ => rfl) rfl h
    · exact headsRight_reset _ _ _ _ _
  | load => exact headsRight_of_touches (resetEnded_touches s) h
  | fault => exact headsRight_of_entry (s := s) (fun _ => rfl) rfl h
  | join img => exact headsRight_of_lines (begun_line_kept img s) (begun_held img s) h
  | run => exact headsRight_of_entry (s := s) (fun _ => rfl) rfl h

theorem Move.headsRight {B C : Prop} {s t : State} (hm : Move B C s t) (h : headsRight s) :
    headsRight t := by
  cases hm with
  | unread hu => exact headsRight_of_touches hu h
  | alert ha => exact headsRight_of_touches ha.touches h
  | line hl => exact headsRight_of_touches hl.touches h
  | entry he => exact he.headsRight h
  | pairing hp => exact headsRight_of_touches hp.touches h
  | vehicle hv => exact headsRight_of_touches hv.touches h
  | trim ht => exact headsRight_of_touches ht.touches h
  | lamp hl => exact headsRight_of_touches hl.touches h
  | start hs => exact hs.headsRight h
  | channel => exact headsRight_of_touches (touches_channels s _) h
  | approach => exact headsRight_of_touches (touches_approach s _) h
  | port => exact headsRight_of_touches (touches_port s _) h
  | clear x => exact headsRight_of_touches (clearSource_touches s x) h
  | settle => exact headsRight_of_lines (settle_line_kept s) (settle_held s) h

/-- Settles O7: every operation of the entry controller ends with heads and held set right, and no
other operation writes them. -/
theorem stepKeepsHeadsRight : Obligations.StepKeepsHeadsRight :=
  fun _ _ h hstep =>
    step_keeps (B := False) (fun _ _ => False.elim) Move.headsRight (fun _ h => h) hstep h

end Sys2Proof.Proofs
end

