-- ==== Sys2Proof/Proofs/EntryBits.lean ====
section
/-! PROOFS. What the operations of the entry controller are made of: writes that leave aspects and amber
timers alone, events and condition sources, notices for the line, counters. What such bits keep, the
whole operations keep. -/

namespace Sys2Proof.Proofs

open Sys2Proof Sys2Proof.Machine

-- one declaration at a time: side by side they need a thread each
set_option Elab.async false

/-! ## The bits -/

/-- Every lane shows what it showed. -/
def sameAspects (s t : State) : Prop :=
  ∀ k, (stopLine t k).aspect = (stopLine s k).aspect ∧ (stopLine t k).amber = (stopLine s k).amber

theorem sameAspects_of_lines {s t : State} (h : ∀ k, stopLine t k = stopLine s k) :
    sameAspects s t := fun k => by rw [h k]; exact ⟨rfl, rfl⟩

theorem sameAspects_of_touches {bs : List Block} {s t : State} (h : changesOnly bs s t)
    (hb : Block.entry ∉ bs := by decide) : sameAspects s t :=
  sameAspects_of_lines (stopLine_of_touches h hb)

/-- A bit of an operation of the entry controller. -/
inductive EntryBit : State → State → Prop
  | alert {s t : State} (h : AlertMove s t) : EntryBit s t
  | line {s t : State} (h : LineMove s t) : EntryBit s t
  | counters (s : State) (x : Counters) : EntryBit s { s with counters := x }
  | entry {s t : State} (h : changesOnly [.entry] s t) (ha : sameAspects s t) : EntryBit s t

/-- A chain of bits. -/
abbrev EntryBits : State → State → Prop := Relation.ReflTransGen EntryBit

/-- What every bit keeps, a chain of bits keeps. -/
theorem EntryBits.keeps {P : State → Prop} (h : ∀ {s t}, EntryBit s t → P s → P t) {s t : State}
    (hm : EntryBits s t) (hs : P s) : P t := by
  induction hm with
  | refl => exact hs
  | tail _ hb ih => exact h hb ih

/-! ## Operations of one bit -/

theorem bits_raise (x : AlertSource) (s : State) : EntryBits s (raise x s) :=
  .single (.alert (.raise x s))

theorem bits_takeConditions (s : State) : EntryBits s (takeConditions s) :=
  .single (.alert (.takeConditions s))

theorem bits_countLane (l : Lane) (f : LaneCounts → LaneCounts) (s : State) :
    EntryBits s (countLane l f s) := .single (.counters s _)

theorem bits_enqueue (n : Notice) (s : State) : EntryBits s (enqueue n s) :=
  .trans (.single (.line (.queueFrame n s))) (.single (.line (.takeIntoFlight _)))

/-- A write of the entry controller that leaves its lanes alone. -/
theorem bits_entry {s : State} {x : EntryController} (hl : x.lanes = s.entry.lanes := by rfl) :
    EntryBits s { s with entry := x } :=
  .single (.entry (touches_entry s x) (sameAspects_of_lines (stopLine_congr (s := s) hl)))

/-- A lane's line written with its aspect and amber timer as they were. -/
theorem bits_setStopLine {l : Lane} {x : StopLine} {s : State}
    (ha : x.aspect = (stopLine s l).aspect := by rfl)
    (hm : x.amber = (stopLine s l).amber := by rfl) : EntryBits s (setStopLine l x s) := by
  refine .single (.entry (setStopLine_touches l x s) fun k => ?_)
  rw [stopLine_setStopLine]
  split
  next hk => rw [hk]; exact ⟨ha, hm⟩
  next => exact ⟨rfl, rfl⟩

theorem bits_setHead (l : Lane) (h : HeadState) (s : State) : EntryBits s (setHead l h s) :=
  bits_setStopLine

theorem bits_popHead (l : Lane) (s : State) : EntryBits s (popHead l s) := bits_setStopLine

theorem bits_leaveHeld (l : Lane) (s : State) : EntryBits s (leaveHeld l s) := bits_entry

theorem bits_becomeHeld (l : Lane) (w : Nat) (s : State) : EntryBits s (becomeHeld l w s) :=
  .trans (bits_entry (s := s)) (bits_setHead l _ _)

theorem bits_joinSpan (e : SpanEntry) (s : State) : EntryBits s (joinSpan e s) := bits_entry

theorem bits_makeOverdue (g : Tag) (s : State) : EntryBits s (makeOverdue g s) := bits_entry

theorem bits_clearLost (s : State) : EntryBits s (clearLost s) := by
  unfold clearLost
  split
  · exact bits_entry
  · exact .refl

theorem bits_setLost (s : State) : EntryBits s (setLost s) :=
  .trans (bits_entry (s := s)) (bits_raise _ _)

theorem bits_runArbiter (s : State) : EntryBits s (runArbiter s) :=
  .single (.entry (runArbiter_touches s) fun k =>
    ⟨headsOnly_aspect (runArbiter_headsOnly s) k, headsOnly_amber (runArbiter_headsOnly s) k⟩)

theorem bits_if {p : Prop} [Decidable p] {s t : State} (h : EntryBits s t) :
    EntryBits s (if p then t else s) := by
  split
  · exact h
  · exact .refl

theorem bits_ite {p : Prop} [Decidable p] {s t u : State} (ht : EntryBits s t)
    (hu : EntryBits s u) : EntryBits s (if p then t else u) := by
  split
  · exact ht
  · exact hu

/-! ## Whole operations -/

theorem bits_queueEntered (l : Lane) (r : Record) (w : Nat) (s : State) :
    EntryBits s (queueEntered l r w s) := by
  unfold queueEntered
  split
  · exact bits_enqueue _ s
  · exact .refl

theorem bits_evaluateHead (l : Lane) (s : State) : EntryBits s (evaluateHead l s) := by
  unfold evaluateHead
  split
  · exact bits_setHead l _ s
  · refine bits_ite (bits_setHead l _ s) (bits_ite ?_ (bits_ite (bits_setHead l _ s) (bits_becomeHeld l _ s)))
    exact .trans (.trans (bits_setHead l _ s) (bits_raise _ _)) (bits_countLane _ _ _)

theorem bits_regularCrossing (l : Lane) (r : Record) (a : Nat) (unseen : Bool) (s : State) :
    EntryBits s (regularCrossing l r a unseen s) := by
  unfold regularCrossing
  split
  · exact .trans (.trans (.trans (bits_popHead l s) (bits_joinSpan _ _)) (bits_runArbiter _))
      (bits_queueEntered _ _ _ _)
  · exact .trans (bits_popHead l s) (bits_runArbiter _)

theorem bits_aspectAlerts (l : Lane) (a : Option Aspect) (s : State) :
    EntryBits s (aspectAlerts l a s) := by
  unfold aspectAlerts
  split
  · exact .trans (bits_raise _ _) (bits_countLane _ _ _)
  · exact bits_raise _ _
  · exact .refl

/-- R137, R145: the span set where there is room, or the accounting is lost. -/
theorem bits_joinSpan_or_setLost (g : Option Tag) (e : Tag → SpanEntry) (s : State) :
    EntryBits s (match g with
      | some g => if s.entry.span.length + admittedHeads s < 24 then joinSpan (e g) s else setLost s
      | none => s) := by
  split
  · exact bits_ite (bits_joinSpan _ s) (bits_setLost s)
  · exact .refl

theorem bits_nonAdmittedEntry (l : Lane) (r : Record) (wasHeld wasStop unseen : Bool) (s : State) :
    EntryBits s (nonAdmittedEntry l r wasHeld wasStop unseen s) := by
  have hgone : EntryBits s (leaveHeld l (popHead l s)) :=
    .trans (bits_popHead l s) (bits_leaveHeld l _)
  have haspect (t : State) : EntryBits t
      (if unseen then t else aspectAlerts l (stopLine s l).aspect t) :=
    bits_ite .refl (bits_aspectAlerts _ _ _)
  have hraise (t : State) : EntryBits t
      (if wasStop && !unseen then raise .noncompliantEntered t else t) := bits_if (bits_raise _ _)
  have harbiter (t : State) : EntryBits t (if wasHeld then runArbiter t else t) :=
    bits_if (bits_runArbiter t)
  unfold nonAdmittedEntry
  exact .trans (.trans (.trans (.trans (.trans hgone (haspect _)) (hraise _))
    (bits_joinSpan_or_setLost r.tag (fun g => { spanEntry s l g (nonAdmittedWeight s r) with
      redRun := !unseen && decide ((stopLine s l).aspect = some .red)
      uncontrolled := !unseen && decide ((stopLine s l).aspect = some .dark)
      unseen := unseen, noncompliant := wasStop }) _))
    (bits_queueEntered l r _ _)) (harbiter _)

theorem bits_headEnters (l : Lane) (unseen : Bool) (s : State) :
    EntryBits s (headEnters l unseen s) := by
  unfold headEnters
  split
  · exact .refl
  · refine .trans ?_ (bits_evaluateHead l _)
    split
    · exact bits_regularCrossing _ _ _ _ s
    · exact bits_nonAdmittedEntry _ _ _ _ _ s
    · exact bits_nonAdmittedEntry _ _ _ _ _ s
    · exact .trans (bits_popHead l s) (bits_entry (s := popHead l s))
    · exact bits_popHead l s

theorem bits_crossing (l : Lane) (s : State) : EntryBits s (crossing l s) :=
  bits_ite (.trans (bits_entry (s := s)) (bits_raise _ _)) (bits_headEnters l false s)

theorem bits_joinStopLine (r : Record) (s : State) : EntryBits s (joinStopLine r s) := by
  have hroom : EntryBits s
      (if 8 ≤ (stopLine s r.lane).queue.length then overflowQueue r.lane s else s) :=
    bits_if (.trans (bits_raise _ s) (bits_headEnters _ _ _))
  exact .trans (.trans hroom bits_setStopLine) (bits_if (bits_evaluateHead _ _))

theorem bits_departSpan (keep : SpanEntry → Bool) (s : State) :
    EntryBits s (departSpan keep s) :=
  bits_ite .refl (.trans (.trans (.trans (bits_entry (s := s)) (bits_clearLost _))
    (bits_takeConditions _)) (bits_runArbiter _))

theorem bits_turnAway (l : Lane) (wasHeld : Bool) (s : State) :
    EntryBits s (turnAway l wasHeld s) := by
  have hgone : EntryBits s { leaveHeld l (popHead l s) with
      entry.turnedAway := (leaveHeld l (popHead l s)).entry.turnedAway + 1 } :=
    .trans (.trans (bits_popHead l s) (bits_leaveHeld l _)) (bits_entry (s := leaveHeld l (popHead l s)))
  exact .trans (.trans hgone (bits_if (bits_runArbiter _))) (bits_evaluateHead l _)

/-- Every operation of the entry controller is made of bits, but for the end of an AMBER. -/
theorem EntryMove.bits {s t : State} (h : EntryMove s t) :
    EntryBits s t ∨ ∃ l, (stopLine s l).amber.isSome = true ∧
      t = setStopLine l { stopLine s l with aspect := some .red, amber := none } s := by
  cases h with
  | joinStopLine r => exact .inl (bits_joinStopLine r s)
  | crossing l => exact .inl (bits_crossing l s)
  | runArbiter => exact .inl (bits_runArbiter s)
  | departSpan keep => exact .inl (bits_departSpan keep s)
  | makeOverdue g => exact .inl (bits_makeOverdue g s)
  | released w => exact .inl (bits_becomeHeld _ w s)
  | turnAway => exact .inl (bits_turnAway _ _ s)
  | presence _ _ ha hm => exact .inl (bits_setStopLine ha hm)
  | amberEnds h => exact .inr ⟨_, h, rfl⟩
  | other hl => exact .inl (bits_entry hl)

end Sys2Proof.Proofs
end

