-- ==== Sys2Proof/Proofs/SettledKept.lean ====
section
/-! PROOFS. Every step ends settled. What `settle` needs of a state, `Ready`, is kept by every move, part
by part: aspects with their amber timers, outputs that are off, condition sources. -/

namespace Sys2Proof.Proofs

open Sys2Proof Sys2Proof.Machine

-- one declaration at a time: side by side they need a thread each
set_option Elab.async false

/-! ## The three parts of `Ready` -/

/-- A lane the entry controller works on has an aspect, and an amber timer exactly in AMBER; no other
lane has either. -/
def aspectsReady (u : State) : Prop :=
  ∀ l, if laneActs u l then
      (stopLine u l).aspect.isSome = true ∧
        ((stopLine u l).amber.isSome = true ↔ (stopLine u l).aspect = some .amber)
    else (stopLine u l).aspect = none ∧ (stopLine u l).amber = none

/-- An output that is off has neither a blanking time nor an open timer. -/
def lampsReady (u : State) : Prop :=
  ∀ o, (outputOf u o).on = false → (outputOf u o).blanking = none ∧ (outputOf u o).openTimer = none

/-- A working alert unit has set the sticky of every LEVEL source it remembers true; another holds
nothing. -/
def alertsReady (u : State) : Prop :=
  if working u then
    ∀ x ∈ conditionSources, triggerOf u x = .level → (alertOf u x).remembered = true →
      (alertOf u x).sticky = true
  else u.alerts.sources = AlertUnit.afterReset.sources

theorem ready_iff {u : State} : Ready u ↔ aspectsReady u ∧ lampsReady u ∧ alertsReady u :=
  ⟨fun h => ⟨h.aspects, h.lamps, h.alerts⟩, fun ⟨ha, hl, hx⟩ => ⟨ha, hl, hx⟩⟩

/-! ## What each part rests on -/

theorem aspectsReady_of {s t : State} (hs : working t = working s) (hc : t.cfg = s.cfg)
    (ha : sameAspects s t) (h : aspectsReady s) : aspectsReady t := fun l => by
  have hacts : laneActs t l = laneActs s l := by
    simp only [laneActs, entryActs, hs, laneInUse_congr hc, hc]
  rw [hacts, (ha l).1, (ha l).2]
  exact h l

theorem aspectsReady_of_touches {bs : List Block} {s t : State} (h : changesOnly bs s t)
    (hs : aspectsReady s) (he : Block.entry ∉ bs := by decide)
    (hu : Block.startup ∉ bs := by decide) (hc : Block.cfg ∉ bs := by decide) : aspectsReady t :=
  aspectsReady_of (working_congr (h .startup hu)) (h .cfg hc) (sameAspects_of_touches h he) hs

theorem lampsReady_of {s t : State} (h : t.lamps = s.lamps) (hs : lampsReady s) : lampsReady t :=
  fun o => by
    have ho : outputOf t o = outputOf s o := by simp only [outputOf, h]
    rw [ho]
    exact hs o

theorem lampsReady_of_touches {bs : List Block} {s t : State} (h : changesOnly bs s t)
    (hs : lampsReady s) (hb : Block.lamps ∉ bs := by decide) : lampsReady t :=
  lampsReady_of (h .lamps hb) hs

theorem alertsReady_of {s t : State} (hs : working t = working s) (hc : t.cfg = s.cfg)
    (ha : t.alerts.sources = s.alerts.sources) (h : alertsReady s) : alertsReady t := by
  have halert (x : AlertSource) : alertOf t x = alertOf s x := by simp only [alertOf, ha]
  unfold alertsReady at *
  simp only [hs, triggerOf_congr hc, halert, ha]
  exact h

theorem alertsReady_of_touches {bs : List Block} {s t : State} (h : changesOnly bs s t)
    (hs : alertsReady s) (ha : Block.alerts ∉ bs := by decide)
    (hu : Block.startup ∉ bs := by decide) (hc : Block.cfg ∉ bs := by decide) : alertsReady t :=
  alertsReady_of (working_congr (h .startup hu)) (h .cfg hc)
    (congrArg AlertUnit.sources (h .alerts ha)) hs

theorem ready_of_touches {bs : List Block} {s t : State} (h : changesOnly bs s t) (hs : Ready s)
    (hb : ∀ b ∈ [Block.startup, .cfg, .entry, .lamps, .alerts], b ∉ bs := by decide) : Ready t := by
  obtain ⟨ha, hl, hx⟩ := ready_iff.1 hs
  have hu := hb .startup (by simp)
  have hc := hb .cfg (by simp)
  exact ready_iff.2 ⟨aspectsReady_of_touches h ha (hb .entry (by simp)) hu hc,
    lampsReady_of_touches h hl (hb .lamps (by simp)),
    alertsReady_of_touches h hx (hb .alerts (by simp)) hu hc⟩

/-! ## The alert unit -/

/-- One source is written: it must keep LEVEL, remembered and sticky together. -/
theorem alertsReady_setAlert {s : State} {x : AlertSource} {a : AlertState} (hw : working s = true)
    (h : alertsReady s)
    (hx : triggerOf s x = .level → a.remembered = true → a.sticky = true) :
    alertsReady (setAlert x a s) := by
  have hwt : working (setAlert x a s) = true := hw
  unfold alertsReady at *
  rw [if_pos hw] at h
  rw [if_pos hwt]
  intro y hy ht hr
  by_cases hxy : y = x
  · subst hxy
    rw [alertOf_setAlert_self] at hr ⊢
    exact hx ht hr
  · rw [alertOf_setAlert_ne _ _ hxy] at hr ⊢
    exact h y hy ht hr

theorem alertsReady_raise (x : AlertSource) {s : State} (h : alertsReady s) :
    alertsReady (raise x s) := by
  unfold raise
  split
  next hw => exact alertsReady_setAlert hw h fun _ _ => rfl
  next => exact h

theorem alertsReady_takeRaw {x : AlertSource} {s : State} (hw : working s = true)
    (h : alertsReady s) : alertsReady (takeRaw s x) := by
  simp only [takeRaw]
  split
  · exact h
  split
  · exact alertsReady_setAlert hw h fun _ _ => rfl
  next hs =>
    refine alertsReady_setAlert hw h fun ht hr => ?_
    exact absurd (by simpa [ht, Trigger.sets] using hr) hs

theorem alertsReady_takeConditions {s : State} (h : alertsReady s) :
    alertsReady (takeConditions s) := by
  have hall (l : List AlertSource) : ∀ s, working s = true → alertsReady s →
      alertsReady (l.foldl takeRaw s) := by
    induction l with
    | nil => exact fun _ _ h => h
    | cons x l ih =>
      intro s hw h
      obtain ⟨v, hv⟩ := takeRaw_put s x
      exact ih _ (by rw [hv]; exact hw) (alertsReady_takeRaw hw h)
  unfold takeConditions
  split
  next hw => exact hall _ s hw h
  next => exact h

theorem AlertMove.alertsReady {s t : State} (hm : AlertMove s t) (h : alertsReady s) :
    alertsReady t := by
  cases hm with
  | raise x => exact alertsReady_raise x h
  | takeConditions => exact alertsReady_takeConditions h

/-- R190: a source that is cleared once its raw state is taken. -/
theorem alertsReady_clearSource {s : State} (x : AlertSource) (hall : remembersAll s)
    (h : alertsReady s) : alertsReady (clearSource s x) := by
  obtain ⟨hw, hrem⟩ := hall
  simp only [clearSource]
  split
  · exact alertsReady_setAlert hw h fun _ _ => rfl
  next hc =>
    by_cases hx : isCondition x = true
    · refine alertsReady_setAlert hw h fun ht hr => ?_
      exact absurd ⟨hx, ht, (hrem x hx).symm.trans hr⟩ hc
    · have hsame : ∀ y ∈ conditionSources,
          alertOf (setAlert x { alertOf s x with sticky := false } s) y = alertOf s y :=
        fun y hy => alertOf_setAlert_ne _ _ fun e =>
          hx (by revert hy; rw [e]; cases x <;> simp [conditionSources, isCondition])
      have hwt : working (setAlert x { alertOf s x with sticky := false } s) = true := hw
      unfold Proofs.alertsReady at *
      rw [if_pos hw] at h
      rw [if_pos hwt]
      intro y hy
      rw [hsame y hy]
      exact h y hy

theorem alertsReady_dropFrame {s : State} (h : alertsReady s) : alertsReady (dropFrame s) :=
  alertsReady_raise _ (alertsReady_of_touches (touches_line s _) h)

theorem alertsReady_queueFrame (n : Notice) {s : State} (h : alertsReady s) :
    alertsReady (queueFrame n s) := by
  simp only [queueFrame]
  split
  · exact alertsReady_of_touches (touches_line s _) h
  split
  · exact alertsReady_of_touches (touches_line s _) h
  split
  · exact alertsReady_dropFrame (alertsReady_of_touches (touches_line s _) h)
  · exact alertsReady_dropFrame h

theorem LineMove.alertsReady {s t : State} (hm : LineMove s t) (h : alertsReady s) :
    alertsReady t := by
  cases hm with
  | queueFrame n => exact alertsReady_queueFrame n h
  | takeIntoFlight => exact alertsReady_of_touches (takeIntoFlight_touches s) h
  | discardSightings g => exact alertsReady_of_touches (discardSightings_touches g s) h
  | other => exact alertsReady_of_touches (touches_line s _) h
  | store => exact alertsReady_of_touches (touches_line s _) h
  | free => exact alertsReady_of_touches (touches_line s _) h

theorem alertsReady_formPending (l : Lane) {s : State} (h : alertsReady s) :
    alertsReady (formPending l s) := by
  simp only [formPending]
  split
  · exact alertsReady_raise _ (alertsReady_of_touches (touches_trim s _) h)
  · exact alertsReady_of_touches (touches_trim s _) h

theorem TrimMove.alertsReady {s t : State} (hm : TrimMove s t) (h : alertsReady s) :
    alertsReady t := by
  cases hm with
  | offer r ref =>
    simp only [offerTrim]
    split
    · split
      · exact alertsReady_formPending _ (alertsReady_of_touches (touches_trim s _) h)
      · exact alertsReady_of_touches (touches_trim s _) h
    · exact alertsReady_of_touches (touches_trim s _) h
  | apply l => exact alertsReady_of_touches (applyTrim_touches l s) h

theorem EntryBit.alertsReady {s t : State} (hm : EntryBit s t) (h : alertsReady s) :
    alertsReady t := by
  cases hm with
  | alert ha => exact ha.alertsReady h
  | line hl => exact hl.alertsReady h
  | counters => exact alertsReady_of_touches (touches_counters s _) h
  | entry he => exact alertsReady_of_touches he h

/-! ## Aspects -/

theorem EntryBit.aspectsReady {s t : State} (hm : EntryBit s t) (h : aspectsReady s) :
    aspectsReady t := by
  cases hm with
  | alert ha => exact aspectsReady_of_touches ha.touches h
  | line hl => exact aspectsReady_of_touches hl.touches h
  | counters => exact aspectsReady_of_touches (touches_counters s _) h
  | entry he ha => exact aspectsReady_of (working_congr (he .startup (by decide))) (he .cfg (by decide)) ha h

/-- R141: an AMBER that ends leaves RED, and no amber timer. -/
theorem aspectsReady_amberEnds {l : Lane} {s : State} (hl : (stopLine s l).amber.isSome = true)
    (h : aspectsReady s) :
    aspectsReady (setStopLine l { stopLine s l with aspect := some .red, amber := none } s) := by
  intro k
  have hacts : laneActs (setStopLine l { stopLine s l with aspect := some .red, amber := none } s) k =
      laneActs s k := laneActs_congr (s := s) rfl rfl k
  have hs := h k
  rw [hacts]
  by_cases he : k = l
  · subst he
    rw [stopLine_setStopLine_self]
    by_cases hk : laneActs s k = true
    · rw [if_pos hk]
      exact ⟨rfl, by simp⟩
    · rw [if_neg hk] at hs
      simp [hs.2] at hl
  · rw [stopLine_setStopLine, if_neg he]
    exact hs

theorem EntryMove.ready {s t : State} (hm : EntryMove s t) (h : Ready s) : Ready t := by
  obtain ⟨ha, hl, hx⟩ := ready_iff.1 h
  refine ready_iff.2 ⟨?_, lampsReady_of_touches hm.touches hl, ?_⟩
  · obtain hb | ⟨l, hamber, rfl⟩ := hm.bits
    · exact hb.keeps EntryBit.aspectsReady ha
    · exact aspectsReady_amberEnds hamber ha
  · obtain hb | ⟨l, hamber, rfl⟩ := hm.bits
    · exact hb.keeps EntryBit.alertsReady hx
    · exact alertsReady_of_touches (setStopLine_touches _ _ s) hx

/-! ## Outputs -/

theorem outputOf_setOutput (o k : Output) (x : LampOutput) (s : State) :
    outputOf (setOutput o x s) k = if k = o then x else outputOf s k := by
  unfold outputOf setOutput
  exact Tab.at_put _ _ _ _

theorem outputOf_resetGroup (l : Lane) (s : State) (k : Output) :
    outputOf (resetGroup l s) k =
      if (outputOf s k).inGroup l then resetOutput (outputOf s k) else outputOf s k :=
  Tab.at_make _ _

theorem LampMove.lampsReady {s t : State} (hm : LampMove s t) (h : lampsReady s) : lampsReady t := by
  cases hm with
  | @output o x s ho hoff =>
    intro k hk
    rw [outputOf_setOutput] at hk ⊢
    split at hk
    next he =>
      rw [if_pos he]
      obtain ⟨hb, ht⟩ := hoff hk
      obtain ⟨hsb, hst⟩ := h o (ho.symm.trans hk)
      exact ⟨hb.trans hsb, ht.elim id fun ht => ht.trans hst⟩
    next he => rw [if_neg he]; exact h k hk
  | resetGroup l =>
    intro k hk
    rw [outputOf_resetGroup] at hk ⊢
    split at hk
    next he => rw [if_pos he]; exact ⟨(h k hk).1, rfl⟩
    next he => rw [if_neg he]; exact h k hk
  | proving => exact h

/-! ## Resets and an accepted image -/

theorem working_eq_false {s : State} (h : s.startup = .reset ∨ s.startup = .loading ∨ s.startup = .fault) :
    working s = false := by
  unfold working
  obtain h | h | h := h <;> rw [h]

theorem laneActs_of_not_working {s : State} (h : working s = false) (l : Lane) :
    laneActs s l = false := by simp [laneActs, entryActs, h]

theorem ready_reset (cause : ResetCause) (hold : Option Clock) (st : Store) (i : Inputs)
    (p : List Instr) : Ready (State.inReset cause hold st i p) := by
  have hw : working (State.inReset cause hold st i p) = false := working_eq_false (.inl rfl)
  refine ready_iff.2 ⟨fun l => ?_, fun o _ => ?_, ?_⟩
  · rw [laneActs_of_not_working hw, stopLine_inReset]
    exact ⟨rfl, rfl⟩
  · have ho : outputOf (State.inReset cause hold st i p) o = LampOutput.afterReset := Tab.at_fill _ _
    rw [ho]
    exact ⟨rfl, rfl⟩
  · unfold alertsReady
    rw [hw]
    rfl

theorem lampsReady_startOutputs {s : State} (h : lampsReady s) : lampsReady (startOutputs s) := by
  intro o ho
  have heq : outputOf (startOutputs s) o =
      { outputOf s o with
        assignment := assignmentOf s.cfg o, enable := (assignmentOf s.cfg o).isSome } :=
    Tab.at_make _ _
  rw [heq] at ho ⊢
  exact h o ho

theorem working_begun (img : List Byte) (s : State) : working (begun img s) = true := by
  unfold begun; split <;> rfl

theorem begun_cfg (img : List Byte) (s : State) : (begun img s).cfg = readConfig img := by
  unfold begun; split <;> rfl

theorem begun_alerts (img : List Byte) (s : State) : (begun img s).alerts = AlertUnit.afterReset := by
  unfold begun; split <;> rfl

theorem begun_lamps (img : List Byte) (s : State) :
    (begun img s).lamps = (blocksBegun img s).lamps := by
  unfold begun; split <;> rfl

/-- R129, R141: an ENTRY station sets the aspect of each lane in use directly. -/
theorem aspectsReady_begun (img : List Byte) {s : State} (hs : s.startup = .loading)
    (h : aspectsReady s) : aspectsReady (begun img s) := by
  have hdark (l : Lane) : (stopLine s l).aspect = none ∧ (stopLine s l).amber = none := by
    have := h l
    rwa [laneActs_of_not_working (working_eq_false (.inr (.inl hs))), if_neg nofun] at this
  have hline (l : Lane) : stopLine (blocksBegun img s) l = stopLine s l :=
    stopLine_of_touches (blocksBegun_touches img s) (by decide) l
  intro l
  have hacts : laneActs (begun img s) l =
      ((readConfig img).entry && laneInUse (blocksBegun img s) l) := by
    simp only [laneActs, entryActs, working_begun, begun_cfg, Bool.true_and]
    rw [laneInUse_congr (s := blocksBegun img s) (t := begun img s) (begun_cfg img s)]
  rw [hacts]
  unfold begun
  cases he : (readConfig img).entry with
  | false =>
    simp only [Bool.false_and, Bool.false_eq_true, if_false, hline]
    exact hdark l
  | true =>
    simp only [Bool.true_and, if_true, stopLine_entryBegun, hline]
    split
    · obtain ⟨-, -, -, hm⟩ := settleTimer_keeps (blocksBegun img s).clock
        ((blocksBegun img s).inputs.presence.at l) (stopLine s l)
      refine ⟨rfl, ?_⟩
      simp [hm, (hdark l).2, wantedAspect_ne_amber]
    · exact hdark l

theorem StartMove.ready {s t : State} (hm : StartMove s t) (h : Ready s) : Ready t := by
  have hcopy := ready_iff.1 h
  obtain ⟨ha, hl, hx⟩ := hcopy
  cases hm with
  | reset cause hold torn =>
    unfold enterReset
    split
    · exact ready_of_touches (s := s) (bs := [.pendingCause, .store])
        (by intro b hb; cases b <;> first | rfl | simp at hb) h
    · exact ready_reset _ _ _ _ _
  | load hs =>
    have hw : working (resetEnded s) = working s :=
      (working_eq_false (.inr (.inl rfl))).trans (working_eq_false (.inl hs)).symm
    exact ready_iff.2 ⟨aspectsReady_of hw rfl (fun _ => ⟨rfl, rfl⟩) ha, hl, alertsReady_of hw rfl rfl hx⟩
  | fault x hs =>
    have hw : working { s with startup := .fault, loader := x } = working s :=
      (working_eq_false (.inr (.inr rfl))).trans (working_eq_false (.inr (.inl hs))).symm
    exact ready_iff.2 ⟨aspectsReady_of (s := s) hw rfl (fun _ => ⟨rfl, rfl⟩) ha, hl,
      alertsReady_of (s := s) hw rfl rfl hx⟩
  | join img hs =>
    refine ready_iff.2 ⟨aspectsReady_begun img hs ha,
      lampsReady_of (begun_lamps img s) (lampsReady_startOutputs hl), ?_⟩
    unfold alertsReady
    rw [if_pos (working_begun img s)]
    intro x _ _ hr
    have hzero : (alertOf (begun img s) x).remembered = false := by
      rw [alertOf, begun_alerts]
      exact congrArg AlertState.remembered (Tab.at_fill _ _)
    rw [hzero] at hr
    cases hr
  | run x hs =>
    have hw : working { s with startup := .running, peers := x } = working s := by
      simp only [working, hs]
    exact ready_iff.2 ⟨aspectsReady_of (s := s) hw rfl (fun _ => ⟨rfl, rfl⟩) ha, hl,
      alertsReady_of (s := s) hw rfl rfl hx⟩

/-! ## Every move, every step -/

theorem Move.ready {B : Prop} {s t : State} (hm : Move B True s t) (h : Ready s) : Ready t := by
  have hcopy := ready_iff.1 h
  obtain ⟨ha, hl, hx⟩ := hcopy
  cases hm with
  | unread hu => exact ready_of_touches hu h
  | alert hm =>
    exact ready_iff.2 ⟨aspectsReady_of_touches hm.touches ha, lampsReady_of_touches hm.touches hl,
      hm.alertsReady hx⟩
  | line hm =>
    exact ready_iff.2 ⟨aspectsReady_of_touches hm.touches ha, lampsReady_of_touches hm.touches hl,
      hm.alertsReady hx⟩
  | entry hm => exact hm.ready h
  | pairing hm => exact ready_of_touches hm.touches h
  | vehicle hm => exact ready_of_touches hm.touches h
  | trim hm =>
    exact ready_iff.2 ⟨aspectsReady_of_touches hm.touches ha, lampsReady_of_touches hm.touches hl,
      hm.alertsReady hx⟩
  | lamp hm =>
    exact ready_iff.2 ⟨aspectsReady_of_touches hm.touches ha, hm.lampsReady hl,
      alertsReady_of_touches hm.touches hx⟩
  | start hm => exact hm.ready h
  | channel => exact ready_of_touches (touches_channels s _) h
  | approach => exact ready_of_touches (touches_approach s _) h
  | port => exact ready_of_touches (touches_port s _) h
  | clear x hall =>
    exact ready_iff.2 ⟨aspectsReady_of_touches (clearSource_touches s x) ha,
      lampsReady_of_touches (clearSource_touches s x) hl,
      alertsReady_clearSource x (hall trivial) hx⟩
  | settle => exact ready_of_settled (settled_settle h)

theorem remembersAll_of_settled {s : State} (h : settled s = true) (hw : working s = true) :
    remembersAll s := ⟨hw, fun _ hx => remembered_of_settled h hw hx⟩

/-- Every command ends settled. -/
theorem exec_settled {c : Instr} {s t : State} (hs : settled s = true) (h : exec c s = .next t) :
    settled t = true := by
  obtain hr | ⟨u, hu, hr⟩ := exec_moves (B := False) (C := True) c False.elim
    fun _ => remembersAll_of_settled hs
  · obtain rfl : s = t := by simpa [hr] using h
    exact hs
  · obtain rfl : settle u = t := by simpa [hr, done] using h
    exact settled_settle (hu.keeps Move.ready (ready_of_settled hs))

/-- Settles O4: what commands do leaves the state ready for `settle`, with which each of them ends. -/
theorem stepKeepsSettled : Obligations.StepKeepsSettled := by
  intro s t hs h
  obtain rfl | ⟨c, rest, hc⟩ := step_cases h
  · rw [settled_congr (s := s) (t := tick s) rfl rfl rfl rfl rfl rfl rfl rfl rfl]
    exact hs
  · refine exec_settled ?_ hc
    rw [settled_congr (s := s) (t := { s with pending := rest }) rfl rfl rfl rfl rfl rfl rfl rfl rfl]
    exact hs

end Sys2Proof.Proofs
end

