-- ==== Sys2Proof/Proofs/StepSound.lean ====
section
/-! PROOFS. The step, reset, and that every command completes with the waiting commands as they were. -/

namespace Sys2Proof.Proofs

open Sys2Proof Sys2Proof.Machine

-- one declaration at a time: side by side they need a thread each
set_option Elab.async false

theorem StartMove.pending {s t : State} (hm : StartMove s t) : t.pending = s.pending := by
  cases hm with
  | reset cause hold torn => unfold enterReset; split <;> rfl
  | load => rfl
  | fault => rfl
  | join img => exact begun_touches img s .pending (by decide)
  | run => rfl

/-- No move adds or takes a waiting command. -/
theorem Move.pending {B C : Prop} {s t : State} (hm : Move B C s t) : t.pending = s.pending := by
  cases hm with
  | unread hu => exact hu .pending (by decide)
  | alert hm => exact hm.touches .pending (by decide)
  | line hm => exact hm.touches .pending (by decide)
  | entry hm => exact hm.touches .pending (by decide)
  | pairing hm => exact hm.touches .pending (by decide)
  | vehicle hm => exact hm.touches .pending (by decide)
  | trim hm => exact hm.touches .pending (by decide)
  | lamp hm => exact hm.touches .pending (by decide)
  | start hm => exact hm.pending
  | channel => rfl
  | approach => rfl
  | port => rfl
  | clear x => exact clearSource_touches s x .pending (by decide)
  | settle => exact settle_pending s

/-- Settles O3: a command leaves the state as it is or settles a state that moves lead to. -/
theorem everyCommandCompletes : Obligations.EveryCommandCompletes := by
  intro i s
  have hm := exec_moves (B := False) (C := False) (s := s) i False.elim False.elim
  obtain ⟨t, ht⟩ : ∃ t, exec i s = .next t := by
    obtain hr | ⟨u, -, hr⟩ := hm
    · exact ⟨s, hr⟩
    · exact ⟨settle u, hr⟩
  exact ⟨t, ht, (moves_of_result hm ht).keeps (P := fun u => u.pending = s.pending)
    (fun h hs => h.pending.trans hs) rfl⟩

/-- Settles O1: by the definition of a step; one microsecond later the clock has moved by one. -/
theorem stepTakesFrontCommand : Obligations.StepTakesFrontCommand := by
  refine ⟨fun s c rest h => by simp only [step, h], fun s h =>
    ⟨tick s, step_idle h, ?_, rfl, tick_touches s⟩⟩
  have hdiff : s.clock + 1 - s.clock = 1 := by bv_omega
  exact congrArg BitVec.toNat hdiff

theorem channelOf_reset (p : Strip) : channelOf State.reset p = Channel.afterReset := Tab.at_fill _ _

theorem outputOf_reset (o : Output) : outputOf State.reset o = LampOutput.afterReset := Tab.at_fill _ _

/-- After reset every row of the peer table is as it was never heard. -/
theorem postureRight_reset : postureRight State.reset :=
  ⟨fun _ => rfl, nofun⟩

/-- Settles O2: by evaluation; the settled state and the sizes are finite checks. -/
theorem resetIsSound : Obligations.ResetIsSound :=
  ⟨rfl, rfl, rfl, rfl, fun p => by rw [channelOf_reset]; rfl, by decide, rfl, rfl,
    fun o => by rw [outputOf_reset]; rfl, by decide, by decide, by decide,
    headsRight_reset _ _ _ _ _, List.Pairwise.nil, postureRight_reset⟩

end Sys2Proof.Proofs
end

