-- ==== Sys2Proof/Proofs/RangesKept.lean ====
section
/-! PROOFS. Trims stay within R165, the outbound queue stays ordered and free of repeats (R61, R62), and
channels stay OFF where they must be (R1, R183). -/

namespace Sys2Proof.Proofs

open Sys2Proof Sys2Proof.Machine

-- one declaration at a time: side by side they need a thread each
set_option Elab.async false

/-! ## Trims (R165) -/

theorem trimsInRange_iff {s : State} :
    trimsInRange s = true ↔ ∀ l, trimInRange (s.store.trims.at l) = true ∧
      ∀ p, (s.trim.at l).pending = some p → trimInRange p = true := by
  simp only [trimsInRange, List.all_eq_true, Bool.and_eq_true, Option.all_eq_true]
  exact ⟨fun h l => h l (mem_allLanes l), fun h l _ => h l⟩

theorem trimInRange_clamp (p : Nat) : trimInRange (clamp 3686 4506 p) = true := by
  rw [trimInRange, Bool.and_eq_true, decide_eq_true_eq, decide_eq_true_eq, clamp]
  omega

theorem trimsInRange_of {s t : State} (hs : t.store.trims = s.store.trims)
    (ht : ∀ l, (t.trim.at l).pending = (s.trim.at l).pending) (h : trimsInRange s = true) :
    trimsInRange t = true := by
  rw [trimsInRange_iff] at h ⊢
  intro l
  rw [hs, ht l]
  exact h l

theorem trimsInRange_of_touches {bs : List Block} {s t : State} (h : changesOnly bs s t)
    (hs : trimsInRange s = true) (hb : Block.store ∉ bs := by decide)
    (hc : Block.trim ∉ bs := by decide) : trimsInRange t = true :=
  trimsInRange_of (congrArg Store.trims (h .store hb)) (fun _ => by rw [h .trim hc]) hs

/-- A lane's trim record is written with a pending trim in range. -/
theorem trimsInRange_setTrim {l : Lane} {x : TrimLane} {s : State} (h : trimsInRange s = true)
    (hx : ∀ p, x.pending = some p → trimInRange p = true) :
    trimsInRange (setTrim l x s) = true := by
  rw [trimsInRange_iff] at h ⊢
  intro k
  refine ⟨(h k).1, ?_⟩
  by_cases hk : k = l
  · rw [hk, trim_at_setTrim_self]
    exact hx
  · rw [sameBut_setTrim l x s k hk]
    exact (h k).2

theorem trimsInRange_keepPending {l : Lane} {x : TrimLane} {s : State} (h : trimsInRange s = true)
    (hx : x.pending = (s.trim.at l).pending) : trimsInRange (setTrim l x s) = true :=
  trimsInRange_setTrim h (by rw [hx]; exact (trimsInRange_iff.1 h l).2)

theorem trimsInRange_formPending {l : Lane} {s : State} (h : trimsInRange s = true) :
    trimsInRange (formPending l s) = true := by
  have hset : trimsInRange (setTrim l (laneFormed l s) s) = true :=
    trimsInRange_setTrim h (by rintro p ⟨⟩; exact trimInRange_clamp _)
  rw [formPending_eq]
  split
  · exact trimsInRange_of_touches (raise_touches _ _) hset
  · exact hset

theorem trimsInRange_offerTrim {r : Record} {ref : Nat} {s : State} (h : trimsInRange s = true) :
    trimsInRange (offerTrim r ref s) = true := by
  by_cases ht : takesRatio r ref
  · have hjoined : trimsInRange (withRatio r ref s) = true := trimsInRange_keepPending h rfl
    rw [offerTrim_of_taken ht]
    split
    · exact trimsInRange_formPending hjoined
    · exact hjoined
  · rw [offerTrim_of_refused ht]
    exact trimsInRange_keepPending h rfl

theorem trimsInRange_writeTrim {l : Lane} {p : Nat} {s : State} (h : trimsInRange s = true)
    (hp : trimInRange p = true) : trimsInRange (writeTrim l p s) = true := by
  rw [trimsInRange_iff] at h ⊢
  intro k
  refine ⟨?_, (h k).2⟩
  change trimInRange ((s.store.trims.put l p).at k) = true
  rw [Tab.at_put]
  split
  · exact hp
  · exact (h k).1

theorem trimsInRange_applyTrim {l : Lane} {s : State} (h : trimsInRange s = true) :
    trimsInRange (applyTrim l s) = true := by
  unfold applyTrim
  split
  next p hp =>
    split
    · exact trimsInRange_setTrim (trimsInRange_writeTrim h ((trimsInRange_iff.1 h l).2 p hp)) nofun
    · exact h
  · exact h

theorem trims_tearStore (torn : Option (BitVec 16)) (st : Store) :
    (tearStore torn st).trims = st.trims := by
  cases torn <;> rfl

theorem trims_atResetEnd (st : Store) (cause : ResetCause) (l : Lane) :
    (st.atResetEnd cause).trims.at l = 4096 ∨ (st.atResetEnd cause).trims.at l = st.trims.at l := by
  unfold Store.atResetEnd
  split
  · exact .inl (Tab.at_fill _ _)
  · exact .inr rfl

theorem StartMove.trimsInRange {s t : State} (hm : StartMove s t) (h : trimsInRange s = true) :
    trimsInRange t = true := by
  cases hm with
  | reset cause hold torn =>
    unfold enterReset
    split
    · exact trimsInRange_of (s := s) (trims_tearStore torn s.store) (fun _ => rfl) h
    · rw [trimsInRange_iff] at h ⊢
      intro l
      have hpending : ((Tab.fill 4 TrimLane.afterReset).at l).pending = none := by
        rw [Tab.at_fill]; rfl
      refine ⟨?_, fun p hp => ?_⟩
      · change trimInRange ((tearStore torn s.store).trims.at l) = true
        rw [trims_tearStore]
        exact (h l).1
      · cases hpending.symm.trans hp
  | load =>
    rw [trimsInRange_iff] at h ⊢
    intro l
    refine ⟨?_, (h l).2⟩
    change trimInRange ((s.store.atResetEnd s.pendingCause).trims.at l) = true
    obtain he | he := trims_atResetEnd s.store s.pendingCause l
    · rw [he]; rfl
    · rw [he]; exact (h l).1
  | fault => exact h
  | join img => exact trimsInRange_of_touches (begun_touches img s) h
  | run => exact h

theorem Move.trimsInRange {B C : Prop} {s t : State} (hm : Move B C s t)
    (h : trimsInRange s = true) : trimsInRange t = true := by
  cases hm with
  | unread hu => exact trimsInRange_of_touches hu h
  | alert hm => exact trimsInRange_of_touches hm.touches h
  | line hm => exact trimsInRange_of_touches hm.touches h
  | entry hm => exact trimsInRange_of_touches hm.touches h
  | pairing hm => exact trimsInRange_of_touches hm.touches h
  | vehicle hm => exact trimsInRange_of_touches hm.touches h
  | trim hm =>
    cases hm with
    | offer r ref => exact trimsInRange_offerTrim h
    | apply l => exact trimsInRange_applyTrim h
  | lamp hm => exact trimsInRange_of_touches hm.touches h
  | start hm => exact hm.trimsInRange h
  | channel => exact trimsInRange_of_touches (touches_channels s _) h
  | approach => exact trimsInRange_of_touches (touches_approach s _) h
  | port => exact trimsInRange_of_touches (touches_port s _) h
  | clear x => exact trimsInRange_of_touches (clearSource_touches s x) h
  | settle => exact trimsInRange_of_touches (settle_changesOnly s) h

/-! ## The outbound queue (R61, R62) -/

theorem sameNotice_comm (a b : Notice) : sameNotice a b = sameNotice b a := by
  simp only [sameNotice, eq_comm]

theorem sameNotice_congr {a b : Notice} (h : sameNotice a b = true) (c : Notice) :
    sameNotice a c = sameNotice b c := by
  simp only [sameNotice, Bool.and_eq_true, decide_eq_true_eq] at h
  simp only [sameNotice, h.1, h.2]

theorem class_of_sameNotice {a b : Notice} (h : sameNotice a b = true) : a.class_ = b.class_ := by
  simp only [sameNotice, Bool.and_eq_true, decide_eq_true_eq] at h
  simp only [Notice.class_, h.1]

/-- Where no waiting frame is replaced, none is of the new one's kind and tag. -/
theorem sameNotice_of_replaceWaiting_none {n : Notice} {q : List Waiting}
    (h : replaceWaiting n q = none) : ∀ w ∈ q, sameNotice w.notice n = false := by
  induction q with
  | nil => simp
  | cons w q ih =>
    simp only [replaceWaiting] at h
    split at h
    · cases h
    next hw =>
      rintro x (_ | ⟨_, hx⟩)
      · simpa using hw
      · exact ih (by simpa using h) x hx

/-- A queue with one frame replaced holds frames of the classes, kinds and tags it held. -/
theorem like_of_mem_replaceWaiting {n : Notice} {q q' : List Waiting}
    (h : replaceWaiting n q = some q') :
    ∀ w' ∈ q', ∃ w ∈ q, w.notice.class_ = w'.notice.class_ ∧
      ∀ c, sameNotice w.notice c = sameNotice w'.notice c := by
  induction q generalizing q' with
  | nil => cases h
  | cons w q ih =>
    simp only [replaceWaiting] at h
    split at h
    next hs =>
      obtain rfl := Option.some.inj h
      refine List.forall_mem_cons.2
        ⟨⟨w, List.mem_cons_self, class_of_sameNotice hs, sameNotice_congr hs⟩, fun x hx => ?_⟩
      exact ⟨x, List.mem_cons_of_mem _ hx, rfl, fun _ => rfl⟩
    next =>
      obtain ⟨q'', hr, rfl⟩ := Option.map_eq_some_iff.1 h
      refine List.forall_mem_cons.2 ⟨⟨w, List.mem_cons_self, rfl, fun _ => rfl⟩, fun x hx => ?_⟩
      obtain ⟨y, hy, hlike⟩ := ih hr x hx
      exact ⟨y, List.mem_cons_of_mem _ hy, hlike⟩

theorem queueOrdered_replaceWaiting {n : Notice} {q q' : List Waiting}
    (h : replaceWaiting n q = some q') (hq : queueOrdered q) : queueOrdered q' := by
  induction q generalizing q' with
  | nil => cases h
  | cons w q ih =>
    obtain ⟨hw, hrest⟩ := List.pairwise_cons.1 hq
    simp only [replaceWaiting] at h
    split at h
    next hs =>
      obtain rfl := Option.some.inj h
      refine List.pairwise_cons.2 ⟨fun b hb => ?_, hrest⟩
      obtain ⟨hclass, hsame⟩ := hw b hb
      exact ⟨(class_of_sameNotice hs).symm.trans_le hclass, (sameNotice_congr hs _).symm.trans hsame⟩
    next =>
      obtain ⟨q'', hr, rfl⟩ := Option.map_eq_some_iff.1 h
      refine List.pairwise_cons.2 ⟨?_, ih hr hrest⟩
      intro b hb
      obtain ⟨y, hy, hclass, hsame⟩ := like_of_mem_replaceWaiting hr b hb
      obtain ⟨hle, hne⟩ := hw y hy
      exact ⟨hle.trans_eq hclass,
        (sameNotice_comm _ _).trans ((hsame _).symm.trans ((sameNotice_comm _ _).trans hne))⟩

theorem joinQueue_perm (w : Waiting) (q : List Waiting) : (joinQueue w q).Perm (w :: q) := by
  induction q with
  | nil => exact .refl _
  | cons x q ih =>
    unfold joinQueue
    split
    · exact (ih.cons x).trans (.swap w x q)
    · exact .refl _

theorem queueOrdered_joinQueue {w : Waiting} {q : List Waiting} (hq : queueOrdered q)
    (hw : ∀ x ∈ q, sameNotice x.notice w.notice = false) : queueOrdered (joinQueue w q) := by
  induction q with
  | nil => exact List.pairwise_singleton _ _
  | cons x q ih =>
    obtain ⟨hx, hrest⟩ := List.pairwise_cons.1 hq
    obtain ⟨hwx, hwq⟩ := List.forall_mem_cons.1 hw
    unfold joinQueue
    split
    next hle =>
      refine List.pairwise_cons.2 ⟨fun b hb => ?_, ih hrest hwq⟩
      obtain rfl | hb := List.mem_cons.1 ((joinQueue_perm w q).mem_iff.1 hb)
      · exact ⟨hle, hwx⟩
      · exact hx b hb
    next hlt =>
      refine List.pairwise_cons.2 ⟨fun b hb => ?_, hq⟩
      have hclass : w.notice.class_ ≤ b.notice.class_ := by
        obtain rfl | hb := List.mem_cons.1 hb
        · omega
        · exact (Nat.le_of_not_le hlt).trans (hx b hb).1
      exact ⟨hclass, (sameNotice_comm _ _).trans (hw b hb)⟩

theorem queueOrdered_queueFrame (n : Notice) {s : State} (h : queueOrdered s.line.queue) :
    queueOrdered (queueFrame n s).line.queue := by
  simp only [queueFrame]
  split
  next hr => exact queueOrdered_replaceWaiting hr h
  next hr =>
    have hnew := sameNotice_of_replaceWaiting_none hr
    split
    · exact queueOrdered_joinQueue h hnew
    split
    · rw [dropFrame, raise_line]
      exact queueOrdered_joinQueue (h.sublist (List.dropLast_sublist _)) fun x hx =>
        hnew x (List.dropLast_subset _ hx)
    · rw [dropFrame, raise_line]
      exact h

theorem queueOrdered_takeIntoFlight {s : State} (h : queueOrdered s.line.queue) :
    queueOrdered (takeIntoFlight s).line.queue := by
  unfold takeIntoFlight
  split
  · exact h
  next hq =>
    split
    · rw [hq] at h
      exact (List.pairwise_cons.1 h).2
    · exact h

theorem LineMove.queueOrdered {s t : State} (hm : LineMove s t) (h : queueOrdered s.line.queue) :
    queueOrdered t.line.queue := by
  cases hm with
  | queueFrame n => exact queueOrdered_queueFrame n h
  | takeIntoFlight => exact queueOrdered_takeIntoFlight h
  | discardSightings g => exact h.sublist List.filter_sublist
  | other hq => exact hq ▸ h
  | store => exact h
  | free => exact h

theorem queue_of_touches {bs : List Block} {s t : State} (h : changesOnly bs s t)
    (hb : Block.line ∉ bs := by decide) : t.line.queue = s.line.queue :=
  congrArg Line.queue (h .line hb)

theorem EntryBit.queueOrdered {s t : State} (hm : EntryBit s t) (h : queueOrdered s.line.queue) :
    queueOrdered t.line.queue := by
  cases hm with
  | alert ha => rw [queue_of_touches ha.touches]; exact h
  | line hl => exact hl.queueOrdered h
  | counters => exact h
  | entry he => rw [queue_of_touches he]; exact h

theorem EntryMove.queueOrdered {s t : State} (hm : EntryMove s t) (h : queueOrdered s.line.queue) :
    queueOrdered t.line.queue := by
  obtain hb | ⟨l, -, rfl⟩ := hm.bits
  · exact hb.keeps (P := fun u => Machine.queueOrdered u.line.queue) EntryBit.queueOrdered h
  · exact h

theorem StartMove.queueOrdered {s t : State} (hm : StartMove s t) (h : queueOrdered s.line.queue) :
    queueOrdered t.line.queue := by
  cases hm with
  | reset cause hold torn =>
    unfold enterReset
    split
    · exact h
    · exact List.Pairwise.nil
  | load => exact h
  | fault => exact h
  | join img => rw [queue_of_touches (begun_touches img s)]; exact h
  | run => exact h

theorem Move.queueOrdered {B C : Prop} {s t : State} (hm : Move B C s t)
    (h : queueOrdered s.line.queue) : queueOrdered t.line.queue := by
  cases hm with
  | unread hu => rw [queue_of_touches hu]; exact h
  | alert hm => rw [queue_of_touches hm.touches]; exact h
  | line hm => exact hm.queueOrdered h
  | entry hm => exact hm.queueOrdered h
  | pairing hm => rw [queue_of_touches hm.touches]; exact h
  | vehicle hm => rw [queue_of_touches hm.touches]; exact h
  | trim hm => rw [queue_of_touches hm.touches]; exact h
  | lamp hm => rw [queue_of_touches hm.touches]; exact h
  | start hm => exact hm.queueOrdered h
  | channel => exact h
  | approach => exact h
  | port => exact h
  | clear x => rw [queue_of_touches (clearSource_touches s x)]; exact h
  | settle => rw [queue_of_touches (settle_changesOnly s)]; exact h

/-! ## Channels (R1, R183) -/

theorem channelsOff_iff {s : State} :
    channelsOff s = true ↔ ∀ p, (working s && laneInUse s p.lane) = true ∨
      (channelOf s p).state = .off := by
  simp only [channelsOff, List.all_eq_true, Bool.or_eq_true, decide_eq_true_eq]
  exact ⟨fun h p => h p (mem_allStrips p), fun h p _ => h p⟩

/-- A channel may leave OFF only where lanes in use were in use before. -/
theorem channelsOff_of {s t : State} (hs : working t = working s) (hc : t.cfg = s.cfg)
    (ht : ∀ p, (channelOf s p).state = .off → (channelOf t p).state = .off)
    (h : channelsOff s = true) : channelsOff t = true := by
  rw [channelsOff_iff] at h ⊢
  intro p
  rw [hs, laneInUse_congr hc]
  exact (h p).imp id (ht p)

theorem channelsOff_of_touches {bs : List Block} {s t : State} (h : changesOnly bs s t)
    (hs : channelsOff s = true) (hu : Block.startup ∉ bs := by decide)
    (hc : Block.cfg ∉ bs := by decide) (hb : Block.channels ∉ bs := by decide) :
    channelsOff t = true :=
  channelsOff_of (working_congr (h .startup hu)) (h .cfg hc)
    (fun p hp => by rw [channelOf, h .channels hb]; exact hp) hs

theorem laneOfStrip_stripIndex (p : Strip) : laneOfStrip (stripIndex p) = p.lane := by
  obtain ⟨l, a⟩ := p
  fin_cases l <;> cases a <;> rfl

theorem channelOf_blocksBegun (img : List Byte) (s : State) (p : Strip) :
    channelOf (blocksBegun img s) p =
      startChannel (laneInUse (blocksBegun img s) p.lane) (s.inputs.above.at (stripIndex p))
        (channelOf s p) := by
  rw [← laneOfStrip_stripIndex p]
  exact Tab.at_make _ _

theorem channelOf_begun (img : List Byte) (s : State) (p : Strip) :
    channelOf (begun img s) p = channelOf (blocksBegun img s) p := by
  unfold begun; split <;> rfl

theorem StartMove.channelsOff {s t : State} (hm : StartMove s t) (h : channelsOff s = true) :
    channelsOff t = true := by
  cases hm with
  | reset cause hold torn =>
    unfold enterReset
    split
    · exact channelsOff_of (s := s) rfl rfl (fun _ => id) h
    · rw [channelsOff_iff]
      refine fun p => .inr ?_
      have : channelOf (State.inReset cause hold (tearStore torn s.store) s.inputs s.pending) p =
          Channel.afterReset := Tab.at_fill _ _
      rw [this]
      rfl
  | load hs =>
    have hw : working (resetEnded s) = working s :=
      (working_eq_false (.inr (.inl rfl))).trans (working_eq_false (.inl hs)).symm
    exact channelsOff_of hw rfl (fun _ => id) h
  | fault x hs =>
    have hw : working { s with startup := .fault, loader := x } = working s :=
      (working_eq_false (.inr (.inr rfl))).trans (working_eq_false (.inr (.inl hs))).symm
    exact channelsOff_of (s := s) hw rfl (fun _ => id) h
  | join img hs =>
    rw [channelsOff_iff] at h ⊢
    intro p
    have hoff : (channelOf s p).state = .off :=
      (h p).resolve_left (by simp [working_eq_false (.inr (.inl hs))])
    have huse : laneInUse (begun img s) p.lane = laneInUse (blocksBegun img s) p.lane :=
      laneInUse_congr (begun_cfg img s) _
    rw [working_begun, huse, channelOf_begun, channelOf_blocksBegun, Bool.true_and]
    cases laneInUse (blocksBegun img s) p.lane with
    | true => exact .inl rfl
    | false => exact .inr hoff
  | run x hs =>
    have hw : working { s with startup := .running, peers := x } = working s := by
      simp only [working, hs]
    exact channelsOff_of (s := s) hw rfl (fun _ => id) h

theorem Move.channelsOff {B C : Prop} {s t : State} (hm : Move B C s t)
    (h : channelsOff s = true) : channelsOff t = true := by
  cases hm with
  | unread hu => exact channelsOff_of_touches hu h
  | alert hm => exact channelsOff_of_touches hm.touches h
  | line hm => exact channelsOff_of_touches hm.touches h
  | entry hm => exact channelsOff_of_touches hm.touches h
  | pairing hm => exact channelsOff_of_touches hm.touches h
  | vehicle hm => exact channelsOff_of_touches hm.touches h
  | trim hm => exact channelsOff_of_touches hm.touches h
  | lamp hm => exact channelsOff_of_touches hm.touches h
  | start hm => exact hm.channelsOff h
  | @channel p c _ hc =>
    refine channelsOff_of (s := s) (t := setChannel p c s) rfl rfl (fun q hq => ?_) h
    by_cases hqp : q = p
    · subst hqp
      rw [channelOf_setChannel_self]
      exact hc hq
    · rw [channelOf_setChannel_ne _ _ hqp]
      exact hq
  | approach => exact channelsOff_of_touches (touches_approach s _) h
  | port => exact channelsOff_of_touches (touches_port s _) h
  | clear x => exact channelsOff_of_touches (clearSource_touches s x) h
  | settle => exact channelsOff_of_touches (settle_changesOnly s) h

/-- Settles O6: each of the three is kept by every move. -/
theorem stepKeepsTrimsAndQueue : Obligations.StepKeepsTrimsAndQueue :=
  fun _ _ h =>
    ⟨step_keeps (B := False) (fun _ _ => False.elim) Move.trimsInRange (fun _ => id) h,
      step_keeps (B := False) (P := fun u => queueOrdered u.line.queue) (fun _ _ => False.elim)
        Move.queueOrdered (fun _ => id) h,
      step_keeps (B := False) (fun _ _ => False.elim) Move.channelsOff (fun _ => id) h⟩

end Sys2Proof.Proofs
end

