-- ==== Sys2Proof/Proofs/DeckLaws.lean ====
section
/-! PROOFS. What the operations of the entry controller make of the stop-line queues, and that span set
and ADMITTED heads together keep to 24 (R131, R134). -/

namespace Sys2Proof.Proofs

open Sys2Proof Sys2Proof.Machine

-- one declaration at a time: side by side they need a thread each
set_option Elab.async false

/-! ## Stop-line queues -/

theorem stopLine_evaluateHead_queue (l k : Lane) (s : State) :
    (stopLine (evaluateHead l s) k).queue = (stopLine s k).queue := by
  have hset (h : HeadState) : (stopLine (setHead l h s) k).queue = (stopLine s k).queue := by
    rw [stopLine_setHead]
    split
    next e => rw [e]
    next => rfl
  unfold evaluateHead
  split
  · exact hset _
  split
  · exact hset _
  split
  · exact (congrArg StopLine.queue (stopLine_of_touches (changesOnly_append (raise_touches _ _)
      (touches_counters _ _)) (by decide) k)).trans (hset .stop)
  dsimp only
  split
  · exact hset _
  · exact headsOnly_queue (becomeHeld_headsOnly l _ s) k

theorem stopLine_runArbiter_queue (k : Lane) (s : State) :
    (stopLine (runArbiter s) k).queue = (stopLine s k).queue :=
  headsOnly_queue (runArbiter_headsOnly s) k

theorem stopLine_regularCrossing_queue (l k : Lane) (r : Record) (a : Nat) (unseen : Bool) (s : State) :
    (stopLine (regularCrossing l r a unseen s) k).queue = (stopLine (popHead l s) k).queue := by
  unfold regularCrossing
  split
  · rw [stopLine_of_touches (queueEntered_touches _ _ _ _), stopLine_runArbiter_queue]
    rfl
  · exact stopLine_runArbiter_queue _ _

/-- R145: what is raised for a head that enters unadmitted, before it joins the span set. -/
def entryRaised (l : Lane) (wasStop unseen : Bool) (s : State) : State :=
  let gone := leaveHeld l (popHead l s)
  let shown := if unseen then gone else aspectAlerts l (stopLine s l).aspect gone
  if wasStop && !unseen then raise .noncompliantEntered shown else shown

/-- R145: the span set entry of a head that enters unadmitted. -/
def unadmittedEntry (l : Lane) (r : Record) (wasStop unseen : Bool) (s : State) (g : Tag) : SpanEntry :=
  { spanEntry s l g (nonAdmittedWeight s r) with
    redRun := !unseen && decide ((stopLine s l).aspect = some .red)
    uncontrolled := !unseen && decide ((stopLine s l).aspect = some .dark)
    unseen := unseen, noncompliant := wasStop }

/-- R137, R145: the span set takes the vehicle where there is room; otherwise the accounting is lost. -/
def spanTaken (g : Option Tag) (e : Tag → SpanEntry) (s : State) : State :=
  match g with
  | some g => if s.entry.span.length + admittedHeads s < 24 then joinSpan (e g) s else setLost s
  | none => s

theorem nonAdmittedEntry_eq (l : Lane) (r : Record) (wasHeld wasStop unseen : Bool) (s : State) :
    nonAdmittedEntry l r wasHeld wasStop unseen s =
      let u := queueEntered l r (nonAdmittedWeight s r)
        (spanTaken r.tag (unadmittedEntry l r wasStop unseen s) (entryRaised l wasStop unseen s))
      if wasHeld then runArbiter u else u := rfl

theorem entryRaised_touches (l : Lane) (wasStop unseen : Bool) (s : State) :
    changesOnly [.alerts, .counters] (leaveHeld l (popHead l s)) (entryRaised l wasStop unseen s) := by
  have hshown : changesOnly [.alerts, .counters] (leaveHeld l (popHead l s))
      (if unseen then leaveHeld l (popHead l s)
        else aspectAlerts l (stopLine s l).aspect (leaveHeld l (popHead l s))) := by
    split
    · exact changesOnly_refl _ _
    · exact aspectAlerts_touches _ _ _
  unfold entryRaised
  dsimp only
  split
  · exact changesOnly_trans hshown (changesOnly_mono (raise_touches _ _) (by simp))
  · exact hshown

theorem stopLine_spanTaken (g : Option Tag) (e : Tag → SpanEntry) (s : State) (k : Lane) :
    stopLine (spanTaken g e s) k = stopLine s k := by
  unfold spanTaken
  split
  · split
    · rfl
    · exact stopLine_of_touches (raise_touches _ _) (by decide) k
  · rfl

theorem stopLine_nonAdmittedEntry_queue (l k : Lane) (r : Record) (wasHeld wasStop unseen : Bool)
    (s : State) :
    (stopLine (nonAdmittedEntry l r wasHeld wasStop unseen s) k).queue =
      (stopLine (popHead l s) k).queue := by
  have hline : stopLine (queueEntered l r (nonAdmittedWeight s r)
      (spanTaken r.tag (unadmittedEntry l r wasStop unseen s) (entryRaised l wasStop unseen s))) k =
      stopLine (popHead l s) k := by
    rw [stopLine_of_touches (queueEntered_touches _ _ _ _), stopLine_spanTaken,
      stopLine_of_touches (entryRaised_touches _ _ _ _), stopLine_leaveHeld]
  rw [nonAdmittedEntry_eq]
  cases wasHeld with
  | false => exact congrArg StopLine.queue hline
  | true => exact (stopLine_runArbiter_queue k _).trans (congrArg StopLine.queue hline)

/-- The record at the front leaves, and no other. -/
theorem stopLine_headEnters_queue (l k : Lane) (unseen : Bool) (s : State) :
    (stopLine (headEnters l unseen s) k).queue =
      if k = l then (stopLine s k).queue.tail else (stopLine s k).queue := by
  have hpop : (stopLine (popHead l s) k).queue =
      if k = l then (stopLine s k).queue.tail else (stopLine s k).queue := by
    rw [stopLine_popHead]
    split
    next e => rw [e]
    next => rfl
  unfold headEnters
  split
  next hq =>
    split
    next e => subst e; rw [hq, List.tail_nil]
    next => rfl
  · rw [stopLine_evaluateHead_queue]
    split
    · rw [stopLine_regularCrossing_queue, hpop]
    · rw [stopLine_nonAdmittedEntry_queue, hpop]
    · rw [stopLine_nonAdmittedEntry_queue, hpop]
    · exact hpop
    · exact hpop

/-- R131: every stop-line queue holds at most 8 records. -/
def queuesBounded (s : State) : Prop := ∀ l, (stopLine s l).queue.length ≤ 8

theorem queuesBounded_of {s t : State}
    (h : ∀ k, (stopLine t k).queue.length ≤ (stopLine s k).queue.length) (hs : queuesBounded s) :
    queuesBounded t := fun k => (h k).trans (hs k)

theorem length_headEnters_le (l k : Lane) (unseen : Bool) (s : State) :
    (stopLine (headEnters l unseen s) k).queue.length ≤ (stopLine s k).queue.length := by
  rw [stopLine_headEnters_queue]
  split <;> simp

theorem stopLine_turnAway_queue (l k : Lane) (wasHeld : Bool) (s : State) :
    (stopLine (turnAway l wasHeld s) k).queue = (stopLine (popHead l s) k).queue := by
  unfold turnAway
  dsimp only
  rw [stopLine_evaluateHead_queue]
  split
  · rw [stopLine_runArbiter_queue]
    rfl
  · rfl

theorem stopLine_departSpan_queue (keep : SpanEntry → Bool) (k : Lane) (s : State) :
    (stopLine (departSpan keep s) k).queue = (stopLine s k).queue := by
  unfold departSpan
  split
  · rfl
  · rw [stopLine_runArbiter_queue, stopLine_of_touches (takeConditions_touches _)]
    unfold clearLost
    split <;> rfl

/-- R131: the station once a full queue has lost its head, unseen. -/
def roomMade (l : Lane) (s : State) : State :=
  if 8 ≤ (stopLine s l).queue.length then overflowQueue l s else s

/-- R130: a record stands at the tail of its queue. -/
def atTail (r : Record) (s : State) : State :=
  setStopLine r.lane { stopLine s r.lane with queue := (stopLine s r.lane).queue ++ [r] } s

theorem joinStopLine_eq (r : Record) (s : State) :
    joinStopLine r s =
      if (stopLine (roomMade r.lane s) r.lane).queue.isEmpty then
        evaluateHead r.lane (atTail r (roomMade r.lane s))
      else atTail r (roomMade r.lane s) := rfl

theorem queuesBounded_roomMade {l : Lane} {s : State} (h : queuesBounded s) :
    queuesBounded (roomMade l s) ∧ (stopLine (roomMade l s) l).queue.length ≤ 7 := by
  have hraised : queuesBounded (raise .queueOverflow s) := fun k => by
    rw [stopLine_of_touches (raise_touches _ _)]; exact h k
  unfold roomMade
  split
  · refine ⟨queuesBounded_of (length_headEnters_le _ · _ _) hraised, ?_⟩
    rw [overflowQueue, stopLine_headEnters_queue, if_pos rfl, List.length_tail]
    have := hraised l
    omega
  next hlt => exact ⟨h, by omega⟩

theorem queuesBounded_joinStopLine {r : Record} {s : State} (h : queuesBounded s) :
    queuesBounded (joinStopLine r s) := by
  obtain ⟨hroom, hlen⟩ := queuesBounded_roomMade (l := r.lane) h
  have hset : queuesBounded (atTail r (roomMade r.lane s)) := fun k => by
    rw [atTail, stopLine_setStopLine]
    split
    · simp only [List.length_append, List.length_singleton]; omega
    · exact hroom k
  rw [joinStopLine_eq]
  split
  · exact fun k => (stopLine_evaluateHead_queue _ k _).symm ▸ hset k
  · exact hset

theorem EntryMove.queuesBounded {s t : State} (hm : EntryMove s t) (h : queuesBounded s) :
    queuesBounded t := by
  have hsame {u : State} (hq : ∀ k, (stopLine u k).queue = (stopLine s k).queue) :
      Proofs.queuesBounded u := fun k => (hq k).symm ▸ h k
  cases hm with
  | joinStopLine r => exact queuesBounded_joinStopLine h
  | crossing l =>
    unfold Machine.crossing
    split
    · exact hsame fun k => congrArg StopLine.queue (stopLine_of_touches (raise_touches _ _) (by decide) k)
    · exact queuesBounded_of (length_headEnters_le l · false s) h
  | runArbiter => exact hsame fun k => stopLine_runArbiter_queue k s
  | departSpan keep => exact hsame fun k => stopLine_departSpan_queue keep k s
  | makeOverdue => exact h
  | released w => exact hsame fun k => headsOnly_queue (becomeHeld_headsOnly _ w s) k
  | turnAway =>
    refine queuesBounded_of (fun k => ?_) h
    rw [stopLine_turnAway_queue, stopLine_popHead]
    split
    next e => subst e; simp
    next => exact le_rfl
  | @presence l _ x hq =>
    refine hsame fun k => ?_
    rw [stopLine_setStopLine]
    split
    next e => rw [e, hq]
    next => rfl
  | @amberEnds l =>
    refine hsame fun k => ?_
    rw [stopLine_setStopLine]
    split
    next e => rw [e]
    next => rfl
  | other hl => exact hsame fun k => congrArg StopLine.queue (stopLine_congr (s := s) hl k)

/-! ## Span set and ADMITTED heads -/

/-- R134: span entries and ADMITTED heads together keep to 24. -/
def deckBounded (s : State) : Prop := s.entry.span.length + admittedHeads s ≤ 24

theorem deckBounded_of {s t : State} (hsp : t.entry.span = s.entry.span)
    (hh : ∀ k, (stopLine t k).head = (stopLine s k).head) (h : deckBounded s) : deckBounded t := by
  unfold deckBounded
  rw [hsp, admittedHeads_congr hh]
  exact h

theorem deckBounded_of_touches {bs : List Block} {s t : State} (h : changesOnly bs s t)
    (hs : deckBounded s) (hb : Block.entry ∉ bs := by decide) : deckBounded t :=
  deckBounded_of (congrArg EntryController.span (h .entry hb))
    (fun k => congrArg StopLine.head (stopLine_of_touches h hb k)) hs

/-- A head that is not ADMITTED afterwards, or was before, or for which there is room. -/
theorem deckBounded_setHead {l : Lane} {h : HeadState} {s : State} (hs : deckBounded s)
    (hh : h.isAdmitted = true → s.entry.span.length + admittedHeads s < 24) :
    deckBounded (setHead l h s) := by
  have hsum := admittedHeads_setStopLine l { stopLine s l with head := h } s
  unfold deckBounded at *
  change s.entry.span.length + admittedHeads (setStopLine l _ s) ≤ 24
  by_cases ha : h.isAdmitted = true
  · have := hh ha
    rw [if_pos ha] at hsum
    omega
  · rw [if_neg ha] at hsum
    omega

theorem room_of_fits {s : State} {a : Nat} (h : fits s a = true) :
    s.entry.span.length + admittedHeads s < 24 := by
  simp only [fits, Bool.and_eq_true, decide_eq_true_eq] at h
  exact h.1.2

theorem deckBounded_arbiterFrom (ls : List Lane) {s : State} (h : deckBounded s) :
    deckBounded (arbiterFrom ls s) := by
  induction ls generalizing s with
  | nil => exact h
  | cons l ls ih =>
    simp only [arbiterFrom]
    split
    · split
      next hf =>
        exact ih (deckBounded_of (s := setHead l _ s) rfl (fun _ => rfl)
          (deckBounded_setHead h fun _ => room_of_fits hf))
      · exact deckBounded_setHead h nofun
    · exact h

theorem deckBounded_runArbiter {s : State} (h : deckBounded s) : deckBounded (runArbiter s) := by
  unfold runArbiter
  split
  · exact deckBounded_arbiterFrom _ h
  · exact h

theorem deckBounded_becomeHeld {l : Lane} {w : Nat} {s : State} (h : deckBounded s) :
    deckBounded (becomeHeld l w s) := by
  have hheld : deckBounded { s with entry.held := insertHeld s s.clock l s.entry.held } :=
    deckBounded_of (s := s) rfl (fun _ => rfl) h
  exact deckBounded_setHead hheld nofun

theorem deckBounded_evaluateHead {l : Lane} {s : State} (h : deckBounded s) :
    deckBounded (evaluateHead l s) := by
  unfold evaluateHead
  split
  · exact deckBounded_setHead h nofun
  split
  · exact deckBounded_setHead h nofun
  split
  · exact deckBounded_of_touches (changesOnly_append (raise_touches _ _) (touches_counters _ _))
      (deckBounded_setHead (h := .stop) h nofun)
  dsimp only
  split
  next hf =>
    simp only [Bool.and_eq_true] at hf
    exact deckBounded_setHead h fun _ => room_of_fits hf.1
  · exact deckBounded_becomeHeld h

theorem admittedHeads_popHead (l : Lane) (s : State) :
    admittedHeads (popHead l s) + (if (stopLine s l).head.isAdmitted then 1 else 0) =
      admittedHeads s :=
  admittedHeads_setStopLine l
    { stopLine s l with queue := (stopLine s l).queue.tail, head := .none } s

theorem deckBounded_popHead {l : Lane} {s : State} (h : deckBounded s) :
    deckBounded (popHead l s) := by
  have hsum := admittedHeads_popHead l s
  unfold deckBounded at *
  rw [popHead_span]
  omega

/-- An ADMITTED head that leaves makes room for its entry in the span set. -/
theorem deckBounded_joinSpan_popHead {l : Lane} {a : Nat} {e : SpanEntry} {s : State}
    (h : deckBounded s) (hh : (stopLine s l).head = .admitted a) :
    deckBounded (joinSpan e (popHead l s)) := by
  have hsum := admittedHeads_popHead l s
  rw [hh, if_pos (by rfl)] at hsum
  unfold deckBounded at *
  change (s.entry.span ++ [e]).length + admittedHeads (popHead l s) ≤ 24
  rw [List.length_append, List.length_singleton]
  omega

theorem deckBounded_regularCrossing {l : Lane} {r : Record} {a : Nat} {unseen : Bool} {s : State}
    (h : deckBounded s) (hh : (stopLine s l).head = .admitted a) :
    deckBounded (regularCrossing l r a unseen s) := by
  unfold regularCrossing
  split
  · exact deckBounded_of_touches (queueEntered_touches _ _ _ _)
      (deckBounded_runArbiter (deckBounded_joinSpan_popHead h hh))
  · exact deckBounded_runArbiter (deckBounded_popHead h)

theorem deckBounded_spanTaken {g : Option Tag} {e : Tag → SpanEntry} {s : State}
    (h : deckBounded s) : deckBounded (spanTaken g e s) := by
  unfold spanTaken
  split
  next g =>
    split
    next hroom =>
      change (s.entry.span ++ [e g]).length + admittedHeads s ≤ 24
      rw [List.length_append, List.length_singleton]
      omega
    · exact deckBounded_of_touches (raise_touches _ _) (deckBounded_of (s := s) rfl (fun _ => rfl) h)
  · exact h

theorem deckBounded_nonAdmittedEntry {l : Lane} {r : Record} {wasHeld wasStop unseen : Bool}
    {s : State} (h : deckBounded s) :
    deckBounded (nonAdmittedEntry l r wasHeld wasStop unseen s) := by
  have hraised : deckBounded (entryRaised l wasStop unseen s) :=
    deckBounded_of_touches (entryRaised_touches _ _ _ _)
      (deckBounded_of (s := popHead l s) rfl (fun _ => rfl) (deckBounded_popHead h))
  have hqueued := deckBounded_of_touches (queueEntered_touches l r (nonAdmittedWeight s r) _)
    (deckBounded_spanTaken (g := r.tag) (e := unadmittedEntry l r wasStop unseen s) hraised)
  rw [nonAdmittedEntry_eq]
  cases wasHeld with
  | false => exact hqueued
  | true => exact deckBounded_runArbiter hqueued

theorem deckBounded_headEnters {l : Lane} {unseen : Bool} {s : State} (h : deckBounded s) :
    deckBounded (headEnters l unseen s) := by
  unfold headEnters
  split
  · exact h
  · refine deckBounded_evaluateHead ?_
    split
    next hh => exact deckBounded_regularCrossing h hh
    · exact deckBounded_nonAdmittedEntry h
    · exact deckBounded_nonAdmittedEntry h
    · exact deckBounded_of (s := popHead l s) (t := lightCrossing l s) rfl (fun _ => rfl)
        (deckBounded_popHead h)
    · exact deckBounded_popHead h

theorem deckBounded_setStopLine {l : Lane} {x : StopLine} {s : State} (h : deckBounded s)
    (hx : x.head = (stopLine s l).head) : deckBounded (setStopLine l x s) := by
  refine deckBounded_of (s := s) (t := setStopLine l x s) rfl (fun k => ?_) h
  rw [stopLine_setStopLine]
  split
  next e => rw [e, hx]
  next => rfl

theorem deckBounded_joinStopLine {r : Record} {s : State} (h : deckBounded s) :
    deckBounded (joinStopLine r s) := by
  have hroom : deckBounded (roomMade r.lane s) := by
    unfold roomMade
    split
    · exact deckBounded_headEnters (deckBounded_of_touches (raise_touches _ _) h)
    · exact h
  have htail : deckBounded (atTail r (roomMade r.lane s)) := deckBounded_setStopLine hroom rfl
  rw [joinStopLine_eq]
  split
  · exact deckBounded_evaluateHead htail
  · exact htail

theorem deckBounded_departSpan {keep : SpanEntry → Bool} {s : State} (h : deckBounded s) :
    deckBounded (departSpan keep s) := by
  unfold departSpan
  split
  · exact h
  · have hkept : deckBounded { s with entry.span := s.entry.span.filter keep } := by
      have := List.length_filter_le keep s.entry.span
      unfold deckBounded at *
      change (s.entry.span.filter keep).length + admittedHeads s ≤ 24
      omega
    refine deckBounded_runArbiter (deckBounded_of_touches (takeConditions_touches _) ?_)
    unfold clearLost
    split
    · exact deckBounded_of rfl (fun _ => rfl) hkept
    · exact hkept

theorem deckBounded_turnAway {l : Lane} {wasHeld : Bool} {s : State} (h : deckBounded s) :
    deckBounded (turnAway l wasHeld s) := by
  have hgone : deckBounded { leaveHeld l (popHead l s) with
      entry.turnedAway := (leaveHeld l (popHead l s)).entry.turnedAway + 1 } :=
    deckBounded_of (s := popHead l s) rfl (fun _ => rfl) (deckBounded_popHead h)
  refine deckBounded_evaluateHead ?_
  split
  · exact deckBounded_runArbiter hgone
  · exact hgone

theorem EntryMove.deckBounded {s t : State} (hm : EntryMove s t) (h : deckBounded s) :
    deckBounded t := by
  cases hm with
  | joinStopLine r => exact deckBounded_joinStopLine h
  | crossing l =>
    unfold Machine.crossing
    split
    · exact deckBounded_of_touches (raise_touches _ _) (deckBounded_of (s := s) rfl (fun _ => rfl) h)
    · exact deckBounded_headEnters h
  | runArbiter => exact deckBounded_runArbiter h
  | departSpan keep => exact deckBounded_departSpan h
  | makeOverdue g =>
    change (s.entry.span.map _).length + admittedHeads s ≤ 24
    rw [List.length_map]
    exact h
  | released w => exact deckBounded_becomeHeld h
  | turnAway => exact deckBounded_turnAway h
  | presence hq hh => exact deckBounded_setStopLine h hh
  | amberEnds => exact deckBounded_setStopLine h rfl
  | other hl hh hp =>
    exact deckBounded_of (s := s) hp (fun k => congrArg StopLine.head (stopLine_congr (s := s) hl k)) h

end Sys2Proof.Proofs
end

