-- ==== Sys2Proof/Proofs/SizesKept.lean ====
section
/-! PROOFS. Every collection keeps to its largest size. -/

namespace Sys2Proof.Proofs

open Sys2Proof Sys2Proof.Machine

-- one declaration at a time: side by side they need a thread each
set_option Elab.async false

/-- R10, R13: the FIFO and the speed history of each lane. -/
def pairingBounded (s : State) : Prop :=
  ∀ l, (s.pairing.at l).fifo.length ≤ 6 ∧ (s.pairing.at l).history.length ≤ 4

/-- R37, R42: an open vehicle has 1 to 12 axles and one spacing fewer. -/
def vehicleBounded (v : OpenVehicle) : Prop :=
  1 ≤ v.axles.length ∧ v.axles.length ≤ 12 ∧ v.spacings.length + 1 = v.axles.length

/-- Every open vehicle keeps to its size. -/
def vehiclesBounded (s : State) : Prop := ∀ l v, s.vehicles.at l = some v → vehicleBounded v

/-- R162: a trim window holds fewer than 16 ratios. -/
def windowsBounded (s : State) : Prop := ∀ l, (s.trim.at l).window.length < 16

/-- R61, R74: the outbound queue and the receive slots. -/
def lineBounded (s : State) : Prop := s.line.queue.length ≤ 8 ∧ s.line.slots.length ≤ 2

/-- The sizes, one kind of collection after the other. -/
structure Sizes (s : State) : Prop where
  pairing : pairingBounded s
  vehicles : vehiclesBounded s
  windows : windowsBounded s
  queues : queuesBounded s
  deck : deckBounded s
  line : lineBounded s
  approach : s.approach.entries.length ≤ 48
  port : s.port.buffer.length ≤ 64

theorem laneBounds_iff {s : State} {l : Lane} :
    laneBounds s l = true ↔ ((s.pairing.at l).fifo.length ≤ 6 ∧ (s.pairing.at l).history.length ≤ 4) ∧
      (∀ v, s.vehicles.at l = some v → vehicleBounded v) ∧ (stopLine s l).queue.length ≤ 8 ∧
        (s.trim.at l).window.length < 16 := by
  simp only [laneBounds, Bool.and_eq_true, decide_eq_true_eq, and_assoc]
  cases s.vehicles.at l <;> simp [vehicleBounded, and_assoc]

theorem bounded_iff {s : State} : bounded s = true ↔ Sizes s := by
  simp only [bounded, Bool.and_eq_true, decide_eq_true_eq, List.all_eq_true, laneBounds_iff]
  constructor
  · rintro ⟨⟨⟨⟨⟨hl, hq⟩, hs⟩, ha⟩, hd⟩, hp⟩
    have hl (l : Lane) := hl l (mem_allLanes l)
    exact ⟨fun l => (hl l).1, fun l => (hl l).2.1, fun l => (hl l).2.2.2, fun l => (hl l).2.2.1, hd,
      ⟨hq, hs⟩, ha, hp⟩
  · rintro ⟨hp, hv, hw, hq, hd, ⟨hlq, hls⟩, ha, hb⟩
    exact ⟨⟨⟨⟨⟨fun l _ => ⟨hp l, hv l, hq l, hw l⟩, hlq⟩, hls⟩, ha⟩, hd⟩, hb⟩

/-! ## What leaves a size alone -/

theorem pairingBounded_of_touches {bs : List Block} {s t : State} (h : changesOnly bs s t)
    (hs : pairingBounded s) (hb : Block.pairing ∉ bs := by decide) : pairingBounded t := by
  unfold pairingBounded
  rw [h .pairing hb]
  exact hs

theorem vehiclesBounded_of_touches {bs : List Block} {s t : State} (h : changesOnly bs s t)
    (hs : vehiclesBounded s) (hb : Block.vehicles ∉ bs := by decide) : vehiclesBounded t := by
  unfold vehiclesBounded
  rw [h .vehicles hb]
  exact hs

theorem windowsBounded_of_touches {bs : List Block} {s t : State} (h : changesOnly bs s t)
    (hs : windowsBounded s) (hb : Block.trim ∉ bs := by decide) : windowsBounded t := by
  unfold windowsBounded
  rw [h .trim hb]
  exact hs

theorem queuesBounded_of_touches {bs : List Block} {s t : State} (h : changesOnly bs s t)
    (hs : queuesBounded s) (hb : Block.entry ∉ bs := by decide) : queuesBounded t := fun l => by
  rw [stopLine_of_touches h hb]
  exact hs l

theorem lineBounded_of_touches {bs : List Block} {s t : State} (h : changesOnly bs s t)
    (hs : lineBounded s) (hb : Block.line ∉ bs := by decide) : lineBounded t := by
  unfold lineBounded
  rw [h .line hb]
  exact hs

theorem approach_of_touches {bs : List Block} {s t : State} (h : changesOnly bs s t)
    (hb : Block.approach ∉ bs := by decide) : t.approach = s.approach := h .approach hb

theorem port_of_touches {bs : List Block} {s t : State} (h : changesOnly bs s t)
    (hb : Block.port ∉ bs := by decide) : t.port = s.port := h .port hb

/-- A change outside every collection. -/
theorem sizes_of_touches {bs : List Block} {s t : State} (h : changesOnly bs s t) (hs : Sizes s)
    (hb : ∀ b ∈ [Block.pairing, .vehicles, .trim, .entry, .line, .approach, .port], b ∉ bs := by
      decide) : Sizes t where
  pairing := pairingBounded_of_touches h hs.pairing (hb _ (by simp))
  vehicles := vehiclesBounded_of_touches h hs.vehicles (hb _ (by simp))
  windows := windowsBounded_of_touches h hs.windows (hb _ (by simp))
  queues := queuesBounded_of_touches h hs.queues (hb _ (by simp))
  deck := deckBounded_of_touches h hs.deck (hb _ (by simp))
  line := lineBounded_of_touches h hs.line (hb _ (by simp))
  approach := approach_of_touches h (hb _ (by simp)) ▸ hs.approach
  port := port_of_touches h (hb _ (by simp)) ▸ hs.port

/-! ## Pairing units -/

theorem pairing_setPairing (l k : Lane) (x : PairingUnit) (s : State) :
    (setPairing l x s).pairing.at k = if k = l then x else s.pairing.at k := Tab.at_put _ _ _ _

theorem pairingBounded_setPairing {l : Lane} {x : PairingUnit} {s : State} (h : pairingBounded s)
    (hf : x.fifo.length ≤ 6) (hh : x.history.length ≤ 4) : pairingBounded (setPairing l x s) := by
  intro k
  rw [pairing_setPairing]
  split
  · exact ⟨hf, hh⟩
  · exact h k

theorem PairingMove.bounded {s t : State} (hm : PairingMove True s t) (h : pairingBounded s) :
    pairingBounded t := by
  cases hm with
  | hold l p x => cases p <;> exact pairingBounded_setPairing h (h l).1 (h l).2
  | @leads l q _ hq => exact pairingBounded_setPairing h (hq.trans (h l).1) (h l).2
  | @joins l _ x hlen =>
    refine pairingBounded_setPairing h ?_ (h l).2
    have := hlen trivial
    simp only [List.length_append, List.length_singleton]
    omega
  | speed l a =>
    refine pairingBounded_setPairing h (h l).1 ?_
    have hspeed : a.speed.toList.length ≤ 1 := by cases a.speed <;> simp
    have hold := (h l).2
    rw [List.length_append]
    split
    · rw [List.length_tail]; omega
    · omega

/-! ## Open vehicles -/

theorem vehiclesBounded_setVehicle {l : Lane} {x : Option OpenVehicle} {s : State}
    (h : vehiclesBounded s) (hx : ∀ v, x = some v → vehicleBounded v) :
    vehiclesBounded (setVehicle l x s) := by
  intro k v hv
  have hat : (setVehicle l x s).vehicles.at k = if k = l then x else s.vehicles.at k :=
    Tab.at_put _ _ _ _
  rw [hat] at hv
  split at hv
  · exact hx v hv
  · exact h k v hv

theorem VehicleMove.bounded {s t : State} (hm : VehicleMove s t) (h : vehiclesBounded s) :
    vehiclesBounded t := by
  cases hm with
  | opens => exact vehiclesBounded_setVehicle h (by rintro v ⟨⟩; exact ⟨le_rfl, by simp, rfl⟩)
  | joins a sp hv hlen =>
    obtain ⟨hone, -, hsp⟩ := h _ _ hv
    refine vehiclesBounded_setVehicle h ?_
    rintro v ⟨⟩
    simp only [vehicleBounded, List.length_append, List.length_singleton]
    omega
  | closes => exact vehiclesBounded_setVehicle h nofun

/-! ## Trim windows -/

theorem windowsBounded_setTrim {l : Lane} {x : TrimLane} {s : State} (h : windowsBounded s)
    (hx : x.window.length < 16) : windowsBounded (setTrim l x s) := by
  intro k
  have hat : (setTrim l x s).trim.at k = if k = l then x else s.trim.at k := Tab.at_put _ _ _ _
  rw [hat]
  split
  · exact hx
  · exact h k

theorem TrimMove.bounded {s t : State} (hm : TrimMove s t) (h : windowsBounded s) :
    windowsBounded t := by
  cases hm with
  | offer r ref =>
    by_cases ht : takesRatio r ref
    · have hempty : (laneFormed r.lane (withRatio r ref s)).window.length < 16 := by
        simp [laneFormed]
      intro k
      by_cases hk : k = r.lane
      · subst hk
        rw [offerTrim_of_taken ht]
        split
        · rw [trim_at_formPending]; exact hempty
        next hlt =>
          rw [trim_at_withRatio]
          simp only [laneJoined, List.length_append, List.length_singleton]
          omega
      · rw [sameBut_offerTrim r ref s k hk]
        exact h k
    · rw [offerTrim_of_refused ht]
      exact windowsBounded_setTrim h (h r.lane)
  | apply l =>
    unfold applyTrim
    split
    · split
      · exact windowsBounded_setTrim (s := writeTrim l _ s) h (by simp)
      · exact h
    · exact h

/-! ## The line -/

theorem length_replaceWaiting {n : Notice} {q q' : List Waiting} (h : replaceWaiting n q = some q') :
    q'.length = q.length := by
  induction q generalizing q' with
  | nil => cases h
  | cons w q ih =>
    simp only [replaceWaiting] at h
    split at h
    · obtain rfl := Option.some.inj h
      rfl
    · obtain ⟨q'', hr, rfl⟩ := Option.map_eq_some_iff.1 h
      simp [ih hr]

theorem length_joinQueue (w : Waiting) (q : List Waiting) : (joinQueue w q).length = q.length + 1 :=
  (joinQueue_perm w q).length_eq

theorem lineBounded_queueFrame {n : Notice} {s : State} (h : lineBounded s) :
    lineBounded (queueFrame n s) := by
  obtain ⟨hq, hs⟩ := h
  simp only [queueFrame]
  split
  next hr => exact ⟨(length_replaceWaiting hr).le.trans hq, hs⟩
  split
  next hlen => exact ⟨by simp only [length_joinQueue]; omega, hs⟩
  split
  · refine lineBounded_of_touches (raise_touches _ _) ⟨?_, hs⟩
    simp only [countLine, length_joinQueue, List.length_dropLast]
    omega
  · exact lineBounded_of_touches (raise_touches _ _) ⟨hq, hs⟩

theorem lineBounded_takeIntoFlight {s : State} (h : lineBounded s) :
    lineBounded (takeIntoFlight s) := by
  unfold takeIntoFlight
  split
  · exact h
  next hq =>
    split
    · have hlen := h.1
      rw [hq, List.length_cons] at hlen
      exact ⟨Nat.le_of_succ_le hlen, h.2⟩
    · exact h

theorem LineMove.bounded {s t : State} (hm : LineMove s t) (h : lineBounded s) : lineBounded t := by
  cases hm with
  | queueFrame n => exact lineBounded_queueFrame h
  | takeIntoFlight => exact lineBounded_takeIntoFlight h
  | discardSightings g => exact ⟨(List.length_filter_le _ _).trans h.1, h.2⟩
  | other hq hs => exact ⟨hq ▸ h.1, hs ▸ h.2⟩
  | store x hlen =>
    refine ⟨h.1, ?_⟩
    simp only [List.length_append, List.length_singleton]
    omega
  | free hslots =>
    have hlen := h.2
    rw [hslots, List.length_cons] at hlen
    exact ⟨h.1, Nat.le_of_succ_le hlen⟩

theorem EntryBit.lineBounded {s t : State} (hm : EntryBit s t) (h : lineBounded s) :
    lineBounded t := by
  cases hm with
  | alert ha => exact lineBounded_of_touches ha.touches h
  | line hl => exact hl.bounded h
  | counters => exact h
  | entry he => exact lineBounded_of_touches he h

theorem EntryMove.lineBounded {s t : State} (hm : EntryMove s t) (h : lineBounded s) :
    lineBounded t := by
  obtain hb | ⟨l, -, rfl⟩ := hm.bits
  · exact hb.keeps EntryBit.lineBounded h
  · exact h

/-! ## Resets and an accepted image -/

theorem queuesBounded_of_lines {s t : State}
    (h : ∀ k, (stopLine t k).queue = (stopLine s k).queue) (hs : queuesBounded s) :
    queuesBounded t := fun k => (h k).symm ▸ hs k

theorem sizes_reset (cause : ResetCause) (hold : Option Clock) (st : Store) (i : Inputs)
    (p : List Instr) : Sizes (State.inReset cause hold st i p) where
  pairing l := by
    change ((Tab.fill 4 PairingUnit.afterReset).at l).fifo.length ≤ 6 ∧
      ((Tab.fill 4 PairingUnit.afterReset).at l).history.length ≤ 4
    rw [Tab.at_fill]
    exact ⟨Nat.zero_le _, Nat.zero_le _⟩
  vehicles l v hv := by
    change (Tab.fill 4 none).at l = some v at hv
    rw [Tab.at_fill] at hv
    cases hv
  windows l := by
    change ((Tab.fill 4 TrimLane.afterReset).at l).window.length < 16
    rw [Tab.at_fill]
    exact Nat.succ_pos _
  queues l := by
    rw [stopLine_inReset]
    exact Nat.zero_le _
  deck := by
    have hnone : admittedHeads (State.inReset cause hold st i p) = 0 := by
      rw [admittedHeads_eq]
      simp only [stopLine_inReset]
      rfl
    unfold deckBounded
    rw [hnone]
    exact Nat.zero_le _
  line := ⟨Nat.zero_le _, Nat.zero_le _⟩
  approach := Nat.zero_le _
  port := Nat.zero_le _

theorem StartMove.sizes {s t : State} (hm : StartMove s t) (h : Sizes s) : Sizes t := by
  cases hm with
  | reset cause hold torn =>
    unfold enterReset
    split
    · exact sizes_of_touches (s := s) (bs := [.pendingCause, .store])
        (by intro b hb; cases b <;> first | rfl | simp at hb) h
    · exact sizes_reset _ _ _ _ _
  | load =>
    exact ⟨h.pairing, h.vehicles, h.windows, h.queues, h.deck, h.line, h.approach, Nat.zero_le _⟩
  | fault => exact ⟨h.pairing, h.vehicles, h.windows, h.queues, h.deck, h.line, h.approach, h.port⟩
  | join img =>
    have ht := begun_touches img s
    exact
      { pairing := pairingBounded_of_touches ht h.pairing
        vehicles := vehiclesBounded_of_touches ht h.vehicles
        windows := windowsBounded_of_touches ht h.windows
        queues := queuesBounded_of_lines (fun k => (begun_line_kept img s k).1) h.queues
        deck := deckBounded_of (begun_span img s) (fun k => (begun_line_kept img s k).2) h.deck
        line := lineBounded_of_touches ht h.line
        approach := approach_of_touches ht ▸ h.approach
        port := port_of_touches ht ▸ h.port }
  | run => exact ⟨h.pairing, h.vehicles, h.windows, h.queues, h.deck, h.line, h.approach, h.port⟩

/-! ## Every move -/

theorem EntryMove.sizes {s t : State} (hm : EntryMove s t) (h : Sizes s) : Sizes t where
  pairing := pairingBounded_of_touches hm.touches h.pairing
  vehicles := vehiclesBounded_of_touches hm.touches h.vehicles
  windows := windowsBounded_of_touches hm.touches h.windows
  queues := hm.queuesBounded h.queues
  deck := hm.deckBounded h.deck
  line := hm.lineBounded h.line
  approach := approach_of_touches hm.touches ▸ h.approach
  port := port_of_touches hm.touches ▸ h.port

theorem LineMove.sizes {s t : State} (hm : LineMove s t) (h : Sizes s) : Sizes t where
  pairing := pairingBounded_of_touches hm.touches h.pairing
  vehicles := vehiclesBounded_of_touches hm.touches h.vehicles
  windows := windowsBounded_of_touches hm.touches h.windows
  queues := queuesBounded_of_touches hm.touches h.queues
  deck := deckBounded_of_touches hm.touches h.deck
  line := hm.bounded h.line
  approach := approach_of_touches hm.touches ▸ h.approach
  port := port_of_touches hm.touches ▸ h.port

theorem TrimMove.sizes {s t : State} (hm : TrimMove s t) (h : Sizes s) : Sizes t where
  pairing := pairingBounded_of_touches hm.touches h.pairing
  vehicles := vehiclesBounded_of_touches hm.touches h.vehicles
  windows := hm.bounded h.windows
  queues := queuesBounded_of_touches hm.touches h.queues
  deck := deckBounded_of_touches hm.touches h.deck
  line := lineBounded_of_touches hm.touches h.line
  approach := approach_of_touches hm.touches ▸ h.approach
  port := port_of_touches hm.touches ▸ h.port

theorem sizes_settle {s : State} (h : Sizes s) : Sizes (settle s) where
  pairing := pairingBounded_of_touches (settle_changesOnly s) h.pairing
  vehicles := vehiclesBounded_of_touches (settle_changesOnly s) h.vehicles
  windows := windowsBounded_of_touches (settle_changesOnly s) h.windows
  queues := queuesBounded_of_lines (fun k => (settle_line_kept s k).1) h.queues
  deck := deckBounded_of (settle_span s) (fun k => (settle_line_kept s k).2) h.deck
  line := lineBounded_of_touches (settle_changesOnly s) h.line
  approach := approach_of_touches (settle_changesOnly s) ▸ h.approach
  port := port_of_touches (settle_changesOnly s) ▸ h.port

theorem Move.sizes {C : Prop} {s t : State} (hm : Move True C s t) (h : Sizes s) : Sizes t := by
  cases hm with
  | unread hu => exact sizes_of_touches hu h
  | alert hm => exact sizes_of_touches hm.touches h
  | line hm => exact hm.sizes h
  | entry hm => exact hm.sizes h
  | pairing hm =>
    have ht := hm.touches
    exact ⟨hm.bounded h.pairing, vehiclesBounded_of_touches ht h.vehicles,
      windowsBounded_of_touches ht h.windows, queuesBounded_of_touches ht h.queues,
      deckBounded_of_touches ht h.deck, lineBounded_of_touches ht h.line,
      approach_of_touches ht ▸ h.approach, port_of_touches ht ▸ h.port⟩
  | vehicle hm =>
    have ht := hm.touches
    exact ⟨pairingBounded_of_touches ht h.pairing, hm.bounded h.vehicles,
      windowsBounded_of_touches ht h.windows, queuesBounded_of_touches ht h.queues,
      deckBounded_of_touches ht h.deck, lineBounded_of_touches ht h.line,
      approach_of_touches ht ▸ h.approach, port_of_touches ht ▸ h.port⟩
  | trim hm => exact hm.sizes h
  | lamp hm => exact sizes_of_touches hm.touches h
  | start hm => exact hm.sizes h
  | channel => exact sizes_of_touches (touches_channels s _) h
  | approach hlen =>
    exact ⟨h.pairing, h.vehicles, h.windows, h.queues, h.deck, h.line,
      hlen.trans (max_le le_rfl h.approach), h.port⟩
  | port hlen =>
    exact ⟨h.pairing, h.vehicles, h.windows, h.queues, h.deck, h.line, h.approach,
      hlen.trans (max_le le_rfl h.port)⟩
  | clear x => exact sizes_of_touches (clearSource_touches s x) h
  | settle => exact sizes_settle h

/-- Settles O5: every move keeps every size. -/
theorem stepKeepsBounded : Obligations.StepKeepsBounded := by
  intro s t hs h
  rw [bounded_iff] at hs ⊢
  exact step_keeps (B := True) (fun u hu _ l => (hu.pairing l).1) Move.sizes
    (fun _ hu => ⟨hu.pairing, hu.vehicles, hu.windows, hu.queues, hu.deck, hu.line, hu.approach,
      hu.port⟩) h hs

end Sys2Proof.Proofs
end

