-- ==== Sys2Proof/Proofs/StripLaws.lean ====
section
/-! PROOFS. The layer under the statements on strips: what follows other state only, an axle that opens a
vehicle, an axle weighed from one strip, a strip that is blamed or reported, and the samples of a pulse. -/

namespace Sys2Proof.Proofs

open Sys2Proof Sys2Proof.Machine

/-! ## What only follows other state -/

theorem followsOnly_trans {s t u : State} (h : followsOnly s t) (k : followsOnly t u) :
    followsOnly s u := by
  obtain ⟨h1, h2, h3, h4⟩ := h
  obtain ⟨k1, k2, k3, k4⟩ := k
  exact ⟨k1.trans h1, k2.trans h2, k3.trans h3, fun x hx => (k4 x hx).trans (h4 x hx)⟩

theorem followsOnly_of_touches {bs : List Block} {s t : State} (h : changesOnly bs s t)
    (hb : ∀ b ∈ [Block.signs, .lamps, .entry, .alerts], b ∉ bs := by decide) : followsOnly s t := by
  have he : t.entry = s.entry := h .entry (hb _ (by simp))
  have hl : t.lamps = s.lamps := h .lamps (hb _ (by simp))
  have hg : t.signs = s.signs := h .signs (hb _ (by simp))
  have ha : t.alerts = s.alerts := h .alerts (hb _ (by simp))
  exact ⟨by rw [he], by rw [hl], by rw [hg], fun _ _ => by simp only [alertOf, ha]⟩

theorem followsOnly_takeConditions (s : State) : followsOnly s (takeConditions s) := by
  refine ⟨?_, ?_, ?_, fun x hx => alertOf_takeConditions_event s hx⟩
  · rw [takeConditions_entry]
  · rw [takeConditions_lamps]
  · rw [takeConditions_signs]

/-- What follows other state only, still does once it is settled. -/
theorem followsOnly_settle {s u : State} (h : followsOnly s u) : followsOnly s (settle u) :=
  followsOnly_trans h (settle_followsOnly u)

/-- What commands and `settle` after them leave unchanged. -/
theorem changesOnly_settle {bs cs : List Block} {s u : State} (h : changesOnly bs s u)
    (hb : bs ++ [.signs, .lamps, .entry, .alerts] ⊆ cs := by decide) : changesOnly cs s (settle u) :=
  changesOnly_mono (changesOnly_append h (settle_changesOnly u)) hb

theorem setHealth_touches (p : Strip) (h : StripHealth) (s : State) :
    changesOnly [.health] s (setHealth p h s) := touches_health s _

/-! ## What `settle` keeps of channels, holds, health and signals -/

theorem healthOf_congr {s t : State} (h : t.health = s.health) (p : Strip) :
    healthOf t p = healthOf s p := by simp only [healthOf, h]

theorem stripFailed_congr {s t : State} (h : t.health = s.health) (p : Strip) :
    stripFailed t p = stripFailed s p := by simp only [stripFailed, healthOf_congr h]

theorem channelOf_congr {s t : State} (h : t.channels = s.channels) (p : Strip) :
    channelOf t p = channelOf s p := by simp only [channelOf, h]

theorem signalAbove_congr {s t : State} (h : t.inputs = s.inputs) (p : Strip) :
    signalAbove t p = signalAbove s p := by simp only [signalAbove, h]

theorem holdOf_congr {s t : State} (h : t.pairing = s.pairing) (l : Lane) (p : Pos) :
    holdOf t l p = holdOf s l p := by cases p <;> simp only [holdOf, h]

theorem signalAbove_setSignal_self (p : Strip) (b : Bool) (s : State) :
    signalAbove (setSignal p b s) p = b := Tab.at_put_self _ _ _

theorem signalAbove_setSignal_ne {p q : Strip} (b : Bool) (s : State) (h : q ≠ p) :
    signalAbove (setSignal p b s) q = signalAbove s q :=
  Tab.at_put_ne _ _ fun e => h (stripIndex_inj e)

theorem setSignal_touches (p : Strip) (b : Bool) (s : State) :
    changesOnly [.inputs] s (setSignal p b s) := touches_inputs s _

theorem setChannel_touches (p : Strip) (c : Channel) (s : State) :
    changesOnly [.channels] s (setChannel p c s) := touches_channels s _

/-! ## The strip health monitor keeps its state and walk position -/

/-- An operation of the monitor writes records of strips; what else differs follows other state. -/
def monitored (s t : State) : Prop :=
  t.health.state = s.health.state ∧ t.health.walk = s.health.walk ∧ followsOnly s t

theorem monitored_trans {s t u : State} (h : monitored s t) (k : monitored t u) : monitored s u :=
  ⟨k.1.trans h.1, k.2.1.trans h.2.1, followsOnly_trans h.2.2 k.2.2⟩

theorem monitored_setHealth (p : Strip) (h : StripHealth) (s : State) :
    monitored s (setHealth p h s) := ⟨rfl, rfl, followsOnly_of_touches (setHealth_touches p h s)⟩

theorem monitored_softEvent (p : Strip) (s : State) : monitored s (softEvent p s) :=
  monitored_setHealth p _ s

theorem monitored_takeConditions (s : State) : monitored s (takeConditions s) := by
  refine ⟨?_, ?_, followsOnly_takeConditions s⟩
  · rw [takeConditions_health]
  · rw [takeConditions_health]

theorem monitored_hardEvent (p : Strip) (c : HardCause) (s : State) :
    monitored s (hardEvent p c s) :=
  monitored_trans (monitored_setHealth p _ s) (monitored_takeConditions _)

theorem monitored_advanceSilence (p : Strip) (s : State) : monitored s (advanceSilence p s) := by
  simp only [advanceSilence]
  split
  · exact monitored_trans (monitored_setHealth p _ s) (monitored_hardEvent p _ _)
  · exact monitored_setHealth p _ s

theorem monitored_blame (p : Strip) (s : State) : monitored s (blame p s) :=
  monitored_trans (monitored_softEvent p s) (monitored_advanceSilence p _)

theorem monitored_advanceClip (p : Strip) (c : Bool) (s : State) :
    monitored s (advanceClip p c s) := by
  simp only [advanceClip]
  split
  · split
    · exact monitored_trans (monitored_trans (monitored_softEvent p s) (monitored_setHealth p _ _))
        (monitored_hardEvent p _ _)
    · exact monitored_trans (monitored_softEvent p s) (monitored_setHealth p _ _)
  · exact monitored_setHealth p _ s

theorem monitored_monitorHit (p : Strip) (c : Bool) (s : State) : monitored s (monitorHit p c s) :=
  monitored_trans (monitored_setHealth p { healthOf s p with silenceRun := 0 } s)
    (monitored_advanceClip p c _)

theorem softened_congr {s t : State} (hc : t.clock = s.clock)
    (hh : t.health.state = s.health.state) (h : StripHealth) : softened t h = softened s h := by
  simp only [softened, hc, hh]

theorem hardened_congr {s t : State} (hc : t.clock = s.clock)
    (hh : t.health.state = s.health.state) (c : HardCause) (h : StripHealth) :
    hardened t c h = hardened s c h := by simp only [hardened, hc, hh]

theorem afterBlame_congr {s t : State} (hc : t.clock = s.clock)
    (hh : t.health.state = s.health.state) (h : StripHealth) : afterBlame t h = afterBlame s h := by
  simp only [afterBlame, softened_congr hc hh, hardened_congr hc hh]

theorem afterReport_congr {s t : State} (hc : t.clock = s.clock)
    (hh : t.health.state = s.health.state) (c : Bool) (h : StripHealth) :
    afterReport t c h = afterReport s c h := by
  simp only [afterReport, softened_congr hc hh, hardened_congr hc hh]

/-- R168 to R174: a state `u` with the health of `s` blames a strip, and `t` has the health it gives. -/
theorem blamed_of {p : Strip} {s u t : State} (hu : u.health = s.health) (hc : u.clock = s.clock)
    (ht : t.health = (blame p u).health) : blamed p s t := by
  have hself : healthOf t p = afterBlame s (healthOf s p) := by
    rw [healthOf_congr ht, healthOf_blame, healthOf_congr hu, afterBlame_congr hc (by rw [hu])]
  have hother (q : Strip) (hq : q ≠ p) : healthOf t q = healthOf s q := by
    rw [healthOf_congr ht, healthOf_blame_ne _ hq, healthOf_congr hu]
  obtain ⟨hstate, hwalk, -⟩ := monitored_blame p u
  exact ⟨hself, by rw [laneMode_eq_modeWith p hother, hself], hother,
    by rw [ht, hstate, hu], by rw [ht, hwalk, hu]⟩

/-! ## An axle that opens a vehicle (R18, R37) -/

theorem axleFormed_of_none {a : Axle} {s : State} (h : s.vehicles.at a.lane = none) :
    axleFormed a s =
      openVehicle a.lane a false (countLane a.lane (fun c => { c with axles := c.axles + 1 }) s) := by
  unfold axleFormed assemble
  change (match s.vehicles.at a.lane with
    | none => _
    | some v => _) = _
  rw [h]

theorem axleFormed_touches_of_none {a : Axle} {s : State} (h : s.vehicles.at a.lane = none) :
    changesOnly [.vehicles, .counters] s (axleFormed a s) := by
  rw [axleFormed_of_none h]
  exact changesOnly_trans (changesOnly_mono (touches_counters s _) (by simp))
    (changesOnly_mono (touches_vehicles _ _) (by simp))

/-- The axle is counted and opens a vehicle: said of states that agree with those around it. -/
theorem opensVehicle_of {a : Axle} {s u t : State} (h : s.vehicles.at a.lane = none)
    (hv : u.vehicles = s.vehicles) (hn : u.counters = s.counters) (hc : u.clock = s.clock)
    (hg : u.cfg = s.cfg) (ht : t.vehicles = (axleFormed a u).vehicles)
    (hk : t.counters = (axleFormed a u).counters) : opensVehicle a.lane a s t := by
  rw [axleFormed_of_none (by rw [hv]; exact h)] at ht hk
  refine ⟨?_, fun k hkl => ?_, ?_, fun k hkl => ?_⟩
  · rw [ht]
    change (u.vehicles.put a.lane _).at a.lane = _
    rw [Tab.at_put_self]
    simp only [closeTime, countLane, hc, hg]
  · rw [ht, ← hv]
    exact Tab.at_put_ne _ _ hkl
  · rw [hk, ← hn]
    exact Tab.at_upd_self _ _ _
  · rw [hk, ← hn]
    exact Tab.at_upd_ne _ _ hkl

/-! ## Speed and load (chapter 2) -/

theorem stripLoad_congr {s t : State} (hc : t.cfg = s.cfg) (hp : t.probe = s.probe)
    (hs : t.store = s.store) (p : Strip) (area v : Nat) :
    stripLoad t p area v = stripLoad s p area v := by
  simp only [stripLoad, hc, hp, hs]

theorem assumedSpeed_congr {s t : State} (hc : t.cfg = s.cfg) (hh : t.health = s.health)
    (hp : ∀ k, (t.pairing.at k).history = (s.pairing.at k).history) (l : Lane) :
    assumedSpeed t l = assumedSpeed s l := by
  have hlends : lends t l = lends s l := funext fun k => by
    simp only [lends, laneInUse_congr hc, laneMode_congr hh, hp]
  simp only [assumedSpeed, nearestLender, hlends, hp]

/-- R14, R22, R32, R33: what an axle of one strip carries. -/
theorem oneStripAxle_spec (s : State) (p : Strip) (start : Clock) (width area : Nat)
    (clipped : Bool) (partner : Option Lane) (unpaired single : Bool) :
    let a := oneStripAxle s p start width area clipped partner unpaired single
    fromOneStrip s p area a ∧ a.time = start ∧ a.partner = partner ∧
      a.flags.unpaired = unpaired ∧ a.flags.single = single := by
  unfold oneStripAxle fromOneStrip
  cases assumedSpeed s p.lane with
  | none => exact ⟨⟨rfl, rfl, rfl, rfl⟩, rfl, rfl, rfl, rfl⟩
  | some v => exact ⟨⟨rfl, rfl, rfl, rfl⟩, rfl, rfl, rfl, rfl⟩

theorem fromOneStrip_congr {s u : State} (hc : u.cfg = s.cfg) (hh : u.health = s.health)
    (hq : ∀ k, (u.pairing.at k).history = (s.pairing.at k).history) (hp : u.probe = s.probe)
    (hs : u.store = s.store) {p : Strip} {area : Nat} {a : Axle} (h : fromOneStrip u p area a) :
    fromOneStrip s p area a := by
  unfold fromOneStrip at *
  simpa only [assumedSpeed_congr hc hh hq, stripLoad_congr hc hp hs] using h

/-! ## Pairing units -/

theorem pairing_at_setPairing_self (l : Lane) (x : PairingUnit) (s : State) :
    (setPairing l x s).pairing.at l = x := Tab.at_put_self _ _ _

theorem sameBut_setPairing (l : Lane) (x : PairingUnit) (s : State) :
    sameBut l s.pairing (setPairing l x s).pairing := fun _ hk => Tab.at_put_ne _ _ hk

/-! ## The samples of a pulse (R2) -/

/-- R2: samples change area and clip of a pulse only; the area is held at its ceiling, and a held area
or a sample at full scale clips it. -/
theorem foldl_addSample (l : List Sample) {c : Channel} (h : c.area ≤ 16777215) :
    l.foldl addSample c =
      { c with
        area := min 16777215 (c.area + (l.map Sample.counts).sum)
        clipped := c.clipped || l.any Sample.fullScale ||
          decide (16777215 < c.area + (l.map Sample.counts).sum) } := by
  induction l generalizing c with
  | nil =>
    have hn : ¬16777215 < c.area := by omega
    simp [hn, Nat.min_eq_right h]
  | cons x l ih =>
    rw [List.foldl_cons, ih (show (addSample c x).area ≤ 16777215 from min_le_left _ _)]
    simp only [addSample, List.map_cons, List.sum_cons, List.any_cons, Channel.mk.injEq, true_and,
      and_true]
    by_cases hx : 16777215 < c.area + x.counts
    · have hall : 16777215 < c.area + (x.counts + (l.map Sample.counts).sum) := by omega
      simp only [hx, hall, decide_true, Bool.or_true, Bool.true_or]
      exact ⟨by omega, trivial⟩
    · have hmin : min 16777215 (c.area + x.counts) = c.area + x.counts := by omega
      simp only [hmin, hx, decide_false, Bool.or_false, Nat.add_assoc, Bool.or_assoc]
      exact ⟨trivial, trivial⟩

end Sys2Proof.Proofs
end

