-- ==== Sys2Proof/Proofs/StripEdges.lean ====
section
/-! PROOFS. The edges of a conditioned signal that are no pulse end, pulses that have no end, the load of
a strip, and axles that reach an open vehicle. -/

namespace Sys2Proof.Proofs

open Sys2Proof Sys2Proof.Machine

/-- A command that touches nothing `settle` reads leaves nothing for it to do. -/
theorem done_quiet {bs : List Block} {s u : State} (hs : settled s = true) (h : changesOnly bs s u)
    (hb : ∀ b ∈ [Block.startup, .cfg, .health, .signs, .lamps, .entry, .alerts, .peers, .probe],
      b ∉ bs := by decide) : done u = .next u := by
  have hp : u.peers = s.peers := h .peers (hb _ (by simp))
  have ht : u.probe = s.probe := h .probe (hb _ (by simp))
  rw [done, settle_same hs (h .startup (hb _ (by simp))) (h .cfg (hb _ (by simp)))
    (h .health (hb _ (by simp))) (h .signs (hb _ (by simp))) (h .lamps (hb _ (by simp)))
    (h .entry (hb _ (by simp))) (h .alerts (hb _ (by simp))) (by rw [hp]) (by rw [ht])]

/-! ## Edges and stuck pulses (R1, R2, R4) -/

/-- A signal edge of a strip that moves its channel. -/
def edgeTaken (p : Strip) (c : Channel) (above : Bool) (s : State) : State :=
  setChannel p c (setSignal p above s)

theorem edgeTaken_touches (p : Strip) (c : Channel) (above : Bool) (s : State) :
    changesOnly [.channels, .inputs] s (edgeTaken p c above s) :=
  changesOnly_trans (changesOnly_mono (setSignal_touches p above s) (by simp))
    (changesOnly_mono (setChannel_touches p c _) (by simp))

/-- What an edge of a strip leaves of the channels and signals. -/
theorem edgeTaken_spec (p : Strip) (c : Channel) (above : Bool) (s : State) :
    let t := edgeTaken p c above s
    channelOf t p = c ∧ (∀ q, q ≠ p → channelOf t q = channelOf s q) ∧
      signalAbove t p = above ∧ (∀ q, q ≠ p → signalAbove t q = signalAbove s q) ∧
      t.inputs.presence = s.inputs.presence ∧ changesOnly [.channels, .inputs] s t :=
  ⟨channelOf_setChannel_self p c _, fun _ hq => channelOf_setChannel_ne c _ hq,
    signalAbove_setSignal_self p above s, fun _ hq => signalAbove_setSignal_ne above s hq, rfl,
    edgeTaken_touches p c above s⟩

theorem setChannel_channelOf (p : Strip) (s : State) : setChannel p (channelOf s p) s = s := by
  have h : s.channels.put (stripIndex p) (channelOf s p) = s.channels := Tab.put_at _ _
  unfold setChannel
  rw [h]

theorem execSignalBelowTrigger_eq (p : Strip) {s : State}
    (h : (channelOf s p).state = .wait ∨ (channelOf s p).state = .off) :
    execSignalBelowTrigger p s =
      done (edgeTaken p
        { channelOf s p with
          state := if (channelOf s p).state = .wait then .armed else .off } false s) := by
  unfold execSignalBelowTrigger
  obtain h | h := h
  · simp only [h, if_true]
    rfl
  · have hsame : ({ channelOf s p with
        state := if (channelOf s p).state = .wait then .armed else .off } : Channel) =
        channelOf s p := by
      rw [h, if_neg nofun, ← h]
    rw [hsame]
    simp only [h]
    exact congrArg done (setChannel_channelOf p (setSignal p false s)).symm

/-- R4: the channel of an abandoned pulse is in WAIT. -/
def pulseAbandoned (p : Strip) (s : State) : State :=
  setChannel p { channelOf s p with state := .wait } s

theorem hardened_eq_match (s : State) (cause : HardCause) (h : StripHealth) :
    hardened s cause h =
      (match h.hard with
      | none =>
        { h with
          failed := true, hard := some cause
          hardTime := if s.health.state = .listen then some s.clock else none }
      | some _ => { h with failed := true, hardOverflow := true }) := by
  obtain ⟨failed, silence, clip, hard, time, overflow, soft, softTime, softOverflow⟩ := h
  cases hard with
  | none => simp [hardened]
  | some c => simp [hardened]

/-- Settles O9: the two edges leave nothing to settle; a stuck pulse is a hard event of its strip. -/
theorem signalEdgesAndStuckPulses : Obligations.SignalEdgesAndStuckPulses := by
  intro s p hs
  refine ⟨fun h => ⟨_, ?_, edgeTaken_spec p _ true s⟩, fun h => ⟨_, ?_, edgeTaken_spec p _ false s⟩,
    fun h hlong => ?_⟩
  · have hexec : exec (.pulseStart p) s = done (edgeTaken p
        { channelOf s p with state := .pulse, start := s.clock, area := 0, clipped := false } true s) := by
      simp only [exec, execPulseStart, h]
      rfl
    exact hexec.trans (done_quiet hs (edgeTaken_touches _ _ _ s))
  · exact (execSignalBelowTrigger_eq p h).trans (done_quiet hs (edgeTaken_touches _ _ _ s))
  · have hu : changesOnly [.channels] s (pulseAbandoned p s) := setChannel_touches _ _ s
    have hstrip := hardEvent_touches p .stuck (pulseAbandoned p s)
    have hhealth := settle_health (hardEvent p .stuck (pulseAbandoned p s))
    have hchan : (settle (hardEvent p .stuck (pulseAbandoned p s))).channels =
        (pulseAbandoned p s).channels := (settle_channels _).trans (hstrip .channels (by decide))
    obtain ⟨hstate, hwalk, hfollows⟩ := monitored_hardEvent p .stuck (pulseAbandoned p s)
    refine ⟨_, if_pos ⟨h, hlong⟩, ?_, fun q hq => ?_, ?_, fun q hq => ?_,
      (congrArg Health.state hhealth).trans hstate, (congrArg Health.walk hhealth).trans hwalk,
      followsOnly_settle (followsOnly_trans (followsOnly_of_touches hu) hfollows),
      changesOnly_settle (changesOnly_append hu hstrip)⟩
    · exact (channelOf_congr hchan p).trans (channelOf_setChannel_self _ _ s)
    · exact (channelOf_congr hchan q).trans (channelOf_setChannel_ne _ s hq)
    · exact ((healthOf_congr hhealth p).trans (healthOf_hardEvent _ _ _)).trans
        (hardened_eq_match s .stuck (healthOf s p))
    · exact (healthOf_congr hhealth q).trans (healthOf_hardEvent_ne _ _ hq)

/-! ## The load of one strip (R23, R28 to R31) -/

theorem bandOf_iff (v : Nat) :
    (bandOf v = .slow ↔ v < 833) ∧ (bandOf v = .mid ↔ 833 ≤ v ∧ v < 1944) ∧
      (bandOf v = .fast ↔ 1944 ≤ v) := by
  unfold bandOf
  split
  · simp; omega
  · split
    · simp; omega
    · simp; omega

theorem constant_stripBand (c : StripCal) (v : Nat) :
    c.constant (stripBand c v) =
      if c.autoBand = true then
        (match bandOf v with
        | .slow => c.kSlow
        | .mid => c.kMid
        | .fast => c.kFast)
      else c.kMid := by
  unfold stripBand
  split
  · cases bandOf v <;> rfl
  · rfl

/-- Settles O15: each formula of chapter 2 by the definition of its step. -/
theorem stripLoadsAreComputed : Obligations.StripLoadsAreComputed := by
  refine ⟨bandOf_iff, ?_, fun a b => ⟨fun h => ?_, fun h => ?_⟩⟩
  · intro s p area v x k f g c hc hk hf hg lo hi
    have hfactor : tempFactor c.beta s.probe.theta = f := by
      unfold tempFactor
      omega
    have hx : rawLoad area v k g = x := Nat.div_eq_of_lt_le lo hi
    have hconstant : c.constant (stripBand c v) = k := (constant_stripBand c v).trans hk.symm
    have hload : stripLoad s p area v = (min 6000 x, decide (6000 < x)) := by
      rw [stripLoad, ← hc, hconstant, hfactor, combinedFactor, ← hg, hx]
    rw [hload]
    exact ⟨rfl, decide_eq_true_iff⟩
  · rw [reconcile, absDiff, if_pos h]
  · rw [reconcile, absDiff, if_neg (by omega)]

/-! ## An axle that reaches an open vehicle (R38, R39, R42) -/

theorem setVehicle_touches (l : Lane) (x : Option OpenVehicle) (s : State) :
    changesOnly [.vehicles] s (setVehicle l x s) := touches_vehicles s _

theorem sameBut_setVehicle (l : Lane) (x : Option OpenVehicle) (s : State) :
    sameBut l s.vehicles (setVehicle l x s).vehicles := fun _ hk => Tab.at_put_ne _ _ hk

/-- A vehicle that closes leaves its lane; handing its record on leaves the assemblers alone. -/
theorem closeVehicle_vehicles {l : Lane} {v : OpenVehicle} {s : State} (h : s.vehicles.at l = some v)
    (overlong : Bool) : (closeVehicle l overlong s).vehicles = (setVehicle l none s).vehicles := by
  unfold closeVehicle
  rw [h]
  dsimp only
  split
  · exact handOnHeavy_touches _ _ .vehicles (by decide)
  · exact handOnLight_touches _ _ .vehicles (by decide)

/-- Settles O16: by the three branches of the assembler. -/
theorem axlesJoinOrCloseVehicle : Obligations.AxlesJoinOrCloseVehicle := by
  intro s l v prev a hv hprev t gap mean spacing fresh
  have hgap : axleGap prev a = gap := by
    simp only [axleGap, gap]
    split
    · rw [if_neg (by omega)]
    · rw [if_pos (by omega)]
  have hspacing : spacingTo v a = spacing := by
    simp only [spacingTo, hprev, spacingOf, spacing, hgap, mean]
    congr 1
    cases prev.speed <;> cases a.speed <;> rfl
  have hopened (overlong continuation : Bool) :
      sameBut l s.vehicles (openVehicle l a continuation (closeVehicle l overlong s)).vehicles ∧
        (openVehicle l a continuation (closeVehicle l overlong s)).vehicles.at l =
          some (fresh continuation) ∧
        changesOnly [.vehicles] (closeVehicle l overlong s)
          (openVehicle l a continuation (closeVehicle l overlong s)) := by
    have htouch := closeVehicle_touches l overlong s
    refine ⟨sameBut_trans ?_ (sameBut_setVehicle l _ _), ?_, setVehicle_touches _ _ _⟩
    · rw [closeVehicle_vehicles hv]
      exact sameBut_setVehicle l none s
    · refine (Tab.at_put_self _ _ _).trans ?_
      rw [closeTime, htouch .clock (by decide), htouch .cfg (by decide)]
  have hassemble : t =
      if tooFar s spacing then openVehicle l a false (closeVehicle l false s)
      else if 12 ≤ v.axles.length then openVehicle l a true (closeVehicle l true s)
      else joinVehicle l v a spacing s := by
    simp only [t, assemble, hv, hspacing]
  have hjoined : joinVehicle l v a spacing s = setVehicle l
      (some { v with
        axles := v.axles ++ [a], spacings := v.spacings ++ [spacing]
        closeAt := later s.clock (s.cfg.tMax * 1000) }) s := rfl
  have hnear (h : ∀ x, spacing = some x → x ≤ s.cfg.sMax) : ¬tooFar s spacing = true := by
    cases hx : spacing with
    | none => exact Bool.false_ne_true
    | some x => simpa [tooFar] using h x hx
  refine ⟨?_, fun x hx hfar => ?_, fun hle => ⟨fun hlen => ?_, fun hlen => ?_⟩⟩
  · rw [hassemble]
    split
    · exact (hopened false false).1
    split
    · exact (hopened true true).1
    · rw [hjoined]
      exact sameBut_setVehicle l _ s
  · rw [hassemble, if_pos (by simp [tooFar, hx, hfar])]
    exact (hopened false false).2
  · rw [hassemble, if_neg (hnear hle), if_neg (by omega), hjoined]
    exact ⟨Tab.at_put_self _ _ _, setVehicle_touches _ _ s⟩
  · rw [hassemble, if_neg (hnear hle), if_pos hlen]
    exact (hopened true true).2

end Sys2Proof.Proofs
end

