-- ==== Sys2Proof/Proofs/HoldsLeave.lean ====
section
/-! PROOFS. Hits that leave their holds when a coincidence timer expires, and leads that expire: what
joins the FIFO, what forms an axle, and which strip is blamed. -/

namespace Sys2Proof.Proofs

open Sys2Proof Sys2Proof.Machine

/-! ## Holds and FIFOs -/

theorem setHold_touches_pairing (l : Lane) (p : Pos) (x : Option HeldHit) (s : State) :
    changesOnly [.pairing] s (setHold l p x s) := by
  cases p <;> exact touches_pairing s _

theorem setFifo_touches_pairing (l : Lane) (q : List PendingLead) (s : State) :
    changesOnly [.pairing] s (setFifo l q s) := touches_pairing s _

theorem sameBut_setHold (l : Lane) (p : Pos) (x : Option HeldHit) (s : State) :
    sameBut l s.pairing (setHold l p x s).pairing := by
  cases p <;> exact sameBut_setPairing l _ s

theorem pairing_at_setHold_self (l : Lane) (p : Pos) (x : Option HeldHit) (s : State) :
    (setHold l p x s).pairing.at l =
      match p with
      | .lead => { s.pairing.at l with leadHold := x }
      | .trail => { s.pairing.at l with trailHold := x } := by
  cases p <;> exact pairing_at_setPairing_self l _ s

theorem holdOf_setHold_self (l : Lane) (p : Pos) (x : Option HeldHit) (s : State) :
    holdOf (setHold l p x s) l p = x := by
  unfold holdOf
  rw [pairing_at_setHold_self]
  cases p <;> rfl

theorem holdOf_setHold_ne {l k : Lane} {p q : Pos} (x : Option HeldHit) (s : State)
    (h : (k, q) ≠ (l, p)) : holdOf (setHold l p x s) k q = holdOf s k q := by
  by_cases hk : k = l
  · subst hk
    have hq : q ≠ p := fun e => h (by rw [e])
    unfold holdOf
    rw [pairing_at_setHold_self]
    cases p <;> cases q <;> first | rfl | exact absurd rfl hq
  · unfold holdOf
    rw [sameBut_setHold l p x s k hk]

/-- A hold is written: FIFO and history of every lane stay. -/
theorem queues_setHold (l k : Lane) (p : Pos) (x : Option HeldHit) (s : State) :
    ((setHold l p x s).pairing.at k).fifo = (s.pairing.at k).fifo ∧
      ((setHold l p x s).pairing.at k).history = (s.pairing.at k).history := by
  by_cases hk : k = l
  · subst hk
    rw [pairing_at_setHold_self]
    cases p <;> exact ⟨rfl, rfl⟩
  · rw [sameBut_setHold l p x s k hk]
    exact ⟨rfl, rfl⟩

theorem pairing_at_setFifo_self (l : Lane) (q : List PendingLead) (s : State) :
    (setFifo l q s).pairing.at l = { s.pairing.at l with fifo := q } :=
  pairing_at_setPairing_self l _ s

theorem history_setFifo (l k : Lane) (q : List PendingLead) (s : State) :
    ((setFifo l q s).pairing.at k).history = (s.pairing.at k).history := by
  by_cases hk : k = l
  · subst hk
    rw [pairing_at_setFifo_self]
  · rw [setFifo, sameBut_setPairing l _ s k hk]

/-! ## Axles of one strip and of a pair -/

/-- What happens before an axle is formed: of the pairing units only holds and FIFOs change. -/
structure beforeAxle (s u : State) : Prop where
  frame : changesOnly [.channels, .inputs, .pairing] s u
  history : ∀ k, (u.pairing.at k).history = (s.pairing.at k).history

theorem beforeAxle_trans {s t u : State} (h : beforeAxle s t) (k : beforeAxle t u) :
    beforeAxle s u :=
  ⟨changesOnly_trans h.frame k.frame, fun l => (k.history l).trans (h.history l)⟩

theorem beforeAxle_setHold (l : Lane) (p : Pos) (x : Option HeldHit) (s : State) :
    beforeAxle s (setHold l p x s) :=
  ⟨changesOnly_mono (setHold_touches_pairing l p x s) (by simp), fun k => (queues_setHold l k p x s).2⟩

theorem beforeAxle_setFifo (l : Lane) (q : List PendingLead) (s : State) :
    beforeAxle s (setFifo l q s) :=
  ⟨changesOnly_mono (setFifo_touches_pairing l q s) (by simp), fun k => history_setFifo l k q s⟩

/-- R18, R37: an axle of a lane with no open vehicle opens one. -/
theorem beforeAxle.opens {s u t : State} {a : Axle} (h : beforeAxle s u)
    (hv : s.vehicles.at a.lane = none) (ht : t.vehicles = (axleFormed a u).vehicles)
    (hk : t.counters = (axleFormed a u).counters) : opensVehicle a.lane a s t :=
  opensVehicle_of hv (h.frame .vehicles (by decide)) (h.frame .counters (by decide))
    (h.frame .clock (by decide)) (h.frame .cfg (by decide)) ht hk

/-- R14, R22, R32, R33: an axle from one strip, weighed as the station stood before. -/
theorem beforeAxle.fromOneStrip {s u : State} (h : beforeAxle s u) {p : Strip} {area : Nat}
    {a : Axle} (ha : fromOneStrip u p area a) : fromOneStrip s p area a :=
  fromOneStrip_congr (h.frame .cfg (by decide)) (h.frame .health (by decide)) h.history
    (h.frame .probe (by decide)) (h.frame .store (by decide)) ha

/-- R11, R13, R21, R31: an axle of a lead and an unmerged trail. -/
theorem pairedAxle_spec (s : State) (l : Lane) (y : PendingLead) (h : Hit) (dt : Nat)
    (hp : h.partner = none) :
    let a := pairedAxle s l y h dt
    let raw := s.cfg.spacing.at l * 100000 / dt
    let v := min 4000 raw
    a.time = y.start ∧ a.lane = l ∧ a.partner = y.partner ∧ a.speed = some v ∧
      a.load = some (reconcile (stripLoad s ⟨l, .lead⟩ y.area v).1
        (stripLoad s ⟨l, .trail⟩ h.area v).1).1 ∧
      (a.flags.slow = true ↔ raw < 150) ∧ (a.flags.fast = true ↔ 4000 < raw) := by
  refine ⟨rfl, rfl, ?_, rfl, rfl, decide_eq_true_iff, decide_eq_true_iff⟩
  unfold pairedAxle
  dsimp only
  rw [hp]
  cases y.partner <;> rfl

/-! ## A lead expires (R12) -/

/-- What an expired lead brings about, from the station `s` to the settled station `t`. -/
def leadExpires (l : Lane) (e : PendingLead) (a : Axle) (s t : State) : Prop :=
  opensVehicle l a s t ∧ a.time = e.start ∧ a.partner = e.partner ∧ a.flags.unpaired = true ∧
    a.flags.single = false ∧ fromOneStrip s ⟨l, .lead⟩ e.area a ∧ blamed ⟨l, .trail⟩ s t ∧
    followsOnly s t ∧
    changesOnly [.pairing, .vehicles, .health, .counters, .signs, .lamps, .entry, .alerts] s t

theorem leadExpires_of {l : Lane} {e : PendingLead} {s v u : State} (hv : changesOnly [.pairing] s v)
    (hh : ∀ k, (v.pairing.at k).history = (s.pairing.at k).history)
    (hn : s.vehicles.at l = none) (hu : changesOnly [.pairing] (expireLead l e v) u) :
    leadExpires l e (unpairedAxle v l e) s (settle u) := by
  have hbefore : beforeAxle s v := ⟨changesOnly_mono hv (by simp), hh⟩
  obtain ⟨hone, htime, hpartner, hunpaired, hsingle⟩ := oneStripAxle_spec v ⟨l, .lead⟩ e.start e.width
    e.area e.clipped e.partner true false
  have hlane : (unpairedAxle v l e).lane = l := hone.1
  have hnone : s.vehicles.at (unpairedAxle v l e).lane = none := by rw [hlane]; exact hn
  have hformed : changesOnly [.pairing, .vehicles, .counters] s
      (axleFormed (unpairedAxle v l e) v) :=
    changesOnly_append hv (axleFormed_touches_of_none
      (by rw [hv .vehicles (by decide)]; exact hnone))
  have hblame := blame_touches ⟨l, .trail⟩ (axleFormed (unpairedAxle v l e) v)
  have hopens := hbefore.opens (t := settle u) hnone
    ((settle_vehicles u).trans ((hu .vehicles (by decide)).trans (hblame .vehicles (by decide))))
    ((settle_counters u).trans ((hu .counters (by decide)).trans (hblame .counters (by decide))))
  rw [hlane] at hopens
  obtain ⟨-, -, hfollows⟩ := monitored_blame ⟨l, .trail⟩ (axleFormed (unpairedAxle v l e) v)
  refine ⟨hopens, htime, hpartner, hunpaired, hsingle, hbefore.fromOneStrip hone, ?_,
    followsOnly_settle (followsOnly_trans (followsOnly_trans (followsOnly_of_touches hformed) hfollows)
      (followsOnly_of_touches hu)),
    changesOnly_settle (changesOnly_append (changesOnly_append hformed hblame) hu)⟩
  exact blamed_of (hformed .health (by decide)) (hformed .clock (by decide))
    ((settle_health u).trans (hu .health (by decide)))

/-! ## A hit leaves its hold unmerged (R6, R9, R10) -/

theorem execCoincidenceTimerExpiry_of_held {l : Lane} {p : Pos} {x : HeldHit} {s : State}
    (h : holdOf s l p = some x) (hd : atOrAfter s.clock x.expires = true) :
    exec (.coincidenceTimerExpiry l p) s =
      done (hitLeaves (unmerged x) (setHold l p none s)) := by
  simp only [exec, execCoincidenceTimerExpiry, h, hd, if_true, releaseHold]

theorem unmerged_lane {x : HeldHit} {l : Lane} {p : Pos} (h : x.hit.strip = ⟨l, p⟩) :
    (unmerged x).lane = l := by simp [unmerged, h]

theorem hitLeaves_dual_lead {x : HeldHit} {l : Lane} (h : x.hit.strip = ⟨l, .lead⟩)
    (hm : x.mode = .dual) (s : State) : hitLeaves (unmerged x) s = leadArrives (unmerged x) s := by
  have hp : (unmerged x).pos = .lead := by simp [unmerged, h]
  have hmode : (unmerged x).mode = .dual := hm
  simp only [hitLeaves, hp, hmode]

theorem hitLeaves_dual_trail {x : HeldHit} {l : Lane} (h : x.hit.strip = ⟨l, .trail⟩)
    (hm : x.mode = .dual) (s : State) : hitLeaves (unmerged x) s = trailArrives (unmerged x) s := by
  have hp : (unmerged x).pos = .trail := by simp [unmerged, h]
  have hmode : (unmerged x).mode = .dual := hm
  simp only [hitLeaves, hp, hmode]

theorem hitLeaves_single {x : HeldHit} (hm : x.mode = .single) (s : State) :
    hitLeaves (unmerged x) s = axleFormed (singleAxle s (unmerged x)) s := by
  have hmode : (unmerged x).mode = .single := hm
  simp only [hitLeaves, hmode]

theorem makeRoom_of_room {l : Lane} {s : State} (h : (s.pairing.at l).fifo.length < 6) :
    makeRoom l s = s := by
  unfold makeRoom
  split
  · rfl
  next hq =>
    rw [hq, List.length_cons] at h
    exact if_neg (by omega)

theorem makeRoom_of_full {l : Lane} {s : State} {e : PendingLead} {rest : List PendingLead}
    (hq : (s.pairing.at l).fifo = e :: rest) (h : 6 ≤ rest.length + 1) :
    makeRoom l s = expireLead l e (setFifo l rest s) := by
  simp only [makeRoom, hq]
  exact if_pos h

theorem leadArrives_of_room {h : Hit} {s : State}
    (hlate : atOrAfter s.clock (pendingOf s h).expiry = false)
    (hroom : (s.pairing.at h.lane).fifo.length < 6) :
    leadArrives h s = setFifo h.lane ((s.pairing.at h.lane).fifo ++ [pendingOf s h]) s := by
  simp only [leadArrives, hlate, makeRoom_of_room hroom]
  exact if_neg Bool.false_ne_true

theorem leadArrives_of_full {h : Hit} {s : State} {e : PendingLead} {rest : List PendingLead}
    (hlate : atOrAfter s.clock (pendingOf s h).expiry = false)
    (hq : (s.pairing.at h.lane).fifo = e :: rest) (hfull : 6 ≤ rest.length + 1) :
    leadArrives h s =
      setFifo h.lane (rest ++ [pendingOf s h]) (expireLead h.lane e (setFifo h.lane rest s)) := by
  have hfifo : ((expireLead h.lane e (setFifo h.lane rest s)).pairing.at h.lane).fifo = rest := by
    rw [expireLead_pairing, pairing_at_setFifo_self]
  simp only [leadArrives, hlate, makeRoom_of_full hq hfull, hfifo]
  exact if_neg Bool.false_ne_true

theorem leadArrives_of_late {h : Hit} {s : State}
    (hlate : atOrAfter s.clock (pendingOf s h).expiry = true) :
    leadArrives h s = expireLead h.lane (pendingOf s h) s := if_pos hlate

/-- Settles O12: by whether the lead is late and whether its FIFO has room. -/
theorem heldLeadJoinsFifo : Obligations.HeldLeadJoinsFifo := by
  intro s l x y hs hx hd hstrip hmode hy
  have hexec := execCoincidenceTimerExpiry_of_held hx hd
  have hlane : (unmerged x).lane = l := unmerged_lane hstrip
  have hpending : pendingOf (setHold l .lead none s) (unmerged x) = y := by
    rw [hy, pendingOf, hlane]
    rfl
  have hfifo := (queues_setHold l l .lead none s).1
  have hfreed := pairing_at_setHold_self l .lead none s
  rw [hitLeaves_dual_lead hstrip hmode] at hexec
  refine ⟨fun hlate hroom => ?_, ?_⟩
  · rw [leadArrives_of_room (by rw [hpending]; exact hlate) (by rw [hlane, hfifo]; exact hroom),
      hlane, hpending, hfifo] at hexec
    have htouch : changesOnly [.pairing] s (setFifo l ((s.pairing.at l).fifo ++ [y])
        (setHold l .lead none s)) :=
      changesOnly_trans (setHold_touches_pairing l .lead none s) (setFifo_touches_pairing l _ _)
    refine ⟨_, hexec.trans (done_quiet hs htouch), ?_,
      sameBut_trans (sameBut_setHold l .lead none s) (sameBut_setPairing l _ _), htouch⟩
    rw [pairing_at_setFifo_self, hfreed]
  · rintro e q (⟨hlate, hlen, rest, hq, rfl⟩ | ⟨hlate, rfl, rfl⟩) hnone
    · rw [hq, List.length_cons] at hlen
      rw [leadArrives_of_full (by rw [hpending]; exact hlate)
        (by rw [hlane, hfifo]; exact hq) hlen, hlane, hpending] at hexec
      have hfreedFifo := changesOnly_trans (setHold_touches_pairing l .lead none s)
        (setFifo_touches_pairing l rest _)
      obtain ⟨hopens, htime, hpartner, hunpaired, -, hone, hblamed, hfollows, htouch⟩ :=
        leadExpires_of (e := e) hfreedFifo
          (fun k => (history_setFifo l k rest _).trans (queues_setHold l k .lead none s).2) hnone
          (setFifo_touches_pairing l (rest ++ [y]) _)
      refine ⟨_, _, hexec, ?_, ?_, hopens, htime, hpartner, hunpaired, hone, hblamed, hfollows, htouch⟩
      · rw [settle_pairing, pairing_at_setFifo_self, expireLead_pairing, pairing_at_setFifo_self, hfreed]
      · rw [settle_pairing]
        refine sameBut_trans ?_ (sameBut_setPairing l _ _)
        rw [expireLead_pairing]
        exact sameBut_trans (sameBut_setHold l .lead none s) (sameBut_setPairing l _ _)
    · rw [leadArrives_of_late (by rw [hpending]; exact hlate), hlane, hpending] at hexec
      obtain ⟨hopens, htime, hpartner, hunpaired, -, hone, hblamed, hfollows, htouch⟩ :=
        leadExpires_of (e := e) (setHold_touches_pairing l .lead none s)
          (fun k => (queues_setHold l k .lead none s).2) hnone (changesOnly_refl _ _)
      refine ⟨_, _, hexec, ?_, ?_, hopens, htime, hpartner, hunpaired, hone, hblamed, hfollows, htouch⟩
      · rw [settle_pairing, expireLead_pairing, hfreed]
      · rw [settle_pairing, expireLead_pairing]
        exact sameBut_setHold l .lead none s

/-! ## Trails (R11, R13) -/

theorem trailArrives_of_pair {h : Hit} {s : State} {y : PendingLead} {rest : List PendingLead}
    (hq : (s.pairing.at h.lane).fifo = y :: rest) (hp : pairsWith h y = true) :
    trailArrives h s =
      appendSpeed h.lane (pairedAxle s h.lane y h (elapsed h.start y.start))
        (axleFormed (pairedAxle s h.lane y h (elapsed h.start y.start))
          (setFifo h.lane rest s)) := by
  simp only [trailArrives, hq, hp, if_true]

theorem trailArrives_of_unpaired {h : Hit} {s : State}
    (hq : ∀ y rest, (s.pairing.at h.lane).fifo = y :: rest → pairsWith h y = false) :
    trailArrives h s = blame ⟨h.lane, .lead⟩ s := by
  unfold trailArrives
  split
  · rfl
  next y rest hy => exact if_neg (by rw [hq y rest hy]; exact Bool.false_ne_true)

theorem pairsWith_iff {h : Hit} {y : PendingLead} :
    pairsWith h y = true ↔ 1 ≤ elapsed h.start y.start ∧ elapsed h.start y.start < 2147483648 := by
  simp only [pairsWith, Bool.and_eq_true, decide_eq_true_eq]

theorem appendSpeed_touches (l : Lane) (a : Axle) (s : State) :
    changesOnly [.pairing] s (appendSpeed l a s) := touches_pairing s _

/-- R13: the speed of an axle joins the history of the last 4. -/
theorem pairing_at_appendSpeed_self (l : Lane) {a : Axle} {v : Nat} (ha : a.speed = some v)
    (s : State) :
    (appendSpeed l a s).pairing.at l =
      { s.pairing.at l with
        history := (if 4 ≤ (s.pairing.at l).history.length then (s.pairing.at l).history.tail
          else (s.pairing.at l).history) ++ [v] } := by
  refine (pairing_at_setPairing_self l _ s).trans ?_
  rw [ha]
  rfl

/-- R11, R13: in the station `u` an unmerged trail of lane `l` pairs with the front lead `y`: the axle, and
what it leaves. -/
theorem pairFormed {s u : State} {l : Lane} {h : Hit} {y : PendingLead} {rest : List PendingLead}
    (hu : beforeAxle s u) (hl : h.lane = l) (hq : (u.pairing.at l).fifo = y :: rest)
    (hpair : pairsWith h y = true) (hnone : s.vehicles.at l = none) :
    let a := pairedAxle u l y h (elapsed h.start y.start)
    opensVehicle l a s (trailArrives h u) ∧
      (trailArrives h u).pairing.at l =
        { u.pairing.at l with
          fifo := rest
          history := (if 4 ≤ (u.pairing.at l).history.length then (u.pairing.at l).history.tail
            else (u.pairing.at l).history) ++
              [min 4000 (u.cfg.spacing.at l * 100000 / elapsed h.start y.start)] } ∧
      sameBut l u.pairing (trailArrives h u).pairing ∧
      changesOnly [.pairing, .vehicles, .counters] u (trailArrives h u) := by
  subst hl
  have hbefore := beforeAxle_trans hu (beforeAxle_setFifo h.lane rest u)
  have hformed : (axleFormed (pairedAxle u h.lane y h (elapsed h.start y.start))
      (setFifo h.lane rest u)).pairing = (setFifo h.lane rest u).pairing :=
    axleFormed_touches _ _ .pairing (by decide)
  have hopens := hbefore.opens (a := pairedAxle u h.lane y h (elapsed h.start y.start)) (t := _) hnone
    rfl rfl
  rw [trailArrives_of_pair hq hpair]
  refine ⟨hopens, ?_, ?_, ?_⟩
  · rw [pairing_at_appendSpeed_self _ (by rfl), hformed, pairing_at_setFifo_self]
    rfl
  · refine sameBut_trans ?_ (sameBut_setPairing h.lane _ _)
    rw [hformed]
    exact sameBut_setPairing h.lane _ u
  · have hempty : (setFifo h.lane rest u).vehicles.at h.lane = none := by
      rw [hbefore.frame .vehicles (by decide)]; exact hnone
    exact changesOnly_mono (changesOnly_append (changesOnly_append (setFifo_touches_pairing _ rest u)
      (axleFormed_touches_of_none hempty)) (appendSpeed_touches _ _ _)) (by simp)

/-- Settles O13: by whether the trail pairs with the front lead. -/
theorem heldTrailPairsWithFrontLead : Obligations.HeldTrailPairsWithFrontLead := by
  intro s l x hs hx hd hstrip hmode
  have hexec := execCoincidenceTimerExpiry_of_held hx hd
  have hlane : (unmerged x).lane = l := unmerged_lane hstrip
  have hfifo := (queues_setHold l l .trail none s).1
  have hfreed := pairing_at_setHold_self l .trail none s
  rw [hitLeaves_dual_trail hstrip hmode] at hexec
  refine ⟨fun y rest v hq h1 h2 hnone hv => ?_, fun hq => ?_⟩
  · obtain ⟨hopens, hpairing, hsame, htouch⟩ :=
      pairFormed (h := unmerged x) (beforeAxle_setHold l .trail none s) hlane (hfifo.trans hq)
        (pairsWith_iff.2 ⟨h1, h2⟩) hnone
    obtain ⟨htime, -, hpartner, hspeed, hload, hslow, hfast⟩ :=
      pairedAxle_spec (setHold l .trail none s) l y (unmerged x) (elapsed x.hit.start y.start) rfl
    have hall := changesOnly_trans
      (changesOnly_mono (setHold_touches_pairing l .trail none s) (by simp)) htouch
    have hcongr (p : Strip) (area v : Nat) :
        stripLoad (setHold l .trail none s) p area v = stripLoad s p area v :=
      stripLoad_congr rfl rfl rfl p area v
    subst hv
    refine ⟨_, _, hexec.trans (done_quiet hs hall), hopens, htime, rfl, hpartner, hspeed, ?_, hslow,
      hfast, ?_, sameBut_trans (sameBut_setHold l .trail none s) hsame, hall⟩
    · refine hload.trans ?_
      rw [hcongr, hcongr]
      rfl
    · rw [hpairing, hfreed]
      rfl
  · have hunpaired : ∀ y rest,
        ((setHold l .trail none s).pairing.at (unmerged x).lane).fifo = y :: rest →
        pairsWith (unmerged x) y = false := by
      rw [hlane, hfifo]
      exact fun y rest hy => Bool.eq_false_iff.2 (mt pairsWith_iff.1 (hq y rest hy))
    rw [trailArrives_of_unpaired hunpaired, hlane] at hexec
    have htouch := setHold_touches_pairing l .trail none s
    have hblame := blame_touches ⟨l, .lead⟩ (setHold l .trail none s)
    obtain ⟨-, -, hfollows⟩ := monitored_blame ⟨l, .lead⟩ (setHold l .trail none s)
    have hpairing : (settle (blame ⟨l, .lead⟩ (setHold l .trail none s))).pairing =
        (setHold l .trail none s).pairing :=
      (settle_pairing _).trans (hblame .pairing (by decide))
    refine ⟨_, hexec, ?_, ?_, ?_, followsOnly_settle (followsOnly_trans
      (followsOnly_of_touches htouch) hfollows), changesOnly_settle (changesOnly_append htouch hblame)⟩
    · rw [hpairing, hfreed]
    · rw [hpairing]
      exact sameBut_setHold l .trail none s
    · exact blamed_of (htouch .health (by decide)) (htouch .clock (by decide)) (settle_health _)

/-! ## One strip (R12, R15) -/

theorem execLeadExpiry_of_due {l : Lane} {i : Nat} {x : PendingLead} {s : State}
    (hx : (s.pairing.at l).fifo[i]? = some x) (hd : atOrAfter s.clock x.expiry = true) :
    exec (.leadExpiry l i) s =
      done (expireLead l x (setFifo l ((s.pairing.at l).fifo.eraseIdx i) s)) := by
  simp only [exec, execLeadExpiry, hx, hd, if_true]

/-- R15: in the station `u` an unmerged hit stamped SINGLE forms an axle of its one strip. -/
theorem singleFormed {s u : State} {l : Lane} {p : Pos} {x : HeldHit} (hu : beforeAxle s u)
    (hstrip : x.hit.strip = ⟨l, p⟩) (hmode : x.mode = .single) (hnone : s.vehicles.at l = none) :
    let a := singleAxle u (unmerged x)
    opensVehicle l a s (hitLeaves (unmerged x) u) ∧ a.time = x.hit.start ∧ a.partner = none ∧
      a.flags.single = true ∧ a.flags.unpaired = false ∧ fromOneStrip s ⟨l, p⟩ x.hit.area a ∧
      changesOnly [.vehicles, .counters] u (hitLeaves (unmerged x) u) := by
  obtain ⟨hone, htime, hpartner, hunpaired, hsingle⟩ := oneStripAxle_spec u x.hit.strip
    x.hit.start x.hit.width x.hit.area x.hit.clipped none false true
  have hlane : (singleAxle u (unmerged x)).lane = l := hone.1.trans (by rw [hstrip])
  have hanone : s.vehicles.at (singleAxle u (unmerged x)).lane = none := by rw [hlane]; exact hnone
  have hopens := hu.opens (t := axleFormed (singleAxle u (unmerged x)) u) hanone rfl rfl
  rw [hlane] at hopens
  rw [hitLeaves_single hmode]
  exact ⟨hopens, htime, hpartner, hsingle, hunpaired, hstrip ▸ hu.fromOneStrip hone,
    axleFormed_touches_of_none (by rw [hu.frame .vehicles (by decide)]; exact hanone)⟩

/-- Settles O14: a lead that expires in the FIFO, and a hit stamped SINGLE. -/
theorem oneStripHitsFormAxles : Obligations.OneStripHitsFormAxles := by
  intro s l hs hnone
  refine ⟨fun i x hx hd => ?_, fun p x hx hd hstrip hmode => ?_⟩
  · obtain ⟨hopens, htime, hpartner, hunpaired, hsingle, hone, hblamed, hfollows, htouch⟩ :=
      leadExpires_of (e := x) (setFifo_touches_pairing l ((s.pairing.at l).fifo.eraseIdx i) s)
        (fun k => history_setFifo l k _ s) hnone (changesOnly_refl _ _)
    refine ⟨_, _, execLeadExpiry_of_due hx hd, ?_, ?_, hopens, htime, hpartner, hunpaired, hsingle, hone,
      hblamed, hfollows, htouch⟩
    · rw [settle_pairing, expireLead_pairing, pairing_at_setFifo_self]
    · rw [settle_pairing, expireLead_pairing]
      exact sameBut_setPairing l _ s
  · obtain ⟨hopens, htime, hpartner, hsingle, hunpaired, hone, htouch⟩ :=
      singleFormed (beforeAxle_setHold l p none s) hstrip hmode hnone
    have hall := changesOnly_append (setHold_touches_pairing l p none s) htouch
    have hpairing := htouch .pairing (by decide)
    refine ⟨_, _, (execCoincidenceTimerExpiry_of_held hx hd).trans (done_quiet hs hall), ?_,
      fun k q hkq => ?_, fun k => ?_, hopens, htime, hpartner, hsingle, hunpaired, hone, hall⟩
    · rw [holdOf_congr hpairing, holdOf_setHold_self]
    · rw [holdOf_congr hpairing, holdOf_setHold_ne _ s hkq]
    · rw [hpairing]
      exact queues_setHold l k p none s

end Sys2Proof.Proofs
end

