-- ==== Sys2Proof/Proofs/PulseEnd.lean ====
section
/-! PROOFS. PULSE_END (R2, R3, R5 to R10): noise, a hit that takes its own hold, and the earlier hit that
leaves it. Every hit report goes to the pairing unit first and then to the monitor. -/

namespace Sys2Proof.Proofs

open Sys2Proof Sys2Proof.Machine

/-! ## The channel, the signal and the monitor -/

/-- The channel of a strip is ARMED again with the given noise count, its signal below the trigger level;
no other channel or signal differs. -/
def pulseEnded (p : Strip) (noise : Count) (s t : State) : Prop :=
  (channelOf t p).state = .armed ∧ (channelOf t p).noise = noise ∧
    (∀ q, q ≠ p → channelOf t q = channelOf s q) ∧
    signalAbove t p = false ∧ (∀ q, q ≠ p → signalAbove t q = signalAbove s q) ∧
    t.inputs.presence = s.inputs.presence

/-- A pulse has ended and the monitor has taken its hit report. -/
def hitReported (p : Strip) (c : Bool) (s t : State) : Prop :=
  pulseEnded p (channelOf s p).noise s t ∧ healthOf t p = afterReport s c (healthOf s p) ∧
    t.health.state = s.health.state ∧ t.health.walk = s.health.walk ∧ followsOnly s t

/-- A hit report that changes what is held of no other strip. -/
def reportedAlone (p : Strip) (c : Bool) (s t : State) : Prop :=
  hitReported p c s t ∧ (∀ q, q ≠ p → healthOf t q = healthOf s q) ∧
    laneMode t p.lane = modeWith s p (afterReport s c (healthOf s p)).failed

theorem pulseEnded_of {p : Strip} {ch : Channel} {noise : Count} {s t : State}
    (harmed : ch.state = .armed) (hnoise : ch.noise = noise)
    (hc : t.channels = (edgeTaken p ch false s).channels)
    (hi : t.inputs = (edgeTaken p ch false s).inputs) : pulseEnded p noise s t := by
  obtain ⟨hself, hother, hbelow, hsignals, hpresence, -⟩ := edgeTaken_spec p ch false s
  have hchannel : channelOf t p = ch := (channelOf_congr hc p).trans hself
  exact ⟨by rw [hchannel, harmed], by rw [hchannel, hnoise],
    fun q hq => (channelOf_congr hc q).trans (hother q hq), (signalAbove_congr hi p).trans hbelow,
    fun q hq => (signalAbove_congr hi q).trans (hsignals q hq), by rw [hi, hpresence]⟩

/-- What the pairing unit has made of a hit report, before the monitor takes it. -/
structure delivered (p : Strip) (ch : Channel) (s d : State) : Prop where
  channels : d.channels = (edgeTaken p ch false s).channels
  inputs : d.inputs = (edgeTaken p ch false s).inputs
  clock : d.clock = s.clock
  monitor : monitored s d
  own : healthOf d p = healthOf s p

theorem delivered.reported {p : Strip} {ch : Channel} {c : Bool} {s d : State}
    (h : delivered p ch s d) (harmed : ch.state = .armed)
    (hnoise : ch.noise = (channelOf s p).noise) :
    hitReported p c s (settle (monitorHit p c d)) := by
  have htouch := monitorHit_touches p c d
  have hmonitored := monitored_trans h.monitor (monitored_monitorHit p c d)
  have hhealth := settle_health (monitorHit p c d)
  refine ⟨pulseEnded_of harmed hnoise ?_ ?_, ?_, ?_, ?_, followsOnly_settle hmonitored.2.2⟩
  · rw [settle_channels, htouch .channels (by decide), h.channels]
  · rw [settle_inputs, htouch .inputs (by decide), h.inputs]
  · rw [healthOf_congr hhealth, healthOf_monitorHit, h.own,
      afterReport_congr h.clock h.monitor.1]
  · rw [hhealth, hmonitored.1]
  · rw [hhealth, hmonitored.2.1]

theorem delivered.alone {p : Strip} {ch : Channel} {c : Bool} {s d : State}
    (h : delivered p ch s d) (harmed : ch.state = .armed)
    (hnoise : ch.noise = (channelOf s p).noise) (hd : d.health = s.health) :
    reportedAlone p c s (settle (monitorHit p c d)) := by
  have hreported := h.reported (c := c) harmed hnoise
  have hother (q : Strip) (hq : q ≠ p) :
      healthOf (settle (monitorHit p c d)) q = healthOf s q := by
    rw [healthOf_congr (settle_health _), healthOf_monitorHit_ne _ _ hq, healthOf_congr hd]
  exact ⟨hreported, hother, by rw [laneMode_eq_modeWith p hother, hreported.2.1]⟩

/-- A report that leaves the monitor and what follows other state alone. -/
theorem delivered_of {p : Strip} {ch : Channel} {bs : List Block} {s d : State}
    (h : changesOnly bs (edgeTaken p ch false s) d)
    (hb : ∀ b ∈ [Block.channels, .inputs, .clock, .health, .signs, .lamps, .entry, .alerts], b ∉ bs := by
      decide) : delivered p ch s d ∧ d.health = s.health := by
  have hedge := edgeTaken_touches p ch false s
  have hhealth : d.health = s.health :=
    (h .health (hb _ (by simp))).trans (hedge .health (by decide))
  have hall := followsOnly_trans (followsOnly_of_touches hedge) (followsOnly_of_touches h
    fun b hm => hb b (by simp only [List.mem_cons, List.not_mem_nil] at hm ⊢; tauto))
  exact ⟨⟨h .channels (hb _ (by simp)), h .inputs (hb _ (by simp)),
    (h .clock (hb _ (by simp))).trans (hedge .clock (by decide)),
    ⟨by rw [hhealth], by rw [hhealth], hall⟩, healthOf_congr hhealth p⟩, hhealth⟩

theorem changesOnly_reported {p : Strip} {ch : Channel} {c : Bool} {bs cs : List Block} {s d : State}
    (h : changesOnly bs (edgeTaken p ch false s) d)
    (hb : [Block.channels, .inputs] ++ bs ++ [.health, .alerts] ++ [.signs, .lamps, .entry, .alerts] ⊆ cs := by
      decide) : changesOnly cs s (settle (monitorHit p c d)) :=
  changesOnly_settle (changesOnly_append (changesOnly_append (edgeTaken_touches p ch false s) h)
    (monitorHit_touches p c d)) hb

/-! ## The channel of a pulse that ends -/

/-- R2: the channel of a strip whose pulse has ended with the area and clip given. -/
def endedChannel (s : State) (p : Strip) (area : Nat) (clipped : Bool) : Channel :=
  { channelOf s p with state := .armed, area := area, clipped := clipped }

/-- R2: its hit report. -/
def endedReport (s : State) (p : Strip) (area : Nat) (clipped : Bool) : HitReport :=
  { strip := p, start := (channelOf s p).start
    width := elapsed s.clock (channelOf s p).start, area := area, clipped := clipped }

/-- R5, R6: what the coincidence hold takes of it. -/
def endedHeld (s : State) (p : Strip) (area : Nat) (clipped : Bool) : HeldHit :=
  { hit := endedReport s p area clipped, delivered := s.clock, mode := laneMode s p.lane
    expires := later s.clock 40000 }

theorem execPulseEnd_of {s : State} {p : Strip} {l : List Sample} {a : Nat} {c : Bool}
    (hp : (channelOf s p).state = .pulse) (hlong : elapsed s.clock (channelOf s p).start ≤ 60000000)
    (harea : (channelOf s p).area ≤ 16777215)
    (ha : a = (channelOf s p).area + (l.map Sample.counts).sum)
    (hc : c = true ↔ (channelOf s p).clipped = true ∨ (∃ x ∈ l, x.fullScale = true) ∨ 16777215 < a) :
    exec (.pulseEnd p l) s =
      done (reportHit (endedReport s p (min 16777215 a) c)
        (edgeTaken p (endedChannel s p (min 16777215 a) c) false s)) := by
  have hclip : ((channelOf s p).clipped || l.any Sample.fullScale ||
      decide (16777215 < (channelOf s p).area + (l.map Sample.counts).sum)) = c := by
    rw [Bool.eq_iff_iff, hc, ← ha]
    simp [or_assoc]
  have hfold := foldl_addSample l harea
  rw [hclip, ← ha] at hfold
  simp only [exec, execPulseEnd, hfold]
  exact if_pos ⟨hp, hlong⟩

theorem reportHit_of_noise {r : HitReport} {s : State} (h : r.area < s.cfg.minArea) :
    reportHit r s =
      setChannel r.strip { channelOf s r.strip with noise := (channelOf s r.strip).noise + 1 } s :=
  if_pos h

theorem reportHit_of_area {r : HitReport} {s : State} (h : s.cfg.minArea ≤ r.area) :
    reportHit r s = monitorHit r.strip r.clipped (deliverHit r s) := if_neg (by omega)

theorem mergePartner_congr {s t : State} (hp : t.pairing = s.pairing) (hc : t.cfg = s.cfg)
    (p : Strip) : mergePartner t p = mergePartner s p := by
  have habove : laneAbove t p.lane = laneAbove s p.lane := by
    simp only [laneAbove, laneInUse_congr hc]
  have hheld (l : Option Lane) : heldIn t l p.pos = heldIn s l p.pos := by
    cases l with
    | none => rfl
    | some k => simp only [heldIn, holdOf_congr hp]
  simp only [mergePartner, habove, hheld]

/-- R5, R6: a hit report from a GOOD strip with no hit held beside it takes its own hold. -/
theorem deliverHit_of_good {s u : State} {p : Strip} {area : Nat} {c : Bool}
    (hu : changesOnly [.channels, .inputs] s u) (hgood : stripFailed s p = false)
    (hm : mergePartner s p = none) :
    deliverHit (endedReport s p area c) u =
      setHold p.lane p.pos (some (endedHeld s p area c)) (releaseHold p.lane p.pos u) := by
  have hpair := hu .pairing (by decide)
  have hhealth := hu .health (by decide)
  have hfailed : stripFailed u p = false := (stripFailed_congr hhealth p).trans hgood
  have hmerge : mergePartner u p = none := (mergePartner_congr hpair (hu .cfg (by decide)) p).trans hm
  have hclock : u.clock = s.clock := hu .clock (by decide)
  have hmode : laneMode u p.lane = laneMode s p.lane := laneMode_congr hhealth _
  rw [deliverHit]
  change (if stripFailed u p = true then u else enterHold (endedReport s p area c) u) = _
  rw [hfailed, if_neg Bool.false_ne_true, enterHold]
  change (match mergePartner u p with
    | some (k, y) => _
    | none => _) = _
  rw [hmerge]
  change setHold p.lane p.pos (some { hit := endedReport s p area c, delivered := u.clock
                                      mode := laneMode u p.lane, expires := later u.clock 40000 })
    (releaseHold p.lane p.pos u) = _
  rw [hclock, hmode]
  rfl

end Sys2Proof.Proofs
end

