-- ==== Sys2Proof/Proofs/PulseHeld.lean ====
section
/-! PROOFS. What the hit of a PULSE_END finds held: nothing, an earlier hit of its own strip that leaves
first, or a hit beside it. -/

namespace Sys2Proof.Proofs

open Sys2Proof Sys2Proof.Machine

/-- R168, R170: a report that is not clipped sets runs back only, and no condition changes. -/
theorem settle_monitorHit_unclipped {s d : State} (p : Strip) (hs : settled s = true)
    (h : changesOnly [.channels, .inputs, .pairing] s d) :
    settle (monitorHit p false d) = monitorHit p false d := by
  have hstrip : changesOnly [.health] d (monitorHit p false d) :=
    changesOnly_trans (setHealth_touches p _ d) (setHealth_touches p _ _)
  have hall := changesOnly_append h hstrip
  have hentry := hall .entry (by decide)
  have hlamps := hall .lamps (by decide)
  have hcfg := hall .cfg (by decide)
  have hkept (q : Strip) : (healthOf (monitorHit p false d) q).failed = (healthOf s q).failed ∧
      (healthOf (monitorHit p false d) q).indicates = (healthOf s q).indicates := by
    rw [← healthOf_congr (h .health (by decide)) q]
    by_cases hq : q = p
    · rw [hq, healthOf_monitorHit]
      exact ⟨rfl, rfl⟩
    · rw [healthOf_monitorHit_ne _ _ hq]
      exact ⟨rfl, rfl⟩
  have hfailed (q : Strip) : stripFailed (monitorHit p false d) q = stripFailed s q := (hkept q).1
  have hline (l : Lane) : stopLine (monitorHit p false d) l = stopLine s l :=
    congrArg (fun e : EntryController => e.lanes.at l) hentry
  have hpeers : (monitorHit p false d).peers = s.peers := hall .peers (by decide)
  have hprobe : (monitorHit p false d).probe = s.probe := hall .probe (by decide)
  refine settle_of hs (hall .startup (by decide)) hcfg (hall .signs (by decide))
    (signRequested_of (hall .startup (by decide)) hcfg (hall .signs (by decide)) hfailed) hlamps
    (fun l => by rw [hline]) (fun l => by rw [hline])
    (fun l => wantedAspect_of hcfg hlamps hfailed (by rw [hline])) (hall .alerts (by decide)) fun x => ?_
  by_cases hx : x = .health
  · subst hx
    have hstate : (monitorHit p false d).health.state = s.health.state :=
      (monitored_monitorHit p false d).1.trans (congrArg Health.state (h .health (by decide)))
    simp only [rawState, hstate, (hkept _).2]
  · exact rawState_of hlamps hcfg hfailed (congrArg EntryController.span hentry) (by rw [hpeers]) (by rw [hprobe]) hx

/-! ## The state a report is delivered to -/

/-- The edge at which a pulse ends, as the pairing unit finds it. -/
def edgeOf (s : State) (p : Strip) (area : Nat) (c : Bool) : State :=
  edgeTaken p (endedChannel s p area c) false s

theorem edgeOf_touches (s : State) (p : Strip) (area : Nat) (c : Bool) :
    changesOnly [.channels, .inputs] s (edgeOf s p area c) := edgeTaken_touches p _ false s

theorem edgeTaken_setChannel (p : Strip) (c d : Channel) (above : Bool) (s : State) :
    setChannel p d (edgeTaken p c above s) = edgeTaken p d above s := by
  have h : (s.channels.put (stripIndex p) c).put (stripIndex p) d =
      s.channels.put (stripIndex p) d := Vector.set_set _ _
  unfold edgeTaken setChannel setSignal
  dsimp only
  rw [h]

theorem beforeAxle_edgeOf (s : State) (p : Strip) (area : Nat) (c : Bool) :
    beforeAxle s (edgeOf s p area c) := by
  have h := edgeOf_touches s p area c
  exact ⟨changesOnly_mono h (by simp), fun k => by
    rw [show (edgeOf s p area c).pairing = s.pairing from h .pairing (by decide)]⟩

theorem releaseHold_of_none {l : Lane} {p : Pos} {s : State} (h : holdOf s l p = none) :
    releaseHold l p s = s := by simp only [releaseHold, h]

theorem releaseHold_of_some {l : Lane} {p : Pos} {s : State} {x : HeldHit}
    (h : holdOf s l p = some x) :
    releaseHold l p s = hitLeaves (unmerged x) (setHold l p none s) := by
  simp only [releaseHold, h]

theorem opensVehicle_congr {l : Lane} {a : Axle} {s t u : State} (h : opensVehicle l a s t)
    (hv : u.vehicles = t.vehicles) (hk : u.counters = t.counters) : opensVehicle l a s u := by
  unfold opensVehicle at *
  rwa [hv, hk]

/-! ## A report that takes its hold (R5, R6) -/

/-- In the station `w` the hit of a pulse takes its hold, and the monitor its report. -/
def tookHold (s : State) (p : Strip) (area : Nat) (c : Bool) (w : State) : State :=
  settle (monitorHit p c (setHold p.lane p.pos (some (endedHeld s p area c)) w))

section
variable (s : State) (p : Strip) (area : Nat) (c : Bool) (w : State)

theorem tookHold_vehicles : (tookHold s p area c w).vehicles = w.vehicles :=
  (settle_vehicles _).trans ((monitorHit_touches p c _ .vehicles (by decide)).trans
    (setHold_touches_pairing _ _ _ w .vehicles (by decide)))

theorem tookHold_counters : (tookHold s p area c w).counters = w.counters :=
  (settle_counters _).trans ((monitorHit_touches p c _ .counters (by decide)).trans
    (setHold_touches_pairing _ _ _ w .counters (by decide)))

theorem tookHold_pairing : (tookHold s p area c w).pairing =
    (setHold p.lane p.pos (some (endedHeld s p area c)) w).pairing :=
  (settle_pairing _).trans (monitorHit_touches p c _ .pairing (by decide))

theorem holdOf_tookHold_self : holdOf (tookHold s p area c w) p.lane p.pos =
    some (endedHeld s p area c) :=
  (holdOf_congr (tookHold_pairing s p area c w) _ _).trans (holdOf_setHold_self _ _ _ _)

theorem holdOf_tookHold_ne {k : Lane} {q : Pos} (h : (k, q) ≠ (p.lane, p.pos)) :
    holdOf (tookHold s p area c w) k q = holdOf w k q :=
  (holdOf_congr (tookHold_pairing s p area c w) _ _).trans (holdOf_setHold_ne _ _ h)

theorem queues_tookHold (k : Lane) :
    ((tookHold s p area c w).pairing.at k).fifo = (w.pairing.at k).fifo ∧
      ((tookHold s p area c w).pairing.at k).history = (w.pairing.at k).history := by
  rw [tookHold_pairing]
  exact queues_setHold p.lane k p.pos _ w

theorem sameBut_tookHold : sameBut p.lane w.pairing (tookHold s p area c w).pairing := by
  rw [tookHold_pairing]
  exact sameBut_setHold _ _ _ w

end

/-- What stood in the way of the hold is a matter of other blocks than the monitor's. -/
theorem tookHold_reportedAlone {s w : State} {p : Strip} {area : Nat} {c : Bool}
    (h : changesOnly [.pairing, .vehicles, .counters] (edgeOf s p area c) w) :
    reportedAlone p c s (tookHold s p area c w) := by
  have htaken := changesOnly_trans h
    (changesOnly_mono (setHold_touches_pairing p.lane p.pos (some (endedHeld s p area c)) w) (by simp))
  obtain ⟨hdelivered, hhealth⟩ := delivered_of htaken
  exact hdelivered.alone rfl rfl hhealth

theorem tookHold_touches {s w : State} {p : Strip} {area : Nat} {c : Bool} {bs cs : List Block}
    (h : changesOnly bs (edgeOf s p area c) w)
    (hb : [.channels, .inputs] ++ (bs ++ [.pairing]) ++ [.health, .alerts] ++
      [.signs, .lamps, .entry, .alerts] ⊆ cs := by decide) :
    changesOnly cs s (tookHold s p area c w) :=
  changesOnly_reported (changesOnly_append h (setHold_touches_pairing p.lane p.pos _ w)) hb

/-! ## The earlier hit of the hold leaves first (R6) -/

/-- The hold is free again: its earlier hit is on its way. -/
def holdFreed (s : State) (p : Strip) (area : Nat) (c : Bool) : State :=
  setHold p.lane p.pos none (edgeOf s p area c)

section
variable {s : State} {p : Strip} {area : Nat} {c : Bool} {y : HeldHit}

theorem holdFreed_touches : changesOnly [.pairing] (edgeOf s p area c) (holdFreed s p area c) :=
  setHold_touches_pairing _ _ _ _

theorem beforeAxle_holdFreed : beforeAxle s (holdFreed s p area c) :=
  beforeAxle_trans (beforeAxle_edgeOf s p area c) (beforeAxle_setHold p.lane p.pos none _)

theorem queues_holdFreed (k : Lane) :
    ((holdFreed s p area c).pairing.at k).fifo = (s.pairing.at k).fifo ∧
      ((holdFreed s p area c).pairing.at k).history = (s.pairing.at k).history :=
  queues_setHold p.lane k p.pos none _

theorem sameBut_holdFreed : sameBut p.lane s.pairing (holdFreed s p area c).pairing :=
  sameBut_setHold p.lane p.pos none _

theorem releaseHold_edgeOf (hy : holdOf s p.lane p.pos = some y) :
    releaseHold p.lane p.pos (edgeOf s p area c) =
      hitLeaves (unmerged y) (holdFreed s p area c) := releaseHold_of_some hy

/-- R9, R10: a DUAL lead, in time and with room, joins the FIFO. -/
theorem tookHold_of_lead (hstrip : y.hit.strip = p) (hm : y.mode = .dual) (hpos : p.pos = .lead)
    (hroom : (s.pairing.at p.lane).fifo.length < 6)
    (hlate : atOrAfter s.clock (later y.hit.start (s.cfg.spacing.at p.lane * 2000)) = false) :
    let t := tookHold s p area c (hitLeaves (unmerged y) (holdFreed s p area c))
    reportedAlone p c s t ∧
      t.pairing.at p.lane =
        { s.pairing.at p.lane with
          leadHold := some (endedHeld s p area c)
          fifo := (s.pairing.at p.lane).fifo ++
            [{ start := y.hit.start, width := y.hit.width, area := y.hit.area
               clipped := y.hit.clipped, partner := none, joined := s.clock
               expiry := later y.hit.start (s.cfg.spacing.at p.lane * 2000) }] } ∧
      sameBut p.lane s.pairing t.pairing ∧
      changesOnly [.channels, .inputs, .pairing, .health, .signs, .lamps, .entry, .alerts] s t := by
  obtain ⟨l, q⟩ := p
  subst hpos
  have hlane : (unmerged y).lane = l := unmerged_lane hstrip
  have hfifo : ((holdFreed s ⟨l, .lead⟩ area c).pairing.at l).fifo = _ := (queues_holdFreed l).1
  rw [hitLeaves_dual_lead hstrip hm, leadArrives_of_room (by rw [pendingOf, hlane]; exact hlate)
    (by rw [hlane, hfifo]; exact hroom), hlane, hfifo]
  have hjoined := changesOnly_trans (holdFreed_touches (s := s) (p := ⟨l, .lead⟩) (area := area) (c := c))
    (setFifo_touches_pairing l ((s.pairing.at l).fifo ++
      [pendingOf (holdFreed s ⟨l, .lead⟩ area c) (unmerged y)]) _)
  refine ⟨tookHold_reportedAlone (changesOnly_mono hjoined (by simp)), ?_, ?_, tookHold_touches hjoined⟩
  · rw [tookHold_pairing, pairing_at_setHold_self, pairing_at_setFifo_self, holdFreed,
      pairing_at_setHold_self, pendingOf, hlane]
    rfl
  · exact sameBut_trans (sameBut_trans sameBut_holdFreed (sameBut_setPairing _ _ _))
      (sameBut_tookHold _ _ _ _ _)

/-- R11, R169: a DUAL trail that finds no lead waiting blames the lead strip. -/
theorem tookHold_of_unpaired (hstrip : y.hit.strip = p) (hm : y.mode = .dual) (hpos : p.pos = .trail)
    (hempty : (s.pairing.at p.lane).fifo = []) :
    let t := tookHold s p area c (hitLeaves (unmerged y) (holdFreed s p area c))
    hitReported p c s t ∧ healthOf t ⟨p.lane, .lead⟩ = afterBlame s (healthOf s ⟨p.lane, .lead⟩) ∧
      (∀ q : Strip, q.lane ≠ p.lane → healthOf t q = healthOf s q) ∧
      t.pairing.at p.lane =
        { s.pairing.at p.lane with trailHold := some (endedHeld s p area c) } ∧
      sameBut p.lane s.pairing t.pairing ∧
      changesOnly [.channels, .inputs, .pairing, .health, .signs, .lamps, .entry, .alerts] s t := by
  obtain ⟨l, q⟩ := p
  subst hpos
  have hlane : (unmerged y).lane = l := unmerged_lane hstrip
  have hfifo : ((holdFreed s ⟨l, .trail⟩ area c).pairing.at l).fifo = [] :=
    ((queues_holdFreed l).1).trans hempty
  rw [hitLeaves_dual_trail hstrip hm, trailArrives_of_unpaired (by rw [hlane, hfifo]; exact nofun),
    hlane]
  have hfreed := holdFreed_touches (s := s) (p := ⟨l, .trail⟩) (area := area) (c := c)
  have hblame := blame_touches ⟨l, .lead⟩ (holdFreed s ⟨l, .trail⟩ area c)
  have htook := setHold_touches_pairing l .trail (some (endedHeld s ⟨l, .trail⟩ area c))
    (blame ⟨l, .lead⟩ (holdFreed s ⟨l, .trail⟩ area c))
  have hhealth : (holdFreed s ⟨l, .trail⟩ area c).health = s.health :=
    (hfreed .health (by decide))
  have hkept (q : Strip) (hq : q ≠ ⟨l, .lead⟩) :
      healthOf (setHold l .trail (some (endedHeld s ⟨l, .trail⟩ area c))
        (blame ⟨l, .lead⟩ (holdFreed s ⟨l, .trail⟩ area c))) q = healthOf s q := by
    rw [healthOf_congr (htook .health (by decide)), healthOf_blame_ne _ hq, healthOf_congr hhealth]
  have hall := changesOnly_append (changesOnly_append hfreed hblame) htook
  have hstood : monitored s (holdFreed s ⟨l, .trail⟩ area c) :=
    ⟨rfl, rfl, followsOnly_trans (followsOnly_of_touches (edgeOf_touches s ⟨l, .trail⟩ area c))
      (followsOnly_of_touches hfreed)⟩
  have hmonitored := monitored_trans (monitored_trans hstood (monitored_blame ⟨l, .lead⟩ _))
    ⟨congrArg Health.state (htook .health (by decide)), congrArg Health.walk (htook .health (by decide)),
      followsOnly_of_touches htook⟩
  have hdelivered : delivered ⟨l, .trail⟩ (endedChannel s ⟨l, .trail⟩ area c) s _ :=
    ⟨hall .channels (by decide), hall .inputs (by decide), hall .clock (by decide), hmonitored,
      hkept _ nofun⟩
  have hother (q : Strip) (hq : q ≠ ⟨l, .trail⟩) :
      healthOf (tookHold s ⟨l, .trail⟩ area c
        (blame ⟨l, .lead⟩ (holdFreed s ⟨l, .trail⟩ area c))) q =
      healthOf (setHold l .trail (some (endedHeld s ⟨l, .trail⟩ area c))
        (blame ⟨l, .lead⟩ (holdFreed s ⟨l, .trail⟩ area c))) q :=
    (healthOf_congr (settle_health _) q).trans (healthOf_monitorHit_ne _ _ hq)
  have hpairing : (blame ⟨l, .lead⟩ (holdFreed s ⟨l, .trail⟩ area c)).pairing =
      (holdFreed s ⟨l, .trail⟩ area c).pairing := hblame .pairing (by decide)
  refine ⟨hdelivered.reported rfl rfl, ?_, fun q hq => ?_, ?_, ?_,
    tookHold_touches (changesOnly_append hfreed hblame)⟩
  · refine (hother ⟨l, .lead⟩ nofun).trans ?_
    rw [healthOf_congr (htook .health (by decide)), healthOf_blame,
      healthOf_congr hhealth]
    exact afterBlame_congr rfl rfl _
  · have hlead : q ≠ ⟨l, .lead⟩ := fun e => hq (congrArg Strip.lane e :)
    have htrail : q ≠ ⟨l, .trail⟩ := fun e => hq (congrArg Strip.lane e :)
    rw [hother q htrail, hkept q hlead]
  · rw [tookHold_pairing, pairing_at_setHold_self, hpairing, holdFreed, pairing_at_setHold_self]
    rfl
  · refine sameBut_trans ?_ (sameBut_tookHold _ _ _ _ _)
    rw [hpairing]
    exact sameBut_holdFreed

/-- R11, R13: a DUAL trail after the front lead pairs with it. -/
theorem tookHold_of_pair (hstrip : y.hit.strip = p) (hm : y.mode = .dual) (hpos : p.pos = .trail)
    (hnone : s.vehicles.at p.lane = none) {z : PendingLead} {rest : List PendingLead}
    (hq : (s.pairing.at p.lane).fifo = z :: rest) (h1 : 1 ≤ elapsed y.hit.start z.start)
    (h2 : elapsed y.hit.start z.start < 2147483648) :
    let v := min 4000 (s.cfg.spacing.at p.lane * 100000 / elapsed y.hit.start z.start)
    let t := tookHold s p area c (hitLeaves (unmerged y) (holdFreed s p area c))
    ∃ e : Axle, reportedAlone p c s t ∧ opensVehicle p.lane e s t ∧ e.time = z.start ∧
      e.partner = z.partner ∧ e.speed = some v ∧
      t.pairing.at p.lane =
        { s.pairing.at p.lane with
          trailHold := some (endedHeld s p area c), fifo := rest
          history := (if 4 ≤ (s.pairing.at p.lane).history.length then
              (s.pairing.at p.lane).history.tail
            else (s.pairing.at p.lane).history) ++ [v] } ∧
      sameBut p.lane s.pairing t.pairing ∧
      changesOnly [.channels, .inputs, .pairing, .vehicles, .health, .counters, .signs, .lamps, .entry,
        .alerts] s t := by
  obtain ⟨l, q⟩ := p
  subst hpos
  have hlane : (unmerged y).lane = l := unmerged_lane hstrip
  have hfreed := holdFreed_touches (s := s) (p := ⟨l, .trail⟩) (area := area) (c := c)
  obtain ⟨hopens, hat, hsame, htouch⟩ := pairFormed (h := unmerged y) (rest := rest)
    (beforeAxle_holdFreed (s := s) (p := ⟨l, .trail⟩) (area := area) (c := c)) hlane
    (((queues_holdFreed l).1).trans hq) (pairsWith_iff.2 ⟨h1, h2⟩) hnone
  obtain ⟨htime, -, hpartner, hspeed, -⟩ := pairedAxle_spec (holdFreed s ⟨l, .trail⟩ area c) l z
    (unmerged y) (elapsed y.hit.start z.start) rfl
  have hall : changesOnly [.pairing, .vehicles, .counters] (edgeOf s ⟨l, .trail⟩ area c)
      (trailArrives (unmerged y) (holdFreed s ⟨l, .trail⟩ area c)) :=
    changesOnly_trans (changesOnly_mono hfreed (by simp)) htouch
  rw [hitLeaves_dual_trail hstrip hm]
  refine ⟨_, tookHold_reportedAlone hall,
    opensVehicle_congr hopens (tookHold_vehicles _ _ _ _ _) (tookHold_counters _ _ _ _ _), htime, hpartner,
    hspeed, ?_, sameBut_trans (sameBut_trans sameBut_holdFreed hsame) (sameBut_tookHold _ _ _ _ _),
    tookHold_touches hall⟩
  rw [tookHold_pairing, pairing_at_setHold_self, hat, holdFreed, pairing_at_setHold_self]
  rfl

/-- R6, R15: a hit stamped SINGLE forms an axle of its own. -/
theorem tookHold_of_single (hstrip : y.hit.strip = p) (hm : y.mode = .single)
    (hnone : s.vehicles.at p.lane = none) :
    let t := tookHold s p area c (hitLeaves (unmerged y) (holdFreed s p area c))
    ∃ e : Axle, reportedAlone p c s t ∧ opensVehicle p.lane e s t ∧ e.time = y.hit.start ∧
      e.partner = none ∧ e.flags.single = true ∧ fromOneStrip s p y.hit.area e ∧
      holdOf t p.lane p.pos = some (endedHeld s p area c) ∧
      (∀ k q, (k, q) ≠ (p.lane, p.pos) → holdOf t k q = holdOf s k q) ∧
      (∀ k, (t.pairing.at k).fifo = (s.pairing.at k).fifo ∧
        (t.pairing.at k).history = (s.pairing.at k).history) ∧
      changesOnly [.channels, .inputs, .pairing, .vehicles, .health, .counters, .signs, .lamps, .entry,
        .alerts] s t := by
  obtain ⟨hopens, htime, hpartner, hsingle, -, hone, htouch⟩ := singleFormed
    (beforeAxle_holdFreed (s := s) (p := p) (area := area) (c := c)) (l := p.lane) (p := p.pos) hstrip hm
    hnone
  have hall : changesOnly [.pairing, .vehicles, .counters] (edgeOf s p area c)
      (hitLeaves (unmerged y) (holdFreed s p area c)) :=
    changesOnly_trans (changesOnly_mono holdFreed_touches (by simp))
      (changesOnly_mono htouch (by simp))
  have hkept := htouch .pairing (by decide)
  refine ⟨_, tookHold_reportedAlone hall,
    opensVehicle_congr hopens (tookHold_vehicles _ _ _ _ _) (tookHold_counters _ _ _ _ _), htime, hpartner,
    hsingle, hone, holdOf_tookHold_self _ _ _ _ _, fun k q hkq => ?_, fun k => ?_, tookHold_touches hall⟩
  · rw [holdOf_tookHold_ne _ _ _ _ _ hkq, holdOf_congr hkept, holdFreed, holdOf_setHold_ne _ _ hkq]
    rfl
  · obtain ⟨hfifo, hhistory⟩ := queues_tookHold s p area c
      (hitLeaves (unmerged y) (holdFreed s p area c)) k
    rw [hfifo, hhistory, hkept]
    exact queues_holdFreed k

end

/-- Settles O10: noise, a FAILED strip, an empty hold, and what an earlier hit of the hold does. -/
theorem pulseEndCountsNoiseOrTakesHold : Obligations.PulseEndCountsNoiseOrTakesHold := by
  intro s p l a c hs hp hlong harea ha hc x lane ended reported alone
  have hexec : exec (.pulseEnd p l) s = done (reportHit (endedReport s p (min 16777215 a) c)
    (edgeOf s p (min 16777215 a) c)) := execPulseEnd_of hp hlong harea ha hc
  have hedge := edgeOf_touches s p (min 16777215 a) c
  have hmin : (edgeOf s p (min 16777215 a) c).cfg.minArea = s.cfg.minArea := rfl
  have hreport (h : s.cfg.minArea ≤ min 16777215 a) : exec (.pulseEnd p l) s =
      done (monitorHit p c (deliverHit (endedReport s p (min 16777215 a) c)
        (edgeOf s p (min 16777215 a) c))) := by
    rw [hexec, reportHit_of_area (by rw [hmin]; exact h)]
    rfl
  refine ⟨fun hnoise => ?_, fun hlarge hfailed => ?_, fun hlarge hgood hmerge => ?_⟩
  · rw [reportHit_of_noise (by rw [hmin]; exact hnoise)] at hexec
    change exec _ s = done (setChannel p _ (edgeTaken p _ false s)) at hexec
    rw [edgeTaken_setChannel] at hexec
    have hchannel : channelOf (edgeOf s p (min 16777215 a) c) p =
      endedChannel s p (min 16777215 a) c := channelOf_setChannel_self p _ _
    refine ⟨_, hexec.trans (done_quiet hs (edgeTaken_touches _ _ _ s)),
      pulseEnded_of ?_ ?_ rfl rfl, edgeTaken_touches _ _ _ s⟩
    · exact congrArg Channel.state hchannel
    · change (channelOf (edgeOf s p (min 16777215 a) c) p).noise + 1 = _
      rw [hchannel]
      rfl
  · have hdropped : deliverHit (endedReport s p (min 16777215 a) c)
        (edgeOf s p (min 16777215 a) c) = edgeOf s p (min 16777215 a) c :=
      if_pos ((stripFailed_congr (hedge .health (by decide)) p).trans hfailed)
    obtain ⟨hdelivered, hhealth⟩ := delivered_of (p := p)
      (ch := endedChannel s p (min 16777215 a) c) (changesOnly_refl [] _)
    rw [hreport hlarge, hdropped]
    exact ⟨_, rfl, hdelivered.alone rfl rfl hhealth, changesOnly_reported (changesOnly_refl [] _)⟩
  · rw [hreport hlarge, deliverHit_of_good hedge hgood hmerge]
    refine ⟨fun hfree => ?_, fun y hy hstrip => ?_⟩
    · have hnone : holdOf (edgeOf s p (min 16777215 a) c) p.lane p.pos = none := hfree
      rw [releaseHold_of_none hnone]
      have hnothing := changesOnly_refl [] (edgeOf s p (min 16777215 a) c)
      refine ⟨_, rfl, tookHold_reportedAlone (changesOnly_mono hnothing (by simp)),
        holdOf_tookHold_self _ _ _ _ _, fun k q hkq => holdOf_tookHold_ne _ _ _ _ _ hkq,
        fun k => queues_tookHold _ _ _ _ _ k, fun hc => ?_, tookHold_touches hnothing⟩
      subst hc
      have htook := setHold_touches_pairing p.lane p.pos (some (endedHeld s p (min 16777215 a) false))
        (edgeOf s p (min 16777215 a) false)
      have hall := changesOnly_append hedge htook
      rw [settle_monitorHit_unclipped p hs (changesOnly_mono hall (by decide))]
      exact changesOnly_mono (changesOnly_append hall (changesOnly_trans (setHealth_touches p _ _)
        (setHealth_touches p _ _))) (by decide)
    · rw [releaseHold_edgeOf hy]
      refine ⟨fun hm hpos hroom hlate => ⟨_, rfl, tookHold_of_lead hstrip hm hpos hroom hlate⟩,
        fun hm hpos hempty => ⟨_, rfl, tookHold_of_unpaired hstrip hm hpos hempty⟩,
        fun hm hpos hnone z rest v hq h1 h2 hv => ?_, fun hm hnone => ?_⟩
      · subst hv
        obtain ⟨e, h⟩ := tookHold_of_pair hstrip hm hpos hnone hq h1 h2
        exact ⟨_, e, rfl, h⟩
      · obtain ⟨e, h⟩ := tookHold_of_single hstrip hm hnone
        exact ⟨_, e, rfl, h⟩

end Sys2Proof.Proofs
end

