-- ==== Sys2Proof/Proofs/Straddles.lean ====
section
/-! PROOFS. Two hits on one position of adjacent lanes (R7, R8): the straddle hit they become, and the
PULSE_END that finds the one of them held. -/

namespace Sys2Proof.Proofs

open Sys2Proof Sys2Proof.Machine

/-! ## The order of two clock readings (R91) -/

theorem elapsed_self (t : Clock) : elapsed t t = 0 := by simp [elapsed]

theorem elapsed_later (t : Clock) {d : Nat} (h : d < 4294967296) : elapsed (later t d) t = d := by
  simp only [elapsed, later]
  bv_omega

theorem atOrAfter_later (t : Clock) {d : Nat} (h : d < 2147483648) : atOrAfter (later t d) t = true :=
  decide_eq_true (lt_of_eq_of_lt (elapsed_later t (by omega)) h)

/-- Of two different readings at most half the range apart, only one is at or after the other. -/
theorem atOrAfter_antisymm {x y : Clock} (h : atOrAfter x y = true) (hne : x ≠ y) :
    atOrAfter y x = false := by
  simp only [atOrAfter, decide_eq_true_eq, decide_eq_false_iff_not] at *
  bv_omega

theorem earlierOf_later (t : Clock) {d : Nat} (h : d < 2147483648) :
    earlierOf t (later t d) = t ∧ earlierOf (later t d) t = t := by
  have hafter := atOrAfter_later t h
  refine ⟨if_pos hafter, ?_⟩
  by_cases he : later t d = t
  · rw [he, earlierOf, if_pos (by simp [atOrAfter])]
  · exact if_neg (by rw [atOrAfter_antisymm hafter he]; exact Bool.false_ne_true)

/-! ## The lane of a straddle hit (R8) -/

theorem laneByArea_or (a b : HitReport) :
    laneByArea a b = a.strip.lane ∨ laneByArea a b = b.strip.lane := by
  unfold laneByArea
  split
  · split
    · exact .inl rfl
    · exact .inr rfl
  · split
    · exact .inl rfl
    · exact .inr rfl

theorem laneByArea_iff {a b : HitReport} (h : a.strip.lane ≠ b.strip.lane) :
    laneByArea a b = a.strip.lane ↔
      b.area < a.area ∨ (b.area = a.area ∧ a.strip.lane.val < b.strip.lane.val) := by
  have hval : a.strip.lane.val ≠ b.strip.lane.val := fun e => h (Fin.ext e)
  unfold laneByArea
  split
  next ha =>
    split
    · simp; omega
    · simp only [h.symm, false_iff]; omega
  next ha =>
    split
    · simp; omega
    · simp only [h.symm, false_iff]; omega

/-- R8: the lane of two trails whose lanes may have leads that wait for each other. -/
def laneByLead (lo hi : Lane) (x y : Option PendingLead) (other : Lane) : Lane :=
  match x, y with
  | some x, some y =>
    if x.joined = y.joined then (if Config.straddleTieToLower lo hi x.joined then lo else hi)
    else if atOrAfter y.joined x.joined then lo else hi
  | some _, none => lo
  | none, some _ => hi
  | none, none => other

theorem straddleLane_of_lead {s : State} {a b : HitReport} (h : a.strip.pos = .lead) :
    straddleLane s a b = laneByArea a b := by simp only [straddleLane, h]

theorem straddleLane_of_trail {s : State} {a b : HitReport} (h : a.strip.pos = .trail) :
    straddleLane s a b =
      if a.strip.lane.val ≤ b.strip.lane.val then
        laneByLead a.strip.lane b.strip.lane (straddleLead s a.strip.lane b.strip.lane)
          (straddleLead s b.strip.lane a.strip.lane) (laneByArea a b)
      else
        laneByLead b.strip.lane a.strip.lane (straddleLead s b.strip.lane a.strip.lane)
          (straddleLead s a.strip.lane b.strip.lane) (laneByArea a b) := by
  by_cases hle : a.strip.lane.val ≤ b.strip.lane.val
  · simp only [straddleLane, h, hle, if_true]
    rfl
  · simp only [straddleLane, h, hle, if_false]
    rfl

theorem laneByLead_first {lo hi other : Lane} {x : PendingLead} {y : Option PendingLead}
    (h : ∀ z, y = some z → x.joined ≠ z.joined ∧ atOrAfter z.joined x.joined = true) :
    laneByLead lo hi (some x) y other = lo := by
  cases y with
  | none => rfl
  | some z =>
    obtain ⟨hne, hafter⟩ := h z rfl
    simp only [laneByLead, hne, hafter, if_false, if_true]

theorem laneByLead_second {lo hi other : Lane} {x : Option PendingLead} {y : PendingLead}
    (h : ∀ z, x = some z → z.joined ≠ y.joined ∧ atOrAfter z.joined y.joined = true) :
    laneByLead lo hi x (some y) other = hi := by
  cases x with
  | none => rfl
  | some z =>
    obtain ⟨hne, hafter⟩ := h z rfl
    have hnot := atOrAfter_antisymm hafter hne
    simp only [laneByLead, hne, hnot, if_false, Bool.false_eq_true]

theorem laneByLead_or (lo hi other : Lane) (x y : Option PendingLead) :
    laneByLead lo hi x y other = lo ∨ laneByLead lo hi x y other = hi ∨
      laneByLead lo hi x y other = other := by
  unfold laneByLead
  split
  · split
    · split
      · exact .inl rfl
      · exact .inr (.inl rfl)
    · split
      · exact .inl rfl
      · exact .inr (.inl rfl)
  · exact .inl rfl
  · exact .inr (.inl rfl)
  · exact .inr (.inr rfl)

theorem straddleLane_or (s : State) (a b : HitReport) :
    straddleLane s a b = a.strip.lane ∨ straddleLane s a b = b.strip.lane := by
  have harea := laneByArea_or a b
  cases hp : a.strip.pos with
  | lead =>
    rw [straddleLane_of_lead hp]
    exact harea
  | trail =>
    rw [straddleLane_of_trail hp]
    split
    · obtain h | h | h := laneByLead_or a.strip.lane b.strip.lane (laneByArea a b)
        (straddleLead s a.strip.lane b.strip.lane) (straddleLead s b.strip.lane a.strip.lane)
      · exact .inl h
      · exact .inr h
      · rw [h]; exact harea
    · obtain h | h | h := laneByLead_or b.strip.lane a.strip.lane (laneByArea a b)
        (straddleLead s b.strip.lane a.strip.lane) (straddleLead s a.strip.lane b.strip.lane)
      · exact .inr h
      · exact .inl h
      · rw [h]; exact harea

theorem straddleLane_of_noLeads {s : State} {a b : HitReport}
    (h : a.strip.pos = .lead ∨
      (straddleLead s a.strip.lane b.strip.lane = none ∧
        straddleLead s b.strip.lane a.strip.lane = none)) :
    straddleLane s a b = laneByArea a b := by
  cases hp : a.strip.pos with
  | lead => exact straddleLane_of_lead hp
  | trail =>
    obtain ⟨h1, h2⟩ := h.resolve_left (by rw [hp]; nofun)
    rw [straddleLane_of_trail hp, h1, h2]
    exact ite_self _

/-! ## The held hit an arriving one merges with (R7) -/

theorem laneBelow_iff : ∀ l k : Lane, laneBelow l = some k ↔ k.val + 1 = l.val := by decide

theorem laneOfNumber_above : ∀ l k : Lane, laneOfNumber (l.val + 2) = some k ↔ k.val = l.val + 1 := by
  decide

theorem laneAbove_iff (s : State) (l k : Lane) :
    laneAbove s l = some k ↔ k.val = l.val + 1 ∧ laneInUse s k = true := by
  rw [← laneOfNumber_above]
  unfold laneAbove
  cases laneOfNumber (l.val + 2) with
  | none => simp
  | some j =>
    by_cases hj : laneInUse s j = true
    · simp only [hj, if_true, Option.some.injEq]
      exact ⟨fun e => ⟨e, e ▸ hj⟩, And.left⟩
    · simp only [hj, if_false, reduceCtorEq, false_iff, Bool.false_eq_true]
      exact fun ⟨e, hk⟩ => hj (Option.some.inj e ▸ hk)

theorem heldIn_iff {s : State} {l : Option Lane} {p : Pos} {k : Lane} {y : HeldHit} :
    heldIn s l p = some (k, y) ↔ l = some k ∧ holdOf s k p = some y := by
  cases l with
  | none => simp [heldIn]
  | some j =>
    simp only [heldIn, Option.map_eq_some_iff, Prod.mk.injEq, Option.some.injEq]
    exact ⟨fun ⟨z, hz, hj, hy⟩ => ⟨hj, hj ▸ hy ▸ hz⟩, fun ⟨hj, hy⟩ => ⟨y, hj ▸ hy, hj, rfl⟩⟩

/-- R7: of the hits held beside a strip the first delivered, of two delivered at once that of the lower
lane, is the partner. -/
theorem mergePartner_of_first {s : State} {p : Strip} {k : Lane} {y : HeldHit}
    (hk : k.val + 1 = p.lane.val ∨ (k.val = p.lane.val + 1 ∧ laneInUse s k = true))
    (hy : holdOf s k p.pos = some y)
    (hfirst : ∀ j z,
      j.val + 1 = p.lane.val ∨ (j.val = p.lane.val + 1 ∧ laneInUse s j = true) → j ≠ k →
      holdOf s j p.pos = some z →
      atOrAfter z.delivered y.delivered = true ∧ (z.delivered = y.delivered → k.val < j.val)) :
    mergePartner s p = some (k, y) := by
  unfold mergePartner
  obtain hbelow | habove := hk
  · rw [heldIn_iff.2 ⟨(laneBelow_iff _ _).2 hbelow, hy⟩]
    cases hz : heldIn s (laneAbove s p.lane) p.pos with
    | none => rfl
    | some jz =>
      obtain ⟨hj, hz⟩ := heldIn_iff.1 (show _ = some (jz.1, jz.2) from hz)
      obtain ⟨hval, huse⟩ := (laneAbove_iff _ _ _).1 hj
      have hne : jz.1 ≠ k := fun e => by rw [e] at hval; omega
      exact if_pos (hfirst _ _ (.inr ⟨hval, huse⟩) hne hz).1
  · rw [heldIn_iff.2 ⟨(laneAbove_iff _ _ _).2 habove, hy⟩]
    cases hz : heldIn s (laneBelow p.lane) p.pos with
    | none => rfl
    | some jz =>
      obtain ⟨hj, hz⟩ := heldIn_iff.1 (show _ = some (jz.1, jz.2) from hz)
      have hval := (laneBelow_iff _ _).1 hj
      have hne : jz.1 ≠ k := fun e => by rw [e] at hval; omega
      obtain ⟨hafter, htie⟩ := hfirst _ _ (.inl hval) hne hz
      have hlater : jz.2.delivered ≠ y.delivered := fun e => by have := htie e; omega
      exact if_neg (by rw [atOrAfter_antisymm hafter hlater]; exact Bool.false_ne_true)

/-- R5, R7: a hit report from a GOOD strip merges with the hit held beside it. -/
theorem deliverHit_of_partner {s u : State} {p : Strip} {area : Nat} {c : Bool} {k : Lane} {y : HeldHit}
    (hu : changesOnly [.channels, .inputs] s u) (hgood : stripFailed s p = false)
    (hm : mergePartner s p = some (k, y)) :
    deliverHit (endedReport s p area c) u =
      hitLeaves (straddleHit u (endedHeld s p area c) y) (setHold k p.pos none u) := by
  have hpair := hu .pairing (by decide)
  have hhealth := hu .health (by decide)
  have hfailed : stripFailed u p = false := (stripFailed_congr hhealth p).trans hgood
  have hmerge : mergePartner u p = some (k, y) :=
    (mergePartner_congr hpair (hu .cfg (by decide)) p).trans hm
  have hclock : u.clock = s.clock := hu .clock (by decide)
  have hmode : laneMode u p.lane = laneMode s p.lane := laneMode_congr hhealth _
  rw [deliverHit]
  change (if stripFailed u p = true then u else enterHold (endedReport s p area c) u) = _
  rw [hfailed, if_neg Bool.false_ne_true, enterHold]
  change (match mergePartner u p with
    | some (k, y) => hitLeaves (straddleHit u { hit := endedReport s p area c, delivered := u.clock
                                                mode := laneMode u p.lane
                                                expires := later u.clock 40000 } y)
        (setHold k p.pos none u)
    | none => _) = _
  rw [hmerge, hclock, hmode]
  rfl

theorem holdOf_setFifo (l k : Lane) (p : Pos) (q : List PendingLead) (s : State) :
    holdOf (setFifo l q s) k p = holdOf s k p := by
  by_cases hk : k = l
  · subst hk
    unfold holdOf
    rw [pairing_at_setFifo_self]
  · unfold holdOf
    rw [setFifo, sameBut_setPairing l _ s k hk]

/-- The hit held beside the arriving one has left its hold, and a straddle lead has joined a FIFO. -/
def straddleJoined (k l : Lane) (e : PendingLead) (s : State) : State :=
  setFifo l ((s.pairing.at l).fifo ++ [e]) (setHold k .lead none s)

theorem straddleJoined_spec (k l : Lane) (e : PendingLead) (s : State) :
    let d := straddleJoined k l e s
    holdOf d k .lead = none ∧ (∀ j q, (j, q) ≠ (k, .lead) → holdOf d j q = holdOf s j q) ∧
      (d.pairing.at l).fifo = (s.pairing.at l).fifo ++ [e] ∧
      (∀ j, j ≠ l → (d.pairing.at j).fifo = (s.pairing.at j).fifo) ∧
      (∀ j, (d.pairing.at j).history = (s.pairing.at j).history) ∧ changesOnly [.pairing] s d := by
  unfold straddleJoined
  refine ⟨?_, fun j q hjq => ?_, ?_, fun j hj => ?_, fun j => ?_,
    changesOnly_trans (setHold_touches_pairing k .lead none s) (setFifo_touches_pairing _ _ _)⟩
  · rw [holdOf_setFifo, holdOf_setHold_self]
  · rw [holdOf_setFifo, holdOf_setHold_ne _ _ hjq]
  · rw [pairing_at_setFifo_self]
  · rw [setFifo, sameBut_setPairing l _ _ j hj]
    exact (queues_setHold k j .lead none s).1
  · rw [history_setFifo]
    exact (queues_setHold k j .lead none s).2

/-- R9, R10: a DUAL straddle lead, in time and with room, joins the FIFO of its lane. -/
theorem straddleLead_joins {h : Hit} {k : Lane} {s : State} (hp : h.pos = .lead) (hm : h.mode = .dual)
    (hlate : atOrAfter s.clock (pendingOf s h).expiry = false)
    (hroom : (s.pairing.at h.lane).fifo.length < 6) :
    hitLeaves h (setHold k .lead none s) =
      straddleJoined k h.lane (pendingOf s h) s := by
  have hfifo : ((setHold k .lead none s).pairing.at h.lane).fifo = (s.pairing.at h.lane).fifo :=
    (queues_setHold k h.lane .lead none s).1
  have hleaves : hitLeaves h (setHold k .lead none s) = leadArrives h (setHold k .lead none s) := by
    simp only [hitLeaves, hp, hm]
  rw [hleaves, leadArrives_of_room (s := setHold k .lead none s) hlate (by rw [hfifo]; exact hroom), hfifo]
  rfl

/-! ## The straddle hit (R7, R8) -/

/-- What two hits become. -/
theorem straddleHit_spec (s : State) (a b : HeldHit) (hne : a.hit.strip.lane ≠ b.hit.strip.lane) :
    let h := straddleHit s a b
    (h.lane = a.hit.strip.lane ∧ h.partner = some b.hit.strip.lane ∧ h.mode = a.mode) ∨
      (h.lane = b.hit.strip.lane ∧ h.partner = some a.hit.strip.lane ∧ h.mode = b.mode) := by
  unfold straddleHit
  obtain h | h := straddleLane_or s a.hit b.hit
  · exact .inl (by simp [h])
  · exact .inr (by simp [h, hne.symm])

/-- R7: the start and width of a straddle hit whose second pulse began `d` after the first. -/
theorem straddleWidth_later {a b : HitReport} {d : Nat} (hd : d ≤ 60000000)
    (h : b.start = later a.start d) :
    earlierOf a.start b.start = a.start ∧ earlierOf b.start a.start = a.start ∧
      straddleWidth a b = min 60000000 (max a.width (d + b.width)) ∧
      straddleWidth b a = min 60000000 (max (d + b.width) a.width) := by
  obtain ⟨h1, h2⟩ := earlierOf_later a.start (d := d) (by omega)
  rw [← h] at h1 h2
  have hself := elapsed_self a.start
  have hbetween : elapsed b.start a.start = d := by rw [h, elapsed_later _ (by omega)]
  refine ⟨h1, h2, ?_, ?_⟩
  · simp only [straddleWidth, h1, hself, hbetween, Nat.zero_add]
  · simp only [straddleWidth, h2, hself, hbetween, Nat.zero_add]

/-- Settles O11: the merge at a lead strip, and the straddle hit from its definition. -/
theorem adjacentHitsBecomeStraddle : Obligations.AdjacentHitsBecomeStraddle := by
  refine ⟨?_, ?_⟩
  · intro s p k l a x y h adjacent hs hp hlong ha hlarge hheld hclip hfull hgood hpos hmode hk hy
      hstrip hdual hfirst hx hh hroom hlate
    have hmin : min 16777215 a = a := by omega
    have harea : (channelOf s p).area ≤ 16777215 := by omega
    have hc : false = true ↔ (channelOf s p).clipped = true ∨ (∃ z ∈ l, z.fullScale = true) ∨
        16777215 < a := by
      simp only [Bool.false_eq_true, hclip, false_iff, false_or]
      rintro (⟨z, hz, hz'⟩ | hover)
      · rw [hfull z hz] at hz'
        exact Bool.false_ne_true hz'
      · omega
    have hexec := execPulseEnd_of hp hlong harea ha hc
    rw [hmin] at hexec
    have hedge := edgeOf_touches s p a false
    have hheldx : endedHeld s p a false = x := by rw [hx, endedHeld, hmode]; rfl
    have hpartner : mergePartner s p = some (k, y) :=
      mergePartner_of_first hk (by rw [hpos]; exact hy) (by rw [hpos]; exact hfirst)
    have hadjacent : p.lane ≠ k := by
      rintro rfl
      obtain e | ⟨e, -⟩ := hk <;> omega
    have hmodes : h.pos = .lead ∧ h.mode = .dual := by
      refine ⟨by rw [hh, hx]; exact hpos, ?_⟩
      obtain ⟨-, -, e⟩ | ⟨-, -, e⟩ := straddleHit_spec s x y (by rw [hx, hstrip]; exact hadjacent)
      · rw [hh, e, hx]
      · rw [hh, e, hdual]
    have hdelivered : deliverHit (endedReport s p a false) (edgeOf s p a false) =
        straddleJoined k h.lane (pendingOf s h) (edgeOf s p a false) := by
      rw [deliverHit_of_partner hedge hgood hpartner, hheldx, hpos]
      change hitLeaves (straddleHit s x y) _ = _
      rw [← hh]
      exact straddleLead_joins (s := edgeOf s p a false) hmodes.1 hmodes.2 hlate hroom
    obtain ⟨hnone, hholds, hjoined, hfifos, hhistory, htouch⟩ :=
      straddleJoined_spec k h.lane (pendingOf s h) (edgeOf s p a false)
    obtain ⟨hdeliv, hhealth⟩ := delivered_of htouch
    have halone := hdeliv.alone (c := false) rfl rfl hhealth
    have hall := changesOnly_append hedge htouch
    rw [settle_monitorHit_unclipped p hs (changesOnly_mono hall (by decide))] at halone
    obtain ⟨⟨⟨harmed, hnoise, hchannels, hbelow, hsignals, hpresence⟩, hown, hstate, hwalk, -⟩, hothers, -⟩ :=
      halone
    have hmonitor := monitorHit_touches p false
      (straddleJoined k h.lane (pendingOf s h) (edgeOf s p a false))
    have hpairing := hmonitor .pairing (by decide)
    refine ⟨monitorHit p false (straddleJoined k h.lane (pendingOf s h) (edgeOf s p a false)), ?_,
      (holdOf_congr hpairing _ _).trans hnone,
      fun j q hjq => (holdOf_congr hpairing _ _).trans (hholds j q hjq), ?_, fun j hj => ?_, fun j => ?_,
      hown, hothers, hstate, hwalk, harmed, hnoise, hchannels, hbelow, hsignals, hpresence, ?_⟩
    · rw [hexec, reportHit_of_area hlarge]
      change done (monitorHit p false (deliverHit _ (edgeOf s p a false))) = _
      rw [hdelivered]
      exact congrArg Host.Outcome.next
        (settle_monitorHit_unclipped p hs (changesOnly_mono hall (by decide)))
    · rw [hpairing]
      exact hjoined
    · rw [hpairing]
      exact hfifos j hj
    · rw [hpairing]
      exact hhistory j
    · exact changesOnly_mono (changesOnly_append hall (changesOnly_trans (setHealth_touches p _ _)
        (setHealth_touches p _ _))) (by decide)
  · intro s a b hne h la lb lead
    have hlane : h.lane = straddleLane s a.hit b.hit := rfl
    refine ⟨rfl, rfl, ?_, straddleHit_spec s a b hne, fun d hd hb => ?_, fun d hd hb => ?_,
      fun hlead => ?_, fun htrail x hx hy => ?_, fun htrail y hy hx => ?_⟩
    · simp only [h, straddleHit, Bool.or_eq_true, decide_eq_true_eq, or_assoc]
    · obtain ⟨h1, -, h2, -⟩ := straddleWidth_later hd hb
      exact ⟨h1, h2⟩
    · obtain ⟨-, h1, -, h2⟩ := straddleWidth_later hd hb
      exact ⟨h1, h2⟩
    · rw [hlane, straddleLane_of_noLeads hlead]
      exact laneByArea_iff hne
    · rw [hlane, straddleLane_of_trail htrail]
      change (if _ then laneByLead la lb (lead la lb) (lead lb la) _
        else laneByLead lb la (lead lb la) (lead la lb) _) = la
      rw [hx, laneByLead_first hy, laneByLead_second fun z hz => ⟨fun e => (hy z hz).1 e.symm, (hy z hz).2⟩]
      exact ite_self _
    · rw [hlane, straddleLane_of_trail htrail]
      change (if _ then laneByLead la lb (lead la lb) (lead lb la) _
        else laneByLead lb la (lead lb la) (lead la lb) _) = lb
      rw [hy, laneByLead_second hx, laneByLead_first fun z hz => ⟨fun e => (hx z hz).1 e.symm, (hx z hz).2⟩]
      exact ite_self _

end Sys2Proof.Proofs
end

