-- ==== Sys2Proof/Proofs/PortAnswers.lean ====
section
/-! PROOFS. Commands of the maintenance port that print, are refused, or are answered before a reset: what
the line is judged to be, and that nothing but the port differs. -/

namespace Sys2Proof.Proofs

open Sys2Proof Sys2Proof.Machine

/-! ## A judged line -/

/-- R196: what a line with a command is judged to be. -/
def judgedLine (c : PortCommand) (s : State) : Judged :=
  if commandAllowed s c then judgeCommand c (beginLine s) else .error .state

theorem portCommand_eq {s : State} (hp : portReady s = true) (c : PortCommand) :
    portCommand c s = done (respond (judgedLine c s) (beginLine s)) := if_pos hp

theorem judgedLine_of_working {s : State} (h : working s = true) (c : PortCommand) :
    judgedLine c s = judgeCommand c (beginLine s) := if_pos (commandAllowed_of_working h c)

theorem judgedLine_of_refused {s : State} {c : PortCommand} (h : commandAllowed s c = false) :
    judgedLine c s = .error .state := if_neg (by rw [h]; exact Bool.false_ne_true)

theorem beginLine_touches (s : State) : changesOnly [.port] s (beginLine s) := touches_port s _

/-- A refused line changes nothing but the port. -/
theorem portCommand_refused {s : State} {c : PortCommand} {e : ErrorCode} (hs : settled s = true)
    (hp : portReady s = true) (h : judgedLine c s = .error e) :
    ∃ t, portCommand c s = .next t ∧
      t.port =
        { s.port with
          state := .responding, buffer := [], garbled := false, response := some (.err e)
          linesTaken := s.port.linesTaken + 1, linesRefused := s.port.linesRefused + 1 } ∧
      changesOnly [.port] s t := by
  have htouch : changesOnly [.port] s (respond (.error e) (beginLine s)) := touches_port s _
  exact ⟨_, by rw [portCommand_eq hp, h, done_quiet hs htouch], rfl, htouch⟩

/-- A printing line changes nothing but the port. -/
theorem portCommand_printed {s : State} {c : PortCommand} {records : List PrintedRecord}
    (hs : settled s = true) (hp : portReady s = true)
    (h : judgedLine c s = prints records (beginLine s)) :
    ∃ t, portCommand c s = .next t ∧
      t.port =
        { s.port with
          state := .responding, buffer := [], garbled := false, response := some (.ok records)
          linesTaken := s.port.linesTaken + 1 } ∧
      changesOnly [.port] s t := by
  have htouch : changesOnly [.port] s (respond (prints records (beginLine s)) (beginLine s)) :=
    touches_port s _
  exact ⟨_, by rw [portCommand_eq hp, h, done_quiet hs htouch], rfl, htouch⟩

/-! ## Lane arguments -/

theorem laneOfNumber_laneNumber : ∀ l : Lane, laneOfNumber (laneNumber l) = some l := by decide

theorem laneOfNumber_val : ∀ n l, laneOfNumber n = some l → l.val + 1 = n := by
  intro n l h
  unfold laneOfNumber at h
  split at h
  all_goals (cases h <;> rfl)

theorem laneArg_laneNumber {s : State} {l : Lane} (h : laneInUse s l = true) :
    laneArg s (laneNumber l) = some l := by
  rw [laneArg, laneOfNumber_laneNumber]
  simp [h]

theorem laneArg_eq_none {s : State} {n : Nat} (h : n = 0 ∨ s.cfg.laneCount < n) :
    laneArg s n = none := by
  rw [laneArg, Option.filter_eq_none_iff]
  intro l hl huse
  have hn := laneOfNumber_val n l hl
  have hcount : l.val < s.cfg.laneCount := decide_eq_true_iff.1 huse
  omega

/-! ## Printing commands -/

/-- Settles O55: each printing command is judged to print and to leave the station as the line found it. -/
theorem printingCommandsChangeOnlyPort : Obligations.PrintingCommandsChangeOnlyPort := by
  intro s c print hs hp hw hc
  obtain ⟨pc, hexec, hprints⟩ : ∃ pc, exec c s = portCommand pc s ∧
      judgeCommand pc (beginLine s) = prints (print (beginLine s)) (beginLine s) := by
    obtain hc | ⟨hentry, rfl, rfl⟩ | ⟨hentry, l, hl, rfl, rfl⟩ := hc
    · simp only [List.mem_cons, List.not_mem_nil, or_false, Prod.mk.injEq] at hc
      obtain ⟨rfl, rfl⟩ | ⟨rfl, rfl⟩ | ⟨rfl, rfl⟩ | ⟨rfl, rfl⟩ | ⟨rfl, rfl⟩ | ⟨rfl, rfl⟩ |
        ⟨rfl, rfl⟩ | ⟨rfl, rfl⟩ := hc
      · exact ⟨.status, rfl, rfl⟩
      · exact ⟨.config, rfl, rfl⟩
      · exact ⟨.peers, rfl, rfl⟩
      · exact ⟨.approach, rfl, rfl⟩
      · exact ⟨.alerts, rfl, rfl⟩
      · exact ⟨.counts, rfl, rfl⟩
      · exact ⟨.health, rfl, rfl⟩
      · exact ⟨.trim, rfl, rfl⟩
    · exact ⟨.span, rfl, if_pos hentry⟩
    · refine ⟨.queue (laneNumber l), rfl, (if_pos hentry).trans ?_⟩
      rw [laneArg_laneNumber (s := beginLine s) hl]
  rw [hexec]
  exact portCommand_printed hs hp ((judgedLine_of_working hw pc).trans hprints)

/-! ## Refused commands -/

theorem commandAllowed_of_idle {s : State} {c : PortCommand} (h : working s = false)
    (hc : earlyOf c = .never) : commandAllowed s c = false := by
  unfold working at h
  unfold commandAllowed
  rw [hc]
  cases hs : s.startup <;> simp_all

theorem laneActs_iff {s : State} {l : Lane} : laneActs s l = true ↔
    working s = true ∧ s.cfg.entry = true ∧ laneInUse s l = true := by
  simp only [laneActs, entryActs, Bool.and_eq_true, and_assoc]

/-- Without its role a command of the entry controller is refused. -/
theorem judgeCommand_of_noEntry {s : State} (h : s.cfg.entry = false) {c : PortCommand} {n : Nat}
    {g : Option Tag}
    (hc : c ∈ [.queue n, .span, .releaseAdmit n, .releaseRemove n, .forget g]) :
    judgeCommand c s = .error .state := by
  have hrole : ¬s.cfg.entry = true := by rw [h]; exact Bool.false_ne_true
  simp only [List.mem_cons, List.not_mem_nil, or_false] at hc
  obtain rfl | rfl | rfl | rfl | rfl := hc <;> exact if_neg hrole

/-- A lane beyond the lane count is refused. -/
theorem judgeCommand_of_noLane {s : State} (h : s.cfg.entry = true) {c : PortCommand} {n : Nat}
    (hn : laneArg s n = none) (hc : c ∈ [.queue n, .releaseAdmit n, .releaseRemove n, .lampReset n]) :
    judgeCommand c s = .error .badArg := by
  simp only [List.mem_cons, List.not_mem_nil, or_false] at hc
  obtain rfl | rfl | rfl | rfl := hc
  · simp [judgeCommand, judgeQueue, h, hn]
  · simp [judgeCommand, judgeReleaseAdmit, h, hn]
  · simp [judgeCommand, judgeReleaseRemove, h, hn]
  · simp [judgeCommand, judgeLampReset, h, hn]

theorem judgeReleaseAdmit_of_notStop {s : State} {l : Lane} (h : laneActs s l = true)
    (hh : (stopLine s l).head ≠ .stop) :
    judgeReleaseAdmit (laneNumber l) s = .error .state := by
  obtain ⟨-, hentry, hl⟩ := laneActs_iff.1 h
  simp only [judgeReleaseAdmit, hentry, if_true, laneArg_laneNumber hl]
  split
  · contradiction
  · rfl

theorem judgeReleaseRemove_of_notHeld {s : State} {l : Lane} (h : laneActs s l = true)
    (hh : (stopLine s l).head ≠ .stop) (hheld : holdTime s l = none) :
    judgeReleaseRemove (laneNumber l) s = .error .state := by
  obtain ⟨-, hentry, hl⟩ := laneActs_iff.1 h
  simp only [judgeReleaseRemove, hentry, if_true, laneArg_laneNumber hl]
  unfold holdTime at hheld
  cases hx : (stopLine s l).head with
  | held w since => rw [hx] at hheld; cases hheld
  | stop => exact absurd hx hh
  | none => rfl
  | free => rfl
  | admitted w => rfl

/-- Settles O60: by the start-up state, the role, and the command's own check. -/
theorem refusedCommandsChangeNothing : Obligations.RefusedCommandsChangeNothing := by
  intro s c e hs hp hrefused
  obtain ⟨pc, hexec, hjudged⟩ : ∃ pc, exec c s = portCommand pc s ∧ judgedLine pc s = .error e := by
    obtain ⟨rfl, hidle, hc⟩ | ⟨rfl, hloading, rfl⟩ | ⟨rfl, hw, hentry, n, g, hc⟩ |
      ⟨rfl, hw, hentry, hdivert, n, rfl⟩ | ⟨rfl, l, hl, hstop, hc⟩ | ⟨rfl, hw, p, rfl, hl, hgood⟩ |
      ⟨rfl, hw, hentry, n, hn, hc⟩ | ⟨rfl, hw, hdivert, n, hn, rfl⟩ | ⟨rfl, hw, hentry, g, rfl, hg⟩ |
      ⟨rfl, hw, p, rfl, hl⟩ := hrefused
    · obtain ⟨pc, hexec, hearly⟩ : ∃ pc, exec c s = portCommand pc s ∧ earlyOf pc = .never := by
        simp only [List.mem_cons, List.not_mem_nil, or_false] at hc
        obtain (rfl | rfl | rfl | rfl | rfl | rfl | rfl | rfl | rfl) |
          ⟨n, x, g, p, rfl | rfl | rfl | rfl | rfl | rfl | rfl⟩ := hc
        all_goals exact ⟨_, rfl, rfl⟩
      exact ⟨pc, hexec, judgedLine_of_refused (commandAllowed_of_idle hidle hearly)⟩
    · exact ⟨.config, rfl, judgedLine_of_refused (by simp [commandAllowed, hloading, earlyOf])⟩
    · obtain ⟨pc, hexec, hmem⟩ : ∃ pc, exec c s = portCommand pc s ∧
          pc ∈ [PortCommand.queue n, .span, .releaseAdmit n, .releaseRemove n, .forget g] := by
        simp only [List.mem_cons, List.not_mem_nil, or_false] at hc
        obtain rfl | rfl | rfl | rfl | rfl := hc
        all_goals exact ⟨_, rfl, by simp⟩
      exact ⟨pc, hexec, (judgedLine_of_working hw pc).trans
        (judgeCommand_of_noEntry (s := beginLine s) hentry hmem)⟩
    · have hrole : judgeLampReset n (beginLine s) = .error .state :=
        if_neg (show ¬(s.cfg.divert || s.cfg.entry) = true by simp [hentry, hdivert])
      exact ⟨.lampReset n, rfl, (judgedLine_of_working hw _).trans hrole⟩
    · have hw := (laneActs_iff.1 hl).1
      obtain rfl | ⟨rfl, hheld⟩ := hc
      · exact ⟨.releaseAdmit _, rfl, (judgedLine_of_working hw _).trans
          (judgeReleaseAdmit_of_notStop (s := beginLine s) hl hstop)⟩
      · exact ⟨.releaseRemove _, rfl, (judgedLine_of_working hw _).trans
          (judgeReleaseRemove_of_notHeld (s := beginLine s) hl hstop hheld)⟩
    · have hjudged : judgeStripRestore (some p) (beginLine s) = .error .state :=
        (if_pos hl).trans (if_neg (by rw [show stripFailed (beginLine s) p = false from hgood]; nofun))
      exact ⟨.stripRestore (some p), rfl, (judgedLine_of_working hw _).trans hjudged⟩
    · obtain ⟨pc, hexec, hmem⟩ : ∃ pc, exec c s = portCommand pc s ∧
          pc ∈ [PortCommand.queue n, .releaseAdmit n, .releaseRemove n, .lampReset n] := by
        simp only [List.mem_cons, List.not_mem_nil, or_false] at hc
        obtain rfl | rfl | rfl | rfl := hc
        all_goals exact ⟨_, rfl, by simp⟩
      exact ⟨pc, hexec, (judgedLine_of_working hw pc).trans
        (judgeCommand_of_noLane (s := beginLine s) hentry (laneArg_eq_none (s := beginLine s) hn) hmem)⟩
    · have hnone : laneArg (beginLine s) n = none := laneArg_eq_none (s := beginLine s) hn
      have hjudged : judgeLampReset n (beginLine s) = .error .badArg :=
        (if_pos (show (s.cfg.divert || s.cfg.entry) = true by simp [hdivert])).trans (by rw [hnone])
      exact ⟨.lampReset n, rfl, (judgedLine_of_working hw _).trans hjudged⟩
    · refine ⟨.forget g, rfl, (judgedLine_of_working hw _).trans ((if_pos hentry).trans ?_)⟩
      cases g with
      | none => rfl
      | some tag =>
        refine if_neg ?_
        simp only [List.any_eq_true, decide_eq_true_eq, not_exists, not_and]
        exact fun x hx he => hg x hx (congrArg some he.symm)
    · refine ⟨.stripRestore p, rfl, (judgedLine_of_working hw _).trans ?_⟩
      cases p with
      | none => rfl
      | some q =>
        exact if_neg (by rw [show laneInUse (beginLine s) q.lane = false from hl q rfl]; nofun)
  rw [hexec]
  exact portCommand_refused hs hp hjudged

/-! ## RESTART and RESPONSE_SENT -/

/-- Settles O59: RESTART is judged in every state but RESET, and writes the port alone. -/
theorem restartIsAnsweredBeforeReset : Obligations.RestartIsAnsweredBeforeReset := by
  intro s hs
  refine ⟨fun hp => ?_, fun hsending => ?_⟩
  · have hnotReset : s.startup ≠ .reset := by
      simp only [portReady, Bool.and_eq_true, decide_eq_true_eq] at hp
      exact hp.2
    have hallowed : commandAllowed s .restart = true := by
      unfold commandAllowed
      cases hstart : s.startup <;> simp_all [earlyOf]
    have htouch : changesOnly [.port] s
        (respond (judgeRestart (beginLine s)) (beginLine s)) := touches_port s _
    refine ⟨respond (judgeRestart (beginLine s)) (beginLine s), ?_, rfl, rfl, htouch⟩
    exact (portCommand_eq hp .restart).trans ((congrArg (fun j => done (respond j (beginLine s)))
      (if_pos hallowed)).trans (done_quiet hs htouch))
  · have htouch : changesOnly [.port] s
        { s with
          port.state := .collecting, port.buffer := [], port.garbled := false, port.response := none
          port.restart := if s.port.restart = .none then .none else .due } := touches_port s _
    exact ⟨_, (if_pos hsending).trans (done_quiet hs htouch), rfl, htouch⟩

end Sys2Proof.Proofs
end

