-- ==== Sys2Proof/Proofs/OneSource.lean ====
section
/-! PROOFS. A settled state in which at most one condition source has changed: `settle` takes that source
and lets the alert lines follow. -/

namespace Sys2Proof.Proofs

open Sys2Proof Sys2Proof.Machine

/-- What signs, aspects and outputs follow: that a state agrees with another on it. -/
structure SameFollowed (s t : State) : Prop where
  startup : t.startup = s.startup
  cfg : t.cfg = s.cfg
  signs : t.signs = s.signs
  requested : ∀ l, signRequested t l = signRequested s l
  lamps : t.lamps = s.lamps
  aspect : ∀ l, (stopLine t l).aspect = (stopLine s l).aspect
  amber : ∀ l, (stopLine t l).amber = (stopLine s l).amber
  wanted : ∀ l, wantedAspect t l = wantedAspect s l

theorem SameFollowed.signsFollow {s t : State} (h : SameFollowed s t) :
    signsFollow t = signsFollow s := by
  unfold Machine.signsFollow
  simp only [h.signs, h.requested]

theorem SameFollowed.aspectsFollow {s t : State} (h : SameFollowed s t) :
    aspectsFollow t = aspectsFollow s := by
  have hshows (w : Aspect) (l : Lane) : shows w (stopLine t l) = shows w (stopLine s l) := by
    unfold shows
    rw [h.aspect, h.amber]
  unfold Machine.aspectsFollow
  simp only [laneActs_congr h.startup h.cfg, hshows, h.wanted, h.aspect, h.amber]

theorem SameFollowed.lampsFollow {s t : State} (h : SameFollowed s t) :
    lampsFollow t = lampsFollow s := by
  have hdemand (a : Option (Lane × Lamp)) : demandOf t a = demandOf s a := by
    unfold demandOf
    simp only [h.signs, h.aspect]
  have houtput (o : Output) : outputOf t o = outputOf s o := by simp only [outputOf, h.lamps]
  unfold Machine.lampsFollow outputFollows
  simp only [houtput, hdemand, isDriven_congr (groupFaulted_congr h.lamps)]

/-- The states agree on the strips that are FAILED and on all that signs, aspects and outputs follow but
for these. -/
theorem sameFollowed_of {s t : State} (hs : t.startup = s.startup) (hc : t.cfg = s.cfg)
    (hg : t.signs = s.signs) (hl : t.lamps = s.lamps) (he : t.entry = s.entry)
    (hf : ∀ p, stripFailed t p = stripFailed s p) : SameFollowed s t := by
  have hline (l : Lane) : stopLine t l = stopLine s l := by simp only [stopLine, he]
  exact ⟨hs, hc, hg, signRequested_of hs hc hg hf, hl, fun l => by rw [hline], fun l => by rw [hline],
    fun l => wantedAspect_of hc hl hf (by rw [hline])⟩

theorem settle_takesOne {s t : State} {x : AlertSource} (hs : settled s = true)
    (hw : working s = true) (hx : isCondition x = true) (h : SameFollowed s t)
    (ha : t.alerts = s.alerts) (hraw : ∀ y, y ≠ x → rawState t y = rawState s y) :
    settle t = driveAlertLines (takeRaw t x) := by
  obtain ⟨hsigns, haspects, hlamps, -, -⟩ := settled_parts.1 hs
  refine settle_takes ((working_congr h.startup).trans hw) hx (h.signsFollow.trans hsigns)
    (h.aspectsFollow.trans haspects) (h.lampsFollow.trans hlamps) fun y hy hyx => ?_
  rw [alertOf, ha, hraw y hyx]
  exact remembered_of_settled hs hw hy

/-- What taking one source leaves of the state: the source has its raw state remembered, and no other
source differs. -/
theorem settle_takesOne_spec {s t : State} {x : AlertSource} (hs : settled s = true)
    (hw : working s = true) (hx : isCondition x = true) (h : SameFollowed s t)
    (ha : t.alerts = s.alerts) (hraw : ∀ y, y ≠ x → rawState t y = rawState s y) :
    (alertOf (settle t) x).remembered = rawState t x ∧
      (∀ y, y ≠ x → alertOf (settle t) y = alertOf s y) ∧ changesOnly [.alerts] t (settle t) := by
  rw [settle_takesOne hs hw hx h ha hraw]
  refine ⟨takeRaw_alertOf t x, fun y hy => ?_, ?_⟩
  · refine (takeRaw_alertOf_ne t hy).trans ?_
    rw [alertOf, ha]
    rfl
  · obtain ⟨v, hv⟩ := takeRaw_put t x
    rw [hv]
    exact changesOnly_trans (touches_alerts t _) (driveAlertLines_touches _)

end Sys2Proof.Proofs
end

