-- ==== Sys2Proof/Proofs/ProbeMinute.lean ====
section
/-! PROOFS. The probe unit and the minute timer (R25 to R27, R192). -/

namespace Sys2Proof.Proofs

open Sys2Proof Sys2Proof.Machine

/-! ## The probe writes its own block; TEMP_INVALID follows its temperature -/

/-- The probe unit as it stands after a command. -/
def probed (x : Probe) (s : State) : State := { s with probe := x }

theorem probed_touches (x : Probe) (s : State) : changesOnly [.probe] s (probed x s) :=
  touches_probe s x

theorem settle_probed_same {s : State} (h : settled s = true) {x : Probe} (hx : x.theta = s.probe.theta) :
    settle (probed x s) = probed x s :=
  settle_same h rfl rfl rfl rfl rfl rfl rfl rfl hx

theorem rawState_probed (s : State) (x : Probe) {y : AlertSource} (hy : y ≠ .tempInvalid) :
    rawState (probed x s) y = rawState s y := by
  cases y
  case tempInvalid => exact absurd rfl hy
  all_goals rfl

theorem settle_probed_spec {s : State} (hs : settled s = true) (hw : working s = true) (x : Probe) :
    (alertOf (settle (probed x s)) .tempInvalid).remembered = x.theta.isNone ∧
      (∀ y, y ≠ .tempInvalid → alertOf (settle (probed x s)) y = alertOf s y) ∧
      changesOnly [.alerts] (probed x s) (settle (probed x s)) :=
  settle_takesOne_spec hs hw rfl
    (sameFollowed_of (s := s) (t := probed x s) rfl rfl rfl rfl rfl fun _ => rfl) rfl
    fun _ hy => rawState_probed s x hy

theorem lineA_of_bypass {s : State} {x : AlertSource} (hw : working s = true)
    (hx : isCondition x = true) (henable : (alertConfig s x).enable = true)
    (hmap : (alertConfig s x).mapA = true) (hbypass : (alertConfig s x).bypass = true)
    (hraw : rawState s x = true) : (driveAlertLines s).alerts.lineA = true := by
  have hactive : anyActive s AlertConfig.mapA = true :=
    List.any_eq_true.2 ⟨x, mem_allSources x, by simp [henable, hmap, isActive, hx, hbypass, hraw]⟩
  change lineWanted s AlertConfig.mapA = true
  unfold working at hw
  unfold lineWanted
  split at hw
  next h => rw [h]; exact hactive
  next h => rw [h]; exact hactive
  · exact absurd hw Bool.false_ne_true

theorem lineA_of_tempInvalid {s : State} (hs : settled s = true) (hw : working s = true) {x : Probe}
    (hx : x.theta = none) (henable : (alertConfig s .tempInvalid).enable = true)
    (hmap : (alertConfig s .tempInvalid).mapA = true)
    (hbypass : (alertConfig s .tempInvalid).bypass = true) :
    (settle (probed x s)).alerts.lineA = true := by
  rw [settle_takesOne (x := .tempInvalid) hs hw rfl
    (sameFollowed_of (s := s) (t := probed x s) rfl rfl rfl rfl rfl fun _ => rfl) rfl
    fun _ hy => rawState_probed s x hy]
  obtain ⟨v, hv⟩ := takeRaw_put (probed x s) .tempInvalid
  rw [hv]
  exact lineA_of_bypass (s := putSources (probed x s) v) (x := .tempInvalid) hw rfl henable hmap hbypass
    (by simp [rawState, putSources, probed, hx])

/-- Settles O36: every probe event writes the probe, after which at most TEMP_INVALID is to be taken; the
minute timer writes the counters alone. -/
theorem probeAndMinuteTimersRun : Obligations.ProbeAndMinuteTimersRun := by
  refine ⟨?_, ?_⟩
  · intro s hs hw held
    have hbad : badSample s = probed { s.probe with answerBy := none, holdTimer := held } s := by
      have hheld : (if s.probe.theta.isSome && s.probe.holdTimer.isNone then
          some (later s.clock 60000000) else s.probe.holdTimer) = held := by
        simp only [held, Bool.and_eq_true, Option.isNone_iff_eq_none]
      simp only [badSample, probed, hheld]
    have hfailed : done (badSample s) =
        .next (probed { s.probe with answerBy := none, holdTimer := held } s) := by
      rw [hbad]
      exact congrArg Host.Outcome.next
        (settle_probed_same hs (x := { s.probe with answerBy := none, holdTimer := held }) rfl)
    refine ⟨fun hdue => ?_, fun r d ok w hw' hin hlo hhi => ?_, fun hdue => ?_, fun hdue => ?_⟩
    · exact ⟨probed { s.probe with
          sampleTimer := some (later s.clock 1000000), answerBy := some (later s.clock 50000) } s,
        (if_pos hdue).trans (congrArg Host.Outcome.next (settle_probed_same (s := s) hs rfl)), rfl, probed_touches _ s⟩
    · have hdeg : degrees r = d := by
        unfold degrees
        omega
      have hexec : exec (.probeAnswer r ok) s =
          if ok = true ∧ -40 ≤ d ∧ d ≤ 85 then
            done (probed { s.probe with theta := some d, holdTimer := none, answerBy := none } s)
          else done (badSample s) := by
        simp only [exec, execProbeAnswer, hw', hin, if_true, hdeg, goodSample, probed]
      by_cases hgood : ok = true ∧ -40 ≤ d ∧ d ≤ 85
      · rw [if_pos hgood] at hexec
        obtain ⟨htaken, hothers, htouch⟩ := settle_probed_spec hs hw
          { s.probe with theta := some d, holdTimer := none, answerBy := none }
        refine ⟨_, hexec, fun _ => ⟨settle_probe _, htaken⟩, fun hbad' => ?_, hothers,
          changesOnly_append (probed_touches _ s) htouch⟩
        obtain ⟨hok, hd1, hd2⟩ := hgood
        obtain h | h | h := hbad'
        · rw [hok] at h; exact absurd h nofun
        · omega
        · omega
      · rw [if_neg hgood, hfailed] at hexec
        exact ⟨_, hexec, fun h => absurd h hgood, fun _ => ⟨rfl, rfl⟩, fun _ _ => rfl,
          changesOnly_mono (probed_touches _ s) (by simp)⟩
    · exact ⟨_, (if_pos hdue).trans hfailed, rfl, probed_touches _ s⟩
    · obtain ⟨htaken, hothers, htouch⟩ :=
        settle_probed_spec hs hw { s.probe with theta := none, holdTimer := none }
      exact ⟨_, if_pos hdue, settle_probe _, htaken, hothers,
        fun he hm hb => lineA_of_tempInvalid hs hw rfl he hm hb,
        changesOnly_append (probed_touches _ s) htouch⟩
  · intro s hs hdue
    have htouch := touches_counters s
      { s.counters with
        lanes := Tab.fill 4 {}, snapshots := some s.counters.lanes
        minutes := s.counters.minutes + 1, minuteTimer := some (later s.clock 60000000) }
    exact ⟨_, (if_pos hdue).trans (done_quiet hs htouch), rfl, fun l => Tab.at_fill _ l, rfl, rfl, htouch⟩

end Sys2Proof.Proofs
end

