-- ==== Sys2Proof/Proofs/HealthSteps.lean ====
section
/-! PROOFS. HEALTH STEP and STRIP RESTORE (R174 to R178). -/

namespace Sys2Proof.Proofs

open Sys2Proof Sys2Proof.Machine

/-! ## The order of a search (R176) -/

/-- Where a strip stands in strip order. -/
def placeOf (p : Strip) : Nat := 2 * p.lane.val + (if p.pos = .lead then 0 else 1)

/-- How far down a search from a walk position a strip stands. -/
def turnFrom (w : Option Strip) (p : Strip) : Nat :=
  match w with
  | some w => (placeOf p + 7 - placeOf w) % 8
  | none => placeOf p

theorem walkOrder_sorted (w : Option Strip) :
    (walkOrder w).Pairwise fun p q => turnFrom w p < turnFrom w q := by
  cases w with
  | none => decide
  | some w =>
    obtain ⟨l, p⟩ := w
    revert l
    cases p <;> decide

theorem mem_allStrips : ∀ p : Strip, p ∈ allStrips := by
  rintro ⟨l, p⟩
  revert l
  cases p <;> decide

theorem mem_walkOrder (w : Option Strip) (p : Strip) : p ∈ walkOrder w := by
  cases w with
  | none => exact mem_allStrips p
  | some w =>
    have h := mem_allStrips p
    rw [← List.take_append_drop ((stripIndex w).val + 1) allStrips] at h
    exact List.mem_append.2 (List.mem_append.1 h).symm

/-- Of a list in the order of a measure, a search finds the member that nothing before it fits. -/
theorem find?_of_sorted {α : Type} {l : List α} {f : α → Nat} {P : α → Bool} {p : α}
    (hl : l.Pairwise fun a b => f a < f b) (hp : p ∈ l) (hfit : P p = true)
    (hfirst : ∀ q, f q < f p → P q = false) : l.find? P = some p := by
  induction l with
  | nil => cases hp
  | cons x l ih =>
    obtain ⟨hx, hl⟩ := List.pairwise_cons.1 hl
    obtain rfl | hp := List.mem_cons.1 hp
    · exact List.find?_cons_of_pos hfit
    · rw [List.find?_cons_of_neg (by rw [hfirst x (hx p hp)]; exact Bool.false_ne_true)]
      exact ih hl hp

theorem nextPresented_of_first {s : State} {p : Strip} (hp : (healthOf s p).indicates = true)
    (hfirst : ∀ q, turnFrom (searchedFrom s) q < turnFrom (searchedFrom s) p →
      (healthOf s q).indicates = false) : nextPresented s = some p :=
  find?_of_sorted (walkOrder_sorted _) (mem_walkOrder _ p) hp hfirst

theorem nextPresented_eq_none {s : State} (h : ∀ p, (healthOf s p).indicates = false) :
    nextPresented s = none :=
  List.find?_eq_none.2 fun p _ => by rw [h p]; exact Bool.false_ne_true

/-! ## A step of the monitor -/

/-- HEALTH STEP has been answered and leaves a monitor. -/
def stepped (h : Health) (records : List PrintedRecord) (s : State) : State :=
  respond (prints records { beginLine s with health := h }) (beginLine s)

theorem stepped_touches (h : Health) (records : List PrintedRecord) (s : State) :
    changesOnly [.port, .health] s (stepped h records s) := by
  have hport := beginLine_touches s
  have hhealth : changesOnly [.health] (beginLine s) { beginLine s with health := h } :=
    touches_health _ _
  exact changesOnly_trans (changesOnly_append hport hhealth)
    (changesOnly_mono (touches_port _ _) (by simp))

/-- The strips that a monitor holds are FAILED as they are. -/
def sameConditions (s : State) (h : Health) : Prop :=
  ∀ p, (h.strips.at (stripIndex p)).failed = stripFailed s p

theorem rawState_stepped {s : State} {h : Health} (hf : sameConditions s h)
    (records : List PrintedRecord) {y : AlertSource} (hy : y ≠ .health) :
    rawState (stepped h records s) y = rawState s y :=
  rawState_of (s := s) (t := stepped h records s) rfl rfl hf rfl rfl rfl hy

theorem sameFollowed_stepped {s : State} {h : Health} (hf : sameConditions s h)
    (records : List PrintedRecord) : SameFollowed s (stepped h records s) :=
  sameFollowed_of (s := s) (t := stepped h records s) rfl rfl rfl rfl rfl hf

theorem settle_stepped_spec {s : State} (hs : settled s = true) (hw : working s = true) {h : Health}
    (hf : sameConditions s h) (records : List PrintedRecord) :
    (∀ y, y ≠ .health → alertOf (settle (stepped h records s)) y = alertOf s y) ∧
      changesOnly [.port, .health, .alerts] s (settle (stepped h records s)) := by
  obtain ⟨-, hothers, htouch⟩ := settle_takesOne_spec hs hw (x := .health) rfl
    (sameFollowed_stepped hf records) rfl fun _ hy => rawState_stepped hf records hy
  exact ⟨hothers, changesOnly_append (stepped_touches h records s) htouch⟩

/-- With HEALTH as it was nothing is to be taken. -/
theorem settle_stepped_same {s : State} (hs : settled s = true) {h : Health} (hf : sameConditions s h)
    (records : List PrintedRecord)
    (hraw : rawState (stepped h records s) .health = rawState s .health) :
    settle (stepped h records s) = stepped h records s := by
  have hfollowed := sameFollowed_stepped hf records
  refine settle_of hs hfollowed.startup hfollowed.cfg hfollowed.signs hfollowed.requested
    hfollowed.lamps hfollowed.aspect hfollowed.amber hfollowed.wanted rfl fun y => ?_
  by_cases hy : y = .health
  · rw [hy, hraw]
  · exact rawState_stepped hf records hy

/-- R175: the monitor with every indication record cleared, listening. -/
def listening (s : State) : Health :=
  { s.health with
    strips := Tab.make 8 fun k => (s.health.strips.at k).cleared, state := .listen }

/-- R176: the monitor with its walk over, listening. -/
def walkEnded (s : State) : Health := { s.health with state := .listen, walk := none }

/-- R176: the monitor with the record of a strip cleared and the walk at it. -/
def presenting (s : State) (p : Strip) : Health :=
  { s.health with
    strips := s.health.strips.put (stripIndex p) (healthOf s p).cleared
    state := .readout, walk := some p }

theorem exec_healthStep {s : State} (hp : portReady s = true) (hw : working s = true) :
    exec .healthStep s = done (respond (judgeHealthStep (beginLine s)) (beginLine s)) :=
  portCommand_of_working hp hw .healthStep

theorem exec_healthStep_idle {s : State} (hp : portReady s = true) (hw : working s = true)
    (h : s.health.state = .idle) :
    exec .healthStep s = done (stepped (listening s) (stepRecords (beginLine s) .listen none) s) := by
  have hidle : (beginLine s).health.state = .idle := h
  rw [exec_healthStep hp hw, judgeHealthStep, hidle]
  rfl

theorem exec_healthStep_walks {s : State} (hp : portReady s = true) (hw : working s = true)
    (h : s.health.state ≠ .idle) :
    exec .healthStep s =
      match nextPresented s with
      | some p => done (stepped (presenting s p) (stepRecords (beginLine s) .readout (some p)) s)
      | none =>
        done (stepped (walkEnded s) (stepRecords (beginLine s) .listen none) s) := by
  have hnot : (beginLine s).health.state ≠ .idle := h
  have hnext : nextPresented (beginLine s) = nextPresented s := rfl
  rw [exec_healthStep hp hw, judgeHealthStep]
  split
  · contradiction
  · rw [hnext]
    cases nextPresented s <;> rfl

theorem sameConditions_listening (s : State) : sameConditions s (listening s) := by
  intro p
  simp only [listening, Tab.at_make]
  rfl

theorem sameConditions_presenting (s : State) (p : Strip) : sameConditions s (presenting s p) := by
  intro q
  by_cases hq : q = p
  · subst hq
    simp only [presenting, Tab.at_put_self]
    rfl
  · simp only [presenting, Tab.at_put_ne _ _ fun e => hq (stripIndex_inj e)]
    rfl

/-- Cleared records indicate nothing: HEALTH is false, as it is in IDLE. -/
theorem rawState_listening {s : State} (h : s.health.state = .idle) (records : List PrintedRecord) :
    rawState (stepped (listening s) records s) .health = rawState s .health := by
  have hnone (p : Strip) : (healthOf (stepped (listening s) records s) p).indicates = false := by
    change ((Tab.make 8 fun k => (s.health.strips.at k).cleared).at (stripIndex p)).indicates = false
    rw [Tab.at_make]
    rfl
  simp [rawState, hnone, h]

/-- Settles O57: by the state of the monitor, and by the strip a step finds. -/
theorem healthStepListensAndWalks : Obligations.HealthStepListensAndWalks := by
  intro s hs hp hw cleared heading reading yes presented place turn
  have hturn (p : Strip) : turn p = turnFrom (searchedFrom s) p := by
    unfold searchedFrom
    simp only [turn]
    cases hstate : s.health.state with
    | readout => cases hwalk : s.health.walk <;> rfl
    | idle => cases s.health.walk <;> rfl
    | listen => cases s.health.walk <;> rfl
  have hpresented (p : Strip) : stepRecords (beginLine s) .readout (some p) =
      [heading "READOUT" (.name (stripName p)), presented p] := by
    change [heading "READOUT" (.name (stripName p)), _] = _
    congr 2
    have hcause : optValue (fun c => .name (HardCause.label c)) (healthOf s p).hard =
        match (healthOf s p).hard with
        | some .silent => Value.name "SILENT"
        | some .clipped => .name "CLIPPED"
        | some .stuck => .name "STUCK"
        | none => .absent := by
      cases (healthOf s p).hard with
      | none => rfl
      | some c => cases c <;> rfl
    have hreading (x : Option Clock) : optValue bitsValue x = reading x := by cases x <;> rfl
    simp only [presented, conditionField, indicationFields, show healthOf (beginLine s) p = healthOf s p from rfl, hcause, hreading]
    rfl
  by_cases hidle : s.health.state = .idle
  · have hsettle := settle_stepped_same hs (sameConditions_listening s)
      (stepRecords (beginLine s) .listen none) (rawState_listening hidle _)
    refine ⟨_, _, (exec_healthStep_idle hp hw hidle).trans (congrArg Host.Outcome.next hsettle), rfl,
      fun _ _ => rfl, changesOnly_mono (stepped_touches _ _ s) (by simp), fun _ => ⟨fun p => ?_, rfl, rfl, rfl, rfl⟩,
      fun h => absurd hidle h, fun h => absurd hidle h⟩
    exact Tab.at_make _ _
  · have hexec := exec_healthStep_walks hp hw hidle
    cases hnext : nextPresented s with
    | some p =>
      rw [hnext] at hexec
      obtain ⟨hothers, htouch⟩ := settle_stepped_spec hs hw (sameConditions_presenting s p)
        (stepRecords (beginLine s) .readout (some p))
      have hhealth := settle_health (stepped (presenting s p) (stepRecords (beginLine s) .readout (some p)) s)
      refine ⟨_, _, hexec, settle_port _, hothers, htouch, fun h => absurd h hidle,
        fun _ q hq hfirst => ?_, fun _ hnone => ?_⟩
      · have hqp : some q = some p := (nextPresented_of_first hq
          (fun r hr => hfirst r (by rw [hturn, hturn]; exact hr))).symm.trans hnext
        obtain rfl := Option.some.inj hqp
        refine ⟨(healthOf_congr hhealth q).trans (Tab.at_put_self _ _ _), fun r hr => ?_, ?_, ?_,
          hpresented q⟩
        · exact (healthOf_congr hhealth r).trans (Tab.at_put_ne _ _ fun e => hr (stripIndex_inj e))
        · exact congrArg Health.state hhealth
        · exact congrArg Health.walk hhealth
      · rw [nextPresented_eq_none hnone] at hnext
        cases hnext
    | none =>
      rw [hnext] at hexec
      obtain ⟨hothers, htouch⟩ := settle_stepped_spec (h := walkEnded s) hs hw (fun _ => rfl)
        (stepRecords (beginLine s) .listen none)
      have hhealth : (settle (stepped (walkEnded s) (stepRecords (beginLine s) .listen none) s)).health =
        walkEnded s := settle_health _
      refine ⟨_, _, hexec, settle_port _, hothers, htouch, fun h => absurd h hidle,
        fun _ q hq hfirst => ?_, fun _ _ => ⟨(congrArg Health.strips hhealth :),
          (congrArg Health.state hhealth :), (congrArg Health.walk hhealth :), rfl⟩⟩
      rw [nextPresented_of_first hq (fun r hr => hfirst r (by rw [hturn, hturn]; exact hr))] at hnext
      cases hnext

/-! ## STRIP RESTORE (R174, R178) -/

/-- Settles O58: the strip's condition is written, and signs, aspects and lamps follow its lane's mode. -/
theorem stripRestoreMakesGood : Obligations.StripRestoreMakesGood := by
  intro s p hs hp hw hl hfailed
  have hjudged : judgeStripRestore (some p) (beginLine s) =
      prints [] (restoreStrip p (beginLine s)) := (if_pos hl).trans (if_pos hfailed)
  have hexec : exec (.stripRestore (some p)) s =
      done (respond (judgeStripRestore (some p) (beginLine s)) (beginLine s)) :=
    portCommand_of_working hp hw _
  rw [hjudged] at hexec
  have hgood : changesOnly [.port, .health] s (setHealth p
      { healthOf s p with failed := false, silenceRun := 0, clipRun := 0 } (beginLine s)) :=
    changesOnly_append (beginLine_touches s) (setHealth_touches p _ (beginLine s))
  have htaken := takeConditions_touches (setHealth p
    { healthOf s p with failed := false, silenceRun := 0, clipRun := 0 } (beginLine s))
  have hmonitored := monitored_takeConditions (setHealth p
    { healthOf s p with failed := false, silenceRun := 0, clipRun := 0 } (beginLine s))
  have hanswered : changesOnly [.port] (restoreStrip p (beginLine s))
    (respond (prints [] (restoreStrip p (beginLine s))) (beginLine s)) := touches_port _ _
  have hhealth : (settle (respond (prints [] (restoreStrip p (beginLine s))) (beginLine s))).health =
      (setHealth p { healthOf s p with failed := false, silenceRun := 0, clipRun := 0 }
        (beginLine s)).health := (settle_health _).trans (htaken .health (by decide))
  have hself := (healthOf_congr hhealth p).trans (healthOf_setHealth_self p _ (beginLine s))
  have hother (q : Strip) (hq : q ≠ p) :
      healthOf (settle (respond (prints [] (restoreStrip p (beginLine s))) (beginLine s))) q =
        healthOf s q :=
    (healthOf_congr hhealth q).trans (healthOf_setHealth_ne _ (beginLine s) hq)
  have hmode (b : Bool) : modeWith s p b =
      if stripFailed s ⟨p.lane, if p.pos = .lead then .trail else .lead⟩ = true then
        (if b = true then .blind else .single)
      else if b = true then .single else .dual := by
    unfold modeWith
    cases b <;> cases stripFailed s ⟨p.lane, if p.pos = .lead then .trail else .lead⟩ <;> rfl
  refine ⟨_, hexec, ?_, hself, hother, (congrArg Health.state hhealth :),
    (congrArg Health.walk hhealth :), ?_,
    followsOnly_settle ?_, changesOnly_settle (changesOnly_append (changesOnly_append hgood htaken) hanswered)⟩
  · have hport : (restoreStrip p (beginLine s)).port = (beginLine s).port := takeConditions_port _
    rw [settle_port]
    change { (restoreStrip p (beginLine s)).port with response := some (.ok []) } = _
    rw [hport]
    rfl
  · have hnow := laneMode_eq_modeWith (s := s) (t := s) p fun _ _ => rfl
    rw [show (healthOf s p).failed = true from hfailed, hmode] at hnow
    rw [laneMode_eq_modeWith p hother, hself, hmode, hnow]
    cases stripFailed s ⟨p.lane, if p.pos = .lead then .trail else .lead⟩ <;> rfl
  · exact followsOnly_trans (followsOnly_trans (followsOnly_of_touches hgood) hmonitored.2.2)
      (followsOnly_of_touches hanswered)

end Sys2Proof.Proofs
end

