-- ==== Sys2Proof/Proofs/FrameCodec.lean ====
section
/-! PROOFS. Frames read back (section 4.2): each field from its bytes, each body from its fields, and the
frame from its header, body and CRC. -/

namespace Sys2Proof.Proofs

open Sys2Proof Sys2Proof.Machine

/-! ## Numbers in bytes -/

theorem toNat_byte (n : Nat) : (byte n).toNat = n % 256 := BitVec.toNat_ofNat n 8

theorem toNat_byte_of_lt {n : Nat} (h : n < 256) : (byte n).toNat = n := by
  rw [toNat_byte]
  omega

theorem read2_bytes2 {n : Nat} (h : n < 65536) : read2 (byte (n / 256)) (byte n) = n := by
  simp only [read2, toNat_byte]
  omega

theorem read3_bytes3 {n : Nat} (h : n < 16777216) :
    read3 (byte (n / 65536)) (byte (n / 256)) (byte n) = n := by
  simp only [read3, toNat_byte]
  omega

/-! ## The CRC keeps to 16 bits (R56) -/

theorem crcBit_lt {c : Nat} (h : c < 65536) : crcBit c < 65536 := by
  unfold crcBit
  split
  · exact Nat.xor_lt_two_pow (n := 16) (by omega) (by decide)
  · omega

theorem crcByte_lt {c : Nat} (h : c < 65536) (b : Byte) : crcByte c b < 65536 := by
  have hb := b.isLt
  have hx : Nat.xor c (b.toNat * 256) < 65536 := Nat.xor_lt_two_pow (n := 16) h (by omega)
  exact crcBit_lt (crcBit_lt (crcBit_lt (crcBit_lt (crcBit_lt (crcBit_lt (crcBit_lt (crcBit_lt hx)))))))

theorem crc16_lt (l : List Byte) : crc16 l < 65536 := by
  have h (l : List Byte) : ∀ c, c < 65536 → l.foldl crcByte c < 65536 := by
    induction l with
    | nil => exact fun _ hc => hc
    | cons b l ih =>
      intro c hc
      rw [List.foldl_cons]
      exact ih _ (crcByte_lt hc b)
  unfold crc16
  exact h l 0xFFFF (by decide)

/-! ## Fields -/

theorem stationOfNumber_stationNumber : ∀ k : Station, stationOfNumber (stationNumber k) = some k := by
  decide

theorem stationNumber_range (k : Station) : 1 ≤ stationNumber k ∧ stationNumber k ≤ 8 := by
  revert k
  decide

theorem readTag_tagBytes (t : Tag) :
    readTag (byte ((stationNumber t.origin * 4096 + t.serial.toNat) / 256))
      (byte (stationNumber t.origin * 4096 + t.serial.toNat)) = some t := by
  have hs := t.serial.isLt
  obtain ⟨-, hk⟩ := stationNumber_range t.origin
  have hdiv : (stationNumber t.origin * 4096 + t.serial.toNat) / 4096 = stationNumber t.origin := by
    omega
  have hserial : BitVec.ofNat 12 (stationNumber t.origin * 4096 + t.serial.toNat) = t.serial := by
    apply BitVec.eq_of_toNat_eq
    rw [BitVec.toNat_ofNat]
    omega
  rw [readTag, read2_bytes2 (by omega), hdiv, stationOfNumber_stationNumber, hserial]
  rfl

theorem readLanes_laneByte {l : Lane} {p : Option Lane} (h : p ≠ some l) :
    readLanes (laneByte l p) = some (l, p) := by
  have hall : ∀ l k : Lane, k ≠ l → readLanes (laneByte l (some k)) = some (l, some k) := by decide
  have hnone : ∀ l : Lane, readLanes (laneByte l none) = some (l, none) := by decide
  cases p with
  | none => exact hnone l
  | some k => exact hall l k fun e => h (by rw [e])

theorem bitOf_weighingFlags (b : WeighingBody) :
    bitOf (weighingFlags b) 0 = b.straddle ∧ bitOf (weighingFlags b) 1 = b.overlong ∧
      bitOf (weighingFlags b) 2 = b.continuation ∧ bitOf (weighingFlags b) 3 = b.unweighed ∧
      bitOf (weighingFlags b) 4 = b.singleSource ∧
      bitOf (weighingFlags b) 5 = b.spacings.isSome := by
  have h : ∀ a b c d e f : Bool,
      bitOf (byte (bit a 0 + bit b 1 + bit c 2 + bit d 3 + bit e 4 + bit f 5)) 0 = a ∧
      bitOf (byte (bit a 0 + bit b 1 + bit c 2 + bit d 3 + bit e 4 + bit f 5)) 1 = b ∧
      bitOf (byte (bit a 0 + bit b 1 + bit c 2 + bit d 3 + bit e 4 + bit f 5)) 2 = c ∧
      bitOf (byte (bit a 0 + bit b 1 + bit c 2 + bit d 3 + bit e 4 + bit f 5)) 3 = d ∧
      bitOf (byte (bit a 0 + bit b 1 + bit c 2 + bit d 3 + bit e 4 + bit f 5)) 4 = e ∧
      bitOf (byte (bit a 0 + bit b 1 + bit c 2 + bit d 3 + bit e 4 + bit f 5)) 5 = f := by decide
  exact h _ _ _ _ _ _

theorem confidenceByte_reads (c : Confidence) (v : Verdict) :
    (if bitOf (confidenceByte c v) 4 then Confidence.reduced else .full) = c ∧
      verdictOfCode ((confidenceByte c v).toNat % 4) = v := by
  cases c <;> cases v <;> decide

theorem effVerdict_reads (v : Verdict) (b : Bool) :
    verdictOfCode ((byte (v.code + bit b 7)).toNat % 4) = v ∧ bitOf (byte (v.code + bit b 7)) 7 = b := by
  cases v <;> cases b <;> decide

theorem readLoads_loadBytes {l : List (Option Nat)} (h : ∀ x ∈ l, ∀ n, x = some n → n ≤ 6000) :
    readLoads (l.flatMap loadBytes) = some l := by
  induction l with
  | nil => rfl
  | cons x l ih =>
    have htail := ih fun y hy => h y (List.mem_cons_of_mem x hy)
    have hx := h x List.mem_cons_self
    change readLoads (byte (x.getD 0xFFFF / 256) :: byte (x.getD 0xFFFF) :: l.flatMap loadBytes) = _
    cases x with
    | none =>
      simp only [readLoads, htail, Option.getD_none]
      rw [read2_bytes2 (by decide)]
      rfl
    | some n =>
      have hn := hx n rfl
      simp only [readLoads, htail, Option.getD_some]
      rw [read2_bytes2 (by omega), if_neg (by omega), if_pos hn]

theorem length_loadBytes (l : List (Option Nat)) : (l.flatMap loadBytes).length = 2 * l.length := by
  induction l with
  | nil => rfl
  | cons x l ih =>
    rw [List.flatMap_cons, List.length_append, ih]
    simp only [loadBytes, bytes2, List.length_cons, List.length_nil]
    omega

/-! ## Bodies -/

theorem weighingInRange_iff {b : WeighingBody} {age : Nat} : weighingInRange b age = true ↔
    1 ≤ b.loads.length ∧ b.loads.length ≤ 12 ∧ b.partner ≠ some b.lane ∧
      (b.speed = 0 ∨ 50 ≤ b.speed ∧ b.speed ≤ 4000) ∧ b.ownGross ≤ 72000 ∧ b.effGross ≤ 72000 ∧
      (∀ l, b.spacings = some l → l.length + 1 = b.loads.length) ∧
      (∀ x ∈ b.loads, ∀ n, x = some n → n ≤ 6000) ∧ age < 65536 := by
  simp only [weighingInRange, Bool.and_eq_true, Bool.or_eq_true, decide_eq_true_eq, List.all_eq_true,
    Option.all_eq_true, and_assoc]

/-- The spacing bytes of a weighing: 0 where it has none (R58). -/
def spacingBytes (b : WeighingBody) : List Byte :=
  b.spacings.getD (List.replicate (b.loads.length - 1) 0)

theorem length_spacingBytes {b : WeighingBody}
    (h : ∀ l, b.spacings = some l → l.length + 1 = b.loads.length) :
    (spacingBytes b).length = b.loads.length - 1 := by
  unfold spacingBytes
  cases hs : b.spacings with
  | none => simp
  | some l =>
    have hl := h l hs
    simp only [Option.getD_some]
    omega

theorem length_weighingBytes {b : WeighingBody} {age : Nat} (h : weighingInRange b age = true) :
    (weighingBytes b age).length = 16 + 3 * b.loads.length := by
  obtain ⟨h1, -, -, -, -, -, hspacings, -⟩ := weighingInRange_iff.1 h
  have hs := length_spacingBytes hspacings
  have hl := length_loadBytes b.loads
  change ((_ ++ spacingBytes b) ++ b.loads.flatMap loadBytes).length = _
  rw [List.length_append, List.length_append, hs, hl]
  simp only [tagBytes, bytes2, bytes3, List.length_append, List.length_cons, List.length_nil]
  omega

theorem readWeighing_weighingBytes {b : WeighingBody} {age : Nat} (h : weighingInRange b age = true) :
    readWeighing (weighingBytes b age) = some (b, age) := by
  have hlength := length_weighingBytes h
  obtain ⟨h1, h12, hpartner, hspeed, hown, heff, hspacings, hloads, hage⟩ := weighingInRange_iff.1 h
  have hcount : (byte b.loads.length).toNat = b.loads.length := toNat_byte_of_lt (by omega)
  have hslen := length_spacingBytes hspacings
  have hbytes : weighingBytes b age =
      byte ((stationNumber b.tag.origin * 4096 + b.tag.serial.toNat) / 256) ::
      byte (stationNumber b.tag.origin * 4096 + b.tag.serial.toNat) :: laneByte b.lane b.partner ::
      byte (age / 256) :: byte age :: byte (b.speed / 256) :: byte b.speed :: byte b.loads.length ::
      weighingFlags b :: byte (b.ownGross / 65536) :: byte (b.ownGross / 256) :: byte b.ownGross ::
      confidenceByte b.ownConfidence b.ownVerdict :: byte (b.effGross / 65536) ::
      byte (b.effGross / 256) :: byte b.effGross :: byte (b.effVerdict.code + bit b.directed 7) ::
      (spacingBytes b ++ b.loads.flatMap loadBytes) := rfl
  obtain ⟨f0, f1, f2, f3, f4, f5⟩ := bitOf_weighingFlags b
  obtain ⟨hconfidence, hverdict⟩ := confidenceByte_reads b.ownConfidence b.ownVerdict
  obtain ⟨heffVerdict, hdirected⟩ := effVerdict_reads b.effVerdict b.directed
  have hdrop : (spacingBytes b ++ b.loads.flatMap loadBytes).drop (b.loads.length - 1) =
      b.loads.flatMap loadBytes := by rw [← hslen, List.drop_left]
  have htake : (spacingBytes b ++ b.loads.flatMap loadBytes).take (b.loads.length - 1) =
      spacingBytes b := by rw [← hslen, List.take_left]
  have hsome : (if b.spacings.isSome = true then some (spacingBytes b) else none) = b.spacings := by
    unfold spacingBytes
    cases b.spacings <;> rfl
  have hn : (byte b.loads.length).toNat - 1 = b.loads.length - 1 := by rw [hcount]
  have hspeed2 : read2 (byte (b.speed / 256)) (byte b.speed) = b.speed := read2_bytes2 (by omega)
  have hown3 : read3 (byte (b.ownGross / 65536)) (byte (b.ownGross / 256)) (byte b.ownGross) =
      b.ownGross := read3_bytes3 (by omega)
  have heff3 : read3 (byte (b.effGross / 65536)) (byte (b.effGross / 256)) (byte b.effGross) =
      b.effGross := read3_bytes3 (by omega)
  rw [hbytes] at hlength ⊢
  delta readWeighing
  dsimp only
  rw [readTag_tagBytes, readLanes_laneByte hpartner, hn, hdrop, readLoads_loadBytes hloads, htake]
  dsimp only
  rw [hcount, hlength, hspeed2, hown3, heff3, if_pos ⟨h1, h12, rfl, hspeed, hown, heff⟩, f0, f1, f2,
    f3, f4, f5, hconfidence, hverdict, heffVerdict, hdirected, hsome, read2_bytes2 hage]

theorem readBeacon_beaconBytes {b : BeaconBody} (h : beaconInRange b = true) :
    readBeacon (beaconBytes b) = some b := by
  simp only [beaconInRange, Bool.and_eq_true, decide_eq_true_eq, Bool.not_eq_true'] at h
  obtain ⟨⟨⟨hroles, hchainage⟩, hlanes1⟩, hlanes4⟩ := h
  have hcause : causeOfCode (byte b.cause.code).toNat = some b.cause := by
    cases b.cause <;> rfl
  have hposture : postureOfCode (byte b.posture.code).toNat = some b.posture := by
    cases b.posture <;> rfl
  have hbits : ∀ a b c d : Bool,
      bitOf (byte (bit a 0 + bit b 1 + bit c 2 + bit d 3)) 0 = a ∧
      bitOf (byte (bit a 0 + bit b 1 + bit c 2 + bit d 3)) 1 = b ∧
      bitOf (byte (bit a 0 + bit b 1 + bit c 2 + bit d 3)) 2 = c ∧
      bitOf (byte (bit a 0 + bit b 1 + bit c 2 + bit d 3)) 3 = d := by decide
  have hflags : ∀ a b : Bool, bitOf (byte (bit a 0 + bit b 1)) 0 = a ∧
      bitOf (byte (bit a 0 + bit b 1)) 1 = b := by decide
  obtain ⟨r0, r1, r2, r3⟩ := hbits b.divert b.entry b.exit b.beyondExit
  obtain ⟨b0, b1, b2, b3⟩ := hbits (b.blind.at 0) (b.blind.at 1) (b.blind.at 2) (b.blind.at 3)
  obtain ⟨e0, e1⟩ := hflags b.entryDegraded b.signDegraded
  have hcount : (byte b.laneCount).toNat = b.laneCount := toNat_byte_of_lt (by omega)
  have hbytes : beaconBytes b =
      [b.restarts, byte b.cause.code,
        byte (bit b.divert 0 + bit b.entry 1 + bit b.exit 2 + bit b.beyondExit 3),
        byte (b.chainage / 256), byte b.chainage, byte b.laneCount,
        byte (bit (b.blind.at 0) 0 + bit (b.blind.at 1) 1 + bit (b.blind.at 2) 2 +
          bit (b.blind.at 3) 3),
        byte b.posture.code, byte (bit b.entryDegraded 0 + bit b.signDegraded 1)] := rfl
  have hblind : (#v[b.blind.at 0, b.blind.at 1, b.blind.at 2, b.blind.at 3] : Tab Bool 4) = b.blind := by
    apply Tab.ext_at
    intro i
    fin_cases i <;> rfl
  have hnot : ¬(b.divert = true ∧ b.entry = true) := by
    rw [← Bool.and_eq_true, hroles]
    exact Bool.false_ne_true
  rw [hbytes]
  simp only [readBeacon, hcause, hposture, hcount, r0, r1, r2, r3, b0, b1, b2, b3, e0, e1,
    read2_bytes2 hchainage, hblind]
  rw [if_pos ⟨hlanes1, hlanes4, hnot⟩]

/-! ## The frame -/

theorem readBody_bodyBytes {f : Frame} (h : frameInRange f = true) :
    readBody f.body.kind (bodyBytes f.body) = some f.body ∧ (bodyBytes f.body).length < 256 := by
  unfold frameInRange at h
  cases hb : f.body with
  | receipt x y z => exact ⟨rfl, show 3 < 256 by decide⟩
  | entered t l w g age =>
    simp only [hb, Bool.and_eq_true, decide_eq_true_eq] at h
    obtain ⟨⟨hw, hg⟩, hage⟩ := h
    have hlane : ∀ l : Lane, laneOfNumber (byte (laneNumber l)).toNat = some l := by decide
    refine ⟨?_, show 11 < 256 by decide⟩
    change (match readTag _ _, laneOfNumber (byte (laneNumber l)).toNat with
      | some t, some l => _
      | _, _ => none) = _
    rw [readTag_tagBytes, hlane]
    change (if read3 _ _ _ ≤ 72000 then some (Body.entered t l (read3 _ _ _) (read3 _ _ _) (read2 _ _)) else none) = _
    rw [read3_bytes3 hw, read3_bytes3 (n := g) (by omega), read2_bytes2 hage, if_pos hg]
  | left t age =>
    simp only [hb, decide_eq_true_eq] at h
    refine ⟨?_, show 4 < 256 by decide⟩
    change (readTag _ _).map _ = _
    rw [readTag_tagBytes]
    change some (Body.left t (read2 _ _)) = _
    rw [read2_bytes2 h]
  | vehicle b age =>
    simp only [hb] at h
    obtain ⟨-, h12, -⟩ := weighingInRange_iff.1 h
    have hlength := length_weighingBytes h
    refine ⟨?_, ?_⟩
    · change (readWeighing (weighingBytes b age)).map _ = _
      rw [readWeighing_weighingBytes h]
      rfl
    · change (weighingBytes b age).length < 256
      omega
  | sighting b age =>
    simp only [hb] at h
    obtain ⟨-, h12, -⟩ := weighingInRange_iff.1 h
    have hlength := length_weighingBytes h
    refine ⟨?_, ?_⟩
    · change (readWeighing (weighingBytes b age)).map _ = _
      rw [readWeighing_weighingBytes h]
      rfl
    · change (weighingBytes b age).length < 256
      omega
  | beacon b =>
    simp only [hb, Bool.and_eq_true] at h
    refine ⟨?_, show 9 < 256 by decide⟩
    change (readBeacon (beaconBytes b)).map _ = _
    rw [readBeacon_beaconBytes h.2]
    rfl

theorem readReceiptFrom_receiptByte {f : Frame} (h : frameInRange f = true) :
    readReceiptFrom f.body.kind (receiptByte f.receiptFrom) = some f.receiptFrom := by
  cases hr : f.receiptFrom with
  | none => rfl
  | some k =>
    have hbyte : ∀ k : Station, receiptByte (some k) ≠ 0 ∧
        stationOfNumber (receiptByte (some k)).toNat = some k := by decide
    obtain ⟨hnonzero, hstation⟩ := hbyte k
    have hkind : ¬(f.body.kind = 0x01 ∨ f.body.kind = 0x31) := by
      unfold frameInRange at h
      cases hb : f.body <;> simp [hb, hr, Body.kind] at h ⊢
    rw [readReceiptFrom, if_neg hnonzero, if_neg hkind, hstation]
    rfl

/-- The header fields and body of a frame. -/
def rawOf (f : Frame) : RawFrame :=
  { sender := byte (stationNumber f.sender), kind := byte f.body.kind, sequence := f.sequence
    receiptFrom := receiptByte f.receiptFrom, body := bodyBytes f.body }

theorem readFrame_frameBytes {f : Frame} (h : (bodyBytes f.body).length < 256) :
    readFrame (frameBytes f) = .ok (rawOf f) := by
  have hcrc := read2_bytes2 (crc16_lt (coveredBytes f))
  have hlen : (byte (bodyBytes f.body).length).toNat = (bodyBytes f.body).length := toNat_byte_of_lt h
  have hskip : (frameBytes f).dropWhile (fun b => decide (b = 0x55)) =
      0xC3 :: (coveredBytes f ++ bytes2 (crc16 (coveredBytes f))) := rfl
  have hcovered : coveredBytes f ++ bytes2 (crc16 (coveredBytes f)) =
      byte (stationNumber f.sender) :: byte f.body.kind :: f.sequence :: receiptByte f.receiptFrom ::
        byte (bodyBytes f.body).length ::
        (bodyBytes f.body ++ [byte (crc16 (coveredBytes f) / 256), byte (crc16 (coveredBytes f))]) := rfl
  unfold readFrame
  rw [hskip, hcovered]
  have hcheck : crc16 ([byte (stationNumber f.sender), byte f.body.kind, f.sequence,
      receiptByte f.receiptFrom, byte (bodyBytes f.body).length] ++ bodyBytes f.body) =
      read2 (byte (crc16 (coveredBytes f) / 256)) (byte (crc16 (coveredBytes f))) := hcrc.symm
  simp only [hlen, List.take_left, List.drop_left, hcheck, ne_eq, not_true_eq_false, if_true, if_false]
  rfl

theorem checkFormat_rawOf {f : Frame} (h : frameInRange f = true) : checkFormat (rawOf f) = some f := by
  have hkind : (byte f.body.kind).toNat = f.body.kind := by cases f.body <;> rfl
  have hsender : (byte (stationNumber f.sender)).toNat = stationNumber f.sender :=
    toNat_byte_of_lt (by have := (stationNumber_range f.sender).2; omega)
  obtain ⟨hbody, -⟩ := readBody_bodyBytes h
  simp only [checkFormat, rawOf, hkind, hsender, stationOfNumber_stationNumber,
    readReceiptFrom_receiptByte h, hbody]

/-- Settles O22: field by field, then the header and the CRC. -/
theorem frameReadsBack : Obligations.FrameReadsBack := fun f h =>
  ⟨rawOf f, readFrame_frameBytes (readBody_bodyBytes h).2, checkFormat_rawOf h⟩

end Sys2Proof.Proofs
end

