-- ==== Sys2Proof/Proofs/Raised.lean ====
section
/-! PROOFS. Event sources that are raised (R187, R189), and a settled state in which only event sources
have changed: the alert lines follow and nothing else is to be done. -/

namespace Sys2Proof.Proofs

open Sys2Proof Sys2Proof.Machine

/-! ## A raised source -/

/-- R189: what the alert unit keeps of a source that has just been raised. -/
def raisedAlert (a : AlertState) : AlertState := { a with sticky := true, count := a.count + 1 }

theorem alertOf_raise_self {s : State} (h : working s = true) (x : AlertSource) :
    alertOf (raise x s) x = raisedAlert (alertOf s x) := by
  rw [raise_of_working x h, alertOf_setAlert_self]
  rfl

theorem alertOf_congr {s t : State} (h : t.alerts = s.alerts) (x : AlertSource) :
    alertOf t x = alertOf s x := by simp only [alertOf, h]

theorem alertOf_driveAlertLines (s : State) (x : AlertSource) :
    alertOf (driveAlertLines s) x = alertOf s x := rfl

/-! ## Only event sources have changed -/

theorem settle_events {s u : State} (hs : settled s = true) (h : SameFollowed s u)
    (hraw : ∀ y, rawState u y = rawState s y)
    (ha : ∀ y, isCondition y = true → alertOf u y = alertOf s y) :
    settle u = driveAlertLines u := by
  obtain ⟨hsigns, haspects, hlamps, -, -⟩ := settled_parts.1 hs
  have htaken : takeConditions u = u := by
    unfold takeConditions
    split
    next hw =>
      have hws : working s = true := (working_congr h.startup).symm.trans hw
      refine foldl_takeRaw_id _ fun y hy => ?_
      have hc : isCondition y = true := by
        revert hy
        cases y <;> simp [conditionSources, isCondition]
      rw [ha y hc, hraw, remembered_of_settled hs hws hc]
    · rfl
  unfold settle
  rw [driveSigns_id (h.signsFollow.trans hsigns), driveAspects_id (h.aspectsFollow.trans haspects),
    driveLamps_id (h.lampsFollow.trans hlamps), htaken]

/-- The raw states of a state in which the blocks they read have not changed. -/
theorem rawState_of_touches {bs : List Block} {s u : State} (h : changesOnly bs s u)
    (hp : u.peers.posture = s.peers.posture)
    (hb : ∀ b ∈ [Block.startup, .cfg, .health, .lamps, .entry, .probe], b ∉ bs := by decide)
    (x : AlertSource) : rawState u x = rawState s x := by
  have he : u.entry = s.entry := h .entry (hb _ (by simp))
  have hpr : u.probe = s.probe := h .probe (hb _ (by simp))
  exact rawState_congr (h .lamps (hb _ (by simp)))
    (h .cfg (hb _ (by simp))) (h .health (hb _ (by simp))) (by rw [he]) hp (by rw [hpr]) x

theorem sameFollowed_of_touches {bs : List Block} {s u : State} (h : changesOnly bs s u)
    (hb : ∀ b ∈ [Block.startup, .cfg, .health, .signs, .lamps, .entry], b ∉ bs := by decide) :
    SameFollowed s u :=
  sameFollowed_of (h .startup (hb _ (by simp))) (h .cfg (hb _ (by simp))) (h .signs (hb _ (by simp)))
    (h .lamps (hb _ (by simp))) (h .entry (hb _ (by simp)))
    fun p => stripFailed_congr (h .health (hb _ (by simp))) p

/-- A command that touches nothing signs, aspects, outputs and raw states depend on, and of the alert
sources events only. -/
theorem done_events {bs : List Block} {s u : State} (hs : settled s = true) (h : changesOnly bs s u)
    (hp : u.peers.posture = s.peers.posture)
    (ha : ∀ y, isCondition y = true → alertOf u y = alertOf s y)
    (hb : ∀ b ∈ [Block.startup, .cfg, .health, .signs, .lamps, .entry, .probe], b ∉ bs := by decide) :
    done u = .next (driveAlertLines u) := by
  rw [done, settle_events hs (sameFollowed_of_touches h fun b hm => hb b (by
    simp only [List.mem_cons, List.not_mem_nil] at hm ⊢; tauto))
    (rawState_of_touches h hp fun b hm => hb b (by
      simp only [List.mem_cons, List.not_mem_nil] at hm ⊢; tauto)) ha]

/-- A command that touches the peer table but not the posture leaves nothing to be done. -/
theorem done_quietPeers {bs : List Block} {s u : State} (hs : settled s = true) (h : changesOnly bs s u)
    (hp : u.peers.posture = s.peers.posture)
    (hb : ∀ b ∈ [Block.startup, .cfg, .health, .signs, .lamps, .entry, .alerts, .probe], b ∉ bs := by
      decide) : done u = .next u := by
  have hprobe : u.probe = s.probe := h .probe (hb _ (by simp))
  rw [done, settle_same hs (h .startup (hb _ (by simp))) (h .cfg (hb _ (by simp)))
    (h .health (hb _ (by simp))) (h .signs (hb _ (by simp))) (h .lamps (hb _ (by simp)))
    (h .entry (hb _ (by simp))) (h .alerts (hb _ (by simp))) hp (by rw [hprobe])]

/-- An event raised on the way to a state that nothing else of the alert unit separates from a settled
one. -/
theorem done_raised {bs : List Block} {s u : State} {x : AlertSource} (hs : settled s = true)
    (h : changesOnly bs s u) (hp : u.peers.posture = s.peers.posture) (hx : isCondition x = false)
    (ha : u.alerts = s.alerts)
    (hb : ∀ b ∈ [Block.startup, .cfg, .health, .signs, .lamps, .entry, .probe], b ∉ bs := by decide) :
    done (raise x u) = .next (driveAlertLines (raise x u)) := by
  have hall : changesOnly (bs ++ [.alerts]) s (raise x u) := changesOnly_append h (raise_touches x u)
  have hpeers := raise_touches x u .peers (by decide)
  refine done_events hs hall (by rw [hpeers, hp]) (fun y hy => ?_) fun b hm hmem => ?_
  · have hne : y ≠ x := fun e => by rw [e, hx] at hy; cases hy
    rw [alertOf_raise_ne _ hne, alertOf_congr ha]
  · obtain hmem | hmem := List.mem_append.1 hmem
    · exact hb b hm hmem
    · obtain rfl := List.mem_singleton.1 hmem
      revert hm
      decide

end Sys2Proof.Proofs
end

