-- ==== Sys2Proof/Proofs/LineEvents.lean ====
section
/-! PROOFS. The corridor line (chapter 4): attempts, receipts, bad frames, and frames that are received. -/

namespace Sys2Proof.Proofs

open Sys2Proof Sys2Proof.Machine

/-! ## The line block -/

/-- A command that writes the line alone. -/
def lined (x : Line) (s : State) : State := { s with line := x }

theorem lined_touches (x : Line) (s : State) : changesOnly [.line] s (lined x s) := touches_line s x

theorem done_lined {s : State} (hs : settled s = true) (x : Line) :
    done (lined x s) = .next (lined x s) := done_quiet hs (lined_touches x s)

/-- A command whose only effect is the line it leaves. -/
theorem exec_lined {s : State} {c : Instr} {x : Line} (hs : settled s = true)
    (h : exec c s = done (lined x s)) :
    ∃ t, exec c s = .next t ∧ t.line = x ∧ changesOnly [.line] s t :=
  ⟨_, h.trans (done_lined hs x), rfl, lined_touches x s⟩

theorem earlier_zero (t : Clock) : earlier t 0 = t := by simp [earlier]

theorem lineIdle_zero (s : State) :
    lineIdle 0 s = lined { s.line with idleSince := some s.clock } s := by
  simp only [lineIdle, earlier_zero, lined]

/-! ## Taking the next frame (R65) -/

/-- R65: the frame in flight is gone, and the next one is taken. -/
theorem finishFlight_eq (s : State) : finishFlight s = lined (lineFreed s) s := by
  unfold finishFlight takeIntoFlight lineFreed lined
  cases hq : s.line.queue with
  | nil => rfl
  | cons w ws =>
    by_cases hr : s.startup = .running
    · simp only [hr]
      rfl
    · simp only [hr]
      rfl

theorem lineFreed_congr {s t : State} (hs : t.startup = s.startup) (hl : t.line = s.line) :
    lineFreed t = lineFreed s := by simp only [lineFreed, hs, hl]

/-- Freeing the line leaves of it what is not a matter of frames to send. -/
theorem lineFreed_kept (s : State) :
    (lineFreed s).counts = s.line.counts ∧ (lineFreed s).idleSince = s.line.idleSince ∧
      (lineFreed s).slots = s.line.slots ∧ (lineFreed s).owed = s.line.owed ∧
      (lineFreed s).driving = s.line.driving := by
  unfold lineFreed
  split
  · split <;> exact ⟨rfl, rfl, rfl, rfl, rfl⟩
  · exact ⟨rfl, rfl, rfl, rfl, rfl⟩

theorem lineFreed_of_nil {s : State} (h : s.line.queue = []) :
    lineFreed s = { s.line with transmit := .idle, flight := none } := by
  simp only [lineFreed, h]

theorem lineFreed_of_cons {s : State} {w : Waiting} {ws : List Waiting} (h : s.line.queue = w :: ws)
    (hr : s.startup = .running) :
    lineFreed s =
      { s.line with
        queue := ws, transmit := .contending, nextSequence := s.line.nextSequence + 1
        flight := some { notice := w.notice, sequence := s.line.nextSequence, attempts := 0
                         collisions := 0, receiptFrom := none, bytes := [] } } := by
  simp only [lineFreed, h, hr, if_true]

/-- Freeing the line does not look at its idle time. -/
theorem lineFreed_idleSince (i : Option Clock) (s : State) :
    lineFreed (lined { s.line with idleSince := i } s) = { lineFreed s with idleSince := i } := by
  unfold lineFreed lined
  dsimp only
  cases s.line.queue with
  | nil => rfl
  | cons w ws =>
    by_cases hr : s.startup = .running
    · simp only [hr, if_true]
    · simp only [hr, if_false]

theorem lineFreed_counts (x : LineCounts) (s : State) :
    lineFreed (lined { s.line with counts := x } s) = { lineFreed s with counts := x } := by
  unfold lineFreed lined
  dsimp only
  cases s.line.queue with
  | nil => rfl
  | cons w ws =>
    by_cases hr : s.startup = .running
    · simp only [hr, if_true]
    · simp only [hr, if_false]

/-! ## Contention (R66) -/

theorem idleFor_iff {s : State} {i : Clock} (h : s.line.idleSince = some i) (n : Nat) :
    idleFor s n = true ↔ n * 40 ≤ elapsed s.clock i := by
  simp only [idleFor, h, decide_eq_true_eq]
  rfl

theorem looksForFrame_eq (s : State) :
    looksForFrame s =
      match s.line.idleSince with
      | none => s.line.looking
      | some i => decide (80 ≤ elapsed s.clock i) := by
  unfold looksForFrame idleFor
  cases s.line.idleSince <;> rfl

theorem isListening_iff {s : State} : isListening s = true ↔
    working s = true ∧ s.line.transmit ≠ .sending ∧ s.line.driving = none := by
  simp [isListening, isDriving]

/-- Settles O23: each event writes the line alone; before its time the attempt does not begin. -/
theorem contentionBeginsAttempt : Obligations.ContentionBeginsAttempt := by
  intro s f hs hrunning hcontending hflight
  have hexec : exec .contentionIdleReached s =
      if s.startup = .running ∧ s.line.transmit = .contending ∧
          idleFor s (contentionTime s f.notice) = true then
        done (lined
          { s.line with
            transmit := .sending, idleSince := none
            flight := some
              { f with
                receiptFrom := receiptTarget s f.notice
                bytes := frameBytes (attemptFrame s f) } } s)
      else noEvent s := by
    simp only [exec, execContentionIdleReached, hflight]
    rfl
  refine ⟨fun hdriving => ?_, fun hbusy => ?_, fun i hi => ⟨fun hearly => ?_, fun htime => ?_⟩⟩
  · have hlistening : isListening s = true :=
      isListening_iff.2 ⟨by simp [working, hrunning], by rw [hcontending]; nofun, hdriving⟩
    have hbusy : exec .lineGoesBusy s =
        done (lined { s.line with idleSince := none, looking := looksForFrame s } s) := if_pos hlistening
    rw [looksForFrame_eq] at hbusy
    exact exec_lined hs hbusy
  · exact hexec.trans (if_neg fun h => by simp [idleFor, hbusy] at h)
  · refine hexec.trans (if_neg fun h => ?_)
    have := (idleFor_iff hi _).1 h.2.2
    unfold contentionTime at this
    omega
  · rw [if_pos ⟨hrunning, hcontending, (idleFor_iff hi _).2 htime⟩] at hexec
    exact exec_lined hs hexec

/-! ## Collisions (R67) -/

/-- R67: the attempt is abandoned and counted. -/
def collided (s : State) : State :=
  lined
    { s.line with
      idleSince := some s.clock
      counts := { s.line.counts with collisions := s.line.counts.collisions + 1 } } s

theorem execCollision_eq {s : State} {f : Flight} (hsending : s.line.transmit = .sending)
    (hflight : s.line.flight = some f) :
    exec .collision s =
      if 16 ≤ f.collisions + 1 then done (finishFlight (raise .lineFault (collided s)))
      else
        done (lined
          { (collided s).line with
            transmit := .contending, flight := some { f with collisions := f.collisions + 1 } } s) := by
  have hcollided : countLine (fun c => { c with collisions := c.collisions + 1 }) (lineIdle 0 s) =
      collided s := by
    rw [lineIdle_zero]
    rfl
  simp only [exec, execCollision, hflight, hsending, if_true, hcollided]
  rfl

/-- Settles O24: below 16 collisions in a row the frame contends again, the 16th frees the line. -/
theorem collisionsAreCounted : Obligations.CollisionsAreCounted := by
  intro s f hs hrunning hsending hflight
  have hexec := execCollision_eq hsending hflight
  have hw : working s = true := by simp [working, hrunning]
  by_cases hlast : 15 ≤ f.collisions
  · rw [if_pos (by omega), finishFlight_eq, lineFreed_congr (s := collided s) (raise_startup _ _)
      (raise_line _ _)] at hexec
    have htouch : changesOnly [.line, .alerts] s
        (lined (lineFreed (collided s)) (raise .lineFault (collided s))) :=
      changesOnly_trans (changesOnly_append (lined_touches _ s) (raise_touches _ _))
        (changesOnly_mono (lined_touches _ _) (by simp))
    have halert (y : AlertSource) :
        alertOf (lined (lineFreed (collided s)) (raise .lineFault (collided s))) y =
          alertOf (raise .lineFault (collided s)) y := rfl
    have hother (y : AlertSource) (hy : y ≠ .lineFault) :
        alertOf (lined (lineFreed (collided s)) (raise .lineFault (collided s))) y = alertOf s y :=
      (halert y).trans (alertOf_raise_ne _ hy)
    have hself := alertOf_raise_self (s := collided s) hw .lineFault
    have hpeers : (lined (lineFreed (collided s)) (raise .lineFault (collided s))).peers = s.peers :=
      htouch .peers (by decide)
    rw [done_events hs htouch (by rw [hpeers]) fun y hy => hother y fun e => by rw [e] at hy; cases hy] at hexec
    obtain ⟨hcounts, hidle, hslots, howed, hdriving⟩ := lineFreed_kept (collided s)
    refine ⟨_, hexec, hcounts, hidle, hslots, howed, hdriving, fun h => absurd h (by omega), fun _ =>
      ⟨congrArg AlertState.sticky hself, congrArg AlertState.count hself, hother, fun hq => ?_,
        fun w ws hq => ?_, changesOnly_trans htouch (changesOnly_mono (driveAlertLines_touches _) (by simp))⟩⟩
    · have hline := lineFreed_of_nil (s := collided s) hq
      exact ⟨congrArg Line.transmit hline, congrArg Line.flight hline⟩
    · have hline := lineFreed_of_cons (s := collided s) hq hrunning
      exact ⟨congrArg Line.transmit hline, congrArg Line.queue hline, _, congrArg Line.flight hline, rfl, rfl, rfl, rfl⟩
  · rw [if_neg (by omega)] at hexec
    exact ⟨_, hexec.trans (done_lined hs _), rfl, rfl, rfl, rfl, rfl,
      fun _ => ⟨rfl, rfl, rfl, rfl, lined_touches _ s⟩, fun h => absurd h hlast⟩

/-! ## Bad frames (R56, R71) -/

theorem badFrameFound_eq (found : BadFrame) (s : State) :
    badFrameFound found s =
      lined
        { s.line with
          counts := { s.line.counts with badFrames := s.line.counts.badFrames + 1 }
          idleSince := some (earlier s.clock (badFrameEnd found)) } s := rfl

theorem badFrameEnd_eq (found : BadFrame) : badFrameEnd found = if found = .badCrc then 0 else 80 := by
  cases found <;> rfl

/-- Settles O26: by whether the bytes are looked for. -/
theorem badFramesAreCounted : Obligations.BadFramesAreCounted := by
  intro s c found hs hlistening looked ended
  have hlooked : looksForFrame s = looked := looksForFrame_eq s
  have hended : earlier s.clock (badFrameEnd found) = ended := by rw [badFrameEnd_eq]
  have hbad : exec (.badFrame found) s =
      done (if looksForFrame s then badFrameFound found s else lineIdle (badFrameEnd found) s) :=
    if_pos hlistening
  have hreceived (bytes : List Byte) : exec (.frameReceived bytes) s =
      done (if looksForFrame s then receiveBytes bytes s else lineIdle 0 s) := if_pos hlistening
  refine ⟨fun hl hc => ?_, fun hl hc => ?_, fun hl hc => ?_⟩
  · have hexec : exec c s = done (badFrameFound found s) := by
      obtain rfl | ⟨bytes, rfl, hread⟩ := hc
      · rw [hbad, hlooked, if_pos hl]
      · rw [hreceived, hlooked, if_pos hl, receiveBytes, hread]
    rw [badFrameFound_eq, hended] at hexec
    exact exec_lined hs hexec
  · have hexec : exec c s = done (lined { s.line with idleSince := some ended } s) := by
      rw [hc, hbad, hlooked, if_neg (by rw [hl]; nofun), ← hended]
      rfl
    exact exec_lined hs hexec
  · obtain ⟨bytes, rfl⟩ := hc
    have hexec : exec (.frameReceived bytes) s =
        done (lined { s.line with idleSince := some s.clock } s) := by
      rw [hreceived, hlooked, if_neg (by rw [hl]; nofun), lineIdle_zero]
    exact exec_lined hs hexec

/-! ## Receipts driven (R60, R70) -/

theorem stopReceipt_eq (s : State) :
    stopReceipt s = lined { s.line with driving := none, idleSince := some s.clock } s := by
  simp only [stopReceipt, lineIdle, earlier_zero, lined]

/-- Settles O29: each event writes the line alone. -/
theorem receiptsAreDriven : Obligations.ReceiptsAreDriven := by
  intro s hs
  refine ⟨fun o i hlistening howed hi hidle => ?_, fun hdriving c hc => ?_⟩
  · have hexec : exec .receiptStart s =
        if isListening s = true ∧ idleFor s 2 = true then
          done (lined
            { s.line with
              owed := none, idleSince := none
              driving := some (frameBytes (receiptFrame s o)) } s)
        else noEvent s := by
      simp only [exec, execReceiptStart, howed]
      rfl
    rw [if_pos ⟨hlistening, (idleFor_iff hi 2).2 hidle⟩] at hexec
    exact exec_lined hs hexec
  · have hexec : exec c s = done (stopReceipt s) := by
      obtain rfl | rfl := hc
      · exact if_pos hdriving
      · exact if_pos hdriving
    rw [stopReceipt_eq] at hexec
    exact exec_lined hs hexec

end Sys2Proof.Proofs
end

