-- ==== Sys2Proof/Proofs/FormatChecks.lean ====
section
/-! PROOFS. The format checks of R71: what a field or a body that reads must be like, so that a frame with
a field outside its range reads as none. -/

namespace Sys2Proof.Proofs

open Sys2Proof Sys2Proof.Machine

/-! ## Fields that read -/

theorem stationOfNumber_range {n : Nat} {k : Station} (h : stationOfNumber n = some k) :
    1 ≤ n ∧ n ≤ 8 := by
  unfold stationOfNumber at h
  split at h
  all_goals first | (constructor <;> decide) | cases h

theorem laneOfNumber_range {n : Nat} {l : Lane} (h : laneOfNumber n = some l) : 1 ≤ n ∧ n ≤ 4 := by
  have hn := laneOfNumber_val n l h
  omega

theorem readTag_range {a b : Byte} {t : Tag} (h : readTag a b = some t) :
    1 ≤ a.toNat / 16 ∧ a.toNat / 16 ≤ 8 := by
  obtain ⟨k, hk, -⟩ := Option.map_eq_some_iff.1 h
  have hb := b.isLt
  have hdiv : read2 a b / 4096 = a.toNat / 16 := by
    unfold read2
    omega
  rw [hdiv] at hk
  exact stationOfNumber_range hk

theorem readLanes_range {b : Byte} {x : Lane × Option Lane} (h : readLanes b = some x) :
    1 ≤ b.toNat % 8 ∧ b.toNat % 8 ≤ 4 ∧ b.toNat / 16 % 8 ≤ 4 ∧ b.toNat / 16 % 8 ≠ b.toNat % 8 := by
  unfold readLanes at h
  cases hl : laneOfNumber (b.toNat % 8) with
  | none => rw [hl] at h; cases h
  | some l =>
    obtain ⟨h1, h4⟩ := laneOfNumber_range hl
    rw [hl] at h
    dsimp only at h
    split at h
    next h0 => omega
    · cases hp : laneOfNumber (b.toNat / 16 % 8) with
      | none => rw [hp] at h; cases h
      | some p =>
        rw [hp] at h
        dsimp only at h
        have hp4 := (laneOfNumber_range hp).2
        split at h
        · cases h
        next hne =>
          refine ⟨h1, h4, hp4, fun e => hne ?_⟩
          rw [e, hl] at hp
          exact (Option.some.inj hp).symm

theorem readLoads_range {l : List Byte} {xs : List (Option Nat)} (h : readLoads l = some xs) (i : Nat) :
    2 * i + 1 < l.length →
      (l.getD (2 * i) 0).toNat * 256 + (l.getD (2 * i + 1) 0).toNat ≤ 6000 ∨
        (l.getD (2 * i) 0).toNat * 256 + (l.getD (2 * i + 1) 0).toNat = 65535 := by
  induction l using readLoads.induct generalizing xs i with
  | case1 a b rest hnone _ =>
    simp only [readLoads, hnone] at h
    cases h
  | case2 a b rest tail htail hfull ih =>
    intro hi
    cases i with
    | zero => exact .inr hfull
    | succ i => exact ih htail i (by simp only [List.length_cons] at hi; omega)
  | case3 a b rest tail htail hfull hle ih =>
    intro hi
    cases i with
    | zero => exact .inl hle
    | succ i => exact ih htail i (by simp only [List.length_cons] at hi; omega)
  | case4 a b rest tail htail hfull hle =>
    simp only [readLoads, htail, hfull, hle, if_false] at h
    cases h
  | case5 l hl =>
    intro hi
    match l, hl, hi with
    | a :: b :: rest, hl, _ => exact absurd rfl (hl a b rest)

/-! ## Bodies that read -/

/-- Byte `i` of a body, as a number. -/
def byteAt (l : List Byte) (i : Nat) : Nat := (l.getD i 0).toNat

/-- The number two bytes of a body hold. -/
def twoAt (l : List Byte) (i : Nat) : Nat := byteAt l i * 256 + byteAt l (i + 1)

/-- The number three bytes of a body hold. -/
def threeAt (l : List Byte) (i : Nat) : Nat := twoAt l i * 256 + byteAt l (i + 2)

/-- The tag field of a body is in range. -/
def tagReads (l : List Byte) : Prop := 1 ≤ byteAt l 0 / 16 ∧ byteAt l 0 / 16 ≤ 8

theorem readEntered_range {l : List Byte} {b : Body} (h : readBody 0x11 l = some b) :
    l.length = 11 ∧ tagReads l ∧ 1 ≤ byteAt l 2 ∧ byteAt l 2 ≤ 4 ∧ threeAt l 6 ≤ 72000 := by
  simp only [readBody] at h
  rw [if_neg (by decide), if_pos (by decide)] at h
  split at h
  next t1 t0 ln w2 w1 w0 g2 g1 g0 a1 a0 =>
    split at h
    next t l ht hl =>
      obtain ⟨h1, h4⟩ := laneOfNumber_range hl
      split at h
      next hg => exact ⟨rfl, readTag_range ht, h1, h4, hg⟩
      · cases h
    · cases h
  · cases h

theorem readLeft_range {l : List Byte} {b : Body} (h : readBody 0x12 l = some b) :
    l.length = 4 ∧ tagReads l := by
  simp only [readBody] at h
  rw [if_neg (by decide), if_neg (by decide), if_pos (by decide)] at h
  split at h
  next t1 t0 a1 a0 =>
    obtain ⟨t, ht, -⟩ := Option.map_eq_some_iff.1 h
    exact ⟨rfl, readTag_range ht⟩
  · cases h

theorem causeOfCode_range {n : Nat} {c : ResetCause} (h : causeOfCode n = some c) : n ≤ 3 := by
  unfold causeOfCode at h
  split at h
  all_goals first | decide | cases h

theorem postureOfCode_range {n : Nat} {p : Posture} (h : postureOfCode n = some p) : n ≤ 3 := by
  unfold postureOfCode at h
  split at h
  all_goals first | decide | cases h

theorem readBeacon_range {l : List Byte} {b : BeaconBody} (h : readBeacon l = some b) :
    l.length = 9 ∧ byteAt l 1 ≤ 3 ∧ byteAt l 2 % 4 ≠ 3 ∧ 1 ≤ byteAt l 5 ∧ byteAt l 5 ≤ 4 ∧
      byteAt l 7 ≤ 3 := by
  have hroles : ∀ x : Byte, ¬(bitOf x 0 = true ∧ bitOf x 1 = true) → x.toNat % 4 ≠ 3 := by decide
  delta readBeacon at h
  split at h
  next rc ca ro c1 c0 lc bl po fl =>
    split at h
    next cause posture hcause hposture =>
      split at h
      next hc =>
        obtain ⟨h1, h4, hne⟩ := hc
        exact ⟨rfl, causeOfCode_range hcause, hroles ro hne, h1, h4, postureOfCode_range hposture⟩
      · cases h
    · cases h
  · cases h

theorem readWeighing_range {l : List Byte} {x : WeighingBody × Nat} (h : readWeighing l = some x) :
    l.length = 16 + 3 * byteAt l 7 ∧ 1 ≤ byteAt l 7 ∧ byteAt l 7 ≤ 12 ∧ tagReads l ∧
      1 ≤ byteAt l 2 % 8 ∧ byteAt l 2 % 8 ≤ 4 ∧ byteAt l 2 / 16 % 8 ≤ 4 ∧
      byteAt l 2 / 16 % 8 ≠ byteAt l 2 % 8 ∧
      (twoAt l 5 = 0 ∨ 50 ≤ twoAt l 5 ∧ twoAt l 5 ≤ 4000) ∧ threeAt l 9 ≤ 72000 ∧
      threeAt l 13 ≤ 72000 ∧
      ∀ i, i < byteAt l 7 → twoAt l (16 + byteAt l 7 + 2 * i) ≤ 6000 ∨
        twoAt l (16 + byteAt l 7 + 2 * i) = 65535 := by
  delta readWeighing at h
  split at h
  next t1 t0 ln a1 a0 s1 s0 n fl g2 g1 g0 cv e2 e1 e0 ed rest =>
    split at h
    next tag lane partner loads htag hlanes hloads =>
      split at h
      next hc =>
        obtain ⟨h1, h12, hlength, hspeed, hown, heff⟩ := hc
        obtain ⟨hl1, hl4, hp4, hne⟩ := readLanes_range hlanes
        refine ⟨hlength, h1, h12, readTag_range htag, hl1, hl4, hp4, hne, hspeed, hown, heff,
          fun i hi => ?_⟩
        have hrest : rest.length + 1 = 3 * n.toNat := by
          simp only [List.length_cons] at hlength
          omega
        have hlen : 2 * i + 1 < (rest.drop (n.toNat - 1)).length := by
          rw [List.length_drop]
          have hin : i < n.toNat := hi
          omega
        have hget (j : Nat) : (rest.drop (n.toNat - 1)).getD j 0 =
            (t1 :: t0 :: ln :: a1 :: a0 :: s1 :: s0 :: n :: fl :: g2 :: g1 :: g0 :: cv :: e2 :: e1 ::
              e0 :: ed :: rest).getD (16 + n.toNat + j) 0 := by
          have hj : 16 + n.toNat + j = (n.toNat - 1 + j) + 17 := by omega
          rw [hj]
          simp only [List.getD_eq_getElem?_getD, List.getElem?_drop, List.getElem?_cons_succ]
        have hrange := readLoads_range hloads i hlen
        rw [hget, hget] at hrange
        exact hrange
      · cases h
    · cases h
  · cases h

/-! ## The checks -/

theorem readBody_kind {k : Nat} {l : List Byte} {b : Body} (h : readBody k l = some b) :
    k ∈ [0x01, 0x11, 0x12, 0x21, 0x22, 0x31] := by
  by_contra hk
  simp only [List.mem_cons, List.not_mem_nil, or_false, not_or] at hk
  obtain ⟨h1, h2, h3, h4, h5, h6⟩ := hk
  simp only [readBody, h1, h2, h3, h4, h5, h6, if_false] at h
  cases h

theorem readReceipt_range {l : List Byte} {b : Body} (h : readBody 0x01 l = some b) : l.length = 3 := by
  simp only [readBody] at h
  rw [if_pos (by decide)] at h
  split at h
  · rfl
  · cases h

theorem readWeighing_of_readBody {k : Nat} {l : List Byte} {b : Body} (hk : k = 0x21 ∨ k = 0x22)
    (h : readBody k l = some b) : ∃ x, readWeighing l = some x := by
  obtain rfl | rfl := hk
  · obtain ⟨x, hx, -⟩ := Option.map_eq_some_iff.1 h
    exact ⟨x, hx⟩
  · obtain ⟨x, hx, -⟩ := Option.map_eq_some_iff.1 h
    exact ⟨x, hx⟩

theorem readBeacon_of_readBody {l : List Byte} {b : Body} (h : readBody 0x31 l = some b) :
    ∃ x, readBeacon l = some x := by
  obtain ⟨x, hx, -⟩ := Option.map_eq_some_iff.1 h
  exact ⟨x, hx⟩

theorem readReceiptFrom_range {k : Nat} {b : Byte} {x : Option Station}
    (h : readReceiptFrom k b = some x) : b.toNat ≤ 8 ∧ ((k = 0x01 ∨ k = 0x31) → b = 0) := by
  unfold readReceiptFrom at h
  split at h
  next h0 => exact ⟨by rw [h0]; decide, fun _ => h0⟩
  · split at h
    · cases h
    next hk =>
      obtain ⟨j, hj, -⟩ := Option.map_eq_some_iff.1 h
      exact ⟨(stationOfNumber_range hj).2, fun e => absurd e hk⟩

/-- R71 step 1: a frame that passes its format checks has none of the faults they look for. -/
theorem checkFormat_eq_none {r : RawFrame} (h : formatFails r) : checkFormat r = none := by
  unfold formatFails at h
  dsimp only at h
  unfold checkFormat
  split
  next k rf b hsender hfrom hbody =>
    exfalso
    obtain ⟨hs1, hs8⟩ := stationOfNumber_range hsender
    obtain ⟨hf8, hf0⟩ := readReceiptFrom_range hfrom
    obtain hkind | hlow | hhigh | hfar | ⟨hk, hne⟩ | ⟨hk, hlen⟩ | ⟨hk, hbad⟩ | ⟨hk, hbad⟩ |
      ⟨hk, hbad⟩ | ⟨hk, hbad⟩ := h
    · exact hkind (readBody_kind hbody)
    · omega
    · omega
    · omega
    · exact hne (hf0 hk)
    · rw [hk] at hbody
      exact hlen (readReceipt_range hbody)
    · rw [hk] at hbody
      obtain ⟨hl, ht, h1, h4, hg⟩ := readEntered_range hbody
      simp only [tagReads, threeAt, twoAt, byteAt] at ht h1 h4 hg
      omega
    · rw [hk] at hbody
      obtain ⟨hl, ht⟩ := readLeft_range hbody
      simp only [tagReads, byteAt] at ht
      omega
    · rw [hk] at hbody
      obtain ⟨x, hx⟩ := readBeacon_of_readBody hbody
      obtain ⟨hl, hc, hro, hlc1, hlc4, hp⟩ := readBeacon_range hx
      simp only [byteAt] at hc hro hlc1 hlc4 hp
      omega
    · obtain ⟨x, hx⟩ := readWeighing_of_readBody hk hbody
      obtain ⟨hl, hn1, hn12, ht, h1, h4, hp, hne, hs, hown, heff, hloads⟩ := readWeighing_range hx
      simp only [tagReads, threeAt, twoAt, byteAt] at hl hn1 hn12 ht h1 h4 hp hne hs hown heff hloads
      obtain hb | hb | hb | hb | hb | hb | hb | hb | hb | hb | hb | ⟨i, hi, hbig, hodd⟩ := hbad
      case inr.inr.inr.inr.inr.inr.inr.inr.inr.inr.inr =>
        obtain hle | he := hloads i hi
        · omega
        · exact hodd he
      all_goals omega
  · rfl

end Sys2Proof.Proofs
end

