-- ==== Sys2Proof/Proofs/ReceivedFrames.lean ====
section
/-! PROOFS. FRAME_RECEIVED (R56, R68, R71 to R74): receipts, stored frames and duplicates, missed frames,
frames that fail a format check and frames that bear the own number. -/

namespace Sys2Proof.Proofs

open Sys2Proof Sys2Proof.Machine

/-! ## What arrives -/

/-- R56: the busy period has ended. -/
def busyEnded (s : State) : State := lined { s.line with idleSince := some s.clock } s

theorem busyEnded_touches (s : State) : changesOnly [.line] s (busyEnded s) := lined_touches _ s

theorem exec_frameReceived {s : State} (hl : isListening s = true) (hf : looksForFrame s = true)
    (bytes : List Byte) : exec (.frameReceived bytes) s = done (receiveBytes bytes s) := by
  refine (if_pos hl).trans ?_
  rw [hf]
  rfl

/-- R71: a frame in range is read as itself and goes on. -/
theorem exec_frameReceived_frame {s : State} (hl : isListening s = true)
    (hf : looksForFrame s = true) {f : Frame} (h : frameInRange f = true) :
    exec (.frameReceived (frameBytes f)) s = done (routeFrame f (busyEnded s)) := by
  rw [exec_frameReceived hl hf, receiveBytes, readFrame_frameBytes (readBody_bodyBytes h).2]
  dsimp only
  rw [checkFormat_rawOf h, lineIdle_zero]
  rfl

/-! ## Receipts (R68) -/

theorem byte_eq_iff {x : Byte} {n : Nat} (h : n < 256) : x = byte n ↔ x.toNat = n := by
  refine ⟨fun e => by rw [e, toNat_byte_of_lt h], fun e => ?_⟩
  apply BitVec.eq_of_toNat_eq
  rw [e, toNat_byte_of_lt h]

theorem notice_kind_lt (n : Notice) : n.kind < 256 := by cases n <;> simp [Notice.kind]

theorem receiptFits_iff {s : State} {f : Flight} {k : Station} {x y z : Byte} :
    receiptFits s f k x y z = true ↔
      f.receiptFrom = some k ∧ x.toNat = stationNumber s.cfg.station ∧ y = f.sequence ∧
        z.toNat = f.notice.kind := by
  have hs := (stationNumber_range s.cfg.station).2
  simp only [receiptFits, Bool.and_eq_true, decide_eq_true_eq, byte_eq_iff (notice_kind_lt _),
    byte_eq_iff (show stationNumber s.cfg.station < 256 by omega), and_assoc]

/-- R68: the frame in flight is delivered. -/
def flightDelivered (k : Station) (s : State) : State :=
  finishFlight (countLine (fun c => { c with delivered := c.delivered + 1 }) (receiptedBy k s))

theorem takeReceipt_of_fits {s : State} {k : Station} {x y z : Byte} {w : Clock} {f : Flight}
    (hw : s.line.transmit = .awaiting w) (hf : s.line.flight = some f)
    (h : receiptFits s f k x y z = true) : takeReceipt k x y z s = flightDelivered k s := by
  simp only [takeReceipt, hw, hf, h, if_true, flightDelivered]

theorem takeReceipt_of_other {s : State} {k : Station} {x y z : Byte}
    (h : ∀ w f, s.line.transmit = .awaiting w → s.line.flight = some f →
      ¬receiptFits s f k x y z = true) : takeReceipt k x y z s = s := by
  unfold takeReceipt
  split
  next w f hw hf => exact if_neg (h w f hw hf)
  · rfl

theorem flightDelivered_eq (k : Station) (s : State) :
    flightDelivered k s =
      lined { lineFreed s with
              counts := { s.line.counts with delivered := s.line.counts.delivered + 1 } }
        (receiptedBy k s) := by
  have hfreed := lineFreed_counts { s.line.counts with delivered := s.line.counts.delivered + 1 } s
  rw [flightDelivered, finishFlight_eq, ← hfreed]
  rfl

/-- Settles O28: by whether a frame awaits this very receipt. -/
theorem validReceiptDelivers : Obligations.ValidReceiptDelivers := by
  intro s k x y z q hs hl hf hk fits
  have hrange : frameInRange { sender := k, sequence := q, receiptFrom := none
                               body := .receipt x y z } = true := rfl
  have hexec := exec_frameReceived_frame hl hf hrange
  have hroute : routeFrame { sender := k, sequence := q, receiptFrom := none, body := .receipt x y z }
      (busyEnded s) = takeReceipt k x y z (busyEnded s) := if_neg hk
  have hfits (f : Flight) : receiptFits (busyEnded s) f k x y z = true ↔ fits f := receiptFits_iff
  rw [hroute] at hexec
  by_cases hany : ∃ w f, s.line.transmit = .awaiting w ∧ s.line.flight = some f ∧ fits f
  · obtain ⟨w, f, hw, hflight, hfit⟩ := hany
    have hfreed := lineFreed_idleSince (some s.clock) s
    change lineFreed (busyEnded s) = _ at hfreed
    rw [takeReceipt_of_fits (s := busyEnded s) hw hflight ((hfits f).2 hfit), flightDelivered_eq,
      hfreed] at hexec
    have htouch : changesOnly [.line, .peers] s (lined
        { lineFreed s with
          idleSince := some s.clock
          counts := { s.line.counts with delivered := s.line.counts.delivered + 1 } }
        (receiptedBy k (busyEnded s))) :=
      changesOnly_trans (changesOnly_append (busyEnded_touches s) (touches_peers _ _))
        (changesOnly_mono (lined_touches _ _) (by simp))
    refine ⟨_, hexec.trans (done_quietPeers hs htouch rfl), fun _ _ _ _ _ => ⟨rfl, ?_, fun j hj => ?_,
      rfl, htouch⟩, fun hnone => absurd hfit (hnone w f hw hflight)⟩
    · exact rowOf_setRow_self k _ (busyEnded s)
    · exact rowOf_setRow_ne _ (busyEnded s) hj
  · have hnone (w : Clock) (f : Flight) (hw : s.line.transmit = .awaiting w)
        (hflight : s.line.flight = some f) : ¬fits f := fun hfit => hany ⟨w, f, hw, hflight, hfit⟩
    rw [takeReceipt_of_other (s := busyEnded s)
      fun w f hw hflight => mt (hfits f).1 (hnone w f hw hflight)] at hexec
    exact ⟨_, hexec.trans (done_lined hs _),
      fun w f hw hflight hfit => absurd hfit (hnone w f hw hflight), fun _ => ⟨rfl, busyEnded_touches s⟩⟩

/-! ## Other frames (R71 to R74) -/

theorem routeFrame_of_notice {f : Frame} {s : State} (hsender : f.sender ≠ s.cfg.station)
    (hkind : f.body.kind ≠ 1) :
    routeFrame f s =
      if (rowOf s f.sender).lastSequence = some f.sequence then
        oweReceipt f (countLine (fun c => { c with duplicates := c.duplicates + 1 }) s)
      else storeFrame f s := by
  rw [routeFrame, if_neg hsender]
  cases hb : f.body with
  | receipt x y z => exact absurd (congrArg Body.kind hb) hkind
  | entered t l w g age => rfl
  | left t age => rfl
  | vehicle b age => rfl
  | sighting b age => rfl
  | beacon b => rfl

/-- R60, R73: the receipt owed once a frame has been taken. -/
def owedAfter (f : Frame) (s : State) : Option OwedReceipt :=
  if f.receiptFrom = some s.cfg.station then some (owedFor f) else s.line.owed

theorem oweReceipt_eq (f : Frame) (s : State) :
    oweReceipt f s = lined { s.line with owed := owedAfter f s } s := by
  unfold oweReceipt owedAfter
  split <;> rfl

/-- R73: a duplicate is counted. -/
def duplicateTaken (f : Frame) (s : State) : State :=
  lined
    { s.line with
      counts := { s.line.counts with duplicates := s.line.counts.duplicates + 1 }
      owed := owedAfter f s } s

/-- R74: a frame is stored in a free slot. -/
def frameStored (f : Frame) (s : State) : State :=
  lined
    { s.line with
      slots := s.line.slots ++ [{ frame := f, arrival := s.clock }], owed := owedAfter f s }
    (setRow f.sender { rowOf s f.sender with lastSequence := some f.sequence } s)

/-- R74: with both slots full a frame is missed. -/
def frameMissed (s : State) : State :=
  lined { s.line with counts := { s.line.counts with misses := s.line.counts.misses + 1 } } s

theorem duplicate_taken (f : Frame) (s : State) :
    oweReceipt f (countLine (fun c => { c with duplicates := c.duplicates + 1 }) s) =
      duplicateTaken f s := oweReceipt_eq _ _

theorem storeFrame_of_room {f : Frame} {s : State} (h : s.line.slots.length < 2) :
    storeFrame f s = frameStored f s := (if_pos h).trans (oweReceipt_eq _ _)

theorem storeFrame_of_full {f : Frame} {s : State} (h : 2 ≤ s.line.slots.length) :
    storeFrame f s = raise .rxMiss (frameMissed s) := if_neg (by omega)

theorem frameStored_touches (f : Frame) (s : State) :
    changesOnly [.line, .peers] s (frameStored f s) :=
  changesOnly_trans (changesOnly_mono (touches_peers s _) (by simp))
    (changesOnly_mono (lined_touches _ _) (by simp))

/-- A frame of another station in range, from its arrival to the settled state, by what becomes of it. -/
theorem frameReceived_taken {s : State} {f : Frame} (hs : settled s = true) (hl : isListening s = true)
    (hf : looksForFrame s = true) (h : frameInRange f = true) (hsender : f.sender ≠ s.cfg.station)
    (hkind : f.body.kind ≠ 1) :
    ((rowOf s f.sender).lastSequence = some f.sequence →
      exec (.frameReceived (frameBytes f)) s = .next (duplicateTaken f (busyEnded s))) ∧
    ((rowOf s f.sender).lastSequence ≠ some f.sequence → s.line.slots.length < 2 →
      exec (.frameReceived (frameBytes f)) s = .next (frameStored f (busyEnded s))) ∧
    ((rowOf s f.sender).lastSequence ≠ some f.sequence → 2 ≤ s.line.slots.length →
      exec (.frameReceived (frameBytes f)) s =
        .next (driveAlertLines (raise .rxMiss (frameMissed (busyEnded s))))) := by
  have hexec := exec_frameReceived_frame hl hf h
  rw [routeFrame_of_notice (s := busyEnded s) hsender hkind] at hexec
  have hrow : rowOf (busyEnded s) f.sender = rowOf s f.sender := rfl
  rw [hrow] at hexec
  refine ⟨fun hsame => ?_, fun hnew hroom => ?_, fun hnew hfull => ?_⟩
  · rw [if_pos hsame, duplicate_taken] at hexec
    exact hexec.trans (done_quiet hs (changesOnly_trans (busyEnded_touches s) (lined_touches _ _)))
  · rw [if_neg hnew, storeFrame_of_room (s := busyEnded s) hroom] at hexec
    have htouch : changesOnly [.line, .peers] s (frameStored f (busyEnded s)) :=
      changesOnly_trans (changesOnly_mono (busyEnded_touches s) (by simp)) (frameStored_touches f _)
    exact hexec.trans (done_quietPeers hs htouch rfl)
  · rw [if_neg hnew, storeFrame_of_full (s := busyEnded s) hfull] at hexec
    have htouch : changesOnly [.line] s (frameMissed (busyEnded s)) :=
      changesOnly_trans (busyEnded_touches s) (lined_touches _ _)
    exact hexec.trans (done_raised hs htouch rfl rfl rfl)

/-- Settles O27: by what becomes of a frame, a failed check, and the own number. -/
theorem framesAreStoredOrCounted : Obligations.FramesAreStoredOrCounted := by
  refine ⟨fun s f hs hl hf h hsender hkind => ?_, fun s bytes raw hs hl hf hread hfails => ?_,
    fun s f hs hl hf h hsender => ?_⟩
  · obtain ⟨hdup, hstored, hmissed⟩ := frameReceived_taken hs hl hf h hsender hkind
    have hw : working s = true := (isListening_iff.1 hl).1
    by_cases hsame : (rowOf s f.sender).lastSequence = some f.sequence
    · exact ⟨_, hdup hsame, rfl, rfl, rfl, rfl, rfl, rfl, fun _ _ => rfl, rfl,
        fun _ => ⟨rfl, rfl, rfl, rfl, rfl⟩, fun hnew => absurd hsame hnew, fun hnew => absurd hsame hnew,
        changesOnly_mono (changesOnly_trans (busyEnded_touches s) (lined_touches _ _)) (by simp)⟩
    · by_cases hroom : s.line.slots.length < 2
      · have htouch : changesOnly [.line, .peers] s (frameStored f (busyEnded s)) :=
          changesOnly_trans (changesOnly_mono (busyEnded_touches s) (by simp)) (frameStored_touches f _)
        exact ⟨_, hstored hsame hroom, rfl, rfl, rfl, rfl, rfl, rfl,
          fun j hj => rowOf_setRow_ne _ (busyEnded s) hj, rfl, fun e => absurd e hsame,
          fun _ _ => ⟨rfl, rfl, rowOf_setRow_self _ _ (busyEnded s), rfl, rfl⟩, fun _ hfull => by omega,
          changesOnly_mono htouch (by simp)⟩
      · have hline : (driveAlertLines (raise .rxMiss (frameMissed (busyEnded s)))).line =
            (frameMissed (busyEnded s)).line := raise_line _ _
        have hpeers : (driveAlertLines (raise .rxMiss (frameMissed (busyEnded s)))).peers = s.peers :=
          raise_peers _ _
        have hrow (j : Station) :
            rowOf (driveAlertLines (raise .rxMiss (frameMissed (busyEnded s)))) j = rowOf s j := by
          simp only [rowOf, hpeers]
        have hself := alertOf_raise_self (s := frameMissed (busyEnded s)) hw .rxMiss
        have htouch := changesOnly_trans (changesOnly_append
          (changesOnly_trans (busyEnded_touches s) (lined_touches _ _))
          (raise_touches .rxMiss (frameMissed (busyEnded s))))
          (changesOnly_mono (driveAlertLines_touches _) (by simp))
        exact ⟨_, hmissed hsame (by omega), by rw [hline]; rfl, by rw [hline]; rfl, by rw [hline]; rfl,
          by rw [hline]; rfl, by rw [hline]; rfl, by rw [hline]; rfl, fun j _ => hrow j,
          by rw [hpeers], fun e => absurd e hsame, fun _ h => absurd h hroom,
          fun _ _ => ⟨by rw [hline]; rfl, by rw [hline]; rfl, hrow _, by rw [hline]; rfl,
            congrArg AlertState.sticky hself, congrArg AlertState.count hself,
            fun y hy => alertOf_raise_ne _ hy⟩, changesOnly_mono htouch (by simp)⟩
  · have hexec := exec_frameReceived hl hf bytes
    rw [receiveBytes, hread] at hexec
    dsimp only at hexec
    rw [checkFormat_eq_none hfails, lineIdle_zero] at hexec
    exact exec_lined hs hexec
  · have hw : working s = true := (isListening_iff.1 hl).1
    have hexec := exec_frameReceived_frame hl hf h
    rw [routeFrame, if_pos (show f.sender = (busyEnded s).cfg.station from hsender), done_raised hs (busyEnded_touches s) rfl rfl rfl] at hexec
    have hself := alertOf_raise_self (s := busyEnded s) hw .duplicateNumber
    exact ⟨_, hexec, raise_line _ _, congrArg AlertState.sticky hself, congrArg AlertState.count hself,
      fun y hy => alertOf_raise_ne _ hy, changesOnly_mono (changesOnly_trans (changesOnly_append
        (busyEnded_touches s) (raise_touches _ _)) (changesOnly_mono (driveAlertLines_touches _) (by simp)))
        (by simp)⟩

end Sys2Proof.Proofs
end

