-- ==== Sys2Proof/Proofs/SettleFrames.lean ====
section
/-! PROOFS. What `settle` leaves of a state that agrees with a settled one on start-up state,
configuration, strip health, signs and lamps: lanes, signs, lamps and alert sources one by one. -/

namespace Sys2Proof.Proofs

open Sys2Proof Sys2Proof.Machine

/-! ## Alert sources -/

/-- Driving signs, aspects and outputs changes no raw state. -/
theorem rawState_driven (u : State) (y : AlertSource) :
    rawState (driveLamps (driveAspects (driveSigns u))) y = rawState u y := by
  have hlatch (o : Output) :
      ((driveLamps (driveAspects (driveSigns u))).lamps.outputs.at o).latch =
        (u.lamps.outputs.at o).latch := by
    change (outputOf (driveLamps (driveAspects (driveSigns u))) o).latch = (outputOf u o).latch
    rw [outputs_driveLamps]
    refine (followDrive_kept _ _ _ _).2.2.1.trans ?_
    simp [outputOf]
  have hspan : (driveLamps (driveAspects (driveSigns u))).entry.span = u.entry.span := by
    rw [driveLamps_entry, driveAspects_eq]
    rfl
  have hcfg : (driveLamps (driveAspects (driveSigns u))).cfg = u.cfg := by simp
  have hhealth : (driveLamps (driveAspects (driveSigns u))).health = u.health := by simp
  have hlanes : lanesInUse (driveLamps (driveAspects (driveSigns u))) = lanesInUse u := by
    unfold lanesInUse
    congr 1
    exact funext fun l => laneInUse_congr hcfg l
  cases y
  case lampFault => simp only [rawState, hlatch]
  case laneSingle => simp only [rawState, hlanes, laneMode_congr hhealth]
  case laneBlind =>
    have hblind : laneBlind (driveLamps (driveAspects (driveSigns u))) = laneBlind u :=
      funext fun l => laneBlind_congr hcfg hhealth l
    simp only [rawState, hlanes, hblind]
  case spanOverdue => simp only [rawState, hspan]
  case posture => simp only [rawState, driveLamps_peers, driveAspects_peers, driveSigns_peers]
  case tempInvalid => simp only [rawState, driveLamps_probe, driveAspects_probe, driveSigns_probe]
  case health => simp only [rawState, hhealth, healthOf]
  all_goals rfl

theorem sourceIndex_surjective (i : Fin 24) : ∃ y, sourceIndex y = i := by
  have hall : ∀ i : Fin 24, ∃ y ∈ allSources, sourceIndex y = i := by decide
  obtain ⟨y, -, hy⟩ := hall i
  exact ⟨y, hy⟩

theorem alertOf_foldl_takeRaw (l : List AlertSource) {s : State} {y : AlertSource}
    (h : (alertOf s y).remembered = rawState s y) :
    alertOf (l.foldl takeRaw s) y = alertOf s y := by
  induction l generalizing s with
  | nil => rfl
  | cons x l ih =>
    have hx : alertOf (takeRaw s x) y = alertOf s y := by
      by_cases hyx : y = x
      · rw [takeRaw_id (hyx ▸ h)]
      · exact takeRaw_alertOf_ne s hyx
    rw [List.foldl_cons, ih (by rw [hx, rawState_takeRaw, h]), hx]

/-- A source whose raw state is the remembered one is not touched by `settle`. -/
theorem alertOf_settle_taken {u : State} {y : AlertSource}
    (h : (alertOf u y).remembered = rawState u y) : alertOf (settle u) y = alertOf u y := by
  have hsame : alertOf (driveLamps (driveAspects (driveSigns u))) y = alertOf u y := by simp [alertOf]
  unfold settle
  rw [alertOf_driveAlertLines, takeConditions]
  split
  · rw [alertOf_foldl_takeRaw _ (by rw [hsame, rawState_driven, h]), hsame]
  · exact hsame

/-- Outside JOINING and RUNNING the unit takes nothing. -/
theorem alertOf_settle_idle {u : State} (h : working u = false) (y : AlertSource) :
    alertOf (settle u) y = alertOf u y := by
  have hw : working (driveLamps (driveAspects (driveSigns u))) = false :=
    (working_congr (by simp)).trans h
  have hsame : alertOf (driveLamps (driveAspects (driveSigns u))) y = alertOf u y := by simp [alertOf]
  unfold settle
  rw [alertOf_driveAlertLines, takeConditions, if_neg (by rw [hw]; exact Bool.false_ne_true), hsame]

/-- A source that stands as in a settled state, with its raw state as it was there, stays. -/
theorem alertOf_settle_same {s u : State} (hs : settled s = true) (hstart : u.startup = s.startup)
    {y : AlertSource} (ha : alertOf u y = alertOf s y) (hraw : rawState u y = rawState s y) :
    alertOf (settle u) y = alertOf s y := by
  rw [← ha]
  cases hy : isCondition y with
  | false => exact alertOf_settle_event u hy
  | true =>
    cases hw : working u with
    | false => exact alertOf_settle_idle hw y
    | true =>
      have hws : working s = true := (working_congr hstart).symm.trans hw
      exact alertOf_settle_taken (by rw [ha, hraw, remembered_of_settled hs hws hy])

theorem rawState_settle (u : State) (y : AlertSource) : rawState (settle u) y = rawState u y := by
  rw [← rawState_driven u y]
  obtain ⟨v, hv, -⟩ := settle_parts u
  rw [hv]
  exact rawState_congr (s := driveLamps (driveAspects (driveSigns u))) rfl rfl rfl rfl rfl rfl y

/-- With every source and raw state as in a settled state the alert unit is as it was. -/
theorem settle_alerts_same {s u : State} (hs : settled s = true) (hstart : u.startup = s.startup)
    (hcfg : u.cfg = s.cfg) (ha : u.alerts = s.alerts) (hraw : ∀ y, rawState u y = rawState s y) :
    (settle u).alerts = s.alerts := by
  have hsources : (settle u).alerts.sources = s.alerts.sources := by
    refine Tab.ext_at fun i => ?_
    obtain ⟨y, rfl⟩ := sourceIndex_surjective i
    exact alertOf_settle_same hs hstart (alertOf_congr ha y) (hraw y)
  have hactive (y : AlertSource) : isActive (settle u) y = isActive s y := by
    have hc : (settle u).cfg = s.cfg := (settle_cfg u).trans hcfg
    simp only [isActive, alertConfig_congr hc, rawState_settle, hraw, alertOf, hsources]
  have hwanted (m : AlertConfig → Bool) : lineWanted (settle u) m = lineWanted s m := by
    have hc : (settle u).cfg = s.cfg := (settle_cfg u).trans hcfg
    simp only [lineWanted, anyActive, hactive, alertConfig_congr hc, settle_startup, hstart]
  obtain ⟨-, -, -, -, hlines⟩ := settled_parts.1 hs
  obtain ⟨hA, hB⟩ := alertLinesFollow_iff.1 hlines
  have hdriven (m : AlertConfig → Bool) (w : State) :
      lineWanted (driveAlertLines w) m = lineWanted w m :=
    lineWanted_congr (s := w) rfl rfl rfl rfl rfl rfl rfl rfl m
  have hlineA : (settle u).alerts.lineA = s.alerts.lineA := by
    rw [hA, ← hwanted]
    exact (hdriven _ (takeConditions (driveLamps (driveAspects (driveSigns u))))).symm
  have hlineB : (settle u).alerts.lineB = s.alerts.lineB := by
    rw [hB, ← hwanted]
    exact (hdriven _ (takeConditions (driveLamps (driveAspects (driveSigns u))))).symm
  calc (settle u).alerts
      = ⟨(settle u).alerts.sources, (settle u).alerts.lineA, (settle u).alerts.lineB⟩ := rfl
    _ = s.alerts := by rw [hsources, hlineA, hlineB]

/-! ## Lanes, signs and lamps -/

/-- The states agree on start-up state, configuration, strip health, signs and lamps. -/
structure SameBlocks (s u : State) : Prop where
  startup : u.startup = s.startup
  cfg : u.cfg = s.cfg
  health : u.health = s.health
  signs : u.signs = s.signs
  lamps : u.lamps = s.lamps

theorem sameBlocks_of_touches {bs : List Block} {s u : State} (h : changesOnly bs s u)
    (hb : ∀ b ∈ [Block.startup, .cfg, .health, .signs, .lamps], b ∉ bs := by decide) : SameBlocks s u :=
  ⟨h .startup (hb _ (by simp)), h .cfg (hb _ (by simp)), h .health (hb _ (by simp)),
    h .signs (hb _ (by simp)), h .lamps (hb _ (by simp))⟩

theorem SameBlocks.wanted {s u : State} (h : SameBlocks s u) {k : Lane}
    (hk : (stopLine u k).head = (stopLine s k).head) : wantedAspect u k = wantedAspect s k :=
  wantedAspect_congr h.cfg h.health (groupFaulted_congr h.lamps k) hk

/-- A lane that stands as in a settled state stays. -/
theorem stopLine_settle_same {s u : State} (hs : settled s = true) (h : SameBlocks s u) {k : Lane}
    (hk : stopLine u k = stopLine s k) : stopLine (settle u) k = stopLine s k := by
  have hacts : laneActs u k = laneActs s k := laneActs_congr h.startup h.cfg k
  rw [stopLine_settle, hacts, h.wanted (by rw [hk]), hk]
  split
  next ha => exact followAspect_id (shows_of_settled hs ha)
  · rfl

theorem SameBlocks.signs_settle {s u : State} (hs : settled s = true) (h : SameBlocks s u) :
    (settle u).signs = s.signs := by
  have hfollow : signsFollow u = true := by
    rw [← (settled_parts.1 hs).1]
    unfold signsFollow
    simp only [h.signs, fun l => signRequested_congr h.startup h.cfg h.health (l := l) (by rw [h.signs])]
  rw [settle_signs, driveSigns_id hfollow, h.signs]

theorem SameBlocks.followed {s u : State} (h : SameBlocks s u)
    (hk : ∀ k, stopLine u k = stopLine s k) : SameFollowed s u :=
  ⟨h.startup, h.cfg, h.signs,
    fun l => signRequested_congr h.startup h.cfg h.health (by rw [h.signs]), h.lamps,
    fun l => by rw [hk], fun l => by rw [hk], fun l => h.wanted (by rw [hk])⟩

/-- With every lane as in a settled state, `settle` writes the alert unit only. -/
theorem SameFollowed.settle_touches {s u : State} (hs : settled s = true) (h : SameFollowed s u) :
    changesOnly [.alerts] u (settle u) := by
  obtain ⟨hsigns, haspects, hlamps, -, -⟩ := settled_parts.1 hs
  unfold settle
  rw [driveSigns_id (h.signsFollow.trans hsigns), driveAspects_id (h.aspectsFollow.trans haspects),
    driveLamps_id (h.lampsFollow.trans hlamps)]
  exact changesOnly_trans (takeConditions_touches u) (driveAlertLines_touches _)

theorem bareLamps_settle_same {s u : State} (h : u.lamps = s.lamps) :
    bareLamps (settle u).lamps = bareLamps s.lamps := (bareLamps_settle u).trans (by rw [h])

/-- What a command and `settle` leave unchanged when signs stay. -/
theorem changesOnly_settle_signs {bs cs : List Block} {s u : State} (hs : settled s = true)
    (h : changesOnly bs s u) (hsame : SameBlocks s u)
    (hb : bs ++ [.lamps, .entry, .alerts] ⊆ cs := by decide) : changesOnly cs s (settle u) := by
  intro b hm
  by_cases hg : b = .signs
  · rw [hg]
    exact hsame.signs_settle hs
  · refine changesOnly_append h (settle_changesOnly u) b fun hmem => hm (hb ?_)
    simp only [List.mem_append, List.mem_cons, List.not_mem_nil, or_false] at hmem ⊢
    tauto

/-- The same where the alert unit is as it was, too. -/
theorem changesOnly_settle_alerts {bs cs : List Block} {s u : State} (hs : settled s = true)
    (h : changesOnly bs s u) (hsame : SameBlocks s u) (ha : (settle u).alerts = s.alerts)
    (hb : bs ++ [.lamps, .entry] ⊆ cs := by decide) : changesOnly cs s (settle u) := by
  intro b hm
  by_cases hg : b = .signs
  · rw [hg]
    exact hsame.signs_settle hs
  by_cases hal : b = .alerts
  · rw [hal]
    exact ha
  · refine changesOnly_append h (settle_changesOnly u) b fun hmem => hm (hb ?_)
    simp only [List.mem_append, List.mem_cons, List.not_mem_nil, or_false] at hmem ⊢
    tauto

end Sys2Proof.Proofs
end

