-- ==== Sys2Proof/Proofs/ArbiterRuns.lean ====
section
/-! PROOFS. Runs of the held arbiter (R138): what they read of the state, which lanes they take, and that
the weight counted in all keeps to the span limit (R134, R135). -/

namespace Sys2Proof.Proofs

open Sys2Proof Sys2Proof.Machine

/-! ## What the entry controller's decisions read -/

/-- The states agree on all that the entry controller decides from. -/
structure SameDeck (s t : State) : Prop where
  startup : t.startup = s.startup
  cfg : t.cfg = s.cfg
  clock : t.clock = s.clock
  posture : t.peers.posture = s.peers.posture
  entry : t.entry = s.entry

theorem SameDeck.refl (s : State) : SameDeck s s := ⟨rfl, rfl, rfl, rfl, rfl⟩

theorem SameDeck.symm {s t : State} (h : SameDeck s t) : SameDeck t s :=
  ⟨h.startup.symm, h.cfg.symm, h.clock.symm, h.posture.symm, h.entry.symm⟩

theorem SameDeck.trans {s t u : State} (h : SameDeck s t) (k : SameDeck t u) : SameDeck s u :=
  ⟨k.startup.trans h.startup, k.cfg.trans h.cfg, k.clock.trans h.clock, k.posture.trans h.posture,
    k.entry.trans h.entry⟩

theorem sameDeck_of_touches {bs : List Block} {s t : State} (h : changesOnly bs s t)
    (hb : ∀ b ∈ [Block.startup, .cfg, .clock, .peers, .entry], b ∉ bs := by decide) : SameDeck s t := by
  have hpeers : t.peers = s.peers := h .peers (hb _ (by simp))
  exact ⟨h .startup (hb _ (by simp)), h .cfg (hb _ (by simp)), h .clock (hb _ (by simp)),
    by rw [hpeers], h .entry (hb _ (by simp))⟩

/-- Writing the entry controller alone. -/
theorem sameDeck_of_entry {s t s' t' : State} (h : SameDeck s t) (hs : changesOnly [.entry] s s')
    (ht : changesOnly [.entry] t t') (he : t'.entry = s'.entry) : SameDeck s' t' := by
  have hps : s'.peers = s.peers := hs .peers (by decide)
  have hpt : t'.peers = t.peers := ht .peers (by decide)
  exact ⟨(ht .startup (by decide)).trans (h.startup.trans (hs .startup (by decide)).symm),
    (ht .cfg (by decide)).trans (h.cfg.trans (hs .cfg (by decide)).symm),
    (ht .clock (by decide)).trans (h.clock.trans (hs .clock (by decide)).symm),
    by rw [hpt, hps, h.posture], he⟩

theorem SameDeck.stopLine {s t : State} (h : SameDeck s t) (l : Lane) :
    stopLine t l = stopLine s l := by simp only [Machine.stopLine, h.entry]

theorem SameDeck.committed {s t : State} (h : SameDeck s t) : committed t = committed s := by
  simp only [Machine.committed, h.entry]

theorem SameDeck.admittedHeads {s t : State} (h : SameDeck s t) :
    admittedHeads t = admittedHeads s := by simp only [Machine.admittedHeads, h.entry]

theorem SameDeck.spanTotal {s t : State} (h : SameDeck s t) : spanTotal t = spanTotal s := by
  simp only [Machine.spanTotal, h.entry]

theorem SameDeck.gateOpen {s t : State} (h : SameDeck s t) : gateOpen t = gateOpen s := by
  simp only [Machine.gateOpen, recovering, h.startup, h.entry, h.posture]

theorem SameDeck.fits {s t : State} (h : SameDeck s t) (a : Nat) : fits t a = fits s a := by
  simp only [Machine.fits, h.spanTotal, h.committed, h.admittedHeads, h.gateOpen, h.entry, h.cfg]

theorem SameDeck.admissionWeight {s t : State} (h : SameDeck s t) (r : Record) :
    admissionWeight t r = admissionWeight s r := by
  simp only [Machine.admissionWeight, padded, h.cfg, h.posture]

theorem SameDeck.holdTime {s t : State} (h : SameDeck s t) : holdTime t = holdTime s :=
  funext fun l => holdTime_congr (by rw [h.stopLine])

theorem SameDeck.entryActs {s t : State} (h : SameDeck s t) : entryActs t = entryActs s := by
  simp only [Machine.entryActs, working_congr h.startup, h.cfg]

theorem SameDeck.setStopLine {s t : State} (h : SameDeck s t) (l : Lane) (x : StopLine) :
    SameDeck (setStopLine l x s) (setStopLine l x t) :=
  sameDeck_of_entry h (touches_entry s _) (touches_entry t _) (by
    simp only [Machine.setStopLine, h.entry])

theorem SameDeck.setHead {s t : State} (h : SameDeck s t) (l : Lane) (x : HeadState) :
    SameDeck (setHead l x s) (setHead l x t) := by
  unfold Machine.setHead
  rw [h.stopLine]
  exact h.setStopLine _ _

theorem SameDeck.leaveHeld {s t : State} (h : SameDeck s t) (l : Lane) :
    SameDeck (leaveHeld l s) (leaveHeld l t) :=
  sameDeck_of_entry h (touches_entry s _) (touches_entry t _) (by
    simp only [Machine.leaveHeld, h.entry])

theorem SameDeck.popHead {s t : State} (h : SameDeck s t) (l : Lane) :
    SameDeck (popHead l s) (popHead l t) := by
  unfold Machine.popHead
  rw [h.stopLine]
  exact h.setStopLine _ _

theorem SameDeck.arbiterFrom {s t : State} (h : SameDeck s t) (ls : List Lane) :
    SameDeck (arbiterFrom ls s) (arbiterFrom ls t) := by
  induction ls generalizing s t with
  | nil => exact h
  | cons l ls ih =>
    simp only [Machine.arbiterFrom, h.stopLine, h.admissionWeight, h.fits]
    split
    · split
      · exact ih ((h.setHead _ _).leaveHeld _)
      · exact h.setHead _ _
    · exact h

theorem SameDeck.runArbiter {s t : State} (h : SameDeck s t) :
    SameDeck (runArbiter s) (runArbiter t) := by
  unfold Machine.runArbiter
  rw [h.entryActs, h.entry]
  split
  · exact h.arbiterFrom _
  · exact h

theorem SameDeck.clearLost {s t : State} (h : SameDeck s t) :
    SameDeck (clearLost s) (clearLost t) := by
  unfold Machine.clearLost recovering
  rw [h.committed, h.entry]
  split
  · exact sameDeck_of_entry h (touches_entry s _) (touches_entry t _) rfl
  · exact h

/-- R138: with nothing held there is nothing to take. -/
theorem runArbiter_of_none {s : State} (h : s.entry.held = []) : runArbiter s = s := by
  unfold Machine.runArbiter
  rw [h]
  split <;> rfl

/-! ## The lanes a run takes -/

/-- The admission weight of the record at the front of a lane. -/
def frontWeight (s : State) (l : Lane) : Nat :=
  match (stopLine s l).queue with
  | r :: _ => admissionWeight s r
  | [] => 0

theorem frontWeight_of_cons {s : State} {l : Lane} {r : Record} {rest : List Record}
    (h : (stopLine s l).queue = r :: rest) : frontWeight s l = admissionWeight s r := by
  unfold frontWeight
  rw [h]

theorem frontWeight_congr {s t : State} {l : Lane} (hq : (stopLine t l).queue = (stopLine s l).queue)
    (hc : t.cfg = s.cfg) (hp : t.peers.posture = s.peers.posture) :
    frontWeight t l = frontWeight s l := by
  unfold frontWeight Machine.admissionWeight padded
  rw [hq, hc, hp]

/-- R134, R135: a lane fits once the lanes `before` it have been taken. -/
def fitsAfter (s : State) (before : List Lane) (l : Lane) : Prop :=
  spanTotal s + committed s + (before.map (frontWeight s)).sum + frontWeight s l ≤ s.cfg.spanLimit ∧
    s.entry.span.length + admittedHeads s + before.length < 24 ∧
    ((s.startup ≠ .joining ∧ s.entry.recovery = none ∧ s.peers.posture ≠ .isolated ∧
        s.entry.lost = false) ∨
      (s.entry.span = [] ∧ committed s + (before.map (frontWeight s)).sum = 0))

theorem gateOpen_iff {s : State} :
    gateOpen s = true ↔ s.startup ≠ .joining ∧ s.entry.recovery = none ∧
      s.peers.posture ≠ .isolated ∧ s.entry.lost = false := by
  unfold Machine.gateOpen recovering
  simp only [Bool.not_eq_true', Bool.or_eq_false_iff, decide_eq_false_iff_not,
    Option.isSome_eq_false_iff, Option.isNone_iff_eq_none]
  tauto

theorem fits_iff {s : State} {a : Nat} :
    fits s a = true ↔ spanTotal s + committed s + a ≤ s.cfg.spanLimit ∧
      s.entry.span.length + admittedHeads s < 24 ∧
      ((s.startup ≠ .joining ∧ s.entry.recovery = none ∧ s.peers.posture ≠ .isolated ∧
        s.entry.lost = false) ∨ (s.entry.span = [] ∧ committed s = 0)) := by
  unfold Machine.fits
  simp only [Bool.and_eq_true, Bool.or_eq_true, decide_eq_true_eq, gateOpen_iff, List.isEmpty_iff,
    and_assoc]

theorem fitsAfter_nil {s : State} {l : Lane} : fitsAfter s [] l ↔ fits s (frontWeight s l) = true := by
  simp only [fitsAfter, fits_iff, List.map_nil, List.sum_nil, List.length_nil, Nat.add_zero]

/-- R138: the state once a held lane has been taken. -/
def laneTaken (l : Lane) (s : State) : State :=
  leaveHeld l (setHead l (.admitted (frontWeight s l)) s)

theorem stopLine_laneTaken (l k : Lane) (s : State) :
    stopLine (laneTaken l s) k =
      if k = l then { stopLine s l with head := .admitted (frontWeight s l) } else stopLine s k :=
  stopLine_setHead l k _ s

theorem frontWeight_laneTaken (l k : Lane) (s : State) :
    frontWeight (laneTaken l s) k = frontWeight s k := by
  refine frontWeight_congr (s := s) (t := laneTaken l s) ?_ rfl rfl
  rw [stopLine_laneTaken]
  split
  next e => rw [e]
  next => rfl

theorem committed_laneTaken {l : Lane} {s : State} (h : (holdTime s l).isSome = true) :
    committed (laneTaken l s) = committed s + frontWeight s l := by
  obtain ⟨w, c, hw⟩ := holdTime_isSome.1 h
  have := committed_setStopLine l { stopLine s l with head := .admitted (frontWeight s l) } s
  rw [hw] at this
  exact this

theorem admittedHeads_laneTaken {l : Lane} {s : State} (h : (holdTime s l).isSome = true) :
    admittedHeads (laneTaken l s) = admittedHeads s + 1 := by
  obtain ⟨w, c, hw⟩ := holdTime_isSome.1 h
  have := admittedHeads_setStopLine l { stopLine s l with head := .admitted (frontWeight s l) } s
  rw [hw] at this
  exact this

theorem fitsAfter_laneTaken {l k : Lane} {before : List Lane} {s : State}
    (h : (holdTime s l).isSome = true) :
    fitsAfter (laneTaken l s) before k ↔ fitsAfter s (l :: before) k := by
  have hmap : before.map (frontWeight (laneTaken l s)) = before.map (frontWeight s) :=
    List.map_congr_left fun j _ => frontWeight_laneTaken l j s
  unfold fitsAfter
  rw [hmap, frontWeight_laneTaken, committed_laneTaken h, admittedHeads_laneTaken h, List.map_cons,
    List.sum_cons, List.length_cons]
  change spanTotal s + _ + _ + _ ≤ _ ∧ s.entry.span.length + _ + _ < _ ∧ (_ ∨ s.entry.span = [] ∧ _) ↔ _
  have h1 (x a b : Nat) : x + (committed s + a) + b = x + committed s + (a + b) := by omega
  have h2 (x b : Nat) : x + (admittedHeads s + 1) + b = x + admittedHeads s + (b + 1) := by omega
  rw [h1, h2, Nat.add_assoc (committed s)]
  rfl

/-- R138: what a run over the lanes `ls`, all that are held, makes of the heads and the held set. -/
structure ArbiterTook (ls : List Lane) (s t : State) (taken : List Lane) : Prop where
  held : ls = taken ++ t.entry.held
  admitted : ∀ l ∈ taken, (stopLine t l).head = .admitted (frontWeight s l)
  fitted : ∀ before l after, taken = before ++ l :: after → fitsAfter s before l
  refused : ∀ l rest, t.entry.held = l :: rest →
    ¬fitsAfter s taken l ∧ ∃ h, holdTime s l = some h ∧ (stopLine t l).head = .held (frontWeight s l) h
  others : ∀ l, l ∉ ls → stopLine t l = stopLine s l

theorem arbiterTook_nil {s : State} (h : s.entry.held = []) : ArbiterTook [] s s [] :=
  ⟨by rw [h]; rfl, nofun, fun before _ _ hnil => by simp at hnil,
    fun l rest he => (by rw [h] at he; cases he), fun _ _ => rfl⟩

theorem arbiterTook_refused {l : Lane} {ls : List Lane} {s : State} {w : Nat} {c : Clock}
    (hheld : s.entry.held = l :: ls) (hh : (stopLine s l).head = .held w c)
    (hfit : ¬fits s (frontWeight s l) = true) :
    ArbiterTook (l :: ls) s (setHead l (.held (frontWeight s l) c) s) [] := by
  refine ⟨hheld.symm, nofun, fun before _ _ hnil => by simp at hnil, fun k rest he => ?_, fun k hk => ?_⟩
  · obtain ⟨rfl, -⟩ := List.cons.inj (hheld.symm.trans he)
    refine ⟨fitsAfter_nil.not.2 hfit, c, by simp only [holdTime, hh], ?_⟩
    rw [stopLine_setHead, if_pos rfl]
  · rw [stopLine_setHead, if_neg fun e : k = l => hk (e ▸ List.mem_cons_self)]

theorem arbiterTook_cons {l : Lane} {ls taken : List Lane} {s t : State} (hl : l ∉ ls)
    (hhold : (holdTime s l).isSome = true) (hfit : fits s (frontWeight s l) = true)
    (h : ArbiterTook ls (laneTaken l s) t taken) : ArbiterTook (l :: ls) s t (l :: taken) := by
  refine ⟨by rw [h.held]; rfl, fun k hk => ?_, fun before k after he => ?_, fun k rest he => ?_,
    fun k hk => ?_⟩
  · obtain rfl | hk := List.mem_cons.1 hk
    · rw [h.others k hl, stopLine_laneTaken, if_pos rfl]
    · rw [h.admitted k hk, frontWeight_laneTaken]
  · cases before with
    | nil =>
      obtain ⟨rfl, -⟩ := List.cons.inj he
      exact fitsAfter_nil.2 hfit
    | cons j before =>
      obtain ⟨rfl, htail⟩ := List.cons.inj he
      exact (fitsAfter_laneTaken hhold).1 (h.fitted before k after htail)
  · obtain ⟨hno, c, hc, hhead⟩ := h.refused k rest he
    have hkl : k ≠ l := fun e => hl (by rw [h.held, he, ← e]; simp)
    rw [fitsAfter_laneTaken hhold] at hno
    rw [frontWeight_laneTaken] at hhead
    exact ⟨hno, c, (holdTime_congr (by rw [stopLine_laneTaken, if_neg hkl])).symm.trans hc, hhead⟩
  · obtain ⟨hkl, hkls⟩ := not_or.1 (mt List.mem_cons.2 hk)
    rw [h.others k hkls, stopLine_laneTaken, if_neg hkl]

/-- R138: the arbiter over held lanes that all have a HELD head and a record at the front. -/
theorem arbiterFrom_took (ls : List Lane) {s : State} (hheld : s.entry.held = ls) (hnodup : ls.Nodup)
    (hhead : ∀ l ∈ ls, (holdTime s l).isSome = true) (hq : ∀ l ∈ ls, (stopLine s l).queue ≠ []) :
    ∃ taken, ArbiterTook ls s (arbiterFrom ls s) taken := by
  induction ls generalizing s with
  | nil => exact ⟨[], arbiterTook_nil hheld⟩
  | cons l ls ih =>
    have hhold := hhead l List.mem_cons_self
    obtain ⟨w, c, hw⟩ := holdTime_isSome.1 hhold
    obtain ⟨r, rest, hr⟩ := List.exists_cons_of_ne_nil (hq l List.mem_cons_self)
    obtain ⟨hl, hnodup⟩ := List.nodup_cons.1 hnodup
    simp only [arbiterFrom, hw, hr, ← frontWeight_of_cons hr]
    split
    next hfit =>
      have hne (k : Lane) (hk : k ∈ ls) : k ≠ l := fun e => hl (e ▸ hk)
      have hkept (k : Lane) (hk : k ∈ ls) : stopLine (laneTaken l s) k = stopLine s k := by
        rw [stopLine_laneTaken, if_neg (hne k hk)]
      have hheld' : (laneTaken l s).entry.held = ls := by
        change s.entry.held.filter (fun k => decide (k ≠ l)) = ls
        rw [hheld, List.filter_cons_of_neg (by simp)]
        exact List.filter_eq_self.2 fun k hk => by simpa using hne k hk
      obtain ⟨taken, htook⟩ := ih hheld' hnodup
        (fun k hk => by
          rw [holdTime_congr (congrArg StopLine.head (hkept k hk))]
          exact hhead k (List.mem_cons_of_mem _ hk))
        (fun k hk => (hkept k hk).symm ▸ hq k (List.mem_cons_of_mem _ hk))
      exact ⟨l :: taken, arbiterTook_cons hl hhold hfit htook⟩
    next hfit => exact ⟨[], arbiterTook_refused hheld hw hfit⟩

/-! ## The weight counted in all -/

theorem committed_setHead_held {l : Lane} {w w' : Nat} {c c' : Clock} {s : State}
    (h : (stopLine s l).head = .held w c) : committed (setHead l (.held w' c') s) = committed s := by
  have := committed_setStopLine l { stopLine s l with head := .held w' c' } s
  rw [h] at this
  exact this

/-- R134: a run raises the weight counted in all only up to the span limit. -/
theorem arbiterFrom_weight (ls : List Lane) (s : State) :
    spanTotal (arbiterFrom ls s) + committed (arbiterFrom ls s) ≤
      max (spanTotal s + committed s) s.cfg.spanLimit := by
  induction ls generalizing s with
  | nil => exact le_max_left _ _
  | cons l ls ih =>
    simp only [arbiterFrom]
    split
    next w c r rest hw hr =>
      have hhold : (holdTime s l).isSome = true := holdTime_isSome.2 ⟨w, c, hw⟩
      rw [← frontWeight_of_cons hr]
      split
      next hfit =>
        refine (ih (laneTaken l s)).trans ?_
        have hsum : spanTotal (laneTaken l s) + committed (laneTaken l s) =
            spanTotal s + committed s + frontWeight s l := by
          rw [committed_laneTaken hhold, ← Nat.add_assoc]
          rfl
        change max _ s.cfg.spanLimit ≤ _
        rw [hsum]
        exact max_le ((fits_iff.1 hfit).1.trans (le_max_right _ _)) (le_max_right _ _)
      · rw [committed_setHead_held hw]
        exact le_max_left _ _
    · exact le_max_left _ _

theorem runArbiter_weight (s : State) :
    spanTotal (runArbiter s) + committed (runArbiter s) ≤
      max (spanTotal s + committed s) s.cfg.spanLimit := by
  unfold Machine.runArbiter
  split
  · exact arbiterFrom_weight _ s
  · exact le_max_left _ _

theorem runArbiter_took {s : State} (h : headsRight s) (ha : entryActs s = true) :
    ∃ taken, ArbiterTook s.entry.held s (runArbiter s) taken := by
  obtain ⟨hfront, hheld, hnodup⟩ := h
  unfold Machine.runArbiter
  rw [if_pos ha]
  refine arbiterFrom_took _ rfl hnodup (fun l hl => (hheld l).1 hl) fun l hl he => ?_
  obtain ⟨w, c, hw⟩ := holdTime_isSome.1 ((hheld l).1 hl)
  rw [(hfront l).1 he] at hw
  cases hw

/-- Lanes that are not held stay. -/
theorem stopLine_arbiterFrom_of_notMem (ls : List Lane) {s : State} {k : Lane} (hk : k ∉ ls) :
    stopLine (arbiterFrom ls s) k = stopLine s k := by
  induction ls generalizing s with
  | nil => rfl
  | cons l ls ih =>
    obtain ⟨hkl, hkls⟩ := not_or.1 (mt List.mem_cons.2 hk)
    simp only [arbiterFrom]
    split
    · split
      · rw [ih hkls, stopLine_leaveHeld, stopLine_setHead, if_neg hkl]
      · rw [stopLine_setHead, if_neg hkl]
    · rfl

theorem stopLine_runArbiter_of_notMem {s : State} {k : Lane} (hk : k ∉ s.entry.held) :
    stopLine (runArbiter s) k = stopLine s k := by
  unfold Machine.runArbiter
  split
  · exact stopLine_arbiterFrom_of_notMem _ hk
  · rfl

/-- Settles O46: the lanes taken, by induction on the held set. -/
theorem arbiterKeepsToSpanLimit : Obligations.ArbiterKeepsToSpanLimit := by
  intro s hs
  refine ⟨fun ha => if_neg (by simp [ha]), fun ha => ?_, runArbiter_weight s,
    headsOnly_span (runArbiter_headsOnly s), headsRight_runArbiter hs⟩
  obtain ⟨taken, h⟩ := runArbiter_took hs ha
  exact ⟨taken, h.held, h.admitted, h.fitted, h.refused, h.others,
    fun l => stopLine_runArbiter_queue l s, runArbiter_touches s⟩

end Sys2Proof.Proofs
end

