-- ==== Sys2Proof/Proofs/HeadsEvaluated.lean ====
section
/-! PROOFS. The evaluation of the record at the front of a stop-line queue (R132 to R134): what it makes
of the lane, the held set, the alert sources and the counters, and the station after `settle`. -/

namespace Sys2Proof.Proofs

open Sys2Proof Sys2Proof.Machine

/-! ## The head state and the held set -/

/-- The head state the record at the front of a lane, if there is one, is evaluated to. -/
def frontHead (l : Lane) (s : State) : HeadState :=
  (stopLine s l).queue.head?.elim .none (headFor s)

/-- R138: the held set once the front of a lane is evaluated. -/
def heldAfter (l : Lane) (s : State) : List Lane :=
  match frontHead l s with
  | .held _ _ => heldWith l s
  | _ => s.entry.held

theorem frontHead_of_nil {l : Lane} {s : State} (h : (stopLine s l).queue = []) :
    frontHead l s = .none := by
  unfold frontHead
  rw [h]
  rfl

theorem frontHead_of_cons {l : Lane} {s : State} {r : Record} {rest : List Record}
    (h : (stopLine s l).queue = r :: rest) : frontHead l s = headFor s r := by
  unfold frontHead
  rw [h]
  rfl

/-- R138: a lane that begins to be held goes behind those held before, as `heldWith` says. -/
theorem insertHeld_eq (s : State) (now : Clock) (l : Lane) (ks : List Lane) :
    insertHeld s now l ks =
      ks.takeWhile (fun k => !decide (holdTime s k = some now ∧ l.val < k.val)) ++
        l :: ks.dropWhile (fun k => !decide (holdTime s k = some now ∧ l.val < k.val)) := by
  induction ks with
  | nil => rfl
  | cons k ks ih =>
    unfold insertHeld
    split
    next h => rw [List.takeWhile_cons_of_neg (by simp [h]), List.dropWhile_cons_of_neg (by simp [h])]; rfl
    next h => rw [List.takeWhile_cons_of_pos (by simpa [or_iff_not_imp_left] using h),
        List.dropWhile_cons_of_pos (by simpa [or_iff_not_imp_left] using h), ih]; rfl

theorem becomeHeld_heldWith (l : Lane) (w : Nat) (s : State) :
    (becomeHeld l w s).entry.held = heldWith l s := insertHeld_eq s s.clock l s.entry.held

theorem mem_heldWith (l : Lane) (s : State) : l ∈ heldWith l s := by
  unfold heldWith
  simp

theorem SameDeck.headFor {s t : State} (h : SameDeck s t) (r : Record) : headFor t r = headFor s r := by
  simp only [Machine.headFor, h.admissionWeight, h.fits, h.entry, h.clock]

theorem SameDeck.heldWith {s t : State} (h : SameDeck s t) (l : Lane) :
    heldWith l t = heldWith l s := by
  simp only [Machine.heldWith, h.holdTime, h.entry, h.clock]

theorem SameDeck.frontHead {s t : State} (h : SameDeck s t) (l : Lane) :
    frontHead l t = frontHead l s := by
  simp only [Proofs.frontHead, h.stopLine, funext h.headFor]

theorem SameDeck.heldAfter {s t : State} (h : SameDeck s t) (l : Lane) :
    heldAfter l t = heldAfter l s := by
  simp only [Proofs.heldAfter, h.frontHead, h.heldWith, h.entry]

/-- A head state says how a record is evaluated. -/
theorem headFor_light {s : State} {r : Record} (h : r.heavy = false) : headFor s r = .free := if_pos h

theorem headFor_stop {s : State} {r : Record} (hr : r.heavy = true)
    (h : r.effVerdict = .over ∨ r.directed = true) : headFor s r = .stop := by
  unfold headFor
  rw [if_neg (by simp [hr]), if_pos h]

theorem headFor_heavy {s : State} {r : Record} (hr : r.heavy = true)
    (h : ¬(r.effVerdict = .over ∨ r.directed = true)) :
    headFor s r =
      if fits s (admissionWeight s r) = true ∧ s.entry.held = [] then .admitted (admissionWeight s r)
      else .held (admissionWeight s r) s.clock := by
  unfold headFor
  rw [if_neg (by simp [hr]), if_neg h]

/-! ## What an evaluation writes -/

/-- R132: a record that has to stop is counted and raises its source. -/
def stopCounted (l : Lane) (r : Record) (s : State) : State :=
  countLane l (fun c => { c with stopped := c.stopped + 1 })
    (raise (if r.directed then .noncompliant else .overUndirected) s)

theorem stopCounted_touches (l : Lane) (r : Record) (s : State) :
    changesOnly [.alerts, .counters] s (stopCounted l r s) :=
  changesOnly_append (raise_touches _ s) (touches_counters _ _)

/-- The evaluation, by the head state it leads to. -/
theorem evaluateHead_eq (l : Lane) (s : State) :
    evaluateHead l s =
      match (stopLine s l).queue, frontHead l s with
      | r :: _, .stop => stopCounted l r (setHead l .stop s)
      | _, .held w _ => becomeHeld l w s
      | _, h => setHead l h s := by
  unfold evaluateHead
  cases hq : (stopLine s l).queue with
  | nil => rw [frontHead_of_nil hq]
  | cons r rest =>
    rw [frontHead_of_cons hq]
    by_cases hr : r.heavy = true
    · by_cases hstop : r.effVerdict = .over ∨ r.directed = true
      · rw [headFor_stop hr hstop]
        simp only [hr, hstop, Bool.not_true, Bool.false_eq_true, if_false, if_true]
        rfl
      · rw [headFor_heavy hr hstop]
        simp only [hr, hstop, Bool.not_true, Bool.false_eq_true, if_false]
        by_cases hfit : fits s (admissionWeight s r) = true ∧ s.entry.held = []
        · rw [if_pos (by simpa using hfit), if_pos hfit]
        · rw [if_neg (by simpa using hfit), if_neg hfit]
    · simp only [Bool.not_eq_true] at hr
      rw [headFor_light hr]
      simp only [hr, Bool.not_false, if_true]

/-- The entry controller after an evaluation. -/
theorem evaluateHead_entry (l : Lane) (s : State) :
    (evaluateHead l s).entry =
      { (setHead l (frontHead l s) s).entry with held := heldAfter l s } := by
  rw [evaluateHead_eq]
  unfold heldAfter
  split
  next hh =>
    rw [hh]
    exact stopCounted_touches l _ _ .entry (by decide)
  next w c hh =>
    have hc : c = s.clock := by
      revert hh
      unfold frontHead
      cases (stopLine s l).queue with
      | nil => nofun
      | cons r rest =>
        simp only [List.head?_cons, Option.elim_some, headFor]
        split
        · nofun
        split
        · nofun
        split
        · nofun
        · exact fun h => (HeadState.held.inj h).2.symm
    rw [hh, hc, ← becomeHeld_heldWith l w s]
    rfl
  next hheld _ =>
    split
    next w c he => exact absurd he (hheld w c)
    next => rfl

theorem stopLine_evaluateHead (l k : Lane) (s : State) :
    stopLine (evaluateHead l s) k =
      if k = l then { stopLine s l with head := frontHead l s } else stopLine s k :=
  (stopLine_congr (t := evaluateHead l s) (s := setHead l (frontHead l s) s)
    (by rw [evaluateHead_entry]) k).trans (stopLine_setHead l k _ s)

theorem evaluateHead_held (l : Lane) (s : State) : (evaluateHead l s).entry.held = heldAfter l s :=
  congrArg EntryController.held (evaluateHead_entry l s)

theorem SameDeck.evaluateHead {s t : State} (h : SameDeck s t) (l : Lane) :
    SameDeck (evaluateHead l s) (evaluateHead l t) := by
  have hs := evaluateHead_touches l s
  have ht := evaluateHead_touches l t
  have hps : (Machine.evaluateHead l s).peers = s.peers := hs .peers (by decide)
  have hpt : (Machine.evaluateHead l t).peers = t.peers := ht .peers (by decide)
  exact ⟨(ht .startup (by decide)).trans (h.startup.trans (hs .startup (by decide)).symm),
    (ht .cfg (by decide)).trans (h.cfg.trans (hs .cfg (by decide)).symm),
    (ht .clock (by decide)).trans (h.clock.trans (hs .clock (by decide)).symm),
    by rw [hpt, hps, h.posture],
    by rw [evaluateHead_entry, evaluateHead_entry, h.frontHead, h.heldAfter, (h.setHead l _).entry]⟩

/-- An evaluation that does not lead to STOP writes the entry controller alone. -/
theorem evaluateHead_touches_entry {l : Lane} {s : State} (h : frontHead l s ≠ .stop) :
    changesOnly [.entry] s (evaluateHead l s) := by
  rw [evaluateHead_eq]
  split
  next hh => exact absurd hh h
  · exact touches_entry s _
  · exact touches_entry s _

/-- What is raised and counted for a head that has to stop. -/
theorem evaluateHead_of_stop {l : Lane} {s : State} (h : frontHead l s = .stop) :
    ∃ r rest, (stopLine s l).queue = r :: rest ∧
      evaluateHead l s = stopCounted l r (setHead l .stop s) := by
  cases hq : (stopLine s l).queue with
  | nil =>
    rw [frontHead_of_nil hq] at h
    cases h
  | cons r rest => exact ⟨r, rest, rfl, by rw [evaluateHead_eq, hq, h]⟩

theorem alertOf_stopCounted_self {l : Lane} {r : Record} {s : State} (hw : working s = true) :
    alertOf (stopCounted l r s) (if r.directed then .noncompliant else .overUndirected) =
      raisedAlert (alertOf s (if r.directed then .noncompliant else .overUndirected)) :=
  alertOf_raise_self hw _

theorem alertOf_stopCounted_ne {l : Lane} {r : Record} {s : State} {y : AlertSource}
    (hy : y ≠ if r.directed then .noncompliant else .overUndirected) :
    alertOf (stopCounted l r s) y = alertOf s y := alertOf_raise_ne s hy

/-- R132, R189: the sources an evaluation raises. -/
theorem alertOf_evaluateHead {l : Lane} {s : State} (hw : working s = true) :
    ∀ y ∈ [AlertSource.noncompliant, .overUndirected],
      alertOf (evaluateHead l s) y =
        if frontHead l s = .stop ∧
            (y = .noncompliant ↔ (stopLine s l).queue.head?.any Record.directed = true) then
          raisedAlert (alertOf s y)
        else alertOf s y := by
  intro y hy
  by_cases hstop : frontHead l s = .stop
  · obtain ⟨r, rest, hq, he⟩ := evaluateHead_of_stop hstop
    have hwu : working (setHead l .stop s) = true := hw
    have hself := alertOf_stopCounted_self (l := l) (r := r) hwu
    have hne := @alertOf_stopCounted_ne l r (setHead l .stop s) y
    have hkept (x : AlertSource) : alertOf (setHead l .stop s) x = alertOf s x := rfl
    rw [he, hq]
    simp only [hstop, true_and, List.head?_cons, Option.any_some]
    cases hd : r.directed
    all_goals
      rw [hd] at hself hne
      obtain rfl | rfl : y = .noncompliant ∨ y = .overUndirected := by simpa using hy
    · simpa [hkept] using hne
    · simpa [hkept] using hself
    · simpa [hkept] using hself
    · simpa [hkept] using hne
  · rw [if_neg fun h => hstop h.1]
    exact alertOf_congr (evaluateHead_touches_entry hstop .alerts (by decide)) y

theorem alertOf_evaluateHead_ne {l : Lane} {s : State} {y : AlertSource} (h1 : y ≠ .noncompliant)
    (h2 : y ≠ .overUndirected) : alertOf (evaluateHead l s) y = alertOf s y := by
  by_cases hstop : frontHead l s = .stop
  · obtain ⟨r, rest, hq, he⟩ := evaluateHead_of_stop hstop
    rw [he]
    exact (alertOf_stopCounted_ne (by split <;> assumption)).trans rfl
  · exact alertOf_congr (evaluateHead_touches_entry hstop .alerts (by decide)) y

/-- The counter of STOP heads. -/
theorem evaluateHead_counters (l : Lane) (s : State) :
    (evaluateHead l s).counters =
      if frontHead l s = .stop then
        { s.counters with
          lanes := s.counters.lanes.put l
            { s.counters.lanes.at l with stopped := (s.counters.lanes.at l).stopped + 1 } }
      else s.counters := by
  by_cases hstop : frontHead l s = .stop
  · obtain ⟨r, rest, hq, he⟩ := evaluateHead_of_stop hstop
    have hraised : (raise (if r.directed then .noncompliant else .overUndirected)
        (setHead l .stop s)).counters = s.counters := raise_touches _ _ .counters (by decide)
    rw [he, if_pos hstop, ← hraised]
    rfl
  · rw [if_neg hstop]
    exact evaluateHead_touches_entry hstop .counters (by decide)

/-! ## The station after `settle` -/

/-- A stop line but for what follows. -/
def bareLine (x : StopLine) : StopLine := { x with aspect := none, amber := none }

theorem bareLine_settle (u : State) (k : Lane) :
    bareLine (stopLine (settle u) k) = bareLine (stopLine u k) := by
  rw [stopLine_settle]
  split
  · unfold followAspect
    split <;> rfl
  · rfl

theorem settle_entry_eq (u : State) :
    (settle u).entry = { u.entry with lanes := (settle u).entry.lanes } := by
  rw [settle_entry, driveAspects_eq]
  rfl

/-- The deck of `s` but for the head states and the front of lane `l`: what a command leaves of the other
lanes before it evaluates `l`. -/
def othersHeads (l : Lane) (s u : State) : Prop :=
  ∀ k, k ≠ l → stopLine u k = { stopLine s k with head := (stopLine u k).head }

/-- R132 to R134: from `s` a command leads to `v`, whose deck is that of `u`; then it evaluates lane `l`,
and signs, aspects, outputs and alerts follow. -/
theorem headEvaluated_settle {l : Lane} {s u v : State} (hs : settled s = true)
    (hw : working s = true) (hd : SameDeck u v) (hb : SameBlocks s v) (hk : othersHeads l s u)
    (ha : ∀ y ∈ [AlertSource.noncompliant, .overUndirected], alertOf v y = alertOf s y)
    (hc : (v.counters.lanes.at l).stopped = (s.counters.lanes.at l).stopped)
    (hcl : sameBut l s.counters.lanes v.counters.lanes) :
    headEvaluated l s u (settle (evaluateHead l v)) := by
  have hwv : working v = true := (working_congr hb.startup).trans hw
  have hblocks : SameBlocks s (evaluateHead l v) :=
    have htouch := evaluateHead_touches l v
    ⟨(htouch .startup (by decide)).trans hb.startup, (htouch .cfg (by decide)).trans hb.cfg,
      (htouch .health (by decide)).trans hb.health, (htouch .signs (by decide)).trans hb.signs,
      (htouch .lamps (by decide)).trans hb.lamps⟩
  have hfront : frontHead l v = frontHead l u := hd.frontHead l
  have hcounters : (settle (evaluateHead l v)).counters = (evaluateHead l v).counters :=
    settle_changesOnly _ .counters (by decide)
  refine ⟨?_, fun k hkl => ⟨?_, fun hhead => ?_⟩, ?_, ?_, fun y hy => ?_, ?_, fun k hkl => ?_, ?_⟩
  · refine (bareLine_settle _ l).trans ?_
    rw [stopLine_evaluateHead, if_pos rfl, hfront, hd.stopLine]
    rfl
  · refine (bareLine_settle _ k).trans ?_
    rw [stopLine_evaluateHead, if_neg hkl, hd.stopLine]
    rfl
  · refine stopLine_settle_same hs hblocks ?_
    rw [stopLine_evaluateHead, if_neg hkl, hd.stopLine, hk k hkl, hhead]
  · rw [settle_entry_eq, evaluateHead_entry, ← hd.entry]
    rfl
  · refine (settle_held _).trans ((evaluateHead_held l v).trans ?_)
    rw [hd.heldAfter]
    rfl
  · have hevent : isCondition y = false := by
      obtain rfl | rfl : y = .noncompliant ∨ y = .overUndirected := by simpa using hy
      all_goals rfl
    refine (alertOf_settle_event _ hevent).trans ((alertOf_evaluateHead hwv y hy).trans ?_)
    rw [hfront, hd.stopLine, ha y hy]
    rfl
  · rw [hcounters, evaluateHead_counters, hfront]
    change _ = _ + if frontHead l u = .stop then 1 else 0
    split
    · rw [Tab.at_put_self, hc]
    · simpa using hc
  · rw [hcounters, evaluateHead_counters]
    split
    · rw [Tab.at_put_ne _ _ hkl, hcl k hkl]
    · exact hcl k hkl
  · refine bareLamps_settle_same ?_
    exact hblocks.lamps

/-- Settles O45: the head state by the rules of admission, case by case. -/
theorem headIsEvaluated : Obligations.HeadIsEvaluated := by
  intro s l r rest hq a fits h
  have hh : h = headFor s r := by
    change (stopLine (evaluateHead l s) l).head = _
    rw [stopLine_evaluateHead, if_pos rfl, frontHead_of_cons hq]
  refine ⟨fun hr => hh.trans (headFor_light hr), fun hr hstop => hh.trans (headFor_stop hr hstop),
    fun hr hver hdir => ?_, (stopLine_evaluateHead_queue l l s).trans hq, fun k hk => ?_⟩
  · have heavy := headFor_heavy (s := s) hr (by simp [hver, hdir])
    refine ⟨fun ⟨hfits, hnone⟩ => ?_, fun hnot => ?_⟩
    · exact hh.trans (heavy.trans (if_pos ⟨fits_iff.2 hfits, hnone⟩))
    · rw [if_neg fun ⟨hfits, hnone⟩ => hnot ⟨fits_iff.1 hfits, hnone⟩] at heavy
      refine ⟨hh.trans heavy, ?_⟩
      rw [evaluateHead_held, heldAfter, frontHead_of_cons hq, heavy]
      exact mem_heldWith l s
  · rw [stopLine_evaluateHead, if_neg hk]

end Sys2Proof.Proofs
end

