-- ==== Sys2Proof/Proofs/OutboundLaws.lean ====
section
/-! PROOFS. Queueing a notice (R61 to R65): what it makes of the line, and the alert source it may raise. -/

namespace Sys2Proof.Proofs

open Sys2Proof Sys2Proof.Machine

/-- R65: at a RUNNING station in IDLE the front frame is taken into flight. -/
theorem takeIntoFlight_of_cons {s : State} {w : Waiting} {ws : List Waiting}
    (h : s.line.queue = w :: ws) :
    takeIntoFlight s =
      lined (if s.startup = .running ∧ s.line.transmit = .idle then lineFreed s else s.line) s := by
  simp only [takeIntoFlight, h]
  split
  next hr => rw [lineFreed_of_cons h hr.1]; rfl
  · rfl

theorem takeIntoFlight_line_congr {s t : State} (hs : t.startup = s.startup) (hl : t.line = s.line) :
    (takeIntoFlight t).line = (takeIntoFlight s).line := by
  unfold takeIntoFlight
  rw [hl, hs]
  split
  · exact hl
  · split
    · rfl
    · exact hl

theorem dropFrame_line (s : State) :
    (dropFrame s).line = { s.line with counts.drops := s.line.counts.drops + 1 } :=
  raise_line _ _

theorem queueFrame_line_congr {s t : State} (n : Notice) (hc : t.clock = s.clock)
    (hl : t.line = s.line) : (queueFrame n t).line = (queueFrame n s).line := by
  unfold queueFrame
  dsimp only
  rw [hc, hl]
  split
  · rfl
  split
  · rfl
  split
  · simp only [dropFrame_line]
  · simp only [dropFrame_line, hl]

theorem enqueue_line_congr {s t : State} (n : Notice) (hs : t.startup = s.startup)
    (hc : t.clock = s.clock) (hl : t.line = s.line) : (enqueue n t).line = (enqueue n s).line :=
  takeIntoFlight_line_congr
    ((queueFrame_touches n t .startup (by decide)).trans
      (hs.trans (queueFrame_touches n s .startup (by decide)).symm))
    (queueFrame_line_congr n hc hl)

/-- R63: queueing a notice raises TX_DROP, or nothing. -/
theorem alertOf_enqueue_ne {y : AlertSource} (n : Notice) (s : State) (h : y ≠ .txDrop) :
    alertOf (enqueue n s) y = alertOf s y := by
  refine (alertOf_congr (takeIntoFlight_touches (queueFrame n s) .alerts (by decide)) y).trans ?_
  unfold queueFrame dropFrame
  dsimp only
  split
  · rfl
  split
  · rfl
  split
  · exact alertOf_raise_ne _ h
  · exact alertOf_raise_ne _ h

/-- A notice queued where no frame waits. -/
theorem enqueue_of_nil {s : State} (n : Notice) (h : s.line.queue = []) :
    enqueue n s = lined (lineTakes [n] s) s := by
  have hjoined : queueFrame n s =
      { s with line.queue := s.line.queue ++ [n].map fun n => { notice := n, queued := s.clock } } := by
    unfold queueFrame
    rw [h]
    rfl
  have hcons : (queueFrame n s).line.queue = [{ notice := n, queued := s.clock }] := by
    rw [hjoined, h]
    rfl
  unfold enqueue
  rw [takeIntoFlight_of_cons hcons, hjoined]
  rfl

theorem queueEntered_some {l : Lane} {r : Record} {w : Nat} {s : State} {g : Tag} (h : r.tag = some g) :
    queueEntered l r w s = enqueue (.entered g l w r.effGross s.clock) s := by
  unfold queueEntered
  rw [h]

theorem alertOf_queueEntered_ne {y : AlertSource} (l : Lane) (r : Record) (w : Nat) (s : State)
    (h : y ≠ .txDrop) : alertOf (queueEntered l r w s) y = alertOf s y := by
  unfold queueEntered
  split
  · exact alertOf_enqueue_ne _ s h
  · rfl

/-- Where no frame waits, none is dropped. -/
theorem alertOf_queueEntered_of_nil {l : Lane} {r : Record} {w : Nat} {s : State}
    (h : s.line.queue = []) (y : AlertSource) : alertOf (queueEntered l r w s) y = alertOf s y := by
  unfold queueEntered
  split
  · rw [enqueue_of_nil _ h]
    rfl
  · rfl

end Sys2Proof.Proofs
end

