-- ==== Sys2Proof/Proofs/Crossings.lean ====
section
/-! PROOFS. Heads that leave their queue for the deck (R131, R143 to R148): the deck they leave, what they
raise and count, the notice they queue, and the record behind them. -/

namespace Sys2Proof.Proofs

open Sys2Proof Sys2Proof.Machine

theorem setStopLine_setStopLine (l : Lane) (x y : StopLine) (s : State) :
    setStopLine l x (setStopLine l y s) = setStopLine l x s := by
  have hput : (s.entry.lanes.put l y).put l x = s.entry.lanes.put l x :=
    Tab.ext_at fun k => by
      by_cases hk : k = l
      · subst hk; simp
      · simp [Tab.at_put_ne _ _ hk]
  unfold setStopLine
  rw [hput]

/-- States made from two of one deck, whose entry controllers agree. -/
theorem sameDeck_of {bs cs : List Block} {s t s' t' : State} (h : SameDeck s t)
    (hs : changesOnly bs s s') (ht : changesOnly cs t t') (he : t'.entry = s'.entry)
    (hbs : ∀ b ∈ [Block.startup, .cfg, .clock, .peers], b ∉ bs := by decide)
    (hcs : ∀ b ∈ [Block.startup, .cfg, .clock, .peers], b ∉ cs := by decide) : SameDeck s' t' := by
  have hps : s'.peers = s.peers := hs .peers (hbs _ (by simp))
  have hpt : t'.peers = t.peers := ht .peers (hcs _ (by simp))
  exact ⟨(ht .startup (hcs _ (by simp))).trans (h.startup.trans (hs .startup (hbs _ (by simp))).symm),
    (ht .cfg (hcs _ (by simp))).trans (h.cfg.trans (hs .cfg (hbs _ (by simp))).symm),
    (ht .clock (hcs _ (by simp))).trans (h.clock.trans (hs .clock (hbs _ (by simp))).symm),
    by rw [hpt, hps, h.posture], he⟩

/-! ## The deck once a head has left -/

/-- The head of a lane has left its queue, and nothing stands on the presence input. -/
def lineLeft (l : Lane) (behind : List Record) (s : State) : State :=
  setStopLine l
    { stopLine s l with queue := behind, head := .none, occupied := false, settle := none } s

/-- R143: a light head has left its queue and is counted. -/
def lightLeft (l : Lane) (behind : List Record) (s : State) : State :=
  { lineLeft l behind s with entry.lightCrossed := s.entry.lightCrossed + 1 }

/-- R148: the span set entry of a head that leaves the lane, without flags. -/
def unflagged (l : Lane) (r : Record) (g : Tag) (s : State) : SpanEntry :=
  { tag := g, lane := l, weight := deckWeight s l r, entered := s.clock
    deadline := later s.clock (s.cfg.transit * 1000000), overdue := false, redRun := false
    uncontrolled := false, unseen := false, noncompliant := false }

/-- R145: the deck once a head that was not ADMITTED has entered it. -/
def unadmitted (l : Lane) (r : Record) (g : Tag) (stop : Bool) (behind : List Record) (s : State) :
    State :=
  { lineLeft l behind s with
    entry :=
      if s.entry.span.length + admittedHeads s < 24 then
        { (lineLeft l behind s).entry with
          held := s.entry.held.filter (fun k => decide (k ≠ l))
          span := s.entry.span ++
            [{ unflagged l r g s with
              redRun := decide ((stopLine s l).aspect = some .red)
              uncontrolled := decide ((stopLine s l).aspect = some .dark), noncompliant := stop }] }
      else
        { (lineLeft l behind s).entry with
          held := s.entry.held.filter (fun k => decide (k ≠ l)), lost := true
          recovery := some (later s.clock (s.cfg.transit * 1000000)) } }

section

variable {l : Lane} {r : Record} {g : Tag} {behind : List Record} {s : State}

theorem afterCrossing_of_free (h : (stopLine s l).head = .free) :
    afterCrossing l r g behind s = lightLeft l behind s := by
  simp only [afterCrossing, h]
  rfl

theorem afterCrossing_of_admitted {a : Nat} (h : (stopLine s l).head = .admitted a) :
    afterCrossing l r g behind s =
      runArbiter (joinSpan (unflagged l r g s) (lineLeft l behind s)) := by
  simp only [afterCrossing, h]
  rfl

theorem afterCrossing_of_held {w : Nat} {c : Clock} (h : (stopLine s l).head = .held w c) :
    afterCrossing l r g behind s = runArbiter (unadmitted l r g false behind s) := by
  simp only [afterCrossing, h]
  rfl

theorem afterCrossing_of_stop (h : (stopLine s l).head = .stop) :
    afterCrossing l r g behind s = unadmitted l r g true behind s := by
  simp only [afterCrossing, h]
  rfl

theorem deckWeight_of_admitted {a : Nat} (h : (stopLine s l).head = .admitted a) :
    deckWeight s l r = a := by
  simp only [deckWeight, h]

theorem deckWeight_of_not_admitted (h : (stopLine s l).head.isAdmitted = false) :
    deckWeight s l r = nonAdmittedWeight s r := by
  unfold deckWeight nonAdmittedWeight padded
  cases hh : (stopLine s l).head <;> simp_all [HeadState.isAdmitted]

end

theorem stopLine_lineLeft (l k : Lane) (behind : List Record) (s : State) :
    stopLine (lineLeft l behind s) k =
      if k = l then
        { stopLine s l with queue := behind, head := .none, occupied := false, settle := none }
      else stopLine s k := stopLine_setStopLine _ _ _ _

theorem admittedHeads_lineLeft {l : Lane} {behind : List Record} {s : State}
    (h : (stopLine s l).head.isAdmitted = false) :
    admittedHeads (lineLeft l behind s) = admittedHeads s := by
  have := admittedHeads_setStopLine l
    { stopLine s l with queue := behind, head := .none, occupied := false, settle := none } s
  rw [h] at this
  exact this

theorem committed_lineLeft {l : Lane} {behind : List Record} {s : State} :
    committed (lineLeft l behind s) + (stopLine s l).head.committed = committed s :=
  committed_setStopLine l
    { stopLine s l with queue := behind, head := .none, occupied := false, settle := none } s

/-- The other lanes keep all but their head states. -/
theorem othersHeads_afterCrossing (l : Lane) (r : Record) (g : Tag) (behind : List Record)
    (s : State) : othersHeads l s (afterCrossing l r g behind s) := by
  have hleft {u : State} (hu : u.entry.lanes = (lineLeft l behind s).entry.lanes) :
      ∀ k, k ≠ l → stopLine u k = stopLine s k := fun k hk => by
    rw [stopLine_congr hu, stopLine_lineLeft, if_neg hk]
  have hplain {u : State} (hu : u.entry.lanes = (lineLeft l behind s).entry.lanes) :
      othersHeads l s u := fun k hk => by rw [hleft hu k hk]
  have hrun {u : State} (hu : u.entry.lanes = (lineLeft l behind s).entry.lanes) :
      othersHeads l s (runArbiter u) := fun k hk => by
    rw [(runArbiter_headsOnly u).2 k, hleft hu k hk]
  have hun (stop : Bool) : (unadmitted l r g stop behind s).entry.lanes =
      (lineLeft l behind s).entry.lanes := by
    unfold unadmitted
    dsimp only
    split <;> rfl
  cases hh : (stopLine s l).head with
  | none =>
    have h : afterCrossing l r g behind s = lineLeft l behind s := by
      simp only [afterCrossing, hh]
      rfl
    exact h ▸ hplain rfl
  | free => exact afterCrossing_of_free (g := g) hh ▸ hplain rfl
  | admitted a => exact afterCrossing_of_admitted (g := g) hh ▸ hrun rfl
  | held w c => exact afterCrossing_of_held (g := g) hh ▸ hrun (hun false)
  | stop => exact afterCrossing_of_stop (g := g) hh ▸ hplain (hun true)

/-! ## A head leaves -/

/-- R143 to R146: the head of a lane leaves, before the record behind it is evaluated. -/
def headLeft (l : Lane) (r : Record) (unseen : Bool) (s : State) : State :=
  match (stopLine s l).head with
  | .admitted a => regularCrossing l r a unseen s
  | .held _ _ => nonAdmittedEntry l r true false unseen s
  | .stop => nonAdmittedEntry l r false true unseen s
  | .free => lightCrossing l s
  | .none => popHead l s

theorem headEnters_of_cons {l : Lane} {r : Record} {rest : List Record} {unseen : Bool} {s : State}
    (h : (stopLine s l).queue = r :: rest) :
    headEnters l unseen s = evaluateHead l (headLeft l r unseen s) := by
  simp only [headEnters, h]
  rfl

/-- R145: a head that was not ADMITTED has entered the deck and its notice is queued, before the arbiter
runs. -/
def entered (l : Lane) (r : Record) (wasStop unseen : Bool) (s : State) : State :=
  queueEntered l r (nonAdmittedWeight s r)
    (spanTaken r.tag (unadmittedEntry l r wasStop unseen s) (entryRaised l wasStop unseen s))

theorem headLeft_of_held {l : Lane} {r : Record} {unseen : Bool} {s : State} {w : Nat} {c : Clock}
    (h : (stopLine s l).head = .held w c) :
    headLeft l r unseen s = runArbiter (entered l r false unseen s) := by
  simp only [headLeft, h]
  rfl

theorem headLeft_of_stop {l : Lane} {r : Record} {unseen : Bool} {s : State}
    (h : (stopLine s l).head = .stop) : headLeft l r unseen s = entered l r true unseen s := by
  simp only [headLeft, h]
  rfl

theorem headLeft_of_admitted {l : Lane} {r : Record} {g : Tag} {unseen : Bool} {s : State} {a : Nat}
    (h : (stopLine s l).head = .admitted a) (hg : r.tag = some g) :
    headLeft l r unseen s =
      queueEntered l r a
        (runArbiter (joinSpan { spanEntry s l g a with unseen := unseen } (popHead l s))) := by
  simp only [headLeft, h, regularCrossing, hg]

theorem headLeft_of_free {l : Lane} {r : Record} {unseen : Bool} {s : State}
    (h : (stopLine s l).head = .free) : headLeft l r unseen s = lightCrossing l s := by
  simp only [headLeft, h]

theorem spanTaken_touches (g : Option Tag) (e : Tag → SpanEntry) (s : State) :
    changesOnly [.entry, .alerts] s (spanTaken g e s) := by
  unfold spanTaken setLost joinSpan
  split
  · split
    · exact changesOnly_mono (touches_entry s _) (by simp)
    · exact changesOnly_append (touches_entry s _) (raise_touches _ _)
  · exact changesOnly_refl _ s

theorem entered_touches (l : Lane) (r : Record) (wasStop unseen : Bool) (s : State) :
    changesOnly [.entry, .line, .alerts, .counters] s (entered l r wasStop unseen s) := by
  have hgone : changesOnly [.entry] s (leaveHeld l (popHead l s)) :=
    changesOnly_trans (touches_entry s _) (touches_entry _ _)
  refine changesOnly_mono (changesOnly_append hgone (changesOnly_append
    (entryRaised_touches l wasStop unseen s) (changesOnly_append
    (spanTaken_touches r.tag (unadmittedEntry l r wasStop unseen s) _)
    (queueEntered_touches l r (nonAdmittedWeight s r) _)))) (by simp)

theorem headLeft_touches (l : Lane) (r : Record) (unseen : Bool) (s : State) :
    changesOnly [.entry, .line, .alerts, .counters] s (headLeft l r unseen s) := by
  have hpop : changesOnly [.entry] s (popHead l s) := touches_entry s _
  cases h : (stopLine s l).head with
  | none =>
    simp only [headLeft, h]
    exact changesOnly_mono hpop (by simp)
  | free =>
    rw [headLeft_of_free h]
    exact changesOnly_mono (changesOnly_trans hpop (touches_entry _ _)) (by simp)
  | admitted a =>
    simp only [headLeft, h, regularCrossing]
    split
    · refine changesOnly_trans ?_ (changesOnly_mono (queueEntered_touches _ _ _ _) (by simp))
      refine changesOnly_mono (changesOnly_trans hpop (changesOnly_trans ?_ (runArbiter_touches _))) (by simp)
      exact touches_entry _ _
    · exact changesOnly_mono (changesOnly_trans hpop (runArbiter_touches _)) (by simp)
  | held w c =>
    rw [headLeft_of_held h]
    exact changesOnly_trans (entered_touches _ _ _ _ _) (changesOnly_mono (runArbiter_touches _) (by simp))
  | stop =>
    rw [headLeft_of_stop h]
    exact entered_touches _ _ _ _ _

/-! ## The deck of the station -/

theorem SameDeck.spanTaken {s t : State} (h : SameDeck s t) (g : Option Tag) (e : Tag → SpanEntry) :
    SameDeck (spanTaken g e s) (spanTaken g e t) := by
  refine sameDeck_of h (spanTaken_touches g e s) (spanTaken_touches g e t) ?_
  unfold Proofs.spanTaken
  cases g with
  | none => exact h.entry
  | some g =>
    dsimp only
    rw [h.admittedHeads, h.entry]
    split
    · simp only [joinSpan, h.entry]
    · have hlost (u : State) : (setLost u).entry =
          { u.entry with
            lost := true, recovery := some (later u.clock (u.cfg.transit * 1000000)) } :=
        raise_touches _ _ .entry (by decide)
      rw [hlost, hlost, h.entry, h.clock, h.cfg]

/-- R145: the deck after an unadmitted entry, in terms of the line that its head has left. -/
theorem sameDeck_entered {l : Lane} {r : Record} {g : Tag} {wasStop unseen : Bool} {s : State}
    (hg : r.tag = some g) :
    SameDeck
      (spanTaken (some g) (unadmittedEntry l r wasStop unseen s) (leaveHeld l (popHead l s)))
      (entered l r wasStop unseen s) := by
  unfold entered
  rw [hg]
  exact ((sameDeck_of_touches (entryRaised_touches l wasStop unseen s)).spanTaken _ _).trans
    (sameDeck_of_touches (queueEntered_touches _ _ _ _))

/-- R142: the presence state of a lane has become UNOCCUPIED. -/
def settledLine (l : Lane) (s : State) : State :=
  setStopLine l { stopLine s l with occupied := false, settle := none } s

theorem stopLine_settledLine_self (l : Lane) (s : State) :
    stopLine (settledLine l s) l = { stopLine s l with occupied := false, settle := none } := by
  rw [settledLine, stopLine_setStopLine, if_pos rfl]

theorem settledLine_touches (l : Lane) (s : State) : changesOnly [.entry] s (settledLine l s) :=
  touches_entry s _

theorem popHead_settledLine {l : Lane} {r : Record} {behind : List Record} {s : State}
    (h : (stopLine s l).queue = r :: behind) : popHead l (settledLine l s) = lineLeft l behind s := by
  unfold popHead
  rw [stopLine_settledLine_self, settledLine, setStopLine_setStopLine, h]
  rfl

theorem nonAdmittedWeight_congr {s t : State} (h : t.cfg = s.cfg) (r : Record) :
    nonAdmittedWeight t r = nonAdmittedWeight s r := by
  simp only [nonAdmittedWeight, padded, h]

/-- R145: the deck once a head that was not ADMITTED has crossed. -/
theorem sameDeck_unadmitted {l : Lane} {r : Record} {g : Tag} {behind : List Record} {stop : Bool}
    {s : State} (hq : (stopLine s l).queue = r :: behind) (hg : r.tag = some g)
    (hh : (stopLine s l).head.isAdmitted = false) :
    SameDeck (unadmitted l r g stop behind s) (entered l r stop false (settledLine l s)) := by
  refine SameDeck.trans ?_ (sameDeck_entered hg)
  rw [popHead_settledLine hq]
  refine sameDeck_of (s := lineLeft l behind s) (t := lineLeft l behind s) (.refl _)
    (touches_entry (lineLeft l behind s) _)
    (changesOnly_trans (changesOnly_mono (touches_entry (lineLeft l behind s) _) (by simp))
      (spanTaken_touches (some g) (unadmittedEntry l r stop false (settledLine l s)) _)) ?_
  have hentry : unadmittedEntry l r stop false (settledLine l s) g =
      { unflagged l r g s with
        redRun := decide ((stopLine s l).aspect = some .red)
        uncontrolled := decide ((stopLine s l).aspect = some .dark), noncompliant := stop } := by
    unfold unadmittedEntry unflagged
    rw [stopLine_settledLine_self, deckWeight_of_not_admitted hh,
      nonAdmittedWeight_congr (t := settledLine l s) (s := s) rfl r]
    rfl
  have hcount : admittedHeads (leaveHeld l (lineLeft l behind s)) = admittedHeads s :=
    admittedHeads_lineLeft hh
  have hlost (u : State) : (setLost u).entry =
      { u.entry with
        lost := true, recovery := some (later u.clock (u.cfg.transit * 1000000)) } :=
    raise_touches _ _ .entry (by decide)
  unfold spanTaken
  dsimp only
  rw [hcount, hentry]
  change (if s.entry.span.length + admittedHeads s < 24 then _ else _ : State).entry = _
  unfold unadmitted
  split
  · rfl
  · exact hlost _

/-- R143 to R146: the station's deck is `afterCrossing` once a head has crossed. -/
theorem sameDeck_crossed {l : Lane} {r : Record} {g : Tag} {behind : List Record} {s : State}
    (hq : (stopLine s l).queue = r :: behind)
    (hh : (stopLine s l).head = .free ∨ ((stopLine s l).head ≠ .none ∧ r.tag = some g)) :
    SameDeck (afterCrossing l r g behind s) (headLeft l r false (settledLine l s)) := by
  have hline := stopLine_settledLine_self l s
  cases hhead : (stopLine s l).head with
  | none => simp [hhead] at hh
  | free =>
    rw [headLeft_of_free (by rw [hline]; exact hhead), afterCrossing_of_free hhead, lightCrossing,
      popHead_settledLine hq]
    exact .refl _
  | admitted a =>
    have hg : r.tag = some g := by simpa [hhead] using hh
    rw [headLeft_of_admitted (by rw [hline]; exact hhead) hg, afterCrossing_of_admitted hhead,
      popHead_settledLine hq]
    have hentry : ({ spanEntry (settledLine l s) l g a with unseen := false } : SpanEntry) =
        unflagged l r g s := by
      unfold unflagged
      rw [deckWeight_of_admitted hhead]
      rfl
    rw [hentry]
    exact sameDeck_of_touches (queueEntered_touches _ _ _ _)
  | held w c =>
    have hg : r.tag = some g := by simpa [hhead] using hh
    rw [headLeft_of_held (by rw [hline]; exact hhead), afterCrossing_of_held hhead]
    exact (sameDeck_unadmitted hq hg (by rw [hhead]; rfl)).runArbiter
  | stop =>
    have hg : r.tag = some g := by simpa [hhead] using hh
    rw [headLeft_of_stop (by rw [hline]; exact hhead), afterCrossing_of_stop hhead]
    exact sameDeck_unadmitted hq hg (by rw [hhead]; rfl)

/-! ## What is raised, counted and queued -/

theorem entryRaised_line (l : Lane) (wasStop unseen : Bool) (s : State) :
    (entryRaised l wasStop unseen s).line = s.line :=
  entryRaised_touches l wasStop unseen s .line (by decide)

/-- R147: the line takes the ENTERED notice of a heavy head. -/
theorem headLeft_line {l : Lane} {r : Record} {g : Tag} {unseen : Bool} {s : State}
    (hnone : (stopLine s l).head ≠ .none) (hfree : (stopLine s l).head ≠ .free)
    (hg : r.tag = some g) :
    (headLeft l r unseen s).line =
      (enqueue (.entered g l (deckWeight s l r) r.effGross s.clock) s).line := by
  have hqueued {w : Nat} {u : State} (hu : changesOnly [.entry, .alerts, .counters] s u) :
      (queueEntered l r w u).line = (enqueue (.entered g l w r.effGross s.clock) s).line := by
    have hclock : u.clock = s.clock := hu .clock (by decide)
    rw [queueEntered_some hg, hclock]
    exact enqueue_line_congr _ (hu .startup (by decide)) hclock (hu .line (by decide))
  have hentered (wasStop : Bool) : (entered l r wasStop unseen s).line =
      (enqueue (.entered g l (nonAdmittedWeight s r) r.effGross s.clock) s).line := by
    refine hqueued (changesOnly_mono (changesOnly_append (changesOnly_append
      (changesOnly_trans (touches_entry s _) (touches_entry _ _))
      (entryRaised_touches l wasStop unseen s)) (spanTaken_touches _ _ _)) (by simp))
  cases h : (stopLine s l).head with
  | none => exact absurd h hnone
  | free => exact absurd h hfree
  | admitted a =>
    rw [headLeft_of_admitted h hg, deckWeight_of_admitted h]
    exact hqueued (changesOnly_mono (changesOnly_trans (touches_entry s _)
      (changesOnly_trans (touches_entry _ _) (runArbiter_touches _))) (by simp))
  | held w c =>
    rw [headLeft_of_held h, deckWeight_of_not_admitted (by rw [h]; rfl)]
    exact ((runArbiter_touches (entered l r false unseen s)) .line (by decide)).trans (hentered false)
  | stop =>
    rw [headLeft_of_stop h, deckWeight_of_not_admitted (by rw [h]; rfl)]
    exact hentered true

/-- R143: a light head queues and raises nothing. -/
theorem headLeft_free_touches {l : Lane} {r : Record} {unseen : Bool} {s : State}
    (h : (stopLine s l).head = .free) : changesOnly [.entry] s (headLeft l r unseen s) := by
  rw [headLeft_of_free h]
  exact changesOnly_trans (touches_entry s _) (touches_entry _ _)

/-- What the alert unit keeps of a source that is raised if `b`. -/
def raisedIf (b : Bool) (a : AlertState) : AlertState := if b then raisedAlert a else a

theorem alertOf_raise {s : State} (hw : working s = true) (x y : AlertSource) :
    alertOf (raise x s) y = raisedIf (decide (y = x)) (alertOf s y) := by
  unfold raisedIf
  by_cases h : y = x
  · rw [if_pos (decide_eq_true h), h, alertOf_raise_self hw]
  · rw [if_neg (by simpa using h), alertOf_raise_ne s h]

theorem alertOf_aspectAlerts {s : State} (hw : working s = true) (l : Lane) (a : Option Aspect)
    (y : AlertSource) :
    alertOf (aspectAlerts l a s) y =
      raisedIf (decide (a = some .red ∧ y = .redRun ∨ a = some .dark ∧ y = .uncontrolled))
        (alertOf s y) := by
  unfold aspectAlerts
  split
  · exact (alertOf_raise hw .redRun y).trans (by simp)
  · exact (alertOf_raise hw .uncontrolled y).trans (by simp)
  next hred hdark =>
    rw [decide_eq_false (by rintro (⟨h, -⟩ | ⟨h, -⟩); exacts [hred h, hdark h])]
    rfl

/-- R145, R131: the sources raised for a head that enters unadmitted. -/
theorem alertOf_entryRaised {s : State} (hw : working s = true) (l : Lane) (wasStop unseen : Bool)
    (y : AlertSource) :
    alertOf (entryRaised l wasStop unseen s) y =
      raisedIf (wasStop && !unseen && decide (y = .noncompliantEntered))
        (raisedIf (!unseen && decide ((stopLine s l).aspect = some .red ∧ y = .redRun ∨
            (stopLine s l).aspect = some .dark ∧ y = .uncontrolled)) (alertOf s y)) := by
  have hgone : working (leaveHeld l (popHead l s)) = true := hw
  have hshown : alertOf (aspectAlerts l (stopLine s l).aspect (leaveHeld l (popHead l s))) y =
      raisedIf (decide ((stopLine s l).aspect = some .red ∧ y = .redRun ∨
        (stopLine s l).aspect = some .dark ∧ y = .uncontrolled)) (alertOf s y) :=
    alertOf_aspectAlerts hgone l (stopLine s l).aspect y
  have hws : working (aspectAlerts l (stopLine s l).aspect (leaveHeld l (popHead l s))) = true :=
    (working_congr (aspectAlerts_touches l (stopLine s l).aspect _ .startup (by decide))).trans hgone
  unfold entryRaised
  cases unseen with
  | true =>
    simp only [Bool.not_true, Bool.and_false, Bool.false_and, raisedIf]
    rfl
  | false =>
    cases wasStop with
    | false => simpa [raisedIf] using hshown
    | true =>
      simp only [Bool.not_false, Bool.and_true, Bool.true_and, if_true]
      refine (alertOf_raise hws .noncompliantEntered y).trans ?_
      rw [hshown]

/-- R137: ACCOUNTING_LOST is raised where the span set has no room. -/
theorem alertOf_spanTaken {s : State} (hw : working s = true) (g : Tag) (e : Tag → SpanEntry)
    (y : AlertSource) :
    alertOf (spanTaken (some g) e s) y =
      raisedIf (decide (24 ≤ s.entry.span.length + admittedHeads s ∧ y = .accountingLost))
        (alertOf s y) := by
  unfold spanTaken
  dsimp only
  split
  next h => simp [raisedIf, Nat.not_le.2 h, joinSpan, alertOf]
  next h =>
    have hlost : working { s with
      entry.lost := true, entry.recovery := some (later s.clock (s.cfg.transit * 1000000)) } = true := hw
    refine (alertOf_raise hlost .accountingLost y).trans ?_
    simp only [Nat.not_lt.1 h, true_and]
    rfl

theorem alertOf_entered {l : Lane} {r : Record} {g : Tag} {wasStop unseen : Bool} {s : State}
    {y : AlertSource} (hw : working s = true) (hg : r.tag = some g)
    (hh : (stopLine s l).head.isAdmitted = false) (hy : y ≠ .txDrop ∨ s.line.queue = []) :
    alertOf (entered l r wasStop unseen s) y =
      raisedIf (decide (24 ≤ s.entry.span.length + admittedHeads s ∧ y = .accountingLost))
        (raisedIf (wasStop && !unseen && decide (y = .noncompliantEntered))
          (raisedIf (!unseen && decide ((stopLine s l).aspect = some .red ∧ y = .redRun ∨
            (stopLine s l).aspect = some .dark ∧ y = .uncontrolled)) (alertOf s y))) := by
  have hraised := entryRaised_touches l wasStop unseen s
  have hwr : working (entryRaised l wasStop unseen s) = true :=
    (working_congr (hraised .startup (by decide))).trans hw
  have hentry : (entryRaised l wasStop unseen s).entry = (leaveHeld l (popHead l s)).entry :=
    hraised .entry (by decide)
  have hcount : admittedHeads (entryRaised l wasStop unseen s) = admittedHeads s := by
    have hsum := admittedHeads_popHead l s
    rw [hh, if_neg Bool.false_ne_true, Nat.add_zero] at hsum
    rw [← hsum]
    simp only [admittedHeads, hentry]
    rfl
  have hspan : (entryRaised l wasStop unseen s).entry.span = s.entry.span := by rw [hentry]; rfl
  have hqueued (u : State) (hu : u.line = s.line) :
      alertOf (queueEntered l r (nonAdmittedWeight s r) u) y = alertOf u y := by
    obtain hy | hnil := hy
    · exact alertOf_queueEntered_ne l r _ u hy
    · exact alertOf_queueEntered_of_nil (by rw [hu, hnil]) y
  have hline : (spanTaken r.tag (unadmittedEntry l r wasStop unseen s)
      (entryRaised l wasStop unseen s)).line = s.line :=
    (spanTaken_touches _ _ _ .line (by decide)).trans (entryRaised_line l wasStop unseen s)
  unfold entered
  rw [hqueued _ hline, hg, alertOf_spanTaken hwr, hcount, hspan, alertOf_entryRaised hw]

/-- R145: the red-runs counter is the only one an entry advances. -/
theorem entered_counters (l : Lane) (r : Record) (wasStop unseen : Bool) (s : State) :
    (entered l r wasStop unseen s).counters =
      if unseen = false ∧ (stopLine s l).aspect = some .red then
        { s.counters with
          lanes := s.counters.lanes.upd l fun c => { c with redRuns := c.redRuns + 1 } }
      else s.counters := by
  have hqueued : (entered l r wasStop unseen s).counters = (entryRaised l wasStop unseen s).counters :=
    (queueEntered_touches l r _ _ .counters (by decide)).trans
      (spanTaken_touches r.tag _ _ .counters (by decide))
  have hraise (x : AlertSource) (u : State) : (raise x u).counters = u.counters :=
    raise_touches x u .counters (by decide)
  have hshown (u : State) (a : Option Aspect) : (aspectAlerts l a u).counters =
      if a = some .red then
        { u.counters with
          lanes := u.counters.lanes.upd l fun c => { c with redRuns := c.redRuns + 1 } }
      else u.counters := by
    unfold aspectAlerts
    split
    · rw [if_pos rfl]
      simp only [countLane, hraise]
    · rw [if_neg (by simp)]
      exact hraise _ _
    next hred _ => rw [if_neg fun h => hred h]
  rw [hqueued]
  unfold entryRaised
  cases unseen with
  | true =>
    rw [if_neg (by simp)]
    cases wasStop <;> rfl
  | false =>
    have h := hshown (leaveHeld l (popHead l s)) (stopLine s l).aspect
    simp only [true_and]
    cases wasStop with
    | false => exact h
    | true => exact (hraise _ _).trans h

end Sys2Proof.Proofs
end

