-- ==== Sys2Proof/Proofs/Crossed.lean ====
section
/-! PROOFS. PRESENCE_SETTLED at a lane with a head (R142 to R148): the station once the head has crossed,
the record behind it is evaluated, and signs, aspects, outputs and alerts follow. -/

namespace Sys2Proof.Proofs

open Sys2Proof Sys2Proof.Machine

/-! ## A lane without a head -/

/-- The arbiter leaves a lane without a head as it is. -/
theorem stopLine_arbiterFrom_of_none (ls : List Lane) {l : Lane} {s : State}
    (h : (stopLine s l).head = .none) : stopLine (arbiterFrom ls s) l = stopLine s l := by
  induction ls generalizing s with
  | nil => rfl
  | cons k ls ih =>
    simp only [arbiterFrom]
    split
    next w c r rest hk hr =>
      have hne : l ≠ k := fun e => by rw [← e, h] at hk; cases hk
      split
      · have hkept : stopLine (leaveHeld k (setHead k (.admitted (admissionWeight s r)) s)) l =
            stopLine s l := by rw [stopLine_leaveHeld, stopLine_setHead, if_neg hne]
        rw [ih (by rw [hkept, h]), hkept]
      · rw [stopLine_setHead, if_neg hne]
    · rfl

theorem stopLine_runArbiter_of_none {l : Lane} {s : State} (h : (stopLine s l).head = .none) :
    stopLine (runArbiter s) l = stopLine s l := by
  unfold runArbiter
  split
  · exact stopLine_arbiterFrom_of_none _ h
  · rfl

theorem unadmitted_lanes (l : Lane) (r : Record) (g : Tag) (stop : Bool) (behind : List Record)
    (s : State) :
    (unadmitted l r g stop behind s).entry.lanes = (lineLeft l behind s).entry.lanes := by
  unfold unadmitted
  dsimp only
  split <;> rfl

theorem unadmitted_held (l : Lane) (r : Record) (g : Tag) (stop : Bool) (behind : List Record)
    (s : State) :
    (unadmitted l r g stop behind s).entry.held = s.entry.held.filter fun k => decide (k ≠ l) := by
  unfold unadmitted
  dsimp only
  split <;> rfl

/-- The lane a head has crossed from. -/
theorem stopLine_afterCrossing_self (l : Lane) (r : Record) (g : Tag) (behind : List Record)
    (s : State) :
    stopLine (afterCrossing l r g behind s) l =
      { stopLine s l with queue := behind, head := .none, occupied := false, settle := none } := by
  have hleft {u : State} (hu : u.entry.lanes = (lineLeft l behind s).entry.lanes) :
      stopLine u l =
        { stopLine s l with queue := behind, head := .none, occupied := false, settle := none } := by
    rw [stopLine_congr hu, stopLine_lineLeft, if_pos rfl]
  have hrun {u : State} (hu : u.entry.lanes = (lineLeft l behind s).entry.lanes) :
      stopLine (runArbiter u) l =
        { stopLine s l with queue := behind, head := .none, occupied := false, settle := none } := by
    rw [stopLine_runArbiter_of_none (by rw [hleft hu]), hleft hu]
  cases hh : (stopLine s l).head with
  | none =>
    have h : afterCrossing l r g behind s = lineLeft l behind s := by
      simp only [afterCrossing, hh]
      rfl
    exact h ▸ hleft rfl
  | free => exact afterCrossing_of_free (g := g) hh ▸ hleft rfl
  | admitted a => exact afterCrossing_of_admitted (g := g) hh ▸ hrun rfl
  | held w c => exact afterCrossing_of_held (g := g) hh ▸ hrun (unadmitted_lanes ..)
  | stop => exact afterCrossing_of_stop (g := g) hh ▸ hleft (unadmitted_lanes ..)

/-! ## The station once a head has crossed -/

/-- The station after PRESENCE_SETTLED, before signs, aspects, outputs and alerts follow. -/
def crossedDeck (l : Lane) (r : Record) (s : State) : State :=
  evaluateHead l (headLeft l r false (settledLine l s))

theorem exec_presenceSettled_crossing {l : Lane} {r : Record} {behind : List Record} {s : State}
    (hacts : laneActs s l = true) (hdue : due s.clock (stopLine s l).settle = true)
    (hocc : (stopLine s l).occupied = true) (hq : (stopLine s l).queue = r :: behind) :
    exec (.presenceSettled l) s = .next (settle (crossedDeck l r s)) := by
  have hline : (stopLine (settledLine l s) l).queue = r :: behind := by
    rw [stopLine_settledLine_self]
    exact hq
  have hcross : crossing l (settledLine l s) = crossedDeck l r s := by
    unfold crossing
    rw [hline, if_neg (by simp), headEnters_of_cons hline]
    rfl
  have hexec : exec (.presenceSettled l) s = done (crossing l (settledLine l s)) := by
    simp only [exec, execPresenceSettled, hacts, hdue, hocc, and_self, if_true]
    rfl
  rw [hexec, hcross]
  rfl

theorem working_of_laneActs {s : State} {l : Lane} (h : laneActs s l = true) : working s = true := by
  simp only [laneActs, entryActs, Bool.and_eq_true] at h
  exact h.1.1

section

variable {l : Lane} {r : Record} {g : Tag} {behind : List Record} {s : State}

theorem headLeft_settledLine_touches (l : Lane) (r : Record) (s : State) :
    changesOnly [.entry, .line, .alerts, .counters] s (headLeft l r false (settledLine l s)) :=
  changesOnly_trans (changesOnly_mono (settledLine_touches l s) (by simp)) (headLeft_touches _ _ _ _)

theorem crossedDeck_touches (l : Lane) (r : Record) (s : State) :
    changesOnly [.entry, .line, .alerts, .counters] s (crossedDeck l r s) :=
  changesOnly_trans (headLeft_settledLine_touches l r s)
    (changesOnly_mono (evaluateHead_touches _ _) (by simp))

theorem crossed_touches (hs : settled s = true) (l : Lane) (r : Record) :
    changesOnly [.entry, .line, .counters, .lamps, .alerts] s (settle (crossedDeck l r s)) :=
  changesOnly_settle_signs hs (crossedDeck_touches l r s)
    (sameBlocks_of_touches (crossedDeck_touches l r s))

/-- Of the sources a head may raise, none is raised by any other. -/
theorem alertOf_headLeft_ne {y : AlertSource} (hw : working s = true)
    (hh : (stopLine s l).head = .free ∨ ((stopLine s l).head ≠ .none ∧ r.tag = some g))
    (hy : y ∉ [.noncompliantEntered, .redRun, .uncontrolled, .accountingLost, .txDrop]) :
    alertOf (headLeft l r false (settledLine l s)) y = alertOf s y := by
  have hline := stopLine_settledLine_self l s
  have hws : working (settledLine l s) = true := hw
  simp only [List.mem_cons, List.not_mem_nil, or_false, not_or] at hy
  obtain ⟨h1, h2, h3, h4, h5⟩ := hy
  have hentered (stop : Bool) (hn : (stopLine s l).head.isAdmitted = false) (hg : r.tag = some g) :
      alertOf (entered l r stop false (settledLine l s)) y = alertOf s y := by
    rw [alertOf_entered hws hg (by rw [hline]; exact hn) (.inl h5)]
    simp only [h1, h2, h3, h4, and_false, or_false, decide_false, Bool.and_false, raisedIf]
    rfl
  cases hhead : (stopLine s l).head with
  | none => simp [hhead] at hh
  | free => exact alertOf_congr (headLeft_free_touches (by rw [hline]; exact hhead) .alerts (by decide)) y
  | admitted a =>
    have hg : r.tag = some g := by simpa [hhead] using hh
    rw [headLeft_of_admitted (by rw [hline]; exact hhead) hg, alertOf_queueEntered_ne _ _ _ _ h5]
    exact alertOf_congr (runArbiter_touches _ .alerts (by decide)) y
  | held w c =>
    have hg : r.tag = some g := by simpa [hhead] using hh
    rw [headLeft_of_held (by rw [hline]; exact hhead)]
    exact (alertOf_congr (runArbiter_touches _ .alerts (by decide)) y).trans
      (hentered false (by rw [hhead]; rfl) hg)
  | stop =>
    have hg : r.tag = some g := by simpa [hhead] using hh
    rw [headLeft_of_stop (by rw [hline]; exact hhead)]
    exact hentered true (by rw [hhead]; rfl) hg

/-- The counters of a head that leaves: at most the red-runs of its lane. -/
theorem headLeft_counters (hh : (stopLine s l).head ≠ .stop)
    (hheld : ∀ w c, (stopLine s l).head ≠ .held w c) :
    (headLeft l r false (settledLine l s)).counters = s.counters := by
  have hline := stopLine_settledLine_self l s
  cases hhead : (stopLine s l).head with
  | none =>
    simp only [headLeft, hline, hhead]
    rfl
  | free => exact headLeft_free_touches (by rw [hline]; exact hhead) .counters (by decide)
  | admitted a =>
    simp only [headLeft, hline, hhead, regularCrossing]
    split
    · exact (queueEntered_touches _ _ _ _ .counters (by decide)).trans
        (runArbiter_touches _ .counters (by decide))
    · exact runArbiter_touches _ .counters (by decide)
  | held w c => exact absurd hhead (hheld w c)
  | stop => exact absurd hhead hh

theorem headLeft_counters_unadmitted
    (hh : (stopLine s l).head = .stop ∨ ∃ w c, (stopLine s l).head = .held w c) :
    (headLeft l r false (settledLine l s)).counters =
      if (stopLine s l).aspect = some .red then
        { s.counters with
          lanes := s.counters.lanes.upd l fun c => { c with redRuns := c.redRuns + 1 } }
      else s.counters := by
  have hline := stopLine_settledLine_self l s
  have hentered (stop : Bool) : (entered l r stop false (settledLine l s)).counters =
      if (stopLine s l).aspect = some .red then
        { s.counters with
          lanes := s.counters.lanes.upd l fun c => { c with redRuns := c.redRuns + 1 } }
      else s.counters := by
    rw [entered_counters, hline]
    simp only [true_and]
    rfl
  obtain hstop | ⟨w, c, hheld⟩ := hh
  · rw [headLeft_of_stop (by rw [hline]; exact hstop)]
    exact hentered true
  · rw [headLeft_of_held (by rw [hline]; exact hheld)]
    exact (runArbiter_touches _ .counters (by decide)).trans (hentered false)

/-- A head that leaves advances no counter of STOP heads and none of another lane. -/
theorem headLeft_counters_kept (l : Lane) (r : Record) (s : State) :
    ((headLeft l r false (settledLine l s)).counters.lanes.at l).stopped =
        (s.counters.lanes.at l).stopped ∧
      sameBut l s.counters.lanes (headLeft l r false (settledLine l s)).counters.lanes := by
  by_cases hh : (stopLine s l).head = .stop ∨ ∃ w c, (stopLine s l).head = .held w c
  · rw [headLeft_counters_unadmitted hh]
    split
    · exact ⟨by simp, fun k hk => Tab.at_upd_ne _ _ hk⟩
    · exact ⟨rfl, fun _ _ => rfl⟩
  · obtain ⟨hstop, hheld⟩ := not_or.1 hh
    rw [headLeft_counters hstop fun w c h => hheld ⟨w, c, h⟩]
    exact ⟨rfl, fun _ _ => rfl⟩

/-- R132 to R134: the record behind the head that has crossed is evaluated. -/
theorem crossed_evaluated (hs : settled s = true) (hw : working s = true)
    (hq : (stopLine s l).queue = r :: behind)
    (hh : (stopLine s l).head = .free ∨ ((stopLine s l).head ≠ .none ∧ r.tag = some g)) :
    headEvaluated l s (afterCrossing l r g behind s) (settle (crossedDeck l r s)) := by
  obtain ⟨hstopped, hother⟩ := headLeft_counters_kept l r s
  refine headEvaluated_settle hs hw (sameDeck_crossed hq hh)
    (sameBlocks_of_touches (headLeft_settledLine_touches l r s)) (othersHeads_afterCrossing l r g behind s)
    (fun y hy => alertOf_headLeft_ne hw hh ?_) hstopped hother
  obtain rfl | rfl : y = .noncompliant ∨ y = .overUndirected := by simpa using hy
  all_goals decide

/-- The lane a head has crossed from, once all is done. -/
theorem crossed_line_self (hs : settled s = true) (hw : working s = true)
    (hq : (stopLine s l).queue = r :: behind)
    (hh : (stopLine s l).head = .free ∨ ((stopLine s l).head ≠ .none ∧ r.tag = some g)) :
    bareLine (stopLine (settle (crossedDeck l r s)) l) =
      bareLine
        { stopLine s l with
          queue := behind, head := behind.head?.elim .none (headFor (afterCrossing l r g behind s))
          occupied := false, settle := none } := by
  have h := (crossed_evaluated (g := g) hs hw hq hh).1
  rw [stopLine_afterCrossing_self] at h
  exact h

/-- A source no crossing raises stands as it was. -/
theorem alertOf_crossed {y : AlertSource} (hw : working s = true)
    (hh : (stopLine s l).head = .free ∨ ((stopLine s l).head ≠ .none ∧ r.tag = some g))
    (he : isCondition y = false)
    (hy : y ∉ [.noncompliant, .overUndirected, .noncompliantEntered, .redRun, .uncontrolled,
      .accountingLost, .txDrop]) : alertOf (settle (crossedDeck l r s)) y = alertOf s y := by
  simp only [List.mem_cons, List.not_mem_nil, or_false, not_or] at hy
  obtain ⟨h1, h2, h3, h4, h5, h6, h7⟩ := hy
  rw [alertOf_settle_event _ he, crossedDeck, alertOf_evaluateHead_ne h1 h2,
    alertOf_headLeft_ne hw hh (by simp [h3, h4, h5, h6, h7])]

theorem settle_line (u : State) : (settle u).line = u.line := settle_changesOnly u .line (by decide)

theorem settle_counters (u : State) : (settle u).counters = u.counters :=
  settle_changesOnly u .counters (by decide)

theorem enqueue_settledLine (n : Notice) (l : Lane) (s : State) :
    (enqueue n (settledLine l s)).line = (enqueue n s).line := enqueue_line_congr n rfl rfl rfl

/-- R147: the ENTERED notice of a heavy head joins the line. -/
theorem crossed_line (hnone : (stopLine s l).head ≠ .none) (hfree : (stopLine s l).head ≠ .free)
    (hg : r.tag = some g) :
    (settle (crossedDeck l r s)).line =
      (enqueue (.entered g l (deckWeight s l r) r.effGross s.clock) s).line := by
  have hline := stopLine_settledLine_self l s
  have hweight : deckWeight (settledLine l s) l r = deckWeight s l r := by
    simp only [deckWeight, hline]
    rfl
  rw [settle_line, crossedDeck, evaluateHead_touches _ _ .line (by decide),
    headLeft_line (g := g) (by rw [hline]; exact hnone) (by rw [hline]; exact hfree) hg, hweight]
  exact enqueue_settledLine _ l s

end

end Sys2Proof.Proofs
end

