-- ==== Sys2Proof/Proofs/DeckEvents.lean ====
section
/-! PROOFS. PRESENCE_INPUT_CHANGE and PRESENCE_SETTLED: presence states, phantoms, light crossings, and
heavy heads that enter the deck (R142 to R148). -/

namespace Sys2Proof.Proofs

open Sys2Proof Sys2Proof.Machine

/-! ## Nothing that follows has changed -/

/-- With signs, aspects and outputs as they must be, raw states as they were and the alert unit as it was
there is nothing to be done. -/
theorem settle_followed {s u : State} (hs : settled s = true) (h : SameFollowed s u)
    (ha : u.alerts = s.alerts) (hraw : ∀ y, rawState u y = rawState s y) : settle u = u := by
  have hevents := settle_events hs h hraw fun y _ => alertOf_congr ha y
  have halerts := settle_alerts_same hs h.startup h.cfg ha hraw
  have hdriven : driveAlertLines u = { u with alerts := (driveAlertLines u).alerts } := rfl
  rw [hevents] at halerts
  rw [hevents, hdriven, halerts, ← ha]

/-- The blocks that signs, aspects, outputs and raw states depend on, but for the entry controller. -/
def followedBlocks : List Block := [.startup, .cfg, .health, .signs, .lamps, .probe]

theorem sameFollowed_of_wanted {bs : List Block} {s u : State} (h : changesOnly bs s u)
    (hl : ∀ k, (stopLine u k).aspect = (stopLine s k).aspect ∧
      (stopLine u k).amber = (stopLine s k).amber ∧ wantedAspect u k = wantedAspect s k)
    (hb : ∀ b ∈ followedBlocks, b ∉ bs := by decide) : SameFollowed s u :=
  ⟨h .startup (hb _ (by simp [followedBlocks])), h .cfg (hb _ (by simp [followedBlocks])),
    h .signs (hb _ (by simp [followedBlocks])),
    signRequested_of (h .startup (hb _ (by simp [followedBlocks])))
      (h .cfg (hb _ (by simp [followedBlocks]))) (h .signs (hb _ (by simp [followedBlocks])))
      fun p => stripFailed_congr (h .health (hb _ (by simp [followedBlocks]))) p,
    h .lamps (hb _ (by simp [followedBlocks])), fun k => (hl k).1, fun k => (hl k).2.1,
    fun k => (hl k).2.2⟩

/-- Of the entry controller the raw states read the span set alone, and of that SPAN_OVERDUE alone. -/
theorem rawState_withEntry {u : State} {e : EntryController} {y : AlertSource}
    (h : y = .spanOverdue → e.span = u.entry.span) : rawState { u with entry := e } y = rawState u y := by
  cases y
  case spanOverdue => simp only [rawState, h rfl]
  all_goals rfl

/-- The raw states of a state whose span set is as it was. -/
theorem rawState_of_span {bs : List Block} {s u : State} (h : changesOnly bs s u)
    (hspan : u.entry.span = s.entry.span) (hp : u.peers.posture = s.peers.posture)
    (hb : ∀ b ∈ followedBlocks, b ∉ bs := by decide) (y : AlertSource) :
    rawState u y = rawState s y := by
  have hprobe : u.probe = s.probe := h .probe (hb _ (by simp [followedBlocks]))
  rw [← rawState_withEntry (u := u) (e := s.entry) fun _ => hspan.symm]
  exact rawState_congr (s := s) (t := { u with entry := s.entry })
    (h .lamps (hb _ (by simp [followedBlocks]))) (h .cfg (hb _ (by simp [followedBlocks])))
    (h .health (hb _ (by simp [followedBlocks]))) rfl hp (congrArg Probe.theta hprobe) y

/-- A command that writes stop lines, none of which then asks for another aspect. -/
theorem done_lines {bs : List Block} {s u : State} (hs : settled s = true) (h : changesOnly bs s u)
    (hspan : u.entry.span = s.entry.span)
    (hl : ∀ k, (stopLine u k).aspect = (stopLine s k).aspect ∧
      (stopLine u k).amber = (stopLine s k).amber ∧ wantedAspect u k = wantedAspect s k)
    (hb : ∀ b ∈ [Block.peers, .alerts] ++ followedBlocks, b ∉ bs := by decide) :
    done u = .next u := by
  have hf : ∀ b ∈ followedBlocks, b ∉ bs := fun b hm => hb b (List.mem_append_right _ hm)
  have hpeers : u.peers = s.peers := h .peers (hb _ (by simp))
  rw [done, settle_followed hs (sameFollowed_of_wanted h hl hf) (h .alerts (hb _ (by simp)))
    (rawState_of_span h hspan (by rw [hpeers]) hf)]

/-- A lane written without a change of head, aspect or amber timer. -/
theorem done_setStopLine {bs : List Block} {s v : State} (hs : settled s = true) (h : changesOnly bs s v)
    (l : Lane) (x : StopLine) (hx : x.head = (stopLine s l).head ∧ x.aspect = (stopLine s l).aspect ∧
      x.amber = (stopLine s l).amber)
    (hb : ∀ b ∈ [Block.entry, .peers, .alerts] ++ followedBlocks, b ∉ bs := by decide) :
    done (setStopLine l x v) = .next (setStopLine l x v) := by
  have hentry : v.entry = s.entry := h .entry (hb _ (by simp))
  have htouch : changesOnly (bs ++ [.entry]) s (setStopLine l x v) :=
    changesOnly_append h (touches_entry v _)
  have hblocks : ∀ b ∈ [Block.peers, .alerts] ++ followedBlocks, b ∉ bs ++ [.entry] := by
    intro b hm hmem
    obtain hmem | hmem := List.mem_append.1 hmem
    · exact hb b (List.mem_cons_of_mem _ hm) hmem
    · obtain rfl := List.mem_singleton.1 hmem
      revert hm
      decide
  have hf : ∀ b ∈ followedBlocks, b ∉ bs ++ [.entry] :=
    fun b hm => hblocks b (List.mem_append_right _ hm)
  obtain ⟨hhead, haspect, hamber⟩ := hx
  have hstop (k : Lane) : stopLine v k = stopLine s k := stopLine_congr (by rw [hentry]) k
  have hline (k : Lane) : (stopLine (setStopLine l x v) k).head = (stopLine s k).head ∧
      (stopLine (setStopLine l x v) k).aspect = (stopLine s k).aspect ∧
      (stopLine (setStopLine l x v) k).amber = (stopLine s k).amber := by
    rw [stopLine_setStopLine]
    split
    next e => subst e; exact ⟨hhead, haspect, hamber⟩
    next => rw [hstop]; exact ⟨rfl, rfl, rfl⟩
  refine done_lines hs htouch ?_ (fun k => ⟨(hline k).2.1, (hline k).2.2, ?_⟩) hblocks
  · rw [setStopLine_span, hentry]
  · exact wantedAspect_congr (htouch .cfg (hf _ (by simp [followedBlocks])))
      (htouch .health (hf _ (by simp [followedBlocks])))
      (groupFaulted_congr (htouch .lamps (hf _ (by simp [followedBlocks]))) k) (hline k).1

/-! ## Presence inputs (R142) -/

theorem settleTimer_kept (now : Clock) (v : Bool) (x : StopLine) :
    (settleTimer now v x).head = x.head ∧ (settleTimer now v x).aspect = x.aspect ∧
      (settleTimer now v x).amber = x.amber := by
  unfold settleTimer
  split
  · exact ⟨rfl, rfl, rfl⟩
  · split <;> exact ⟨rfl, rfl, rfl⟩

/-- The station once a presence input reads a level. -/
def inputRead (l : Lane) (v : Bool) (s : State) : State :=
  { s with inputs.presence := s.inputs.presence.put l v }

theorem inputRead_touches (l : Lane) (v : Bool) (s : State) : changesOnly [.inputs] s (inputRead l v s) :=
  touches_inputs s _

theorem exec_presenceInputChange {s : State} (hs : settled s = true) (l : Lane) (v : Bool) :
    exec (.presenceInputChange l v) s =
      .next (if laneActs s l then
        setStopLine l (settleTimer s.clock v (stopLine s l)) (inputRead l v s)
      else inputRead l v s) := by
  have hexec : exec (.presenceInputChange l v) s =
      if laneActs s l then
        done (setStopLine l (settleTimer s.clock v (stopLine s l)) (inputRead l v s))
      else done (inputRead l v s) := rfl
  rw [hexec]
  split
  · exact done_setStopLine hs (inputRead_touches l v s) l _ (settleTimer_kept _ _ _)
  · exact done_quiet hs (inputRead_touches l v s)

theorem presenceInputChange_spec {s : State} (hs : settled s = true) (l : Lane) (v : Bool) :
    ∃ t, exec (.presenceInputChange l v) s = .next t ∧ t.inputs.presence.at l = v ∧
      sameBut l s.inputs.presence t.inputs.presence ∧ t.inputs.above = s.inputs.above ∧
      (laneActs s l = false → changesOnly [.inputs] s t) ∧
      (laneActs s l = true → v = (stopLine s l).occupied →
        stopLine t l = { stopLine s l with settle := none }) ∧
      (laneActs s l = true → v ≠ (stopLine s l).occupied → (stopLine s l).settle = none →
        stopLine t l =
          { stopLine s l with settle := some (later s.clock (if v then 50000 else 100000)) }) ∧
      (∀ k, k ≠ l → stopLine t k = stopLine s k) ∧
      t.entry = { s.entry with lanes := t.entry.lanes } ∧ changesOnly [.inputs, .entry] s t := by
  refine ⟨_, exec_presenceInputChange hs l v, ?_⟩
  have hput : (s.inputs.presence.put l v).at l = v := Tab.at_put_self _ _ _
  have hbut : sameBut l s.inputs.presence (s.inputs.presence.put l v) := fun k hk => Tab.at_put_ne _ _ hk
  have htouch := inputRead_touches l v s
  split
  next ha =>
    have hline (x : StopLine) : stopLine (setStopLine l x (inputRead l v s)) l = x := by
      rw [stopLine_setStopLine, if_pos rfl]
    refine ⟨hput, hbut, rfl, fun h => (by rw [ha] at h; cases h), fun _ hv => ?_, fun _ hv hnone => ?_,
      fun k hk => ?_, rfl, changesOnly_append htouch (touches_entry _ _)⟩
    · rw [hline, settleTimer, if_pos hv]
    · rw [hline, settleTimer, if_neg hv, hnone]
    · rw [stopLine_setStopLine, if_neg hk]
      rfl
  next ha =>
    exact ⟨hput, hbut, rfl, fun _ => htouch, fun h => absurd h ha, fun h => absurd h ha, fun _ _ => rfl,
      rfl, changesOnly_mono htouch (by simp)⟩

/-! ## Presence states (R142, R143) -/

theorem exec_presenceSettled {l : Lane} {s : State} (ha : laneActs s l = true)
    (hdue : due s.clock (stopLine s l).settle = true) :
    exec (.presenceSettled l) s =
      done (if (stopLine s l).occupied then
          crossing l (setStopLine l
            { stopLine s l with occupied := !(stopLine s l).occupied, settle := none } s)
        else setStopLine l
          { stopLine s l with occupied := !(stopLine s l).occupied, settle := none } s) := by
  simp only [exec, execPresenceSettled, ha, hdue, and_self, if_true]

theorem presenceSettled_occupied {l : Lane} {s : State} (hs : settled s = true)
    (ha : laneActs s l = true) (hdue : due s.clock (stopLine s l).settle = true)
    (hocc : (stopLine s l).occupied = false) :
    ∃ t, exec (.presenceSettled l) s = .next t ∧
      stopLine t l = { stopLine s l with occupied := true, settle := none } ∧
      (∀ k, k ≠ l → stopLine t k = stopLine s k) ∧
      t.entry = { s.entry with lanes := t.entry.lanes } ∧ changesOnly [.entry] s t := by
  have hexec := exec_presenceSettled ha hdue
  simp only [hocc, Bool.not_false, Bool.false_eq_true, if_false] at hexec
  refine ⟨_, hexec.trans (done_setStopLine hs (changesOnly_refl [] s) l _ ⟨rfl, rfl, rfl⟩), ?_,
    fun k hk => ?_, rfl, touches_entry s _⟩
  · rw [stopLine_setStopLine, if_pos rfl]
  · rw [stopLine_setStopLine, if_neg hk]

/-- R143: a crossing in a lane with an empty queue. -/
def phantomCounted (l : Lane) (s : State) : State :=
  { settledLine l s with entry.phantoms := s.entry.phantoms + 1 }

theorem presenceSettled_phantom {l : Lane} {s : State} (hs : settled s = true)
    (ha : laneActs s l = true) (hdue : due s.clock (stopLine s l).settle = true)
    (hocc : (stopLine s l).occupied = true) (hq : (stopLine s l).queue = []) :
    ∃ t, exec (.presenceSettled l) s = .next t ∧
      stopLine t l = { stopLine s l with occupied := false, settle := none } ∧
      (∀ k, k ≠ l → stopLine t k = stopLine s k) ∧
      t.entry = { s.entry with lanes := t.entry.lanes, phantoms := s.entry.phantoms + 1 } ∧
      (alertOf t .phantom).sticky = true ∧
      (alertOf t .phantom).count = (alertOf s .phantom).count + 1 ∧
      (∀ y, y ≠ .phantom → alertOf t y = alertOf s y) ∧ changesOnly [.entry, .alerts] s t := by
  have hw := working_of_laneActs ha
  have hcross : crossing l (settledLine l s) = raise .phantom (phantomCounted l s) := by
    unfold crossing
    rw [stopLine_settledLine_self, hq]
    rfl
  have hexec : exec (.presenceSettled l) s = done (raise .phantom (phantomCounted l s)) := by
    rw [exec_presenceSettled ha hdue, ← hcross]
    simp only [hocc, Bool.not_true, if_true]
    rfl
  have hcounted : changesOnly [.entry] s (phantomCounted l s) := touches_entry s _
  have htouch : changesOnly [.entry, .alerts] s (raise .phantom (phantomCounted l s)) :=
    changesOnly_append hcounted (raise_touches _ _)
  have hstop (k : Lane) : stopLine (raise .phantom (phantomCounted l s)) k =
      if k = l then { stopLine s l with occupied := false, settle := none } else stopLine s k :=
    (stopLine_of_touches (raise_touches _ _) (by decide) k).trans (stopLine_setStopLine l k _ s)
  have hpeers : (raise .phantom (phantomCounted l s)).peers = s.peers := htouch .peers (by decide)
  have hentry : (raise .phantom (phantomCounted l s)).entry = (phantomCounted l s).entry :=
    raise_touches _ _ .entry (by decide)
  have hfollowed : SameFollowed s (raise .phantom (phantomCounted l s)) :=
    sameFollowed_of_wanted htouch fun k => by
      have hk : (stopLine (raise .phantom (phantomCounted l s)) k).aspect = (stopLine s k).aspect ∧
          (stopLine (raise .phantom (phantomCounted l s)) k).amber = (stopLine s k).amber ∧
          (stopLine (raise .phantom (phantomCounted l s)) k).head = (stopLine s k).head := by
        rw [hstop]
        split
        next e => subst e; exact ⟨rfl, rfl, rfl⟩
        next => exact ⟨rfl, rfl, rfl⟩
      exact ⟨hk.1, hk.2.1, wantedAspect_congr (htouch .cfg (by decide)) (htouch .health (by decide))
        (groupFaulted_congr (htouch .lamps (by decide)) k) hk.2.2⟩
  have hother (y : AlertSource) (hy : y ≠ .phantom) :
      alertOf (raise .phantom (phantomCounted l s)) y = alertOf s y := alertOf_raise_ne _ hy
  have hsettle : settle (raise .phantom (phantomCounted l s)) =
      driveAlertLines (raise .phantom (phantomCounted l s)) :=
    settle_events hs hfollowed
      (rawState_of_span htouch (by rw [hentry]; rfl) (by rw [hpeers]))
      fun y hy => hother y fun e => by rw [e] at hy; cases hy
  have hself : alertOf (raise .phantom (phantomCounted l s)) .phantom =
      raisedAlert (alertOf s .phantom) := alertOf_raise_self (s := phantomCounted l s) hw _
  refine ⟨_, hexec.trans (congrArg Host.Outcome.next hsettle), (hstop l).trans (if_pos rfl),
    fun k hk => (hstop k).trans (if_neg hk), ?_, congrArg AlertState.sticky hself,
    congrArg AlertState.count hself, hother,
    changesOnly_trans htouch (changesOnly_mono (driveAlertLines_touches _) (by simp))⟩
  have hdriven : (driveAlertLines (raise .phantom (phantomCounted l s))).entry =
      (phantomCounted l s).entry := hentry
  rw [hdriven]
  rfl

theorem presenceSettled_light {l : Lane} {r : Record} {s : State} (hs : settled s = true)
    (ha : laneActs s l = true) (hdue : due s.clock (stopLine s l).settle = true)
    (hocc : (stopLine s l).occupied = true) (hq : (stopLine s l).queue = [r])
    (hh : (stopLine s l).head = .free) :
    ∃ t, exec (.presenceSettled l) s = .next t ∧
      stopLine t l =
        { stopLine s l with queue := [], head := .none, occupied := false, settle := none } ∧
      (∀ k, k ≠ l → stopLine t k = stopLine s k) ∧
      t.entry =
        { s.entry with lanes := t.entry.lanes, lightCrossed := s.entry.lightCrossed + 1 } ∧
      changesOnly [.entry] s t := by
  have hline := stopLine_settledLine_self l s
  have hleft : headLeft l r false (settledLine l s) = lightLeft l [] s := by
    rw [headLeft_of_free (by rw [hline]; exact hh), lightCrossing, popHead_settledLine hq]
    rfl
  have hstop (k : Lane) : stopLine (headLeft l r false (settledLine l s)) k =
      if k = l then
        { stopLine s l with queue := [], head := .none, occupied := false, settle := none }
      else stopLine s k := by
    rw [hleft]
    exact stopLine_lineLeft l k [] s
  have hfront : frontHead l (headLeft l r false (settledLine l s)) = .none :=
    frontHead_of_nil (by rw [hstop, if_pos rfl])
  have htouch : changesOnly [.entry] s (crossedDeck l r s) :=
    changesOnly_trans (changesOnly_trans (settledLine_touches l s)
      (headLeft_free_touches (by rw [hline]; exact hh)))
      (evaluateHead_touches_entry (by rw [hfront]; nofun))
  have hlast (k : Lane) : stopLine (crossedDeck l r s) k =
      if k = l then
        { stopLine s l with queue := [], head := .none, occupied := false, settle := none }
      else stopLine s k := by
    rw [crossedDeck, stopLine_evaluateHead, hfront, hstop, hstop, if_pos rfl]
    split <;> rfl
  have hentry : (crossedDeck l r s).entry =
      { s.entry with
        lanes := (crossedDeck l r s).entry.lanes, lightCrossed := s.entry.lightCrossed + 1 } := by
    rw [crossedDeck, evaluateHead_entry, heldAfter, hfront, hleft]
    rfl
  have hwanted (k : Lane) : wantedAspect (crossedDeck l r s) k = wantedAspect s k := by
    have hg : groupFaulted (crossedDeck l r s) k = groupFaulted s k :=
      groupFaulted_congr (htouch .lamps (by decide)) k
    have hb : laneBlind (crossedDeck l r s) k = laneBlind s k :=
      laneBlind_congr (htouch .cfg (by decide)) (htouch .health (by decide)) k
    unfold wantedAspect
    rw [hg, hb, hlast]
    by_cases hk : k = l
    · subst hk
      rw [if_pos rfl, hh]
    · rw [if_neg hk]
  have hdone : done (crossedDeck l r s) = .next (crossedDeck l r s) := by
    refine done_lines hs htouch (by rw [hentry]) fun k => ?_
    refine ⟨?_, ?_, hwanted k⟩
    all_goals
      rw [hlast]
      split
      next e => rw [e]
      next => rfl
  exact ⟨_, (exec_presenceSettled_crossing ha hdue hocc hq).trans hdone, (hlast l).trans (if_pos rfl),
    fun k hk => (hlast k).trans (if_neg hk), hentry, htouch⟩

/-- Settles O41: nothing of what the input and these crossings write is followed by anything but the alert
lines. -/
theorem presenceSettlesAndCrosses : Obligations.PresenceSettlesAndCrosses :=
  ⟨fun _ l v hs => presenceInputChange_spec hs l v, fun _ _ hs ha hdue =>
    ⟨presenceSettled_occupied hs ha hdue, presenceSettled_phantom hs ha hdue,
      fun _ hocc hq hh => presenceSettled_light hs ha hdue hocc hq hh⟩⟩

end Sys2Proof.Proofs
end

