-- ==== Sys2Proof/Proofs/HeadsCross.lean ====
section
/-! PROOFS. Heavy heads that cross: an ADMITTED head alone in its queue, a STOP or HELD one, and a head
with a record behind it (R144 to R148). -/

namespace Sys2Proof.Proofs

open Sys2Proof Sys2Proof.Machine

section

variable {l : Lane} {r : Record} {g : Tag} {s : State}

/-- What stands at a lane once its only record has crossed. -/
theorem crossed_line_alone (hs : settled s = true) (hw : working s = true)
    (hq : (stopLine s l).queue = [r])
    (hh : (stopLine s l).head = .free ∨ ((stopLine s l).head ≠ .none ∧ r.tag = some g)) :
    (stopLine (settle (crossedDeck l r s)) l).queue = [] ∧
      (stopLine (settle (crossedDeck l r s)) l).head = .none ∧
      (stopLine (settle (crossedDeck l r s)) l).occupied = false ∧
      (stopLine (settle (crossedDeck l r s)) l).settle = none := by
  have h := crossed_line_self (g := g) hs hw hq hh
  exact ⟨congrArg StopLine.queue h, congrArg StopLine.head h, congrArg StopLine.occupied h,
    congrArg StopLine.settle h⟩

/-- With no record behind the head, the held set and the other lanes are those the crossing left. -/
theorem crossed_rest_alone (hs : settled s = true) (hw : working s = true)
    (hq : (stopLine s l).queue = [r])
    (hh : (stopLine s l).head = .free ∨ ((stopLine s l).head ≠ .none ∧ r.tag = some g)) :
    (settle (crossedDeck l r s)).entry.held = (afterCrossing l r g [] s).entry.held ∧
      (settle (crossedDeck l r s)).entry =
        { (afterCrossing l r g [] s).entry with
          lanes := (settle (crossedDeck l r s)).entry.lanes } ∧
      (∀ k, k ≠ l →
        (stopLine (afterCrossing l r g [] s) k).head = (stopLine s k).head →
        stopLine (settle (crossedDeck l r s)) k = stopLine s k) ∧
      (∀ k, (stopLine (settle (crossedDeck l r s)) k).head =
        (stopLine (afterCrossing l r g [] s) k).head) := by
  obtain ⟨-, hothers, hentry, hheld, -⟩ := crossed_evaluated (g := g) hs hw hq hh
  have hself := stopLine_afterCrossing_self l r g [] s
  rw [hself] at hheld
  have hheld : (settle (crossedDeck l r s)).entry.held = (afterCrossing l r g [] s).entry.held := hheld
  refine ⟨hheld, ?_, fun k hk hhead => (hothers k hk).2 hhead, fun k => ?_⟩
  · rw [hentry, hheld]
  · by_cases hk : k = l
    · rw [hk, (crossed_line_alone hs hw hq hh).2.1, hself]
    · exact (congrArg StopLine.head (hothers k hk).1 :)

/-- With no record behind the head nothing is counted but what the head itself counts. -/
theorem crossed_counters_alone (hq : (stopLine s l).queue = [r])
    (hh : (stopLine s l).head = .free ∨ ((stopLine s l).head ≠ .none ∧ r.tag = some g)) :
    frontHead l (headLeft l r false (settledLine l s)) = .none ∧
      (settle (crossedDeck l r s)).counters = (headLeft l r false (settledLine l s)).counters := by
  have hfront : frontHead l (headLeft l r false (settledLine l s)) = .none := by
    rw [(sameDeck_crossed (g := g) hq hh).frontHead]
    refine frontHead_of_nil ?_
    rw [stopLine_afterCrossing_self]
  refine ⟨hfront, ?_⟩
  rw [settle_counters, crossedDeck]
  exact evaluateHead_touches_entry (by rw [hfront]; nofun) .counters (by decide)

theorem alertOf_crossed_alone {y : AlertSource} (hq : (stopLine s l).queue = [r])
    (hh : (stopLine s l).head = .free ∨ ((stopLine s l).head ≠ .none ∧ r.tag = some g))
    (hy : isCondition y = false) :
    alertOf (settle (crossedDeck l r s)) y = alertOf (headLeft l r false (settledLine l s)) y := by
  rw [alertOf_settle_event _ hy, crossedDeck]
  refine alertOf_congr (evaluateHead_touches_entry ?_ .alerts (by decide)) y
  rw [(crossed_counters_alone hq hh).1]
  nofun

/-! ## ADMITTED heads (R144) -/

/-- The deck once an ADMITTED head, alone in its queue, has crossed. -/
theorem crossed_admitted_span {a : Nat} (hs : settled s = true) (hw : working s = true)
    (hq : (stopLine s l).queue = [r]) (hhead : (stopLine s l).head = .admitted a)
    (hg : r.tag = some g) :
    (settle (crossedDeck l r s)).entry.span = s.entry.span ++ [unflagged l r g s] ∧
      (settle (crossedDeck l r s)).entry =
        { s.entry with
          lanes := (settle (crossedDeck l r s)).entry.lanes
          held := (settle (crossedDeck l r s)).entry.held
          span := (settle (crossedDeck l r s)).entry.span } := by
  obtain ⟨hheld, hentry, -, -⟩ := crossed_rest_alone (g := g) hs hw hq
    (.inr ⟨by rw [hhead]; nofun, hg⟩)
  have hafter : (afterCrossing l r g [] s).entry =
      { s.entry with
        lanes := (afterCrossing l r g [] s).entry.lanes
        held := (afterCrossing l r g [] s).entry.held
        span := s.entry.span ++ [unflagged l r g s] } := by
    rw [afterCrossing_of_admitted hhead, (runArbiter_headsOnly _).1]
    rfl
  have hspan : (settle (crossedDeck l r s)).entry.span = s.entry.span ++ [unflagged l r g s] := by
    rw [hentry, hafter]
  refine ⟨hspan, ?_⟩
  rw [hheld, hspan, hentry]
  rw [hafter]

/-- With nothing held the weight counted in all is the same. -/
theorem crossed_admitted_weight {a : Nat} (hs : settled s = true) (hw : working s = true)
    (hq : (stopLine s l).queue = [r]) (hhead : (stopLine s l).head = .admitted a)
    (hg : r.tag = some g) (hnil : s.entry.held = []) :
    (settle (crossedDeck l r s)).entry.held = [] ∧
      spanTotal (settle (crossedDeck l r s)) + committed (settle (crossedDeck l r s)) =
        spanTotal s + committed s := by
  obtain ⟨hheld, -, -, hheads⟩ := crossed_rest_alone (g := g) hs hw hq
    (.inr ⟨by rw [hhead]; nofun, hg⟩)
  have hafter := afterCrossing_of_admitted (r := r) (g := g) (behind := []) hhead
  rw [runArbiter_of_none (s := joinSpan (unflagged l r g s) (lineLeft l [] s)) hnil] at hafter
  refine ⟨by rw [hheld, hafter]; exact hnil, ?_⟩
  have hcommitted : committed (settle (crossedDeck l r s)) + a = committed s := by
    rw [committed_congr hheads, hafter, ← committed_lineLeft (l := l) (behind := []) (s := s), hhead]
    rfl
  have htotal : spanTotal (settle (crossedDeck l r s)) = spanTotal s + a := by
    unfold spanTotal
    rw [(crossed_admitted_span (g := g) hs hw hq hhead hg).1, List.map_append, List.sum_append]
    simp only [List.map_cons, List.map_nil, List.sum_cons, List.sum_nil, Nat.add_zero, unflagged,
      deckWeight_of_admitted hhead]
  omega

/-- An ADMITTED head, alone in its queue, raises nothing where no frame waits. -/
theorem alertOf_crossed_admitted {a : Nat} {y : AlertSource} (hq : (stopLine s l).queue = [r])
    (hhead : (stopLine s l).head = .admitted a) (hg : r.tag = some g) (hempty : s.line.queue = [])
    (hy : isCondition y = false) : alertOf (settle (crossedDeck l r s)) y = alertOf s y := by
  have hqueue (u : State) (hu : u.line = s.line) : (runArbiter u).line.queue = [] := by
    have hrun : (runArbiter u).line = u.line := runArbiter_touches u .line (by decide)
    rw [hrun, hu, hempty]
  rw [alertOf_crossed_alone (g := g) hq (.inr ⟨by rw [hhead]; nofun, hg⟩) hy,
    headLeft_of_admitted (by rw [stopLine_settledLine_self]; exact hhead) hg,
    alertOf_queueEntered_of_nil (hqueue (joinSpan _ (popHead l (settledLine l s))) rfl)]
  exact alertOf_congr (runArbiter_touches _ .alerts (by decide)) y

/-- It counts nothing. -/
theorem crossed_admitted_touches {a : Nat} (hs : settled s = true) (hq : (stopLine s l).queue = [r])
    (hhead : (stopLine s l).head = .admitted a) (hg : r.tag = some g) :
    changesOnly [.entry, .line, .lamps, .alerts] s (settle (crossedDeck l r s)) := by
  have hcounters : (settle (crossedDeck l r s)).counters = s.counters :=
    (crossed_counters_alone (g := g) hq (.inr ⟨by rw [hhead]; nofun, hg⟩)).2.trans
      (headLeft_counters (by rw [hhead]; nofun) (by rw [hhead]; nofun))
  intro b hb
  by_cases hbc : b = .counters
  · rw [hbc]
    exact hcounters
  · refine crossed_touches hs l r b fun hm => hb ?_
    simp only [List.mem_cons, List.not_mem_nil, or_false] at hm ⊢
    tauto

/-- Settles O42: `afterCrossing` of an ADMITTED head, alone in its queue. -/
theorem regularCrossingMovesWeight : Obligations.RegularCrossingMovesWeight := by
  intro s l r g a hs hacts hdue hocc hq hhead hg hempty
  have hw := working_of_laneActs hacts
  have hh : (stopLine s l).head = .free ∨ ((stopLine s l).head ≠ .none ∧ r.tag = some g) :=
    .inr ⟨by rw [hhead]; nofun, hg⟩
  have hweight := deckWeight_of_admitted (r := r) hhead
  obtain ⟨hqueue, hnone, hocc', hsettle⟩ := crossed_line_alone hs hw hq hh
  obtain ⟨hspan, hrest⟩ := crossed_admitted_span hs hw hq hhead hg
  refine ⟨_, exec_presenceSettled_crossing hacts hdue hocc hq, hqueue, hnone, hocc', hsettle,
    crossed_evaluated hs hw hq hh, ?_, hrest, fun k hk hkheld => ?_,
    crossed_admitted_weight hs hw hq hhead hg, ?_,
    fun y => alertOf_crossed_admitted hq hhead hg hempty,
    bareLamps_settle_same (crossedDeck_touches l r s .lamps (by decide)),
    crossed_admitted_touches hs hq hhead hg⟩
  · rw [hspan, unflagged, hweight]
  · refine (crossed_rest_alone hs hw hq hh).2.2.1 k hk ?_
    have hkept : (joinSpan (unflagged l r g s) (lineLeft l [] s)).entry.held = s.entry.held := rfl
    rw [afterCrossing_of_admitted hhead, stopLine_runArbiter_of_notMem (by rw [hkept]; exact hkheld)]
    exact congrArg StopLine.head ((stopLine_lineLeft l k [] s).trans (if_neg hk))
  · rw [crossed_line (by rw [hhead]; nofun) (by rw [hhead]; nofun) hg, hweight, enqueue_of_nil _ hempty]
    rfl

/-! ## STOP and HELD heads (R145) -/

/-- A head that is no ADMITTED one and crosses: a STOP one or a HELD one. -/
def crossesUnadmitted (l : Lane) (stop : Bool) (s : State) : Prop :=
  ((stopLine s l).head = .stop ∧ stop = true) ∨
    ((∃ a h, (stopLine s l).head = .held a h) ∧ stop = false)

theorem crossesUnadmitted_heads {stop : Bool} (h : crossesUnadmitted l stop s) :
    (stopLine s l).head ≠ .none ∧ (stopLine s l).head ≠ .free ∧
      (stopLine s l).head.isAdmitted = false := by
  obtain ⟨h, -⟩ | ⟨⟨a, c, h⟩, -⟩ := h
  all_goals
    rw [h]
    exact ⟨nofun, nofun, rfl⟩

/-- The deck once such a head has crossed: after a HELD one the arbiter has run. -/
theorem afterCrossing_of_unadmitted {stop : Bool} {behind : List Record}
    (h : crossesUnadmitted l stop s) :
    afterCrossing l r g behind s =
      if stop then unadmitted l r g stop behind s
      else runArbiter (unadmitted l r g stop behind s) := by
  obtain ⟨h, rfl⟩ | ⟨⟨a, c, h⟩, rfl⟩ := h
  · exact afterCrossing_of_stop h
  · exact afterCrossing_of_held h

/-- The sources such a head raises. -/
theorem alertOf_headLeft_unadmitted {stop : Bool} {y : AlertSource} (hw : working s = true)
    (h : crossesUnadmitted l stop s) (hg : r.tag = some g) (hempty : s.line.queue = []) :
    alertOf (headLeft l r false (settledLine l s)) y =
      raisedIf (decide (24 ≤ s.entry.span.length + admittedHeads s ∧ y = .accountingLost))
        (raisedIf (stop && decide (y = .noncompliantEntered))
          (raisedIf (decide ((stopLine s l).aspect = some .red ∧ y = .redRun ∨
            (stopLine s l).aspect = some .dark ∧ y = .uncontrolled)) (alertOf s y))) := by
  have hline := stopLine_settledLine_self l s
  have hcount : admittedHeads (settledLine l s) = admittedHeads s := by
    refine admittedHeads_congr fun k => ?_
    rw [settledLine, stopLine_setStopLine]
    split
    next e => rw [e]
    next => rfl
  have hentered : alertOf (entered l r stop false (settledLine l s)) y =
      raisedIf (decide (24 ≤ s.entry.span.length + admittedHeads s ∧ y = .accountingLost))
        (raisedIf (stop && decide (y = .noncompliantEntered))
          (raisedIf (decide ((stopLine s l).aspect = some .red ∧ y = .redRun ∨
            (stopLine s l).aspect = some .dark ∧ y = .uncontrolled)) (alertOf s y))) := by
    rw [alertOf_entered (s := settledLine l s) hw hg
      (by rw [hline]; exact (crossesUnadmitted_heads h).2.2) (.inr hempty), hcount, hline]
    simp only [Bool.not_false, Bool.and_true, Bool.true_and]
    rfl
  obtain ⟨h, rfl⟩ | ⟨⟨a, c, h⟩, rfl⟩ := h
  · rw [headLeft_of_stop (by rw [hline]; exact h)]
    exact hentered
  · rw [headLeft_of_held (by rw [hline]; exact h)]
    exact (alertOf_congr (runArbiter_touches _ .alerts (by decide)) y).trans hentered

/-- The entry controller once such a head has crossed. -/
theorem afterCrossing_entry_unadmitted {stop : Bool} (h : crossesUnadmitted l stop s) :
    (afterCrossing l r g [] s).entry =
      { (unadmitted l r g stop [] s).entry with
        lanes := (afterCrossing l r g [] s).entry.lanes
        held := (afterCrossing l r g [] s).entry.held } := by
  rw [afterCrossing_of_unadmitted h]
  split
  · rfl
  · exact (runArbiter_headsOnly _).1

theorem raisedIf_true (a : AlertState) : raisedIf true a = raisedAlert a := rfl

theorem raisedIf_false (a : AlertState) : raisedIf false a = a := rfl

/-- After a STOP head, or with no other lane held, nothing else moves. -/
theorem afterCrossing_quiet {stop : Bool} (h : crossesUnadmitted l stop s)
    (hquiet : stop = true ∨ s.entry.held.filter (fun k => decide (k ≠ l)) = []) :
    afterCrossing l r g [] s = unadmitted l r g stop [] s := by
  rw [afterCrossing_of_unadmitted h]
  split
  · rfl
  next hstop =>
    refine runArbiter_of_none ?_
    rw [unadmitted_held]
    exact hquiet.resolve_left hstop

/-- Settles O43: `afterCrossing` of a STOP or HELD head, alone in its queue. -/
theorem nonAdmittedHeadsEnter : Obligations.NonAdmittedHeadsEnter := by
  intro s l r g p w stop hs hacts hdue hocc hq hg hcross hempty hp hweight full others
  have hw := working_of_laneActs hacts
  have hcross : crossesUnadmitted l stop s := hcross
  obtain ⟨hnone, hfree, hadmitted⟩ := crossesUnadmitted_heads hcross
  have hh : (stopLine s l).head = .free ∨ ((stopLine s l).head ≠ .none ∧ r.tag = some g) :=
    .inr ⟨hnone, hg⟩
  have hdeck : deckWeight s l r = w := by
    rw [deckWeight_of_not_admitted hadmitted, hweight, hp]
    rfl
  obtain ⟨hqueue, hnone', hocc', hsettle⟩ := crossed_line_alone hs hw hq hh
  obtain ⟨hheld, hentry, hothers, -⟩ := crossed_rest_alone hs hw hq hh
  have hcounters := (crossed_counters_alone hq hh).2
  rw [headLeft_counters_unadmitted (by
    obtain ⟨h, -⟩ | ⟨h, -⟩ := hcross
    exacts [.inl h, .inr h])] at hcounters
  have halert (y : AlertSource) (hy : isCondition y = false) :=
    (alertOf_crossed_alone (y := y) hq hh hy).trans (alertOf_headLeft_unadmitted hw hcross hg hempty)
  have hdeckEntry : (settle (crossedDeck l r s)).entry =
      { (unadmitted l r g stop [] s).entry with
        lanes := (settle (crossedDeck l r s)).entry.lanes
        held := (settle (crossedDeck l r s)).entry.held } := by
    rw [hheld, hentry]
    rw [afterCrossing_entry_unadmitted hcross]
  refine ⟨_, exec_presenceSettled_crossing hacts hdue hocc hq, hqueue, hnone', hocc', hsettle,
    crossed_evaluated hs hw hq hh, fun hquiet => ?_, fun hroom => ?_, fun hfull => ⟨?_, ?_⟩, ?_,
    fun hstop => ?_, fun hred => ⟨?_, ?_⟩, fun hdark => ?_, fun hred => ?_, ?_, ?_,
    bareLamps_settle_same (crossedDeck_touches l r s .lamps (by decide)), crossed_touches hs l r⟩
  · have hafter := afterCrossing_quiet (r := r) (g := g) hcross hquiet
    refine ⟨by rw [hheld, hafter, unadmitted_held], fun k hk => hothers k hk ?_⟩
    rw [hafter, stopLine_congr (unadmitted_lanes l r g stop [] s), stopLine_lineLeft, if_neg hk]
  · rw [hdeckEntry]
    unfold unadmitted
    rw [if_pos (Nat.lt_of_not_le hroom)]
    unfold unflagged
    rw [hdeck]
    rfl
  · rw [hdeckEntry]
    unfold unadmitted
    rw [if_neg (Nat.not_lt.2 hfull)]
    rfl
  · have hself := halert .accountingLost rfl
    have hf : 24 ≤ s.entry.span.length + admittedHeads s := hfull
    simp only [hf, reduceCtorEq, and_false, or_false, decide_false, Bool.and_false, and_true, decide_true,
      raisedIf_true, raisedIf_false] at hself
    exact ⟨congrArg AlertState.sticky hself, congrArg AlertState.count hself⟩
  · rw [crossed_line hnone hfree hg, hdeck, enqueue_of_nil _ hempty]
    rfl
  · have hself := halert .noncompliantEntered rfl
    simp only [hstop, reduceCtorEq, and_false, or_false, decide_false, Bool.true_and, decide_true,
      raisedIf_true, raisedIf_false] at hself
    exact ⟨congrArg AlertState.sticky hself, congrArg AlertState.count hself⟩
  · have hself := halert .redRun rfl
    simp only [hred, reduceCtorEq, and_false, or_false, decide_false, Bool.and_false, and_true, decide_true,
      raisedIf_true, raisedIf_false] at hself
    exact congrArg AlertState.count hself
  · rw [hcounters, if_pos hred]
    simp
  · have hself := halert .uncontrolled rfl
    simp only [hdark, reduceCtorEq, and_false, false_or, decide_false, Bool.and_false, and_true,
      decide_true, raisedIf_true, raisedIf_false] at hself
    exact congrArg AlertState.count hself
  · rw [hcounters, if_neg hred]
  · rw [hcounters]
    split
    · exact fun k hk => Tab.at_upd_ne _ _ hk
    · exact fun _ _ => rfl
  · intro y hy hstop hfull hred hdark
    have hlost : ¬(24 ≤ s.entry.span.length + admittedHeads s ∧ y = .accountingLost) :=
      fun h => hfull h.1 h.2
    have haspect : ¬((stopLine s l).aspect = some .red ∧ y = .redRun ∨
        (stopLine s l).aspect = some .dark ∧ y = .uncontrolled) := by
      rintro (⟨h, he⟩ | ⟨h, he⟩)
      exacts [hred h he, hdark h he]
    have hentered : (stop && decide (y = .noncompliantEntered)) = false := by
      cases stop with
      | false => rfl
      | true => rw [decide_eq_false (hstop rfl)]; rfl
    rw [halert y hy, decide_eq_false hlost, decide_eq_false haspect, hentered]
    rfl

end

end Sys2Proof.Proofs
end

