-- ==== Sys2Proof/Proofs/QueuesMoveUp.lean ====
section
/-! PROOFS. Stop-line queues that move up (R130 to R134, R143 to R148): the record behind a head that
crosses, and a record that joins an empty queue, a waiting one, or a full one. -/

namespace Sys2Proof.Proofs

open Sys2Proof Sys2Proof.Machine

/-- Head states alone decide what fits, on one deck. -/
theorem headFor_of_heads {s t : State} (hstart : t.startup = s.startup) (hcfg : t.cfg = s.cfg)
    (hclock : t.clock = s.clock) (hp : t.peers.posture = s.peers.posture)
    (hspan : t.entry.span = s.entry.span) (hrec : t.entry.recovery = s.entry.recovery)
    (hlost : t.entry.lost = s.entry.lost) (hheld : t.entry.held = s.entry.held)
    (hcommitted : committed t = committed s) (hcount : admittedHeads t = admittedHeads s)
    (r : Record) : headFor t r = headFor s r := by
  have hweight : admissionWeight t r = admissionWeight s r := by
    simp only [admissionWeight, padded, hcfg, hp]
  have hfits (a : Nat) : fits t a = fits s a := by
    rw [Bool.eq_iff_iff, fits_iff, fits_iff]
    simp only [spanTotal, hspan, hcommitted, hcount, hcfg, hstart, hrec, hp, hlost]
  simp only [headFor, hweight, hfits, hheld, hclock]

/-- A line written without a change of its head decides nothing. -/
theorem headFor_setStopLine {l : Lane} {x : StopLine} {s : State} (hx : x.head = (stopLine s l).head)
    (r : Record) : headFor (setStopLine l x s) r = headFor s r := by
  have hheads (k : Lane) : (stopLine (setStopLine l x s) k).head = (stopLine s k).head := by
    rw [stopLine_setStopLine]
    split
    next e => rw [e, hx]
    next => rfl
  exact headFor_of_heads (s := s) (t := setStopLine l x s) rfl rfl rfl rfl rfl rfl rfl rfl
    (committed_congr hheads) (admittedHeads_congr hheads) r

/-! ## The record behind a light head -/

section

variable {l : Lane} {r b : Record} {g : Tag} {rest : List Record} {s : State}

/-- What a light head leaves decides the next head as the station before did. -/
theorem headFor_afterCrossing_free (hh : (stopLine s l).head = .free) :
    headFor (afterCrossing l r g (b :: rest) s) b = headFor s b := by
  rw [afterCrossing_of_free hh]
  refine headFor_of_heads (s := s) (t := lightLeft l (b :: rest) s) rfl rfl rfl rfl rfl rfl rfl rfl ?_ ?_ b
  · have := committed_lineLeft (l := l) (behind := b :: rest) (s := s)
    rw [hh] at this
    exact this
  · exact admittedHeads_lineLeft (l := l) (behind := b :: rest) (s := s) (by rw [hh]; rfl)

/-- A light head raises nothing; a STOP head behind it may raise NONCOMPLIANT or OVER_UNDIRECTED. -/
theorem alertOf_crossed_free (hs : settled s = true)
    (hh : (stopLine s l).head = .free) (y : AlertSource)
    (h1 : y ≠ .noncompliant) (h2 : y ≠ .overUndirected) :
    alertOf (settle (crossedDeck l r s)) y = alertOf s y := by
  have htouch := crossedDeck_touches l r s
  have hpeers : (crossedDeck l r s).peers = s.peers := htouch .peers (by decide)
  have hspan : (crossedDeck l r s).entry.span = s.entry.span := by
    rw [crossedDeck, evaluateHead_entry, headLeft_of_free (by rw [stopLine_settledLine_self]; exact hh)]
    rfl
  refine alertOf_settle_same hs (htouch .startup (by decide)) ?_
    (rawState_of_span htouch hspan (by rw [hpeers]) (by decide) y)
  rw [crossedDeck, alertOf_evaluateHead_ne h1 h2]
  exact alertOf_congr (headLeft_free_touches (by rw [stopLine_settledLine_self]; exact hh) .alerts
    (by decide)) y

theorem crossed_free_unstopped (hs : settled s = true)
    (hh : (stopLine s l).head = .free) (hq : (stopLine s l).queue = r :: b :: rest)
    (hstop : headFor s b ≠ .stop) :
    (settle (crossedDeck l r s)).alerts = s.alerts ∧
      (settle (crossedDeck l r s)).counters = s.counters := by
  have htouch := crossedDeck_touches l r s
  have hleft := headLeft_free_touches (l := l) (r := r) (unseen := false) (s := settledLine l s)
    (by rw [stopLine_settledLine_self]; exact hh)
  have hfront : frontHead l (headLeft l r false (settledLine l s)) = headFor s b := by
    rw [(sameDeck_crossed (g := .mk 0 0) hq (.inl hh)).frontHead, frontHead_of_cons (r := b) (rest := rest)
      (by rw [stopLine_afterCrossing_self]), headFor_afterCrossing_free hh]
  have heval := evaluateHead_touches_entry (l := l) (s := headLeft l r false (settledLine l s))
    (by rw [hfront]; exact hstop)
  have hpeers : (crossedDeck l r s).peers = s.peers := htouch .peers (by decide)
  have hspan : (crossedDeck l r s).entry.span = s.entry.span := by
    rw [crossedDeck, evaluateHead_entry, headLeft_of_free (by rw [stopLine_settledLine_self]; exact hh)]
    rfl
  refine ⟨settle_alerts_same hs (htouch .startup (by decide)) (htouch .cfg (by decide))
    ((heval .alerts (by decide)).trans (hleft .alerts (by decide)))
    (rawState_of_span htouch hspan (by rw [hpeers])), ?_⟩
  rw [settle_counters]
  exact (heval .counters (by decide)).trans (hleft .counters (by decide))

end

theorem queueBehind_movesUp {s : State} {l : Lane} {r b : Record} {rest : List Record} {g : Tag}
    (hs : settled s = true) (hacts : laneActs s l = true)
    (hdue : due s.clock (stopLine s l).settle = true) (hocc : (stopLine s l).occupied = true)
    (hq : (stopLine s l).queue = r :: b :: rest)
    (hh : (stopLine s l).head = .free ∨ ((stopLine s l).head ≠ .none ∧ r.tag = some g)) :
    let u := afterCrossing l r g (b :: rest) s
    ∃ t, exec (.presenceSettled l) s = .next t ∧
      (stopLine t l).queue = b :: rest ∧ (stopLine t l).head = headFor u b ∧
      (stopLine t l).occupied = false ∧ (stopLine t l).settle = none ∧
      headEvaluated l s u t ∧
      ((stopLine s l).head = .free →
        t.line = s.line ∧ u.entry.held = s.entry.held ∧ headFor u b = headFor s b ∧
          (∀ k, k ≠ l → stopLine t k = stopLine s k) ∧
          (headFor u b ≠ .stop → t.alerts = s.alerts ∧ t.counters = s.counters) ∧
          (∀ y, y ≠ .noncompliant → y ≠ .overUndirected → alertOf t y = alertOf s y) ∧
          t.counters.lanes.at l =
            { s.counters.lanes.at l with stopped := (t.counters.lanes.at l).stopped }) ∧
      ((stopLine s l).head ≠ .free →
        t.line = (enqueue (.entered g l (deckWeight s l r) r.effGross s.clock) s).line) ∧
      (∀ y, isCondition y = false →
        y ∉ [.noncompliant, .overUndirected, .noncompliantEntered, .redRun, .uncontrolled,
          .accountingLost, .txDrop] → alertOf t y = alertOf s y) ∧
      changesOnly [.entry, .line, .counters, .lamps, .alerts] s t := by
  intro u
  have hw := working_of_laneActs hacts
  have hself := crossed_line_self (g := g) hs hw hq hh
  have heval := crossed_evaluated (g := g) hs hw hq hh
  refine ⟨_, exec_presenceSettled_crossing hacts hdue hocc hq, congrArg StopLine.queue hself,
    congrArg StopLine.head hself, congrArg StopLine.occupied hself, congrArg StopLine.settle hself, heval,
    fun hfree => ?_, fun hfree => ?_, fun y he hy => alertOf_crossed hw hh he hy,
    crossed_touches hs l r⟩
  · have hu : u = lightLeft l (b :: rest) s := afterCrossing_of_free hfree
    have hhead := headFor_afterCrossing_free (r := r) (b := b) (g := g) (rest := rest) hfree
    have hleft := headLeft_free_touches (l := l) (r := r) (unseen := false) (s := settledLine l s)
      (by rw [stopLine_settledLine_self]; exact hfree)
    refine ⟨?_, by rw [hu]; rfl, hhead, fun k hk => (heval.2.1 k hk).2 ?_, fun hstop =>
      crossed_free_unstopped hs hfree hq (hhead ▸ hstop),
      alertOf_crossed_free hs hfree, ?_⟩
    · rw [settle_line]
      exact (evaluateHead_touches _ _ .line (by decide)).trans (hleft .line (by decide))
    · rw [afterCrossing_of_free hfree]
      exact congrArg StopLine.head ((stopLine_lineLeft l k (b :: rest) s).trans (if_neg hk))
    · have hcounters : (headLeft l r false (settledLine l s)).counters = s.counters :=
        hleft .counters (by decide)
      rw [settle_counters, crossedDeck, evaluateHead_counters, hcounters]
      split
      · simp
      · rfl
  · obtain ⟨hnone, hg⟩ := hh.resolve_left hfree
    exact crossed_line hnone hfree hg

/-! ## A record joins (R130, R131) -/

theorem joinStopLine_of_room {r : Record} {s : State} (h : (stopLine s r.lane).queue.length < 8) :
    joinStopLine r s =
      if (stopLine s r.lane).queue.isEmpty then evaluateHead r.lane (atTail r s) else atTail r s := by
  rw [joinStopLine_eq]
  simp only [roomMade, Nat.not_le.2 h, if_false]

theorem stopLine_atTail (r : Record) (k : Lane) (s : State) :
    stopLine (atTail r s) k =
      if k = r.lane then { stopLine s r.lane with queue := (stopLine s r.lane).queue ++ [r] }
      else stopLine s k := stopLine_setStopLine _ _ _ _

theorem joinStopLine_of_nil {r : Record} {s : State} (h : (stopLine s r.lane).queue = []) :
    (stopLine (joinStopLine r s) r.lane).queue = [r] ∧
      (stopLine (joinStopLine r s) r.lane).head = headFor s r ∧
      ∀ k, k ≠ r.lane → stopLine (joinStopLine r s) k = stopLine s k := by
  have hqueue : (stopLine (atTail r s) r.lane).queue = [r] := by
    rw [stopLine_atTail, if_pos rfl, h]
    rfl
  rw [joinStopLine_of_room (by rw [h]; decide), h, if_pos (by rfl)]
  refine ⟨(stopLine_evaluateHead_queue _ _ _).trans hqueue, ?_, fun k hk => ?_⟩
  · rw [stopLine_evaluateHead, if_pos rfl, frontHead_of_cons hqueue]
    exact headFor_setStopLine (l := r.lane)
      (x := { stopLine s r.lane with queue := (stopLine s r.lane).queue ++ [r] }) rfl r
  · rw [stopLine_evaluateHead, if_neg hk, stopLine_atTail, if_neg hk]

/-- R131: nothing an unseen head raises but TX_DROP and ACCOUNTING_LOST. -/
theorem alertOf_headLeft_unseen {l : Lane} {r : Record} {s : State} {y : AlertSource}
    (hdrop : y ≠ .txDrop) (hlost : y ≠ .accountingLost) :
    alertOf (headLeft l r true s) y = alertOf s y := by
  have hspan (g : Option Tag) (e : Tag → SpanEntry) (u : State) :
      alertOf (spanTaken g e u) y = alertOf u y := by
    unfold spanTaken
    split
    · split
      · rfl
      · exact alertOf_raise_ne _ hlost
    · rfl
  have hentered (stop : Bool) : alertOf (entered l r stop true s) y = alertOf s y := by
    have hraised : entryRaised l stop true s = leaveHeld l (popHead l s) := by
      unfold entryRaised
      cases stop <;> rfl
    unfold entered
    rw [alertOf_queueEntered_ne _ _ _ _ hdrop, hspan, hraised]
    rfl
  have hrun (u : State) : alertOf (runArbiter u) y = alertOf u y :=
    alertOf_congr (runArbiter_touches _ .alerts (by decide)) y
  cases h : (stopLine s l).head with
  | none =>
    simp only [headLeft, h]
    rfl
  | free => exact alertOf_congr (headLeft_free_touches h .alerts (by decide)) y
  | admitted a =>
    simp only [headLeft, h, regularCrossing]
    split
    · rw [alertOf_queueEntered_ne _ _ _ _ hdrop, hrun]
      rfl
    · exact hrun _
  | held w c =>
    rw [headLeft_of_held h, hrun]
    exact hentered false
  | stop =>
    rw [headLeft_of_stop h]
    exact hentered true

/-- R145: where there is room, an unadmitted head joins the span set. -/
theorem entered_span {l : Lane} {r : Record} {g : Tag} {stop unseen : Bool} {s : State}
    (hg : r.tag = some g) (hh : (stopLine s l).head.isAdmitted = false)
    (hroom : s.entry.span.length + admittedHeads s < 24) :
    (entered l r stop unseen s).entry.span =
      s.entry.span ++ [unadmittedEntry l r stop unseen s g] := by
  have hsum := admittedHeads_popHead l s
  rw [hh, if_neg Bool.false_ne_true, Nat.add_zero] at hsum
  have hcount : admittedHeads (leaveHeld l (popHead l s)) = admittedHeads s := hsum
  rw [(sameDeck_entered hg).entry]
  unfold spanTaken
  dsimp only
  rw [hcount]
  exact congrArg (fun u : State => u.entry.span) (if_pos hroom)

section

variable {r q : Record} {rest : List Record} {s : State}

/-- R131: a full queue loses its head, unseen, and the record joins behind the others. -/
theorem joinStopLine_of_full (hq : (stopLine s r.lane).queue = q :: rest) (hfull : 7 ≤ rest.length) :
    joinStopLine r s =
      atTail r (evaluateHead r.lane (headLeft r.lane q true (raise .queueOverflow s))) := by
  have hline : stopLine (raise .queueOverflow s) r.lane = stopLine s r.lane :=
    stopLine_of_touches (raise_touches _ _) (by decide) _
  have hroom : roomMade r.lane s =
      evaluateHead r.lane (headLeft r.lane q true (raise .queueOverflow s)) := by
    unfold roomMade overflowQueue
    rw [hq, if_pos (by simp only [List.length_cons]; omega), headEnters_of_cons (by rw [hline]; exact hq)]
  have hqueue : (stopLine (roomMade r.lane s) r.lane).queue = rest := by
    have h := stopLine_headEnters_queue r.lane r.lane true (raise .queueOverflow s)
    rw [hroom, ← headEnters_of_cons (by rw [hline]; exact hq), h, if_pos rfl, hline, hq]
    rfl
  have hne : rest.isEmpty = false := by
    cases rest with
    | nil => simp at hfull
    | cons => rfl
  rw [joinStopLine_eq, hqueue, hne, if_neg Bool.false_ne_true, hroom]

/-- What such a record leaves of the deck, in terms of the head that left. -/
theorem joinStopLine_full_kept (hq : (stopLine s r.lane).queue = q :: rest) (hfull : 7 ≤ rest.length) :
    (joinStopLine r s).entry.span = (headLeft r.lane q true (raise .queueOverflow s)).entry.span ∧
      (joinStopLine r s).line = (headLeft r.lane q true (raise .queueOverflow s)).line ∧
      (joinStopLine r s).entry.lightCrossed =
        (headLeft r.lane q true (raise .queueOverflow s)).entry.lightCrossed := by
  rw [joinStopLine_of_full hq hfull]
  refine ⟨?_, evaluateHead_touches _ _ .line (by decide), ?_⟩
  · change (evaluateHead r.lane _).entry.span = _
    rw [evaluateHead_entry]
    rfl
  · change (evaluateHead r.lane _).entry.lightCrossed = _
    rw [evaluateHead_entry]
    rfl

theorem joinStopLine_full_queue (hq : (stopLine s r.lane).queue = q :: rest) (hfull : 7 ≤ rest.length) :
    (stopLine (joinStopLine r s) r.lane).queue = rest ++ [r] := by
  have hline : stopLine (raise .queueOverflow s) r.lane = stopLine s r.lane :=
    stopLine_of_touches (raise_touches _ _) (by decide) _
  have h := stopLine_headEnters_queue r.lane r.lane true (raise .queueOverflow s)
  rw [headEnters_of_cons (by rw [hline]; exact hq), if_pos rfl, hline, hq] at h
  rw [joinStopLine_of_full hq hfull, stopLine_atTail, if_pos rfl, h]
  rfl

theorem alertOf_joinStopLine_full (hq : (stopLine s r.lane).queue = q :: rest)
    (hfull : 7 ≤ rest.length) {y : AlertSource}
    (hy : y ∉ [.noncompliant, .overUndirected, .txDrop, .accountingLost]) :
    alertOf (joinStopLine r s) y = alertOf (raise .queueOverflow s) y := by
  simp only [List.mem_cons, List.not_mem_nil, or_false, not_or] at hy
  obtain ⟨h1, h2, h3, h4⟩ := hy
  rw [joinStopLine_of_full hq hfull]
  exact (alertOf_evaluateHead_ne h1 h2).trans (alertOf_headLeft_unseen h3 h4)

theorem overflow_admitted {a : Nat} {g : Tag} (hh : (stopLine s r.lane).head = .admitted a)
    (hg : q.tag = some g) :
    (headLeft r.lane q true (raise .queueOverflow s)).entry.span =
      s.entry.span ++ [{ spanEntry s r.lane g a with unseen := true }] := by
  have hdeck : SameDeck s (raise .queueOverflow s) := sameDeck_of_touches (raise_touches _ _)
  rw [headLeft_of_admitted (by rw [hdeck.stopLine]; exact hh) hg,
    queueEntered_touches _ _ _ _ .entry (by decide), headsOnly_span (runArbiter_headsOnly _)]
  unfold joinSpan spanEntry
  simp only [popHead_span, hdeck.entry, hdeck.clock, hdeck.cfg]

theorem overflow_unadmitted {g : Tag} (hg : q.tag = some g)
    (hroom : s.entry.span.length + admittedHeads s < 24)
    (hh : (stopLine s r.lane).head = .stop ∨ ∃ a h, (stopLine s r.lane).head = .held a h) :
    (headLeft r.lane q true (raise .queueOverflow s)).entry.span =
      s.entry.span ++ [{ spanEntry s r.lane g (nonAdmittedWeight s q) with
        unseen := true, noncompliant := decide ((stopLine s r.lane).head = .stop) }] := by
  have hdeck : SameDeck s (raise .queueOverflow s) := sameDeck_of_touches (raise_touches _ _)
  have hspan (stop : Bool) (hn : (stopLine s r.lane).head.isAdmitted = false) :
      (entered r.lane q stop true (raise .queueOverflow s)).entry.span =
        s.entry.span ++ [{ spanEntry s r.lane g (nonAdmittedWeight s q) with
          unseen := true, noncompliant := stop }] := by
    rw [entered_span hg (by rw [hdeck.stopLine]; exact hn)
      (by rw [hdeck.entry, hdeck.admittedHeads]; exact hroom), hdeck.entry]
    unfold unadmittedEntry spanEntry
    rw [nonAdmittedWeight_congr hdeck.cfg, hdeck.clock, hdeck.cfg]
    rfl
  obtain hstop | ⟨a, c, hheld⟩ := hh
  · rw [headLeft_of_stop (by rw [hdeck.stopLine]; exact hstop), hspan true (by rw [hstop]; rfl), hstop]
    rfl
  · rw [headLeft_of_held (by rw [hdeck.stopLine]; exact hheld), headsOnly_span (runArbiter_headsOnly _),
      hspan false (by rw [hheld]; rfl), hheld]
    rfl

theorem overflow_line {g : Tag} (hg : q.tag = some g) (hnone : (stopLine s r.lane).head ≠ .none)
    (hfree : (stopLine s r.lane).head ≠ .free) :
    (headLeft r.lane q true (raise .queueOverflow s)).line =
      (enqueue (.entered g r.lane (deckWeight s r.lane q) q.effGross s.clock) s).line := by
  have htouch := raise_touches .queueOverflow s
  have hdeck : SameDeck s (raise .queueOverflow s) := sameDeck_of_touches htouch
  have hweight : deckWeight (raise .queueOverflow s) r.lane q = deckWeight s r.lane q := by
    simp only [deckWeight, hdeck.stopLine, hdeck.cfg]
  rw [headLeft_line (by rw [hdeck.stopLine]; exact hnone) (by rw [hdeck.stopLine]; exact hfree) hg,
    hweight, hdeck.clock]
  exact enqueue_line_congr _ hdeck.startup hdeck.clock (htouch .line (by decide))

end

/-- Settles O44: by `crossed_evaluated` for the record behind, and by the room in the queue for one that
joins. -/
theorem stopLineQueuesMoveUp : Obligations.StopLineQueuesMoveUp := by
  refine ⟨fun s l r b rest g hs ha hdue hocc hq hh => queueBehind_movesUp hs ha hdue hocc hq hh,
    fun s r => ⟨joinStopLine_of_nil, fun hne hlen => ?_, fun q rest p w hw hq hfull hp hweight => ?_⟩⟩
  · have hjoin : joinStopLine r s = atTail r s := by
      rw [joinStopLine_of_room hlen, if_neg (by simpa using hne)]
    rw [hjoin]
    exact ⟨(stopLine_atTail r r.lane s).trans (if_pos rfl),
      fun k hk => (stopLine_atTail r k s).trans (if_neg hk), rfl, touches_entry s _⟩
  · have htouch := raise_touches .queueOverflow s
    have hdeck : SameDeck s (raise .queueOverflow s) := sameDeck_of_touches htouch
    obtain ⟨hspan, hline, hlight⟩ := joinStopLine_full_kept hq hfull
    have hself : alertOf (joinStopLine r s) .queueOverflow = raisedAlert (alertOf s .queueOverflow) :=
      (alertOf_joinStopLine_full hq hfull (by decide)).trans (alertOf_raise_self hw _)
    have hentered : nonAdmittedWeight s q = w := by
      rw [hweight, hp]
      rfl
    refine ⟨joinStopLine_full_queue hq hfull, congrArg AlertState.sticky hself,
      congrArg AlertState.count hself,
      (alertOf_joinStopLine_full hq hfull (by decide)).trans (alertOf_raise_ne s nofun),
      fun a g hh hg => ⟨hspan.trans (overflow_admitted hh hg), ?_⟩, fun g hg hroom hh => ⟨?_, ?_⟩,
      fun hh => ?_⟩
    · rw [hline, overflow_line hg (by rw [hh]; nofun) (by rw [hh]; nofun), deckWeight_of_admitted hh]
    · rw [hspan, overflow_unadmitted hg hroom hh, hentered]
      rfl
    · have hheads : (stopLine s r.lane).head ≠ .none ∧ (stopLine s r.lane).head ≠ .free ∧
          (stopLine s r.lane).head.isAdmitted = false := by
        obtain h | ⟨a, c, h⟩ := hh
        all_goals
          rw [h]
          exact ⟨nofun, nofun, rfl⟩
      rw [hline, overflow_line hg hheads.1 hheads.2.1, deckWeight_of_not_admitted hheads.2.2, hentered]
    · have hleft := headLeft_of_free (r := q) (unseen := true) (s := raise .queueOverflow s)
        (by rw [hdeck.stopLine]; exact hh)
      have hcount : (lightCrossing r.lane (raise .queueOverflow s)).entry.lightCrossed =
          s.entry.lightCrossed + 1 := congrArg (fun e : EntryController => e.lightCrossed + 1) hdeck.entry
      have hkept : (lightCrossing r.lane (raise .queueOverflow s)).entry.span = s.entry.span :=
        (congrArg EntryController.span hdeck.entry :)
      have hsame : (lightCrossing r.lane (raise .queueOverflow s)).line = s.line :=
        htouch .line (by decide)
      rw [hspan, hline, hlight, hleft]
      exact ⟨hcount, hkept, hsame⟩

end Sys2Proof.Proofs
end

