-- ==== Sys2Proof/Proofs/ArbiterEvents.lean ====
section
/-! PROOFS. Commands that run the arbiter: RECOVERY_TIMER_EXPIRY, RELEASE n ADMIT and RELEASE n REMOVE
(R137, R138, R153, R154); and AMBER_TIMER_EXPIRY (R141). -/

namespace Sys2Proof.Proofs

open Sys2Proof Sys2Proof.Machine

/-! ## Amber timers (R141) -/

/-- R141: the amber time is over. -/
def amberEnded (l : Lane) (s : State) : State :=
  setStopLine l { stopLine s l with aspect := some .red, amber := none } s

/-- Where the amber timer runs, RED is wanted. -/
theorem wanted_of_amber {s : State} {l : Lane} (hs : settled s = true) (ha : laneActs s l = true)
    (h : (stopLine s l).amber ≠ none) : wantedAspect s l = .red := by
  have hshows := shows_of_settled hs ha
  unfold shows at hshows
  split at hshows
  · simp only [Bool.and_eq_true, decide_eq_true_eq] at hshows
    exact hshows.1
  · simp only [Bool.and_eq_true, Option.isNone_iff_eq_none] at hshows
    exact absurd hshows.2 h
  · cases hshows

theorem amberTimerExpiry_spec {s : State} {l : Lane} (hs : settled s = true)
    (ha : laneActs s l = true) (hdue : due s.clock (stopLine s l).amber = true) :
    ∃ t, exec (.amberTimerExpiry l) s = .next t ∧
      stopLine t l = { stopLine s l with aspect := some .red, amber := none } ∧
      (∀ k, k ≠ l → stopLine t k = stopLine s k) ∧
      t.entry = { s.entry with lanes := t.entry.lanes } ∧
      bareLamps t.lamps = bareLamps s.lamps ∧ changesOnly [.entry, .lamps] s t := by
  have hexec : exec (.amberTimerExpiry l) s = done (amberEnded l s) := if_pos hdue
  have hamber : (stopLine s l).amber ≠ none := by
    intro h
    rw [h] at hdue
    cases hdue
  have htouch : changesOnly [.entry] s (amberEnded l s) := touches_entry s _
  have hblocks : SameBlocks s (amberEnded l s) := sameBlocks_of_touches htouch
  have hline (k : Lane) : stopLine (amberEnded l s) k =
      if k = l then { stopLine s l with aspect := some .red, amber := none } else stopLine s k :=
    stopLine_setStopLine l k _ s
  have hself : stopLine (settle (amberEnded l s)) l =
      { stopLine s l with aspect := some .red, amber := none } := by
    have hwanted : wantedAspect (amberEnded l s) l = .red := by
      rw [hblocks.wanted (by rw [hline, if_pos rfl])]
      exact wanted_of_amber hs ha hamber
    rw [stopLine_settle, if_pos ((laneActs_congr (s := s) (t := amberEnded l s) rfl rfl l).trans ha), hwanted, hline, if_pos rfl]
    rfl
  refine ⟨_, hexec, hself, fun k hk => stopLine_settle_same hs hblocks ((hline k).trans (if_neg hk)),
    settle_entry_eq (amberEnded l s), bareLamps_settle_same rfl,
    changesOnly_settle_alerts hs htouch hblocks ?_⟩
  exact settle_alerts_same hs rfl rfl rfl (rawState_of_span htouch rfl rfl)

/-! ## A run of the arbiter in a command -/

theorem clearLost_eq (s : State) :
    clearLost s =
      { s with
        entry :=
          { s.entry with
            lost := s.entry.lost && !(s.entry.recovery.isNone && s.entry.span.isEmpty &&
              decide (committed s = 0)) } } := by
  unfold clearLost recovering
  rw [Option.not_isSome]
  cases s.entry.recovery.isNone && s.entry.span.isEmpty && decide (committed s = 0) with
  | true =>
    rw [if_pos rfl, Bool.not_true, Bool.and_false]
  | false =>
    rw [if_neg Bool.false_ne_true, Bool.not_false, Bool.and_true]

/-- A state whose lines are those of a settled one but for the heads the arbiter gives held lanes, and
whose span set is as it was: what a run leaves of it. -/
structure ArbiterLeft (bs : List Block) (s v : State) : Prop where
  touches : changesOnly bs s v
  blocks : ∀ b ∈ [Block.peers, .alerts] ++ followedBlocks, b ∉ bs
  span : v.entry.span = s.entry.span

theorem ArbiterLeft.same {bs : List Block} {s v : State} (h : ArbiterLeft bs s v) : SameBlocks s v :=
  sameBlocks_of_touches h.touches fun b hb => h.blocks b (by
    simp only [List.mem_cons, List.not_mem_nil, or_false] at hb
    obtain rfl | rfl | rfl | rfl | rfl := hb
    all_goals decide)

theorem ArbiterLeft.raw {bs : List Block} {s v : State} (h : ArbiterLeft bs s v) (y : AlertSource) :
    rawState v y = rawState s y := by
  have hpeers : v.peers = s.peers := h.touches .peers (h.blocks _ (by simp))
  exact rawState_of_span h.touches h.span (by rw [hpeers])
    (fun b hb => h.blocks b (List.mem_append_right _ hb)) y

theorem ArbiterLeft.alerts {bs : List Block} {s v : State} (hs : settled s = true)
    (h : ArbiterLeft bs s v) : (settle v).alerts = s.alerts :=
  settle_alerts_same hs h.same.startup h.same.cfg (h.touches .alerts (h.blocks _ (by simp))) h.raw

/-- With every line as it was there is nothing to be done. -/
theorem ArbiterLeft.settle_quiet {bs : List Block} {s v : State} (hs : settled s = true)
    (h : ArbiterLeft bs s v) (hl : ∀ k, stopLine v k = stopLine s k) : settle v = v :=
  settle_followed hs (h.same.followed hl) (h.touches .alerts (h.blocks _ (by simp))) h.raw

/-! ## RECOVERING ends (R136, R137) -/

/-- R136, R137: RECOVERING has ended. -/
def recovered (s : State) : State :=
  { s with
    entry :=
      { s.entry with
        recovery := none
        lost := s.entry.lost && !(s.entry.span.isEmpty && decide (committed s = 0)) } }

theorem clearLost_recovered (s : State) : clearLost { s with entry.recovery := none } = recovered s := by
  rw [clearLost_eq]
  rfl

theorem recoveryTimerExpiry_spec {s : State} (hs : settled s = true)
    (hdue : due s.clock s.entry.recovery = true) :
    let opens := s.startup ≠ .joining ∧ s.peers.posture ≠ .isolated ∧ (recovered s).entry.lost = false
    ∃ t, exec .recoveryTimerExpiry s = .next t ∧
      (opens → bareEntry t.entry = bareEntry (runArbiter (recovered s)).entry) ∧
      (s.entry.held = [] ∨ ¬opens → t.entry = (recovered s).entry ∧ t.lamps = s.lamps) ∧
      (∀ k, k ∉ s.entry.held → stopLine t k = stopLine s k) ∧
      bareLamps t.lamps = bareLamps s.lamps ∧ changesOnly [.entry, .lamps] s t := by
  intro opens
  have hgate : gateOpen (recovered s) = true ↔ opens := by
    rw [gateOpen_iff]
    exact ⟨fun ⟨h1, _, h2, h3⟩ => ⟨h1, h2, h3⟩, fun ⟨h1, h2, h3⟩ => ⟨h1, rfl, h2, h3⟩⟩
  have hexec : exec .recoveryTimerExpiry s =
      done (if gateOpen (recovered s) then runArbiter (recovered s) else recovered s) := by
    simp only [exec, execRecoveryTimerExpiry, hdue, if_true, clearLost_recovered]
  have hrecovered : ArbiterLeft [.entry] s (recovered s) := ⟨touches_entry s _, by decide, rfl⟩
  have hrun : ArbiterLeft [.entry] s (runArbiter (recovered s)) :=
    ⟨changesOnly_trans hrecovered.touches (runArbiter_touches _), by decide,
      (headsOnly_span (runArbiter_headsOnly _)).trans rfl⟩
  have hleft : ArbiterLeft [.entry] s
      (if gateOpen (recovered s) then runArbiter (recovered s) else recovered s) := by
    split
    · exact hrun
    · exact hrecovered
  refine ⟨_, hexec, fun hopen => ?_, fun hquiet => ?_, fun k hk => ?_,
    bareLamps_settle_same hleft.same.lamps,
    changesOnly_settle_alerts hs hleft.touches hleft.same (hleft.alerts hs)⟩
  · rw [bareEntry_settle, if_pos (hgate.2 hopen)]
  · have hstays : (if gateOpen (recovered s) then runArbiter (recovered s) else recovered s) =
        recovered s := by
      obtain hnil | hshut := hquiet
      · rw [runArbiter_of_none (s := recovered s) hnil, ite_self]
      · rw [if_neg (mt hgate.1 hshut)]
    rw [hstays, hrecovered.settle_quiet hs fun _ => rfl]
    exact ⟨rfl, rfl⟩
  · refine stopLine_settle_same hs hleft.same ?_
    split
    · exact stopLine_runArbiter_of_notMem (s := recovered s) hk
    · rfl

/-- Settles O47: AMBER_TIMER_EXPIRY shows what is wanted; at RECOVERY_TIMER_EXPIRY the gate decides. -/
theorem entryTimersExpire : Obligations.EntryTimersExpire := fun _ hs =>
  ⟨fun _ ha hdue => amberTimerExpiry_spec hs ha hdue, recoveryTimerExpiry_spec hs⟩

/-! ## An accepted command that prints nothing -/

/-- R196: the OK of a command that prints nothing. -/
def okAnswered (v : State) : State := { v with port.response := some (.ok []) }

theorem okAnswered_touches (v : State) : changesOnly [.port] v (okAnswered v) := touches_port v _

theorem portCommand_answered {s v : State} {c : PortCommand} (hp : portReady s = true)
    (hw : working s = true) (h : judgeCommand c (beginLine s) = prints [] v) :
    portCommand c s = .next (settle (okAnswered v)) := by
  rw [portCommand_of_working hp hw, h]
  rfl

theorem sameDeck_beginLine (s : State) : SameDeck s (beginLine s) :=
  sameDeck_of_touches (beginLine_touches s)

/-- The port of a command that prints nothing and leaves the port alone. -/
theorem okAnswered_port {bs : List Block} {s v : State} (h : changesOnly bs (beginLine s) v)
    (hb : Block.port ∉ bs := by decide) :
    (settle (okAnswered v)).port =
      { s.port with
        state := .responding, buffer := [], garbled := false, response := some (.ok [])
        linesTaken := s.port.linesTaken + 1 } := by
  have hport : v.port = (beginLine s).port := h .port hb
  have hsettle : (settle (okAnswered v)).port = (okAnswered v).port :=
    settle_changesOnly _ .port (by decide)
  have hanswer : (okAnswered v).port = { v.port with response := some (.ok []) } := rfl
  rw [hsettle, hanswer, hport]
  rfl

/-! ## RELEASE n ADMIT (R153) -/

theorem SameDeck.becomeHeld {s t : State} (h : SameDeck s t) (l : Lane) (w : Nat) :
    SameDeck (becomeHeld l w s) (becomeHeld l w t) := by
  refine sameDeck_of_entry h (changesOnly_trans (touches_entry s _) (touches_entry _ _))
    (changesOnly_trans (touches_entry t _) (touches_entry _ _)) ?_
  have hheld : (Machine.becomeHeld l w t).entry.held = (Machine.becomeHeld l w s).entry.held := by
    rw [becomeHeld_heldWith, becomeHeld_heldWith, h.heldWith]
  have hshape (u : State) : (Machine.becomeHeld l w u).entry =
      { u.entry with
        lanes := u.entry.lanes.put l { Machine.stopLine u l with head := .held w u.clock }
        held := (Machine.becomeHeld l w u).entry.held } := rfl
  rw [hshape t, hshape s, hheld, h.stopLine, h.entry, h.clock]

/-- A STOP head that is released weighs nothing before the arbiter runs. -/
theorem fits_becomeHeld {s : State} {l : Lane} {w a : Nat} (h : (stopLine s l).head = .stop) :
    fits (becomeHeld l w s) a = fits s a := by
  have hcommitted := committed_setStopLine l { stopLine s l with head := .held w s.clock } s
  have hcount := admittedHeads_setStopLine l { stopLine s l with head := .held w s.clock } s
  rw [h] at hcommitted hcount
  have h1 : committed (becomeHeld l w s) = committed s := hcommitted
  have h2 : admittedHeads (becomeHeld l w s) = admittedHeads s := hcount
  rw [Bool.eq_iff_iff, fits_iff, fits_iff, h1, h2]
  rfl

theorem becomeHeld_touches (l : Lane) (w : Nat) (s : State) :
    changesOnly [.entry] s (becomeHeld l w s) :=
  changesOnly_trans (touches_entry s _) (touches_entry _ _)

theorem mem_heldWith_iff {s : State} {l k : Lane} : k ∈ heldWith l s ↔ k = l ∨ k ∈ s.entry.held := by
  rw [← becomeHeld_heldWith l 0 s, becomeHeld_held, (insertHeld_perm s s.clock l s.entry.held).mem_iff,
    List.mem_cons]

theorem heldWith_of_nil {s : State} (l : Lane) (h : s.entry.held = []) : heldWith l s = [l] := by
  unfold heldWith
  rw [h]
  rfl

/-- R153: the arbiter over a single released head. -/
theorem runArbiter_released {s : State} {l : Lane} {r : Record} {rest : List Record}
    (ha : laneActs s l = true) (hq : (stopLine s l).queue = r :: rest)
    (hh : (stopLine s l).head = .stop) (hnil : s.entry.held = []) :
    (fits s (admissionWeight s r) = true →
      (stopLine (runArbiter (becomeHeld l (admissionWeight s r) s)) l).head =
          .admitted (admissionWeight s r) ∧
        (runArbiter (becomeHeld l (admissionWeight s r) s)).entry.held = []) ∧
    (fits s (admissionWeight s r) = false →
      (stopLine (runArbiter (becomeHeld l (admissionWeight s r) s)) l).head =
          .held (admissionWeight s r) s.clock ∧
        (runArbiter (becomeHeld l (admissionWeight s r) s)).entry.held = [l]) := by
  have hacts : entryActs (becomeHeld l (admissionWeight s r) s) = true := by
    simp only [laneActs, Bool.and_eq_true] at ha
    exact ha.1
  have hheld : (becomeHeld l (admissionWeight s r) s).entry.held = [l] := by
    rw [becomeHeld_heldWith, heldWith_of_nil l hnil]
  have hline : stopLine (becomeHeld l (admissionWeight s r) s) l =
      { stopLine s l with head := .held (admissionWeight s r) s.clock } := by
    rw [stopLine_becomeHeld, if_pos rfl]
  have hrun : runArbiter (becomeHeld l (admissionWeight s r) s) =
      if fits s (admissionWeight s r) then
        leaveHeld l (setHead l (.admitted (admissionWeight s r))
          (becomeHeld l (admissionWeight s r) s))
      else setHead l (.held (admissionWeight s r) s.clock)
        (becomeHeld l (admissionWeight s r) s) := by
    rw [runArbiter, if_pos hacts, hheld]
    simp only [arbiterFrom, hline, hq]
    have hweight : admissionWeight (becomeHeld l (admissionWeight s r) s) r = admissionWeight s r := rfl
    rw [hweight, fits_becomeHeld hh]
  refine ⟨fun hfit => ?_, fun hfit => ?_⟩
  · rw [hrun, if_pos hfit]
    refine ⟨by rw [stopLine_leaveHeld, stopLine_setHead, if_pos rfl], ?_⟩
    rw [leaveHeld_held, setHead_held, hheld]
    simp
  · rw [hrun, if_neg (by rw [hfit]; exact Bool.false_ne_true)]
    exact ⟨by rw [stopLine_setHead, if_pos rfl], by rw [setHead_held, hheld]⟩

section

variable {s : State} {l : Lane} {r : Record} {rest : List Record}

theorem exec_releaseAdmit (hp : portReady s = true) (ha : laneActs s l = true)
    (hq : (stopLine s l).queue = r :: rest) (hh : (stopLine s l).head = .stop) :
    exec (.releaseAdmit (laneNumber l)) s =
      .next (settle (okAnswered
        (runArbiter (becomeHeld l (admissionWeight (beginLine s) r) (beginLine s))))) := by
  obtain ⟨hw, hentry, hl⟩ := laneActs_iff.1 ha
  have hdeck := sameDeck_beginLine s
  refine portCommand_answered (c := .releaseAdmit (laneNumber l)) hp hw ?_
  change judgeReleaseAdmit (laneNumber l) (beginLine s) = _
  have hentry' : (beginLine s).cfg.entry = true := hentry
  simp only [judgeReleaseAdmit, hentry', if_true, laneArg_laneNumber (s := beginLine s) hl,
    hdeck.stopLine, hh, hq]

theorem releaseAdmit_spec (hs : settled s = true) (hp : portReady s = true)
    (ha : laneActs s l = true) (hq : (stopLine s l).queue = r :: rest)
    (hh : (stopLine s l).head = .stop) :
    let a := admissionWeight s r
    let u : State := setStopLine l { stopLine s l with head := .held a s.clock }
      { s with entry := { s.entry with held := heldWith l s } }
    ∃ t, exec (.releaseAdmit (laneNumber l)) s = .next t ∧
      t.port =
        { s.port with
          state := .responding, buffer := [], garbled := false, response := some (.ok [])
          linesTaken := s.port.linesTaken + 1 } ∧
      (stopLine t l).queue = r :: rest ∧
      bareEntry t.entry = bareEntry (runArbiter u).entry ∧
      (s.entry.held = [] →
        (fits s a = true → (stopLine t l).head = .admitted a ∧ t.entry.held = []) ∧
          (fits s a = false →
            (stopLine t l).head = .held a s.clock ∧ t.entry.held = [l])) ∧
      (∀ k, k ≠ l → k ∉ s.entry.held → stopLine t k = stopLine s k) ∧
      t.entry = { s.entry with lanes := t.entry.lanes, held := t.entry.held } ∧
      bareLamps t.lamps = bareLamps s.lamps ∧ changesOnly [.port, .entry, .lamps] s t := by
  intro a u
  have hdeck := sameDeck_beginLine s
  have hu : u = becomeHeld l a s := by
    have hheld := becomeHeld_heldWith l a s
    change setStopLine l { stopLine s l with head := .held a s.clock }
      { s with entry := { s.entry with held := heldWith l s } } = _
    rw [← hheld]
    rfl
  have hexec := exec_releaseAdmit hp ha hq hh
  rw [hdeck.admissionWeight] at hexec
  have hrun : SameDeck (runArbiter (becomeHeld l a s)) (runArbiter (becomeHeld l a (beginLine s))) :=
    (hdeck.becomeHeld l a).runArbiter
  have hanswered : SameDeck (runArbiter (becomeHeld l a s))
      (okAnswered (runArbiter (becomeHeld l a (beginLine s)))) :=
    hrun.trans (sameDeck_of_touches (okAnswered_touches _))
  have hop : changesOnly [.entry] (beginLine s) (runArbiter (becomeHeld l a (beginLine s))) :=
    changesOnly_trans (becomeHeld_touches l a _) (runArbiter_touches _)
  have hheads : headsOnly s (runArbiter (becomeHeld l a s)) :=
    headsOnly_trans (becomeHeld_headsOnly l a s) (runArbiter_headsOnly _)
  have hleft : ArbiterLeft [.port, .entry] s
      (okAnswered (runArbiter (becomeHeld l a (beginLine s)))) :=
    ⟨changesOnly_mono (changesOnly_append (changesOnly_append (beginLine_touches s) hop)
      (okAnswered_touches _)) (by decide), by decide,
      (congrArg EntryController.span hanswered.entry).trans (headsOnly_span hheads)⟩
  have hbare (k : Lane) := (bareLine_settle (okAnswered (runArbiter (becomeHeld l a (beginLine s)))) k).trans
    (congrArg bareLine (hanswered.stopLine k))
  refine ⟨_, hexec, okAnswered_port hop, ?_, ?_, fun hnil => ?_, fun k hk hheld => ?_, ?_,
    bareLamps_settle_same hleft.same.lamps,
    changesOnly_settle_alerts hs hleft.touches hleft.same (hleft.alerts hs)⟩
  · exact ((congrArg StopLine.queue (hbare l) :).trans (headsOnly_queue hheads l)).trans hq
  · rw [bareEntry_settle, hanswered.entry, hu]
  · obtain ⟨hadmitted, hstays⟩ := runArbiter_released ha hq hh hnil
    have hheld := (settle_held (okAnswered (runArbiter (becomeHeld l a (beginLine s))))).trans
      (congrArg EntryController.held hanswered.entry)
    refine ⟨fun hfit => ?_, fun hfit => ?_⟩
    · exact ⟨(congrArg StopLine.head (hbare l) :).trans (hadmitted hfit).1,
        hheld.trans (hadmitted hfit).2⟩
    · exact ⟨(congrArg StopLine.head (hbare l) :).trans (hstays hfit).1, hheld.trans (hstays hfit).2⟩
  · refine stopLine_settle_same hs hleft.same ((hanswered.stopLine k).trans ?_)
    rw [stopLine_runArbiter_of_notMem (by
      rw [becomeHeld_heldWith, mem_heldWith_iff]
      exact not_or.2 ⟨hk, hheld⟩), stopLine_becomeHeld, if_neg hk]
  · rw [settle_entry_eq, hanswered.entry]
    rw [hheads.1]

end

end Sys2Proof.Proofs
end

