-- ==== Sys2Proof/Proofs/Removals.lean ====
section
/-! PROOFS. RELEASE n REMOVE (R154), and both forms of RELEASE as one obligation. -/

namespace Sys2Proof.Proofs

open Sys2Proof Sys2Proof.Machine

theorem becomeHeld_eq (l : Lane) (w : Nat) (s : State) :
    becomeHeld l w s =
      setHead l (.held w s.clock) { s with entry := { s.entry with held := heldWith l s } } := by
  unfold becomeHeld
  rw [insertHeld_eq]
  rfl

/-- The answer of the port commutes with the evaluation of a head. -/
theorem okAnswered_evaluateHead (l : Lane) (v : State) :
    okAnswered (evaluateHead l v) = evaluateHead l (okAnswered v) := by
  have hraise (x : AlertSource) (u : State) : okAnswered (raise x u) = raise x (okAnswered u) := by
    have hw : working (okAnswered u) = working u := rfl
    unfold raise
    rw [hw]
    split <;> rfl
  have hdeck : SameDeck v (okAnswered v) := sameDeck_of_touches (okAnswered_touches v)
  rw [evaluateHead_eq, evaluateHead_eq, hdeck.stopLine, hdeck.frontHead]
  split
  next r _ _ =>
    unfold stopCounted
    change countLane l _ (okAnswered (raise _ (setHead l .stop v))) = _
    rw [hraise]
    rfl
  next w _ _ =>
    have hheld : heldWith l (okAnswered v) = heldWith l v := hdeck.heldWith l
    rw [becomeHeld_eq, becomeHeld_eq, hheld]
    rfl
  · rfl

/-- R154: a head has been turned away, before the arbiter and the record behind it. -/
def turnedAway (l : Lane) (s : State) : State :=
  { leaveHeld l (popHead l s) with entry.turnedAway := s.entry.turnedAway + 1 }

/-- R154: a head has been turned away; after a HELD one the arbiter has run. -/
def removedDeck (l : Lane) (wasHeld : Bool) (s : State) : State :=
  if wasHeld then runArbiter (turnedAway l s) else turnedAway l s

theorem turnAway_eq (l : Lane) (wasHeld : Bool) (s : State) :
    turnAway l wasHeld s = evaluateHead l (removedDeck l wasHeld s) := rfl

theorem turnedAway_touches (l : Lane) (s : State) : changesOnly [.entry] s (turnedAway l s) :=
  changesOnly_trans (touches_entry s _) (changesOnly_trans (touches_entry (popHead l s) _)
    (touches_entry (leaveHeld l (popHead l s)) _))

theorem removedDeck_touches (l : Lane) (wasHeld : Bool) (s : State) :
    changesOnly [.entry] s (removedDeck l wasHeld s) := by
  unfold removedDeck
  split
  · exact changesOnly_trans (turnedAway_touches l s) (runArbiter_touches _)
  · exact turnedAway_touches l s

theorem SameDeck.turnedAway {s t : State} (h : SameDeck s t) (l : Lane) :
    SameDeck (turnedAway l s) (turnedAway l t) := by
  refine sameDeck_of_entry h (turnedAway_touches l s) (turnedAway_touches l t) ?_
  have hgone := (h.popHead l).leaveHeld l
  unfold Proofs.turnedAway
  simp only [hgone.entry, h.entry]

theorem SameDeck.removedDeck {s t : State} (h : SameDeck s t) (l : Lane) (wasHeld : Bool) :
    SameDeck (removedDeck l wasHeld s) (removedDeck l wasHeld t) := by
  unfold Proofs.removedDeck
  split
  · exact (h.turnedAway l).runArbiter
  · exact h.turnedAway l

section

variable {s : State} {l : Lane} {r : Record} {rest : List Record} {wasHeld : Bool}

/-- A head that RELEASE n REMOVE removes: a HELD one or a STOP one. -/
def removable (l : Lane) (wasHeld : Bool) (s : State) : Prop :=
  ((stopLine s l).head = .stop ∧ wasHeld = false) ∨
    ((∃ a h, (stopLine s l).head = .held a h) ∧ wasHeld = true)

theorem exec_releaseRemove (hp : portReady s = true) (ha : laneActs s l = true)
    (hh : removable l wasHeld s) :
    exec (.releaseRemove (laneNumber l)) s =
      .next (settle (evaluateHead l (okAnswered (removedDeck l wasHeld (beginLine s))))) := by
  obtain ⟨hw, hentry, hl⟩ := laneActs_iff.1 ha
  have hdeck := sameDeck_beginLine s
  rw [← okAnswered_evaluateHead, ← turnAway_eq]
  refine portCommand_answered (c := .releaseRemove (laneNumber l)) hp hw ?_
  change judgeReleaseRemove (laneNumber l) (beginLine s) = _
  have hentry' : (beginLine s).cfg.entry = true := hentry
  obtain ⟨hh, rfl⟩ | ⟨⟨a, c, hh⟩, rfl⟩ := hh
  all_goals
    simp only [judgeReleaseRemove, hentry', if_true, laneArg_laneNumber (s := beginLine s) hl,
      hdeck.stopLine, hh]

theorem stopLine_turnedAway (k : Lane) (s : State) :
    stopLine (turnedAway l s) k =
      if k = l then { stopLine s l with queue := (stopLine s l).queue.tail, head := .none }
      else stopLine s k := stopLine_popHead l k s

theorem stopLine_removedDeck_self :
    stopLine (removedDeck l wasHeld s) l =
      { stopLine s l with queue := (stopLine s l).queue.tail, head := .none } := by
  have hgone := (stopLine_turnedAway (l := l) l s).trans (if_pos rfl)
  unfold removedDeck
  split
  · rw [stopLine_runArbiter_of_none (by rw [hgone]), hgone]
  · exact hgone

theorem removedDeck_rest : (removedDeck l wasHeld s).entry =
    { s.entry with
      lanes := (removedDeck l wasHeld s).entry.lanes, held := (removedDeck l wasHeld s).entry.held
      turnedAway := s.entry.turnedAway + 1 } := by
  unfold removedDeck
  split
  · rw [(runArbiter_headsOnly _).1]
    rfl
  · rfl

theorem othersHeads_removedDeck : othersHeads l s (removedDeck l wasHeld s) := by
  have hgone (k : Lane) (hk : k ≠ l) : stopLine (turnedAway l s) k = stopLine s k :=
    (stopLine_turnedAway k s).trans (if_neg hk)
  intro k hk
  unfold removedDeck
  split
  · rw [(runArbiter_headsOnly _).2 k, hgone k hk]
  · rw [hgone k hk]

theorem releaseRemove_spec (hs : settled s = true) (hp : portReady s = true)
    (ha : laneActs s l = true) (hq : (stopLine s l).queue = r :: rest)
    (hh : removable l wasHeld s) :
    ∃ t, exec (.releaseRemove (laneNumber l)) s = .next t ∧
      t.port =
        { s.port with
          state := .responding, buffer := [], garbled := false, response := some (.ok [])
          linesTaken := s.port.linesTaken + 1 } ∧
      (stopLine t l).queue = rest ∧ headEvaluated l s (removedDeck l wasHeld s) t ∧
      (rest = [] → (stopLine t l).head = .none ∧ t.alerts = s.alerts ∧ t.counters = s.counters) ∧
      (∀ k, k ≠ l → k ∉ s.entry.held → stopLine t k = stopLine s k) ∧
      t.entry =
        { s.entry with
          lanes := t.entry.lanes, held := t.entry.held, turnedAway := s.entry.turnedAway + 1 } ∧
      (∀ y, y ≠ .noncompliant → y ≠ .overUndirected → alertOf t y = alertOf s y) ∧
      changesOnly [.port, .entry, .lamps, .alerts, .counters] s t := by
  have hbegin : changesOnly [.port, .entry] s (okAnswered (removedDeck l wasHeld (beginLine s))) :=
    changesOnly_mono (changesOnly_append (changesOnly_append (beginLine_touches s)
      (removedDeck_touches l wasHeld _)) (okAnswered_touches _)) (by decide)
  have hdeck : SameDeck (removedDeck l wasHeld s)
      (okAnswered (removedDeck l wasHeld (beginLine s))) :=
    ((sameDeck_beginLine s).removedDeck l wasHeld).trans (sameDeck_of_touches (okAnswered_touches _))
  have htouch : changesOnly [.port, .entry, .alerts, .counters] s
      (evaluateHead l (okAnswered (removedDeck l wasHeld (beginLine s)))) :=
    changesOnly_mono (changesOnly_append hbegin (evaluateHead_touches _ _)) (by decide)
  have hsame := sameBlocks_of_touches htouch
  have halert (y : AlertSource) : alertOf (okAnswered (removedDeck l wasHeld (beginLine s))) y =
      alertOf s y := alertOf_congr (hbegin .alerts (by decide)) y
  have hcounters : (okAnswered (removedDeck l wasHeld (beginLine s))).counters = s.counters :=
    hbegin .counters (by decide)
  have heval : headEvaluated l s (removedDeck l wasHeld s)
      (settle (evaluateHead l (okAnswered (removedDeck l wasHeld (beginLine s))))) :=
    headEvaluated_settle hs (laneActs_iff.1 ha).1 hdeck (sameBlocks_of_touches hbegin)
      othersHeads_removedDeck (fun y _ => halert y) (by rw [hcounters])
      (by rw [hcounters]; exact fun _ _ => rfl)
  have hself := heval.1
  rw [stopLine_removedDeck_self, hq, List.tail_cons] at hself
  have hspan : (evaluateHead l (okAnswered (removedDeck l wasHeld (beginLine s)))).entry.span =
      s.entry.span := by
    rw [evaluateHead_entry]
    change (okAnswered (removedDeck l wasHeld (beginLine s))).entry.span = _
    rw [hdeck.entry, removedDeck_rest]
  have hraw := rawState_of_span htouch hspan (congrArg Peers.posture (htouch .peers (by decide)))
  refine ⟨_, exec_releaseRemove hp ha hh, ?_, (congrArg StopLine.queue hself :), heval,
    fun hnil => ?_, fun k hk hheld => (heval.2.1 k hk).2 ?_, ?_, fun y h1 h2 => ?_,
    changesOnly_settle_signs hs htouch hsame⟩
  · rw [← okAnswered_evaluateHead]
    exact okAnswered_port (changesOnly_append (removedDeck_touches l wasHeld _) (evaluateHead_touches l _))
  · subst hnil
    have hfront : frontHead l (okAnswered (removedDeck l wasHeld (beginLine s))) = .none := by
      rw [hdeck.frontHead]
      refine frontHead_of_nil ?_
      rw [stopLine_removedDeck_self, hq]
      rfl
    have hquiet := evaluateHead_touches_entry (l := l)
      (s := okAnswered (removedDeck l wasHeld (beginLine s))) (by rw [hfront]; nofun)
    refine ⟨(congrArg StopLine.head hself :), settle_alerts_same hs hsame.startup hsame.cfg ?_ hraw, ?_⟩
    · exact (hquiet .alerts (by decide)).trans (hbegin .alerts (by decide))
    · rw [settle_counters]
      exact (hquiet .counters (by decide)).trans hcounters
  · unfold removedDeck
    have hgone : stopLine (turnedAway l s) k = stopLine s k :=
      (stopLine_turnedAway k s).trans (if_neg hk)
    split
    · have hnot : k ∉ (turnedAway l s).entry.held := fun hm => hheld (List.mem_filter.1 hm).1
      rw [stopLine_runArbiter_of_notMem hnot, hgone]
    · rw [hgone]
  · rw [heval.2.2.1]
    rw [removedDeck_rest]
  · refine alertOf_settle_same hs hsame.startup ?_ (hraw y)
    rw [alertOf_evaluateHead_ne h1 h2, halert]

end

/-- R154: the deck once a head has been turned away, written out. -/
theorem turnedAway_eq {s : State} {l : Lane} {r : Record} {rest : List Record}
    (hq : (stopLine s l).queue = r :: rest) :
    turnedAway l s =
      setStopLine l { stopLine s l with queue := rest, head := .none }
        { s with
          entry :=
            { s.entry with
              held := s.entry.held.filter (fun k => decide (k ≠ l))
              turnedAway := s.entry.turnedAway + 1 } } := by
  unfold turnedAway popHead
  rw [hq]
  rfl

/-- Settles O49: both forms by what the deck is before the arbiter runs. -/
theorem releaseAdmitsOrRemoves : Obligations.ReleaseAdmitsOrRemoves := by
  intro s l r rest hs hp ha hq answered
  refine ⟨releaseAdmit_spec hs hp ha hq, fun hh => ?_⟩
  intro removed u
  have hremoved : removed = turnedAway l s := (turnedAway_eq hq).symm
  obtain ⟨wasHeld, hwas, hu⟩ : ∃ wasHeld, removable l wasHeld s ∧ u = removedDeck l wasHeld s := by
    change ∃ wasHeld, removable l wasHeld s ∧
      (if (stopLine s l).head = .stop then removed else runArbiter removed) = _
    rw [hremoved]
    obtain hstop | ⟨a, h, hheld⟩ := hh
    · exact ⟨false, .inl ⟨hstop, rfl⟩, if_pos hstop⟩
    · exact ⟨true, .inr ⟨⟨a, h, hheld⟩, rfl⟩, if_neg (by rw [hheld]; nofun)⟩
  rw [hu]
  exact releaseRemove_spec hs hp ha hq hwas

end Sys2Proof.Proofs
end

