-- ==== Sys2Proof/Proofs/SpanLeaves.lean ====
section
/-! PROOFS. Entries that leave the span set (R148, R150, R151, R155), the accounting mode (R149), and the
accounting-lost state that ends with them (R137). -/

namespace Sys2Proof.Proofs

open Sys2Proof Sys2Proof.Machine

/-! ## Departures -/

/-- R137, R148: the deck once the entries that `keep` refuses have left, before the arbiter runs. -/
def spanLeft (keep : SpanEntry → Bool) (s : State) : State :=
  clearLost { s with entry.span := s.entry.span.filter keep }

theorem spanLeft_eq (keep : SpanEntry → Bool) (s : State) :
    spanLeft keep s =
      { s with
        entry :=
          { s.entry with
            span := s.entry.span.filter keep
            lost := s.entry.lost && !(s.entry.recovery.isNone && (s.entry.span.filter keep).isEmpty &&
              decide (committed s = 0)) } } := clearLost_eq _

theorem departSpan_of_some {keep : SpanEntry → Bool} {s : State} (h : s.entry.span.all keep = false) :
    departSpan keep s = runArbiter (takeConditions (spanLeft keep s)) := by
  unfold departSpan
  rw [if_neg (by rw [h]; exact Bool.false_ne_true)]
  rfl

theorem departSpan_of_all {keep : SpanEntry → Bool} {s : State} (h : s.entry.span.all keep = true) :
    departSpan keep s = s := if_pos h

/-- The deck a departure leaves. -/
theorem sameDeck_departSpan {keep : SpanEntry → Bool} {s : State}
    (h : s.entry.span.all keep = false) :
    SameDeck (runArbiter (spanLeft keep s)) (departSpan keep s) := by
  rw [departSpan_of_some h]
  exact (sameDeck_of_touches (takeConditions_touches _)).runArbiter

theorem SameDeck.spanLeft {s t : State} (h : SameDeck s t) (keep : SpanEntry → Bool) :
    SameDeck (spanLeft keep s) (spanLeft keep t) := by
  unfold Proofs.spanLeft
  refine SameDeck.clearLost (sameDeck_of_entry h (touches_entry s _) (touches_entry t _) ?_)
  simp only [h.entry]

theorem alertOf_takeConditions_taken {s : State} {y : AlertSource}
    (h : isCondition y = true → working s = true → (alertOf s y).remembered = rawState s y) :
    alertOf (takeConditions s) y = alertOf s y := by
  cases hy : isCondition y with
  | false => exact alertOf_takeConditions_event s hy
  | true =>
    unfold takeConditions
    split
    next hw => exact alertOf_foldl_takeRaw _ (h hy hw)
    next => rfl

/-- The raw states of a state but for SPAN_OVERDUE. -/
theorem rawState_of_otherSpan {bs : List Block} {s u : State} (h : changesOnly bs s u)
    (hp : u.peers.posture = s.peers.posture) (hb : ∀ b ∈ followedBlocks, b ∉ bs := by decide)
    {y : AlertSource} (hy : y ≠ .spanOverdue) : rawState u y = rawState s y := by
  have hprobe : u.probe = s.probe := h .probe (hb _ (by simp [followedBlocks]))
  rw [← rawState_withEntry (u := u) (e := s.entry) fun e => absurd e hy]
  exact rawState_congr (s := s) (t := { u with entry := s.entry })
    (h .lamps (hb _ (by simp [followedBlocks]))) (h .cfg (hb _ (by simp [followedBlocks])))
    (h .health (hb _ (by simp [followedBlocks]))) rfl hp (congrArg Probe.theta hprobe) y

/-- The blocks a command with a departure may write besides, before and after it. -/
def besideSpan : List Block := [.entry, .line, .port]

/-- The station once entries have left the span set in a command that writes nothing else of the entry
controller but the count of forgotten entries, and has signs, aspects, outputs and alerts follow. -/
theorem departed_settle {keep : SpanEntry → Bool} {f : Count} {s v w : State} (hs : settled s = true)
    (hv : changesOnly besideSpan s v) (hentry : v.entry = { s.entry with forgotten := f })
    (hgone : s.entry.span.all keep = false) (hw : changesOnly [.port] (departSpan keep v) w) :
    let u := spanLeft keep { s with entry := { s.entry with forgotten := f } }
    bareEntry (settle w).entry = bareEntry (runArbiter u).entry ∧
      (s.entry.held = [] → (settle w).entry = u.entry ∧ (settle w).lamps = s.lamps) ∧
      (∀ k, k ∉ s.entry.held → stopLine (settle w) k = stopLine s k) ∧
      bareLamps (settle w).lamps = bareLamps s.lamps ∧
      (∀ y, y ≠ .spanOverdue → alertOf (settle w) y = alertOf s y) := by
  intro u
  have hall : v.entry.span.all keep = false := by rw [hentry]; exact hgone
  have hcounted : SameDeck { s with entry := { s.entry with forgotten := f } } v := by
    have hpeers : v.peers = s.peers := hv .peers (by decide)
    exact ⟨hv .startup (by decide), hv .cfg (by decide), hv .clock (by decide), by rw [hpeers], hentry⟩
  have hdeck : SameDeck (runArbiter u) w :=
    ((hcounted.spanLeft keep).runArbiter.trans (sameDeck_departSpan hall)).trans
      (sameDeck_of_touches hw)
  have hdepart : changesOnly [.entry, .alerts] v (departSpan keep v) := departSpan_touches keep v
  have htouch : changesOnly (besideSpan ++ [.entry, .alerts] ++ [.port]) s w :=
    changesOnly_append (changesOnly_append hv hdepart) hw
  have hsame : SameBlocks s w := sameBlocks_of_touches htouch
  have hpeers : w.peers = s.peers := htouch .peers (by decide)
  have hstop (k : Lane) : stopLine u k = stopLine s k := by
    have hu : u.entry.lanes = s.entry.lanes := by
      change (spanLeft keep _).entry.lanes = _
      rw [spanLeft_eq]
    exact stopLine_congr hu k
  have hheld : u.entry.held = s.entry.held := by
    change (spanLeft keep _).entry.held = _
    rw [spanLeft_eq]
  have hraw {y : AlertSource} (hy : y ≠ .spanOverdue) : rawState w y = rawState s y :=
    rawState_of_otherSpan htouch (by rw [hpeers]) (by decide) hy
  have halert {y : AlertSource} (hy : y ≠ .spanOverdue) : alertOf w y = alertOf s y := by
    have hvalert : alertOf (spanLeft keep v) y = alertOf s y := by
      rw [spanLeft_eq]
      exact alertOf_congr (hv .alerts (by decide)) y
    have hlast : alertOf w y = alertOf (takeConditions (spanLeft keep v)) y := by
      rw [alertOf_congr (hw .alerts (by decide)), departSpan_of_some hall]
      exact alertOf_congr (runArbiter_touches _ .alerts (by decide)) y
    rw [hlast, alertOf_takeConditions_taken (fun hc hwork => ?_), hvalert]
    have hws : working s = true := by
      rw [← working_congr (hv .startup (by decide))]
      rw [spanLeft_eq] at hwork
      exact hwork
    have hleft : changesOnly (besideSpan ++ [.entry]) s (spanLeft keep v) := by
      rw [spanLeft_eq]
      exact changesOnly_append hv (touches_entry v _)
    have hlp : (spanLeft keep v).peers = s.peers := hleft .peers (by decide)
    rw [hvalert, remembered_of_settled hs hws hc,
      rawState_of_otherSpan hleft (by rw [hlp]) (by decide) hy]
  refine ⟨by rw [bareEntry_settle, hdeck.entry], fun hnil => ?_, fun k hk => ?_,
    bareLamps_settle_same hsame.lamps, fun y hy => ?_⟩
  · have hrun : runArbiter u = u := runArbiter_of_none (hheld.trans hnil)
    have hlines (k : Lane) : stopLine w k = stopLine s k := by
      rw [hdeck.stopLine, hrun, hstop]
    have hquiet := (hsame.followed hlines).settle_touches hs
    have hentryW : (settle w).entry = w.entry := hquiet .entry (by decide)
    have hlampsW : (settle w).lamps = w.lamps := hquiet .lamps (by decide)
    rw [hentryW, hlampsW, hdeck.entry, hrun, hsame.lamps]
    exact ⟨rfl, rfl⟩
  · refine stopLine_settle_same hs hsame ?_
    rw [hdeck.stopLine, stopLine_runArbiter_of_notMem (by rw [hheld]; exact hk), hstop]
  · exact alertOf_settle_same hs hsame.startup (halert hy) (hraw hy)

/-- What else such a command writes. -/
theorem departed_touches {keep : SpanEntry → Bool} {bs cs : List Block} {s v w : State}
    (hs : settled s = true) (hv : changesOnly bs s v) (hw : changesOnly cs (departSpan keep v) w)
    {ds : List Block} (hb : bs ++ [.entry, .alerts] ++ cs ++ [.lamps, .entry, .alerts] ⊆ ds := by decide)
    (hsame : ∀ b ∈ [Block.startup, .cfg, .health, .signs, .lamps], b ∉ bs ++ [.entry, .alerts] ++ cs := by
      decide) : changesOnly ds s (settle w) :=
  have h := changesOnly_append (changesOnly_append hv (departSpan_touches keep v)) hw
  changesOnly_settle_signs hs h (sameBlocks_of_touches h hsame) hb

/-! ## The commands -/

/-- R75: the slot of the oldest stored frame is free. -/
def slotFreed (rest : List Stored) (s : State) : State := lined { s.line with slots := rest } s

theorem slotFreed_touches (rest : List Stored) (s : State) :
    changesOnly [.line] s (slotFreed rest s) := lined_touches _ s

theorem exec_noticeHandlingComplete {s : State} {x : Stored} {rest : List Stored}
    (h : s.line.slots = x :: rest) :
    exec .noticeHandlingComplete s = done (handleNotice x (slotFreed rest s)) := by
  simp only [exec, execNoticeHandlingComplete, h]
  rfl

theorem handleNotice_left {x : Stored} {g : Tag} {age : Nat} {s : State}
    (h : x.frame.body = .left g age) :
    handleNotice x s = if s.cfg.entry then handleLeft g s else s := by
  simp only [handleNotice, h]

/-- R148, R137: what the departure of all entries with a tag leaves, whatever the command. -/
def tagLeft (g : Tag) (f : Count) (s t : State) : Prop :=
  let u := spanLeft (fun x => decide (x.tag ≠ g)) { s with entry := { s.entry with forgotten := f } }
  bareEntry t.entry = bareEntry (runArbiter u).entry ∧
    (s.entry.held = [] → t.entry = u.entry ∧ t.lamps = s.lamps) ∧
    (∀ k, k ∉ s.entry.held → stopLine t k = stopLine s k) ∧
    bareLamps t.lamps = bareLamps s.lamps ∧
    (∀ y, y ≠ .spanOverdue → alertOf t y = alertOf s y)

section

variable {s : State} {e : SpanEntry}

theorem any_of_find (h : s.entry.span.find? (fun x => decide (x.tag = e.tag)) = some e) :
    (s.entry.span.any fun x => decide (x.tag = e.tag)) = true := by
  rw [List.any_eq_true]
  exact ⟨e, List.mem_of_find?_eq_some h, by simp⟩

theorem all_of_find (h : s.entry.span.find? (fun x => decide (x.tag = e.tag)) = some e) :
    (s.entry.span.all fun x => decide (x.tag ≠ e.tag)) = false := by
  rw [List.all_eq_false]
  exact ⟨e, List.mem_of_find?_eq_some h, by simp⟩

theorem spanDeadline_timed (hs : settled s = true)
    (h : s.entry.span.find? (fun x => decide (x.tag = e.tag)) = some e) (hmode : s.entry.mode = .timed)
    (hdue : atOrAfter s.clock e.deadline = true) (hon : e.overdue = false) :
    ∃ t, exec (.spanDeadline e.tag) s = .next t ∧ tagLeft e.tag s.entry.forgotten s t ∧
      changesOnly [.entry, .lamps, .alerts] s t := by
  have hexec : exec (.spanDeadline e.tag) s =
      done (departSpan (fun x => decide (x.tag ≠ e.tag)) s) := by
    simp only [exec, execSpanDeadline, h, hdue, hon, hmode, and_self, if_true]
  exact ⟨_, hexec, departed_settle hs (changesOnly_refl _ s) rfl (all_of_find h) (changesOnly_refl _ _),
    departed_touches hs (changesOnly_refl [] s)
      (changesOnly_refl [] (departSpan (fun x => decide (x.tag ≠ e.tag)) s))⟩

theorem spanDeadline_tracked (hs : settled s = true) (hw : working s = true)
    (h : s.entry.span.find? (fun x => decide (x.tag = e.tag)) = some e)
    (hmode : s.entry.mode = .tracked) (hdue : atOrAfter s.clock e.deadline = true)
    (hon : e.overdue = false) :
    ∃ t, exec (.spanDeadline e.tag) s = .next t ∧
      t.entry =
        { s.entry with
          span := s.entry.span.map fun x =>
            if x.tag = e.tag then { x with overdue := true } else x } ∧
      spanTotal t = spanTotal s ∧ (alertOf t .spanOverdue).remembered = true ∧
      (∀ y, y ≠ .spanOverdue → alertOf t y = alertOf s y) ∧ changesOnly [.entry, .alerts] s t := by
  have hexec : exec (.spanDeadline e.tag) s = done (makeOverdue e.tag s) := by
    simp only [exec, execSpanDeadline, h, hdue, hon, hmode, and_self, if_true]
  have htouch : changesOnly [.entry] s (makeOverdue e.tag s) := touches_entry s _
  have hfollowed : SameFollowed s (makeOverdue e.tag s) :=
    (sameBlocks_of_touches htouch).followed fun _ => rfl
  obtain ⟨hself, hother, hlast⟩ := settle_takesOne_spec (x := .spanOverdue) hs hw rfl hfollowed rfl
    fun y hy => rawState_of_otherSpan htouch rfl (by decide) hy
  have hraw : rawState (makeOverdue e.tag s) .spanOverdue = true := by
    refine List.any_eq_true.2 ⟨{ e with overdue := true }, ?_, rfl⟩
    refine List.mem_map.2 ⟨e, List.mem_of_find?_eq_some h, if_pos rfl⟩
  have hentry : (settle (makeOverdue e.tag s)).entry = (makeOverdue e.tag s).entry :=
    hlast .entry (by decide)
  have hweight : spanTotal (settle (makeOverdue e.tag s)) = spanTotal s := by
    unfold spanTotal
    rw [hentry]
    change ((s.entry.span.map _).map _).sum = _
    rw [List.map_map]
    congr 2
    funext x
    dsimp only [Function.comp_apply]
    split <;> rfl
  exact ⟨_, hexec, hentry, hweight, by rw [hself, hraw], hother,
    changesOnly_append htouch hlast⟩

theorem left_handled {x : Stored} {rest : List Stored} {age : Nat} (hs : settled s = true)
    (hentry : s.cfg.entry = true)
    (h : s.entry.span.find? (fun x => decide (x.tag = e.tag)) = some e)
    (hslots : s.line.slots = x :: rest) (hbody : x.frame.body = .left e.tag age) :
    ∃ t, exec .noticeHandlingComplete s = .next t ∧ tagLeft e.tag s.entry.forgotten s t ∧
      t.line = { s.line with slots := rest } ∧ changesOnly [.entry, .line, .lamps, .alerts] s t := by
  have hexec : exec .noticeHandlingComplete s =
      done (departSpan (fun x => decide (x.tag ≠ e.tag)) (slotFreed rest s)) := by
    rw [exec_noticeHandlingComplete hslots, handleNotice_left hbody]
    exact congrArg done ((if_pos hentry).trans (if_pos (any_of_find h)))
  refine ⟨_, hexec, departed_settle hs (changesOnly_mono (slotFreed_touches rest s) (by decide)) rfl
    (all_of_find h) (changesOnly_refl _ _), ?_, ?_⟩
  · rw [settle_line]
    exact departSpan_touches _ _ .line (by decide)
  · exact departed_touches hs (slotFreed_touches rest s)
      (changesOnly_refl [] (departSpan (fun x => decide (x.tag ≠ e.tag)) (slotFreed rest s)))

/-- The station at the departure of a forgotten tag. -/
def forgottenCounted (s : State) : State :=
  { beginLine s with entry.forgotten := s.entry.forgotten + 1 }

theorem forget_spec (hs : settled s = true) (hp : portReady s = true) (hw : working s = true)
    (hentry : s.cfg.entry = true)
    (h : s.entry.span.find? (fun x => decide (x.tag = e.tag)) = some e) :
    ∃ t, exec (.forget (some e.tag)) s = .next t ∧ tagLeft e.tag (s.entry.forgotten + 1) s t ∧
      t.port =
        { s.port with
          state := .responding, buffer := [], garbled := false, response := some (.ok [])
          linesTaken := s.port.linesTaken + 1 } ∧
      changesOnly [.entry, .port, .lamps, .alerts] s t := by
  have hjudge : judgeCommand (.forget (some e.tag)) (beginLine s) =
      prints [] (departSpan (fun x => decide (x.tag ≠ e.tag)) (forgottenCounted s)) :=
    (if_pos hentry).trans (if_pos (any_of_find h))
  have hcounted : changesOnly [.entry] (beginLine s) (forgottenCounted s) := touches_entry _ _
  have htouch : changesOnly [.port, .entry] s (forgottenCounted s) :=
    changesOnly_append (beginLine_touches s) hcounted
  refine ⟨_, portCommand_answered hp hw hjudge, departed_settle hs
    (changesOnly_mono htouch (by decide)) rfl (all_of_find h) (okAnswered_touches _), ?_, ?_⟩
  · exact okAnswered_port (changesOnly_append hcounted (departSpan_touches _ _))
  · exact departed_touches hs htouch
      (okAnswered_touches (departSpan (fun x => decide (x.tag ≠ e.tag)) (forgottenCounted s)))

end

/-- R151: a LEFT of a tag that is not in the span set is counted. -/
def leftUnknown (rest : List Stored) (s : State) : State :=
  { slotFreed rest s with entry.unknownLeft := s.entry.unknownLeft + 1 }

theorem left_unknown {s : State} {x : Stored} {rest : List Stored} {g : Tag} {age : Nat}
    (hs : settled s = true) (hslots : s.line.slots = x :: rest) (hbody : x.frame.body = .left g age)
    (hentry : s.cfg.entry = true) (hnot : ∀ e ∈ s.entry.span, e.tag ≠ g) :
    ∃ t, exec .noticeHandlingComplete s = .next t ∧
      t.entry = { s.entry with unknownLeft := s.entry.unknownLeft + 1 } ∧
      t.line = { s.line with slots := rest } ∧ changesOnly [.entry, .line] s t := by
  have hany : (s.entry.span.any fun e => decide (e.tag = g)) = false := by
    rw [List.any_eq_false]
    exact fun e he => by simpa using hnot e he
  have hexec : exec .noticeHandlingComplete s = done (leftUnknown rest s) := by
    rw [exec_noticeHandlingComplete hslots, handleNotice_left hbody]
    exact congrArg done ((if_pos hentry).trans (if_neg (by
      rw [show ((slotFreed rest s).entry.span.any fun e => decide (e.tag = g)) = false from hany]
      exact Bool.false_ne_true)))
  have htouch : changesOnly [.line, .entry] s (leftUnknown rest s) :=
    changesOnly_append (slotFreed_touches rest s) (touches_entry _ _)
  refine ⟨_, hexec.trans (done_lines hs htouch rfl fun k => ⟨rfl, rfl, ?_⟩), rfl, rfl,
    changesOnly_mono htouch (by decide)⟩
  exact wantedAspect_congr (t := leftUnknown rest s) rfl rfl rfl rfl

theorem left_ignored {s : State} {x : Stored} {rest : List Stored} {g : Tag} {age : Nat}
    (hs : settled s = true) (hslots : s.line.slots = x :: rest) (hbody : x.frame.body = .left g age)
    (hentry : s.cfg.entry = false) :
    ∃ t, exec .noticeHandlingComplete s = .next t ∧ t.line = { s.line with slots := rest } ∧
      changesOnly [.line] s t := by
  refine exec_lined hs ?_
  rw [exec_noticeHandlingComplete hslots, handleNotice_left hbody]
  exact congrArg done (if_neg (by
    rw [show (slotFreed rest s).cfg.entry = false from hentry]
    exact Bool.false_ne_true))

end Sys2Proof.Proofs
end

