-- ==== Sys2Proof/Proofs/ModeJudged.lean ====
section
/-! PROOFS. The accounting mode (R149), and the deck when the peer table changes (R87, R138). -/

namespace Sys2Proof.Proofs

open Sys2Proof Sys2Proof.Machine

/-! ## The mode -/

/-- R86: a PRESENT peer that says it is an EXIT station. -/
def exitAt (s : State) (k : Station) : Prop :=
  (rowOf s k).state = .present ∧ ∃ h, (rowOf s k).heard = some h ∧ h.body.exit = true

/-- R149: what TRACKED asks for. -/
def trackedNow (s : State) : Prop :=
  s.cfg.entry = true ∧ s.cfg.exitInstalled = true ∧ ∃ k, exitAt s k

theorem exitPresent_iff {s : State} : exitPresent s = true ↔ ∃ k, exitAt s k := by
  unfold exitPresent exitAt isPresent rowOf
  simp only [List.any_eq_true, Bool.and_eq_true, decide_eq_true_eq, Option.any_eq_true]
  exact ⟨fun ⟨k, _, h⟩ => ⟨k, h⟩, fun ⟨k, h⟩ => ⟨k, Machine.mem_allStations k, h⟩⟩

theorem modeWanted_eq (s : State) [Decidable (trackedNow s)] :
    modeWanted s = if trackedNow s then .tracked else .timed := by
  have h : (s.cfg.entry && s.cfg.exitInstalled && exitPresent s) = true ↔ trackedNow s := by
    simp only [Bool.and_eq_true, exitPresent_iff, and_assoc]
    rfl
  unfold modeWanted
  by_cases ht : trackedNow s
  · rw [if_pos (h.2 ht), if_pos ht]
  · rw [if_neg (mt h.1 ht), if_neg ht]

/-- R149: the station once its mode is TIMED. -/
def madeTimed (s : State) : State := { s with entry := { s.entry with mode := .timed } }

/-- An entry stays at a switch to TIMED. -/
def staysTimed (e : SpanEntry) : Bool := !e.overdue

theorem judgeMode_of_switch {s : State} (hmode : s.entry.mode = .tracked) (h : ¬trackedNow s) :
    judgeMode s = departSpan staysTimed (madeTimed s) := by
  classical
  have hwanted : modeWanted s = .timed := (modeWanted_eq s).trans (if_neg h)
  unfold judgeMode
  rw [hmode, hwanted]
  rfl

theorem judgeMode_of_stay {s : State} (h : s.entry.mode = .timed ∨ trackedNow s) :
    judgeMode s = { s with entry := { s.entry with mode := modeWanted s } } := by
  classical
  unfold judgeMode
  obtain hmode | ht := h
  · rw [hmode]
  · rw [(modeWanted_eq s).trans (if_pos ht)]
    cases s.entry.mode <;> rfl

theorem departSpan_headsOnly (keep : SpanEntry → Bool) (s : State) :
    (departSpan keep s).entry =
      { s.entry with
        lanes := (departSpan keep s).entry.lanes, held := (departSpan keep s).entry.held
        span := s.entry.span.filter keep, lost := (departSpan keep s).entry.lost } := by
  cases hall : s.entry.span.all keep with
  | true =>
    rw [departSpan_of_all hall, List.filter_eq_self.2 (List.all_eq_true.1 hall)]
  | false =>
    rw [(sameDeck_departSpan hall).entry, (runArbiter_headsOnly _).1, spanLeft_eq]

theorem judgeMode_mode (s : State) : (judgeMode s).entry.mode = modeWanted s := by
  classical
  by_cases h : s.entry.mode = .timed ∨ trackedNow s
  · rw [judgeMode_of_stay h]
  · obtain ⟨hmode, ht⟩ := not_or.1 h
    have hmode : s.entry.mode = .tracked := by
      cases hm : s.entry.mode with
      | tracked => rfl
      | timed => exact absurd hm hmode
    rw [judgeMode_of_switch hmode ht, departSpan_headsOnly, modeWanted_eq, if_neg ht]
    rfl

theorem judgeMode_span_of_switch {s : State} (hmode : s.entry.mode = .tracked) (h : ¬trackedNow s) :
    (judgeMode s).entry.span = s.entry.span.filter staysTimed := by
  rw [judgeMode_of_switch hmode h, departSpan_headsOnly]
  rfl

/-- Where the peer rows and the deck agree, so does the deck once the mode is judged. -/
theorem SameDeck.judgeMode {s t : State} (h : SameDeck s t) (hr : t.peers.rows = s.peers.rows) :
    SameDeck (judgeMode s) (judgeMode t) := by
  classical
  have htracked : trackedNow t ↔ trackedNow s := by
    simp only [trackedNow, exitAt, rowOf, h.cfg, hr]
  have hwanted : modeWanted t = modeWanted s := by
    rw [modeWanted_eq, modeWanted_eq]
    simp only [htracked]
  by_cases hstay : s.entry.mode = .timed ∨ trackedNow s
  · rw [judgeMode_of_stay hstay, judgeMode_of_stay (s := t) (by rw [h.entry, htracked]; exact hstay),
      hwanted]
    exact sameDeck_of_entry h (touches_entry s _) (touches_entry t _) (by simp only [h.entry])
  · obtain ⟨hmode, ht⟩ := not_or.1 hstay
    have hmode : s.entry.mode = .tracked := by
      cases hm : s.entry.mode with
      | tracked => rfl
      | timed => exact absurd hm hmode
    rw [judgeMode_of_switch hmode ht,
      judgeMode_of_switch (s := t) (by rw [h.entry]; exact hmode) (mt htracked.1 ht)]
    have htimed : SameDeck (madeTimed s) (madeTimed t) :=
      sameDeck_of_entry h (touches_entry s _) (touches_entry t _) (by simp only [madeTimed, h.entry])
    cases hall : (madeTimed s).entry.span.all staysTimed with
    | true =>
      rw [departSpan_of_all hall, departSpan_of_all (by rw [htimed.entry]; exact hall)]
      exact htimed
    | false =>
      exact (sameDeck_departSpan hall).symm.trans ((htimed.spanLeft _).runArbiter.trans
        (sameDeck_departSpan (by rw [htimed.entry]; exact hall)))

/-! ## The posture (R87, R138) -/

/-- R87: the station with the posture its rows give. -/
def posturePut (s : State) : State := { s with peers.posture := postureOf s }

/-- R138: a change of posture runs the arbiter. -/
def postureDeck (s : State) : State :=
  if postureOf s = s.peers.posture then s else runArbiter (posturePut s)

theorem sameDeck_recomputePosture {s : State} (h : s.startup = .running) :
    SameDeck (postureDeck s) (recomputePosture s) := by
  unfold postureDeck recomputePosture
  rw [if_pos h]
  dsimp only
  split
  · exact .refl s
  · exact (sameDeck_of_touches (s := posturePut s) (takeConditions_touches _)).runArbiter

theorem recomputePosture_peers {s : State} (h : s.startup = .running) :
    (recomputePosture s).peers = { s.peers with posture := postureOf s } := by
  unfold recomputePosture
  rw [if_pos h]
  dsimp only
  split
  next hp => rw [hp]
  next =>
    exact (runArbiter_touches _ .peers (by decide)).trans
      (takeConditions_touches (posturePut s) .peers (by decide))

theorem recomputePosture_headsOnly (s : State) : headsOnly s (recomputePosture s) := by
  unfold recomputePosture
  split
  · dsimp only
    split
    · exact headsOnly_refl s
    · have htaken : (takeConditions (posturePut s)).entry = s.entry :=
        takeConditions_touches (posturePut s) .entry (by decide)
      have hrun := runArbiter_headsOnly (takeConditions (posturePut s))
      refine ⟨?_, fun k => ?_⟩
      · refine hrun.1.trans ?_
        rw [htaken]
        rfl
      · refine (hrun.2 k).trans ?_
        rw [stopLine_congr (congrArg EntryController.lanes htaken) k]
        rfl
  · exact headsOnly_refl s

/-! ## SPAN_DEADLINE and the others (R148 to R151, R155) -/

theorem judgeMode_entry_of_overdue {s : State} (hmode : s.entry.mode = .tracked) (h : ¬trackedNow s)
    (hover : ∃ x ∈ s.entry.span, x.overdue = true) :
    (judgeMode s).entry = (runArbiter (spanLeft staysTimed (madeTimed s))).entry := by
  obtain ⟨x, hx, ho⟩ := hover
  rw [judgeMode_of_switch hmode h]
  refine (sameDeck_departSpan (keep := staysTimed) (s := madeTimed s) ?_).entry
  exact List.all_eq_false.2 ⟨x, hx, by simp [staysTimed, ho]⟩

/-- The peer that falls silent is no EXIT peer any more. -/
theorem trackedNow_goSilent {s u : State} {k : Station}
    (hrows : u.peers.rows = s.peers.rows.put k { rowOf s k with state := .silent, silence := none })
    (hothers : ∀ j, j ≠ k → ¬exitAt s j) : ¬trackedNow u := by
  rintro ⟨-, -, j, hpresent, hexit⟩
  unfold rowOf at hpresent hexit
  rw [hrows] at hpresent hexit
  by_cases hj : j = k
  · subst hj
    rw [Tab.at_put_self] at hpresent
    cases hpresent
  · rw [Tab.at_put_ne _ _ hj] at hpresent hexit
    exact hothers j hj ⟨hpresent, hexit⟩

/-- R84: the row of a silent peer, and its alert. -/
def rowSilent (k : Station) (s : State) : State :=
  raise .peerSilent (setRow k { rowOf s k with state := .silent, silence := none } s)

theorem goSilent_eq (k : Station) (s : State) :
    goSilent k s = judgeMode (recomputePosture (rowSilent k s)) := rfl

theorem rowSilent_touches (k : Station) (s : State) :
    changesOnly [.peers, .alerts] s (rowSilent k s) :=
  changesOnly_append (touches_peers s _) (raise_touches _ _)

theorem rowSilent_peers (k : Station) (s : State) :
    (rowSilent k s).peers =
      { s.peers with
        rows := s.peers.rows.put k { rowOf s k with state := .silent, silence := none } } :=
  raise_touches _ _ .peers (by decide)

theorem silence_switches {s : State} {k : Station} (hrun : s.startup = .running)
    (hmode : s.entry.mode = .tracked) (hexit : exitAt s k)
    (hdue : due s.clock (rowOf s k).silence = true) (hothers : ∀ j, j ≠ k → ¬exitAt s j) :
    ∃ t, exec (.silenceTimerExpiry k) s = .next t ∧ t.entry.mode = .timed ∧
      t.entry.span = s.entry.span.filter staysTimed := by
  classical
  have hexec : exec (.silenceTimerExpiry k) s =
      done (judgeMode (recomputePosture (rowSilent k s))) := if_pos ⟨hexit.1, hdue⟩
  have hsilent := rowSilent_touches k s
  have hstart : (rowSilent k s).startup = .running := (hsilent .startup (by decide)).trans hrun
  have hentry : (rowSilent k s).entry = s.entry := hsilent .entry (by decide)
  have hdeck := (recomputePosture_headsOnly (rowSilent k s)).1
  have hmode' : (recomputePosture (rowSilent k s)).entry.mode = .tracked := by
    rw [hdeck, hentry]
    exact hmode
  have hspan : (recomputePosture (rowSilent k s)).entry.span = s.entry.span := by
    rw [hdeck, hentry]
  have hnot : ¬trackedNow (recomputePosture (rowSilent k s)) :=
    trackedNow_goSilent
      (by rw [recomputePosture_peers hstart, rowSilent_peers]) hothers
  have hjudged := judgeMode_mode (recomputePosture (rowSilent k s))
  rw [modeWanted_eq, if_neg hnot] at hjudged
  refine ⟨_, hexec, ?_, ?_⟩
  · rw [settle_entry_eq]
    exact hjudged
  · rw [settle_span, judgeMode_span_of_switch hmode' hnot, hspan]

theorem tagLeft_iff {g : Tag} {f : Count} {s t : State} :
    tagLeft g f s t ↔
      (let stay := s.entry.span.filter (fun x => decide (x.tag ≠ g))
      let u : State :=
        { s with
          entry :=
            { s.entry with
              span := stay
              lost := s.entry.lost && !(s.entry.recovery.isNone && stay.isEmpty &&
                decide (committed s = 0))
              forgotten := f } }
      bareEntry t.entry = bareEntry (runArbiter u).entry ∧
        (s.entry.held = [] → t.entry = u.entry ∧ t.lamps = s.lamps) ∧
        (∀ k, k ∉ s.entry.held → stopLine t k = stopLine s k) ∧
        bareLamps t.lamps = bareLamps s.lamps ∧
        (∀ y, y ≠ .spanOverdue → alertOf t y = alertOf s y)) := by
  unfold tagLeft
  rw [spanLeft_eq]
  rfl

/-- Settles O48: the departures by `departed_settle`, the mode by `judgeMode_mode`. -/
theorem spanEntriesLeave : Obligations.SpanEntriesLeave := by
  classical
  refine ⟨fun s e hs hw hentry hfind => ⟨fun hmode hdue hon => ?_, fun x rest age hslots hbody => ?_,
    fun hp => ?_, spanDeadline_tracked hs hw hfind⟩, fun s x rest g age hs hslots hbody =>
      ⟨left_unknown hs hslots hbody, left_ignored hs hslots hbody⟩, fun s => ⟨?_, fun hmode hnot =>
      ⟨judgeMode_span_of_switch hmode hnot, fun hover => ?_⟩, fun hstay => ?_,
      fun k _ hrun hmode hexit hdue hothers => silence_switches hrun hmode hexit hdue hothers⟩⟩
  · obtain ⟨t, hexec, hleft, htouch⟩ := spanDeadline_timed hs hfind hmode hdue hon
    exact ⟨t, hexec, tagLeft_iff.1 hleft, htouch⟩
  · obtain ⟨t, hexec, hleft, hline, htouch⟩ := left_handled hs hentry hfind hslots hbody
    exact ⟨t, hexec, tagLeft_iff.1 hleft, hline, htouch⟩
  · obtain ⟨t, hexec, hleft, hport, htouch⟩ := forget_spec hs hp hw hentry hfind
    exact ⟨t, hexec, tagLeft_iff.1 hleft, hport, htouch⟩
  · change (judgeMode s).entry.mode = .tracked ↔ trackedNow s
    rw [judgeMode_mode, modeWanted_eq]
    split
    next h => exact iff_of_true rfl h
    next h => exact iff_of_false nofun h
  · rw [judgeMode_entry_of_overdue hmode hnot hover, spanLeft_eq]
    rfl
  · rw [judgeMode_of_stay hstay]
    exact ⟨rfl, touches_entry s _⟩

end Sys2Proof.Proofs
end

