-- ==== Sys2Proof/Proofs/PeerRows.lean ====
section
/-! PROOFS. Changes of the peer table: a peer that falls silent, failed deliveries, beacons handled, and
the entry controller that follows (R69, R82 to R87, R138, R149). -/

namespace Sys2Proof.Proofs

open Sys2Proof Sys2Proof.Machine

/-! ## Event sources -/

theorem alertOf_departSpan_event (keep : SpanEntry → Bool) (s : State) {y : AlertSource}
    (h : isCondition y = false) : alertOf (departSpan keep s) y = alertOf s y := by
  cases hall : s.entry.span.all keep with
  | true => rw [departSpan_of_all hall]
  | false =>
    rw [departSpan_of_some hall, alertOf_congr (runArbiter_touches _ .alerts (by decide)),
      alertOf_takeConditions_event _ h, spanLeft_eq]
    rfl

theorem alertOf_judgeMode_event (s : State) {y : AlertSource} (h : isCondition y = false) :
    alertOf (judgeMode s) y = alertOf s y := by
  classical
  by_cases hstay : s.entry.mode = .timed ∨ trackedNow s
  · rw [judgeMode_of_stay hstay]
    rfl
  · obtain ⟨hmode, ht⟩ := not_or.1 hstay
    have hmode : s.entry.mode = .tracked := by
      cases hm : s.entry.mode with
      | tracked => rfl
      | timed => exact absurd hm hmode
    rw [judgeMode_of_switch hmode ht, alertOf_departSpan_event _ _ h]
    rfl

theorem alertOf_recomputePosture_event (s : State) {y : AlertSource} (h : isCondition y = false) :
    alertOf (recomputePosture s) y = alertOf s y := by
  unfold recomputePosture
  split
  · dsimp only
    split
    · rfl
    · rw [alertOf_congr (runArbiter_touches _ .alerts (by decide)), alertOf_takeConditions_event _ h]
      rfl
  · rfl

/-! ## The entry controller follows the peer table -/

/-- What a change of the peer rows leads to before `settle`: the posture is computed anew, or not, and
the mode is judged. -/
structure PeersChanged (s u w : State) (recomputed : Prop) : Prop where
  touches : changesOnly [.peers, .alerts, .line] s u
  posture : u.peers.posture = s.peers.posture
  when_recomputed : recomputed → w = judgeMode (recomputePosture u)
  when_kept : ¬recomputed → w = judgeMode u

section

variable {s u w : State} {recomputed : Prop}

theorem judgeMode_peers (s : State) : (judgeMode s).peers = s.peers :=
  judgeMode_touches s .peers (by decide)

theorem PeersChanged.peers (h : PeersChanged s u w recomputed) (hrun : s.startup = .running)
    [Decidable recomputed] :
    w.peers = { u.peers with posture := if recomputed then postureOf u else s.peers.posture } := by
  have hstart : u.startup = .running := (h.touches .startup (by decide)).trans hrun
  split
  next hr => rw [h.when_recomputed hr, judgeMode_peers, recomputePosture_peers hstart]
  next hr => rw [h.when_kept hr, judgeMode_peers, ← h.posture]

theorem PeersChanged.frame (h : PeersChanged s u w recomputed) :
    changesOnly [.peers, .alerts, .line, .entry] s w := by
  by_cases hr : recomputed
  · rw [h.when_recomputed hr]
    exact changesOnly_mono (changesOnly_append (changesOnly_append h.touches
      (recomputePosture_touches u)) (judgeMode_touches _)) (by decide)
  · rw [h.when_kept hr]
    exact changesOnly_mono (changesOnly_append h.touches (judgeMode_touches _)) (by decide)

theorem PeersChanged.alert (h : PeersChanged s u w recomputed) {y : AlertSource}
    (hy : isCondition y = false) : alertOf w y = alertOf u y := by
  by_cases hr : recomputed
  · rw [h.when_recomputed hr, alertOf_judgeMode_event _ hy, alertOf_recomputePosture_event _ hy]
  · rw [h.when_kept hr, alertOf_judgeMode_event _ hy]

/-- R138, R149: the deck is that of the rule. -/
theorem PeersChanged.deck (h : PeersChanged s u w recomputed)
    (hrun : recomputed → s.startup = .running) {p : Peers} (hp : p = w.peers) :
    SameDeck
      (judgeMode (if p.posture = s.peers.posture then { s with peers := p }
        else runArbiter { s with peers := p })) w := by
  subst hp
  have hu {v : State} (hv : v.peers.posture = w.peers.posture)
      (hsame : changesOnly [.peers, .alerts, .line] s v) :
      SameDeck { s with peers := w.peers } v :=
    ⟨hsame .startup (by decide), hsame .cfg (by decide), hsame .clock (by decide), hv,
      hsame .entry (by decide)⟩
  by_cases hr : recomputed
  · have hstart : u.startup = .running := (h.touches .startup (by decide)).trans (hrun hr)
    have hpeers : w.peers = { u.peers with posture := postureOf u } := by
      rw [h.when_recomputed hr, judgeMode_peers, recomputePosture_peers hstart]
    have hrows : (recomputePosture u).peers.rows = w.peers.rows := by
      rw [h.when_recomputed hr, judgeMode_peers]
    have hposture : w.peers.posture = postureOf u := by rw [hpeers]
    have hdeck : SameDeck (if w.peers.posture = s.peers.posture then { s with peers := w.peers }
        else runArbiter { s with peers := w.peers }) (recomputePosture u) := by
      refine SameDeck.trans ?_ (sameDeck_recomputePosture hstart)
      unfold postureDeck
      by_cases hsame : postureOf u = u.peers.posture
      · rw [if_pos hsame, if_pos (by rw [hposture, hsame, h.posture])]
        exact hu (by rw [hposture, hsame]) h.touches
      · rw [if_neg hsame, if_neg (by rw [hposture, ← h.posture]; exact hsame)]
        refine (hu (v := posturePut u) hposture.symm ?_).runArbiter
        exact changesOnly_trans h.touches (changesOnly_mono (touches_peers u _) (by decide))
    conv => rhs; rw [h.when_recomputed hr]
    refine hdeck.judgeMode (hrows.trans ?_)
    split
    · rfl
    · have hkept : (runArbiter { s with peers := w.peers }).peers = w.peers :=
        runArbiter_touches { s with peers := w.peers } .peers (by decide)
      rw [hkept]
  · have hpeers : w.peers = u.peers := by rw [h.when_kept hr, judgeMode_peers]
    rw [if_pos (by rw [hpeers, h.posture])]
    conv => rhs; rw [h.when_kept hr]
    exact (hu (by rw [hpeers]) h.touches).judgeMode (by rw [hpeers])

theorem PeersChanged.follows (h : PeersChanged s u w recomputed)
    (hrun : recomputed → s.startup = .running) {x : Line} :
    entryFollowsPeers s (settle (lined x w)) := by
  have hpeers : (settle (lined x w)).peers = w.peers := settle_changesOnly _ .peers (by decide)
  refine ⟨?_, bareLamps_settle_same (h.frame .lamps (by decide))⟩
  rw [bareEntry_settle]
  exact congrArg bareEntry (h.deck hrun hpeers).entry

/-- R129, R149: at a station without the ENTRY role the entry controller stays. -/
theorem PeersChanged.idle (h : PeersChanged s u w recomputed) (hentry : s.cfg.entry = false)
    (hmode : s.entry.mode = .timed) : w.entry = s.entry := by
  classical
  have hjudge {v : State} (hv : v.entry = s.entry) (hcfg : v.cfg = s.cfg) :
      (judgeMode v).entry = s.entry := by
    have hnot : ¬trackedNow v := fun ht => by
      have := ht.1
      rw [hcfg, hentry] at this
      cases this
    rw [judgeMode_of_stay (.inl (by rw [hv]; exact hmode)), modeWanted_eq, if_neg hnot, hv, ← hmode]
  have hue : u.entry = s.entry := h.touches .entry (by decide)
  have huc : u.cfg = s.cfg := h.touches .cfg (by decide)
  by_cases hr : recomputed
  · rw [h.when_recomputed hr]
    refine hjudge ?_ ((recomputePosture_touches u .cfg (by decide)).trans huc)
    have hidle {v : State} (hv : v.cfg = s.cfg) : runArbiter v = v := by
      unfold runArbiter entryActs
      rw [hv, hentry, Bool.and_false, if_neg Bool.false_ne_true]
    unfold recomputePosture
    split
    · dsimp only
      split
      · exact hue
      · refine (congrArg State.entry (hidle (v := takeConditions (posturePut u))
          ((takeConditions_touches (posturePut u) .cfg (by decide)).trans huc))).trans ?_
        exact (takeConditions_touches (posturePut u) .entry (by decide)).trans hue
    · exact hue
  · rw [h.when_kept hr]
    exact hjudge hue huc

theorem PeersChanged.settle_idle (h : PeersChanged s u w recomputed) (hs : settled s = true)
    (hentry : s.cfg.entry = false) (hmode : s.entry.mode = .timed) {x : Line} :
    (settle (lined x w)).entry = s.entry ∧ (settle (lined x w)).lamps = s.lamps := by
  have hw := h.idle hentry hmode
  have htouch : changesOnly [.peers, .alerts, .line, .entry] s (lined x w) :=
    changesOnly_trans h.frame (changesOnly_mono (lined_touches x w) (by decide))
  have hquiet := ((sameBlocks_of_touches htouch).followed fun k =>
    stopLine_congr (s := s) (t := lined x w) (congrArg EntryController.lanes hw) k).settle_touches hs
  exact ⟨(hquiet .entry (by decide)).trans hw,
    (hquiet .lamps (by decide)).trans (htouch .lamps (by decide))⟩

theorem PeersChanged.settle_touches (h : PeersChanged s u w recomputed) (hs : settled s = true)
    {x : Line} : changesOnly [.line, .peers, .alerts, .entry, .lamps] s (settle (lined x w)) := by
  have htouch : changesOnly [.peers, .alerts, .line, .entry] s (lined x w) :=
    changesOnly_trans h.frame (changesOnly_mono (lined_touches x w) (by decide))
  exact changesOnly_settle_signs hs htouch (sameBlocks_of_touches htouch)

end

theorem lined_self (s : State) : lined s.line s = s := rfl

theorem rowOf_of_peers {s t : State} (h : t.peers.rows = s.peers.rows) (k : Station) :
    rowOf t k = rowOf s k := by simp only [rowOf, h]

theorem postureOf_of_rows {s t : State} (h : t.peers.rows = s.peers.rows) :
    postureOf t = postureOf s := by
  have hpresent : isPresent t = isPresent s := funext fun k => by simp only [isPresent, h]
  simp only [postureOf, hpresent, h]

/-! ## A peer falls silent (R84) -/

theorem peersChanged_goSilent {k : Station} {s v : State} (hv : changesOnly [.peers, .alerts, .line] s v)
    (hp : v.peers.posture = s.peers.posture) :
    PeersChanged s (rowSilent k v) (goSilent k v) True := by
  refine ⟨changesOnly_trans hv (changesOnly_mono (rowSilent_touches k v) (by decide)), ?_,
    fun _ => goSilent_eq k v, fun h => absurd trivial h⟩
  rw [rowSilent_peers]
  exact hp

theorem rowSilent_rows_self (k : Station) (s : State) :
    rowOf (rowSilent k s) k = { rowOf s k with state := .silent, silence := none } := by
  unfold rowOf
  rw [rowSilent_peers]
  exact Tab.at_put_self _ _ _

theorem rowSilent_rows_ne {k j : Station} (s : State) (h : j ≠ k) :
    rowOf (rowSilent k s) j = rowOf s j := by
  unfold rowOf
  rw [rowSilent_peers]
  exact Tab.at_put_ne _ _ h

theorem alertOf_rowSilent_self {k : Station} {s : State} (hw : working s = true) :
    alertOf (rowSilent k s) .peerSilent = raisedAlert (alertOf s .peerSilent) :=
  alertOf_raise_self (s := setRow k { rowOf s k with state := .silent, silence := none } s) hw _

theorem alertOf_rowSilent_ne {k : Station} {s : State} {y : AlertSource} (h : y ≠ .peerSilent) :
    alertOf (rowSilent k s) y = alertOf s y := alertOf_raise_ne _ h

/-- What SILENCE_TIMER_EXPIRY leaves at a RUNNING station. -/
theorem silenceTimerExpiry_spec {s : State} {k : Station} (hs : settled s = true)
    (hrun : s.startup = .running) (hpresent : (rowOf s k).state = .present)
    (hdue : due s.clock (rowOf s k).silence = true) :
    ∃ t, exec (.silenceTimerExpiry k) s = .next t ∧
      rowOf t k = { rowOf s k with state := .silent, silence := none } ∧
      (∀ j, j ≠ k → rowOf t j = rowOf s j) ∧ t.peers.posture = postureOf t ∧
      t.peers.joinTimer = s.peers.joinTimer ∧ t.peers.beaconTimer = s.peers.beaconTimer ∧
      (alertOf t .peerSilent).sticky = true ∧
      (alertOf t .peerSilent).count = (alertOf s .peerSilent).count + 1 ∧
      (∀ y, isCondition y = false → y ≠ .peerSilent → alertOf t y = alertOf s y) ∧
      entryFollowsPeers s t ∧
      (s.cfg.entry = false → s.entry.mode = .timed → t.entry = s.entry ∧ t.lamps = s.lamps) ∧
      changesOnly [.peers, .alerts, .entry, .lamps] s t := by
  have hexec : exec (.silenceTimerExpiry k) s = done (goSilent k s) := if_pos ⟨hpresent, hdue⟩
  have hchanged := peersChanged_goSilent (k := k) (changesOnly_refl _ s) rfl
  have hw : working s = true := by simp [working, hrun]
  have hpeers : (settle (goSilent k s)).peers =
      { (rowSilent k s).peers with posture := postureOf (rowSilent k s) } :=
    (settle_changesOnly _ .peers (by decide)).trans
      ((hchanged.peers hrun).trans (by rw [if_pos trivial]))
  have hrows : (settle (goSilent k s)).peers.rows = (rowSilent k s).peers.rows := by rw [hpeers]
  have halert {y : AlertSource} (hy : isCondition y = false) :
      alertOf (settle (goSilent k s)) y = alertOf (rowSilent k s) y :=
    (alertOf_settle_event _ hy).trans (hchanged.alert hy)
  have hself := (halert (y := .peerSilent) rfl).trans (alertOf_rowSilent_self hw)
  have hframe : changesOnly [.peers, .alerts, .entry] s (goSilent k s) := goSilent_touches k s
  refine ⟨_, hexec, ?_, fun j hj => ?_, ?_, ?_, ?_, congrArg AlertState.sticky hself,
    congrArg AlertState.count hself, fun y hy hne => (halert hy).trans (alertOf_rowSilent_ne hne),
    hchanged.follows (x := (goSilent k s).line) fun _ => hrun, fun hentry hmode =>
      hchanged.settle_idle hs hentry hmode (x := (goSilent k s).line),
    changesOnly_settle_signs hs hframe (sameBlocks_of_touches hframe)⟩
  · rw [rowOf_of_peers hrows, rowSilent_rows_self]
  · rw [rowOf_of_peers hrows, rowSilent_rows_ne s hj]
  · rw [postureOf_of_rows hrows, hpeers]
  · rw [hpeers, rowSilent_peers]
  · rw [hpeers, rowSilent_peers]

end Sys2Proof.Proofs
end

