-- ==== Sys2Proof/Proofs/OutboundQueue.lean ====
section
/-! PROOFS. The outbound queue when it is full, busy or empty (R61 to R65), and the timers of the peer
table: BEACON_TIMER_EXPIRY and SILENCE_TIMER_EXPIRY (R80, R84). -/

namespace Sys2Proof.Proofs

open Sys2Proof Sys2Proof.Machine

/-! ## Frames that replace others -/

theorem replaceWaiting_of_none {n : Notice} {q : List Waiting}
    (h : ∀ w ∈ q, sameNotice w.notice n = false) : replaceWaiting n q = none := by
  induction q with
  | nil => rfl
  | cons w q ih =>
    obtain ⟨hw, hq⟩ := List.forall_mem_cons.1 h
    simp only [replaceWaiting, hw, Bool.false_eq_true, if_false, ih hq, Option.map_none]

/-- A frame that could only replace its own like changes nothing. -/
theorem eq_of_replaceWaiting {n : Notice} {q q' : List Waiting}
    (hlike : ∀ w ∈ q, sameNotice w.notice n = true → w.notice = n)
    (h : replaceWaiting n q = some q') : q' = q := by
  induction q generalizing q' with
  | nil => cases h
  | cons w q ih =>
    obtain ⟨hw, hq⟩ := List.forall_mem_cons.1 hlike
    simp only [replaceWaiting] at h
    split at h
    next hs =>
      obtain rfl := Option.some.inj h
      rw [← hw hs]
    next =>
      obtain ⟨q'', hr, rfl⟩ := Option.map_eq_some_iff.1 h
      rw [ih hq hr]

theorem sameNotice_beacon (n : Notice) : sameNotice n .beacon = true ↔ n = .beacon := by
  cases n <;> simp [sameNotice, Notice.kind, Notice.tag?]

/-! ## Order by class -/

theorem class_le_beacon (n : Notice) : n.class_ ≤ 3 := by
  cases n <;> simp [Notice.class_, Notice.kind]

theorem joinQueue_of_ordered {w : Waiting} {q : List Waiting}
    (h : q.Pairwise fun a b => a.notice.class_ ≤ b.notice.class_) :
    joinQueue w q =
      q.filter (fun x => decide (x.notice.class_ ≤ w.notice.class_)) ++
        w :: q.filter (fun x => !decide (x.notice.class_ ≤ w.notice.class_)) := by
  induction q with
  | nil => rfl
  | cons x q ih =>
    obtain ⟨hx, hq⟩ := List.pairwise_cons.1 h
    unfold joinQueue
    split
    next hle =>
      rw [List.filter_cons_of_pos (by simpa using hle), List.filter_cons_of_neg (by simpa using hle),
        ih hq]
      rfl
    next hgt =>
      have hall (y : Waiting) (hy : y ∈ x :: q) : ¬y.notice.class_ ≤ w.notice.class_ := by
        obtain rfl | hy := List.mem_cons.1 hy
        · exact hgt
        · exact fun hle => hgt ((hx y hy).trans hle)
      rw [List.filter_eq_nil_iff.2 fun y hy => by simpa using hall y hy,
        List.filter_eq_self.2 fun y hy => by simpa using hall y hy]
      rfl

theorem foldl_max_le {c : Nat} (l : List Nat) : ∀ a, a ≤ c → (∀ x ∈ l, x ≤ c) → l.foldl max a ≤ c := by
  induction l with
  | nil => exact fun _ ha _ => ha
  | cons x l ih =>
    intro a ha hl
    obtain ⟨hx, hl⟩ := List.forall_mem_cons.1 hl
    exact ih _ (max_le ha hx) hl

/-- R63: of an ordered queue the last frame is of the worst class. -/
theorem worstClass_of_ordered {front : List Waiting} {last : Waiting}
    (h : (front ++ [last]).Pairwise fun a b => a.notice.class_ ≤ b.notice.class_) :
    worstClass (front ++ [last]) = last.notice.class_ := by
  have hle (x : Nat) (hx : x ∈ front.map fun w => w.notice.class_) : x ≤ last.notice.class_ := by
    obtain ⟨w, hw, rfl⟩ := List.mem_map.1 hx
    exact (List.pairwise_append.1 h).2.2 w hw last (List.mem_singleton_self last)
  unfold worstClass
  rw [List.map_append, List.foldl_append]
  exact max_eq_right (foldl_max_le _ 0 (Nat.zero_le _) hle)

/-! ## Queueing, case by case -/

section

variable {n : Notice} {s : State}

theorem queueFrame_of_replaced {q : List Waiting} (h : replaceWaiting n s.line.queue = some q) :
    queueFrame n s =
      lined { s.line with queue := q, counts.discards := s.line.counts.discards + 1 } s := by
  unfold queueFrame
  dsimp only
  rw [h]
  rfl

theorem queueFrame_of_room (h : replaceWaiting n s.line.queue = none) (hroom : s.line.queue.length < 8) :
    queueFrame n s =
      lined { s.line with queue := joinQueue { notice := n, queued := s.clock } s.line.queue } s := by
  unfold queueFrame
  dsimp only
  rw [h]
  exact if_pos hroom

/-- R63: the line once a frame is dropped from a full queue. -/
def dropLine (q : List Waiting) (s : State) : Line :=
  { s.line with queue := q, counts.drops := s.line.counts.drops + 1 }

theorem alertOf_dropped (hw : working s = true) (x : Line) :
    alertOf (raise .txDrop (lined x s)) .txDrop = raisedAlert (alertOf s .txDrop) :=
  alertOf_raise_self (s := lined x s) hw .txDrop

theorem queueFrame_of_full (h : replaceWaiting n s.line.queue = none)
    (hfull : 8 ≤ s.line.queue.length) :
    queueFrame n s =
      raise .txDrop (lined (dropLine
        (if n.class_ < worstClass s.line.queue then
          joinQueue { notice := n, queued := s.clock } s.line.queue.dropLast
        else s.line.queue) s) s) := by
  unfold queueFrame
  dsimp only
  rw [h]
  refine (if_neg (Nat.not_lt.2 hfull)).trans ?_
  split <;> rfl

/-- R65: where a frame is in flight none is taken. -/
theorem takeIntoFlight_of_busy (h : s.line.transmit ≠ .idle) : takeIntoFlight s = s := by
  unfold takeIntoFlight
  split
  · rfl
  · exact if_neg fun hr => h hr.2

theorem raise_line_transmit (x : AlertSource) (u : State) : (raise x u).line = u.line :=
  raise_touches x u .line (by decide)

theorem queueFrame_transmit (n : Notice) (s : State) :
    (queueFrame n s).line.transmit = s.line.transmit ∧ (queueFrame n s).line.flight = s.line.flight ∧
      (queueFrame n s).line.nextSequence = s.line.nextSequence ∧
      (queueFrame n s).line.slots = s.line.slots := by
  cases h : replaceWaiting n s.line.queue with
  | some q =>
    rw [queueFrame_of_replaced h]
    exact ⟨rfl, rfl, rfl, rfl⟩
  | none =>
    by_cases hroom : s.line.queue.length < 8
    · rw [queueFrame_of_room h hroom]
      exact ⟨rfl, rfl, rfl, rfl⟩
    · rw [queueFrame_of_full h (Nat.le_of_not_lt hroom), raise_line_transmit]
      exact ⟨rfl, rfl, rfl, rfl⟩

theorem enqueue_of_busy (h : s.line.transmit ≠ .idle) : enqueue n s = queueFrame n s :=
  takeIntoFlight_of_busy (by rw [(queueFrame_transmit n s).1]; exact h)

theorem alertOf_queueFrame_ne {y : AlertSource} (n : Notice) (s : State) (h : y ≠ .txDrop) :
    alertOf (queueFrame n s) y = alertOf s y := by
  have hkept : (takeIntoFlight (queueFrame n s)).alerts = (queueFrame n s).alerts :=
    takeIntoFlight_touches _ .alerts (by decide)
  exact (alertOf_congr hkept y).symm.trans (alertOf_enqueue_ne n s h)

end

/-- Settles the third part of O32: a frame queued into a full queue. -/
theorem queueFrame_into_full {s : State} {n : Notice} {front : List Waiting} {last : Waiting}
    (hw : working s = true) (hq : s.line.queue = front ++ [last]) (hlen : 7 ≤ front.length)
    (hordered : queueOrdered s.line.queue)
    (hnew : ∀ w ∈ s.line.queue, w.notice.kind = n.kind → w.notice.tag? ≠ n.tag?) :
    let t := queueFrame n s
    let ahead (w : Waiting) : Bool := decide (w.notice.class_ ≤ n.class_)
    t.line =
        { s.line with
          queue :=
            (if n.class_ < last.notice.class_ then
              front.filter ahead ++ { notice := n, queued := s.clock } ::
                front.filter (fun w => !ahead w)
            else s.line.queue)
          counts := { s.line.counts with drops := s.line.counts.drops + 1 } } ∧
      (alertOf t .txDrop).sticky = true ∧
      (alertOf t .txDrop).count = (alertOf s .txDrop).count + 1 ∧
      (∀ y, y ≠ .txDrop → alertOf t y = alertOf s y) ∧ changesOnly [.line, .alerts] s t := by
  intro t ahead
  have hnone : replaceWaiting n s.line.queue = none :=
    replaceWaiting_of_none fun w hm => by
      by_cases hk : w.notice.kind = n.kind
      · simp [sameNotice, hk, hnew w hm hk]
      · simp [sameNotice, hk]
  rw [hq] at hordered
  have hclasses : (front ++ [last]).Pairwise fun a b => a.notice.class_ ≤ b.notice.class_ :=
    List.Pairwise.imp (fun h => h.1) hordered
  have ht := queueFrame_of_full hnone (by rw [hq]; simp only [List.length_append, List.length_singleton]; omega)
  rw [hq, worstClass_of_ordered hclasses, List.dropLast_concat,
    joinQueue_of_ordered (List.pairwise_append.1 hclasses).1] at ht
  have hself : alertOf (queueFrame n s) .txDrop = raisedAlert (alertOf s .txDrop) := by
    rw [ht]
    exact alertOf_dropped hw _
  refine ⟨?_, congrArg AlertState.sticky hself, congrArg AlertState.count hself,
    fun y hy => alertOf_queueFrame_ne n s hy, queueFrame_touches n s⟩
  change (queueFrame n s).line = _
  rw [ht, raise_line_transmit, hq]
  rfl

/-! ## BEACON_TIMER_EXPIRY (R80) -/

/-- R80: the beacon timer restarts. -/
def beaconDue (s : State) : State := { s with peers.beaconTimer := some (later s.clock 500000) }

theorem beaconDue_touches (s : State) : changesOnly [.peers] s (beaconDue s) := touches_peers s _

theorem exec_beaconTimerExpiry {s : State} (h : due s.clock s.peers.beaconTimer = true) :
    exec .beaconTimerExpiry s = done (enqueue .beacon (beaconDue s)) := if_pos h

/-- A notice queued at a station that is settled, with nothing else done: the alert lines follow. -/
theorem settle_enqueued {bs : List Block} {s v u : State} (hs : settled s = true)
    (hv : changesOnly bs s v) (hp : v.peers.posture = s.peers.posture)
    (hu : changesOnly [.line, .alerts] v u) (ha : ∀ y, y ≠ .txDrop → alertOf u y = alertOf s y)
    (hb : ∀ b ∈ [Block.startup, .cfg, .health, .signs, .lamps, .entry, .probe],
      b ∉ bs ++ [.line, .alerts] := by decide) :
    settle u = driveAlertLines u ∧ (u.alerts = s.alerts → (settle u).alerts = s.alerts) := by
  have htouch := changesOnly_append hv hu
  have hpeers : u.peers = v.peers := hu .peers (by decide)
  have hposture : u.peers.posture = s.peers.posture := by rw [hpeers, hp]
  have hfollowed := sameFollowed_of_touches htouch fun b hm => hb b (by
    simp only [List.mem_cons, List.not_mem_nil] at hm ⊢; tauto)
  have hraw := rawState_of_touches htouch hposture fun b hm => hb b (by
    simp only [List.mem_cons, List.not_mem_nil] at hm ⊢; tauto)
  have hevents (y : AlertSource) (hy : isCondition y = true) : alertOf u y = alertOf s y :=
    ha y fun e => by rw [e] at hy; cases hy
  refine ⟨settle_events hs hfollowed hraw hevents, fun h => ?_⟩
  exact settle_alerts_same hs hfollowed.startup hfollowed.cfg h hraw

theorem beacon_queued_busy {s : State} (hs : settled s = true) (hw : working s = true)
    (hdue : due s.clock s.peers.beaconTimer = true) (hbusy : s.line.transmit ≠ .idle) :
    ∃ t, exec .beaconTimerExpiry s = .next t ∧
      t.peers = { s.peers with beaconTimer := some (later s.clock 500000) } ∧
      t.line.transmit = s.line.transmit ∧ t.line.flight = s.line.flight ∧
      t.line.nextSequence = s.line.nextSequence ∧ t.line.slots = s.line.slots ∧
      ((∀ w ∈ s.line.queue, w.notice ≠ .beacon) → s.line.queue.length < 8 →
        t.line.queue.length = s.line.queue.length + 1 ∧
          ({ notice := .beacon, queued := s.clock } : Waiting) ∈ t.line.queue ∧
          (∀ w ∈ s.line.queue, w ∈ t.line.queue) ∧ t.line.counts = s.line.counts ∧
          t.alerts = s.alerts) ∧
      ((∃ w ∈ s.line.queue, w.notice = .beacon) →
        t.line.queue = s.line.queue ∧
          t.line.counts = { s.line.counts with discards := s.line.counts.discards + 1 } ∧
          t.alerts = s.alerts) ∧
      ((∀ w ∈ s.line.queue, w.notice ≠ .beacon) → 8 ≤ s.line.queue.length →
        t.line.queue = s.line.queue ∧
          t.line.counts = { s.line.counts with drops := s.line.counts.drops + 1 } ∧
          (alertOf t .txDrop).sticky = true ∧
          (alertOf t .txDrop).count = (alertOf s .txDrop).count + 1 ∧
          (∀ y, y ≠ .txDrop → alertOf t y = alertOf s y)) ∧
      changesOnly [.peers, .line, .alerts] s t := by
  have hqueued := enqueue_of_busy (n := .beacon) (s := beaconDue s) hbusy
  have htouch := queueFrame_touches .beacon (beaconDue s)
  have hother (y : AlertSource) (hy : y ≠ .txDrop) :
      alertOf (queueFrame .beacon (beaconDue s)) y = alertOf s y := alertOf_queueFrame_ne _ _ hy
  obtain ⟨hsettle, halerts⟩ := settle_enqueued hs (beaconDue_touches s) rfl htouch hother
  obtain ⟨htransmit, hflight, hsequence, hslots⟩ := queueFrame_transmit .beacon (beaconDue s)
  have hline : (settle (queueFrame .beacon (beaconDue s))).line =
      (queueFrame .beacon (beaconDue s)).line := settle_line _
  have hnone (h : ∀ w ∈ s.line.queue, w.notice ≠ .beacon) :
      replaceWaiting .beacon (beaconDue s).line.queue = none :=
    replaceWaiting_of_none fun w hm => Bool.not_eq_true _ ▸ mt (sameNotice_beacon _).1 (h w hm)
  have hexec : exec .beaconTimerExpiry s = .next (settle (queueFrame .beacon (beaconDue s))) := by
    rw [exec_beaconTimerExpiry hdue, hqueued]
    rfl
  refine ⟨_, hexec, ?_, by rw [hline, htransmit]; rfl, by rw [hline, hflight]; rfl,
    by rw [hline, hsequence]; rfl, by rw [hline, hslots]; rfl, fun hno hroom => ?_, fun hyes => ?_,
    fun hno hfull => ?_, ?_⟩
  · exact (settle_changesOnly _ .peers (by decide)).trans (htouch .peers (by decide))
  · have heq := queueFrame_of_room (hnone hno) hroom
    have hperm := joinQueue_perm { notice := .beacon, queued := s.clock } s.line.queue
    have hqueue : (queueFrame .beacon (beaconDue s)).line.queue =
        joinQueue { notice := .beacon, queued := s.clock } s.line.queue := by rw [heq]; rfl
    rw [hline, hqueue]
    refine ⟨length_joinQueue _ _, hperm.mem_iff.2 List.mem_cons_self,
      fun w hm => hperm.mem_iff.2 (List.mem_cons_of_mem _ hm), by rw [heq]; rfl, halerts ?_⟩
    rw [heq]
    rfl
  · obtain ⟨w, hm, hb⟩ := hyes
    obtain ⟨q, hq⟩ : ∃ q, replaceWaiting .beacon (beaconDue s).line.queue = some q := by
      cases h : replaceWaiting .beacon (beaconDue s).line.queue with
      | some q => exact ⟨q, rfl⟩
      | none =>
        have := sameNotice_of_replaceWaiting_none h w hm
        rw [hb] at this
        cases this
    have hsame := eq_of_replaceWaiting (fun w _ hw => (sameNotice_beacon _).1 hw) hq
    have heq := queueFrame_of_replaced hq
    rw [hsame] at heq
    rw [hline]
    refine ⟨by rw [heq]; rfl, by rw [heq]; rfl, halerts ?_⟩
    rw [heq]
    rfl
  · have heq := queueFrame_of_full (hnone hno) hfull
    have hbest : ¬Notice.beacon.class_ < worstClass (beaconDue s).line.queue := by
      have hall (x : Nat) (hx : x ∈ s.line.queue.map fun w => w.notice.class_) : x ≤ 3 := by
        obtain ⟨w, -, rfl⟩ := List.mem_map.1 hx
        exact class_le_beacon w.notice
      exact Nat.not_lt.2 (foldl_max_le _ 0 (by decide) hall)
    rw [if_neg hbest] at heq
    have hself : alertOf (settle (queueFrame .beacon (beaconDue s))) .txDrop =
        raisedAlert (alertOf s .txDrop) := by
      rw [alertOf_settle_event _ rfl, heq]
      exact alertOf_dropped (s := beaconDue s) hw _
    have hqueueLine : (queueFrame .beacon (beaconDue s)).line =
        dropLine (beaconDue s).line.queue (beaconDue s) := by rw [heq, raise_line_transmit]; rfl
    rw [hline, hqueueLine]
    refine ⟨rfl, rfl, congrArg AlertState.sticky hself, congrArg AlertState.count hself, fun y hy => ?_⟩
    rw [hsettle]
    exact hother y hy
  · rw [hsettle]
    exact changesOnly_trans (changesOnly_mono (changesOnly_append (beaconDue_touches s) htouch) (by decide))
      (changesOnly_mono (driveAlertLines_touches _) (by decide))

/-! ## A notice queued on an idle line (R65) -/

/-- R65: the line with a notice in flight that was queued where none waited. -/
def noticeInFlight (n : Notice) (s : State) : Line :=
  { s.line with
    transmit := .contending, nextSequence := s.line.nextSequence + 1
    flight := some
      { notice := n, sequence := s.line.nextSequence, attempts := 0, collisions := 0
        receiptFrom := none, bytes := [] } }

theorem lineTakes_idle {s : State} (n : Notice) (hrun : s.startup = .running)
    (hidle : s.line.transmit = .idle) (hempty : s.line.queue = []) :
    lineTakes [n] s = noticeInFlight n s := by
  unfold lineTakes noticeInFlight
  dsimp only
  rw [if_pos ⟨hrun, hidle⟩]
  have hjoined : s.line.queue ++ [n].map (fun n => ({ notice := n, queued := s.clock } : Waiting)) =
      [{ notice := n, queued := s.clock }] := by
    rw [hempty]
    rfl
  rw [hjoined]
  refine (lineFreed_of_cons (w := { notice := n, queued := s.clock }) (ws := [])
    (s := lined { s.line with queue := [{ notice := n, queued := s.clock }] } s) rfl hrun).trans ?_
  simp only [hempty]
  rfl

theorem enqueue_idle {s : State} (n : Notice) (hrun : s.startup = .running)
    (hidle : s.line.transmit = .idle) (hempty : s.line.queue = []) :
    enqueue n s = lined (noticeInFlight n s) s := by
  rw [enqueue_of_nil n hempty, lineTakes_idle n hrun hidle hempty]

/-- Settles O32: by what the queue holds, and by `silenceTimerExpiry_spec`. -/
theorem peerTimersExpire : Obligations.PeerTimersExpire := by
  refine ⟨fun s => beacon_queued_busy, fun s hrun hidle hempty => ⟨fun n => ?_, fun hs hdue => ?_⟩,
    fun s n front last => queueFrame_into_full, fun s k => silenceTimerExpiry_spec⟩
  · rw [enqueue_idle n hrun hidle hempty]
    exact ⟨rfl, lined_touches _ s⟩
  · have henqueued := enqueue_idle (s := beaconDue s) .beacon hrun hidle hempty
    have htouch : changesOnly [.peers, .line] s
        (lined (noticeInFlight .beacon (beaconDue s)) (beaconDue s)) :=
      changesOnly_append (beaconDue_touches s) (lined_touches _ _)
    refine ⟨_, ?_, ?_, ?_, htouch⟩
    · rw [exec_beaconTimerExpiry hdue, henqueued]
      exact done_quietPeers hs htouch rfl
    · rfl
    · rfl

end Sys2Proof.Proofs
end

