-- ==== Sys2Proof/Proofs/PeerEvents.lean ====
section
/-! PROOFS. Attempts that end and are retried (R67 to R69, R85). -/

namespace Sys2Proof.Proofs

open Sys2Proof Sys2Proof.Machine

/-! ## Attempts (R67 to R69) -/

section

variable {s : State} {f : Flight}

theorem exec_attemptEnd (hf : s.line.flight = some f) (hsending : s.line.transmit = .sending) :
    exec .attemptEnd s =
      done (match f.receiptFrom with
        | none => lined { lineFreed s with idleSince := some s.clock } s
        | some _ =>
          lined { s.line with
                  transmit := .awaiting (later s.clock 480), idleSince := some s.clock
                  flight := some { f with collisions := 0 } } s) := by
  have hfreed := lineFreed_idleSince (some s.clock) s
  have hfinished : finishFlight (lineIdle 0 s) =
      lined { lineFreed s with idleSince := some s.clock } s := by
    rw [lineIdle_zero, finishFlight_eq, hfreed]
    rfl
  simp only [exec, execAttemptEnd, hf, hsending, if_true, hfinished]
  cases f.receiptFrom with
  | none => rfl
  | some k =>
    rw [lineIdle_zero]
    rfl

theorem attemptEnd_spec (hs : settled s = true) (hf : s.line.flight = some f)
    (hsending : s.line.transmit = .sending) :
    ∃ t, exec .attemptEnd s = .next t ∧
      (f.receiptFrom.isSome = true →
        t.line =
          { s.line with
            transmit := .awaiting (later s.clock 480), idleSince := some s.clock
            flight := some { f with collisions := 0 } }) ∧
      (f.receiptFrom = none → t.line = { lineFreed s with idleSince := some s.clock }) ∧
      changesOnly [.line] s t := by
  have hexec := exec_attemptEnd hf hsending
  cases hr : f.receiptFrom with
  | none =>
    rw [hr] at hexec
    exact ⟨_, hexec.trans (done_lined hs _), nofun, fun _ => rfl, lined_touches _ s⟩
  | some k =>
    rw [hr] at hexec
    exact ⟨_, hexec.trans (done_lined hs _), fun _ => rfl, nofun, lined_touches _ s⟩

theorem waitOver_of {w : Clock} (hw : s.line.transmit = .awaiting w)
    (htime : atOrAfter s.clock w = true) (hidle : s.line.idleSince.isSome = true) :
    waitOver s = true := by
  simp only [waitOver, hw, htime, hidle, Bool.and_self]

theorem receiptWait_retries (hs : settled s = true) (hf : s.line.flight = some f)
    (hover : waitOver s = true) (hfew : f.attempts < 3) :
    ∃ t, exec .receiptWaitExpiry s = .next t ∧
      t.line =
        { s.line with
          transmit := .contending, flight := some { f with attempts := f.attempts + 1 }
          counts := { s.line.counts with retries := s.line.counts.retries + 1 } } ∧
      changesOnly [.line] s t := by
  refine exec_lined hs ?_
  simp only [exec, execReceiptWaitExpiry, hf, hover, hfew, if_true]
  rfl

/-! ## A frame has FAILED (R69, R85) -/

/-- R69: the failure of a frame, raised and counted on the line. -/
def failureCounted (s : State) : State :=
  raise .deliveryFail
    (lined { s.line with counts := { s.line.counts with failures := s.line.counts.failures + 1 } } s)

/-- R85: the failure is counted against the peer too. -/
def failureBlamed (k : Station) (s : State) : State :=
  setRow k { rowOf s k with failures := min 255 ((rowOf s k).failures + 1) } (failureCounted s)

theorem failureCounted_touches (s : State) : changesOnly [.line, .alerts] s (failureCounted s) :=
  changesOnly_append (lined_touches _ s) (raise_touches _ _)

theorem failureBlamed_touches (k : Station) (s : State) :
    changesOnly [.peers, .alerts, .line] s (failureBlamed k s) :=
  changesOnly_mono (changesOnly_append (failureCounted_touches s) (touches_peers _ _)) (by decide)

theorem failureCounted_peers (s : State) : (failureCounted s).peers = s.peers :=
  failureCounted_touches s .peers (by decide)

theorem rowOf_failureCounted (k : Station) (s : State) : rowOf (failureCounted s) k = rowOf s k :=
  rowOf_of_peers (by rw [failureCounted_peers]) k

theorem failureBlamed_posture (k : Station) (s : State) :
    (failureBlamed k s).peers =
      { s.peers with
        rows := s.peers.rows.put k
          { rowOf s k with failures := min 255 ((rowOf s k).failures + 1) } } := by
  have h : (failureBlamed k s).peers =
      { (failureCounted s).peers with
        rows := (failureCounted s).peers.rows.put k
          { rowOf s k with failures := min 255 ((rowOf s k).failures + 1) } } := rfl
  rw [h, failureCounted_peers]

theorem rowOf_failureBlamed_self (k : Station) (s : State) :
    rowOf (failureBlamed k s) k =
      { rowOf s k with failures := min 255 ((rowOf s k).failures + 1) } := rowOf_setRow_self k _ _

theorem rowOf_failureBlamed_ne {k j : Station} (s : State) (h : j ≠ k) :
    rowOf (failureBlamed k s) j = rowOf s j :=
  (rowOf_setRow_ne _ (failureCounted s) h).trans (rowOf_failureCounted j s)

theorem alertOf_failureBlamed_self {k : Station} (hw : working s = true) :
    alertOf (failureBlamed k s) .deliveryFail = raisedAlert (alertOf s .deliveryFail) :=
  alertOf_raise_self (s := lined
    { s.line with counts := { s.line.counts with failures := s.line.counts.failures + 1 } } s) hw
    .deliveryFail

theorem alertOf_failureBlamed_ne {k : Station} {y : AlertSource} (h : y ≠ .deliveryFail) :
    alertOf (failureBlamed k s) y = alertOf s y :=
  alertOf_raise_ne (lined
    { s.line with counts := { s.line.counts with failures := s.line.counts.failures + 1 } } s) h

/-- What the failed frame leads to before the line is freed. -/
def failureHandled (k : Station) (s : State) : State :=
  if 3 ≤ min 255 ((rowOf s k).failures + 1) ∧ (rowOf s k).state = .present then
    goSilent k (failureBlamed k s)
  else failureBlamed k s

theorem failFlight_eq {k : Station} (hk : f.receiptFrom = some k) :
    failFlight f s =
      lined { lineFreed s with
              counts := { s.line.counts with failures := s.line.counts.failures + 1 } }
        (failureHandled k s) := by
  have hfailed : deliveryFailed k (failureCounted s) = failureHandled k s := by
    unfold deliveryFailed failureHandled
    dsimp only
    rw [rowOf_failureCounted]
    rfl
  have hline : (failureHandled k s).line =
      { s.line with counts := { s.line.counts with failures := s.line.counts.failures + 1 } } := by
    have hblamed : (failureBlamed k s).line =
        { s.line with counts := { s.line.counts with failures := s.line.counts.failures + 1 } } :=
      raise_line_transmit _ _
    unfold failureHandled
    split
    · exact (goSilent_touches k _ .line (by decide)).trans hblamed
    · exact hblamed
  have hstart : (failureHandled k s).startup = s.startup := by
    unfold failureHandled
    split
    · exact (goSilent_touches k _ .startup (by decide)).trans
        (failureBlamed_touches k s .startup (by decide))
    · exact failureBlamed_touches k s .startup (by decide)
  have hfreed := lineFreed_counts
    { s.line.counts with failures := s.line.counts.failures + 1 } s
  have hfail : failFlight f s = finishFlight (deliveryFailed k (failureCounted s)) := by
    unfold failFlight
    rw [hk]
    rfl
  rw [hfail, hfailed, finishFlight_eq, lineFreed_congr (s := lined
    { s.line with counts := { s.line.counts with failures := s.line.counts.failures + 1 } } s) hstart hline,
    hfreed]

theorem exec_receiptWaitExpiry_fails {k : Station} (hf : s.line.flight = some f)
    (hover : waitOver s = true) (hmany : 3 ≤ f.attempts) (hk : f.receiptFrom = some k) :
    exec .receiptWaitExpiry s =
      done (lined { lineFreed s with
              counts := { s.line.counts with failures := s.line.counts.failures + 1 } }
        (failureHandled k s)) := by
  simp only [exec, execReceiptWaitExpiry, hf, hover, Nat.not_lt.2 hmany, if_true, if_false,
    failFlight_eq hk]

/-- The line once a frame has FAILED (R67, R69). -/
def failedLine (s : State) : Line :=
  { lineFreed s with counts := { s.line.counts with failures := s.line.counts.failures + 1 } }

/-- R69, R85: a failure that is not the third leaves the row where it was. -/
theorem receiptWait_blames {k : Station} (hs : settled s = true) (hw : working s = true)
    (hexec : exec .receiptWaitExpiry s = done (lined (failedLine s) (failureHandled k s)))
    (hstay : ¬(3 ≤ min 255 ((rowOf s k).failures + 1) ∧ (rowOf s k).state = .present)) :
    ∃ t, exec .receiptWaitExpiry s = .next t ∧ t.line = failedLine s ∧
      t.peers = (failureBlamed k s).peers ∧
      alertOf t .deliveryFail = raisedAlert (alertOf s .deliveryFail) ∧
      (∀ y, y ≠ .deliveryFail → alertOf t y = alertOf s y) ∧
      changesOnly [.line, .peers, .alerts] s t := by
  rw [failureHandled, if_neg hstay] at hexec
  have htouch : changesOnly [.line, .peers, .alerts] s (lined (failedLine s) (failureBlamed k s)) :=
    changesOnly_mono (changesOnly_append (failureBlamed_touches k s) (lined_touches _ _)) (by decide)
  have hposture : (failureBlamed k s).peers.posture = s.peers.posture := by rw [failureBlamed_posture]
  have halert (y : AlertSource) (hy : isCondition y = true) :
      alertOf (lined (failedLine s) (failureBlamed k s)) y = alertOf s y :=
    alertOf_failureBlamed_ne (k := k) fun e => by rw [e] at hy; cases hy
  refine ⟨_, hexec.trans (done_events hs htouch hposture halert), rfl, rfl,
    (alertOf_driveAlertLines _ _).trans (alertOf_failureBlamed_self (k := k) hw),
    fun y hy => (alertOf_driveAlertLines _ _).trans (alertOf_failureBlamed_ne (k := k) hy),
    changesOnly_mono (changesOnly_append htouch (driveAlertLines_touches _)) (by decide)⟩

/-- A peer falls silent for its failures (R69): the posture is recomputed at a RUNNING station. -/
theorem peersChanged_failureSilent (k : Station) (s : State) :
    PeersChanged s (rowSilent k (failureBlamed k s)) (goSilent k (failureBlamed k s))
      (s.startup = .running) := by
  have hposture : (failureBlamed k s).peers.posture = s.peers.posture := by rw [failureBlamed_posture]
  have htouch := (peersChanged_goSilent (k := k) (failureBlamed_touches k s) hposture).touches
  refine ⟨htouch, by rw [rowSilent_peers]; exact hposture, fun _ => goSilent_eq k _, fun h => ?_⟩
  have hstart : (rowSilent k (failureBlamed k s)).startup = s.startup := htouch .startup (by decide)
  rw [goSilent_eq, recomputePosture, if_neg (by rw [hstart]; exact h)]

/-- R69, R87: the peers once the third failure has made a row SILENT. -/
theorem goSilent_failureBlamed_peers (k : Station) (s : State) :
    ∃ p, (s.startup = .running → p = postureOf (rowSilent k (failureBlamed k s))) ∧
      (s.startup ≠ .running → p = s.peers.posture) ∧
      (goSilent k (failureBlamed k s)).peers =
        { (rowSilent k (failureBlamed k s)).peers with posture := p } := by
  have hchanged := peersChanged_failureSilent k s
  by_cases hrun : s.startup = .running
  · exact ⟨_, fun _ => rfl, fun h => absurd hrun h, (hchanged.peers hrun).trans (by rw [if_pos hrun])⟩
  · refine ⟨_, fun h => absurd h hrun, fun _ => rfl, ?_⟩
    rw [hchanged.when_kept hrun, judgeMode_peers, ← hchanged.posture]

/-- R69, R85: the third failure in a row of a PRESENT peer. -/
theorem receiptWait_silences {k : Station} (hs : settled s = true)
    (hexec : exec .receiptWaitExpiry s = done (lined (failedLine s) (failureHandled k s)))
    (hthird : 3 ≤ min 255 ((rowOf s k).failures + 1) ∧ (rowOf s k).state = .present) :
    ∃ t, exec .receiptWaitExpiry s = .next t ∧ t.line = failedLine s ∧
      (∃ p, (s.startup = .running → p = postureOf (rowSilent k (failureBlamed k s))) ∧
        (s.startup ≠ .running → p = s.peers.posture) ∧
        t.peers = { (rowSilent k (failureBlamed k s)).peers with posture := p }) ∧
      (∀ y, isCondition y = false → alertOf t y = alertOf (rowSilent k (failureBlamed k s)) y) ∧
      entryFollowsPeers s t ∧ changesOnly [.line, .peers, .alerts, .entry, .lamps] s t := by
  rw [failureHandled, if_pos hthird] at hexec
  have hchanged := peersChanged_failureSilent k s
  have hpeers : (settle (lined (failedLine s) (goSilent k (failureBlamed k s)))).peers =
      (goSilent k (failureBlamed k s)).peers := settle_changesOnly _ .peers (by decide)
  obtain ⟨p, hrun, hkept, hp⟩ := goSilent_failureBlamed_peers k s
  exact ⟨_, hexec, settle_line _, ⟨p, hrun, hkept, hpeers.trans hp⟩,
    fun y hy => (alertOf_settle_event _ hy).trans (hchanged.alert hy),
    hchanged.follows fun h => h, hchanged.settle_touches hs⟩

/-- R69: what every failed frame leads to. -/
theorem receiptWait_fails {k : Station} (hs : settled s = true) (hw : working s = true)
    (hexec : exec .receiptWaitExpiry s = done (lined (failedLine s) (failureHandled k s))) :
    let n := min 255 ((rowOf s k).failures + 1)
    ∃ t, exec .receiptWaitExpiry s = .next t ∧ t.line = failedLine s ∧
      (∀ j, j ≠ k → rowOf t j = rowOf s j) ∧
      t.peers.joinTimer = s.peers.joinTimer ∧ t.peers.beaconTimer = s.peers.beaconTimer ∧
      (alertOf t .deliveryFail).sticky = true ∧
      (alertOf t .deliveryFail).count = (alertOf s .deliveryFail).count + 1 ∧
      (¬(3 ≤ n ∧ (rowOf s k).state = .present) →
        rowOf t k = { rowOf s k with failures := n } ∧ t.peers.posture = s.peers.posture ∧
          (∀ x, x ≠ .deliveryFail → alertOf t x = alertOf s x) ∧
          changesOnly [.line, .peers, .alerts] s t) ∧
      (3 ≤ n → (rowOf s k).state = .present →
        rowOf t k = { rowOf s k with failures := n, state := .silent, silence := none } ∧
          (alertOf t .peerSilent).sticky = true ∧
          (alertOf t .peerSilent).count = (alertOf s .peerSilent).count + 1 ∧
          (∀ x, isCondition x = false → x ≠ .deliveryFail → x ≠ .peerSilent →
            alertOf t x = alertOf s x) ∧
          (s.startup = .running → t.peers.posture = postureOf t) ∧
          (s.startup ≠ .running → t.peers.posture = s.peers.posture) ∧
          entryFollowsPeers s t ∧
          changesOnly [.line, .peers, .alerts, .entry, .lamps] s t) := by
  intro n
  by_cases hthird : 3 ≤ n ∧ (rowOf s k).state = .present
  · obtain ⟨t, hnext, hline, ⟨p, hrun, hkept, hpeers⟩, halert, hfollows, hframe⟩ :=
      receiptWait_silences hs hexec hthird
    have hrows : t.peers.rows = (rowSilent k (failureBlamed k s)).peers.rows := by rw [hpeers]
    have hwb : working (failureBlamed k s) = true :=
      (working_congr (failureBlamed_touches k s .startup (by decide))).trans hw
    have hfail : alertOf t .deliveryFail = raisedAlert (alertOf s .deliveryFail) :=
      (halert _ rfl).trans ((alertOf_rowSilent_ne (by decide)).trans (alertOf_failureBlamed_self hw))
    have hsilent : alertOf t .peerSilent = raisedAlert (alertOf s .peerSilent) :=
      (halert _ rfl).trans ((alertOf_rowSilent_self hwb).trans
        (congrArg raisedAlert (alertOf_failureBlamed_ne (by decide))))
    refine ⟨t, hnext, hline, fun j hj => ?_, ?_, ?_, congrArg AlertState.sticky hfail,
      congrArg AlertState.count hfail, fun h => absurd hthird h, fun _ _ => ⟨?_,
        congrArg AlertState.sticky hsilent, congrArg AlertState.count hsilent,
        fun y hy hd hp => ?_, fun h => ?_, fun h => ?_, hfollows, hframe⟩⟩
    · rw [rowOf_of_peers hrows, rowSilent_rows_ne _ hj, rowOf_failureBlamed_ne s hj]
    · rw [hpeers, rowSilent_peers, failureBlamed_posture]
    · rw [hpeers, rowSilent_peers, failureBlamed_posture]
    · rw [rowOf_of_peers hrows, rowSilent_rows_self, rowOf_failureBlamed_self]
    · exact (halert y hy).trans ((alertOf_rowSilent_ne hp).trans (alertOf_failureBlamed_ne hd))
    · rw [hpeers, hrun h, postureOf_of_rows hrows]
    · rw [hpeers, hkept h]
  · obtain ⟨t, hnext, hline, hpeers, hfail, hother, hframe⟩ := receiptWait_blames hs hw hexec hthird
    have hrows : t.peers.rows = (failureBlamed k s).peers.rows := by rw [hpeers]
    refine ⟨t, hnext, hline, fun j hj => ?_, ?_, ?_, congrArg AlertState.sticky hfail,
      congrArg AlertState.count hfail, fun _ => ⟨?_, ?_, hother, hframe⟩,
      fun h3 hp => absurd ⟨h3, hp⟩ hthird⟩
    · rw [rowOf_of_peers hrows, rowOf_failureBlamed_ne s hj]
    · rw [hpeers, failureBlamed_posture]
    · rw [hpeers, failureBlamed_posture]
    · rw [rowOf_of_peers hrows, rowOf_failureBlamed_self]
    · rw [hpeers, failureBlamed_posture]

end

/-- Settles O25: the end of an attempt and of a receipt wait, case by case. -/
theorem attemptsEndAndAreRetried : Obligations.AttemptsEndAndAreRetried := by
  unfold Obligations.AttemptsEndAndAreRetried
  intro s f hs hf
  refine ⟨attemptEnd_spec hs hf, fun w hw hwait htime hidle => ?_⟩
  have hover := waitOver_of hwait htime hidle
  exact ⟨receiptWait_retries hs hf hover, fun k hmany hk =>
    receiptWait_fails hs hw (exec_receiptWaitExpiry_fails hf hover hmany hk)⟩

end Sys2Proof.Proofs
end

