-- ==== Sys2Proof/Proofs/BeaconsHandled.lean ====
section
/-! PROOFS. Beacons handled (R82, R83, R87, R93). -/

namespace Sys2Proof.Proofs

open Sys2Proof Sys2Proof.Machine

section

variable {s : State} {k : Station} {at_ : Clock} {b : BeaconBody}

/-- R82, R83: the row of a beacon's sender. -/
def beaconPut (k : Station) (at_ : Clock) (b : BeaconBody) (s : State) : State :=
  setRow k (rowAfterBeacon s.clock at_ (rowOf s k) b) s

/-- R93: the row, and the clash it shows. -/
def beaconTaken (k : Station) (at_ : Clock) (b : BeaconBody) (s : State) : State :=
  if newClash s (rowOf s k) b then raise .chainageClash (beaconPut k at_ b s) else beaconPut k at_ b s

/-- R82: the beacon changes what the posture is computed from. -/
def beaconMatters (s : State) (k : Station) (b : BeaconBody) : Prop :=
  (rowOf s k).state ≠ .present ∨ statusFlags (rowOf s k) ≠ some (b.entryDegraded, b.signDegraded)

theorem beaconTaken_touches (k : Station) (at_ : Clock) (b : BeaconBody) (s : State) :
    changesOnly [.peers, .alerts] s (beaconTaken k at_ b s) := by
  have hput : changesOnly [.peers] s (beaconPut k at_ b s) := touches_peers s _
  unfold beaconTaken
  split
  · exact changesOnly_append hput (raise_touches _ _)
  · exact changesOnly_mono hput (by decide)

theorem beaconTaken_peers (k : Station) (at_ : Clock) (b : BeaconBody) (s : State) :
    (beaconTaken k at_ b s).peers = (beaconPut k at_ b s).peers := by
  unfold beaconTaken
  split
  · exact raise_touches _ _ .peers (by decide)
  · rfl

theorem alertOf_beaconTaken_ne {y : AlertSource} (h : y ≠ .chainageClash) :
    alertOf (beaconTaken k at_ b s) y = alertOf s y := by
  unfold beaconTaken
  split
  · exact alertOf_raise_ne (beaconPut k at_ b s) h
  · rfl

theorem alertOf_beaconTaken_clash (hw : working s = true) (h : newClash s (rowOf s k) b = true) :
    alertOf (beaconTaken k at_ b s) .chainageClash = raisedAlert (alertOf s .chainageClash) := by
  rw [beaconTaken, if_pos h]
  exact alertOf_raise_self (s := beaconPut k at_ b s) hw .chainageClash

theorem alertOf_beaconTaken_noClash (h : newClash s (rowOf s k) b = false) :
    alertOf (beaconTaken k at_ b s) .chainageClash = alertOf s .chainageClash := by
  rw [beaconTaken, h]
  rfl

theorem newClash_iff : newClash s (rowOf s k) b = true ↔
    b.chainage = s.cfg.chainage ∧ chainageOf s k ≠ some s.cfg.chainage := by
  unfold newClash chainageOf rowOf
  cases (s.peers.rows.at k).heard <;> simp

theorem marksRestart_eq (r : PeerRow) :
    marksRestart r b = r.heard.any (fun h => decide (h.body.restarts ≠ b.restarts)) := by
  unfold marksRestart
  cases r.heard <;> rfl

theorem peersChanged_handleBeacon (k : Station) (at_ : Clock) (b : BeaconBody) (s : State) :
    PeersChanged s (beaconTaken k at_ b s) (handleBeacon k at_ b s) (beaconMatters s k b) :=
  ⟨changesOnly_mono (beaconTaken_touches k at_ b s) (by decide),
    (congrArg Peers.posture (beaconTaken_peers k at_ b s)).trans rfl,
    fun h => congrArg judgeMode (if_pos h), fun h => congrArg judgeMode (if_neg h)⟩

theorem handleNotice_beacon {x : Stored} (h : x.frame.body = .beacon b) :
    handleNotice x s = handleBeacon x.frame.sender x.arrival b s := by simp only [handleNotice, h]

end

/-- R82: what the handling of a beacon changes, from the state in which the notice was in its slot. -/
theorem PeersChanged.after_slot {s u w : State} {rest : List Stored} {recomputed : Prop}
    (h : PeersChanged (slotFreed rest s) u w recomputed) : PeersChanged s u w recomputed :=
  ⟨changesOnly_mono (changesOnly_append (slotFreed_touches rest s) h.touches) (by decide),
    h.posture, h.when_recomputed, h.when_kept⟩

/-- Settles O30: the sender's row, then the posture and the entry controller that follow it. -/
theorem beaconUpdatesRow : Obligations.BeaconUpdatesRow := by
  classical
  unfold Obligations.BeaconUpdatesRow
  intro s x rest b k hs hrun hslots hbody hk clashes
  subst hk
  have hw : working s = true := by simp [working, hrun]
  let v := slotFreed rest s
  let u := beaconTaken x.frame.sender x.arrival b v
  let w := handleBeacon x.frame.sender x.arrival b v
  have hchanged : PeersChanged s u w (beaconMatters s x.frame.sender b) :=
    (peersChanged_handleBeacon x.frame.sender x.arrival b v).after_slot
  have hexec : exec .noticeHandlingComplete s = done w :=
    (exec_noticeHandlingComplete hslots).trans (congrArg done (handleNotice_beacon hbody))
  have hpeers : (settle w).peers =
      { u.peers with
        posture := if beaconMatters s x.frame.sender b then postureOf u else s.peers.posture } :=
    (settle_changesOnly _ .peers (by decide)).trans (hchanged.peers hrun)
  have hput : u.peers = (beaconPut x.frame.sender x.arrival b v).peers := beaconTaken_peers _ _ _ _
  have hrows : (settle w).peers.rows = (beaconPut x.frame.sender x.arrival b v).peers.rows := by
    rw [hpeers, ← hput]
  have hself : rowOf (settle w) x.frame.sender =
      rowAfterBeacon s.clock x.arrival (rowOf s x.frame.sender) b :=
    (rowOf_of_peers hrows _).trans (rowOf_setRow_self _ _ v)
  have halert {y : AlertSource} (hy : isCondition y = false) : alertOf (settle w) y = alertOf u y :=
    (alertOf_settle_event _ hy).trans (hchanged.alert hy)
  have hline : w.line = v.line :=
    handleBeacon_touches _ _ _ _ .line (by decide)
  refine ⟨settle w, hexec, (settle_line w).trans hline, ?_, ?_, ?_, ?_, ?_, ?_, fun j hj => ?_, ?_, ?_,
    ?_, fun hc => ?_, fun hc => ?_, fun y hy hne => ?_, hchanged.follows (x := w.line) fun _ => hrun,
    hchanged.settle_idle hs (x := w.line), hchanged.settle_touches hs (x := w.line)⟩
  · rw [hself]; rfl
  · rw [hself]; rfl
  · rw [hself]; rfl
  · rw [hself]; rfl
  · rw [hself, ← marksRestart_eq]; rfl
  · rw [hself, ← marksRestart_eq]; rfl
  · exact (rowOf_of_peers hrows j).trans (rowOf_setRow_ne _ v hj)
  · rw [hpeers, postureOf_of_rows (s := u) (t := settle w) (by rw [hpeers])]
    exact if_congr Iff.rfl rfl rfl
  · rw [hpeers, hput]; rfl
  · rw [hpeers, hput]; rfl
  · have h := (halert (y := .chainageClash) rfl).trans
      (alertOf_beaconTaken_clash (s := v) hw (newClash_iff.2 hc))
    exact ⟨congrArg AlertState.sticky h, congrArg AlertState.count h⟩
  · exact (halert rfl).trans (alertOf_beaconTaken_noClash (s := v)
      (Bool.eq_false_iff.2 fun h => hc (newClash_iff.1 h)))
  · exact (halert hy).trans (alertOf_beaconTaken_ne hne)

end Sys2Proof.Proofs
end

