-- ==== Sys2Proof/Proofs/JoinEnded.lean ====
section
/-! PROOFS. The end of the join (R79). -/

namespace Sys2Proof.Proofs

open Sys2Proof Sys2Proof.Machine

/-! ## A station that enters RUNNING -/

/-- R79: the station in RUNNING. -/
def nowRunning (s : State) : State := { s with startup := .running }

/-- What is settled in JOINING is settled in RUNNING. -/
theorem settled_nowRunning {s : State} (hs : settled s = true) (hjoin : s.startup = .joining) :
    settled (nowRunning s) = true := by
  have hw : working (nowRunning s) = working s := by simp only [working, nowRunning, hjoin]
  have hrequested (l : Lane) : signRequested (nowRunning s) l = signRequested s l := by
    simp only [signRequested, hw]
    rfl
  have hacts (l : Lane) : laneActs (nowRunning s) l = laneActs s l := by
    simp only [laneActs, entryActs, hw]
    rfl
  have hwanted (m : AlertConfig → Bool) : lineWanted (nowRunning s) m = lineWanted s m := by
    simp only [lineWanted, hjoin]
    rfl
  obtain ⟨hsigns, haspects, hlamps, halerts, hlines⟩ := settled_parts.1 hs
  refine settled_parts.2 ⟨?_, ?_, hlamps, ?_, ?_⟩
  · simp only [signsFollow, hrequested]
    exact hsigns
  · simp only [aspectsFollow, hacts]
    exact haspects
  · simp only [alertsTaken, hw]
    exact halerts
  · simp only [alertLinesFollow, hwanted]
    exact hlines

/-! ## The join ends (R79) -/

section

variable {s : State}

/-- R79: the station when the change of posture runs the arbiter (log entry 18). -/
def joinEnded (s : State) : State :=
  { s with
    startup := .running
    peers := { s.peers with joinTimer := none, beaconTimer := some (later s.clock 500000) }
    line := { s.line with queue := [{ notice := .beacon, queued := s.clock }] }
    entry :=
      { s.entry with
        recovery := if s.cfg.entry then some (later s.clock (s.cfg.transit * 1000000))
          else s.entry.recovery } }

theorem nowRunning_touches (s : State) : changesOnly [.startup] s (nowRunning s) := touches_startup s _

theorem joinEnded_after (s : State) :
    changesOnly [.peers, .line, .entry] (nowRunning s) (joinEnded s) :=
  changesOnly_append (changesOnly_append (touches_peers (nowRunning s) _) (touches_line _ _))
    (touches_entry _ _)

theorem endJoin_eq (hqueue : s.line.queue = []) :
    endJoin s = takeIntoFlight (recomputePosture (joinEnded s)) := by
  have hroom : queueFrame .beacon { s with peers.joinTimer := none } =
      lined { s.line with queue := [{ notice := .beacon, queued := s.clock }] }
        { s with peers.joinTimer := none } := by
    rw [queueFrame_of_room (by simp only [hqueue]; rfl) (by simp only [hqueue]; decide), hqueue]
    rfl
  unfold endJoin joinEnded
  dsimp only
  rw [hroom]
  split <;> rfl

theorem recomputePosture_line (u : State) : (recomputePosture u).line = u.line :=
  recomputePosture_touches u .line (by decide)

theorem endJoin_lined (hqueue : s.line.queue = []) (hidle : s.line.transmit = .idle) :
    endJoin s =
      lined { s.line with
              transmit := .contending, queue := [], nextSequence := s.line.nextSequence + 1
              flight :=
                some { notice := .beacon, sequence := s.line.nextSequence, attempts := 0
                       collisions := 0, receiptFrom := none, bytes := [] } }
        (recomputePosture (joinEnded s)) := by
  have hline : (recomputePosture (joinEnded s)).line =
      { s.line with queue := [{ notice := .beacon, queued := s.clock }] } := recomputePosture_line _
  have hstart : (recomputePosture (joinEnded s)).startup = .running :=
    recomputePosture_touches _ .startup (by decide)
  have hcons : (recomputePosture (joinEnded s)).line.queue =
      [{ notice := .beacon, queued := s.clock }] := by rw [hline]
  rw [endJoin_eq hqueue, takeIntoFlight_of_cons hcons,
    if_pos ⟨hstart, by rw [hline]; exact hidle⟩, lineFreed_of_cons hcons hstart, hline]

theorem postureOf_joinEnded (s : State) : postureOf (joinEnded s) = postureOf s :=
  postureOf_of_rows rfl

/-- R136, R138: the deck the change of posture leaves. -/
theorem recomputePosture_joinEnded_entry (s : State) :
    let u : State :=
      { s with
        startup := .running, peers := { s.peers with posture := postureOf s }
        entry :=
          { s.entry with
            recovery := if s.cfg.entry then some (later s.clock (s.cfg.transit * 1000000))
              else s.entry.recovery } }
    (recomputePosture (joinEnded s)).entry =
      (if s.peers.posture = postureOf s then u else runArbiter u).entry := by
  intro u
  rw [(sameDeck_recomputePosture (s := joinEnded s) rfl).entry, postureDeck, postureOf_joinEnded]
  by_cases h : s.peers.posture = postureOf s
  · rw [if_pos h, if_pos (show postureOf s = (joinEnded s).peers.posture from h.symm)]
    rfl
  · rw [if_neg h, if_neg (show ¬postureOf s = (joinEnded s).peers.posture from fun e => h e.symm)]
    have hdeck : SameDeck u (posturePut (joinEnded s)) :=
      ⟨rfl, rfl, rfl, postureOf_joinEnded s, rfl⟩
    exact hdeck.runArbiter.entry

theorem recomputePosture_joinEnded_frame (s : State) :
    changesOnly [.peers, .line, .entry, .alerts] (nowRunning s) (recomputePosture (joinEnded s)) := by
  exact changesOnly_mono (changesOnly_append (joinEnded_after s) (recomputePosture_touches _)) (by decide)

end

/-- Settles O31: the posture and the deck are those of `joinEnded`, the line takes the BEACON. -/
theorem joinEnds : Obligations.JoinEnds := by
  unfold Obligations.JoinEnds
  intro s hs hjoin hdue hqueue hidle u
  have hexec : exec .joinTimerExpiry s = done (endJoin s) := if_pos ⟨hjoin, hdue⟩
  rw [endJoin_lined hqueue hidle] at hexec
  let x : Line :=
    { s.line with
      transmit := .contending, queue := [], nextSequence := s.line.nextSequence + 1
      flight :=
        some { notice := .beacon, sequence := s.line.nextSequence, attempts := 0
               collisions := 0, receiptFrom := none, bytes := [] } }
  let w := lined x (recomputePosture (joinEnded s))
  have hrun := settled_nowRunning hs hjoin
  have hframe : changesOnly [.peers, .line, .entry, .alerts] (nowRunning s) w :=
    changesOnly_mono (changesOnly_append (recomputePosture_joinEnded_frame s) (lined_touches x _))
      (by decide)
  have hpeers : w.peers = { (joinEnded s).peers with posture := postureOf s } :=
    (recomputePosture_peers (s := joinEnded s) rfl).trans (by rw [postureOf_joinEnded])
  have hentry : w.entry =
      (if s.peers.posture = postureOf s then u else runArbiter u).entry :=
    recomputePosture_joinEnded_entry s
  have hlamps : w.lamps = s.lamps := hframe .lamps (by decide)
  have hsettled : changesOnly [.peers, .line, .entry, .alerts, .lamps] (nowRunning s) (settle w) :=
    changesOnly_settle_signs hrun hframe (sameBlocks_of_touches hframe)
  refine ⟨settle w, hexec, settle_startup w |>.trans (hframe .startup (by decide)),
    (settle_changesOnly w .peers (by decide)).trans hpeers, settle_line w, ?_, fun hheld => ?_,
    bareLamps_settle_same hlamps, fun y hy => ?_,
    changesOnly_mono (changesOnly_append (nowRunning_touches s) hsettled) (by decide)⟩
  · rw [bareEntry_settle, hentry]
  · have hu : w.entry = u.entry := by
      rw [hentry]
      split
      · rfl
      · rw [runArbiter_of_none (s := u) hheld]
    have hquiet := ((sameBlocks_of_touches hframe).followed fun k =>
      stopLine_congr (s := nowRunning s) (t := w) ((congrArg EntryController.lanes hu).trans rfl) k).settle_touches
        hrun
    exact ⟨(hquiet .entry (by decide)).trans hu, (hquiet .lamps (by decide)).trans hlamps⟩
  · exact (alertOf_settle_event w hy).trans (alertOf_recomputePosture_event (joinEnded s) hy)

end Sys2Proof.Proofs
end

