-- ==== Sys2Proof/Proofs/Announcements.lean ====
section
/-! PROOFS. Notices that reach the approach list: what each does, and the SIGHTINGs it makes stale
(R64, R75, R92 to R97). -/

namespace Sys2Proof.Proofs

open Sys2Proof Sys2Proof.Machine

/-! ## What an announcement does (R92 to R96) -/

section

variable {s : State} {a : Announcement}

theorem takeAnnouncement_of_absent (h : isPresent s a.sender = false) :
    takeAnnouncement a s = countApproach (fun c => { c with notPresent := c.notPresent + 1 }) s := by
  rw [takeAnnouncement, h]
  rfl

theorem takeAnnouncement_of_clash (h : isPresent s a.sender = true)
    (hc : chainageOf s a.sender = some s.cfg.chainage) :
    takeAnnouncement a s =
      raise .chainageClash (countApproach (fun c => { c with clash := c.clash + 1 }) s) := by
  rw [takeAnnouncement, h]
  exact if_pos hc

theorem isDownstream_of {k : Station} {c : Nat} (h : chainageOf s k = some c) :
    isDownstream s k = decide (s.cfg.chainage < c) := by rw [isDownstream, h]

/-- R94: from downstream. -/
theorem takeAnnouncement_passed {c : Nat} {e : ApproachEntry} (h : isPresent s a.sender = true)
    (hc : chainageOf s a.sender = some c) (hlt : s.cfg.chainage < c) (hfind : findEntry s a.tag = some e) :
    takeAnnouncement a s =
      countApproach (fun c => { c with passedUnseen := c.passedUnseen + 1 })
        (setEntries (withoutTag a.tag s.approach.entries) s) := by
  have hne : chainageOf s a.sender ≠ some s.cfg.chainage := by
    rw [hc]
    exact fun e => absurd (Option.some.inj e) (Nat.ne_of_gt hlt)
  rw [takeAnnouncement, h, if_neg (by decide), if_neg hne, isDownstream_of hc,
    if_pos (decide_eq_true hlt), hfind]

theorem takeAnnouncement_unlisted {c : Nat} (h : isPresent s a.sender = true)
    (hc : chainageOf s a.sender = some c) (hlt : s.cfg.chainage < c) (hfind : findEntry s a.tag = none) :
    takeAnnouncement a s = s := by
  have hne : chainageOf s a.sender ≠ some s.cfg.chainage := by
    rw [hc]
    exact fun e => absurd (Option.some.inj e) (Nat.ne_of_gt hlt)
  rw [takeAnnouncement, h, if_neg (by decide), if_neg hne, isDownstream_of hc,
    if_pos (decide_eq_true hlt), hfind]

/-- R95, R96: from upstream. -/
theorem takeAnnouncement_held {c : Nat} (h : isPresent s a.sender = true)
    (hc : chainageOf s a.sender = some c) (hlt : c < s.cfg.chainage)
    (hheld : heldAtStopLine s a.tag = true) :
    takeAnnouncement a s = countApproach (fun c => { c with held := c.held + 1 }) s := by
  have hne : chainageOf s a.sender ≠ some s.cfg.chainage := by
    rw [hc]
    exact fun e => absurd (Option.some.inj e) (Nat.ne_of_lt hlt)
  rw [takeAnnouncement, h, if_neg (by decide), if_neg hne, isDownstream_of hc,
    if_neg (by simpa using Nat.le_of_lt hlt), if_pos hheld]

theorem takeAnnouncement_update {c : Nat} {e : ApproachEntry} (h : isPresent s a.sender = true)
    (hc : chainageOf s a.sender = some c) (hlt : c < s.cfg.chainage)
    (hheld : heldAtStopLine s a.tag = false) (hfind : findEntry s a.tag = some e) :
    takeAnnouncement a s = updateEntry e a s := by
  have hne : chainageOf s a.sender ≠ some s.cfg.chainage := by
    rw [hc]
    exact fun e => absurd (Option.some.inj e) (Nat.ne_of_lt hlt)
  rw [takeAnnouncement, h, if_neg (by decide), if_neg hne, isDownstream_of hc,
    if_neg (by simpa using Nat.le_of_lt hlt), hheld, if_neg Bool.false_ne_true, hfind]

theorem takeAnnouncement_create {c : Nat} (h : isPresent s a.sender = true)
    (hc : chainageOf s a.sender = some c) (hlt : c < s.cfg.chainage)
    (hheld : heldAtStopLine s a.tag = false) (hfind : findEntry s a.tag = none) :
    takeAnnouncement a s = createEntry a s := by
  have hne : chainageOf s a.sender ≠ some s.cfg.chainage := by
    rw [hc]
    exact fun e => absurd (Option.some.inj e) (Nat.ne_of_lt hlt)
  rw [takeAnnouncement, h, if_neg (by decide), if_neg hne, isDownstream_of hc,
    if_neg (by simpa using Nat.le_of_lt hlt), hheld, if_neg Bool.false_ne_true, hfind]

theorem announcedWindow_of {k : Station} {c : Nat} (v : Option Nat) (hk : a.sender = k)
    (hc : chainageOf s k = some c) :
    announcedWindow s a v = windowOf s.cfg.chainage c a.seen v := by
  rw [announcedWindow, hk, hc]
  rfl

/-- R50, R95: a tag held at the stop line. -/
theorem heldAtStopLine_iff {g : Tag} : heldAtStopLine s g = true ↔
    (∃ l, ∃ r ∈ (stopLine s l).queue, r.tag = some g) ∨ ∃ e ∈ s.entry.span, e.tag = g := by
  simp only [heldAtStopLine, Bool.or_eq_true, List.any_eq_true, decide_eq_true_eq]
  exact or_congr_left ⟨fun ⟨l, _, h⟩ => ⟨l, h⟩, fun ⟨l, h⟩ => ⟨l, mem_allLanes l, h⟩⟩

end

/-! ## The SIGHTINGs made stale (R64) -/

/-- R64, R75: a stored notice makes a waiting frame stale. -/
def madeStale (s : State) (x : Stored) (g : Tag) (w : Waiting) : Bool :=
  decide (x.frame.body.kind = 0x22) && isDownstream s x.frame.sender && isSightingOf g w

/-- R64: the line once the notice has left its slot and the frames it made stale are discarded. -/
def noticeLine (stale : Waiting → Bool) (rest : List Stored) (s : State) : Line :=
  { s.line with
    slots := rest, queue := s.line.queue.filter (fun w => !stale w)
    counts :=
      { s.line.counts with
        discards := s.line.counts.discards + BitVec.ofNat 16 (s.line.queue.filter stale).length } }

theorem noticeLine_of_none {stale : Waiting → Bool} (rest : List Stored) (s : State)
    (h : ∀ w, stale w = false) : noticeLine stale rest s = { s.line with slots := rest } := by
  have hkept : s.line.queue.filter (fun w => !stale w) = s.line.queue :=
    List.filter_eq_self.2 fun w _ => by rw [h]; rfl
  have hgone : s.line.queue.filter stale = [] :=
    List.filter_eq_nil_iff.2 fun w _ => by rw [h]; exact Bool.false_ne_true
  rw [noticeLine, hkept, hgone]
  simp

theorem noticeLine_congr {stale old : Waiting → Bool} (rest : List Stored) (s : State)
    (h : ∀ w, stale w = old w) : noticeLine stale rest s = noticeLine old rest s := by
  rw [funext h]

/-- A stored notice of a tag that is an announcement to the list (R75, R97, R104). -/
inductive Announces (s : State) (x : Stored) : Announcement → Prop
  | vehicle {b age} : x.frame.body = .vehicle b age →
      Announces s x (announceWeighing x.frame.sender x.arrival b age)
  | sighting {b age} : x.frame.body = .sighting b age →
      Announces s x (announceWeighing x.frame.sender x.arrival b age)
  | entered {g l w gross age} : s.cfg.exit = true → x.frame.body = .entered g l w gross age →
      Announces s x (announceEntered s x.frame.sender x.arrival g l gross age)

theorem discardSightings_lined {s w : State} {x : Stored} {rest : List Stored} {g : Tag}
    (hk : x.frame.body.kind = 0x22) (hline : w.line = { s.line with slots := rest }) :
    (if isDownstream s x.frame.sender then discardSightings g w else w) =
      lined (noticeLine (madeStale s x g) rest s) w := by
  cases hd : isDownstream s x.frame.sender with
  | true =>
    have hstale : madeStale s x g = isSightingOf g := by
      funext y
      simp only [madeStale, hk, hd, decide_true, Bool.true_and]
    rw [if_pos rfl, hstale, noticeLine, discardSightings, countLine, hline]
    rfl
  | false =>
    have hstale : ∀ y, madeStale s x g y = false := fun y => by
      simp only [madeStale, hd, Bool.and_false, Bool.false_and]
    rw [if_neg Bool.false_ne_true, noticeLine_of_none rest s hstale, ← hline, lined_self]

/-- R75: the handling of a notice that reaches the list. -/
theorem exec_announced {s : State} {x : Stored} {rest : List Stored} {a : Announcement}
    (hslots : s.line.slots = x :: rest) (h : Announces s x a) :
    exec .noticeHandlingComplete s =
      done (lined (noticeLine (madeStale s x a.tag) rest s)
        (takeAnnouncement a (slotFreed rest s))) := by
  have hline : (takeAnnouncement a (slotFreed rest s)).line = { s.line with slots := rest } :=
    takeAnnouncement_touches a (slotFreed rest s) .line (by decide)
  have hplain (hk : x.frame.body.kind ≠ 0x22) :
      lined (noticeLine (madeStale s x a.tag) rest s) (takeAnnouncement a (slotFreed rest s)) =
        takeAnnouncement a (slotFreed rest s) := by
    rw [noticeLine_of_none rest s fun w => by simp only [madeStale, hk, decide_false, Bool.false_and],
      ← hline, lined_self]
  rw [exec_noticeHandlingComplete hslots]
  cases h with
  | vehicle hb =>
    rw [hplain (by rw [hb]; exact (by decide : (0x21 : Nat) ≠ 0x22)), handleNotice, hb]
  | sighting hb =>
    rw [handleNotice, hb]
    exact congrArg done (discardSightings_lined (by rw [hb]; rfl) hline)
  | entered he hb =>
    rw [hplain (by rw [hb]; exact (by decide : (0x11 : Nat) ≠ 0x22)), handleNotice, hb]
    exact congrArg done (if_pos he)

end Sys2Proof.Proofs
end

