-- ==== Sys2Proof/Proofs/EntriesCreated.lean ====
section
/-! PROOFS. Notices that create an entry, or are counted and create none (R91 to R98). -/

namespace Sys2Proof.Proofs

open Sys2Proof Sys2Proof.Machine

/-! ## An entry is created (R97, R98) -/

section

variable {s : State} {x : Stored} {rest : List Stored} {a : Announcement}

/-- R98: the approach list once an entry has joined it. -/
def joinedList (s : State) (e : ApproachEntry) : Approach :=
  { entries := entriesWith s e
    counts :=
      if s.approach.entries.length < 48 then
        { s.approach.counts with created := s.approach.counts.created + 1 }
      else
        { s.approach.counts with
          created := s.approach.counts.created + 1, evicted := s.approach.counts.evicted + 1 } }

/-- R97, R98: the station at a notice that creates an entry, before an eviction is raised. -/
def entryJoined (x : Stored) (rest : List Stored) (a : Announcement) (s : State) : State :=
  lined (noticeLine (madeStale s x a.tag) rest s) { s with approach := joinedList s (newEntry s a) }

theorem entryJoined_touches : changesOnly [.line, .approach] s (entryJoined x rest a s) :=
  changesOnly_mono (changesOnly_append (touches_approach s (joinedList s (newEntry s a)))
    (lined_touches (noticeLine (madeStale s x a.tag) rest s) _)) (by decide)

/-- What a source keeps does not depend on the line. -/
theorem raise_lined (y : AlertSource) (l : Line) (s : State) :
    raise y (lined l s) = lined l (raise y s) := by
  cases h : working s with
  | true => rw [raise_of_working y h, raise_of_working (s := lined l s) y h]; rfl
  | false =>
    have hidle {u : State} (hu : working u = false) : raise y u = u := by
      rw [raise, hu, if_neg Bool.false_ne_true]
    rw [hidle h, hidle (u := lined l s) h]

theorem announced_creates (hs : settled s = true) (hw : working s = true)
    (hslots : s.line.slots = x :: rest) (h : Announces s x a)
    (htaken : takeAnnouncement a (slotFreed rest s) = createEntry a (slotFreed rest s))
    (hopen : atOrAfter s.clock (announcedWindow s a a.speed).2 = false) :
    ∃ t, exec .noticeHandlingComplete s = .next t ∧
      t.line = noticeLine (madeStale s x a.tag) rest s ∧
      t.approach = joinedList s (newEntry s a) ∧
      (s.approach.entries.length < 48 → t.alerts = s.alerts) ∧
      (48 ≤ s.approach.entries.length →
        alertOf t .approachEvict = raisedAlert (alertOf s .approachEvict)) ∧
      (∀ y, y ≠ .approachEvict → alertOf t y = alertOf s y) ∧
      changesOnly [.line, .approach, .alerts] s t := by
  have hexec := exec_announced hslots h
  rw [htaken] at hexec
  by_cases hlen : s.approach.entries.length < 48
  · have hcreated : lined (noticeLine (madeStale s x a.tag) rest s) (createEntry a (slotFreed rest s)) =
        entryJoined x rest a s := by
      rw [createEntry_of_room a (s := slotFreed rest s) hopen hlen, entryJoined, joinedList, if_pos hlen]
      rfl
    rw [hcreated, done_quiet hs entryJoined_touches] at hexec
    exact ⟨_, hexec, rfl, rfl, fun _ => rfl, fun hle => absurd hlen (Nat.not_lt.2 hle), fun _ _ => rfl,
      changesOnly_mono entryJoined_touches (by decide)⟩
  · have hcreated : lined (noticeLine (madeStale s x a.tag) rest s) (createEntry a (slotFreed rest s)) =
        raise .approachEvict (entryJoined x rest a s) := by
      rw [createEntry_of_full a (s := slotFreed rest s) hopen hlen, ← raise_lined, entryJoined, joinedList,
        if_neg hlen]
      rfl
    rw [hcreated, done_raised hs entryJoined_touches rfl rfl rfl] at hexec
    have hraised := raise_touches .approachEvict (entryJoined x rest a s)
    have hdriven := changesOnly_append hraised
      (driveAlertLines_touches (raise .approachEvict (entryJoined x rest a s)))
    exact ⟨_, hexec, hdriven .line (by decide), hdriven .approach (by decide), fun hlt => absurd hlt hlen,
      fun _ => (alertOf_driveAlertLines _ _).trans
        (alertOf_raise_self (s := entryJoined x rest a s) hw .approachEvict),
      fun y hy => (alertOf_driveAlertLines _ _).trans (alertOf_raise_ne (entryJoined x rest a s) hy),
      changesOnly_mono (changesOnly_append entryJoined_touches hdriven) (by decide)⟩

theorem joinedList_entries_of_room {e : ApproachEntry} (h : s.approach.entries.length < 48) :
    joinedList s e =
      { entries := s.approach.entries ++ [e]
        counts := { s.approach.counts with created := s.approach.counts.created + 1 } } := by
  rw [joinedList, entriesWith, if_pos h, if_pos h]

theorem joinedList_entries_of_full {e : ApproachEntry} (h : 48 ≤ s.approach.entries.length) :
    joinedList s e =
      { entries := s.approach.entries.tail ++ [e]
        counts :=
          { s.approach.counts with
            created := s.approach.counts.created + 1
            evicted := s.approach.counts.evicted + 1 } } := by
  rw [joinedList, entriesWith, if_neg (Nat.not_lt.2 h), if_neg (Nat.not_lt.2 h)]

/-! ## A notice that creates and updates nothing (R92 to R96) -/

/-- The announcement of a notice and what the statements say of it. -/
theorem announces_of {g : Tag} {age : Nat} {v : Option Nat} (hs : s.cfg.exit = true ∨ x.frame.body.kind ≠ 0x11)
    (h : (∃ b : WeighingBody, b.tag = g ∧ v = (if b.speed = 0 then none else some b.speed) ∧
        (x.frame.body = .vehicle b age ∨ x.frame.body = .sighting b age)) ∨
      ∃ lane weight gross, v = none ∧ x.frame.body = .entered g lane weight gross age) :
    ∃ a, Announces s x a ∧ a.tag = g ∧ a.sender = x.frame.sender ∧
      a.seen = earlier x.arrival (age * 10000) ∧ a.speed = v := by
  obtain ⟨b, rfl, rfl, hb | hb⟩ | ⟨lane, weight, gross, rfl, hb⟩ := h
  · exact ⟨_, .vehicle hb, rfl, rfl, rfl, rfl⟩
  · exact ⟨_, .sighting hb, rfl, rfl, rfl, rfl⟩
  · refine ⟨_, .entered (hs.resolve_right fun hk => hk (by rw [hb]; rfl)) hb, rfl, rfl, rfl, rfl⟩

/-- R64: the frames a notice makes stale, as the statements have them. -/
theorem madeStale_eq (s : State) (x : Stored) (g : Tag) (w : Waiting) :
    madeStale s x g w =
      (decide (x.frame.body.kind = 0x22 ∧ w.notice.kind = 0x22 ∧ w.notice.tag? = some g) &&
        isDownstream s x.frame.sender) := by
  have hsighting : isSightingOf g w = decide (w.notice.kind = 0x22 ∧ w.notice.tag? = some g) := by
    unfold isSightingOf Notice.kind Notice.tag?
    cases w.notice <;> simp
  rw [madeStale, hsighting, Bool.decide_and (x.frame.body.kind = 0x22), Bool.and_right_comm]

/-- What a notice leaves that is counted and creates and updates nothing. -/
def noticeCounted (x : Stored) (rest : List Stored) (g : Tag) (c : ApproachCounts) (s : State) : State :=
  lined (noticeLine (madeStale s x g) rest s) { s with approach := { s.approach with counts := c } }

theorem noticeCounted_touches {g : Tag} {c : ApproachCounts} :
    changesOnly [.line, .approach] s (noticeCounted x rest g c s) :=
  changesOnly_mono (changesOnly_append (touches_approach s { s.approach with counts := c })
    (lined_touches (noticeLine (madeStale s x g) rest s) _)) (by decide)

theorem announced_counts {c : ApproachCounts} (hs : settled s = true) (hslots : s.line.slots = x :: rest)
    (h : Announces s x a)
    (htaken : takeAnnouncement a (slotFreed rest s) = countApproach (fun _ => c) (slotFreed rest s)) :
    exec .noticeHandlingComplete s = .next (noticeCounted x rest a.tag c s) := by
  have hexec := exec_announced hslots h
  rw [htaken] at hexec
  exact hexec.trans (done_quiet hs (noticeCounted_touches (x := x) (rest := rest) (g := a.tag) (c := c)))

/-- R93: a notice from a sender at the own chainage. -/
theorem announced_clash (hs : settled s = true) (hw : working s = true)
    (hslots : s.line.slots = x :: rest) (h : Announces s x a) (hp : isPresent s a.sender = true)
    (hc : chainageOf s a.sender = some s.cfg.chainage) :
    ∃ t, exec .noticeHandlingComplete s = .next t ∧
      t.approach =
        { s.approach with counts := { s.approach.counts with clash := s.approach.counts.clash + 1 } } ∧
      t.line = noticeLine (madeStale s x a.tag) rest s ∧
      (alertOf t .chainageClash).sticky = true ∧
      (alertOf t .chainageClash).count = (alertOf s .chainageClash).count + 1 ∧
      (∀ y, y ≠ .chainageClash → alertOf t y = alertOf s y) ∧
      changesOnly [.line, .approach, .alerts] s t := by
  let c := { s.approach.counts with clash := s.approach.counts.clash + 1 }
  let u := noticeCounted x rest a.tag c s
  have hexec : exec .noticeHandlingComplete s = done (raise .chainageClash u) := by
    rw [exec_announced hslots h, takeAnnouncement_of_clash (s := slotFreed rest s) hp hc, ← raise_lined]
    rfl
  rw [done_raised hs noticeCounted_touches rfl rfl rfl] at hexec
  have hdriven := changesOnly_append (raise_touches .chainageClash u)
    (driveAlertLines_touches (raise .chainageClash u))
  have hraised : alertOf (driveAlertLines (raise .chainageClash u)) .chainageClash =
      raisedAlert (alertOf s .chainageClash) :=
    (alertOf_driveAlertLines _ _).trans (alertOf_raise_self (s := u) hw .chainageClash)
  exact ⟨_, hexec, hdriven .approach (by decide), hdriven .line (by decide),
    congrArg AlertState.sticky hraised, congrArg AlertState.count hraised,
    fun y hy => (alertOf_driveAlertLines _ _).trans (alertOf_raise_ne u hy),
    changesOnly_mono (changesOnly_append noticeCounted_touches hdriven) (by decide)⟩

/-- R75: an ENTERED at a station without the EXIT role. -/
theorem entered_ignored {g : Tag} {l : Lane} {weight gross age : Nat} (hs : settled s = true)
    (hslots : s.line.slots = x :: rest) (hbody : x.frame.body = .entered g l weight gross age)
    (hexit : s.cfg.exit = false) :
    exec .noticeHandlingComplete s = .next (slotFreed rest s) := by
  rw [exec_noticeHandlingComplete hslots, handleNotice, hbody]
  exact (congrArg done (if_neg (by rw [show (slotFreed rest s).cfg.exit = false from hexit]; decide))).trans
    (done_lined hs _)

end

/-! ## Windows and the reference peer (R91, R103) -/

theorem windowOf_opens (own c : Nat) (seen : Clock) (v : Option Nat) :
    (windowOf own c seen v).1 =
      later seen (min 1000000000 ((own - c) * 100 * 1000000 /
        (match v with
          | some n => min 4000 (3 * n / 2)
          | none => 4000))) := by
  cases v <;> rfl

theorem windowOf_closes (own c : Nat) (seen : Clock) (v : Option Nat) :
    (windowOf own c seen v).2 =
      later seen (min 1000000000 ((own - c) * 100 * 1000000 /
        (match v with
          | some n => max 100 (n / 4)
          | none => 100)) + 5000000) := by
  cases v <;> rfl

theorem setsReference_weighing {s : State} {k : Station} {at_ : Clock} {b : WeighingBody} {age : Nat} :
    setsReference s (announceWeighing k at_ b age) = true ↔
      s.cfg.refPeer = some k ∧ b.ownConfidence = .full := by
  simp only [setsReference, announceWeighing, Bool.not_false, Bool.true_and, Bool.and_eq_true]
  exact ⟨fun ⟨hfull, hpeer⟩ => ⟨of_decide_eq_true hpeer, of_decide_eq_true hfull⟩,
    fun ⟨hpeer, hfull⟩ => ⟨decide_eq_true hfull, decide_eq_true hpeer⟩⟩

/-- R50: a tag held nowhere. -/
theorem tagHeld_eq_false {s : State} {g : Tag} (h : tagHeld s g = false) :
    findEntry s g = none ∧ heldAtStopLine s g = false := by
  obtain ⟨hlist, hline⟩ := Bool.or_eq_false_iff.1 h
  refine ⟨List.find?_eq_none.2 fun e he => ?_, hline⟩
  exact List.any_eq_false.1 hlist e he

/-- R97, R98: a VEHICLE or SIGHTING of a tag held nowhere, with the window still open. -/
theorem weighing_creates {s : State} {x : Stored} {rest : List Stored} {b : WeighingBody} {age c : Nat}
    (hs : settled s = true) (hw : working s = true) (hslots : s.line.slots = x :: rest)
    (hbody : x.frame.body = .vehicle b age ∨ x.frame.body = .sighting b age)
    (hpresent : isPresent s x.frame.sender = true) (hc : chainageOf s x.frame.sender = some c)
    (hlt : c < s.cfg.chainage) (hheld : tagHeld s b.tag = false)
    (hopen : atOrAfter s.clock (windowOf s.cfg.chainage c (earlier x.arrival (age * 10000))
      (if b.speed = 0 then none else some b.speed)).2 = false) :
    ∃ t, exec .noticeHandlingComplete s = .next t ∧ t.line = { s.line with slots := rest } ∧
      t.approach = joinedList s (newEntry s (announceWeighing x.frame.sender x.arrival b age)) ∧
      (s.approach.entries.length < 48 → t.alerts = s.alerts) ∧
      (48 ≤ s.approach.entries.length →
        alertOf t .approachEvict = raisedAlert (alertOf s .approachEvict)) ∧
      (∀ y, y ≠ .approachEvict → alertOf t y = alertOf s y) ∧
      changesOnly [.line, .approach, .alerts] s t := by
  have hann : Announces s x (announceWeighing x.frame.sender x.arrival b age) :=
    hbody.elim .vehicle .sighting
  obtain ⟨hfind, hstop⟩ := tagHeld_eq_false hheld
  have hup : isDownstream s x.frame.sender = false := by
    rw [isDownstream_of hc]
    exact decide_eq_false (Nat.not_lt.2 hlt.le)
  obtain ⟨t, hnext, hline, hlist, hroom, hfull, hother, hframe⟩ :=
    announced_creates hs hw hslots hann
      (takeAnnouncement_create (s := slotFreed rest s) hpresent hc hlt hstop hfind)
      (by rw [announcedWindow_of _ rfl hc]; exact hopen)
  refine ⟨t, hnext, hline.trans (noticeLine_of_none rest s fun w => ?_), hlist, hroom, hfull, hother, hframe⟩
  rw [madeStale, hup, Bool.and_false, Bool.false_and]

/-- Settles O33: the notices that create an entry, and those that only count. -/
theorem vehicleNoticeCreatesEntry : Obligations.VehicleNoticeCreatesEntry := by
  unfold Obligations.VehicleNoticeCreatesEntry
  refine ⟨?_, ?_⟩
  · intro s x rest b age c k v hs hw hslots hbody hk hpresent hc hlt hheld hv high low travel hopen
    subst hk hv
    have hcloses := windowOf_closes s.cfg.chainage c (earlier x.arrival (age * 10000))
      (if b.speed = 0 then none else some b.speed)
    obtain ⟨t, hnext, hline, hlist, hroom, hfull, hother, hframe⟩ :=
      weighing_creates hs hw hslots hbody hpresent hc hlt hheld (by rw [hcloses]; exact hopen)
    let a := announceWeighing x.frame.sender x.arrival b age
    have hwindow : announcedWindow s a a.speed =
        windowOf s.cfg.chainage c (earlier x.arrival (age * 10000))
          (if b.speed = 0 then none else some b.speed) := announcedWindow_of _ rfl hc
    refine ⟨t, newEntry s a, hnext, hline, fun h => ?_, fun h => ?_, hother, rfl, rfl, rfl, rfl, rfl, rfl,
      rfl, rfl, rfl, rfl, rfl, rfl, rfl, rfl, rfl, ?_, ?_, ?_, rfl, hframe⟩
    · rw [hlist, joinedList_entries_of_room h]
      exact ⟨rfl, rfl, hroom h⟩
    · rw [hlist, joinedList_entries_of_full h]
      exact ⟨rfl, rfl, congrArg AlertState.sticky (hfull h), congrArg AlertState.count (hfull h)⟩
    · exact if_congr setsReference_weighing rfl rfl
    · exact (congrArg Prod.fst hwindow).trans (windowOf_opens _ _ _ _)
    · exact (congrArg Prod.snd hwindow).trans hcloses
  · intro s x rest k g age v hs hw hslots hk hnotice taken stale held counted old
    subst hk
    have hstale : madeStale s x g = stale := funext (madeStale_eq s x g)
    have hcounts {a : Announcement} {c : ApproachCounts} (ha : Announces s x a) (hg : a.tag = g)
        (htaken : takeAnnouncement a (slotFreed rest s) = countApproach (fun _ => c) (slotFreed rest s)) :
        ∃ t, counted c t ∧ changesOnly [.line, .approach] s t := by
      refine ⟨noticeCounted x rest g c s, ⟨?_, rfl, ?_⟩, noticeCounted_touches⟩
      · rw [← hg]
        exact announced_counts hs hslots ha htaken
      · exact noticeLine_congr rest s fun w => by rw [hstale]
    refine ⟨fun ht hp => ?_, fun ht hp hc => ?_, fun c ht hp hc hlt => ⟨fun hentry hheld => ?_,
      fun hheld hfind hlate => ?_⟩, fun c ht hp hc hlt hfind => ?_, fun ht => ?_⟩
    · obtain ⟨a, ha, hg, hsender, -, -⟩ := announces_of ht hnotice
      exact hcounts ha hg (takeAnnouncement_of_absent (s := slotFreed rest s) (by rw [hsender]; exact hp))
    · obtain ⟨a, ha, hg, hsender, -, -⟩ := announces_of ht hnotice
      obtain ⟨t, hnext, hlist, hline, hrest⟩ := announced_clash hs hw hslots ha
        (by rw [hsender]; exact hp) (by rw [hsender]; exact hc)
      refine ⟨t, ⟨hnext, hlist, hline.trans ?_⟩, hrest⟩
      exact noticeLine_congr rest s fun w => by rw [hg, hstale]
    · obtain ⟨a, ha, hg, hsender, -, -⟩ := announces_of ht hnotice
      refine hcounts ha hg ?_
      exact takeAnnouncement_held (s := slotFreed rest s) (by rw [hsender]; exact hp)
        (by rw [hsender]; exact hc) hlt (by rw [hg]; exact heldAtStopLine_iff.2 hheld)
    · obtain ⟨a, ha, hg, hsender, hseen, hv⟩ := announces_of ht hnotice
      refine hcounts ha hg ?_
      rw [takeAnnouncement_create (s := slotFreed rest s) (by rw [hsender]; exact hp)
        (by rw [hsender]; exact hc) hlt
        (by rw [hg]; exact Bool.eq_false_iff.2 fun h => hheld (heldAtStopLine_iff.1 h))
        (by rw [hg]; exact hfind)]
      refine (createEntry_of_late a ?_).trans rfl
      rw [announcedWindow_of (s := slotFreed rest s) a.speed hsender hc, windowOf_closes, hseen, hv]
      exact hlate
    · obtain ⟨a, ha, hg, hsender, -, -⟩ := announces_of ht hnotice
      refine ⟨noticeCounted x rest g old s, ⟨?_, rfl, noticeLine_congr rest s fun w => by rw [hstale]⟩,
        lined_touches _ s⟩
      rw [← hg]
      refine announced_counts hs hslots ha ?_
      exact (takeAnnouncement_unlisted (s := slotFreed rest s) (by rw [hsender]; exact hp)
        (by rw [hsender]; exact hc) hlt (by rw [hg]; exact hfind)).trans rfl
    · obtain ⟨hexit, hkind⟩ := not_or.1 ht
      have hkind : x.frame.body.kind = 0x11 := not_not.1 hkind
      have hquiet : ∀ w, stale w = false := fun w => by
        rw [← hstale, madeStale, hkind]
        rfl
      obtain ⟨b, -, -, hb | hb⟩ | ⟨lane, weight, gross, -, hb⟩ := hnotice
      · rw [hb] at hkind
        cases hkind
      · rw [hb] at hkind
        cases hkind
      · exact ⟨slotFreed rest s,
          ⟨entered_ignored hs hslots hb (Bool.eq_false_iff.2 hexit), rfl,
            (noticeLine_of_none rest s hquiet).symm⟩, slotFreed_touches rest s⟩

end Sys2Proof.Proofs
end

