-- ==== Sys2Proof/Proofs/EntriesUpdated.lean ====
section
/-! PROOFS. Notices that update an entry (R100 to R104). -/

namespace Sys2Proof.Proofs

open Sys2Proof Sys2Proof.Machine

/-! ## The entry after an update (R100 to R103) -/

section

variable {s : State} {e : ApproachEntry} {a : Announcement}

/-- R100, R102, R103: the values, signature and reference of the entry after an update. -/
def valuesUpdated (s : State) (e : ApproachEntry) (a : Announcement) : ApproachEntry :=
  { mergeValues e a with
    axleCount := if a.entered || e.spacings.isSome then e.axleCount else a.axleCount
    spacings := if a.entered || e.spacings.isSome then e.spacings else a.spacings
    reference := if setsReference s a then some a.ownGross else e.reference }

theorem merged_eq : mergeReference s (mergeSignature (mergeValues e a) a) a = valuesUpdated s e a := by
  have hsig : (mergeValues e a).spacings = e.spacings := rfl
  unfold mergeReference mergeSignature valuesUpdated
  rw [hsig]
  split <;> split <;> rfl

theorem updatedEntry_of_moves (h : movesPosition s e a = true) :
    updatedEntry s e a = movePosition s (valuesUpdated s e a) a := by
  rw [updatedEntry, merged_eq, h]
  rfl

theorem updatedEntry_of_stays (h : movesPosition s e a = false) :
    updatedEntry s e a = valuesUpdated s e a := by
  rw [updatedEntry, merged_eq, h]
  rfl

/-- R101: an update changes no more of the values than this, wherever the sender stands. -/
theorem updatedEntry_cases :
    updatedEntry s e a = movePosition s (valuesUpdated s e a) a ∨
      updatedEntry s e a = valuesUpdated s e a := by
  cases h : movesPosition s e a with
  | true => exact .inl (updatedEntry_of_moves h)
  | false => exact .inr (updatedEntry_of_stays h)

theorem updatedEntry_kept :
    (updatedEntry s e a).tag = e.tag ∧ (updatedEntry s e a).created = e.created := by
  obtain h | h := updatedEntry_cases (s := s) (e := e) (a := a) <;> rw [h] <;> exact ⟨rfl, rfl⟩

theorem updatedEntry_values :
    (updatedEntry s e a).effGross = max e.effGross a.effGross ∧
      (updatedEntry s e a).effVerdict = e.effVerdict.worse a.effVerdict ∧
      (updatedEntry s e a).confidence = mergedConfidence e a ∧
      (updatedEntry s e a).directed = (e.directed || a.directed) ∧
      (updatedEntry s e a).straddle = (e.straddle || a.straddle) ∧
      (updatedEntry s e a).overlong = (e.overlong || a.overlong) ∧
      (updatedEntry s e a).continuation = (e.continuation || a.continuation) ∧
      (updatedEntry s e a).singleSource = (e.singleSource || a.singleSource) := by
  obtain h | h := updatedEntry_cases (s := s) (e := e) (a := a) <;> rw [h] <;>
    exact ⟨rfl, rfl, rfl, rfl, rfl, rfl, rfl, rfl⟩

theorem updatedEntry_signature :
    (updatedEntry s e a).axleCount =
        (if a.entered || e.spacings.isSome then e.axleCount else a.axleCount) ∧
      (updatedEntry s e a).spacings =
        (if a.entered || e.spacings.isSome then e.spacings else a.spacings) ∧
      (updatedEntry s e a).reference =
        (if setsReference s a then some a.ownGross else e.reference) := by
  obtain h | h := updatedEntry_cases (s := s) (e := e) (a := a) <;> rw [h] <;> exact ⟨rfl, rfl, rfl⟩

/-- R101, R104: the speed an update gives the window. -/
def speedAfter (e : ApproachEntry) (a : Announcement) : Option Nat :=
  if a.entered then e.speed else a.speed

theorem movesPosition_iff {c : Nat} (hc : chainageOf s a.sender = some c) :
    movesPosition s e a = true ↔ (chainageOf s e.lastStation).getD 0 ≤ c := by
  rw [movesPosition, hc, decide_eq_true_iff]
  rfl

/-- R101: the position of the entry after an update. -/
theorem updatedEntry_placed {c : Nat} (hc : chainageOf s a.sender = some c) :
    ((chainageOf s e.lastStation).getD 0 ≤ c →
      (updatedEntry s e a).lastStation = a.sender ∧ (updatedEntry s e a).seen = a.seen ∧
        (updatedEntry s e a).lane = a.lane ∧ (updatedEntry s e a).speed = speedAfter e a ∧
        (updatedEntry s e a).windowOpen = (windowOf s.cfg.chainage c a.seen (speedAfter e a)).1 ∧
        (updatedEntry s e a).windowClose = (windowOf s.cfg.chainage c a.seen (speedAfter e a)).2) ∧
    (¬(chainageOf s e.lastStation).getD 0 ≤ c →
      (updatedEntry s e a).lastStation = e.lastStation ∧ (updatedEntry s e a).seen = e.seen ∧
        (updatedEntry s e a).lane = e.lane ∧ (updatedEntry s e a).speed = e.speed ∧
        (updatedEntry s e a).windowOpen = e.windowOpen ∧
        (updatedEntry s e a).windowClose = e.windowClose) := by
  have hwindow := announcedWindow_of (s := s) (a := a) (speedAfter e a) rfl hc
  refine ⟨fun h => ?_, fun h => ?_⟩
  · rw [updatedEntry_of_moves ((movesPosition_iff hc).2 h), ← hwindow]
    exact ⟨rfl, rfl, rfl, rfl, rfl, rfl⟩
  · rw [updatedEntry_of_stays (Bool.eq_false_iff.2 fun hm => h ((movesPosition_iff hc).1 hm))]
    exact ⟨rfl, rfl, rfl, rfl, rfl, rfl⟩

/-- R100: the confidence after an update. -/
theorem mergedConfidence_spec (e : ApproachEntry) (a : Announcement) :
    (e.effGross < a.effGross → mergedConfidence e a = a.offered) ∧
      (e.effGross = a.effGross →
        (mergedConfidence e a = .full ↔ e.confidence = .full ∨ a.offered = .full)) ∧
      (a.effGross < e.effGross → mergedConfidence e a = e.confidence) := by
  refine ⟨fun h => if_pos h, fun h => ?_, fun h => ?_⟩
  · rw [mergedConfidence, if_neg (Nat.not_lt.2 h.ge), if_pos h]
    split
    next hf => exact ⟨fun _ => hf, fun _ => rfl⟩
    next hf => exact ⟨nofun, fun hor => absurd hor hf⟩
  · rw [mergedConfidence, if_neg (Nat.not_lt.2 h.le), if_neg (Nat.ne_of_gt h)]

/-- R104: an offer of REDUCED leaves an entry no better. -/
theorem mergedConfidence_reduced (h : a.offered = .reduced) :
    mergedConfidence e a = if e.effGross < a.effGross then .reduced else e.confidence := by
  unfold mergedConfidence
  rw [h]
  split
  · rfl
  · cases e.confidence <;> simp

end

/-! ## The list after an update -/

/-- R99: replacing an entry that then leaves changes no other. -/
theorem withoutTag_replaceEntry (e : ApproachEntry) (l : List ApproachEntry) :
    withoutTag e.tag (replaceEntry e l) = withoutTag e.tag l := by
  unfold withoutTag replaceEntry
  induction l with
  | nil => rfl
  | cons x xs ih =>
    by_cases h : x.tag = e.tag
    · simpa [h] using ih
    · simpa [h] using ih

section

variable {s : State} {x : Stored} {rest : List Stored} {e : ApproachEntry} {a : Announcement} {c : Nat}

/-- R100: the list with the updated entry. -/
def updatedList (s : State) (e : ApproachEntry) (a : Announcement) : Approach :=
  { entries := replaceEntry (updatedEntry s e a) s.approach.entries
    counts := { s.approach.counts with updated := s.approach.counts.updated + 1 } }

/-- R99, R101: the list without it. -/
def expiredList (s : State) (e : ApproachEntry) : Approach :=
  { entries := withoutTag e.tag s.approach.entries
    counts :=
      { s.approach.counts with
        updated := s.approach.counts.updated + 1, expired := s.approach.counts.expired + 1 } }

/-- R97: the station once a notice from upstream has been handled. -/
def listTaken (rest : List Stored) (l : Approach) (s : State) : State :=
  lined { s.line with slots := rest } { s with approach := l }

theorem listTaken_touches {l : Approach} : changesOnly [.line, .approach] s (listTaken rest l s) :=
  changesOnly_mono (changesOnly_append (touches_approach s l) (lined_touches { s.line with slots := rest } _))
    (by decide)

theorem updateEntry_of_stays
    (h : (movesPosition s e a && atOrAfter s.clock (updatedEntry s e a).windowClose) = false) :
    updateEntry e a s = { s with approach := updatedList s e a } := by
  rw [updateEntry, h]
  rfl

/-- R99: an entry that leaves as expired and counts in no lane. -/
theorem expireEntry_of_uncounted {e : ApproachEntry} (h : (s.cfg.beyondExit && e.directed) = false) :
    expireEntry e s =
      { s with
        approach :=
          { entries := withoutTag e.tag s.approach.entries
            counts := { s.approach.counts with expired := s.approach.counts.expired + 1 } } } :=
  if_neg (by rw [h]; exact Bool.false_ne_true)

theorem updateEntry_of_expires
    (h : (movesPosition s e a && atOrAfter s.clock (updatedEntry s e a).windowClose) = true)
    (hexit : s.cfg.beyondExit = false) :
    updateEntry e a s = { s with approach := expiredList s e } := by
  have hkept := withoutTag_replaceEntry (updatedEntry s e a) s.approach.entries
  rw [updatedEntry_kept.1] at hkept
  have hexpired : updateEntry e a s =
      expireEntry (updatedEntry s e a) { s with approach := updatedList s e a } := if_pos h
  rw [hexpired, expireEntry_of_uncounted (s := { s with approach := updatedList s e a })
    (Bool.and_eq_false_iff.2 (.inl hexit)), expiredList, ← hkept, updatedEntry_kept.1]
  rfl

/-- R75: a notice from a PRESENT upstream peer, of a tag not held at the stop line. -/
theorem announced_upstream {l : Approach} (hs : settled s = true) (hslots : s.line.slots = x :: rest)
    (ha : Announces s x a) (hc : chainageOf s x.frame.sender = some c)
    (hlt : c < s.cfg.chainage)
    (htaken : takeAnnouncement a (slotFreed rest s) = { slotFreed rest s with approach := l }) :
    exec .noticeHandlingComplete s = .next (listTaken rest l s) := by
  have hquiet : ∀ w, madeStale s x a.tag w = false := fun w => by
    rw [madeStale, isDownstream_of hc, decide_eq_false (Nat.not_lt.2 hlt.le), Bool.and_false,
      Bool.false_and]
  have hexec := exec_announced hslots ha
  rw [htaken, noticeLine_of_none rest s hquiet] at hexec
  exact hexec.trans (done_quiet hs (listTaken_touches (rest := rest) (l := l)))

/-- R100, R101: an update that leaves the entry in the list. -/
theorem announced_updates (hs : settled s = true) (hslots : s.line.slots = x :: rest)
    (ha : Announces s x a) (hk : a.sender = x.frame.sender) (hp : isPresent s x.frame.sender = true)
    (hc : chainageOf s x.frame.sender = some c) (hlt : c < s.cfg.chainage)
    (hheld : heldAtStopLine s a.tag = false) (hfind : findEntry s a.tag = some e)
    (hopen : (chainageOf s e.lastStation).getD 0 ≤ c →
      atOrAfter s.clock (windowOf s.cfg.chainage c a.seen (speedAfter e a)).2 = false) :
    exec .noticeHandlingComplete s = .next (listTaken rest (updatedList s e a) s) := by
  have hca : chainageOf s a.sender = some c := by rw [hk]; exact hc
  refine announced_upstream hs hslots ha hc hlt ?_
  rw [takeAnnouncement_update (s := slotFreed rest s) (by rw [hk]; exact hp) hca hlt hheld hfind,
    updateEntry_of_stays (s := slotFreed rest s)]
  · rfl
  · cases hm : movesPosition (slotFreed rest s) e a with
    | false => rfl
    | true =>
      have hle := (movesPosition_iff (s := s) hca).1 hm
      obtain ⟨-, -, -, -, -, hclose⟩ := (updatedEntry_placed (s := s) (e := e) hca).1 hle
      refine (Bool.true_and _).trans ?_
      refine (congrArg (atOrAfter s.clock) hclose).trans (hopen hle)

/-- R101: an update whose window has already closed. -/
theorem announced_expires (hs : settled s = true) (hslots : s.line.slots = x :: rest)
    (ha : Announces s x a) (hk : a.sender = x.frame.sender) (hp : isPresent s x.frame.sender = true)
    (hc : chainageOf s x.frame.sender = some c) (hlt : c < s.cfg.chainage)
    (hheld : heldAtStopLine s a.tag = false) (hfind : findEntry s a.tag = some e)
    (hle : (chainageOf s e.lastStation).getD 0 ≤ c)
    (hclosed : atOrAfter s.clock (windowOf s.cfg.chainage c a.seen (speedAfter e a)).2 = true)
    (hexit : s.cfg.beyondExit = false) :
    exec .noticeHandlingComplete s = .next (listTaken rest (expiredList s e) s) := by
  have hca : chainageOf s a.sender = some c := by rw [hk]; exact hc
  obtain ⟨-, -, -, -, -, hclose⟩ := (updatedEntry_placed (s := s) (e := e) hca).1 hle
  refine announced_upstream hs hslots ha hc hlt ?_
  rw [takeAnnouncement_update (s := slotFreed rest s) (by rw [hk]; exact hp) hca hlt hheld hfind,
    updateEntry_of_expires (s := slotFreed rest s) ?_ hexit]
  · rfl
  · exact Bool.and_eq_true_iff.2 ⟨(movesPosition_iff (s := s) hca).2 hle,
      (congrArg (atOrAfter s.clock) hclose).trans hclosed⟩

/-- R97: what the list holds after an update. -/
theorem updatedList_entries :
    (updatedList s e a).entries =
      s.approach.entries.map (fun f => if f.tag = e.tag then updatedEntry s e a else f) := by
  rw [updatedList, replaceEntry, updatedEntry_kept.1]

/-- R104: the entry that an ENTERED of a tag held nowhere creates. -/
theorem announced_joins (hs : settled s = true) (hslots : s.line.slots = x :: rest)
    (ha : Announces s x a) (hk : a.sender = x.frame.sender) (hp : isPresent s x.frame.sender = true)
    (hc : chainageOf s x.frame.sender = some c) (hlt : c < s.cfg.chainage)
    (hheld : heldAtStopLine s a.tag = false) (hfind : findEntry s a.tag = none)
    (hroom : s.approach.entries.length < 48)
    (hopen : atOrAfter s.clock (windowOf s.cfg.chainage c a.seen a.speed).2 = false) :
    exec .noticeHandlingComplete s = .next (listTaken rest (joinedList s (newEntry s a)) s) := by
  have hca : chainageOf s a.sender = some c := by rw [hk]; exact hc
  refine announced_upstream hs hslots ha hc hlt ?_
  rw [takeAnnouncement_create (s := slotFreed rest s) (by rw [hk]; exact hp) hca hlt hheld hfind,
    createEntry_of_room a (s := slotFreed rest s) 
      (by rw [announcedWindow_of (s := slotFreed rest s) _ rfl hca]; exact hopen) hroom, joinedList_entries_of_room hroom]
  unfold entriesWith
  rw [if_pos (show (slotFreed rest s).approach.entries.length < 48 from hroom)]
  rfl

end

/-- Settles O34: the entry after an update, field by field; the expiry at once; the entry an ENTERED creates. -/
theorem noticesUpdateEntry : Obligations.NoticesUpdateEntry := by
  unfold Obligations.NoticesUpdateEntry
  intro s x rest k c age hs hslots hk hp hc hlt seen travel opens closes moves stored placed
  subst hk
  have hcloses (v : Option Nat) : (windowOf s.cfg.chainage c seen v).2 = closes v := windowOf_closes _ _ _ v
  have hopens (v : Option Nat) : (windowOf s.cfg.chainage c seen v).1 = opens v := windowOf_opens _ _ _ v
  have hstored {e : ApproachEntry} {a : Announcement} :
      stored e (updatedEntry s e a) (listTaken rest (updatedList s e a) s) :=
    ⟨rfl, updatedList_entries, rfl, updatedEntry_kept.1, updatedEntry_kept.2, listTaken_touches⟩
  have hplaced {e : ApproachEntry} {a : Announcement} (hsender : a.sender = x.frame.sender)
      (hseen : a.seen = seen) : placed e (updatedEntry s e a) a.lane (speedAfter e a) := by
    have h := updatedEntry_placed (s := s) (e := e) (a := a) (c := c) (by rw [hsender]; exact hc)
    rw [hsender, hseen, hcloses, hopens] at h
    exact h
  refine ⟨fun e b v offered hfind hheld htag hbody hv hoffered => ?_,
    fun g lane weight gross hexit hbody hheld => ?_⟩
  · subst hv hoffered
    let a := announceWeighing x.frame.sender x.arrival b age
    have ha : Announces s x a := hbody.elim .vehicle .sighting
    have hfind : findEntry s a.tag = some e := by rw [show a.tag = e.tag from htag]; exact hfind
    have hheld : heldAtStopLine s a.tag = false := by rw [show a.tag = e.tag from htag]; exact hheld
    refine ⟨fun hopen => ?_, fun hm hclosed hbeyond => ?_⟩
    · obtain ⟨hgross, hverdict, hconf, hdirected, hstraddle, hoverlong, hcont, hsingle⟩ :=
        updatedEntry_values (s := s) (e := e) (a := a)
      obtain ⟨haxles, hspacings, href⟩ := updatedEntry_signature (s := s) (e := e) (a := a)
      obtain ⟨hless, hequal, hmore⟩ := mergedConfidence_spec e a
      rw [← hconf] at hless hequal hmore
      refine ⟨_, updatedEntry s e a, announced_updates hs hslots ha rfl hp hc hlt hheld hfind fun hm => ?_,
        hstored, hplaced rfl rfl, hgross, hverdict, hless, hequal, hmore, hdirected, hstraddle, hoverlong,
        hcont, hsingle, fun hsome => ?_, fun hnone => ?_, ?_⟩
      · exact (congrArg (atOrAfter s.clock) (hcloses _)).trans (hopen hm)
      · rw [haxles, hspacings, hsome]
        exact ⟨rfl, rfl⟩
      · rw [haxles, hspacings, hnone]
        exact ⟨rfl, rfl⟩
      · rw [href]
        exact if_congr setsReference_weighing rfl rfl
    · exact ⟨_, announced_expires hs hslots ha rfl hp hc hlt hheld hfind hm
        ((congrArg (atOrAfter s.clock) (hcloses _)).trans hclosed) hbeyond, rfl, rfl, rfl, listTaken_touches⟩
  · let a := announceEntered s x.frame.sender x.arrival g lane gross age
    have ha : Announces s x a := .entered hexit hbody
    refine ⟨fun e hfind hopen => ?_, fun hfind hroom hopen => ?_⟩
    · obtain ⟨hgross, hverdict, hconf, hdirected, hstraddle, hoverlong, hcont, hsingle⟩ :=
        updatedEntry_values (s := s) (e := e) (a := a)
      obtain ⟨haxles, hspacings, href⟩ := updatedEntry_signature (s := s) (e := e) (a := a)
      refine ⟨_, updatedEntry s e a, announced_updates hs hslots ha rfl hp hc hlt hheld hfind fun hm => ?_,
        hstored, hplaced rfl rfl, hgross, hverdict, hconf.trans (mergedConfidence_reduced rfl),
        hdirected.trans (Bool.or_false _), hstraddle.trans (Bool.or_false _),
        hoverlong.trans (Bool.or_false _), hcont.trans (Bool.or_false _), hsingle.trans (Bool.or_false _),
        haxles, hspacings, href⟩
      exact (congrArg (atOrAfter s.clock) (hcloses _)).trans (hopen hm)
    · refine ⟨_, announced_joins hs hslots ha rfl hp hc hlt hheld hfind hroom
        ((congrArg (atOrAfter s.clock) (hcloses _)).trans hopen), rfl, ?_, ?_, listTaken_touches⟩
      · have hwindow : announcedWindow s a a.speed = (opens none, closes none) :=
          (announcedWindow_of none rfl hc).trans rfl
        refine (congrArg Approach.entries (joinedList_entries_of_room hroom)).trans ?_
        rw [newEntry, hwindow]
        rfl
      · exact congrArg Approach.counts (joinedList_entries_of_room hroom)

end Sys2Proof.Proofs
end

