-- ==== Sys2Proof/Proofs/EntriesLeave.lean ====
section
/-! PROOFS. Entries that leave the approach list (R94, R99). -/

namespace Sys2Proof.Proofs

open Sys2Proof Sys2Proof.Machine

section

variable {s : State} {e : ApproachEntry} {x : Stored} {rest : List Stored} {a : Announcement} {c : Nat}

/-! ## Windows that close (R99) -/

/-- R99: the lane an expiring entry counts in has the number min(entry lane, lane count). -/
theorem compliedLane_eq (h1 : 1 ≤ s.cfg.laneCount) (h4 : s.cfg.laneCount ≤ 4) (l : Lane) :
    l = compliedLane s e ↔ laneNumber l = min (laneNumber e.lane) s.cfg.laneCount := by
  have hvalue : (compliedLane s e).val + 1 = min (laneNumber e.lane) s.cfg.laneCount := by
    unfold compliedLane laneNumber
    by_cases huse : e.lane.val < s.cfg.laneCount
    · rw [laneInUse, decide_eq_true huse, if_pos rfl]
      omega
    · rw [laneInUse, decide_eq_false huse, if_neg Bool.false_ne_true]
      have hlast : laneOfNumber s.cfg.laneCount = some ⟨s.cfg.laneCount - 1, by omega⟩ := by
        rw [← laneOfNumber_laneNumber ⟨s.cfg.laneCount - 1, by omega⟩]
        exact congrArg laneOfNumber (by simp only [laneNumber]; omega)
      rw [hlast]
      simp only [Option.getD_some]
      omega
  rw [← hvalue, laneNumber, Fin.ext_iff]
  omega

/-- R99: the list once an entry has left as expired. -/
def leftExpired (s : State) (e : ApproachEntry) : Approach :=
  { entries := withoutTag e.tag s.approach.entries
    counts := { s.approach.counts with expired := s.approach.counts.expired + 1 } }

theorem expireEntry_eq (s : State) (e : ApproachEntry) :
    expireEntry e s =
      if s.cfg.beyondExit && e.directed then
        countLane (compliedLane s e) (fun c => { c with complied := c.complied + 1 })
          { s with approach := leftExpired s e }
      else { s with approach := leftExpired s e } := rfl

theorem expireEntry_frame (s : State) (e : ApproachEntry) :
    changesOnly [.approach, .counters] s (expireEntry e s) := by
  rw [expireEntry_eq]
  split
  · exact changesOnly_append (touches_approach s _) (touches_counters _ _)
  · exact changesOnly_mono (touches_approach s _) (by decide)

/-- What WINDOW_CLOSE_EXPIRY leaves (R99). -/
theorem windowClose_spec (hs : settled s = true) (hfind : findEntry s e.tag = some e)
    (hclosed : atOrAfter s.clock e.windowClose = true) (h1 : 1 ≤ s.cfg.laneCount)
    (h4 : s.cfg.laneCount ≤ 4) :
    ∃ t, exec (.windowCloseExpiry e.tag) s = .next t ∧
      t.approach.entries = s.approach.entries.filter (fun x => decide (x.tag ≠ e.tag)) ∧
      t.approach.counts = { s.approach.counts with expired := s.approach.counts.expired + 1 } ∧
      ((s.cfg.beyondExit && e.directed) = false → t.counters = s.counters) ∧
      ((s.cfg.beyondExit && e.directed) = true →
        ∀ l : Lane, (t.counters.lanes.at l) =
          if laneNumber l = min (laneNumber e.lane) s.cfg.laneCount then
            { s.counters.lanes.at l with complied := (s.counters.lanes.at l).complied + 1 }
          else s.counters.lanes.at l) ∧
      changesOnly [.approach, .counters] s t := by
  have hexec : exec (.windowCloseExpiry e.tag) s = done (expireEntry e s) := by
    simp only [exec, execWindowCloseExpiry, hfind, hclosed, if_true]
  refine ⟨_, hexec.trans (done_quiet hs (expireEntry_frame s e)), ?_, ?_, fun h => ?_, fun h l => ?_,
    expireEntry_frame s e⟩
  · rw [expireEntry_eq]
    split <;> rfl
  · rw [expireEntry_eq]
    split <;> rfl
  · rw [expireEntry_eq, h]
    rfl
  · rw [expireEntry_eq, h, if_pos rfl]
    have hcount : (countLane (compliedLane s e) (fun c => { c with complied := c.complied + 1 })
        { s with approach := leftExpired s e }).counters.lanes =
          s.counters.lanes.upd (compliedLane s e) fun c => { c with complied := c.complied + 1 } := rfl
    rw [hcount]
    by_cases hl : l = compliedLane s e
    · rw [if_pos ((compliedLane_eq h1 h4 l).1 hl), hl, Tab.at_upd_self]
    · rw [if_neg (mt (compliedLane_eq h1 h4 l).2 hl), Tab.at_upd_ne _ _ hl]

/-! ## Notices from downstream (R94) -/

/-- R94: the list once a notice from downstream has taken an entry from it. -/
def passedUnseen (s : State) (g : Tag) : Approach :=
  { entries := withoutTag g s.approach.entries
    counts := { s.approach.counts with passedUnseen := s.approach.counts.passedUnseen + 1 } }

theorem announced_downstream (hs : settled s = true) (hslots : s.line.slots = x :: rest)
    (ha : Announces s x a) (hk : a.sender = x.frame.sender) (hp : isPresent s x.frame.sender = true)
    (hc : chainageOf s x.frame.sender = some c) (hlt : s.cfg.chainage < c)
    (hfind : findEntry s a.tag = some e) :
    ∃ t, exec .noticeHandlingComplete s = .next t ∧ t.approach = passedUnseen s a.tag ∧
      t.line = noticeLine (madeStale s x a.tag) rest s ∧ changesOnly [.line, .approach] s t := by
  let u : State :=
    lined (noticeLine (madeStale s x a.tag) rest s) { s with approach := passedUnseen s a.tag }
  have hu : changesOnly [.line, .approach] s u :=
    changesOnly_mono (changesOnly_append (touches_approach s (passedUnseen s a.tag))
      (lined_touches (noticeLine (madeStale s x a.tag) rest s) _)) (by decide)
  have hexec : exec .noticeHandlingComplete s = done u := by
    rw [exec_announced hslots ha, takeAnnouncement_passed (s := slotFreed rest s) (by rw [hk]; exact hp)
      (by rw [hk]; exact hc) hlt hfind]
    rfl
  exact ⟨u, hexec.trans (done_quiet hs hu), rfl, rfl, hu⟩

end

/-- R94, R104: the announcement of a notice that reaches the list. -/
theorem announces_weighing_or_entered {s : State} {x : Stored} {g : Tag} {age : Nat}
    (h : (∃ b : WeighingBody, b.tag = g ∧ (x.frame.body = .vehicle b age ∨ x.frame.body = .sighting b age)) ∨
      (s.cfg.exit = true ∧ ∃ l w gross, x.frame.body = .entered g l w gross age)) :
    ∃ a, Announces s x a ∧ a.tag = g ∧ a.sender = x.frame.sender := by
  obtain ⟨b, rfl, hb | hb⟩ | ⟨hexit, l, weight, gross, hb⟩ := h
  · exact ⟨_, .vehicle hb, rfl, rfl⟩
  · exact ⟨_, .sighting hb, rfl, rfl⟩
  · exact ⟨_, .entered hexit hb, rfl, rfl⟩

/-- Settles O35: the closed window, and the notices from downstream. -/
theorem entriesLeaveList : Obligations.EntriesLeaveList := by
  unfold Obligations.EntriesLeaveList
  intro s e hs hfind
  refine ⟨windowClose_spec hs hfind, ?_⟩
  intro x rest k c age body hslots hk hp hc hlt hbody hnotice older
  subst hk hbody
  obtain ⟨a, ha, htag, hsender⟩ := announces_weighing_or_entered hnotice
  obtain ⟨t, hnext, hlist, hline, hframe⟩ :=
    announced_downstream hs hslots ha hsender hp hc hlt (by rw [htag]; exact hfind)
  rw [htag] at hlist hline
  refine ⟨t, hnext, congrArg Approach.entries hlist, congrArg Approach.counts hlist,
    fun hnone => hline.trans (noticeLine_of_none rest s fun w => ?_),
    fun b hb => hline.trans (noticeLine_congr rest s fun w => ?_), hframe⟩
  · have hkind : x.frame.body.kind ≠ 0x22 := by
      obtain ⟨b, -, hb | hb⟩ | ⟨-, l, weight, gross, hb⟩ := hnotice
      · rw [hb]
        exact (by decide : (0x21 : Nat) ≠ 0x22)
      · exact absurd hb (hnone b)
      · rw [hb]
        exact (by decide : (0x11 : Nat) ≠ 0x22)
    rw [madeStale, decide_eq_false hkind, Bool.false_and, Bool.false_and]
  · have hdown : isDownstream s x.frame.sender = true := by
      rw [isDownstream_of hc]
      exact decide_eq_true hlt
    rw [madeStale, hb, hdown]
    exact Bool.true_and _

end Sys2Proof.Proofs
end

