-- ==== Sys2Proof/Proofs/LampLaws.lean ====
section
/-! PROOFS. What `settle` leaves when only the lamp unit, or the lamp unit and the signs, were written
(R122 to R127). -/

namespace Sys2Proof.Proofs

open Sys2Proof Sys2Proof.Machine

section

variable {s u : State}

/-! ## Groups and raw states -/

theorem groupFaulted_of {l : Lane}
    (h : ∀ o, (outputOf u o).assignment = (outputOf s o).assignment ∧
      (outputOf u o).latch = (outputOf s o).latch) : groupFaulted u l = groupFaulted s l := by
  have hany (o : Output) : ((u.lamps.outputs.at o).inGroup l && decide ((u.lamps.outputs.at o).latch ≠ .none)) =
      ((s.lamps.outputs.at o).inGroup l && decide ((s.lamps.outputs.at o).latch ≠ .none)) := by
    have ha : (u.lamps.outputs.at o).assignment = (s.lamps.outputs.at o).assignment := (h o).1
    have hl : (u.lamps.outputs.at o).latch = (s.lamps.outputs.at o).latch := (h o).2
    simp only [LampOutput.inGroup, ha, hl]
  simp only [groupFaulted, hany]

theorem groupFaulted_iff {l : Lane} : groupFaulted s l = true ↔
    ∃ o, (outputOf s o).inGroup l = true ∧ (outputOf s o).latch ≠ .none := by
  simp only [groupFaulted, List.any_eq_true, Bool.and_eq_true, decide_eq_true_eq]
  exact ⟨fun ⟨o, _, h⟩ => ⟨o, h⟩, fun ⟨o, h⟩ => ⟨o, mem_allOutputs o, h⟩⟩

theorem inGroup_iff {x : LampOutput} {l : Lane} : x.inGroup l = true ↔ ∃ m, x.assignment = some (l, m) := by
  unfold LampOutput.inGroup
  cases x.assignment with
  | none => simp
  | some a => simp [Prod.ext_iff]

/-- The raw state of LAMP_FAULT alone follows the lamps. -/
theorem rawState_of_lamps {bs : List Block} (h : changesOnly bs s u) {y : AlertSource} (hy : y ≠ .lampFault)
    (hbs : ∀ b ∈ [Block.cfg, .health, .entry, .peers, .probe], b ∉ bs := by decide) :
    rawState u y = rawState s y := by
  have hc : u.cfg = s.cfg := h .cfg (hbs _ (by simp))
  have hh : u.health = s.health := h .health (hbs _ (by simp))
  have he : u.entry = s.entry := h .entry (hbs _ (by simp))
  have hp : u.peers = s.peers := h .peers (hbs _ (by simp))
  have hb : u.probe = s.probe := h .probe (hbs _ (by simp))
  have hi : ∀ l, laneInUse u l = laneInUse s l := laneInUse_congr hc
  have hm : ∀ l, laneMode u l = laneMode s l := laneMode_congr hh
  cases y <;> simp_all [rawState, lanesInUse, laneBlind, healthOf]

theorem rawState_lampFault : rawState s .lampFault = true ↔ ∃ o, (outputOf s o).latch ≠ .none := by
  simp only [rawState, List.any_eq_true, decide_eq_true_eq]
  exact ⟨fun ⟨o, _, h⟩ => ⟨o, h⟩, fun ⟨o, h⟩ => ⟨o, mem_allOutputs o, h⟩⟩

/-! ## A lamp unit that is followed as it was -/

/-- An output differs at most in its blanking time, current and open timer, and then it is on. -/
def followedOutput (x y : LampOutput) : Prop :=
  y = x ∨ (y.assignment = x.assignment ∧ y.enable = x.enable ∧ y.latch = x.latch ∧ y.demand = x.demand ∧
    y.on = x.on ∧ x.on = true)

theorem followedOutput_kept {x y : LampOutput} (h : followedOutput x y) :
    y.assignment = x.assignment ∧ y.latch = x.latch := by
  obtain rfl | ⟨ha, -, hl, -⟩ := h
  · exact ⟨rfl, rfl⟩
  · exact ⟨ha, hl⟩

theorem outputFollows_of_followed {o : Output} (hs : settled s = true) (h : changesOnly [.lamps] s u)
    (hout : ∀ q, followedOutput (outputOf s q) (outputOf u q)) :
    outputFollows u (outputOf u o) = true := by
  have hsignal (a : Option (Lane × Lamp)) : demandOf u a = demandOf s a :=
    demandOf_congr (h .signs (by decide)) (congrArg EntryController.lanes (h .entry (by decide))) a
  have hdriven (x : LampOutput) (d : Bool) : isDriven u x d = isDriven s x d :=
    isDriven_congr fun _ => groupFaulted_of fun q => followedOutput_kept (hout q)
  have hstays := outputFollows_of_settled hs o
  unfold outputFollows at hstays ⊢
  rw [hsignal, hdriven]
  obtain heq | ⟨ha, he, hl, hd, hon, htrue⟩ := hout o
  · rw [heq]
    exact hstays
  · have hown : isDriven s (outputOf u o) (outputOf s o).demand =
        isDriven s (outputOf s o) (outputOf s o).demand := by
      simp only [isDriven, ownGroupFaulted, ha, he]
    rw [ha, hd, hon, hown, htrue]
    simp only [htrue, Bool.true_or, Bool.and_true] at hstays ⊢
    exact hstays

/-- R122: what outputs do that are on changes neither aspects nor signs nor alerts. -/
theorem settle_followedOutputs (hs : settled s = true) (h : changesOnly [.lamps] s u)
    (hout : ∀ q, followedOutput (outputOf s q) (outputOf u q)) : settle u = u := by
  have hstart : u.startup = s.startup := h .startup (by decide)
  have hcfg : u.cfg = s.cfg := h .cfg (by decide)
  have hhealth : u.health = s.health := h .health (by decide)
  have hsigns : u.signs = s.signs := h .signs (by decide)
  have hentry : u.entry = s.entry := h .entry (by decide)
  have halerts : u.alerts = s.alerts := h .alerts (by decide)
  have hgroup (l : Lane) : groupFaulted u l = groupFaulted s l :=
    groupFaulted_of fun q => followedOutput_kept (hout q)
  have hwanted (l : Lane) : wantedAspect u l = wantedAspect s l :=
    wantedAspect_congr hcfg hhealth (hgroup l) (by simp only [stopLine, hentry])
  have hraw (y : AlertSource) : rawState u y = rawState s y := by
    by_cases hy : y = .lampFault
    · subst hy
      simp only [rawState, outputOf] at *
      exact congrArg (List.any allOutputs) (funext fun q => by
        rw [show (u.lamps.outputs.at q).latch = _ from (followedOutput_kept (hout q)).2])
    · exact rawState_of_lamps h hy
  obtain ⟨hss, hsa, -, hst, hsl⟩ := settled_parts.1 hs
  refine settle_id (settled_parts.2 ⟨?_, ?_, lampsFollow_iff.2 fun o => outputFollows_of_followed hs h hout,
    ?_, ?_⟩)
  · have hrequested (l : Lane) : signRequested u l = signRequested s l :=
      signRequested_congr hstart hcfg hhealth (by rw [hsigns])
    simp only [signsFollow, hsigns, hrequested]
    exact hss
  · simp only [aspectsFollow, laneActs_congr hstart hcfg, hwanted, stopLine, hentry]
    exact hsa
  · have htaken (y : AlertSource) : sourceTaken u y = sourceTaken s y := by
      unfold sourceTaken
      rw [hraw, triggerOf_congr hcfg, alertOf_congr halerts]
    rw [alertsTaken, working_congr hstart, funext htaken, halerts]
    exact hst
  · have hactive (y : AlertSource) : isActive u y = isActive s y := by
      simp only [isActive, alertConfig_congr hcfg, alertOf, halerts, hraw]
    have hlines (m : AlertConfig → Bool) : lineWanted u m = lineWanted s m := by
      simp only [lineWanted, hstart, anyActive, alertConfig_congr hcfg, hactive]
    rw [alertLinesFollow, halerts, hlines, hlines]
    exact hsl

/-! ## Blink phases -/

theorem signs_settle_same (hs : settled s = true) (hstart : u.startup = s.startup) (hcfg : u.cfg = s.cfg)
    (hhealth : u.health = s.health) (hsigns : u.signs = s.signs) : (settle u).signs = s.signs := by
  have hfollow : signsFollow u = true := by
    rw [← (settled_parts.1 hs).1]
    unfold signsFollow
    simp only [hsigns, fun l => signRequested_congr hstart hcfg hhealth (l := l) (by rw [hsigns])]
  rw [settle_signs, driveSigns_id hfollow, hsigns]

/-- Only lamps, port and the like written: signs stay, and so do all alert sources but LAMP_FAULT. -/
theorem settle_lampsWritten {bs cs : List Block} (hs : settled s = true) (h : changesOnly bs s u)
    (hb : ∀ b ∈ [Block.startup, .cfg, .health, .signs, .entry, .alerts, .peers, .probe], b ∉ bs := by decide)
    (hcs : bs ++ [.lamps, .entry, .alerts] ⊆ cs := by decide) :
    (settle u).signs = s.signs ∧ bareEntry (settle u).entry = bareEntry s.entry ∧
      (∀ y, y ≠ .lampFault → alertOf (settle u) y = alertOf s y) ∧ changesOnly cs s (settle u) := by
  have hstart : u.startup = s.startup := h .startup (hb _ (by simp))
  have hsigns : (settle u).signs = s.signs := signs_settle_same hs hstart (h .cfg (hb _ (by simp)))
    (h .health (hb _ (by simp))) (h .signs (hb _ (by simp)))
  refine ⟨hsigns, ?_, fun y hy => ?_, fun b hm => ?_⟩
  · rw [bareEntry_settle, show u.entry = s.entry from h .entry (hb _ (by simp))]
  · refine alertOf_settle_same hs hstart (alertOf_congr (h .alerts (hb _ (by simp))) y) ?_
    refine rawState_of_lamps h hy fun b hmem => hb b ?_
    simp only [List.mem_cons, List.not_mem_nil, or_false] at hmem ⊢
    tauto
  · by_cases hg : b = .signs
    · rw [hg]
      exact hsigns
    · refine changesOnly_append h (settle_changesOnly u) b fun hmem => hm (hcs ?_)
      simp only [List.mem_append, List.mem_cons, List.not_mem_nil, or_false] at hmem ⊢
      tauto

/-- R141: a lane whose group stands as it was shows what it showed. -/
theorem stopLine_settle_group {bs : List Block} (hs : settled s = true) (h : changesOnly bs s u) {k : Lane}
    (hgroup : groupFaulted u k = groupFaulted s k)
    (hb : ∀ b ∈ [Block.startup, .cfg, .health, .entry], b ∉ bs := by decide) :
    stopLine (settle u) k = stopLine s k := by
  have hcfg : u.cfg = s.cfg := h .cfg (hb _ (by simp))
  have hentry : u.entry = s.entry := h .entry (hb _ (by simp))
  have hline : stopLine u k = stopLine s k := by simp only [stopLine, hentry]
  have hacts : laneActs u k = laneActs s k := laneActs_congr (h .startup (hb _ (by simp))) hcfg k
  have hwanted : wantedAspect u k = wantedAspect s k :=
    wantedAspect_congr hcfg (h .health (hb _ (by simp))) hgroup (by rw [hline])
  rw [stopLine_settle, hacts, hwanted, hline]
  split
  next ha => exact followAspect_id (shows_of_settled hs ha)
  · rfl

/-! ## Outputs once they follow -/

theorem outputOf_settle_kept (u : State) (o : Output) :
    (outputOf (settle u) o).assignment = (outputOf u o).assignment ∧
      (outputOf (settle u) o).enable = (outputOf u o).enable ∧
      (outputOf (settle u) o).latch = (outputOf u o).latch := by
  rw [outputOf_settle]
  obtain ⟨ha, he, hl, -, -⟩ := followDrive_kept u.clock (demandOf (settle u) (outputOf u o).assignment)
    (isDriven u (outputOf u o) (demandOf (settle u) (outputOf u o).assignment)) (outputOf u o)
  exact ⟨ha, he, hl⟩

theorem proving_settle (u : State) : (settle u).lamps.proving = u.lamps.proving := by
  rw [settle_lamps]
  simp [driveLamps]

theorem followDrive_off {now : Clock} {d : Bool} {x : LampOutput} (h : x.on = false → x.openTimer = none) :
    (followDrive now d false x).openTimer = none := by
  unfold followDrive
  split
  next hon => exact h hon.symm
  next => rfl

/-- R125: no output of a faulted group is driven. -/
theorem isDriven_of_faulted {x : LampOutput} {l : Lane} {d : Bool} (hgroup : x.inGroup l = true)
    (h : groupFaulted s l = true) : isDriven s x d = false := by
  obtain ⟨m, hm⟩ := inGroup_iff.1 hgroup
  have hown : ownGroupFaulted s x = true := by
    unfold ownGroupFaulted
    rw [hm]
    exact h
  rw [isDriven, hown, Bool.not_true, Bool.and_false]

end

end Sys2Proof.Proofs
end

