-- ==== Sys2Proof/Proofs/LampEvents.lean ====
section
/-! PROOFS. Latched faults, the open-lamp judgement, and LAMP RESET (R122 to R127). -/

namespace Sys2Proof.Proofs

open Sys2Proof Sys2Proof.Machine

section

variable {s : State} {o : Output} {y : LampOutput}

theorem setOutput_touches (o : Output) (y : LampOutput) (s : State) :
    changesOnly [.lamps] s (setOutput o y s) := touches_lamps s _

/-! ## A fault is latched (R123 to R125) -/

/-- An output on which a fault is latched keeps its assignment and is still on. -/
structure LatchesFault (s : State) (o : Output) (y : LampOutput) : Prop where
  on : y.on = true
  assignment : y.assignment = (outputOf s o).assignment
  latch : y.latch ≠ .none

/-- What a latched fault leaves. -/
theorem faultLatched_settle (hs : settled s = true) (hf : LatchesFault s o y) :
    let t := settle (setOutput o y s)
    (outputOf t o).assignment = (outputOf s o).assignment ∧ (outputOf t o).latch = y.latch ∧
      (outputOf t o).enable = y.enable ∧
      (∀ q, q ≠ o → (outputOf t q).latch = (outputOf s q).latch ∧
        (outputOf t q).enable = (outputOf s q).enable ∧
        (outputOf t q).assignment = (outputOf s q).assignment) ∧
      t.lamps.proving = s.lamps.proving ∧ t.signs = s.signs ∧
      (∀ x, x ≠ .lampFault → alertOf t x = alertOf s x) ∧
      bareEntry t.entry = bareEntry s.entry ∧ changesOnly [.lamps, .entry, .alerts] s t := by
  intro t
  obtain ⟨hsigns, hentry, halerts, hframe⟩ :=
    settle_lampsWritten (cs := [.lamps, .entry, .alerts]) hs (setOutput_touches o y s)
  obtain ⟨ha, he, hl⟩ := outputOf_settle_kept (setOutput o y s) o
  rw [outputOf_setOutput_self] at ha he hl
  refine ⟨ha.trans hf.assignment, hl, he, fun q hq => ?_, proving_settle _, hsigns, halerts, hentry, hframe⟩
  obtain ⟨ha, he, hl⟩ := outputOf_settle_kept (setOutput o y s) q
  rw [outputOf_setOutput_ne y s hq] at ha he hl
  exact ⟨hl, he, ha⟩

/-- R122, R125: a latched fault darkens its whole group. -/
theorem faultLatched_dark (hs : settled s = true) (hf : LatchesFault s o y) {l : Lane}
    (hgroup : (outputOf s o).inGroup l = true) {q : Output} (hq : (outputOf s q).inGroup l = true) :
    (outputOf (settle (setOutput o y s)) q).on = false ∧
      (outputOf (settle (setOutput o y s)) q).openTimer = none := by
  have hsame (k : Output) : (outputOf (setOutput o y s) k).inGroup l = (outputOf s k).inGroup l := by
    rw [outputOf_setOutput]
    split
    next h => rw [h, LampOutput.inGroup, hf.assignment, LampOutput.inGroup]
    next => rfl
  have hfaulted : groupFaulted (setOutput o y s) l = true :=
    groupFaulted_iff.2 ⟨o, (hsame o).trans hgroup, by rw [outputOf_setOutput_self]; exact hf.latch⟩
  have hdark : isDriven (setOutput o y s) (outputOf (setOutput o y s) q)
      (demandOf (settle (setOutput o y s)) (outputOf (setOutput o y s) q).assignment) = false :=
    isDriven_of_faulted ((hsame q).trans hq) hfaulted
  rw [outputOf_settle, hdark]
  obtain ⟨-, -, -, -, hon⟩ := followDrive_kept (setOutput o y s).clock
    (demandOf (settle (setOutput o y s)) (outputOf (setOutput o y s) q).assignment) false
    (outputOf (setOutput o y s) q)
  refine ⟨hon, followDrive_off fun hoff => ?_⟩
  rw [outputOf_setOutput] at hoff ⊢
  split at hoff
  next => exact absurd hf.on (by rw [hoff]; exact Bool.false_ne_true)
  next hne =>
    rw [if_neg hne]
    have hfollows := outputFollows_of_settled hs q
    simp only [outputFollows, hoff, Bool.false_or, Bool.and_eq_true, Option.isNone_iff_eq_none] at hfollows
    exact hfollows.2.2

/-- R188: LAMP_FAULT is taken as it stands. -/
theorem faultLatched_remembered {c : Instr} (hs : settled s = true) (hw : working s = true)
    (hf : LatchesFault s o y) (hexec : exec c s = done (setOutput o y s)) :
    (alertOf (settle (setOutput o y s)) .lampFault).remembered = true ∧
      (alertOf (settle (setOutput o y s)) .lampFault).sticky = true := by
  have hsettled := exec_settled hs hexec
  have hraw : rawState (settle (setOutput o y s)) .lampFault = true := by
    rw [rawState_settle]
    exact rawState_lampFault.2 ⟨o, by rw [outputOf_setOutput_self]; exact hf.latch⟩
  have hw : working (settle (setOutput o y s)) = true := (working_congr (settle_startup _)).trans hw
  exact ⟨(remembered_of_settled hsettled hw rfl).trans hraw, sticky_of_settled hsettled hw rfl rfl hraw⟩

theorem judgeLow_of_proving {x : LampOutput} (h : provingRuns s x = true) :
    judgeLow s x = { x with low := true, latch := .open_, openTimer := none } := by rw [judgeLow, if_pos h]

theorem judgeLow_of_idle {x : LampOutput} (h : provingRuns s x = false) :
    judgeLow s x = { x with low := true, openTimer := some (later s.clock 200000) } := by
  rw [judgeLow, h, if_neg Bool.false_ne_true]

/-- R123, R124, R127: each of the three commands latches a fault on the output it names. -/
theorem latchCommand_faults {c : Instr} (hon : (outputOf s o).on = true)
    (hc : c = .overcurrent o ∨ (c = .openTimerExpiry o ∧ due s.clock (outputOf s o).openTimer = true) ∨
      (c = .currentBelowThreshold o ∧ (outputOf s o).blanking = none ∧ (outputOf s o).low = false ∧
        provingRuns s (outputOf s o) = true)) :
    ∃ y, exec c s = done (setOutput o y s) ∧ LatchesFault s o y ∧
      (c = .overcurrent o → y.latch = .overcurrent ∧ y.enable = false) ∧
      (c ≠ .overcurrent o → y.latch = .open_ ∧ y.enable = (outputOf s o).enable) := by
  obtain rfl | ⟨rfl, hdue⟩ | ⟨rfl, hblank, hlow, hproving⟩ := hc
  · exact ⟨{ outputOf s o with enable := false, latch := .overcurrent }, if_pos hon, ⟨hon, rfl, nofun⟩,
      fun _ => ⟨rfl, rfl⟩, fun h => absurd rfl h⟩
  · exact ⟨{ outputOf s o with latch := .open_, openTimer := none }, if_pos hdue, ⟨hon, rfl, nofun⟩, nofun,
      fun _ => ⟨rfl, rfl⟩⟩
  · refine ⟨judgeLow s (outputOf s o), if_pos (by rw [hon, hblank, hlow]; rfl), ?_, nofun, fun _ => ?_⟩
    · rw [judgeLow_of_proving hproving]
      exact ⟨hon, rfl, nofun⟩
    · rw [judgeLow_of_proving hproving]
      exact ⟨rfl, rfl⟩

end

/-- Settles O38: the three commands that latch a fault, and what a latched fault leaves. -/
theorem latchedFaultDarkensGroup : Obligations.LatchedFaultDarkensGroup := by
  unfold Obligations.LatchedFaultDarkensGroup
  intro s o l m c hs hw hon hassigned hc
  obtain ⟨y, hexec, hf, hover, hopen⟩ := latchCommand_faults hon hc
  obtain ⟨hassign, hlatch, henable, hother, hproving, hsigns, halerts, hentry, hframe⟩ :=
    faultLatched_settle hs hf
  obtain ⟨hremembered, hsticky⟩ := faultLatched_remembered hs hw hf hexec
  have hgroup : (outputOf s o).inGroup l = true := inGroup_iff.2 ⟨m, hassigned⟩
  rw [← hlatch, ← henable] at hover hopen
  exact ⟨_, hexec, hassign, hover, hopen, fun q hq => faultLatched_dark hs hf hgroup hq, hother, hproving,
    hsigns, hremembered, hsticky, halerts, hentry, hframe⟩

/-! ## The open-lamp judgement (R124, R127) -/

section

variable {s : State} {o : Output}

/-- What a judgement that latches nothing leaves. -/
theorem lowJudged {c : Instr} {y : LampOutput} (hs : settled s = true)
    (hexec : exec c s = done (setOutput o y s)) (hy : followedOutput (outputOf s o) y) :
    ∃ t, exec c s = .next t ∧ outputOf t o = y ∧ (∀ q, q ≠ o → outputOf t q = outputOf s q) ∧
      t.lamps.proving = s.lamps.proving ∧ changesOnly [.lamps] s t := by
  have hstays : settle (setOutput o y s) = setOutput o y s :=
    settle_followedOutputs hs (setOutput_touches o y s) fun q => by
      rw [outputOf_setOutput]
      split
      next h => exact h ▸ hy
      next => exact .inl rfl
  refine ⟨setOutput o y s, hexec.trans (congrArg _ hstays), outputOf_setOutput_self _ _ _,
    fun q hq => outputOf_setOutput_ne y s hq, rfl, setOutput_touches o y s⟩

theorem exec_blankingEnd {low : Bool} (hon : (outputOf s o).on = true)
    (hdue : due s.clock (outputOf s o).blanking = true) :
    exec (.blankingEnd o low) s =
      done (setOutput o
        (if low then judgeLow s { outputOf s o with blanking := none }
          else { outputOf s o with blanking := none, low := false }) s) :=
  if_pos (by rw [hon, hdue]; rfl)

/-- R122, R124: the commands that judge the current of an output and latch nothing. -/
theorem lowJudged_of {c : Instr} {y : LampOutput} (hon : (outputOf s o).on = true)
    (hc : provingRuns s (outputOf s o) = false ∧
        ((c = Instr.blankingEnd o true ∧ due s.clock (outputOf s o).blanking = true ∧
            y = { outputOf s o with
              blanking := none, low := true, openTimer := some (later s.clock 200000) }) ∨
          (c = .currentBelowThreshold o ∧ (outputOf s o).blanking = none ∧
            (outputOf s o).low = false ∧
            y = { outputOf s o with low := true, openTimer := some (later s.clock 200000) })) ∨
      (c = .blankingEnd o false ∧ due s.clock (outputOf s o).blanking = true ∧
        y = { outputOf s o with blanking := none, low := false }) ∨
      (c = .currentRisesToThreshold o ∧ (outputOf s o).blanking = none ∧
        (outputOf s o).low = true ∧ y = { outputOf s o with low := false, openTimer := none })) :
    exec c s = done (setOutput o y s) ∧ followedOutput (outputOf s o) y := by
  obtain ⟨hidle, ⟨rfl, hdue, rfl⟩ | ⟨rfl, hblank, hlow, rfl⟩⟩ | ⟨rfl, hdue, rfl⟩ | ⟨rfl, hblank, hlow, rfl⟩ := hc
  · have hidle : provingRuns s { outputOf s o with blanking := none } = false := hidle
    refine ⟨(exec_blankingEnd hon hdue).trans ?_, .inr ⟨rfl, rfl, rfl, rfl, rfl, hon⟩⟩
    rw [if_pos rfl, judgeLow_of_idle hidle]
  · rw [← judgeLow_of_idle hidle]
    refine ⟨if_pos (by rw [hon, hblank, hlow]; rfl), ?_⟩
    rw [judgeLow_of_idle hidle]
    exact .inr ⟨rfl, rfl, rfl, rfl, rfl, hon⟩
  · exact ⟨exec_blankingEnd hon hdue, .inr ⟨rfl, rfl, rfl, rfl, rfl, hon⟩⟩
  · exact ⟨if_pos (by rw [hon, hblank, hlow]; rfl), .inr ⟨rfl, rfl, rfl, rfl, rfl, hon⟩⟩

theorem provingRuns_iff {x : LampOutput} : provingRuns s x = true ↔
    ∃ l, x.inGroup l = true ∧ (s.lamps.proving.at l).isSome = true := by
  unfold provingRuns LampOutput.inGroup
  cases x.assignment <;> simp

end

/-- Settles O39: what is judged and latches nothing; the latch at once while proving. -/
theorem lowCurrentIsJudged : Obligations.LowCurrentIsJudged := by
  unfold Obligations.LowCurrentIsJudged
  intro s o hs hon
  refine ⟨fun c y hc => ?_, fun hproving hdue => ?_⟩
  · obtain ⟨hexec, hy⟩ := lowJudged_of hon hc
    exact lowJudged hs hexec hy
  · have hexec := exec_blankingEnd (low := true) hon hdue
    have hruns : provingRuns s { outputOf s o with blanking := none } = true := hproving
    rw [if_pos rfl, judgeLow_of_proving hruns] at hexec
    have hf : LatchesFault s o
        { outputOf s o with blanking := none, low := true, latch := .open_, openTimer := none } :=
      ⟨hon, rfl, nofun⟩
    obtain ⟨-, hlatch, henable, hother, hkept, -, halerts, hentry, hframe⟩ := faultLatched_settle hs hf
    obtain ⟨l, hgroup, -⟩ := provingRuns_iff.1 hproving
    obtain ⟨hoff, -⟩ := faultLatched_dark hs hf hgroup hgroup
    refine ⟨_, hexec, hlatch, henable, hoff, fun q hq => ?_, halerts, hkept, hentry, hframe⟩
    obtain ⟨hl, he, -⟩ := hother q hq
    exact ⟨hl, he⟩

/-! ## LAMP RESET (R126, R127) -/

section

variable {s : State} {l : Lane}

/-- R126, R196: the station once LAMP RESET has been answered, before outputs follow. -/
def groupReset (l : Lane) (s : State) : State := okAnswered (resetGroup l (beginLine s))

theorem resetGroup_touches (l : Lane) (s : State) : changesOnly [.lamps] s (resetGroup l s) := touches_lamps s _

theorem groupReset_touches (l : Lane) (s : State) : changesOnly [.port, .lamps] s (groupReset l s) :=
  changesOnly_mono (changesOnly_append (changesOnly_append (beginLine_touches s)
    (resetGroup_touches l (beginLine s))) (okAnswered_touches _)) (by decide)

theorem outputOf_groupReset (l : Lane) (s : State) (o : Output) :
    outputOf (groupReset l s) o =
      if (outputOf s o).inGroup l then resetOutput (outputOf s o) else outputOf s o :=
  outputOf_resetGroup l (beginLine s) o

theorem exec_lampReset (hp : portReady s = true) (hw : working s = true)
    (hrole : s.cfg.divert = true ∨ s.cfg.entry = true) (huse : laneInUse s l = true) :
    exec (.lampReset (laneNumber l)) s = done (groupReset l s) := by
  have hlane : laneArg (beginLine s) (laneNumber l) = some l := laneArg_laneNumber (s := beginLine s) huse
  have hrole : ((beginLine s).cfg.divert || (beginLine s).cfg.entry) = true := Bool.or_eq_true_iff.2 hrole
  have hjudged : judgeCommand (.lampReset (laneNumber l)) (beginLine s) =
      prints [] (resetGroup l (beginLine s)) := by
    rw [judgeCommand, judgeLampReset, if_pos hrole, hlane]
  exact portCommand_answered hp hw hjudged

theorem inGroup_resetOutput (x : LampOutput) (k : Lane) : (resetOutput x).inGroup k = x.inGroup k := rfl

theorem inGroup_disjoint {x : LampOutput} {k : Lane} (h : x.inGroup l = true) (hk : k ≠ l) :
    x.inGroup k = false := by
  obtain ⟨m, hm⟩ := inGroup_iff.1 h
  refine Bool.eq_false_iff.2 fun hin => ?_
  obtain ⟨m', hm'⟩ := inGroup_iff.1 hin
  rw [hm] at hm'
  exact hk (congrArg Prod.fst (Option.some.inj hm')).symm

theorem groupFaulted_groupReset_other {k : Lane} (hk : k ≠ l) :
    groupFaulted (groupReset l s) k = groupFaulted s k := by
  have hany (o : Output) : ((outputOf (groupReset l s) o).inGroup k &&
        decide ((outputOf (groupReset l s) o).latch ≠ .none)) =
      ((outputOf s o).inGroup k && decide ((outputOf s o).latch ≠ .none)) := by
    rw [outputOf_groupReset]
    split
    next h => rw [inGroup_resetOutput, inGroup_disjoint h hk, Bool.false_and, Bool.false_and]
    next => rfl
  exact congrArg (List.any allOutputs) (funext hany)

/-- R122: what is asked of an output follows its lane's sign and aspect. -/
theorem demandOf_of_lane {u : State} {k : Lane} (m : Lamp) (hsigns : u.signs = s.signs)
    (hline : stopLine u k = stopLine s k) : demandOf u (some (k, m)) = demandOf s (some (k, m)) := by
  cases m <;> simp only [demandOf, hsigns, hline]

/-- R122: an output of another group stays as it was. -/
theorem groupReset_other (hs : settled s = true) {o : Output} (ho : (outputOf s o).inGroup l = false) :
    outputOf (settle (groupReset l s)) o = outputOf s o := by
  have hkept : outputOf (groupReset l s) o = outputOf s o := by
    rw [outputOf_groupReset, ho, if_neg Bool.false_ne_true]
  have hsigns : (settle (groupReset l s)).signs = s.signs :=
    (settle_lampsWritten (cs := [.port, .lamps, .entry, .alerts]) hs (groupReset_touches l s)).1
  have hown : demandOf (settle (groupReset l s)) (outputOf s o).assignment =
        demandOf s (outputOf s o).assignment ∧
      ownGroupFaulted (groupReset l s) (outputOf s o) = ownGroupFaulted s (outputOf s o) := by
    unfold ownGroupFaulted
    cases ha : (outputOf s o).assignment with
    | none => exact ⟨rfl, rfl⟩
    | some a =>
      obtain ⟨k, m⟩ := a
      have hk : k ≠ l := fun e => by
        rw [inGroup_iff.2 ⟨m, e ▸ ha⟩] at ho
        cases ho
      have hgroup := groupFaulted_groupReset_other (s := s) hk
      exact ⟨demandOf_of_lane m hsigns (stopLine_settle_group hs (groupReset_touches l s) hgroup), hgroup⟩
  obtain ⟨hdemand, hfaulted⟩ := hown
  rw [outputOf_settle, hkept, hdemand]
  have hdriven : isDriven (groupReset l s) (outputOf s o) (demandOf s (outputOf s o).assignment) =
      isDriven s (outputOf s o) (demandOf s (outputOf s o).assignment) := by
    rw [isDriven, hfaulted, isDriven]
  rw [hdriven, show (groupReset l s).clock = s.clock from groupReset_touches l s .clock (by decide)]
  exact followDrive_id (outputFollows_of_settled hs o)

theorem followDrive_openTimer {now : Clock} {d v : Bool} {x : LampOutput} (h : x.openTimer = none) :
    (followDrive now d v x).openTimer = none := by
  unfold followDrive
  split
  · exact h
  · split <;> rfl

/-- R126, R127: what an output of the group keeps of the reset. -/
theorem groupReset_own {o : Output} (ho : (outputOf s o).inGroup l = true) :
    let x := outputOf (settle (groupReset l s)) o
    x.assignment = (outputOf s o).assignment ∧ x.enable = true ∧ x.openTimer = none ∧
      x.latch = if (outputOf s o).on = true ∧ (outputOf s o).blanking = none ∧
        (outputOf s o).low = true then .open_ else .none := by
  intro x
  have hreset : outputOf (groupReset l s) o = resetOutput (outputOf s o) := by
    rw [outputOf_groupReset, if_pos ho]
  obtain ⟨ha, he, hl⟩ := outputOf_settle_kept (groupReset l s) o
  rw [hreset] at ha he hl
  refine ⟨ha, he, ?_, hl.trans ?_⟩
  · have hx : x = outputOf (settle (groupReset l s)) o := rfl
    rw [hx, outputOf_settle]
    exact followDrive_openTimer (by rw [hreset]; rfl)
  · refine if_congr ?_ rfl rfl
    rw [Bool.and_eq_true, Bool.and_eq_true, Option.isNone_iff_eq_none, and_assoc]

/-- R126: once no output of the group is low, each is on while it is asked for. -/
theorem groupReset_on {o : Output} (hlow : ∀ q, (outputOf s q).inGroup l = true →
    (outputOf s q).on = true → (outputOf s q).low = false) (ho : (outputOf s o).inGroup l = true) :
    (outputOf (settle (groupReset l s)) o).on = (outputOf (settle (groupReset l s)) o).demand := by
  have hreset {q : Output} (hq : (outputOf s q).inGroup l = true) :
      outputOf (groupReset l s) q = resetOutput (outputOf s q) := by rw [outputOf_groupReset, if_pos hq]
  have hclear : groupFaulted (groupReset l s) l = false := by
    refine Bool.eq_false_iff.2 fun h => ?_
    obtain ⟨q, hq, hlatch⟩ := groupFaulted_iff.1 h
    have hin : (outputOf s q).inGroup l = true := by
      rw [outputOf_groupReset] at hq
      split at hq
      next hin => exact hin
      next => exact hq
    rw [hreset hin] at hlatch
    refine hlatch (if_neg fun hand => ?_)
    rw [Bool.and_eq_true, Bool.and_eq_true] at hand
    obtain ⟨⟨hon, -⟩, hl⟩ := hand
    rw [hlow q hin hon] at hl
    cases hl
  obtain ⟨m, hm⟩ := inGroup_iff.1 ho
  have hdriven (d : Bool) : isDriven (groupReset l s) (resetOutput (outputOf s o)) d = d := by
    have hown : ownGroupFaulted (groupReset l s) (resetOutput (outputOf s o)) = false := by
      unfold ownGroupFaulted
      rw [show (resetOutput (outputOf s o)).assignment = some (l, m) from hm]
      exact hclear
    rw [isDriven, hown, show (resetOutput (outputOf s o)).assignment = some (l, m) from hm]
    exact (Bool.and_true _).trans (Bool.true_and _)
  rw [outputOf_settle, hreset ho, hdriven]
  obtain ⟨-, -, -, hdemand, hon⟩ := followDrive_kept (groupReset l s).clock
    (demandOf (settle (groupReset l s)) (resetOutput (outputOf s o)).assignment)
    (demandOf (settle (groupReset l s)) (resetOutput (outputOf s o)).assignment) (resetOutput (outputOf s o))
  rw [hdemand, hon]

/-- R127: the proving timer stops, and nothing else follows it. -/
theorem provingEnds (hs : settled s = true) (hdue : due s.clock (s.lamps.proving.at l) = true) :
    ∃ t, exec (.provingTimerExpiry l) s = .next t ∧ t.lamps.proving.at l = none ∧
      sameBut l s.lamps.proving t.lamps.proving ∧ t.lamps.outputs = s.lamps.outputs ∧
      changesOnly [.lamps] s t := by
  let u : State := { s with lamps.proving := s.lamps.proving.put l none }
  have htouch : changesOnly [.lamps] s u := touches_lamps s _
  have hexec : exec (.provingTimerExpiry l) s = done u := if_pos hdue
  refine ⟨u, hexec.trans (congrArg _ (settle_followedOutputs hs htouch fun q => .inl rfl)),
    Tab.at_put_self _ _ _, fun k hk => Tab.at_put_ne _ _ hk, rfl, htouch⟩

end

/-- Settles O40: the outputs of the group, those of other groups, and the end of proving. -/
theorem lampResetBeginsProving : Obligations.LampResetBeginsProving := by
  unfold Obligations.LampResetBeginsProving
  intro s l hs hw
  refine ⟨fun hp hrole huse => ?_, provingEnds hs⟩
  obtain ⟨hsigns, hentry, halerts, hframe⟩ :=
    settle_lampsWritten (cs := [.port, .lamps, .entry, .alerts]) hs (groupReset_touches l s)
  have hproving : (settle (groupReset l s)).lamps.proving =
      s.lamps.proving.put l (some (later s.clock 100000)) := proving_settle _
  refine ⟨_, exec_lampReset hp hw hrole huse, okAnswered_port (resetGroup_touches l (beginLine s)), ?_, ?_,
    fun o ho => groupReset_own ho, fun hlow o ho => groupReset_on hlow ho,
    fun o ho => groupReset_other hs ho, hsigns, hentry, halerts, hframe⟩
  · rw [hproving, Tab.at_put_self]
  · rw [hproving]
    exact fun k hk => Tab.at_put_ne _ _ hk

end Sys2Proof.Proofs
end

