-- ==== Sys2Proof/Proofs/SignEvents.lean ====
section
/-! PROOFS. The divert decision and the signs (R115 to R119). -/

namespace Sys2Proof.Proofs

open Sys2Proof Sys2Proof.Machine

/-! ## The divert decision (R115, R116) -/

section

variable {s : State} {r : Record} {m : Option ApproachEntry}

/-- R115, as the statements say it. -/
def diverts (s : State) (r : Record) (m : Option ApproachEntry) : Prop :=
  r.effVerdict = .over ∨ r.effVerdict = .unweighed ∨
    (r.effVerdict = .border ∧ (r.confidence = .reduced ∨ ∃ e, m = some e ∧ e.confidence = .reduced)) ∨
    s.peers.posture ≠ .normal

theorem decisionConfidence_reduced : decisionConfidence r m = .reduced ↔
    r.confidence = .reduced ∨ ∃ e, m = some e ∧ e.confidence = .reduced := by
  cases m with
  | none => simp [decisionConfidence]
  | some e =>
    simp only [decisionConfidence, Confidence.worse, Option.some.injEq, exists_eq_left']
    split
    next h => exact ⟨fun _ => h, fun _ => rfl⟩
    next h => exact ⟨nofun, fun hor => absurd hor h⟩

theorem isDiverted_iff : isDiverted s r m = true ↔ diverts s r m := by
  simp only [isDiverted, diverts, Bool.or_eq_true, Bool.and_eq_true, decide_eq_true_eq,
    decisionConfidence_reduced]
  rw [or_assoc, or_assoc]
  exact or_congr_right or_left_comm

theorem mem_divertedLanes {k : Lane} : k ∈ divertedLanes r ↔ k = r.lane ∨ r.partner = some k := by
  rw [divertedLanes, List.mem_cons, Option.mem_toList]

/-- R117: the signs once the timers of some lanes run their full hold time. -/
def signsExtended (ls : List Lane) (s : State) : State := ls.foldl (fun s l => extendSign l s) s

theorem signsExtended_touches (ls : List Lane) (s : State) : changesOnly [.signs] s (signsExtended ls s) :=
  extendSigns_touches ls s

theorem signsExtended_at (ls : List Lane) (s : State) (k : Lane) :
    (signsExtended ls s).signs.at k =
      if k ∈ ls then { s.signs.at k with timer := some (later s.clock (s.cfg.signHold * 1000000)) }
      else s.signs.at k := by
  induction ls generalizing s with
  | nil => rfl
  | cons l ls ih =>
    have hstep : signsExtended (l :: ls) s = signsExtended ls (extendSign l s) := rfl
    have hself : (extendSign l s).signs.at k =
        if k = l then { s.signs.at k with timer := some (later s.clock (s.cfg.signHold * 1000000)) }
        else s.signs.at k := by
      by_cases hk : k = l
      · rw [if_pos hk, hk]
        exact Tab.at_upd_self _ _ _
      · rw [if_neg hk]
        exact Tab.at_upd_ne _ _ hk
    rw [hstep, ih, hself]
    by_cases hin : k ∈ ls
    · rw [if_pos hin, if_pos (List.mem_cons_of_mem l hin)]
      split <;> rfl
    · rw [if_neg hin]
      by_cases hk : k = l
      · rw [if_pos hk, if_pos (hk ▸ List.mem_cons_self)]
      · rw [if_neg hk, if_neg (by simp [hk, hin])]

/-- R116: the sign of a lane works. -/
def signWorks (s : State) (k : Lane) : Prop :=
  ∀ o, (outputOf s o).inGroup k = true → (outputOf s o).latch = .none

theorem signWorks_iff {k : Lane} : signWorks s k ↔ groupFaulted s k = false := by
  rw [← Bool.not_eq_true, groupFaulted_iff]
  exact ⟨fun h ⟨o, ho, hl⟩ => hl (h o ho), fun h o ho => not_not.1 fun hl => h ⟨o, ho, hl⟩⟩

theorem anyWorks_iff : ((divertedLanes r).any fun l => !groupFaulted (signsExtended (divertedLanes r) s) l) = true ↔
    ∃ k, (k = r.lane ∨ r.partner = some k) ∧ signWorks s k := by
  have hgroup (l : Lane) : groupFaulted (signsExtended (divertedLanes r) s) l = groupFaulted s l :=
    groupFaulted_congr (signsExtended_touches _ s .lamps (by decide)) l
  simp only [List.any_eq_true, hgroup, Bool.not_eq_true', mem_divertedLanes, signWorks_iff]

theorem divertRecord_of_stays (h : s.cfg.divert = false ∨ ¬diverts s r m) : divertRecord r m s = (r, s) := by
  refine if_neg fun hand => ?_
  obtain ⟨hrole, hdiv⟩ := Bool.and_eq_true_iff.1 hand
  obtain hno | hno := h
  · rw [hno] at hrole
    cases hrole
  · exact hno (isDiverted_iff.1 hdiv)

theorem divertRecord_of_diverts (hrole : s.cfg.divert = true) (h : diverts s r m) :
    divertRecord r m s =
      if (divertedLanes r).any fun l => !groupFaulted (signsExtended (divertedLanes r) s) l then
        ({ r with directed := true },
          countLane r.lane (fun c => { c with diverted := c.diverted + 1 })
            (signsExtended (divertedLanes r) s))
      else (r, signsExtended (divertedLanes r) s) :=
  if_pos (Bool.and_eq_true_iff.2 ⟨hrole, isDiverted_iff.2 h⟩)

/-- R116: DIRECTED where a sign works. -/
theorem divertRecord_of_works (hrole : s.cfg.divert = true) (h : diverts s r m)
    (hworks : ∃ k, (k = r.lane ∨ r.partner = some k) ∧ signWorks s k) :
    divertRecord r m s =
      ({ r with directed := true },
        countLane r.lane (fun c => { c with diverted := c.diverted + 1 })
          (signsExtended (divertedLanes r) s)) := by
  rw [divertRecord_of_diverts hrole h, if_pos (anyWorks_iff.2 hworks)]

theorem divertRecord_of_dark (hrole : s.cfg.divert = true) (h : diverts s r m)
    (hdark : ∀ k, (k = r.lane ∨ r.partner = some k) → ¬signWorks s k) :
    divertRecord r m s = (r, signsExtended (divertedLanes r) s) := by
  rw [divertRecord_of_diverts hrole h,
    if_neg fun hany => (anyWorks_iff.1 hany).elim fun k ⟨hk, hw⟩ => hdark k hk hw]

theorem divertRecord_signs (hrole : s.cfg.divert = true) (h : diverts s r m) :
    (divertRecord r m s).2.signs = (signsExtended (divertedLanes r) s).signs := by
  rw [divertRecord_of_diverts hrole h]
  split <;> rfl

end

/-! ## Timers and blink phases (R117 to R119) -/

section

variable {s u : State} {l : Lane}

/-- What only signs were written for: the entry controller and the alert unit stay. -/
theorem settle_signsWritten (hs : settled s = true) (h : changesOnly [.signs] s u) :
    bareLamps (settle u).lamps = bareLamps s.lamps ∧ changesOnly [.signs, .lamps] s (settle u) := by
  have hstart : u.startup = s.startup := h .startup (by decide)
  have hcfg : u.cfg = s.cfg := h .cfg (by decide)
  have hhealth : u.health = s.health := h .health (by decide)
  have hlamps : u.lamps = s.lamps := h .lamps (by decide)
  have hentry : u.entry = s.entry := h .entry (by decide)
  have hfollow : aspectsFollow (driveSigns u) = true := by
    rw [← (settled_parts.1 hs).2.1]
    have hwanted (k : Lane) : wantedAspect (driveSigns u) k = wantedAspect s k :=
      wantedAspect_congr (s := s) (t := driveSigns u) hcfg hhealth (groupFaulted_congr hlamps k)
        (congrArg (fun e => StopLine.head (Tab.at (EntryController.lanes e) k)) hentry)
    have hacts (k : Lane) : laneActs (driveSigns u) k = laneActs s k :=
      laneActs_congr (s := s) (t := driveSigns u) hstart hcfg k
    have hline (k : Lane) : stopLine (driveSigns u) k = stopLine s k :=
      congrArg (fun e => Tab.at (EntryController.lanes e) k) hentry
    simp only [aspectsFollow, hwanted, hacts, hline]
  have hkept : (settle u).entry = s.entry := by
    rw [settle_entry, driveAspects_id hfollow]
    exact hentry
  have halerts : (settle u).alerts = s.alerts :=
    settle_alerts_same hs hstart hcfg (h .alerts (by decide)) fun y =>
      rawState_congr hlamps hcfg hhealth hentry (congrArg Peers.posture (h .peers (by decide)))
        (congrArg Probe.theta (h .probe (by decide))) y
  refine ⟨bareLamps_settle_same hlamps, fun b hm => ?_⟩
  by_cases he : b = .entry
  · rw [he]
    exact hkept
  by_cases ha : b = .alerts
  · rw [ha]
    exact halerts
  · refine changesOnly_append h (settle_changesOnly u) b fun hmem => hm ?_
    simp only [List.mem_append, List.mem_cons, List.not_mem_nil, or_false] at hmem ⊢
    tauto

theorem signs_settle_at (u : State) (k : Lane) :
    (settle u).signs.at k = followRequest u.clock (signRequested u k) (u.signs.at k) := by
  rw [settle_signs, signs_driveSigns]

/-- R118: a phase that stands as the request asks stays. -/
theorem followRequest_id {now : Clock} {requested : Bool} {x : Sign} (h : x.blink.isSome = requested) :
    followRequest now requested x = x := by
  subst h
  obtain ⟨timer, blink⟩ := x
  cases blink <;> rfl

theorem requested_of_settled (hs : settled s = true) (k : Lane) :
    (s.signs.at k).blink.isSome = signRequested s k := signsFollow_iff.1 (settled_parts.1 hs).1 k

/-- R118: the other signs stay. -/
theorem signs_settle_other (hs : settled s = true) (h : changesOnly [.signs] s u) {k : Lane}
    (hk : u.signs.at k = s.signs.at k) : (settle u).signs.at k = s.signs.at k := by
  have hrequested : signRequested u k = signRequested s k :=
    signRequested_congr (h .startup (by decide)) (h .cfg (by decide)) (h .health (by decide)) (by rw [hk])
  rw [signs_settle_at, hrequested, hk]
  exact followRequest_id (requested_of_settled hs k)

/-- R117: the signs once a sign timer has stopped. -/
def timerStopped (l : Lane) (s : State) : State :=
  { s with signs := s.signs.upd l fun x => { x with timer := none } }

theorem timerStopped_at (l : Lane) (s : State) :
    (timerStopped l s).signs.at l = { s.signs.at l with timer := none } := Tab.at_upd_self _ _ _

theorem signTimerExpiry_spec (hs : settled s = true) (hw : working s = true) (hrole : s.cfg.divert = true)
    (huse : laneInUse s l = true) (hdue : due s.clock (s.signs.at l).timer = true) :
    ∃ t, exec (.signTimerExpiry l) s = .next t ∧ (t.signs.at l).timer = none ∧
      (laneMode s l ≠ .blind → (t.signs.at l).blink = none) ∧
      (laneMode s l = .blind → (t.signs.at l).blink = (s.signs.at l).blink) ∧
      sameBut l s.signs t.signs ∧ bareLamps t.lamps = bareLamps s.lamps ∧
      changesOnly [.signs, .lamps] s t := by
  have htouch : changesOnly [.signs] s (timerStopped l s) := touches_signs s _
  have hexec : exec (.signTimerExpiry l) s = done (timerStopped l s) := if_pos hdue
  obtain ⟨hlamps, hframe⟩ := settle_signsWritten hs htouch
  have hrequested : signRequested (timerStopped l s) l = decide (laneMode s l = .blind) := by
    have hmode : laneMode (timerStopped l s) l = laneMode s l := rfl
    rw [signRequested, timerStopped_at, hmode, show working (timerStopped l s) = true from hw,
      show (timerStopped l s).cfg.divert = true from hrole,
      show laneInUse (timerStopped l s) l = true from huse]
    rfl
  have hself := signs_settle_at (timerStopped l s) l
  rw [hrequested, timerStopped_at] at hself
  refine ⟨_, hexec, ?_, fun hm => ?_, fun hm => ?_, fun k hk => ?_, hlamps, hframe⟩
  · rw [hself, followRequest_timer]
  · rw [hself, decide_eq_false hm]
    rfl
  · have hblink : (s.signs.at l).blink.isSome = true := by
      rw [requested_of_settled hs, signRequested, hw, hrole, huse, decide_eq_true hm, Bool.or_true]
      rfl
    have hstays : ({ s.signs.at l with timer := none } : Sign).blink.isSome =
        decide (laneMode s l = .blind) := hblink.trans (decide_eq_true hm).symm
    rw [hself, followRequest_id hstays]
  · exact signs_settle_other hs htouch (Tab.at_upd_ne _ _ hk)

theorem blinkPhaseToggle_steady {b : Blink} (hb : (s.signs.at l).blink = some b) (hflash : s.cfg.flash = false) :
    exec (.blinkPhaseToggle l) s = .next s := by
  simp only [exec, execBlinkPhaseToggle, hb, hflash, Bool.false_eq_true, false_and, if_false]
  rfl

/-- R119: the signs once a blink phase has changed. -/
def phaseToggled (l : Lane) (b : Blink) (s : State) : State :=
  { s with signs := s.signs.upd l fun x => { x with blink := some b.next } }

theorem blinkPhaseToggle_flash {b : Blink} (hs : settled s = true) (hb : (s.signs.at l).blink = some b)
    (hdue : atOrAfter s.clock b.changeAt = true) (hflash : s.cfg.flash = true) :
    ∃ t, exec (.blinkPhaseToggle l) s = .next t ∧
      t.signs.at l =
        { s.signs.at l with blink := some { on := !b.on, changeAt := later b.changeAt 500000 } } ∧
      sameBut l s.signs t.signs ∧ bareLamps t.lamps = bareLamps s.lamps ∧
      changesOnly [.signs, .lamps] s t := by
  have htouch : changesOnly [.signs] s (phaseToggled l b s) := touches_signs s _
  have hexec : exec (.blinkPhaseToggle l) s = done (phaseToggled l b s) := by
    simp only [exec, execBlinkPhaseToggle, hb, hflash, hdue, and_self, if_true]
    rfl
  obtain ⟨hlamps, hframe⟩ := settle_signsWritten hs htouch
  have hat : (phaseToggled l b s).signs.at l = { s.signs.at l with blink := some b.next } :=
    Tab.at_upd_self _ _ _
  have hrequested : signRequested (phaseToggled l b s) l = true := by
    have hsame : signRequested (phaseToggled l b s) l = signRequested s l :=
      signRequested_congr (s := s) (t := phaseToggled l b s) rfl rfl rfl (congrArg Sign.timer hat :)
    rw [hsame, ← requested_of_settled hs, hb]
    rfl
  refine ⟨_, hexec, ?_, fun k hk => ?_, hlamps, hframe⟩
  · rw [signs_settle_at, hrequested, hat]
    exact followRequest_id rfl
  · exact signs_settle_other hs htouch (Tab.at_upd_ne _ _ hk)

end

/-- Settles O37: the divert decision case by case; the timers and phases of the signs. -/
theorem divertDecisionsRunSigns : Obligations.DivertDecisionsRunSigns := by
  unfold Obligations.DivertDecisionsRunSigns
  refine ⟨?_, fun s l hs hw hrole huse => ⟨signTimerExpiry_spec hs hw hrole huse, fun b hb hdue =>
    ⟨blinkPhaseToggle_steady hb, blinkPhaseToggle_flash hs hb hdue⟩⟩⟩
  intro s r m diverted extended works t
  refine ⟨fun h => divertRecord_of_stays h, fun hrole hdiv => ?_⟩
  have hsigns : t.signs = (signsExtended (divertedLanes r) s).signs := divertRecord_signs hrole hdiv
  refine ⟨fun k hk => ?_, fun k hk => ?_, fun hworks => ?_, fun hdark => ?_⟩
  · rw [hsigns, signsExtended_at, if_pos (mem_divertedLanes.2 hk)]
  · rw [hsigns, signsExtended_at, if_neg (mt mem_divertedLanes.1 hk)]
  · have ht := divertRecord_of_works hrole hdiv hworks
    have hcounters : (signsExtended (divertedLanes r) s).counters = s.counters :=
      signsExtended_touches _ s .counters (by decide)
    have hlanes : t.counters.lanes =
        s.counters.lanes.upd r.lane fun c => { c with diverted := c.diverted + 1 } := by
      rw [← hcounters]
      exact congrArg (fun x => x.2.counters.lanes) ht
    refine ⟨congrArg Prod.fst ht, ?_, fun k hk => ?_, divertRecord_touches r m s⟩
    · rw [hlanes, Tab.at_upd_self]
    · rw [hlanes, Tab.at_upd_ne _ _ hk]
  · have ht := divertRecord_of_dark hrole hdiv hdark
    refine ⟨congrArg Prod.fst ht, ?_⟩
    have hstate : t = signsExtended (divertedLanes r) s := congrArg Prod.snd ht
    rw [hstate]
    exact signsExtended_touches _ s

end Sys2Proof.Proofs
end

