-- ==== Sys2Proof/Proofs/JoinsBeside.lean ====
section
/-! PROOFS. What a record joining its stop-line queue does not look at: open vehicles, the serial counter,
the approach list, and the traffic counters but for `stopped` (R130, R131). -/

namespace Sys2Proof.Proofs

open Sys2Proof Sys2Proof.Machine

/-- A station with other vehicles, serial counter, approach list and traffic counters. -/
def besides (v : Tab (Option OpenVehicle) 4) (n : BitVec 12) (a : Approach)
    (f : Tab LaneCounts 4 → Tab LaneCounts 4) (s : State) : State :=
  { s with
    vehicles := v, nextSerial := n, approach := a
    counters := { s.counters with lanes := f s.counters.lanes } }

/-- One more stopped vehicle in a lane (R132). -/
def oneStopped (l : Lane) (x : Tab LaneCounts 4) : Tab LaneCounts 4 :=
  x.upd l fun c => { c with stopped := c.stopped + 1 }

section

variable {v : Tab (Option OpenVehicle) 4} {n : BitVec 12} {a : Approach}
  {f : Tab LaneCounts 4 → Tab LaneCounts 4} {s : State}

theorem raise_besides (x : AlertSource) :
    raise x (besides v n a f s) = besides v n a f (raise x s) := by
  cases h : working s with
  | true => rw [raise_of_working x h, raise_of_working (s := besides v n a f s) x h]; rfl
  | false =>
    have hidle {u : State} (hu : working u = false) : raise x u = u := by
      rw [raise, hu, if_neg Bool.false_ne_true]
    rw [hidle h, hidle (u := besides v n a f s) h]

theorem takeIntoFlight_besides :
    takeIntoFlight (besides v n a f s) = besides v n a f (takeIntoFlight s) := by
  cases hq : s.line.queue with
  | nil =>
    have hstays {u : State} (hu : u.line.queue = []) : takeIntoFlight u = u := by
      simp only [takeIntoFlight, hu]
    rw [hstays hq, hstays (u := besides v n a f s) hq]
  | cons w ws =>
    have hfreed : lineFreed (besides v n a f s) = lineFreed s := lineFreed_congr rfl rfl
    rw [takeIntoFlight_of_cons hq, takeIntoFlight_of_cons (s := besides v n a f s) hq, hfreed]
    rfl

theorem dropFrame_besides : dropFrame (besides v n a f s) = besides v n a f (dropFrame s) :=
  raise_besides (s := countLine (fun c => { c with drops := c.drops + 1 }) s) .txDrop

theorem queueFrame_besides (x : Notice) :
    queueFrame x (besides v n a f s) = besides v n a f (queueFrame x s) := by
  have hqueue : (besides v n a f s).line = s.line := rfl
  unfold queueFrame
  dsimp only
  rw [hqueue]
  cases replaceWaiting x s.line.queue with
  | some q => rfl
  | none =>
    dsimp only
    split
    · rfl
    · split
      · exact dropFrame_besides (s := { s with
          line.queue := joinQueue ⟨x, s.clock⟩ s.line.queue.dropLast })
      · exact dropFrame_besides (s := s)

theorem queueEntered_besides (l : Lane) (r : Record) (w : Nat) :
    queueEntered l r w (besides v n a f s) = besides v n a f (queueEntered l r w s) := by
  unfold queueEntered
  cases r.tag with
  | none => rfl
  | some g =>
    exact (congrArg takeIntoFlight (queueFrame_besides _)).trans takeIntoFlight_besides

theorem arbiterFrom_besides (ls : List Lane) :
    arbiterFrom ls (besides v n a f s) = besides v n a f (arbiterFrom ls s) := by
  induction ls generalizing s with
  | nil => rfl
  | cons l rest ih =>
    have hline : stopLine (besides v n a f s) l = stopLine s l := rfl
    have hfits (w : Nat) : fits (besides v n a f s) w = fits s w := rfl
    have hweight (r : Record) : admissionWeight (besides v n a f s) r = admissionWeight s r := rfl
    unfold arbiterFrom
    rw [hline]
    cases (stopLine s l).head with
    | held w since =>
      cases (stopLine s l).queue with
      | nil => rfl
      | cons r behind =>
        dsimp only
        rw [hweight, hfits]
        split
        · exact ih (s := leaveHeld l (setHead l (.admitted (admissionWeight s r)) s))
        · rfl
    | none => rfl
    | free => rfl
    | stop => rfl
    | admitted w => rfl

theorem runArbiter_besides : runArbiter (besides v n a f s) = besides v n a f (runArbiter s) := by
  have hacts : entryActs (besides v n a f s) = entryActs s := rfl
  unfold runArbiter
  rw [hacts]
  split
  · exact arbiterFrom_besides _
  · rfl

theorem spanTaken_besides (g : Option Tag) (e : Tag → SpanEntry) :
    spanTaken g e (besides v n a f s) = besides v n a f (spanTaken g e s) := by
  have hheads : admittedHeads (besides v n a f s) = admittedHeads s := rfl
  unfold spanTaken
  cases g with
  | none => rfl
  | some g =>
    have hentry : (besides v n a f s).entry = s.entry := rfl
    dsimp only
    rw [hheads, hentry]
    split
    · rfl
    · exact raise_besides (s := { s with
        entry := { s.entry with
          lost := true, recovery := some (later s.clock (s.cfg.transit * 1000000)) } }) .accountingLost

theorem entryRaised_unseen (l : Lane) (stop : Bool) (s : State) :
    entryRaised l stop true s = leaveHeld l (popHead l s) := by
  unfold entryRaised
  cases stop <;> rfl

theorem entered_besides (l : Lane) (r : Record) (stop : Bool) :
    entered l r stop true (besides v n a f s) = besides v n a f (entered l r stop true s) := by
  unfold entered
  rw [entryRaised_unseen, entryRaised_unseen]
  exact (congrArg (queueEntered l r (nonAdmittedWeight s r))
    (spanTaken_besides (s := leaveHeld l (popHead l s)) r.tag (unadmittedEntry l r stop true s))).trans
      (queueEntered_besides _ _ _)

theorem regularCrossing_besides (l : Lane) (r : Record) (w : Nat) :
    regularCrossing l r w true (besides v n a f s) = besides v n a f (regularCrossing l r w true s) := by
  unfold regularCrossing
  cases r.tag with
  | none => exact runArbiter_besides (s := popHead l s)
  | some g =>
    exact (congrArg (queueEntered l r w) (runArbiter_besides
      (s := joinSpan { spanEntry s l g w with unseen := true } (popHead l s)))).trans
        (queueEntered_besides _ _ _)

/-- R131: a head that leaves unseen. -/
theorem headLeft_besides (l : Lane) (r : Record) :
    headLeft l r true (besides v n a f s) = besides v n a f (headLeft l r true s) := by
  have hline : stopLine (besides v n a f s) l = stopLine s l := rfl
  cases h : (stopLine s l).head with
  | none => simp only [headLeft, hline, h]; rfl
  | free => simp only [headLeft, hline, h]; rfl
  | admitted w => simp only [headLeft, hline, h, regularCrossing_besides]
  | held w c =>
    rw [headLeft_of_held h, headLeft_of_held (s := besides v n a f s) h, entered_besides, runArbiter_besides]
  | stop => rw [headLeft_of_stop h, headLeft_of_stop (s := besides v n a f s) h, entered_besides]

/-- The counters of the other station count stops alike. -/
theorem stopCounted_besides (hf : ∀ l x, f (oneStopped l x) = oneStopped l (f x)) (l : Lane) (r : Record) :
    stopCounted l r (besides v n a f s) = besides v n a f (stopCounted l r s) := by
  unfold stopCounted
  rw [raise_besides]
  have hcounted (u : State) : countLane l (fun c => { c with stopped := c.stopped + 1 }) (besides v n a f u) =
      besides v n a f (countLane l (fun c => { c with stopped := c.stopped + 1 }) u) := by
    have hlanes := hf l u.counters.lanes
    unfold oneStopped at hlanes
    unfold countLane besides
    rw [hlanes]
  exact hcounted _

theorem insertHeld_besides (now : Clock) (l : Lane) (ks : List Lane) :
    insertHeld (besides v n a f s) now l ks = insertHeld s now l ks := by
  have hheld (k : Lane) : holdTime (besides v n a f s) k = holdTime s k := rfl
  induction ks with
  | nil => rfl
  | cons k ks ih =>
    unfold insertHeld
    rw [hheld, ih]

theorem becomeHeld_besides (l : Lane) (w : Nat) :
    becomeHeld l w (besides v n a f s) = besides v n a f (becomeHeld l w s) := by
  have hset := insertHeld_besides (v := v) (n := n) (a := a) (f := f) (s := s) s.clock l s.entry.held
  unfold becomeHeld
  dsimp only
  rw [show (besides v n a f s).entry.held = s.entry.held from rfl,
    show (besides v n a f s).clock = s.clock from rfl, hset]
  rfl

theorem evaluateHead_besides (hf : ∀ l x, f (oneStopped l x) = oneStopped l (f x)) (l : Lane) :
    evaluateHead l (besides v n a f s) = besides v n a f (evaluateHead l s) := by
  have hline : stopLine (besides v n a f s) l = stopLine s l := rfl
  have hfront : frontHead l (besides v n a f s) = frontHead l s := rfl
  rw [evaluateHead_eq, evaluateHead_eq, hline, hfront]
  cases (stopLine s l).queue with
  | nil =>
    cases frontHead l s with
    | held w since => exact becomeHeld_besides l w
    | _ => rfl
  | cons r rest =>
    cases frontHead l s with
    | stop => exact stopCounted_besides hf (s := setHead l .stop s) l r
    | held w since => exact becomeHeld_besides l w
    | _ => rfl

theorem headEnters_besides (hf : ∀ l x, f (oneStopped l x) = oneStopped l (f x)) (l : Lane) :
    headEnters l true (besides v n a f s) = besides v n a f (headEnters l true s) := by
  cases hq : (stopLine s l).queue with
  | nil =>
    have hstays {u : State} (hu : (stopLine u l).queue = []) : headEnters l true u = u := by
      simp only [headEnters, hu]
    rw [hstays hq, hstays (u := besides v n a f s) hq]
  | cons r rest =>
    rw [headEnters_of_cons hq, headEnters_of_cons (s := besides v n a f s) hq, headLeft_besides,
      evaluateHead_besides hf]

theorem roomMade_besides (hf : ∀ l x, f (oneStopped l x) = oneStopped l (f x)) (l : Lane) :
    roomMade l (besides v n a f s) = besides v n a f (roomMade l s) := by
  have hline : stopLine (besides v n a f s) l = stopLine s l := rfl
  unfold roomMade overflowQueue
  rw [hline]
  split
  · rw [raise_besides, headEnters_besides hf]
  · rfl

/-- R130, R131: a record joins alike. -/
theorem joinStopLine_besides (hf : ∀ l x, f (oneStopped l x) = oneStopped l (f x)) (r : Record) :
    joinStopLine r (besides v n a f s) = besides v n a f (joinStopLine r s) := by
  have hline (u : State) : stopLine (besides v n a f u) r.lane = stopLine u r.lane := rfl
  rw [joinStopLine_eq, joinStopLine_eq, roomMade_besides hf, hline]
  split
  · exact evaluateHead_besides hf (s := atTail r (roomMade r.lane s)) r.lane
  · rfl

end

end Sys2Proof.Proofs
end

