-- ==== Sys2Proof/Proofs/RecordsJoin.lean ====
section
/-! PROOFS. What a record joining its stop-line queue leaves of counters, sources, span set and line
(R130, R131, R147). -/

namespace Sys2Proof.Proofs

open Sys2Proof Sys2Proof.Machine

section

variable {s : State} {l : Lane} {r : Record}

/-! ## A head that leaves unseen (R131) -/

theorem queueEntered_touches_line (l : Lane) (r : Record) (w : Nat) (s : State) :
    changesOnly [.line, .alerts] s (queueEntered l r w s) := queueEntered_touches l r w s

theorem entered_unseen_touches (l : Lane) (r : Record) (stop : Bool) (s : State) :
    changesOnly [.entry, .line, .alerts] s (entered l r stop true s) := by
  have hgone : changesOnly [.entry] s (leaveHeld l (popHead l s)) :=
    changesOnly_trans (touches_entry s _) (touches_entry _ _)
  unfold entered
  rw [entryRaised_unseen]
  exact changesOnly_mono (changesOnly_append (changesOnly_append hgone (spanTaken_touches r.tag
    (unadmittedEntry l r stop true s) _)) (queueEntered_touches_line l r (nonAdmittedWeight s r) _)) (by decide)

theorem headLeft_unseen_touches (l : Lane) (r : Record) (s : State) :
    changesOnly [.entry, .line, .alerts] s (headLeft l r true s) := by
  have hpop : changesOnly [.entry] s (popHead l s) := touches_entry s _
  have hrun (u : State) : changesOnly [.entry] u (runArbiter u) := runArbiter_touches u
  cases h : (stopLine s l).head with
  | none =>
    simp only [headLeft, h]
    exact changesOnly_mono hpop (by decide)
  | free => exact changesOnly_mono (headLeft_free_touches h) (by decide)
  | admitted w =>
    simp only [headLeft, h, regularCrossing]
    split
    next g _ =>
      have hjoined : changesOnly [.entry] s
          (joinSpan { spanEntry s l g w with unseen := true } (popHead l s)) :=
        changesOnly_trans hpop (touches_entry _ _)
      exact changesOnly_mono (changesOnly_append (changesOnly_trans hjoined (hrun _))
        (queueEntered_touches_line l r w _)) (by decide)
    · exact changesOnly_mono (changesOnly_trans hpop (hrun _)) (by decide)
  | held w c =>
    rw [headLeft_of_held h]
    exact changesOnly_mono (changesOnly_append (entered_unseen_touches l r false s) (hrun _)) (by decide)
  | stop =>
    rw [headLeft_of_stop h]
    exact entered_unseen_touches l r true s

/-- R150: no entry becomes OVERDUE where only entries of this moment join. -/
def overdueKept (s u : State) : Prop :=
  u.entry.span.any SpanEntry.overdue = s.entry.span.any SpanEntry.overdue

theorem overdueKept_of_span {u : State} (h : u.entry.span = s.entry.span) : overdueKept s u := by
  unfold overdueKept
  rw [h]

theorem overdueKept_of_joined {u : State} {e : SpanEntry} (h : u.entry.span = s.entry.span ++ [e])
    (he : e.overdue = false) : overdueKept s u := by
  unfold overdueKept
  rw [h, List.any_append, List.any_cons, he]
  simp

theorem runArbiter_span (u : State) : (runArbiter u).entry.span = u.entry.span :=
  headsOnly_span (runArbiter_headsOnly u)

theorem entered_overdue (l : Lane) (r : Record) (stop : Bool) (s : State) :
    overdueKept s (entered l r stop true s) := by
  have hqueued (w : Nat) (u : State) : (queueEntered l r w u).entry = u.entry :=
    queueEntered_touches l r w u .entry (by decide)
  have hgone : (leaveHeld l (popHead l s)).entry.span = s.entry.span := rfl
  unfold entered
  rw [entryRaised_unseen]
  unfold overdueKept
  rw [hqueued]
  unfold spanTaken
  split
  · split
    · exact overdueKept_of_joined (u := joinSpan (unadmittedEntry l r stop true s _) (leaveHeld l (popHead l s)))
        rfl rfl
    · refine overdueKept_of_span (u := setLost (leaveHeld l (popHead l s))) ?_
      have hkept := raise_touches .accountingLost
        { leaveHeld l (popHead l s) with
          entry := { (leaveHeld l (popHead l s)).entry with
            lost := true, recovery := some (later s.clock (s.cfg.transit * 1000000)) } } .entry (by decide)
      exact (congrArg EntryController.span hkept :)
  · exact overdueKept_of_span hgone

theorem headLeft_overdue (l : Lane) (r : Record) (s : State) : overdueKept s (headLeft l r true s) := by
  have hqueued (w : Nat) (u : State) : (queueEntered l r w u).entry = u.entry :=
    queueEntered_touches l r w u .entry (by decide)
  cases h : (stopLine s l).head with
  | none =>
    simp only [headLeft, h]
    exact overdueKept_of_span rfl
  | free =>
    rw [headLeft_of_free h]
    exact overdueKept_of_span rfl
  | admitted w =>
    simp only [headLeft, h, regularCrossing]
    split
    next g _ =>
      refine overdueKept_of_joined (e := { spanEntry s l g w with unseen := true }) ?_ rfl
      rw [hqueued, runArbiter_span]
      rfl
    · exact overdueKept_of_span (runArbiter_span _)
  | held w c =>
    rw [headLeft_of_held h]
    have hentered := entered_overdue l r false s
    unfold overdueKept at hentered ⊢
    rw [runArbiter_span, hentered]
  | stop =>
    rw [headLeft_of_stop h]
    exact entered_overdue l r true s

/-- R147: at most one ENTERED is queued for a head that leaves. -/
theorem headLeft_line_cases (l : Lane) (r : Record) (s : State) :
    (headLeft l r true s).line = s.line ∨
      ∃ x : Notice, x.kind = 0x11 ∧ (headLeft l r true s).line = (enqueue x s).line := by
  by_cases hnone : (stopLine s l).head = .none
  · left
    simp only [headLeft, hnone]
    rfl
  by_cases hfree : (stopLine s l).head = .free
  · left
    rw [headLeft_of_free hfree]
    rfl
  cases hg : r.tag with
  | some g => exact .inr ⟨.entered g l (deckWeight s l r) r.effGross s.clock, rfl, headLeft_line hnone hfree hg⟩
  | none =>
    left
    have hqueued (w : Nat) (u : State) : queueEntered l r w u = u := by
      unfold queueEntered
      rw [hg]
    have hentered (stop : Bool) : (entered l r stop true s).line = s.line := by
      rw [entered, hqueued, entryRaised_unseen]
      simp only [spanTaken, hg]
      rfl
    have hrun (u : State) : (runArbiter u).line = u.line := runArbiter_touches u .line (by decide)
    cases h : (stopLine s l).head with
    | none => exact absurd h hnone
    | free => exact absurd h hfree
    | admitted w =>
      simp only [headLeft, h, regularCrossing, hg, hrun]
      rfl
    | held w c => rw [headLeft_of_held h, hrun, hentered]
    | stop => rw [headLeft_of_stop h, hentered]

/-! ## A record that joins (R130, R131) -/

theorem roomMade_cases (l : Lane) (s : State) :
    (roomMade l s = s ∧ (stopLine s l).queue.length < 8) ∨
      ∃ q rest, (stopLine s l).queue = q :: rest ∧ 7 ≤ rest.length ∧
        roomMade l s = evaluateHead l (headLeft l q true (raise .queueOverflow s)) := by
  have hline : stopLine (raise .queueOverflow s) l = stopLine s l :=
    stopLine_of_touches (raise_touches _ _) (by decide) _
  by_cases hlen : 8 ≤ (stopLine s l).queue.length
  · right
    cases hq : (stopLine s l).queue with
    | nil =>
      rw [hq] at hlen
      cases hlen
    | cons q rest =>
      rw [hq] at hlen
      refine ⟨q, rest, rfl, Nat.le_of_succ_le_succ hlen, ?_⟩
      rw [roomMade, hq, if_pos hlen, overflowQueue, headEnters_of_cons (by rw [hline]; exact hq)]
  · exact .inl ⟨if_neg hlen, Nat.lt_of_not_le hlen⟩

/-- The stops a record joining counts: none, or one in its lane. -/
theorem evaluateHead_lanes (l : Lane) (s : State) :
    ∃ f : Tab LaneCounts 4 → Tab LaneCounts 4, (f = id ∨ f = oneStopped l) ∧
      (evaluateHead l s).counters = { s.counters with lanes := f s.counters.lanes } := by
  by_cases hstop : frontHead l s = .stop
  · exact ⟨oneStopped l, .inr rfl, by rw [evaluateHead_counters, if_pos hstop]; rfl⟩
  · exact ⟨id, .inl rfl, by rw [evaluateHead_counters, if_neg hstop]; rfl⟩

/-- Condition sources, and TRIM_LIMIT: what no head raises. -/
def raisedByNoHead (y : AlertSource) : Prop := isCondition y = true ∨ y = .trimLimit

theorem raisedByNoHead.ne {x y : AlertSource} (h : raisedByNoHead y) (hx : isCondition x = false)
    (hlimit : x ≠ .trimLimit) : y ≠ x := by
  rintro rfl
  obtain hc | hl := h
  · rw [hx] at hc
    cases hc
  · exact hlimit hl

/-- Beside the evaluation, a record joining leaves this. -/
structure JoinKept (s u : State) : Prop where
  overdue : overdueKept s u
  alert : ∀ y, raisedByNoHead y → alertOf u y = alertOf s y
  line : u.line = s.line ∨ ∃ x : Notice, x.kind = 0x11 ∧ u.line = (enqueue x s).line

theorem JoinKept.condition {u : State} (h : JoinKept s u) (y : AlertSource) (hy : isCondition y = true) :
    alertOf u y = alertOf s y := h.alert y (.inl hy)

theorem joinKept_refl (s : State) : JoinKept s s := ⟨rfl, fun _ _ => rfl, .inl rfl⟩

theorem JoinKept.evaluateHead {u : State} (h : JoinKept s u) (l : Lane) : JoinKept s (evaluateHead l u) := by
  refine ⟨?_, fun y hy => (alertOf_evaluateHead_ne (hy.ne rfl AlertSource.noConfusion)
    (hy.ne rfl AlertSource.noConfusion)).trans (h.alert y hy), ?_⟩
  · have hspan : (Machine.evaluateHead l u).entry.span = u.entry.span := by
      rw [evaluateHead_entry]
      rfl
    unfold overdueKept
    rw [hspan]
    exact h.overdue
  · rw [show (Machine.evaluateHead l u).line = u.line from evaluateHead_touches l u .line (by decide)]
    exact h.line

theorem JoinKept.atTail {u : State} (h : JoinKept s u) (r : Record) : JoinKept s (atTail r u) :=
  ⟨h.overdue, h.alert, h.line⟩

theorem joinKept_headLeft (l : Lane) (q : Record) (s : State) :
    JoinKept s (headLeft l q true (raise .queueOverflow s)) := by
  have htouch := raise_touches .queueOverflow s
  have hentry : (raise .queueOverflow s).entry = s.entry := htouch .entry (by decide)
  refine ⟨?_, fun y hy => ?_, ?_⟩
  · have h := headLeft_overdue l q (raise .queueOverflow s)
    unfold overdueKept at h ⊢
    rw [h, hentry]
  · rw [alertOf_headLeft_unseen (hy.ne rfl AlertSource.noConfusion) (hy.ne rfl AlertSource.noConfusion),
      alertOf_raise_ne s (hy.ne rfl AlertSource.noConfusion)]
  · have hl : (raise .queueOverflow s).line = s.line := htouch .line (by decide)
    obtain h | ⟨x, hx, h⟩ := headLeft_line_cases l q (raise .queueOverflow s)
    · exact .inl (h.trans hl)
    · exact .inr ⟨x, hx, h.trans (enqueue_line_congr x (htouch .startup (by decide))
        (htouch .clock (by decide)) hl)⟩

theorem joinKept_joinStopLine (r : Record) (s : State) : JoinKept s (joinStopLine r s) := by
  have hroom : JoinKept s (roomMade r.lane s) := by
    obtain ⟨h, -⟩ | ⟨q, rest, -, -, h⟩ := roomMade_cases r.lane s
    · rw [h]
      exact joinKept_refl s
    · rw [h]
      exact (joinKept_headLeft r.lane q s).evaluateHead r.lane
  rw [joinStopLine_eq]
  split
  · exact (hroom.atTail r).evaluateHead r.lane
  · exact hroom.atTail r

/-- R132: a record joining counts at most one stop, in its lane. -/
theorem joinStopLine_counters (r : Record) (s : State) :
    ∃ f : Tab LaneCounts 4 → Tab LaneCounts 4, (f = id ∨ f = oneStopped r.lane) ∧
      (joinStopLine r s).counters = { s.counters with lanes := f s.counters.lanes } := by
  obtain ⟨hstays, hlen⟩ | ⟨q, rest, hq, hlen, -⟩ := roomMade_cases r.lane s
  · rw [joinStopLine_of_room hlen]
    split
    · exact evaluateHead_lanes r.lane (atTail r s)
    · exact ⟨id, .inl rfl, rfl⟩
  · have hleft : (headLeft r.lane q true (raise .queueOverflow s)).counters = s.counters :=
      (headLeft_unseen_touches r.lane q _ .counters (by decide)).trans
        (raise_touches _ s .counters (by decide))
    rw [joinStopLine_of_full hq hlen, ← hleft]
    exact evaluateHead_lanes r.lane (headLeft r.lane q true (raise .queueOverflow s))

end

end Sys2Proof.Proofs
end

