-- ==== Sys2Proof/Proofs/ClosedVehicles.lean ====
section
/-! PROOFS. What the closing of a vehicle leaves, whatever its record (R52, R53, R163, R164), and light
vehicles. -/

namespace Sys2Proof.Proofs

open Sys2Proof Sys2Proof.Machine

/-! ## After `settle` -/

/-- The blocks the closing of a vehicle writes before `settle`. -/
def closingBlocks : List Block :=
  [.vehicles, .nextSerial, .approach, .line, .counters, .alerts, .signs, .entry, .trim, .store]

/-- The station `w` at the closing of a vehicle of lane `l`, before `settle`: it holds the signs and the
entry controller of `j`. -/
structure Closing (l : Lane) (s j w : State) : Prop where
  touches : changesOnly closingBlocks s w
  signs : w.signs = j.signs
  entry : w.entry = j.entry
  idle_signs : s.cfg.divert = false → j.signs = s.signs
  idle_entry : s.cfg.entry = false → j.entry = s.entry
  counters : w.counters = { s.counters with lanes := w.counters.lanes }
  others : sameBut l s.counters.lanes w.counters.lanes
  overdue : overdueKept s w
  condition : ∀ y, isCondition y = true → alertOf w y = alertOf s y

section

variable {l : Lane} {s j w : State}

/-- Raw states follow the span set only through its OVERDUE entries. -/
theorem rawState_of_overdue {bs : List Block} (h : changesOnly bs s w) (hover : overdueKept s w)
    (hb : ∀ b ∈ [Block.lamps, .cfg, .health, .peers, .probe], b ∉ bs := by decide) (y : AlertSource) :
    rawState w y = rawState s y := by
  by_cases hy : y = .spanOverdue
  · rw [hy]
    exact hover
  · have hwith : rawState { w with entry := s.entry } y = rawState w y := by
      cases y with
      | spanOverdue => exact absurd rfl hy
      | _ => rfl
    rw [← hwith]
    exact rawState_congr (s := s) (t := { w with entry := s.entry }) (h .lamps (hb _ (by simp)))
      (h .cfg (hb _ (by simp))) (h .health (hb _ (by simp))) rfl
      (congrArg Peers.posture (h .peers (hb _ (by simp)))) (congrArg Probe.theta (h .probe (hb _ (by simp)))) y

theorem Closing.raw (h : Closing l s j w) (y : AlertSource) : rawState w y = rawState s y :=
  rawState_of_overdue h.touches h.overdue (by decide) y

theorem Closing.alert_condition (h : Closing l s j w) (hs : settled s = true) {y : AlertSource}
    (hy : isCondition y = true) : alertOf (settle w) y = alertOf s y :=
  alertOf_settle_same hs (h.touches .startup (by decide)) (h.condition y hy) (h.raw y)

/-- Where the closing raised what joining the stop line raises, so does what `settle` leaves. -/
theorem Closing.alert (h : Closing l s j w) (hs : settled s = true)
    (hj : ∀ y, isCondition y = true → alertOf j y = alertOf s y) {y : AlertSource}
    (hy : isCondition y = false → alertOf w y = alertOf j y) : alertOf (settle w) y = alertOf j y := by
  cases hc : isCondition y with
  | true => rw [h.alert_condition hs hc, hj y hc]
  | false => rw [alertOf_settle_event w hc, hy hc]

theorem Closing.alerts_same (h : Closing l s j w) (hs : settled s = true) (ha : w.alerts = s.alerts) :
    (settle w).alerts = s.alerts :=
  settle_alerts_same hs (h.touches .startup (by decide)) (h.touches .cfg (by decide)) ha h.raw

theorem Closing.sameSigns (h : Closing l s j w) (hs : settled s = true) (hd : s.cfg.divert = false) :
    (settle w).signs = s.signs :=
  signs_settle_same hs (h.touches .startup (by decide)) (h.touches .cfg (by decide))
    (h.touches .health (by decide)) (h.signs.trans (h.idle_signs hd))

/-- R129: without the ENTRY role no aspect is shown. -/
theorem settle_entry_idle {u : State} (h : u.cfg.entry = false) : (settle u).entry = u.entry := by
  have hidle : entryActs (driveSigns u) = false := by
    rw [entryActs, show (driveSigns u).cfg.entry = false from h, Bool.and_false]
  rw [settle_entry, driveAspects, hidle, if_neg Bool.false_ne_true]
  rfl

theorem Closing.sameEntry (h : Closing l s j w) (he : s.cfg.entry = false) :
    (settle w).entry = s.entry := by
  have hcfg : w.cfg = s.cfg := h.touches .cfg (by decide)
  rw [settle_entry_idle (by rw [hcfg]; exact he), h.entry, h.idle_entry he]

theorem Closing.sameLamps (h : Closing l s j w) (hs : settled s = true) (hsigns : w.signs = s.signs)
    (he : s.cfg.entry = false) : (settle w).lamps = s.lamps := by
  have hsame : SameBlocks s w :=
    ⟨h.touches .startup (by decide), h.touches .cfg (by decide), h.touches .health (by decide),
      hsigns, h.touches .lamps (by decide)⟩
  have hentry : w.entry = s.entry := h.entry.trans (h.idle_entry he)
  have hquiet := (hsame.followed fun k => stopLine_congr (congrArg EntryController.lanes hentry) k).settle_touches hs
  exact (hquiet .lamps (by decide)).trans hsame.lamps

/-- R52, R53: what the closing brings about in the sign driver and the entry controller. -/
theorem Closing.handedOn (h : Closing l s j w) (hs : settled s = true) : handedOn l s j (settle w) := by
  have hcounters : (settle w).counters = w.counters := settle_counters w
  refine ⟨by rw [bareSigns_settle, h.signs], by rw [bareEntry_settle, h.entry],
    bareLamps_settle_same (h.touches .lamps (by decide)), ?_, ?_, h.sameSigns hs, h.sameEntry,
    fun hd => h.sameLamps hs (h.signs.trans (h.idle_signs hd))⟩
  · rw [hcounters]
    exact h.counters
  · rw [hcounters]
    exact h.others

end

/-! ## Trims that wait for a quiet lane (R163, R164) -/

section

variable {l : Lane} {s w : State}

theorem applyTrim_of_none (h : (w.trim.at l).pending = none) : applyTrim l w = w := by
  rw [applyTrim, h]

theorem laneQuiet_closed (hv : w.vehicles.at l = none) (hp : w.pairing = s.pairing) :
    laneQuiet w l = (s.pairing.at l).fifo.isEmpty := by
  rw [laneQuiet, hv, hp]
  rfl

theorem applyTrim_of_busy (h : laneQuiet w l = false) : applyTrim l w = w := by
  unfold applyTrim
  split
  · rw [h, if_neg Bool.false_ne_true]
  · rfl

/-- R164: the trim unit once the pending trim of a lane is applied. -/
def trimApplied (l : Lane) (p : Nat) (w : State) : State :=
  setTrim l { w.trim.at l with pending := none, window := [], applied := (w.trim.at l).applied + 1 }
    (writeTrim l p w)

theorem applyTrim_of_quiet {p : Nat} (h : (w.trim.at l).pending = some p) (hq : laneQuiet w l = true) :
    applyTrim l w = trimApplied l p w := by
  rw [applyTrim, h]
  exact if_pos hq

theorem trimApplied_spec (l : Lane) (p : Nat) (w : State) :
    (trimApplied l p w).trim.at l =
        { w.trim.at l with pending := none, window := [], applied := (w.trim.at l).applied + 1 } ∧
      sameBut l w.trim (trimApplied l p w).trim ∧ (trimApplied l p w).store.trims.at l = p ∧
      sameBut l w.store.trims (trimApplied l p w).store.trims ∧
      (trimApplied l p w).store.cause = w.store.cause ∧
      (trimApplied l p w).store.restarts = w.store.restarts ∧
      (trimApplied l p w).store.check =
        checkOf (trimApplied l p w).store.cause (trimApplied l p w).store.restarts
          (trimApplied l p w).store.trims :=
  ⟨Tab.at_put_self _ _ _, fun _ hk => Tab.at_put_ne _ _ hk, Tab.at_put_self _ _ _,
    fun _ hk => Tab.at_put_ne _ _ hk, rfl, rfl, rfl⟩

theorem Closing.applyTrim {j : State} (h : Closing l s j w) : Closing l s j (applyTrim l w) := by
  have htouch := applyTrim_touches l w
  have hentry : (Machine.applyTrim l w).entry = w.entry := htouch .entry (by decide)
  have hcounters : (Machine.applyTrim l w).counters = w.counters := htouch .counters (by decide)
  refine ⟨changesOnly_mono (changesOnly_append h.touches htouch) (by decide),
    (htouch .signs (by decide)).trans h.signs, hentry.trans h.entry, h.idle_signs, h.idle_entry, ?_, ?_, ?_,
    fun y hy => (alertOf_congr (htouch .alerts (by decide)) y).trans (h.condition y hy)⟩
  · rw [hcounters]
    exact h.counters
  · rw [hcounters]
    exact h.others
  · unfold overdueKept
    rw [hentry]
    exact h.overdue

end

/-! ## Light vehicles (R53) -/

section

variable {s : State} {l : Lane} {v : OpenVehicle}

/-- R192: one more light vehicle in a lane. -/
def oneLight (l : Lane) (x : Tab LaneCounts 4) : Tab LaneCounts 4 := x.upd l fun c => { c with light := c.light + 1 }

theorem oneLight_oneStopped (l k : Lane) (x : Tab LaneCounts 4) :
    oneLight l (oneStopped k x) = oneStopped k (oneLight l x) := by
  refine Tab.ext_at fun i => ?_
  unfold oneLight oneStopped
  by_cases hl : i = l <;> by_cases hk : i = k
  · subst hl hk
    simp only [Tab.at_upd_self]
  · subst hl
    rw [Tab.at_upd_self, Tab.at_upd_ne _ _ hk, Tab.at_upd_ne _ _ hk, Tab.at_upd_self]
  · subst hk
    rw [Tab.at_upd_ne _ _ hl, Tab.at_upd_self, Tab.at_upd_self, Tab.at_upd_ne _ _ hl]
  · rw [Tab.at_upd_ne _ _ hl, Tab.at_upd_ne _ _ hk, Tab.at_upd_ne _ _ hk, Tab.at_upd_ne _ _ hl]

/-- R130: the record joins the stop line of an ENTRY station. -/
def handedToStopLine (r : Record) (s : State) : State := if s.cfg.entry = true then joinStopLine r s else s

/-- The open vehicles once that of a lane has closed. -/
def vehicleClosed (l : Lane) (s : State) : Tab (Option OpenVehicle) 4 := s.vehicles.put l none

theorem handOnLight_eq (r : Record) (hr : r.lane = l) (s : State) :
    handOnLight r (setVehicle l none s) =
      besides (vehicleClosed l s) s.nextSerial s.approach (oneLight l) (handedToStopLine r s) := by
  subst hr
  have hcounted : countLane r.lane (fun c => { c with light := c.light + 1 }) (setVehicle r.lane none s) =
      besides (vehicleClosed r.lane s) s.nextSerial s.approach (oneLight r.lane) s := rfl
  unfold handOnLight handedToStopLine
  dsimp only
  rw [hcounted, show (setVehicle r.lane none s).cfg = s.cfg from rfl]
  split
  · exact joinStopLine_besides (oneLight_oneStopped r.lane) r
  · rfl

theorem handedToStopLine_touches (r : Record) (s : State) :
    changesOnly [.entry, .line, .alerts, .counters] s (handedToStopLine r s) := by
  unfold handedToStopLine
  split
  · exact joinStopLine_touches r s
  · exact changesOnly_refl _ s

theorem handedToStopLine_kept (r : Record) (s : State) : JoinKept s (handedToStopLine r s) := by
  unfold handedToStopLine
  split
  · exact joinKept_joinStopLine r s
  · exact joinKept_refl s

theorem handedToStopLine_idle {r : Record} (h : s.cfg.entry = false) : handedToStopLine r s = s :=
  if_neg (by rw [h]; exact Bool.false_ne_true)

theorem handedToStopLine_counters (r : Record) (s : State) :
    ∃ f : Tab LaneCounts 4 → Tab LaneCounts 4, (f = id ∨ f = oneStopped r.lane) ∧
      (handedToStopLine r s).counters = { s.counters with lanes := f s.counters.lanes } := by
  unfold handedToStopLine
  split
  · exact joinStopLine_counters r s
  · exact ⟨id, .inl rfl, rfl⟩

theorem sameBut_of_stops {f : Tab LaneCounts 4 → Tab LaneCounts 4} (h : f = id ∨ f = oneStopped l)
    (x : Tab LaneCounts 4) : sameBut l x (f x) := by
  obtain rfl | rfl := h
  · exact fun _ _ => rfl
  · exact fun k hk => Tab.at_upd_ne _ _ hk

/-- R49: a light vehicle. -/
theorem closeRecord_light (hgross : (v.axles.filterMap Axle.load).sum < s.cfg.heavyThreshold)
    (hweighed : (∀ a ∈ v.axles, a.flags.unweighed = false) ∨ v.axles.length < 3) :
    (closeRecord s.cfg l v false).heavy = false := by
  have hheavy : (closeRecord s.cfg l v false).heavy =
      (decide (s.cfg.heavyThreshold ≤ (v.axles.filterMap Axle.load).sum) ||
        ((v.axles.any fun a => a.flags.unweighed) && decide (3 ≤ v.axles.length))) := rfl
  rw [hheavy, decide_eq_false (Nat.not_le.2 hgross), Bool.false_or]
  obtain hall | hfew := hweighed
  · rw [List.any_eq_false.2 fun a ha => by rw [hall a ha]; exact Bool.false_ne_true, Bool.false_and]
  · rw [decide_eq_false (Nat.not_le.2 hfew), Bool.and_false]

theorem exec_closeTimerExpiry (hv : s.vehicles.at l = some v) (hdue : atOrAfter s.clock v.closeAt = true) :
    exec (.closeTimerExpiry l) s = done (applyTrim l (closeVehicle l false s)) := by
  simp only [exec, execCloseTimerExpiry, hv, hdue, if_true]

theorem closeVehicle_light (hv : s.vehicles.at l = some v)
    (hlight : (closeRecord s.cfg l v false).heavy = false) :
    closeVehicle l false s =
      besides (vehicleClosed l s) s.nextSerial s.approach (oneLight l)
        (handedToStopLine (closeRecord s.cfg l v false) s) := by
  simp only [closeVehicle, hv]
  rw [hlight, if_neg Bool.false_ne_true]
  exact handOnLight_eq _ rfl s

/-- The station at the closing of a light vehicle, before a pending trim is applied. -/
def lightClosed (l : Lane) (r : Record) (s : State) : State :=
  besides (vehicleClosed l s) s.nextSerial s.approach (oneLight l) (handedToStopLine r s)

theorem lightClosed_touches (l : Lane) (r : Record) (s : State) :
    changesOnly [.vehicles, .counters, .entry, .line, .alerts] s (lightClosed l r s) := by
  have hj := handedToStopLine_touches r s
  have hserial : (handedToStopLine r s).nextSerial = s.nextSerial := hj .nextSerial (by decide)
  have hlist : (handedToStopLine r s).approach = s.approach := hj .approach (by decide)
  have hbeside : changesOnly [.vehicles, .counters] (handedToStopLine r s) (lightClosed l r s) := by
    unfold lightClosed besides
    rw [← hserial, ← hlist]
    exact changesOnly_append (touches_vehicles (handedToStopLine r s) (vehicleClosed l s))
      (touches_counters { handedToStopLine r s with vehicles := vehicleClosed l s }
        { (handedToStopLine r s).counters with
          lanes := oneLight l (handedToStopLine r s).counters.lanes })
  exact changesOnly_mono (changesOnly_append hj hbeside) (by decide)

theorem closing_light {r : Record} (hr : r.lane = l) : Closing l s (handedToStopLine r s) (lightClosed l r s) := by
  have hj := handedToStopLine_touches r s
  have hkept := handedToStopLine_kept r s
  obtain ⟨f, hf, hcounters⟩ := handedToStopLine_counters r s
  have hlanes : (lightClosed l r s).counters.lanes = oneLight l (f s.counters.lanes) := by
    have h : (lightClosed l r s).counters.lanes = oneLight l (handedToStopLine r s).counters.lanes := rfl
    rw [h, hcounters]
  refine ⟨changesOnly_mono (lightClosed_touches l r s) (by decide), rfl, rfl,
    fun _ => hj .signs (by decide), fun he => by rw [handedToStopLine_idle he], ?_, fun k hk => ?_,
    hkept.overdue, hkept.condition⟩
  · have h : (lightClosed l r s).counters =
        { (handedToStopLine r s).counters with lanes := (lightClosed l r s).counters.lanes } := rfl
    rw [h, hcounters]
  · rw [hlanes, oneLight, Tab.at_upd_ne _ _ hk]
    exact sameBut_of_stops (hr ▸ hf) _ k hk

end

/-- Settles O19: the light vehicle is handed on; the trim of a quiet lane is applied. -/
theorem lightVehicleAppliesTrim : Obligations.LightVehicleAppliesTrim := by
  unfold Obligations.LightVehicleAppliesTrim
  intro s l v hs hv hdue hgross hweighed j
  let r := closeRecord s.cfg l v false
  have hexec := exec_closeTimerExpiry hv hdue
  rw [closeVehicle_light hv (closeRecord_light hgross hweighed)] at hexec
  let w := lightClosed l r s
  have hclosing : Closing l s j w := closing_light rfl
  have happlied := hclosing.applyTrim
  have htouch := lightClosed_touches l r s
  have happly := applyTrim_touches l w
  have hframe : changesOnly [.vehicles, .counters, .entry, .line, .alerts, .store, .trim] s (applyTrim l w) :=
    changesOnly_append htouch happly
  have hjoin := handedToStopLine_touches r s
  have hkept := handedToStopLine_kept r s
  have hsettled {b : Block} (hb : b ∉ [Block.signs, .lamps, .entry, .alerts]) :
      same (applyTrim l w) (settle (applyTrim l w)) b := settle_changesOnly _ b hb
  have hvehicles : (settle (applyTrim l w)).vehicles = vehicleClosed l s :=
    (hsettled (b := .vehicles) (by decide)).trans (happly .vehicles (by decide))
  have htrim : (settle (applyTrim l w)).trim = (applyTrim l w).trim := hsettled (b := .trim) (by decide)
  have hstore : (settle (applyTrim l w)).store = (applyTrim l w).store := hsettled (b := .store) (by decide)
  have hwtrim : w.trim = s.trim := htouch .trim (by decide)
  have hwstore : w.store = s.store := htouch .store (by decide)
  have hsigns : (settle (applyTrim l w)).signs = s.signs :=
    (sameBlocks_of_touches hframe).signs_settle hs
  have hquiet : laneQuiet w l = (s.pairing.at l).fifo.isEmpty :=
    laneQuiet_closed (Tab.at_put_self _ _ _) (htouch .pairing (by decide))
  have hwsigns : (applyTrim l w).signs = s.signs := hframe .signs (by decide)
  have hcounters : (settle (applyTrim l w)).counters.lanes = oneLight l j.counters.lanes :=
    congrArg Counters.lanes ((settle_counters _).trans (happly .counters (by decide)))
  refine ⟨settle (applyTrim l w), hexec, ?_, fun k hk => ?_, happlied.handedOn hs, hsigns,
    (settle_line _).trans (happly .line (by decide)), fun y => ?_, ?_, fun he =>
      ⟨happlied.sameLamps hs hwsigns he, happlied.alerts_same hs ?_⟩,
    changesOnly_settle_signs hs hframe (sameBlocks_of_touches hframe), fun hbusy => ?_,
    fun p hp hfifo => ?_⟩
  · rw [hvehicles]
    exact Tab.at_put_self _ _ _
  · rw [hvehicles]
    exact Tab.at_put_ne _ _ hk
  · exact happlied.alert hs hkept.condition fun _ => alertOf_congr (happly .alerts (by decide)) y
  · rw [hcounters, oneLight, Tab.at_upd_self]
  · exact (happly .alerts (by decide)).trans (congrArg State.alerts (handedToStopLine_idle (r := r) he) :)
  · have hstays : applyTrim l w = w := by
      obtain hnone | hne := hbusy
      · exact applyTrim_of_none (by rw [hwtrim]; exact hnone)
      · exact applyTrim_of_busy (by rw [hquiet]; cases h : (s.pairing.at l).fifo <;> simp_all)
    rw [htrim, hstore, hstays]
    exact ⟨hwtrim, hwstore⟩
  · have hdone : applyTrim l w = trimApplied l p w :=
      applyTrim_of_quiet (by rw [hwtrim]; exact hp) (by rw [hquiet, hfifo]; rfl)
    have hspec := trimApplied_spec l p w
    rw [← hdone, ← htrim, ← hstore, hwtrim, hwstore] at hspec
    exact hspec

end Sys2Proof.Proofs
end

