-- ==== Sys2Proof/Proofs/NoticesBehind.lean ====
section
/-! PROOFS. Notices queued behind all that wait (R61, R65), as `lineTakes` says them. -/

namespace Sys2Proof.Proofs

open Sys2Proof Sys2Proof.Machine

section

variable {s : State} {n : Notice}

theorem joinQueue_behind {w : Waiting} {q : List Waiting} (h : ∀ x ∈ q, x.notice.class_ ≤ w.notice.class_) :
    joinQueue w q = q ++ [w] := by
  induction q with
  | nil => rfl
  | cons x q ih =>
    obtain ⟨hx, hq⟩ := List.forall_mem_cons.1 h
    rw [joinQueue, if_pos hx, ih hq]
    rfl

/-- Frames of smaller kinds stand before a notice and are not of its like. -/
theorem behind_of_kinds {q : List Waiting} (h : ∀ x ∈ q, x.notice.kind < n.kind) :
    replaceWaiting n q = none ∧ ∀ x ∈ q, x.notice.class_ ≤ n.class_ := by
  refine ⟨replaceWaiting_of_none fun x hx => ?_, fun x hx => ?_⟩
  · simp only [sameNotice, (h x hx).ne, decide_false, Bool.false_and]
  · exact Nat.div_le_div_right (h x hx).le

theorem enqueue_behind (hkinds : ∀ x ∈ s.line.queue, x.notice.kind < n.kind) (hroom : s.line.queue.length < 8) :
    enqueue n s = lined (lineTakes [n] s) s := by
  obtain ⟨hnone, hclass⟩ := behind_of_kinds hkinds
  have hjoined : queueFrame n s =
      lined { s.line with queue := s.line.queue ++ [{ notice := n, queued := s.clock }] } s := by
    rw [queueFrame_of_room hnone hroom, joinQueue_behind hclass]
  have hcons : ∃ w ws, (queueFrame n s).line.queue = w :: ws := by
    rw [hjoined]
    cases hq : s.line.queue with
    | nil => exact ⟨_, _, by simp only [lined]; rfl⟩
    | cons w ws => exact ⟨w, ws ++ [_], by simp only [lined]; rfl⟩
  obtain ⟨w, ws, hq⟩ := hcons
  rw [enqueue, takeIntoFlight_of_cons hq, hjoined]
  rfl

/-- What waits after notices were taken waited before, or is one of them. -/
theorem mem_lineTakes {ns : List Notice} {x : Waiting} (h : x ∈ (lineTakes ns s).queue) :
    x ∈ s.line.queue ∨ x.notice ∈ ns := by
  have hjoined (hx : x ∈ s.line.queue ++ ns.map fun n => { notice := n, queued := s.clock }) :
      x ∈ s.line.queue ∨ x.notice ∈ ns := by
    obtain hq | hn := List.mem_append.1 hx
    · exact .inl hq
    · obtain ⟨m, hm, rfl⟩ := List.mem_map.1 hn
      exact .inr hm
  unfold lineTakes lineFreed at h
  dsimp only at h
  split at h
  · split at h
    next w ws hq =>
      split at h
      · exact hjoined (hq ▸ List.mem_cons_of_mem w h)
      · exact hjoined h
    · exact hjoined h
  · exact hjoined h

theorem length_lineTakes {ns : List Notice} : (lineTakes ns s).queue.length ≤ s.line.queue.length + ns.length := by
  have hjoined : (s.line.queue ++ ns.map fun n => ({ notice := n, queued := s.clock } : Waiting)).length =
      s.line.queue.length + ns.length := by
    rw [List.length_append, List.length_map]
  unfold lineTakes lineFreed
  dsimp only
  split
  · split
    next w ws hq =>
      split
      · rw [hq, List.length_cons] at hjoined
        dsimp only
        omega
      · exact hjoined.le
    · exact hjoined.le
  · exact hjoined.le

/-- The frames some notices make, queued now. -/
def queuedNow (s : State) (ns : List Notice) : List Waiting := ns.map fun n => { notice := n, queued := s.clock }

theorem lineTakes_of_busy {ns : List Notice} (h : ¬(s.startup = .running ∧ s.line.transmit = .idle)) :
    lineTakes ns s = { s.line with queue := s.line.queue ++ queuedNow s ns } := if_neg h

theorem lineTakes_of_idle {ns : List Notice} {w : Waiting} {ws : List Waiting}
    (h : s.startup = .running ∧ s.line.transmit = .idle) (hq : s.line.queue ++ queuedNow s ns = w :: ws) :
    lineTakes ns s =
      { s.line with
        queue := ws, transmit := .contending, nextSequence := s.line.nextSequence + 1
        flight := some { notice := w.notice, sequence := s.line.nextSequence, attempts := 0
                         collisions := 0, receiptFrom := none, bytes := [] } } :=
  (if_pos h).trans (lineFreed_of_cons (s := lined { s.line with queue := s.line.queue ++ queuedNow s ns } s)
    hq h.1)

/-- R65: notices taken one by one. -/
theorem lineTakes_cons (ns : List Notice) :
    lineTakes ns (lined (lineTakes [n] s) s) = lineTakes (n :: ns) s := by
  have hall : s.line.queue ++ queuedNow s (n :: ns) =
      s.line.queue ++ queuedNow s [n] ++ queuedNow s ns :=
    List.append_cons _ _ _
  by_cases h : s.startup = .running ∧ s.line.transmit = .idle
  · have hcons : ∃ w ws, s.line.queue ++ queuedNow s [n] = w :: ws := by
      cases s.line.queue with
      | nil => exact ⟨_, _, rfl⟩
      | cons w ws => exact ⟨w, ws ++ queuedNow s [n], rfl⟩
    obtain ⟨w, ws, hq⟩ := hcons
    have hfirst := lineTakes_of_idle h hq
    rw [hq] at hall
    rw [lineTakes_of_idle h hall, lineTakes_of_busy (by rw [hfirst]; exact fun hr => nomatch hr.2), hfirst]
    rfl
  · have hfirst := lineTakes_of_busy (ns := [n]) h
    rw [lineTakes_of_busy (ns := n :: ns) h, hall,
      lineTakes_of_busy (s := lined (lineTakes [n] s) s) (by rw [hfirst]; exact h), hfirst]
    rfl

/-- R61, R65: two notices queued one after the other behind frames of smaller kinds. -/
theorem enqueue_two {m : Notice} (hkinds : ∀ x ∈ s.line.queue, x.notice.kind < n.kind)
    (hroom : s.line.queue.length < 7) (hnm : n.kind < m.kind) :
    enqueue m (enqueue n s) = lined (lineTakes [n, m] s) s := by
  have hfirst := enqueue_behind (n := n) hkinds (by omega)
  have hlen := length_lineTakes (s := s) (ns := [n])
  rw [hfirst, enqueue_behind (s := lined (lineTakes [n] s) s) (fun x hx => ?_) (Nat.lt_of_le_of_lt hlen
    (by simp only [List.length_singleton]; omega)), lineTakes_cons]
  · rfl
  · obtain hq | hn := mem_lineTakes hx
    · exact (hkinds x hq).trans hnm
    · rw [List.mem_singleton.1 hn]
      exact hnm

end

end Sys2Proof.Proofs
end

