-- ==== Sys2Proof/Proofs/HeavyVehicles.lean ====
section
/-! PROOFS. Heavy vehicles handed on in the order of R52: the divert decision, the stop line, the notices,
the counter. -/

namespace Sys2Proof.Proofs

open Sys2Proof Sys2Proof.Machine

/-! ## The steps of R52 beside vehicles and lists -/

section

variable {v : Tab (Option OpenVehicle) 4} {n : BitVec 12} {a : Approach}
  {f : Tab LaneCounts 4 → Tab LaneCounts 4} {s : State}

theorem enqueue_besides (x : Notice) : enqueue x (besides v n a f s) = besides v n a f (enqueue x s) :=
  (congrArg takeIntoFlight (queueFrame_besides x)).trans takeIntoFlight_besides

theorem signsExtended_besides (ls : List Lane) :
    signsExtended ls (besides v n a f s) = besides v n a f (signsExtended ls s) := by
  induction ls generalizing s with
  | nil => rfl
  | cons l ls ih => exact ih (s := extendSign l s)

theorem divertRecord_besides (r : Record) (m : Option ApproachEntry) :
    divertRecord r m (besides v n a id s) =
      ((divertRecord r m s).1, besides v n a id (divertRecord r m s).2) := by
  by_cases hd : s.cfg.divert = true ∧ diverts s r m
  · obtain ⟨hrole, hdiv⟩ := hd
    by_cases hw : ∃ k, (k = r.lane ∨ r.partner = some k) ∧ signWorks s k
    · rw [divertRecord_of_works hrole hdiv hw,
        divertRecord_of_works (s := besides v n a id s) hrole hdiv hw, signsExtended_besides]
      rfl
    · have hdark : ∀ k, (k = r.lane ∨ r.partner = some k) → ¬signWorks s k :=
        fun k hk hworks => hw ⟨k, hk, hworks⟩
      rw [divertRecord_of_dark hrole hdiv hdark,
        divertRecord_of_dark (s := besides v n a id s) hrole hdiv hdark, signsExtended_besides]
  · have hstays : s.cfg.divert = false ∨ ¬diverts s r m := by
      by_cases hrole : s.cfg.divert = true
      · exact .inr fun hdiv => hd ⟨hrole, hdiv⟩
      · exact .inl (Bool.eq_false_iff.2 hrole)
    rw [divertRecord_of_stays hstays, divertRecord_of_stays (s := besides v n a id s) hstays]

theorem handedToStopLine_besides (hf : ∀ l x, f (oneStopped l x) = oneStopped l (f x)) (r : Record) :
    handedToStopLine r (besides v n a f s) = besides v n a f (handedToStopLine r s) := by
  unfold handedToStopLine
  rw [show (besides v n a f s).cfg = s.cfg from rfl]
  split
  · exact joinStopLine_besides hf r
  · rfl

/-! ## The record after the divert decision -/

theorem divertRecord_record (r : Record) (m : Option ApproachEntry) (s : State) :
    (divertRecord r m s).1 = r ∨ (divertRecord r m s).1 = { r with directed := true } := by
  unfold divertRecord
  split
  · dsimp only
    split
    · exact .inr rfl
    · exact .inl rfl
  · exact .inl rfl

/-- What the divert decision leaves of a record: all but DIRECTED. -/
theorem divertRecord_kept (r : Record) (m : Option ApproachEntry) (s : State) :
    (divertRecord r m s).1.tag = r.tag ∧ (divertRecord r m s).1.reference = r.reference ∧
      (divertRecord r m s).1.lane = r.lane ∧ (divertRecord r m s).1.time = r.time ∧
      (divertRecord r m s).1.confidence = r.confidence ∧ (divertRecord r m s).1.gross = r.gross := by
  obtain h | h := divertRecord_record r m s <;> rw [h] <;> exact ⟨rfl, rfl, rfl, rfl, rfl, rfl⟩

theorem divertRecord_counters (r : Record) (m : Option ApproachEntry) (s : State) :
    (divertRecord r m s).2.counters =
        { s.counters with lanes := (divertRecord r m s).2.counters.lanes } ∧
      sameBut r.lane s.counters.lanes (divertRecord r m s).2.counters.lanes := by
  have hkept : (signsExtended (divertedLanes r) s).counters = s.counters :=
    signsExtended_touches _ s .counters (by decide)
  by_cases hw : s.cfg.divert = true ∧ diverts s r m
  · rw [divertRecord_of_diverts hw.1 hw.2]
    split
    · refine ⟨?_, fun k hk => ?_⟩
      · simp only [countLane, hkept]
      · rw [← hkept]
        exact Tab.at_upd_ne _ _ hk
    · refine ⟨?_, fun k _ => congrArg (fun c : Counters => c.lanes.at k) hkept⟩
      simp only [hkept]
  · have hstays : s.cfg.divert = false ∨ ¬diverts s r m := by
      cases hrole : s.cfg.divert with
      | false => exact .inl rfl
      | true => exact .inr fun hd => hw ⟨hrole, hd⟩
    rw [divertRecord_of_stays hstays]
    exact ⟨rfl, fun _ _ => rfl⟩

theorem divertRecord_idle (r : Record) (m : Option ApproachEntry) (h : s.cfg.divert = false) :
    (divertRecord r m s).2 = s := congrArg Prod.snd (divertRecord_of_stays (.inl h))

end

/-- A block of a frame that is as it was need not be in it. -/
theorem changesOnly_drop {bs : List Block} {b : Block} {s t : State} (h : changesOnly (b :: bs) s t)
    (hb : same s t b) : changesOnly bs s t := by
  intro k hk
  by_cases hkb : k = b
  · rw [hkb]
    exact hb
  · exact h k fun hm => (List.mem_cons.1 hm).elim hkb hk

/-! ## The notices (R52, R112, R113) -/

section

variable {s : State} {r : Record} {g : Tag} {matched : Bool}

/-- The notice of a record's weighing. -/
def weighingNotice (r : Record) (g : Tag) (matched : Bool) : Notice :=
  if matched then .sighting (weighingOf r g) r.time else .vehicle (weighingOf r g) r.time

/-- R52: the notices of a record. -/
def announcedNotices (exit : Bool) (r : Record) (g : Tag) (matched : Bool) : List Notice :=
  (if exit = true then [.left g r.time] else []) ++ [weighingNotice r g matched]

/-- R52 steps 4 and 5: the notices are queued. -/
def recordAnnounced (r : Record) (g : Tag) (matched : Bool) (s : State) : State :=
  queueWeighing r g matched (queueLeft r g s)

theorem queueLeft_touches_line (r : Record) (g : Tag) (s : State) :
    changesOnly [.line, .alerts] s (queueLeft r g s) := by
  unfold queueLeft
  split
  · exact enqueue_touches _ s
  · exact changesOnly_refl _ s

theorem recordAnnounced_touches (r : Record) (g : Tag) (matched : Bool) (s : State) :
    changesOnly [.line, .alerts] s (recordAnnounced r g matched s) :=
  changesOnly_trans (queueLeft_touches_line r g s) (enqueue_touches _ _)

theorem alertOf_recordAnnounced_ne {y : AlertSource} (h : y ≠ .txDrop) :
    alertOf (recordAnnounced r g matched s) y = alertOf s y := by
  have hleft : alertOf (queueLeft r g s) y = alertOf s y := by
    unfold queueLeft
    split
    · exact alertOf_enqueue_ne _ s h
    · rfl
  exact (alertOf_enqueue_ne _ _ h).trans hleft

theorem weighingNotice_kind : 0x21 ≤ (weighingNotice r g matched).kind := by
  unfold weighingNotice
  split
  · exact (by decide : 0x21 ≤ 0x22)
  · exact le_refl _

/-- R61, R65: the notices join behind ENTERED notices that wait. -/
theorem recordAnnounced_of_quiet (hkinds : ∀ x ∈ s.line.queue, x.notice.kind = 0x11)
    (hroom : s.line.queue.length < 7) :
    recordAnnounced r g matched s = lined (lineTakes (announcedNotices s.cfg.exit r g matched) s) s := by
  have hweighing := weighingNotice_kind (r := r) (g := g) (matched := matched)
  unfold recordAnnounced queueLeft announcedNotices
  split
  · exact enqueue_two (n := .left g r.time) (fun x hx => by rw [hkinds x hx]; exact (by decide : 0x11 < 0x12))
      hroom (Nat.lt_of_lt_of_le (by decide : 0x12 < 0x21) hweighing)
  · exact enqueue_behind (n := weighingNotice r g matched) (fun x hx => by
      rw [hkinds x hx]
      exact Nat.lt_of_lt_of_le (by decide : 0x11 < 0x21) hweighing) (by omega)

theorem recordAnnounced_besides {v : Tab (Option OpenVehicle) 4} {n : BitVec 12} {a : Approach}
    {f : Tab LaneCounts 4 → Tab LaneCounts 4} :
    recordAnnounced r g matched (besides v n a f s) = besides v n a f (recordAnnounced r g matched s) := by
  have hleft : queueLeft r g (besides v n a f s) = besides v n a f (queueLeft r g s) := by
    unfold queueLeft
    rw [show (besides v n a f s).cfg = s.cfg from rfl]
    split
    · exact enqueue_besides _
    · rfl
  unfold recordAnnounced
  rw [hleft]
  exact enqueue_besides _

/-- R147: what waits once a record has joined the stop line with an empty outbound queue. -/
theorem joinKept_queue {u : State} (h : JoinKept s u) (hq : s.line.queue = []) :
    (∀ x ∈ u.line.queue, x.notice.kind = 0x11) ∧ u.line.queue.length < 7 := by
  obtain hl | ⟨x, hx, hl⟩ := h.line
  · rw [hl, hq]
    exact ⟨fun _ hm => absurd hm List.not_mem_nil, by decide⟩
  · have hl : u.line = lineTakes [x] s := by rw [hl, enqueue_of_nil x hq]; rfl
    rw [hl]
    refine ⟨fun y hy => ?_, ?_⟩
    · obtain hm | hm := mem_lineTakes hy
      · rw [hq] at hm
        exact absurd hm List.not_mem_nil
      · rw [List.mem_singleton.1 hm]
        exact hx
    · refine Nat.lt_of_le_of_lt length_lineTakes ?_
      rw [hq]
      exact (by decide : 0 + 1 < 7)

end

/-! ## The hand-on of a heavy record (R52) -/

section

variable {s : State} {l : Lane} {r : Record} {m : Option ApproachEntry} {g : Tag}
  {v : Tab (Option OpenVehicle) 4} {n : BitVec 12} {a : Approach}

/-- R192: one more heavy vehicle in a lane. -/
def oneHeavy (l : Lane) (x : Tab LaneCounts 4) : Tab LaneCounts 4 := x.upd l fun c => { c with heavy := c.heavy + 1 }

/-- R52 steps 2 and 3: the station once the record has met the sign driver and the entry controller. -/
def heavyMet (r : Record) (m : Option ApproachEntry) (s : State) : State :=
  handedToStopLine (divertRecord r m s).1 (divertRecord r m s).2

/-- R52 step 6: a reference gross is offered to the trim unit. -/
def referenceOffered (r : Record) (s : State) : State :=
  match r.reference with
  | some ref => offerTrim r ref s
  | none => s

theorem handOnHeavy_eq {r0 : Record} {s0 : State} (hmatch : matchOrTag r0 s0 = (r, m, besides v n a id s))
    (htag : r.tag = some g) (hlane : r.lane = l) :
    handOnHeavy r0 s0 =
      countLane l (fun c => { c with heavy := c.heavy + 1 })
        (referenceOffered (divertRecord r m s).1
          (besides v n a id (recordAnnounced (divertRecord r m s).1 g m.isSome (heavyMet r m s)))) := by
  obtain ⟨hdtag, -, hdlane, -⟩ := divertRecord_kept r m s
  have hjoined : (if (besides v n a id (divertRecord r m s).2).cfg.entry then
      joinStopLine (divertRecord r m s).1 (besides v n a id (divertRecord r m s).2)
      else besides v n a id (divertRecord r m s).2) = besides v n a id (heavyMet r m s) :=
    handedToStopLine_besides (fun _ _ => rfl) _
  unfold handOnHeavy
  dsimp only
  rw [hmatch]
  dsimp only
  rw [divertRecord_besides]
  dsimp only
  rw [hjoined, hdtag, htag, hdlane, hlane, ← recordAnnounced_besides]
  rfl

theorem heavyMet_eq (r : Record) (m : Option ApproachEntry) (s : State) :
    (if s.cfg.entry = true then joinStopLine (divertRecord r m s).1 (divertRecord r m s).2
      else (divertRecord r m s).2) = heavyMet r m s := by
  have hcfg : (divertRecord r m s).2.cfg = s.cfg := divertRecord_touches r m s .cfg (by decide)
  rw [heavyMet, handedToStopLine, hcfg]

theorem heavyMet_touches (r : Record) (m : Option ApproachEntry) (s : State) :
    changesOnly [.entry, .line, .alerts, .counters, .signs] s (heavyMet r m s) :=
  changesOnly_mono (changesOnly_append (divertRecord_touches r m s)
    (handedToStopLine_touches (divertRecord r m s).1 _)) (by decide)

theorem heavyMet_kept (r : Record) (m : Option ApproachEntry) (s : State) : JoinKept s (heavyMet r m s) := by
  have htouch := divertRecord_touches r m s
  have hkept := handedToStopLine_kept (divertRecord r m s).1 (divertRecord r m s).2
  have hentry : (divertRecord r m s).2.entry = s.entry := htouch .entry (by decide)
  have hl : (divertRecord r m s).2.line = s.line := htouch .line (by decide)
  refine ⟨?_, fun y hy => (hkept.alert y hy).trans (alertOf_congr (htouch .alerts (by decide)) y), ?_⟩
  · have h := hkept.overdue
    unfold overdueKept at h ⊢
    rw [← hentry]
    exact h
  · obtain h | ⟨x, hx, h⟩ := hkept.line
    · exact .inl (h.trans hl)
    · exact .inr ⟨x, hx, h.trans (enqueue_line_congr x (htouch .startup (by decide))
        (htouch .clock (by decide)) hl)⟩

theorem heavyMet_counters (r : Record) (m : Option ApproachEntry) (s : State) :
    (heavyMet r m s).counters = { s.counters with lanes := (heavyMet r m s).counters.lanes } ∧
      sameBut r.lane s.counters.lanes (heavyMet r m s).counters.lanes := by
  obtain ⟨f, hf, hj⟩ := handedToStopLine_counters (divertRecord r m s).1 (divertRecord r m s).2
  obtain ⟨hd, hother⟩ := divertRecord_counters r m s
  obtain ⟨-, -, hlane, -⟩ := divertRecord_kept r m s
  rw [hlane] at hf
  have hlanes : (heavyMet r m s).counters.lanes = f (divertRecord r m s).2.counters.lanes :=
    congrArg Counters.lanes hj
  refine ⟨?_, fun k hk => ?_⟩
  · rw [hlanes]
    refine hj.trans ?_
    rw [hd]
  · rw [hlanes, sameBut_of_stops hf _ k hk, hother k hk]

theorem heavyMet_idleSigns (r : Record) (m : Option ApproachEntry) (h : s.cfg.divert = false) :
    (heavyMet r m s).signs = s.signs := by
  have hd := divertRecord_idle (s := s) r m h
  refine (handedToStopLine_touches _ _ .signs (by decide)).trans ?_
  rw [hd]

theorem heavyMet_idleEntry (r : Record) (m : Option ApproachEntry) (h : s.cfg.entry = false) :
    heavyMet r m s = (divertRecord r m s).2 := by
  have hcfg : (divertRecord r m s).2.cfg = s.cfg := divertRecord_touches r m s .cfg (by decide)
  exact handedToStopLine_idle (by rw [hcfg]; exact h)

/-- The station at the closing of a heavy vehicle, from what it has announced. -/
def heavyClosed (l : Lane) (v : Tab (Option OpenVehicle) 4) (n : BitVec 12) (a : Approach) (q : State) : State :=
  besides v n a (oneHeavy l) q

theorem heavyClosed_touches (l : Lane) (v : Tab (Option OpenVehicle) 4) (n : BitVec 12) (a : Approach)
    (q : State) : changesOnly [.vehicles, .nextSerial, .approach, .counters] q (heavyClosed l v n a q) :=
  changesOnly_append (changesOnly_append (changesOnly_append (touches_vehicles q v)
    (touches_nextSerial { q with vehicles := v } n))
    (touches_approach { q with vehicles := v, nextSerial := n } a))
    (touches_counters { q with vehicles := v, nextSerial := n, approach := a }
      { q.counters with lanes := oneHeavy l q.counters.lanes })

/-- R52: a heavy vehicle closes. -/
theorem closing_heavy {q : State} (hr : r.lane = l) (hq : changesOnly [.line, .alerts] (heavyMet r m s) q)
    (halerts : ∀ y, isCondition y = true → alertOf q y = alertOf (heavyMet r m s) y) :
    Closing l s (heavyMet r m s) (heavyClosed l v n a q) := by
  have hmet := heavyMet_touches r m s
  have hkept := heavyMet_kept r m s
  obtain ⟨hcounters, hother⟩ := heavyMet_counters r m s
  have hqcounters : q.counters = (heavyMet r m s).counters := hq .counters (by decide)
  have hqentry : q.entry = (heavyMet r m s).entry := hq .entry (by decide)
  refine ⟨changesOnly_mono (changesOnly_append (changesOnly_append hmet hq) (heavyClosed_touches l v n a q))
      (by decide), hq .signs (by decide), hqentry, heavyMet_idleSigns r m, fun he => ?_, ?_, fun k hk => ?_, ?_,
    fun y hy => (halerts y hy).trans (hkept.condition y hy)⟩
  · rw [heavyMet_idleEntry r m he]
    exact divertRecord_touches r m s .entry (by decide)
  · have h : (heavyClosed l v n a q).counters =
        { q.counters with lanes := (heavyClosed l v n a q).counters.lanes } := rfl
    rw [h, hqcounters, hcounters]
  · have h : (heavyClosed l v n a q).counters.lanes = oneHeavy l q.counters.lanes := rfl
    rw [h, oneHeavy, Tab.at_upd_ne _ _ hk, hqcounters]
    exact hother k (by rw [hr]; exact hk)
  · have h := hkept.overdue
    unfold overdueKept at h ⊢
    rw [← h, ← hqentry]
    rfl

end

/-! ## Unmatched heavy vehicles (R50, R52) -/

section

variable {s : State} {l : Lane} {v : OpenVehicle} {r d : Record} {g : Tag}

theorem freeSerial_of_free {k : BitVec 12} {fuel : Nat}
    (h : tagHeld s { origin := s.cfg.station, serial := k } = false) : freeSerial s (fuel + 1) k = k := by
  rw [freeSerial, h, if_neg Bool.false_ne_true]

/-- R50: a record that matches nothing takes the next serial. -/
theorem matchOrTag_of_unmatched (hfor : matchFor s r = none)
    (hg : g = { origin := s.cfg.station, serial := s.nextSerial }) (hfree : tagHeld s g = false) :
    matchOrTag r (setVehicle l none s) =
      ({ r with tag := some g }, none,
        besides (vehicleClosed l s) (s.nextSerial + 1) s.approach id s) := by
  subst hg
  have hfor' : matchFor (setVehicle l none s) r = none := hfor
  have hserial : freeSerial (setVehicle l none s) 4096 (setVehicle l none s).nextSerial = s.nextSerial :=
    freeSerial_of_free (s := setVehicle l none s) hfree
  unfold matchOrTag
  rw [hfor']
  dsimp only
  rw [hserial]
  rfl

theorem closeRecord_heavy (h : s.cfg.heavyThreshold ≤ (v.axles.filterMap Axle.load).sum) :
    (closeRecord s.cfg l v false).heavy = true := by
  have hheavy : (closeRecord s.cfg l v false).heavy =
      (decide (s.cfg.heavyThreshold ≤ (v.axles.filterMap Axle.load).sum) ||
        ((v.axles.any fun a => a.flags.unweighed) && decide (3 ≤ v.axles.length))) := rfl
  rw [hheavy, decide_eq_true h, Bool.true_or]

theorem closeVehicle_heavy (hv : s.vehicles.at l = some v)
    (h : s.cfg.heavyThreshold ≤ (v.axles.filterMap Axle.load).sum) :
    closeVehicle l false s = handOnHeavy (closeRecord s.cfg l v false) (setVehicle l none s) := by
  simp only [closeVehicle, hv]
  rw [closeRecord_heavy h, if_pos rfl]

/-- R65: only a RUNNING station takes a frame into flight. -/
theorem takeIntoFlight_of_notRunning (h : s.startup ≠ .running) : takeIntoFlight s = s := by
  unfold takeIntoFlight
  split
  · rfl
  · exact if_neg fun hr => h hr.1

/-- Without EXIT and ENTRY, and with no frame taken into flight, the weighing is the one notice. -/
theorem recordAnnounced_of_idle (hexit : s.cfg.exit = false)
    (hidle : s.startup = .joining ∨ s.line.transmit ≠ .idle) :
    recordAnnounced r g false s = queueFrame (.vehicle (weighingOf r g) r.time) s := by
  have hnone : queueLeft r g s = s := if_neg (by rw [hexit]; exact Bool.false_ne_true)
  unfold recordAnnounced
  rw [hnone]
  obtain hjoining | hbusy := hidle
  · refine takeIntoFlight_of_notRunning fun hrun => ?_
    have hkept := queueFrame_touches (.vehicle (weighingOf r g) r.time) s .startup (by decide)
    exact nomatch hjoining.symm.trans (hkept.symm.trans hrun)
  · exact enqueue_of_busy hbusy

theorem class_vehicle (x : WeighingBody) (c : Clock) : (Notice.vehicle x c).class_ = 2 := by
  simp only [Notice.class_, Notice.kind]

theorem class_beacon_iff (n : Notice) : 2 < n.class_ ↔ n = .beacon := by
  cases n <;> simp [Notice.class_, Notice.kind]

/-- R61, R63: which frame a VEHICLE displaces. -/
theorem vehicle_displaces {front : List Waiting} {last x : Waiting} (q : List Waiting)
    (hordered : queueOrdered (front ++ [last])) :
    (if 2 < last.notice.class_ then
        front.filter (fun w => decide (w.notice.class_ ≤ 2)) ++
          x :: front.filter (fun w => !decide (w.notice.class_ ≤ 2))
      else q) = if last.notice = .beacon then front ++ [x] else q := by
  refine ite_congr (propext (class_beacon_iff last.notice)) (fun hlast => ?_) fun _ => rfl
  have hahead : ∀ w ∈ front, w.notice.class_ ≤ 2 := fun w hw => by
    have hnot := ((List.pairwise_append.1 hordered).2.2 w hw last (List.mem_singleton_self last))
    refine Nat.le_of_not_lt fun hgt => ?_
    have hbeacon := (class_beacon_iff w.notice).1 hgt
    rw [hbeacon, hlast] at hnot
    exact absurd hnot.2 (by simp [sameNotice])
  have hall : front.filter (fun w => decide (w.notice.class_ ≤ 2)) = front :=
    List.filter_eq_self.2 fun w hw => decide_eq_true (hahead w hw)
  have hnone : front.filter (fun w => !decide (w.notice.class_ ≤ 2)) = [] :=
    List.filter_eq_nil_iff.2 fun w hw => by rw [decide_eq_true (hahead w hw)]; exact Bool.false_ne_true
  rw [hall, hnone]

end

/-- Settles O17: tagged, announced and counted. -/
theorem heavyVehicleIsTaggedAndAnnounced : Obligations.HeavyVehicleIsTaggedAndAnnounced := by
  unfold Obligations.HeavyVehicleIsTaggedAndAnnounced
  intro s l v r g hs hworking hv hdue htrim hgross hr hfor hg hfree d j announced
  let tagged : Record := { r with tag := some g }
  have hj : j = heavyMet tagged none s := heavyMet_eq tagged none s
  clear_value j
  let q := recordAnnounced d.1 g false j
  let w := heavyClosed l (vehicleClosed l s) (s.nextSerial + 1) s.approach q
  obtain ⟨hdtag, hdref, hdlane, hdtime, -, -⟩ := divertRecord_kept tagged none s
  have hannounced : weighingNotice d.1 g false = announced :=
    congrArg (Notice.vehicle _) hdtime
  have hq := recordAnnounced_touches d.1 g false j
  have hlane : tagged.lane = l := congrArg Record.lane hr
  have hclosing : Closing l s j w := by
    have h := closing_heavy (s := s) (r := tagged) (m := none) (v := vehicleClosed l s)
      (n := s.nextSerial + 1) (a := s.approach) (q := q) hlane
    rw [← hj] at h
    refine h hq fun y hy => alertOf_recordAnnounced_ne fun hdrop => ?_
    rw [hdrop] at hy
    cases hy
  have hmet := heavyMet_touches tagged none s
  have hkept := heavyMet_kept tagged none s
  rw [← hj] at hmet hkept
  have hjcfg : j.cfg = s.cfg := hmet .cfg (by decide)
  have hclosed : closeVehicle l false s = w := by
    rw [closeVehicle_heavy hv hgross, ← hr, handOnHeavy_eq (matchOrTag_of_unmatched hfor hg hfree) rfl hlane]
    have hnone (x : State) : referenceOffered d.1 x = x := by
      rw [referenceOffered, hdref, show tagged.reference = none from congrArg Record.reference hr]
    refine (congrArg (countLane l _) (hnone _)).trans ?_
    exact congrArg (fun x => heavyClosed l (vehicleClosed l s) (s.nextSerial + 1) s.approach
      (recordAnnounced d.1 g false x)) hj.symm
  have hexec : exec (.closeTimerExpiry l) s = .next (settle w) := by
    rw [exec_closeTimerExpiry hv hdue, hclosed, applyTrim_of_none]
    · rfl
    · have hwtrim : w.trim = s.trim := (hq .trim (by decide)).trans (hmet .trim (by decide))
      rw [hwtrim]
      exact htrim
  have hline : (settle w).line = q.line := settle_line w
  have hvehicles : (settle w).vehicles = vehicleClosed l s := settle_changesOnly w .vehicles (by decide)
  have hcounters : (settle w).counters.lanes = oneHeavy l j.counters.lanes := by
    rw [settle_counters]
    have hsame : q.counters = j.counters := hq .counters (by decide)
    exact congrArg (fun c : Counters => oneHeavy l c.lanes) hsame
  refine ⟨settle w, hexec, ?_, fun k hk => ?_, settle_changesOnly w .nextSerial (by decide),
    hclosing.handedOn hs, fun hqueue => ?_,
    fun front last hexit hentry hidle hqueue hlen hordered hnew => ?_, ?_, ?_⟩
  · rw [hvehicles]
    exact Tab.at_put_self _ _ _
  · rw [hvehicles]
    exact Tab.at_put_ne _ _ hk
  · obtain ⟨hkinds, hroom⟩ := joinKept_queue hkept hqueue
    have hquiet := recordAnnounced_of_quiet (r := d.1) (matched := false) (g := g) hkinds hroom
    have hqalerts : q.alerts = j.alerts := (congrArg State.alerts hquiet :)
    have hqline : q.line = lineTakes (announcedNotices s.cfg.exit d.1 g false) j := by
      rw [← hjcfg]
      exact congrArg State.line hquiet
    refine ⟨?_, fun y => hclosing.alert hs hkept.condition fun _ => alertOf_congr hqalerts y, fun he => ?_⟩
    · rw [hline, hqline, announcedNotices, hannounced, hdtime]
    · refine hclosing.alerts_same hs (hqalerts.trans ?_)
      exact (congrArg State.alerts (hj.trans (heavyMet_idleEntry tagged none he))).trans
        (divertRecord_touches tagged none s .alerts (by decide))
  · have hjline : j.line = s.line := (congrArg State.line (hj.trans (heavyMet_idleEntry tagged none hentry))).trans
      (divertRecord_touches tagged none s .line (by decide))
    have hjalerts : j.alerts = s.alerts := (congrArg State.alerts (hj.trans (heavyMet_idleEntry tagged none hentry))).trans
      (divertRecord_touches tagged none s .alerts (by decide))
    have hjstartup : j.startup = s.startup := hmet .startup (by decide)
    have hjclock : j.clock = s.clock := hmet .clock (by decide)
    have hqdef : q = queueFrame announced j :=
      (recordAnnounced_of_idle (by rw [hjcfg]; exact hexit) (by rw [hjstartup, hjline]; exact hidle)).trans
        (congrArg (fun n => queueFrame n j) hannounced)
    obtain ⟨hqline, hsticky, hcount, hothers, -⟩ := queueFrame_into_full (s := j) (n := announced)
      (front := front) (last := last) (by rw [working, hjstartup]; exact hworking)
      (by rw [hjline]; exact hqueue) hlen.ge (by rw [hjline]; exact hordered)
      (by rw [hjline]; exact hnew)
    have halert {y : AlertSource} (hy : isCondition y = false) :
        alertOf (settle w) y = alertOf (queueFrame announced j) y := by
      rw [alertOf_settle_event w hy, ← hqdef]
      rfl
    refine ⟨?_, ?_, ?_, fun y hy => ?_⟩
    · rw [hqueue] at hordered
      have hclass : announced.class_ = 2 := class_vehicle _ _
      rw [hline, hqdef, hqline, hjline, hjclock]
      simp only [hclass]
      exact congrArg (fun x => { s.line with
        queue := x, counts := { s.line.counts with drops := s.line.counts.drops + 1 } })
        (vehicle_displaces s.line.queue hordered)
    · rw [halert rfl]
      exact hsticky
    · rw [halert rfl, ← alertOf_congr hjalerts]
      exact hcount
    · cases hc : isCondition y with
      | true => exact hclosing.alert_condition hs hc
      | false => rw [halert hc, hothers y hy, alertOf_congr hjalerts]
  · rw [hcounters, oneHeavy, Tab.at_upd_self]
  · refine changesOnly_drop (b := .approach) (changesOnly_mono (changesOnly_append (changesOnly_append
      (changesOnly_append hmet hq) (heavyClosed_touches l (vehicleClosed l s) (s.nextSerial + 1) s.approach q))
      (settle_changesOnly w)) (by decide)) ?_
    exact settle_changesOnly w .approach (by decide)

end Sys2Proof.Proofs
end

