-- ==== Sys2Proof/Proofs/MatchedFirst.lean ====
section
/-! PROOFS. Which entry of the approach list a record is matched to (R106 to R108). -/

namespace Sys2Proof.Proofs

open Sys2Proof Sys2Proof.Machine

/-! ## Candidates (R106, R107) -/

section

variable {s : State} {r : Record} {f : ApproachEntry}

/-- R107: the summed differences of rounded record spacings and entry spacings, all present. -/
def spacingDifference (xs ys : List Nat) : Nat :=
  ((xs.zip ys).map fun z => max ((z.1 + 2) / 5 * 5) z.2 - min ((z.1 + 2) / 5 * 5) z.2).sum

theorem spacingSum_of_present {xs ys : List Nat} (h : xs.length = ys.length) :
    spacingSum (xs.map some) ys = some (spacingDifference xs ys) := by
  induction xs generalizing ys with
  | nil => rfl
  | cons x xs ih =>
    cases ys with
    | nil => cases h
    | cons y ys =>
      rw [List.map_cons, spacingSum, List.tail_cons, ih (Nat.succ.inj h), Option.map_some]
      exact congrArg some (Nat.add_comm _ _)

/-- Either a record holds all its spacings, or there is nothing to sum. -/
theorem spacings_present_or_none (l : List (Option Nat)) :
    (∃ xs : List Nat, l = xs.map some) ∨ ∀ ys, spacingSum l ys = none := by
  induction l with
  | nil => exact .inl ⟨[], rfl⟩
  | cons x l ih =>
    cases x with
    | none => exact .inr fun _ => rfl
    | some x =>
      obtain ⟨xs, rfl⟩ | hnone := ih
      · exact .inl ⟨x :: xs, rfl⟩
      · refine .inr fun ys => ?_
        rw [spacingSum, hnone]
        rfl

/-- R107: the spacings of record and entry, where both have them all, lie within the tolerance. -/
def spacingsClose (s : State) (r : Record) (f : ApproachEntry) : Prop :=
  ∀ xs ys : List Nat, f.spacings = some ys → ys.length + 1 = r.axles.length → r.spacings = xs.map some →
    spacingDifference xs ys ≤ s.cfg.matchTolerance * (r.axles.length - 1)

theorem spacingsAgree_iff (hlen : r.spacings.length + 1 = r.axles.length)
    (hcount : ∀ ys, f.spacings = some ys → f.axleCount = some (ys.length + 1)) :
    spacingsAgree s r f = true ↔ spacingsClose s r f := by
  unfold spacingsAgree
  cases hy : f.spacings with
  | none => exact ⟨fun _ xs ys h => (nomatch hy.symm.trans h), fun _ => rfl⟩
  | some ys =>
    have hys {zs : List Nat} (h : f.spacings = some zs) : zs = ys := Option.some.inj (h.symm.trans hy)
    dsimp only
    rw [hcount ys hy]
    by_cases hn : ys.length + 1 = r.axles.length
    · rw [if_pos (congrArg some hn)]
      obtain ⟨xs, hxs⟩ | hnone := spacings_present_or_none r.spacings
      · have hsame : xs.length = ys.length := by
          rw [hxs, List.length_map] at hlen
          omega
        rw [hxs, spacingSum_of_present hsame]
        refine decide_eq_true_iff.trans ⟨fun h xs' ys' hf _ hr => ?_, fun h => h xs ys hy hn hxs⟩
        have hxs' : xs' = xs := List.map_injective_iff.2 (Option.some_injective _) (hr.symm.trans hxs)
        rw [hys hf, hxs']
        exact h
      · rw [hnone ys]
        refine ⟨fun _ xs' ys' hf _ hr => ?_, fun _ => rfl⟩
        have hlen' : xs'.length = ys.length := by
          rw [hr, List.length_map] at hlen
          omega
        have hsum := hnone ys
        rw [hr, spacingSum_of_present hlen'] at hsum
        cases hsum
    · rw [if_neg fun h => hn (Option.some.inj h)]
      exact ⟨fun _ xs' ys' hf hn' _ => absurd (by rw [← hys hf]; exact hn') hn, fun _ => rfl⟩

/-- R106: the axle counts agree. -/
def axlesClose (r : Record) (f : ApproachEntry) : Prop :=
  ∀ c, f.axleCount = some c → c = r.axles.length ∨
    ((c = r.axles.length + 1 ∨ c + 1 = r.axles.length) ∧
      (r.straddle = true ∨ r.overlong = true ∨ r.continuation = true ∨ r.singleSource = true ∨
        f.straddle = true ∨ f.overlong = true ∨ f.continuation = true ∨ f.singleSource = true))

theorem axlesAgree_iff : axlesAgree r f = true ↔ axlesClose r f := by
  unfold axlesAgree axlesClose
  cases f.axleCount with
  | none => exact ⟨fun _ c h => (nomatch h), fun _ => rfl⟩
  | some n =>
    simp only [Option.some.injEq, forall_eq', Bool.or_eq_true, Bool.and_eq_true, decide_eq_true_eq, or_assoc]

/-- R106, R107: an entry that a record may be matched to. -/
def candidate (s : State) (r : Record) (f : ApproachEntry) : Prop :=
  laneNumber r.lane ≤ min (laneNumber f.lane) s.cfg.laneCount + 1 ∧
    min (laneNumber f.lane) s.cfg.laneCount ≤ laneNumber r.lane + 1 ∧
    atOrAfter r.time f.windowOpen = true ∧ atOrAfter f.windowClose r.time = true ∧
    axlesClose r f ∧ spacingsClose s r f

theorem isCandidate_iff (hlen : r.spacings.length + 1 = r.axles.length)
    (hcount : ∀ ys, f.spacings = some ys → f.axleCount = some (ys.length + 1)) :
    isCandidate s r f = true ↔ candidate s r f := by
  simp only [isCandidate, lanesAgree, inWindow, candidate, Bool.and_eq_true, decide_eq_true_eq,
    axlesAgree_iff, spacingsAgree_iff hlen hcount, and_assoc]

end

/-! ## The order of trial (R108) -/

section

variable {s : State} {r : Record} {now t : Clock} {e f g : ApproachEntry}

theorem elapsed_injective {x y : Clock} (h : elapsed t x = elapsed t y) : x = y := by
  have h' : t - x = t - y := BitVec.eq_of_toNat_eq h
  exact (BitVec.sub_right_inj t).1 h'

/-- Of two readings that a third is at or after, the one longer ago is before. -/
theorem strictlyBefore_iff {x y : Clock} (hx : elapsed t x < 2147483648) (hy : elapsed t y < 2147483648) :
    strictlyBefore x y = true ↔ elapsed t y < elapsed t x := by
  unfold strictlyBefore atOrAfter
  unfold elapsed at *
  simp only [Bool.and_eq_true, decide_eq_true_eq]
  constructor
  · rintro ⟨hne, hlt⟩
    bv_omega
  · intro h
    exact ⟨by rintro rfl; exact absurd h (lt_irrefl _), by bv_omega⟩

/-- R108: entry `f` is tried before entry `g` for a record of time `t`. -/
def triedAhead (now t : Clock) (f g : ApproachEntry) : Prop :=
  elapsed t g.windowOpen < elapsed t f.windowOpen ∨
    (f.windowOpen = g.windowOpen ∧
      (elapsed now g.created < elapsed now f.created ∨
        (f.created = g.created ∧
          (f.tag.origin.val < g.tag.origin.val ∨
            (f.tag.origin = g.tag.origin ∧ f.tag.serial.toNat < g.tag.serial.toNat)))))

/-- The order in the numbers it compares. -/
theorem triedAhead_iff :
    triedAhead now t f g ↔
      elapsed t g.windowOpen < elapsed t f.windowOpen ∨
        (elapsed t f.windowOpen = elapsed t g.windowOpen ∧
          (elapsed now g.created < elapsed now f.created ∨
            (elapsed now f.created = elapsed now g.created ∧
              (f.tag.origin.val < g.tag.origin.val ∨
                (f.tag.origin.val = g.tag.origin.val ∧ f.tag.serial.toNat < g.tag.serial.toNat))))) := by
  have hwindow : f.windowOpen = g.windowOpen ↔ elapsed t f.windowOpen = elapsed t g.windowOpen :=
    ⟨congrArg (elapsed t), elapsed_injective⟩
  have hcreated : f.created = g.created ↔ elapsed now f.created = elapsed now g.created :=
    ⟨congrArg (elapsed now), elapsed_injective⟩
  rw [triedAhead, hwindow, hcreated, Fin.ext_iff]

theorem triedAhead_asymm (h : triedAhead now t f g) : ¬triedAhead now t g f := by
  rw [triedAhead_iff] at h ⊢
  omega

theorem triedAhead_trans (hef : triedAhead now t e f) (hfg : triedAhead now t f g) : triedAhead now t e g := by
  rw [triedAhead_iff] at hef hfg ⊢
  omega

theorem triedAhead_total (h : f.tag ≠ g.tag) : triedAhead now t f g ∨ triedAhead now t g f := by
  have hparts : ¬(f.tag.origin.val = g.tag.origin.val ∧ f.tag.serial.toNat = g.tag.serial.toNat) := by
    rintro ⟨ho, hn⟩
    refine h ?_
    cases hf : f.tag
    cases hg : g.tag
    rw [hf, hg] at ho hn
    congr 1
    · exact Fin.ext ho
    · exact BitVec.eq_of_toNat_eq hn
  rw [triedAhead_iff, triedAhead_iff]
  omega

/-- The readings of an entry are no longer ago than the clock tells apart. -/
def recent (now t : Clock) (f : ApproachEntry) : Prop :=
  elapsed t f.windowOpen < 2147483648 ∧ elapsed now f.created < 2147483648

theorem triedBefore_iff (hf : recent now t f) (hg : recent now t g) :
    triedBefore f g = true ↔ triedAhead now t f g := by
  unfold triedBefore triedAhead tagBefore
  simp only [Bool.or_eq_true, Bool.and_eq_true, decide_eq_true_eq, strictlyBefore_iff hf.1 hg.1,
    strictlyBefore_iff hf.2 hg.2]

theorem firstTried_isSome {es : List ApproachEntry} (h : es ≠ []) : ∃ x, firstTried es = some x := by
  cases es with
  | nil => exact absurd rfl h
  | cons e es =>
    unfold firstTried
    split
    · exact ⟨_, rfl⟩
    · split <;> exact ⟨_, rfl⟩

/-- R108: the entry tried first is ahead of every other. -/
theorem firstTried_ahead {es : List ApproachEntry} (hdistinct : es.Pairwise fun a b => a.tag ≠ b.tag)
    (hrecent : ∀ x ∈ es, recent now t x) (h : firstTried es = some e) :
    e ∈ es ∧ ∀ x ∈ es, x = e ∨ triedAhead now t e x := by
  induction es generalizing e with
  | nil => cases h
  | cons y es ih =>
    obtain ⟨hy, hdistinct⟩ := List.pairwise_cons.1 hdistinct
    obtain ⟨hyrecent, hrecent⟩ := List.forall_mem_cons.1 hrecent
    cases hrest : firstTried es with
    | none =>
      have hnil : es = [] := by
        by_contra hne
        obtain ⟨x, hx⟩ := firstTried_isSome hne
        rw [hrest] at hx
        cases hx
      rw [firstTried, hrest] at h
      cases h
      rw [hnil]
      exact ⟨List.mem_singleton_self y, fun x hx => .inl (List.mem_singleton.1 hx)⟩
    | some z =>
      obtain ⟨hz, hahead⟩ := ih hdistinct hrecent hrest
      rw [firstTried, hrest] at h
      dsimp only at h
      by_cases hzy : triedAhead now t z y
      · rw [if_pos ((triedBefore_iff (hrecent z hz) hyrecent).2 hzy)] at h
        cases h
        refine ⟨List.mem_cons_of_mem y hz, fun x hx => ?_⟩
        obtain rfl | hx := List.mem_cons.1 hx
        · exact .inr hzy
        · exact hahead x hx
      · rw [if_neg fun hb => hzy ((triedBefore_iff (hrecent z hz) hyrecent).1 hb)] at h
        cases h
        have hyz : triedAhead now t y z := (triedAhead_total (hy z hz)).resolve_right hzy
        refine ⟨List.mem_cons_self, fun x hx => ?_⟩
        obtain hx | hx := List.mem_cons.1 hx
        · exact .inl hx
        · obtain hxz | hzx := hahead x hx
          · exact .inr (hxz ▸ hyz)
          · exact .inr (triedAhead_trans hyz hzx)

theorem firstTried_eq_some_iff {es : List ApproachEntry} (hdistinct : es.Pairwise fun a b => a.tag ≠ b.tag)
    (hrecent : ∀ x ∈ es, recent now t x) :
    firstTried es = some e ↔ e ∈ es ∧ ∀ x ∈ es, x = e ∨ triedAhead now t e x := by
  refine ⟨firstTried_ahead hdistinct hrecent, fun ⟨he, hahead⟩ => ?_⟩
  obtain ⟨x, hx⟩ := firstTried_isSome (List.ne_nil_of_mem he)
  obtain ⟨hmem, hxahead⟩ := firstTried_ahead hdistinct hrecent hx
  obtain hxe | hex := hahead x hmem
  · rw [hx, hxe]
  · obtain hex' | hxe := hxahead e he
    · rw [hx, hex']
    · exact absurd hxe (triedAhead_asymm hex)

/-- R106 to R108: the match of a record. -/
theorem matchFor_eq_some_iff (hlen : r.spacings.length + 1 = r.axles.length)
    (hdistinct : s.approach.entries.Pairwise fun a b => a.tag ≠ b.tag)
    (hlist : ∀ f ∈ s.approach.entries, elapsed s.clock f.created < 2147483648 ∧
      ∀ ys, f.spacings = some ys → f.axleCount = some (ys.length + 1)) :
    matchFor s r = some e ↔
      e ∈ s.approach.entries ∧ candidate s r e ∧
        ∀ f ∈ s.approach.entries, candidate s r f → f = e ∨ triedAhead s.clock r.time e f := by
  have hmem (f : ApproachEntry) :
      f ∈ s.approach.entries.filter (isCandidate s r) ↔ f ∈ s.approach.entries ∧ candidate s r f :=
    List.mem_filter.trans (and_congr_right fun hf => isCandidate_iff hlen (hlist f hf).2)
  have hrecent : ∀ f ∈ s.approach.entries.filter (isCandidate s r), recent s.clock r.time f := fun f hf => by
    obtain ⟨hin, -, -, hopen, -⟩ := (hmem f).1 hf
    exact ⟨of_decide_eq_true hopen, (hlist f hin).1⟩
  rw [matchFor, firstTried_eq_some_iff (hdistinct.filter _) hrecent]
  simp only [hmem, and_assoc, and_imp]

end

end Sys2Proof.Proofs
end

