-- ==== Sys2Proof/Proofs/RecordsMatched.lean ====
section
/-! PROOFS. A matched heavy vehicle takes over its entry and is offered to the trim unit (R109, R159). -/

namespace Sys2Proof.Proofs

open Sys2Proof Sys2Proof.Machine

/-! ## What the trim unit works from (R159 to R162) -/

section

variable {s u j : State} {l : Lane} {r r' : Record} {ref : Nat}

/-- Two states in which the trim unit works alike. -/
structure TrimAlike (s u : State) : Prop where
  trim : u.trim = s.trim
  store : u.store = s.store
  startup : u.startup = s.startup
  alert : alertOf u .trimLimit = alertOf s .trimLimit

theorem TrimAlike.setTrim (h : TrimAlike s u) (x : TrimLane) : TrimAlike (setTrim l x s) (setTrim l x u) :=
  ⟨congrArg (fun t : Tab TrimLane 4 => t.put l x) h.trim, h.store, h.startup, h.alert⟩

theorem TrimAlike.raise (h : TrimAlike s u) : TrimAlike (raise .trimLimit s) (raise .trimLimit u) := by
  refine ⟨by rw [raise_trim, raise_trim, h.trim], by rw [raise_store, raise_store, h.store],
    by rw [raise_startup, raise_startup, h.startup], ?_⟩
  have hworking : working u = working s := by rw [working, working, h.startup]
  cases hw : working s with
  | true => rw [alertOf_raise_self hw, alertOf_raise_self (hworking.trans hw), h.alert]
  | false =>
    rw [Machine.raise, Machine.raise, hworking, hw, if_neg Bool.false_ne_true, if_neg Bool.false_ne_true]
    exact h.alert

theorem TrimAlike.formPending (h : TrimAlike s u) : TrimAlike (formPending l s) (formPending l u) := by
  have hproduct : formedProduct l u = formedProduct l s := by rw [formedProduct, formedProduct, h.store, h.trim]
  have hformed : laneFormed l u = laneFormed l s := by rw [laneFormed, laneFormed, hproduct, h.trim]
  rw [formPending_eq, formPending_eq, hproduct, hformed]
  split
  · exact (h.setTrim _).raise
  · exact h.setTrim _

/-- R159 to R162: an offer is taken alike. -/
theorem TrimAlike.offerTrim (h : TrimAlike s u) (hlane : r'.lane = r.lane)
    (hconfidence : r'.confidence = r.confidence) (hgross : r'.gross = r.gross) :
    TrimAlike (offerTrim r ref s) (offerTrim r' ref u) := by
  have hratio : TrimAlike (withRatio r ref s) (withRatio r' ref u) := by
    rw [withRatio, withRatio, hlane, hgross, h.trim]
    exact h.setTrim _
  have htakes : takesRatio r' ref ↔ takesRatio r ref := by
    rw [takesRatio, takesRatio, hconfidence, hgross]
  by_cases ht : takesRatio r ref
  · rw [offerTrim_of_taken ht, offerTrim_of_taken (htakes.2 ht), hlane, h.trim]
    split
    · exact hratio.formPending
    · exact hratio
  · rw [offerTrim_of_refused ht, offerTrim_of_refused fun h' => ht (htakes.1 h'), hlane, h.trim]
    exact h.setTrim _

/-- R162: while no trim is formed nothing is raised. -/
theorem offerTrim_alerts (h : ((offerTrim r ref s).trim.at r.lane).pending = none) :
    (offerTrim r ref s).alerts = s.alerts := by
  by_cases ht : takesRatio r ref
  · by_cases hfull : 15 ≤ (s.trim.at r.lane).window.length
    · rw [offerTrim_of_full ht hfull, trim_at_formPending] at h
      cases h
    · rw [offerTrim_of_short ht (Nat.lt_of_not_le hfull)]
      rfl
  · rw [offerTrim_of_refused ht]
    rfl

theorem formPending_besides {v : Tab (Option OpenVehicle) 4} {n : BitVec 12} {a : Approach}
    {f : Tab LaneCounts 4 → Tab LaneCounts 4} :
    formPending l (besides v n a f s) = besides v n a f (formPending l s) := by
  rw [formPending_eq, formPending_eq, show formedProduct l (besides v n a f s) = formedProduct l s from rfl]
  split
  · exact raise_besides (s := setTrim l (laneFormed l s) s) .trimLimit
  · rfl

theorem offerTrim_besides {v : Tab (Option OpenVehicle) 4} {n : BitVec 12} {a : Approach}
    {f : Tab LaneCounts 4 → Tab LaneCounts 4} :
    offerTrim r ref (besides v n a f s) = besides v n a f (offerTrim r ref s) := by
  by_cases ht : takesRatio r ref
  · rw [offerTrim_of_taken ht, offerTrim_of_taken ht, show (besides v n a f s).trim = s.trim from rfl]
    split
    · exact formPending_besides (s := withRatio r ref s)
    · rfl
  · rw [offerTrim_of_refused ht, offerTrim_of_refused ht]
    rfl

/-- A closing that also offers to the trim unit. -/
theorem Closing.offerTrim (h : Closing l s j u) : Closing l s j (offerTrim r ref u) := by
  have htouch := offerTrim_touches r ref u
  have hentry : (Machine.offerTrim r ref u).entry = u.entry := htouch .entry (by decide)
  have hcounters : (Machine.offerTrim r ref u).counters = u.counters := htouch .counters (by decide)
  refine ⟨changesOnly_mono (changesOnly_append h.touches htouch) (by decide),
    (htouch .signs (by decide)).trans h.signs, hentry.trans h.entry, h.idle_signs, h.idle_entry, ?_, ?_, ?_,
    fun y hy => (alertOf_offerTrim_ne r ref u fun hl => ?_).trans (h.condition y hy)⟩
  · rw [hcounters]
    exact h.counters
  · rw [hcounters]
    exact h.others
  · unfold overdueKept
    rw [hentry]
    exact h.overdue
  · rw [hl] at hy
    cases hy

end

/-! ## Matched records (R109) -/

section

variable {s j : State} {l : Lane} {v : OpenVehicle} {r d m : Record} {e : ApproachEntry}

/-- R109: the approach list once an entry is matched. -/
def matchTaken (e : ApproachEntry) (s : State) : Approach :=
  { entries := withoutTag e.tag s.approach.entries
    counts := { s.approach.counts with matched := s.approach.counts.matched + 1 } }

theorem matchOrTag_of_matched (hfor : matchFor s r = some e) :
    matchOrTag r (setVehicle l none s) =
      (takeMatch r e, some e, besides (vehicleClosed l s) s.nextSerial (matchTaken e s) id s) := by
  have hfor' : matchFor (setVehicle l none s) r = some e := hfor
  unfold matchOrTag
  rw [hfor']
  rfl

/-- The station at the closing of a matched vehicle, before its record is offered to the trim unit. -/
def matchedClosed (l : Lane) (e : ApproachEntry) (d : Record) (j s : State) : State :=
  heavyClosed l (vehicleClosed l s) s.nextSerial (matchTaken e s) (recordAnnounced d e.tag true j)

/-- R52: the closing of a matched heavy vehicle. -/
theorem closeVehicle_matched (hv : s.vehicles.at l = some v)
    (hgross : s.cfg.heavyThreshold ≤ (v.axles.filterMap Axle.load).sum)
    (hr : r = closeRecord s.cfg l v false) (hfor : matchFor s r = some e) (hm : m = takeMatch r e)
    (hd : d = (divertRecord m (some e) s).1) (hj : j = heavyMet m (some e) s) :
    closeVehicle l false s = referenceOffered d (matchedClosed l e d j s) := by
  have hlane : m.lane = l := by rw [hm, hr]; rfl
  subst hd hj
  rw [closeVehicle_heavy hv hgross, ← hr,
    handOnHeavy_eq (matchOrTag_of_matched hfor) rfl (hm ▸ hlane), ← hm]
  unfold referenceOffered matchedClosed heavyClosed
  split
  · rw [offerTrim_besides, offerTrim_besides]
    rfl
  · rfl

/-- R164: a trim is applied in its lane alone. -/
theorem sameBut_applyTrim : sameBut l s.trim (applyTrim l s).trim := by
  unfold applyTrim
  split
  · split
    · exact fun k hk => Tab.at_put_ne _ _ hk
    · exact fun k _ => rfl
  · exact fun k _ => rfl

/-- R163, R164: a trim that an offer forms is applied at once in a quiet lane, and waits in another. -/
theorem trimOffered_pending {u : State} {ref p : Nat} (hsame : TrimAlike (offerTrim m ref s) u)
    (hlane : m.lane = l) (hp : ((offerTrim m ref s).trim.at l).pending = some p)
    (hquiet : laneQuiet u l = (s.pairing.at l).fifo.isEmpty) :
    sameBut l s.trim (applyTrim l u).trim ∧
      ((s.pairing.at l).fifo = [] →
        (applyTrim l u).store.trims.at l = p ∧ ((applyTrim l u).trim.at l).pending = none ∧
          ((applyTrim l u).trim.at l).window = []) ∧
      ((s.pairing.at l).fifo ≠ [] →
        (applyTrim l u).trim = (offerTrim m ref s).trim ∧ (applyTrim l u).store = s.store) := by
  have hothers := sameBut_offerTrim m ref s
  rw [hlane] at hothers
  refine ⟨fun k hk => ?_, fun hfifo => ?_, fun hfifo => ?_⟩
  · rw [sameBut_applyTrim k hk, hsame.trim]
    exact hothers k hk
  · have hdone := applyTrim_of_quiet (l := l) (w := u) (p := p) (by rw [hsame.trim]; exact hp)
      (by rw [hquiet, hfifo]; rfl)
    obtain ⟨hpending, -, hstore, -⟩ := trimApplied_spec l p u
    rw [hdone, hpending]
    exact ⟨hstore, rfl, rfl⟩
  · have hkeeps : applyTrim l u = u := by
      refine applyTrim_of_busy ?_
      rw [hquiet]
      exact List.isEmpty_eq_false_iff.2 hfifo
    rw [hkeeps]
    exact ⟨hsame.trim, hsame.store.trans (offerTrim_touches m ref s .store (by decide))⟩

theorem referenceOffered_touches (r : Record) (s : State) :
    changesOnly [.trim, .alerts] s (referenceOffered r s) := by
  unfold referenceOffered
  split
  · exact offerTrim_touches _ _ _
  · exact changesOnly_refl _ _

theorem alertOf_referenceOffered_ne {y : AlertSource} (hy : y ≠ .trimLimit) :
    alertOf (referenceOffered r s) y = alertOf s y := by
  unfold referenceOffered
  split
  · exact alertOf_offerTrim_ne _ _ _ hy
  · rfl

theorem Closing.referenceOffered {u : State} (h : Closing l s j u) : Closing l s j (referenceOffered r u) := by
  unfold Proofs.referenceOffered
  split
  · exact h.offerTrim
  · exact h

end

/-- Settles O18: the first candidate is the match, and the record takes it over. -/
theorem recordTakesItsMatch : Obligations.RecordTakesItsMatch := by
  unfold Obligations.RecordTakesItsMatch
  refine ⟨?_, ?_⟩
  · intro s r hlen hdistinct hlist n candidates before e
    exact matchFor_eq_some_iff hlen hdistinct hlist
  intro s l v r m e hs hworking hv hdue htrim hgross hr hfor hqueue hm d j
  have hj : j = heavyMet m (some e) s := heavyMet_eq m (some e) s
  have hlane : m.lane = l := by rw [hm, hr]; rfl
  let q := recordAnnounced d.1 e.tag true j
  let w := matchedClosed l e d.1 j s
  let w' := referenceOffered d.1 w
  let t := settle (applyTrim l w')
  obtain ⟨-, hdref, hdlane, hdtime, hdconfidence, hdgross⟩ := divertRecord_kept m (some e) s
  have hclosed : closeVehicle l false s = w' :=
    closeVehicle_matched hv hgross hr hfor (hm.trans rfl) rfl hj
  have hexec : exec (.closeTimerExpiry l) s = .next t := by
    rw [exec_closeTimerExpiry hv hdue, hclosed]
    rfl
  have hmet := heavyMet_touches m (some e) s
  have hkept := heavyMet_kept m (some e) s
  rw [← hj] at hmet hkept
  obtain ⟨hkinds, hroom⟩ := joinKept_queue hkept hqueue
  have hquiet : q = lined (lineTakes (announcedNotices j.cfg.exit d.1 e.tag true) j) j :=
    recordAnnounced_of_quiet hkinds hroom
  have hqalerts : q.alerts = j.alerts := (congrArg State.alerts hquiet :)
  have hq : changesOnly [.line, .alerts] j q := recordAnnounced_touches d.1 e.tag true j
  have hclosing : Closing l s j w := by
    have h := closing_heavy (s := s) (r := m) (m := some e) (v := vehicleClosed l s)
      (n := s.nextSerial) (a := matchTaken e s) (q := q) hlane
    rw [← hj] at h
    exact h hq fun y _ => alertOf_congr hqalerts y
  have happlied : Closing l s j (applyTrim l w') := hclosing.referenceOffered.applyTrim
  have hoffer : changesOnly [.trim, .alerts] w w' := referenceOffered_touches d.1 w
  have happly := applyTrim_touches l w'
  have htouch : changesOnly [.trim, .alerts, .store] w (applyTrim l w') :=
    changesOnly_mono (changesOnly_append hoffer happly) (by decide)
  have halike : TrimAlike s w :=
    ⟨(hq .trim (by decide)).trans (hmet .trim (by decide)), (hq .store (by decide)).trans (hmet .store (by decide)),
      (hq .startup (by decide)).trans (hmet .startup (by decide)),
      (alertOf_congr hqalerts .trimLimit).trans (hkept.alert .trimLimit (.inr rfl))⟩
  have halerts (y : AlertSource) : alertOf (applyTrim l w') y = alertOf w' y :=
    alertOf_congr (happly .alerts (by decide)) y
  have hlimit : alertOf t .trimLimit = alertOf w' .trimLimit :=
    (alertOf_settle_event _ rfl).trans (halerts .trimLimit)
  have hidle (he : s.cfg.entry = false) (h : w'.alerts = w.alerts) : t.alerts = s.alerts := by
    refine happlied.alerts_same hs ((happly .alerts (by decide)).trans (h.trans (hqalerts.trans ?_)))
    exact (congrArg State.alerts (hj.trans (heavyMet_idleEntry m (some e) he))).trans
      (divertRecord_touches m (some e) s .alerts (by decide))
  have hsettled {b : Block} (hb : b ∉ [Block.signs, .lamps, .entry, .alerts]) :
      same (applyTrim l w') t b := settle_changesOnly _ b hb
  have hvehicles : t.vehicles = vehicleClosed l s :=
    (hsettled (b := .vehicles) (by decide)).trans (htouch .vehicles (by decide))
  have hlist : t.approach = matchTaken e s :=
    (hsettled (b := .approach) (by decide)).trans (htouch .approach (by decide))
  have hcounters : t.counters.lanes = oneHeavy l j.counters.lanes := by
    have hsame : q.counters = j.counters := hq .counters (by decide)
    have hkeeps : t.counters = w.counters := (settle_counters _).trans (htouch .counters (by decide))
    rw [hkeeps]
    exact congrArg (fun c : Counters => oneHeavy l c.lanes) hsame
  have htrims : t.trim = (applyTrim l w').trim := hsettled (b := .trim) (by decide)
  have hstores : t.store = (applyTrim l w').store := hsettled (b := .store) (by decide)
  have hlaneQuiet : laneQuiet w' l = (s.pairing.at l).fifo.isEmpty := by
    refine laneQuiet_closed ?_ ((hoffer .pairing (by decide)).trans (hclosing.touches .pairing (by decide)))
    rw [show w'.vehicles = vehicleClosed l s from hoffer .vehicles (by decide)]
    exact Tab.at_put_self _ _ _
  refine ⟨t, hexec, ?_, fun k hk => ?_, congrArg Approach.entries hlist, congrArg Approach.counts hlist,
    happlied.handedOn hs, ?_, ?_, fun y hy => ?_, ?_, fun hnone => ?_, fun ref href => ?_⟩
  · rw [hvehicles]
    exact Tab.at_put_self _ _ _
  · rw [hvehicles]
    exact Tab.at_put_ne _ _ hk
  · have hkeeps : t.line = q.line := (settle_line _).trans (htouch .line (by decide))
    have hjcfg : j.cfg = s.cfg := hmet .cfg (by decide)
    rw [hkeeps, hquiet, ← hjcfg]
    have hnotice : weighingNotice d.1 e.tag true = .sighting (weighingOf d.1 e.tag) r.time :=
      congrArg (Notice.sighting _) (hdtime.trans (by rw [hm]))
    rw [announcedNotices, hnotice, hdtime, hm]
    rfl
  · rw [hcounters, oneHeavy, Tab.at_upd_self]
  · exact happlied.alert hs hkept.condition fun _ => (halerts y).trans
      ((alertOf_referenceOffered_ne hy).trans (alertOf_congr hqalerts y))
  · exact changesOnly_drop (b := .nextSerial) (changesOnly_mono (changesOnly_append happlied.touches
      (settle_changesOnly _)) (by decide)) ((hsettled (b := .nextSerial) (by decide)).trans
        (htouch .nextSerial (by decide)))
  · have hstays : w' = w := by
      rw [show w' = referenceOffered d.1 w from rfl, referenceOffered, hdref,
        show m.reference = none by rw [hm]; exact hnone]
    have hkeeps : applyTrim l w' = w' := by
      refine applyTrim_of_none ?_
      rw [hstays, halike.trim]
      exact htrim
    rw [htrims, hstores, hlimit, hkeeps, hstays]
    exact ⟨halike.trim, halike.store, halike.alert, fun he => hidle he (congrArg State.alerts hstays)⟩
  · have hoffered : w' = offerTrim d.1 ref w := by
      rw [show w' = referenceOffered d.1 w from rfl, referenceOffered, hdref,
        show m.reference = some ref by rw [hm]; exact href]
    have hsame : TrimAlike (offerTrim m ref s) w' :=
      hoffered ▸ halike.offerTrim hdlane hdconfidence hdgross
    refine ⟨fun hnone => ?_, fun p hp => ?_⟩
    · have hkeeps : applyTrim l w' = w' := applyTrim_of_none (by rw [hsame.trim]; exact hnone)
      have hquietly : (offerTrim m ref s).alerts = s.alerts := offerTrim_alerts (by rw [hlane]; exact hnone)
      have hquietly' : w'.alerts = w.alerts := by
        rw [hoffered]
        refine offerTrim_alerts ?_
        rw [← hoffered, hdlane, hlane, hsame.trim]
        exact hnone
      have hmstore : (offerTrim m ref s).store = s.store := offerTrim_touches m ref s .store (by decide)
      rw [htrims, hstores, hlimit, hkeeps]
      exact ⟨hsame.trim, hsame.store.trans hmstore, hsame.alert.trans (alertOf_congr hquietly .trimLimit),
        fun he => hidle he hquietly'⟩
    · obtain ⟨hothers, hquietly, hbusy⟩ := trimOffered_pending hsame hlane hp hlaneQuiet
      rw [htrims, hstores, hlimit]
      exact ⟨hothers, hquietly, hbusy, hsame.alert⟩

end Sys2Proof.Proofs
end

