-- ==== Sys2Proof/Proofs/Resets.lean ====
section
/-! PROOFS. The causes of a reset (R184, R185). -/

namespace Sys2Proof.Proofs

open Sys2Proof Sys2Proof.Machine

section

variable {s : State} {k : ResetCause} {hold : Option Clock} {w : Option (BitVec 16)}

theorem settled_reset : settled State.reset = true := by
  obtain ⟨-, -, -, -, -, -, -, -, -, h, -⟩ := resetIsSound
  exact h

theorem tearStore_eq (w : Option (BitVec 16)) (x : Store) : tearStore w x = { x with check := w.getD x.check } := by
  cases w <;> rfl

/-- In RESET a cause changes the pending cause at most, and tears the store. -/
def causeTaken (k : ResetCause) (w : Option (BitVec 16)) (s : State) : State :=
  { s with
    pendingCause := if k = .powerOn then .powerOn else s.pendingCause
    store := { s.store with check := w.getD s.store.check } }

/-- The station that a cause has put into RESET. -/
def nowInReset (k : ResetCause) (hold : Option Clock) (w : Option (BitVec 16)) (s : State) : State :=
  State.inReset k hold { s.store with check := w.getD s.store.check } s.inputs s.pending

theorem enterReset_of_reset (h : s.startup = .reset) : enterReset k hold w s = causeTaken k w s := by
  rw [enterReset, if_pos h, tearStore_eq]
  rfl

theorem enterReset_of_other (h : s.startup ≠ .reset) : enterReset k hold w s = nowInReset k hold w s := by
  rw [enterReset, if_neg h, tearStore_eq]
  rfl

theorem causeTaken_touches : changesOnly [.pendingCause, .store] s (causeTaken k w s) := by
  intro b hb
  cases b with
  | pendingCause => exact absurd (by simp) hb
  | store => exact absurd (by simp) hb
  | _ => rfl

theorem nowInReset_touches :
    changesOnly [.pendingCause, .restartHold, .store, .inputs, .pending] State.reset (nowInReset k hold w s) := by
  intro b hb
  cases b with
  | pendingCause | restartHold | store | inputs | pending => exact absurd (by simp) hb
  | _ => rfl

theorem done_enterReset_of_reset (hs : settled s = true) (h : s.startup = .reset) :
    done (enterReset k hold w s) = .next (causeTaken k w s) := by
  rw [enterReset_of_reset h]
  exact done_quiet hs causeTaken_touches

theorem done_enterReset_of_other (h : s.startup ≠ .reset) :
    done (enterReset k hold w s) = .next (nowInReset k hold w s) := by
  rw [enterReset_of_other h]
  exact done_quiet settled_reset nowInReset_touches

/-- R184: the four commands of a reset. -/
theorem exec_reset {c : Instr}
    (h : (c = .powerOn w ∧ k = .powerOn) ∨ (c = .supplyDip w ∧ k = .supplyDip) ∨
      (c = .resetLine w ∧ k = .resetLine) ∨
      (c = .restartReset w ∧ k = .restart ∧ s.port.restart ≠ .none)) :
    exec c s = done (enterReset k (if k = .restart then some 1000 else none) w s) := by
  obtain ⟨rfl, rfl⟩ | ⟨rfl, rfl⟩ | ⟨rfl, rfl⟩ | ⟨rfl, rfl, hrestart⟩ := h
  · rfl
  · rfl
  · rfl
  · exact if_pos hrestart

end

/-- Settles O50: the state in RESET. -/
theorem resetsEnterReset : Obligations.ResetsEnterReset := by
  unfold Obligations.ResetsEnterReset
  intro s w c k hs hc
  have hexec := exec_reset hc
  by_cases h : s.startup = .reset
  · rw [done_enterReset_of_reset hs h] at hexec
    exact ⟨_, hexec, h, rfl, rfl, rfl, fun _ => ⟨rfl, causeTaken_touches⟩, fun hne => absurd h hne⟩
  · rw [done_enterReset_of_other h] at hexec
    exact ⟨_, hexec, rfl, rfl, rfl, rfl, fun he => absurd he h, fun _ => ⟨rfl, rfl, nowInReset_touches⟩⟩

end Sys2Proof.Proofs
end

