-- ==== Sys2Proof/Proofs/ImagesRead.lean ====
section
/-! PROOFS. RESET_END, and read attempts that fail (R180, R183, R185). -/

namespace Sys2Proof.Proofs

open Sys2Proof Sys2Proof.Machine

/-! ## `settle` outside JOINING and RUNNING -/

section

variable {s u : State} {bs : List Block}

/-- Outside JOINING and RUNNING only the alert lines follow. -/
theorem settle_idle (hs : settled s = true) (hws : working s = false) (hwu : working u = false)
    (h : changesOnly bs s u) (hb : ∀ b ∈ [Block.signs, .lamps, .entry], b ∉ bs := by decide) :
    settle u = driveAlertLines u := by
  obtain ⟨hsigns, -, hlamps, -, -⟩ := settled_parts.1 hs
  have hg : u.signs = s.signs := h .signs (hb _ (by simp))
  have hl : u.lamps = s.lamps := h .lamps (hb _ (by simp))
  have he : u.entry = s.entry := h .entry (hb _ (by simp))
  have hfollow : signsFollow u = true := by
    rw [← hsigns]
    simp only [signsFollow, signRequested, hws, hwu, hg, Bool.false_and]
  have hdriven : lampsFollow u = true := by
    have hdemand (a : Option (Lane × Lamp)) : demandOf u a = demandOf s a := demandOf_congr hg (by rw [he]) a
    have hout (o : Output) : outputOf u o = outputOf s o := by simp only [outputOf, hl]
    rw [← hlamps]
    unfold lampsFollow outputFollows
    simp only [hout, hdemand, isDriven_congr (groupFaulted_congr hl)]
  have haspects : driveAspects u = u := if_neg (by rw [entryActs, hwu]; exact Bool.false_ne_true)
  have htaken : takeConditions u = u := if_neg (by rw [hwu]; exact Bool.false_ne_true)
  rw [settle, driveSigns_id hfollow, haspects, driveLamps_id hdriven, htaken]

/-- R183: the station in FAULT has both alert lines asserted. -/
def linesAsserted (u : State) : State := { u with alerts.lineA := true, alerts.lineB := true }

theorem driveAlertLines_fault (h : u.startup = .fault) : driveAlertLines u = linesAsserted u := by
  have hwanted (m : AlertConfig → Bool) : lineWanted u m = true := by rw [lineWanted, h]
  rw [driveAlertLines, hwanted, hwanted]
  rfl

/-- R191: in RESET and LOADING both alert lines are released. -/
theorem driveAlertLines_released (hs : settled s = true) (h : s.startup = .reset ∨ s.startup = .loading)
    (hu : u.startup = .reset ∨ u.startup = .loading) (ha : u.alerts = s.alerts) : driveAlertLines u = u := by
  have hreleased {x : State} (hx : x.startup = .reset ∨ x.startup = .loading) (m : AlertConfig → Bool) :
      lineWanted x m = false := by
    obtain hx | hx := hx <;> rw [lineWanted, hx]
  obtain ⟨-, -, -, -, hlines⟩ := settled_parts.1 hs
  obtain ⟨hA, hB⟩ := alertLinesFollow_iff.1 hlines
  refine driveAlertLines_id (alertLinesFollow_iff.2 ⟨?_, ?_⟩)
  · rw [ha, hA, hreleased h, hreleased hu]
  · rw [ha, hB, hreleased h, hreleased hu]

end

/-! ## RESET_END (R180, R185, R195) -/

section

variable {s : State}

theorem exec_resetEnd (hs : settled s = true) (h : s.startup = .reset) (hover : holdOver s = true) :
    exec .resetEnd s = .next (resetEnded s) := by
  have hdone : exec .resetEnd s = done (resetEnded s) := if_pos ⟨h, hover⟩
  rw [hdone, done, settle_idle hs (working_eq_false (.inl h)) (working_eq_false (.inr (.inl rfl)))
    (resetEnded_touches s), driveAlertLines_released (u := resetEnded s) hs (.inl h) (.inr rfl) rfl]

theorem sound_iff (x : Store) : x.sound = true ↔ x.check = checkOf x.cause x.restarts x.trims :=
  decide_eq_true_iff

theorem atResetEnd_powerOn {x : Store} {k : ResetCause}
    (h : k = .powerOn ∨ x.check ≠ checkOf x.cause x.restarts x.trims) :
    x.atResetEnd k = Store.afterPowerOn :=
  if_pos (h.imp_right fun hne => Bool.eq_false_iff.2 fun hsound => hne ((sound_iff x).1 hsound))

theorem atResetEnd_kept {x : Store} {k : ResetCause} (hk : k ≠ .powerOn)
    (h : x.check = checkOf x.cause x.restarts x.trims) :
    x.atResetEnd k =
      { cause := k, restarts := x.restarts + 1, trims := x.trims
        check := checkOf k (x.restarts + 1) x.trims } := by
  refine if_neg fun hor => hor.elim hk fun hsound => ?_
  rw [(sound_iff x).2 h] at hsound
  cases hsound

/-- R185: the check word of a store written at the end of a reset. -/
theorem check_atResetEnd (x : Store) (k : ResetCause) :
    (x.atResetEnd k).check =
      checkOf (x.atResetEnd k).cause (x.atResetEnd k).restarts (x.atResetEnd k).trims := by
  unfold Store.atResetEnd
  split
  · rfl
  · rfl

end

/-! ## Read attempts that fail (R180) -/

section

variable {s : State} {c : Instr} {img : List Byte} {k : RefusalCause}

/-- The image as it stands after a read attempt. -/
def imageHeld (img : List Byte) (s : State) : State := { s with loader.image := img }

theorem imageHeld_touches : changesOnly [.loader] s (imageHeld img s) := touches_loader s _

/-- R180: a read attempt fails. -/
theorem exec_readFailed (hload : s.startup = .loading)
    (h : (c = .loadReadTimeout false ∧ 10000 ≤ elapsed s.clock s.loader.requested ∧
        img = s.loader.image ∧ k = .noMemory) ∨
      (c = .loadReadTimeout true ∧ 50000 ≤ elapsed s.clock s.loader.requested ∧
        img = s.loader.image ∧ k = .noMemory) ∨
      (c = .loadReadComplete img ∧ elapsed s.clock s.loader.requested ≤ 50000 ∧
        img.length = 256 ∧ crcComputed img ≠ crcRead img ∧ k = .crc)) :
    exec c s =
      if s.loader.attempt < 2 then done (secondAttempt (imageHeld img s))
      else done (refuseImage k (imageHeld img s)) := by
  obtain ⟨rfl, hlate, rfl, rfl⟩ | ⟨rfl, hlate, rfl, rfl⟩ | ⟨rfl, htime, hlen, hcrc, rfl⟩ := h
  · exact if_pos ⟨hload, hlate⟩
  · exact if_pos ⟨hload, hlate⟩
  · have hjudged : exec (.loadReadComplete img) s = done (judgeImage img s) := if_pos ⟨hload, hlen, htime⟩
    have hfailed : judgeImage img s =
        if s.loader.attempt < 2 then secondAttempt (imageHeld img s) else refuseImage .crc (imageHeld img s) :=
      if_pos hcrc
    rw [hjudged, hfailed]
    split <;> rfl

theorem refuseImage_touches : changesOnly [.startup, .loader] s (refuseImage k s) := by
  intro b hb
  cases b with
  | startup | loader => exact absurd (by simp) hb
  | _ => rfl

/-- R183: the station once an image is refused. -/
def imageRefused (k : RefusalCause) (img : List Byte) (s : State) : State :=
  linesAsserted (refuseImage k (imageHeld img s))

theorem done_refuseImage (hs : settled s = true) (h : s.startup = .loading) :
    done (refuseImage k (imageHeld img s)) = .next (imageRefused k img s) := by
  rw [done, settle_idle hs (working_eq_false (.inr (.inl h)))
    (working_eq_false (s := refuseImage k (imageHeld img s)) (.inr (.inr rfl)))
    (changesOnly_append imageHeld_touches refuseImage_touches), driveAlertLines_fault rfl]
  rfl

theorem imageRefused_touches : changesOnly [.startup, .loader, .alerts] s (imageRefused k img s) :=
  changesOnly_mono (changesOnly_append (changesOnly_append imageHeld_touches refuseImage_touches)
    (touches_alerts (refuseImage k (imageHeld img s)) _)) (by decide)

end

/-- Settles O51: the store at RESET_END; a second attempt, or a refusal. -/
theorem loadingBeginsAndRetries : Obligations.LoadingBeginsAndRetries := by
  unfold Obligations.LoadingBeginsAndRetries
  refine ⟨fun s hs h hover => ?_, fun s c img k hs h hc => ?_⟩
  · refine ⟨resetEnded s, exec_resetEnd hs h hover, rfl, fun hlost => ?_, fun hk hsound => ?_,
      check_atResetEnd s.store s.pendingCause, rfl, rfl, rfl, rfl, resetEnded_touches s⟩
    · have hstore : (resetEnded s).store = Store.afterPowerOn := atResetEnd_powerOn hlost
      rw [hstore]
      exact ⟨rfl, rfl, fun l => Tab.at_fill _ _⟩
    · have hstore := atResetEnd_kept hk hsound
      exact ⟨congrArg Store.cause hstore, congrArg Store.restarts hstore, (congrArg Store.trims hstore :)⟩
  · have hexec := exec_readFailed h hc
    by_cases hlt : s.loader.attempt < 2
    · rw [if_pos hlt] at hexec
      have htouch : changesOnly [.loader] s (secondAttempt (imageHeld img s)) := touches_loader s _
      rw [done_quiet hs htouch] at hexec
      exact ⟨_, hexec, fun _ => ⟨rfl, htouch⟩, fun h2 => absurd hlt (by rw [h2]; exact lt_irrefl 2)⟩
    · rw [if_neg hlt, done_refuseImage hs h] at hexec
      exact ⟨_, hexec, fun h1 => absurd (by rw [h1]; exact Nat.one_lt_two) hlt,
        fun _ => ⟨rfl, rfl, rfl, rfl, rfl, imageRefused_touches⟩⟩

end Sys2Proof.Proofs
end

