-- ==== Sys2Proof/Proofs/ImageChecks.lean ====
section
/-! PROOFS. The checks of the image (R181): which field is the first to fail. -/

namespace Sys2Proof.Proofs

open Sys2Proof Sys2Proof.Machine

/-! ## The first failure of a list of checks -/

section

variable {l m : List FieldCheck} {o : Nat}

/-- Of checks in order of offset, the failing one of the least offset is found first. -/
theorem firstFailure_append_of_least (hsorted : l.Pairwise fun a b => a.1 < b.1) (ho : (o, false) ∈ l)
    (hleast : ∀ n, n < o → (n, false) ∉ l) : firstFailure (l ++ m) = some o := by
  induction l with
  | nil => cases ho
  | cons c l ih =>
    obtain ⟨hc, hsorted⟩ := List.pairwise_cons.1 hsorted
    obtain hself | hrest := List.mem_cons.1 ho
    · rw [← hself]
      rfl
    · have hholds : c.2 = true := by
        refine Bool.not_eq_false _ ▸ fun hfails => hleast c.1 (hc _ hrest) ?_
        rw [← hfails]
        exact List.mem_cons_self
      have hskip : firstFailure (c :: l ++ m) = firstFailure (l ++ m) := by
        rw [firstFailure, List.cons_append, List.find?_cons_of_neg (by rw [hholds]; exact Bool.false_ne_true)]
        rfl
      rw [hskip]
      exact ih hsorted hrest fun n hn hmem => hleast n hn (List.mem_cons_of_mem c hmem)

theorem firstFailure_append_of_none (h : ∀ n, (n, false) ∉ l) : firstFailure (l ++ m) = firstFailure m := by
  have hnone : l.find? (fun c => !c.2) = none := by
    refine List.find?_eq_none.2 fun c hc hfails => h c.1 ?_
    have hfalse : c.2 = false := by simpa using hfails
    rw [← hfalse]
    exact hc
  rw [firstFailure, firstFailure, List.find?_append, hnone]
  rfl

end

/-! ## The range checks, by offset (R181 step 2) -/

section

variable {img : List Byte} {o : Nat}

/-- The value of some bytes at an offset. -/
def imageValue (img : List Byte) (o bytes : Nat) : Nat :=
  if bytes = 1 then imageByte img o else if bytes = 2 then image2 img o else image3 img o

/-- The check of a field of one range: offset, number of bytes, least and largest value. -/
def rangeCheck (img : List Byte) (c : Nat × Nat × Nat × Nat) : FieldCheck :=
  (c.1, within c.2.2.1 c.2.2.2 (imageValue img c.1 c.2.1))

/-- The ranges of the fields at offsets 1 to 32. -/
def headRanges : List (Nat × Nat × Nat × Nat) :=
  [(1, 1, 1, 8), (2, 1, 0, 7), (3, 1, 0, 15), (6, 1, 1, 4), (8, 1, 0, 8), (9, 1, 10, 60),
    (10, 1, 0, 20), (11, 1, 0, 30), (12, 2, 300, 1200), (14, 2, 500, 5000),
    (16, 2, 50, 2000), (18, 2, 1, 65535), (20, 2, 100, 6000), (22, 3, 200, 72000),
    (25, 3, 500, 200000), (28, 2, 200, 2000), (30, 2, 10, 600), (32, 1, 4, 60)]

/-- The ranges of the two-byte constants and the auto-band byte of a calibration block. -/
def calRanges (p : Nat) : List (Nat × Nat × Nat × Nat) :=
  [(41 + 8 * p, 2, 1, 65535), (43 + 8 * p, 2, 1, 65535), (45 + 8 * p, 2, 1, 65535), (48 + 8 * p, 1, 0, 1)]

/-- The fields with a range, for a number of lanes. -/
def fieldRanges (lanes : Nat) : List (Nat × Nat × Nat × Nat) :=
  headRanges ++ (List.range lanes).map (fun l => (33 + 2 * l, 2, 1000, 4000)) ++
    (List.range (2 * lanes)).flatMap calRanges

/-- The check of a temperature coefficient. -/
def betaCheck (img : List Byte) (p : Nat) : FieldCheck :=
  (47 + 8 * p, decide (-8 ≤ (img.getD (47 + 8 * p) 0).toInt) && decide ((img.getD (47 + 8 * p) 0).toInt ≤ 8))

theorem within_eq_false (lo hi x : Nat) : within lo hi x = false ↔ x < lo ∨ hi < x := by
  rw [within, Bool.and_eq_false_iff, decide_eq_false_iff_not, decide_eq_false_iff_not, Nat.not_le, Nat.not_le]

theorem rangeCheck_fails {c : Nat × Nat × Nat × Nat} :
    rangeCheck img c = (o, false) ↔
      c.1 = o ∧ (imageValue img o c.2.1 < c.2.2.1 ∨ c.2.2.2 < imageValue img o c.2.1) := by
  rw [rangeCheck, Prod.mk.injEq, within_eq_false]
  exact and_congr_right fun h => by rw [h]

theorem headChecks_eq (img : List Byte) : headChecks img = headRanges.map (rangeCheck img) := by
  have hflag (n x : Nat) : decide (x < n + 1) = within 0 n x := by
    simp only [within, Nat.zero_le, decide_true, Bool.true_and, Nat.lt_succ_iff]
  simp only [headChecks, hflag]
  rfl

theorem mem_calChecks {p : Nat} {c : FieldCheck} :
    c ∈ calChecks img p ↔ c ∈ (calRanges p).map (rangeCheck img) ∨ c = betaCheck img p := by
  have h43 : 41 + 8 * p + 2 = 43 + 8 * p := by omega
  have h45 : 41 + 8 * p + 4 = 45 + 8 * p := by omega
  have h47 : 41 + 8 * p + 6 = 47 + 8 * p := by omega
  have h48 : 41 + 8 * p + 7 = 48 + 8 * p := by omega
  have hsplit : calChecks img p =
      [rangeCheck img (41 + 8 * p, 2, 1, 65535), rangeCheck img (43 + 8 * p, 2, 1, 65535),
        rangeCheck img (45 + 8 * p, 2, 1, 65535), betaCheck img p, rangeCheck img (48 + 8 * p, 1, 0, 1)] := by
    simp only [calChecks, h43, h45, h47, h48]
    rfl
  rw [hsplit]
  simp only [calRanges, List.map_cons, List.map_nil, List.mem_cons, List.not_mem_nil, or_false]
  tauto

/-- The range checks are those of the fields with a range, the coefficients and the alert bytes. -/
theorem mem_rangeChecks {c : FieldCheck} :
    c ∈ rangeChecks img ↔
      c ∈ (fieldRanges (imageByte img 6)).map (rangeCheck img) ∨
        (∃ p, p < 2 * imageByte img 6 ∧ c = betaCheck img p) ∨ ∃ k, k < 24 ∧ c = alertCheck img k := by
  have hspacing : (List.range (imageByte img 6)).map (spacingCheck img) =
      ((List.range (imageByte img 6)).map fun l => (33 + 2 * l, 2, 1000, 4000)).map (rangeCheck img) := by
    rw [List.map_map]
    rfl
  have hcal : c ∈ (List.range (2 * imageByte img 6)).flatMap (calChecks img) ↔
      c ∈ ((List.range (2 * imageByte img 6)).flatMap calRanges).map (rangeCheck img) ∨
        ∃ p, p < 2 * imageByte img 6 ∧ c = betaCheck img p := by
    simp only [List.map_flatMap, List.mem_flatMap, List.mem_range, mem_calChecks]
    constructor
    · rintro ⟨p, hp, h | h⟩
      · exact .inl ⟨p, hp, h⟩
      · exact .inr ⟨p, hp, h⟩
    · rintro (⟨p, hp, h⟩ | ⟨p, hp, h⟩)
      · exact ⟨p, hp, .inl h⟩
      · exact ⟨p, hp, .inr h⟩
  have halert : c ∈ (List.range 24).map (alertCheck img) ↔ ∃ k, k < 24 ∧ c = alertCheck img k := by
    simp only [List.mem_map, List.mem_range, eq_comm]
  rw [rangeChecks, headChecks_eq, hspacing]
  simp only [List.mem_append, hcal, halert, fieldRanges, List.map_append, or_assoc]

/-- A field outside its range or coding. -/
def badField (img : List Byte) (o : Nat) : Prop :=
  (∃ c ∈ fieldRanges (imageByte img 6), c.1 = o ∧
      (imageValue img o c.2.1 < c.2.2.1 ∨ c.2.2.2 < imageValue img o c.2.1)) ∨
    (∃ p, p < 2 * imageByte img 6 ∧ o = 47 + 8 * p ∧
      ((img.getD o 0).toInt < -8 ∨ 8 < (img.getD o 0).toInt)) ∨
    (∃ k, k < 24 ∧ o = 105 + k ∧
      (imageBit img o 7 = true ∨ (7 ≤ k ∧
        (imageBit img o 4 = true ∨ imageBit img o 5 = true ∨ imageBit img o 6 = true))))

theorem betaCheck_fails {p : Nat} :
    (o, false) = betaCheck img p ↔
      o = 47 + 8 * p ∧ ((img.getD o 0).toInt < -8 ∨ 8 < (img.getD o 0).toInt) := by
  rw [betaCheck, Prod.mk.injEq]
  refine and_congr_right fun h => ?_
  rw [h, eq_comm, Bool.and_eq_false_iff, decide_eq_false_iff_not, decide_eq_false_iff_not, Int.not_le, Int.not_le]

theorem triggerBits_eq_zero (b : Byte) : triggerBits b = 0 ↔ bitOf b 4 = false ∧ bitOf b 5 = false := by
  simp only [triggerBits, bitOf, BitVec.getLsbD, Nat.testBit_eq_decide_div_mod_eq, decide_eq_false_iff_not]
  omega

theorem alertCheck_fails {k : Nat} :
    (o, false) = alertCheck img k ↔
      o = 105 + k ∧ (imageBit img o 7 = true ∨ (7 ≤ k ∧
        (imageBit img o 4 = true ∨ imageBit img o 5 = true ∨ imageBit img o 6 = true))) := by
  rw [alertCheck, Prod.mk.injEq]
  refine and_congr_right fun h => ?_
  rw [h]
  unfold imageBit
  generalize img.getD (105 + k) 0 = b
  rw [eq_comm]
  simp only [Bool.and_eq_false_iff, Bool.or_eq_false_iff, Bool.not_eq_false', decide_eq_false_iff_not,
    triggerBits_eq_zero, not_and_or, Bool.not_eq_false, Nat.not_lt, or_assoc]

theorem mem_rangeChecks_fails : (o, false) ∈ rangeChecks img ↔ badField img o := by
  rw [mem_rangeChecks, badField]
  simp only [List.mem_map, rangeCheck_fails, betaCheck_fails, alertCheck_fails]

/-! ## The first field to fail -/

/-- The offsets of a calibration block. -/
def calOffsets (k : Nat) : List Nat := [41 + 8 * k, 41 + 8 * k + 2, 41 + 8 * k + 4, 41 + 8 * k + 6, 41 + 8 * k + 7]

/-- The offsets that the checks look at, in their order. -/
def checkedOffsets (lanes : Nat) : List Nat :=
  headRanges.map (fun c => c.1) ++ (List.range lanes).map (fun l => 33 + 2 * l) ++
    (List.range (2 * lanes)).flatMap calOffsets ++
    (List.range 24).map (fun k => 105 + k)

theorem rangeChecks_offsets (img : List Byte) :
    (rangeChecks img).map Prod.fst = checkedOffsets (imageByte img 6) := by
  rw [rangeChecks, List.map_append, List.map_append, List.map_append, List.map_flatMap, List.map_map,
    List.map_map, headChecks_eq, List.map_map]
  rfl

theorem headRanges_sorted : (headRanges.map fun c => c.1).Pairwise (· < ·) := by decide

theorem headRanges_small : ∀ o ∈ headRanges.map fun c => c.1, o < 33 := by decide

theorem headChecks_sorted (img : List Byte) : (headChecks img).Pairwise fun a b => a.1 < b.1 := by
  rw [headChecks_eq, List.pairwise_map]
  exact List.pairwise_map.1 headRanges_sorted

theorem mem_calOffsets {k : Nat} (h : o ∈ calOffsets k) : 41 + 8 * k ≤ o ∧ o < 41 + 8 * (k + 1) := by
  simp only [calOffsets, List.mem_cons, List.not_mem_nil, or_false] at h
  omega

theorem calOffsets_sorted (k : Nat) : (calOffsets k).Pairwise (· < ·) := by
  simp only [calOffsets, List.pairwise_cons, List.mem_cons, List.not_mem_nil, or_false, forall_eq_or_imp, forall_eq,
    List.Pairwise.nil, IsEmpty.forall_iff, implies_true, and_true]
  omega

/-- Of 1 to 4 lanes the offsets stand in order: head, spacings, calibration, alerts. -/
theorem checkedOffsets_sorted {n : Nat} (h : n ≤ 4) : (checkedOffsets n).Pairwise (· < ·) := by
  have hspacing {x : Nat} (hx : x ∈ (List.range n).map fun l => 33 + 2 * l) : 33 ≤ x ∧ x < 41 := by
    obtain ⟨l, hl, rfl⟩ := List.mem_map.1 hx
    have := List.mem_range.1 hl
    omega
  have hcal {x : Nat} (hx : x ∈ (List.range (2 * n)).flatMap calOffsets) : 41 ≤ x ∧ x < 105 := by
    obtain ⟨k, hk, hx⟩ := List.mem_flatMap.1 hx
    have := List.mem_range.1 hk
    have := mem_calOffsets hx
    omega
  have halert {x : Nat} (hx : x ∈ (List.range 24).map fun k => 105 + k) : 105 ≤ x := by
    obtain ⟨k, -, rfl⟩ := List.mem_map.1 hx
    exact Nat.le_add_right _ _
  have hblocks : ((List.range (2 * n)).flatMap calOffsets).Pairwise (· < ·) := by
    refine List.pairwise_flatMap.2 ⟨fun k _ => calOffsets_sorted k, List.pairwise_lt_range.imp ?_⟩
    intro k k' hk x hx y hy
    have := mem_calOffsets hx
    have := mem_calOffsets hy
    omega
  refine List.pairwise_append.2 ⟨List.pairwise_append.2 ⟨List.pairwise_append.2 ⟨headRanges_sorted, ?_, ?_⟩,
    hblocks, ?_⟩, ?_, ?_⟩
  · exact List.pairwise_map.2 (List.pairwise_lt_range.imp fun hlt => by omega)
  · intro x hx y hy
    exact Nat.lt_of_lt_of_le (headRanges_small x hx) (hspacing hy).1
  · intro x hx y hy
    have hy := hcal hy
    obtain hx | hx := List.mem_append.1 hx
    · have := headRanges_small x hx
      omega
    · have := hspacing hx
      omega
  · exact List.pairwise_map.2 (List.pairwise_lt_range.imp fun hlt => by omega)
  · intro x hx y hy
    have hy := halert hy
    obtain hx | hx := List.mem_append.1 hx
    · obtain hx | hx := List.mem_append.1 hx
      · have := headRanges_small x hx
        omega
      · have := hspacing hx
        omega
    · have := hcal hx
      omega

/-- Of an image with 1 to 4 lanes the checks stand in order of offset. -/
theorem rangeChecks_sorted (h : imageByte img 6 ≤ 4) : (rangeChecks img).Pairwise fun a b => a.1 < b.1 := by
  have hsorted := checkedOffsets_sorted h
  rw [← rangeChecks_offsets] at hsorted
  exact List.pairwise_map.1 hsorted

/-- The field checked at a small offset stands among the first. -/
theorem mem_headChecks {c : FieldCheck} (h : c ∈ rangeChecks img) (hc : c.1 < 33) : c ∈ headChecks img := by
  rw [rangeChecks, List.mem_append, List.mem_append, List.mem_append] at h
  obtain ((h | h) | h) | h := h
  · exact h
  · obtain ⟨l, -, rfl⟩ := List.mem_map.1 h
    simp only [spacingCheck] at hc
    omega
  · obtain ⟨k, -, h⟩ := List.mem_flatMap.1 h
    simp only [calChecks, List.mem_cons, List.not_mem_nil, or_false] at h
    obtain rfl | rfl | rfl | rfl | rfl := h <;> simp only at hc <;> omega
  · obtain ⟨k, -, rfl⟩ := List.mem_map.1 h
    simp only [alertCheck] at hc
    omega

/-- R181 step 2: the field of the least offset that fails is the first. -/
theorem firstFailure_rangeChecks {m : List FieldCheck} (ho : badField img o) (hleast : ∀ n, n < o → ¬badField img n) :
    firstFailure (rangeChecks img ++ m) = some o := by
  have hmem := mem_rangeChecks_fails.2 ho
  have hnone (n : Nat) (hn : n < o) : (n, false) ∉ rangeChecks img := fun h => hleast n hn (mem_rangeChecks_fails.1 h)
  by_cases hlanes : imageByte img 6 ≤ 4
  · exact firstFailure_append_of_least (rangeChecks_sorted hlanes) hmem hnone
  · have hhead : ∀ c ∈ headChecks img, c ∈ rangeChecks img := fun c hc => by
      rw [rangeChecks, List.append_assoc, List.append_assoc]
      exact List.mem_append_left _ hc
    have hsix : (6, false) ∈ headChecks img := by
      have hfails : rangeCheck img (6, 1, 1, 4) = (6, false) :=
        rangeCheck_fails.2 ⟨rfl, .inr (Nat.lt_of_not_le hlanes)⟩
      rw [headChecks_eq, ← hfails]
      exact List.mem_map_of_mem (by decide)
    have hsmall : o ≤ 6 := Nat.le_of_not_lt fun h => hnone 6 h (hhead _ hsix)
    rw [rangeChecks, List.append_assoc, List.append_assoc, List.append_assoc]
    exact firstFailure_append_of_least (headChecks_sorted img)
      (mem_headChecks hmem (Nat.lt_of_le_of_lt hsmall (by decide))) fun n hn h => hnone n hn (hhead _ h)

theorem imageRefusal_of_version (h : imageByte img 0 ≠ 1) : imageRefusal img = some .version := if_pos h

theorem imageRefusal_of_field (hversion : imageByte img 0 = 1) (ho : badField img o)
    (hleast : ∀ n, n < o → ¬badField img n) : imageRefusal img = some (.range o) := by
  rw [imageRefusal, if_neg (not_not_intro hversion), firstFailure_rangeChecks ho hleast]

/-- R181 steps 3 and 4: an image with every field in range. -/
theorem imageRefusal_of_fields (hversion : imageByte img 0 = 1) (hfields : ∀ n, ¬badField img n) :
    imageRefusal img =
      if imageBit img 7 (imageByte img 1 - 1) = true then some (.range 7)
      else if imageByte img 8 = imageByte img 1 then some (.range 8)
      else if imageBit img 2 0 = true ∧ imageBit img 2 1 = true then some .role
      else none := by
  rw [imageRefusal, if_neg (not_not_intro hversion),
    firstFailure_append_of_none fun n hn => hfields n (mem_rangeChecks_fails.1 hn)]
  by_cases hset : imageBit img 7 (imageByte img 1 - 1) = true
  · simp [crossChecks, firstFailure, hset]
  · by_cases href : imageByte img 8 = imageByte img 1
    · simp [crossChecks, firstFailure, hset, href]
    · simp [crossChecks, firstFailure, hset, href]

end

end Sys2Proof.Proofs
end

