-- ==== Sys2Proof/Proofs/ImagesJudged.lean ====
section
/-! PROOFS. LOAD_READ_COMPLETE with bytes that pass the CRC: the image is refused, or starts the blocks
(R181 to R183). -/

namespace Sys2Proof.Proofs

open Sys2Proof Sys2Proof.Machine

/-! ## An accepted image (R182) -/

section

variable {s : State} {img : List Byte}

/-- The minute timer started, beside what begins. -/
def acceptedFrom (img : List Byte) (s : State) : State :=
  if (readConfig img).entry then judgeMode (begun img s) else begun img s

theorem acceptImage_from (img : List Byte) (s : State) : acceptImage img s = startMinute (acceptedFrom img s) :=
  acceptImage_eq img s

theorem acceptedFrom_touches (img : List Byte) (s : State) :
    changesOnly [.entry, .alerts] (begun img s) (acceptedFrom img s) := by
  unfold acceptedFrom
  split
  · exact judgeMode_touches _
  · exact changesOnly_refl _ _

theorem acceptImage_touches_blocks (img : List Byte) (s : State) :
    changesOnly [.entry, .alerts, .counters] (blocksBegun img s) (acceptImage img s) := by
  have hbegun : changesOnly [.entry] (blocksBegun img s) (begun img s) := by
    unfold begun
    split
    · exact entryBegun_touches _
    · exact changesOnly_refl _ _
  rw [acceptImage_from]
  exact changesOnly_mono (changesOnly_append (changesOnly_append hbegun (acceptedFrom_touches img s))
    (touches_counters (acceptedFrom img s) _)) (by decide)

/-- What an accepted image leaves of the blocks that begin. -/
theorem settle_acceptImage_touches (img : List Byte) (s : State) :
    changesOnly [.entry, .alerts, .counters, .signs, .lamps] (blocksBegun img s) (settle (acceptImage img s)) :=
  changesOnly_mono (changesOnly_append (acceptImage_touches_blocks img s) (settle_changesOnly _)) (by decide)

/-- R1: a channel when the station leaves LOADING. -/
theorem startChannel_state (used above : Bool) (c : Channel) :
    (startChannel used above c).state = if used = true then (if above = true then .wait else .armed) else c.state := by
  unfold startChannel
  split <;> rfl

theorem acceptImage_counters (img : List Byte) (s : State) :
    (acceptImage img s).counters =
      { s.counters with
        minuteTimer := if (readConfig img).minuteMode then some (later s.clock 60000000) else none } := by
  have htouch := changesOnly_append (begun_touches img s) (acceptedFrom_touches img s)
  have hcounters : (acceptedFrom img s).counters = s.counters := htouch .counters (by decide)
  have hclock : (acceptedFrom img s).clock = s.clock := htouch .clock (by decide)
  have hcfg : (acceptedFrom img s).cfg = readConfig img :=
    (acceptedFrom_touches img s .cfg (by decide)).trans (begun_cfg img s)
  rw [acceptImage_from, startMinute, hcounters, hcfg, hclock]

end

/-! ## The judgement (R180, R181) -/

section

variable {s : State} {img : List Byte}

theorem exec_loadReadComplete (h : s.startup = .loading) (hlen : img.length = 256)
    (htime : elapsed s.clock s.loader.requested ≤ 50000) (hcrc : crcComputed img = crcRead img) :
    exec (.loadReadComplete img) s =
      done ((imageRefusal img).elim (acceptImage img (imageHeld img s))
        fun k => refuseImage k (imageHeld img s)) := by
  have hexec : exec (.loadReadComplete img) s = done (judgeImage img s) := if_pos ⟨h, hlen, htime⟩
  rw [hexec, judgeImage, if_neg (not_not_intro hcrc)]
  cases imageRefusal img <;> rfl

/-- The status of an image that has been judged. -/
def judgedStatus (img : List Byte) : ImageStatus := (imageRefusal img).elim .valid .refused

theorem judgedStatus_of_refused {k : RefusalCause} (h : imageRefusal img = some k) :
    judgedStatus img = .refused k := by rw [judgedStatus, h]; rfl

theorem judgedStatus_of_accepted (h : imageRefusal img = none) : judgedStatus img = .valid := by
  rw [judgedStatus, h]; rfl

/-- R182, R183: what an image's judgement leaves. -/
theorem exec_imageJudged (hs : settled s = true) (h : s.startup = .loading) (hlen : img.length = 256)
    (htime : elapsed s.clock s.loader.requested ≤ 50000) (hcrc : crcComputed img = crcRead img) :
    ∃ t, exec (.loadReadComplete img) s = .next t ∧ t.loader.image = img ∧
      t.loader.status = judgedStatus img ∧
      (t.loader.status = .valid → t.startup = .joining ∧ t.cfg = readConfig img) ∧
      (t.loader.status ≠ .valid →
        t.startup = .fault ∧ t.alerts.lineA = true ∧ t.alerts.lineB = true ∧
          t.alerts.sources = s.alerts.sources ∧ changesOnly [.startup, .loader, .alerts] s t) := by
  have hexec := exec_loadReadComplete h hlen htime hcrc
  cases hrefusal : imageRefusal img with
  | some k =>
    rw [hrefusal] at hexec
    have hdone := hexec.trans (done_refuseImage hs h)
    refine ⟨imageRefused k img s, hdone, rfl, (judgedStatus_of_refused hrefusal).symm, fun hvalid => ?_,
      fun _ => ⟨rfl, rfl, rfl, rfl, imageRefused_touches⟩⟩
    exact nomatch hvalid
  | none =>
    rw [hrefusal] at hexec
    have htouch := settle_acceptImage_touches img (imageHeld img s)
    have hloader : (settle (acceptImage img (imageHeld img s))).loader = (blocksBegun img (imageHeld img s)).loader :=
      htouch .loader (by decide)
    refine ⟨settle (acceptImage img (imageHeld img s)), hexec, congrArg Loader.image hloader,
      (congrArg Loader.status hloader).trans (judgedStatus_of_accepted hrefusal).symm,
      fun _ => ⟨htouch .startup (by decide), htouch .cfg (by decide)⟩, fun hne => ?_⟩
    exact absurd (congrArg Loader.status hloader) hne

end

/-- Settles O52: by the first check that fails. -/
theorem imageIsAcceptedOrRefused : Obligations.ImageIsAcceptedOrRefused := by
  unfold Obligations.ImageIsAcceptedOrRefused
  intro s img hs h hlen htime hcrc lanes value ranges bad inSet ownRef bothRoles
  obtain ⟨t, hexec, himage, hstatus, hvalid, hrefused⟩ := exec_imageJudged hs h hlen htime hcrc
  have hfield (k : RefusalCause) (hk : imageRefusal img = some k) : t.loader.status = .refused k :=
    hstatus.trans (judgedStatus_of_refused hk)
  refine ⟨t, hexec, himage, fun hversion => hfield _ (imageRefusal_of_version hversion),
    fun hversion => ⟨fun o ho hleast => hfield _ (imageRefusal_of_field hversion ho hleast), fun hnone => ?_⟩,
    hvalid, hrefused⟩
  have hall := imageRefusal_of_fields hversion hnone
  refine ⟨fun hset => hfield _ ?_, fun hset href => hfield _ ?_, fun hset href hroles => hfield _ ?_,
    fun hset href hroles => hstatus.trans (judgedStatus_of_accepted ?_)⟩
  · rw [hall, if_pos hset]
  · rw [hall, if_neg hset, if_pos href]
  · rw [hall, if_neg hset, if_neg href, if_pos hroles]
  · rw [hall, if_neg hset, if_neg href, if_neg hroles]

/-- Settles O53: block by block. -/
theorem acceptedImageStartsBlocks : Obligations.AcceptedImageStartsBlocks := by
  unfold Obligations.AcceptedImageStartsBlocks
  intro s img hs h hlen htime hcrc hrefusal hoff hposture htheta
  let b := blocksBegun img (imageHeld img s)
  let u := acceptImage img (imageHeld img s)
  have hexec : exec (.loadReadComplete img) s = .next (settle u) := by
    rw [exec_loadReadComplete h hlen htime hcrc, hrefusal]
    rfl
  have htouch : changesOnly [.entry, .alerts, .counters, .signs, .lamps] b (settle u) :=
    settle_acceptImage_touches img (imageHeld img s)
  have hstartup : (settle u).startup = .joining := htouch .startup (by decide)
  have hcfg : (settle u).cfg = readConfig img := htouch .cfg (by decide)
  have hpeers : (settle u).peers = b.peers := htouch .peers (by decide)
  have hprobe : (settle u).probe = b.probe := htouch .probe (by decide)
  have hchannels : (settle u).channels = b.channels := htouch .channels (by decide)
  have hloader : (settle u).loader = b.loader := htouch .loader (by decide)
  have hworking : working (settle u) = true := by rw [working, hstartup]
  have hremembered (x : AlertSource) (hx : isCondition x = true) :
      (alertOf (settle u) x).remembered = rawState (settle u) x :=
    remembered_of_settled (exec_settled hs hexec) hworking hx
  refine ⟨settle u, hexec, hstartup, hcfg, congrArg Loader.status hloader, congrArg Peers.joinTimer hpeers,
    fun k => ?_, fun p => ?_, hprobe, fun o => ?_, ?_, ?_, ?_, ?_⟩
  · rw [hcfg, rowOf, hpeers]
    exact Tab.at_make _ _
  · have hchannel : channelOf (settle u) p = startChannel (laneInUse b p.lane) (signalAbove s p) (channelOf s p) := by
      rw [channelOf, hchannels]
      exact channelOf_blocksBegun img (imageHeld img s) p
    rw [hchannel, hcfg, startChannel_state, hoff p]
    exact if_congr decide_eq_true_iff rfl rfl
  · obtain ⟨hassignment, henable, -⟩ := outputOf_settle_kept u o
    have hlamps : u.lamps = b.lamps := acceptImage_touches_blocks img (imageHeld img s) .lamps (by decide)
    have hout : outputOf u o = outputOf b o := by rw [outputOf, hlamps]; rfl
    have hstarted : outputOf b o = { outputOf s o with
        assignment := assignmentOf (readConfig img) o, enable := (assignmentOf (readConfig img) o).isSome } :=
      Tab.at_make _ _
    rw [hassignment, henable, hcfg, hout, hstarted]
    exact ⟨rfl, rfl⟩
  · have hkept : (settle u).peers.posture = .joining := (congrArg Peers.posture hpeers).trans hposture
    rw [hremembered .posture rfl, rawState, hkept]
    rfl
  · have hkept : (settle u).probe.theta = none := (congrArg Probe.theta hprobe).trans htheta
    rw [hremembered .tempInvalid rfl, rawState, hkept]
    rfl
  · rw [settle_counters, hcfg]
    exact congrArg Counters.minuteTimer (acceptImage_counters img (imageHeld img s))
  · have hblocks := blocksBegun_touches img (imageHeld img s)
    exact changesOnly_mono (changesOnly_append (changesOnly_append imageHeld_touches hblocks) htouch) (by decide)

end Sys2Proof.Proofs
end

