-- ==== Sys2Proof/Proofs/TypedWords.lean ====
section
/-! PROOFS. Lines as words, and words as lanes, tags, strips and sources (R155, R178, R190, R196). -/

namespace Sys2Proof.Proofs

open Sys2Proof Sys2Proof.Machine

/-! ## Words of a line (R196) -/

theorem upper_eq (b : Byte) : upper b = if 0x61 ≤ b.toNat ∧ b.toNat ≤ 0x7A then byte (b.toNat - 32) else b := by
  unfold upper
  split
  next h =>
    have hb : b - 0x20 = byte (b.toNat - 32) := by
      refine BitVec.eq_of_toNat_eq ?_
      simp only [byte, BitVec.toNat_ofNat]
      bv_omega
    exact hb
  · rfl

/-- Words in progress: the letters taken so far begin the first piece of what is left. -/
theorem wordsFrom_eq (line : List Byte) (begun : List Byte) :
    wordsFrom (begun.map upper) line =
      (((line.splitOn 0x20).modifyHead (begun ++ ·)).filter fun w => !w.isEmpty).map fun w => w.map upper := by
  induction line generalizing begun with
  | nil =>
    cases begun with
    | nil => rfl
    | cons b begun => simp [wordsFrom, List.splitOn]
  | cons c rest ih =>
    have hstart := ih []
    have hid : ((rest.splitOn 0x20).modifyHead (([] : List Byte) ++ ·)) = rest.splitOn 0x20 := by
      cases rest.splitOn 0x20 <;> rfl
    rw [hid, List.map_nil] at hstart
    by_cases hc : c = 0x20
    · have hsplit : (c :: rest).splitOn 0x20 = [] :: rest.splitOn 0x20 := by
        rw [hc, List.splitOn, List.splitOnP_cons_eq_if_modifyHead]
        rfl
      rw [wordsFrom, if_pos hc, hsplit, hstart]
      cases begun with
      | nil => rfl
      | cons b begun => simp
    · have hsplit : (c :: rest).splitOn 0x20 = (rest.splitOn 0x20).modifyHead (List.cons c) := by
        rw [List.splitOn, List.splitOnP_cons_eq_if_modifyHead, if_neg (by simpa using hc)]
        rfl
      have hnext := ih (begun ++ [c])
      rw [List.map_append, List.map_singleton] at hnext
      rw [wordsFrom, if_neg hc, hnext, hsplit]
      cases rest.splitOn 0x20 with
      | nil => rfl
      | cons w ws => simp

theorem words_eq (line : List Byte) : words line = wordsTyped line := by
  have h := wordsFrom_eq line []
  have hid : ((line.splitOn 0x20).modifyHead (([] : List Byte) ++ ·)) = line.splitOn 0x20 := by
    cases line.splitOn 0x20 <;> rfl
  rw [hid, List.map_nil] at h
  rw [words, h, wordsTyped]
  exact congrArg (fun f : Byte → Byte => List.map (fun w : List Byte => w.map f) _) (funext upper_eq)

/-! ## Digits -/

theorem ascii_append (a b : String) : ascii (a ++ b) = ascii a ++ ascii b := by
  rw [ascii, String.toList_append, List.map_append]
  rfl

theorem ascii_digit : ∀ d, d < 10 → ascii (Nat.repr d) = [byte (48 + d)] := by decide

theorem digit_eq_some_iff {b : Byte} {d : Nat} : digit b = some d ↔ b = byte (48 + d) ∧ d < 10 := by
  have hlt := b.isLt
  unfold digit
  split
  next h =>
    rw [Option.some.injEq]
    constructor
    · rintro rfl
      exact ⟨BitVec.eq_of_toNat_eq (by simp only [byte, BitVec.toNat_ofNat]; omega), by omega⟩
    · rintro ⟨rfl, hd⟩
      simp only [byte, BitVec.toNat_ofNat]
      omega
  next h =>
    refine ⟨fun hnone => (nomatch hnone), ?_⟩
    rintro ⟨rfl, hd⟩
    refine absurd ?_ h
    simp only [byte, BitVec.toNat_ofNat]
    omega

/-! ## Lanes (R196) -/

theorem laneWord_digit : ∀ m ∈ [1, 2, 3, 4], laneWord (ascii (Nat.repr m)) = m := by decide

theorem laneWord_cases (w : List Byte) :
    laneWord w = 0 ∨ (laneWord w ∈ [1, 2, 3, 4] ∧ w = ascii (Nat.repr (laneWord w))) := by
  have hdigit {b : Byte} (h : 0x31 ≤ b.toNat ∧ b.toNat ≤ 0x34) :
      b.toNat - 0x30 ∈ [1, 2, 3, 4] ∧ [b] = ascii (Nat.repr (b.toNat - 0x30)) := by
    rw [ascii_digit _ (by omega)]
    refine ⟨?_, congrArg (fun x => [x]) (BitVec.eq_of_toNat_eq ?_)⟩
    · simp only [List.mem_cons, List.not_mem_nil, or_false]
      omega
    · simp only [byte, BitVec.toNat_ofNat]
      omega
  unfold laneWord
  split
  next b =>
    split
    next h => exact .inr (hdigit h)
    · exact .inl rfl
  · exact .inl rfl

theorem laneTyped_iff {w : List Byte} {n : Nat} : laneTyped w n ↔ n = laneWord w := by
  have hnamed {m : Nat} (hm : m ∈ [1, 2, 3, 4]) : w = ascii (Nat.repr m) ↔ laneWord w = m := by
    constructor
    · rintro rfl
      exact laneWord_digit m hm
    · intro h
      obtain hzero | ⟨-, hw⟩ := laneWord_cases w
      · rw [← h, hzero] at hm
        exact absurd hm (by decide)
      · rw [h] at hw
        exact hw
  constructor
  · rintro (⟨hn, hw⟩ | ⟨rfl, hnone⟩)
    · exact ((hnamed hn).1 hw).symm
    · obtain hzero | ⟨hm, hw⟩ := laneWord_cases w
      · exact hzero.symm
      · exact absurd hw (hnone _ hm)
  · rintro rfl
    obtain hzero | ⟨hm, hw⟩ := laneWord_cases w
    · refine .inr ⟨hzero, fun m hm hw => ?_⟩
      rw [← (hnamed hm).1 hw, hzero] at hm
      exact absurd hm (by decide)
    · exact .inl ⟨hm, hw⟩

/-! ## Sources (R190) -/

/-- The sum of the letters of a word, which tells the names of the sources apart. -/
def letterSum (w : List Byte) : Nat := (w.map BitVec.toNat).sum

theorem letterSum_literal (l : List Char) :
    letterSum (ascii (String.ofList l)) = ((l.map fun c => byte c.toNat).map BitVec.toNat).sum := by
  rw [letterSum, ascii, String.toList_ofList]

/-- The sum of the letters of a source's name. -/
def nameSum : AlertSource → Nat
  | .lampFault => 773 | .laneSingle => 833 | .laneBlind => 744 | .spanOverdue => 939 | .posture => 562
  | .tempInvalid => 924 | .health => 438 | .redRun => 559 | .uncontrolled => 921 | .noncompliant => 914
  | .noncompliantEntered => 1528 | .overUndirected => 1154 | .accountingLost => 1164 | .peerSilent => 858
  | .deliveryFail => 991 | .rxMiss => 581 | .txDrop => 576 | .approachEvict => 1064 | .trimLimit => 794
  | .lineFault => 771 | .phantom => 535 | .queueOverflow => 1112 | .duplicateNumber => 1219
  | .chainageClash => 1018

theorem letterSum_name (x : AlertSource) : letterSum (ascii (alertName x)) = nameSum x := by
  cases x <;> exact letterSum_literal _

theorem alertName_injective (x y : AlertSource) (h : ascii (alertName x) = ascii (alertName y)) : x = y := by
  have hdistinct : (allSources.map nameSum).Nodup := by decide
  have hsum : nameSum x = nameSum y := by rw [← letterSum_name, ← letterSum_name, h]
  exact List.inj_on_of_nodup_map hdistinct (mem_allSources x) (mem_allSources y) hsum

theorem sourceWord_eq_some_iff {w : List Byte} {y : AlertSource} :
    sourceWord w = some y ↔ w = ascii (alertName y) := by
  constructor
  · intro h
    have hfound : decide (ascii (alertName y) = w) = true := List.find?_some (p := fun x => decide (ascii (alertName x) = w)) h
    exact (of_decide_eq_true hfound).symm
  · rintro rfl
    cases hf : sourceWord (ascii (alertName y)) with
    | none =>
      have hnone := List.find?_eq_none.1 hf y (mem_allSources y)
      exact absurd (decide_eq_true rfl) hnone
    | some x =>
      have hfound : decide (ascii (alertName x) = ascii (alertName y)) = true :=
        List.find?_some (p := fun x => decide (ascii (alertName x) = ascii (alertName y))) hf
      exact congrArg some (alertName_injective x y (of_decide_eq_true hfound))

/-! ## Strips (R178) -/

theorem stripWord_name : ∀ l : Lane, ∀ q ∈ [Pos.lead, .trail], stripWord (ascii (stripName ⟨l, q⟩)) = some ⟨l, q⟩ := by
  decide

theorem ascii_stripName : ∀ l : Lane,
    ascii (stripName ⟨l, .lead⟩) = [byte (48 + laneNumber l), 0x4C] ∧
      ascii (stripName ⟨l, .trail⟩) = [byte (48 + laneNumber l), 0x54] := by
  decide

theorem stripWord_eq_some_iff {w : List Byte} {p : Strip} : stripWord w = some p ↔ w = ascii (stripName p) := by
  constructor
  · intro h
    unfold stripWord at h
    split at h
    next n q =>
      cases hl : laneOfNumber (laneWord [n]) with
      | none =>
        rw [hl] at h
        cases h
      | some l =>
        have hlane : laneWord [n] = laneNumber l := (laneOfNumber_val _ l hl).symm
        have hn : n = byte (48 + laneNumber l) := by
          obtain hzero | ⟨-, hw⟩ := laneWord_cases [n]
          · rw [hzero] at hlane
            exact absurd hlane (by unfold laneNumber; omega)
          · rw [hlane, ascii_digit _ (by unfold laneNumber; omega)] at hw
            exact List.singleton_inj.1 hw
        obtain ⟨hlead, htrail⟩ := ascii_stripName l
        rw [hl] at h
        dsimp only at h
        split at h
        next hq =>
          cases h
          rw [hlead, hn, hq]
        next =>
          split at h
          next hq =>
            cases h
            rw [htrail, hn, hq]
          · cases h
    · cases h
  · rintro rfl
    obtain ⟨l, q⟩ := p
    exact stripWord_name l q (by cases q <;> decide)

/-! ## Tags (R155) -/

/-- The characters of a tag. -/
theorem ascii_tagName (g : Tag) :
    ascii (tagName g) =
      [byte (48 + stationNumber g.origin), 0x2D, byte (48 + g.serial.toNat / 1000 % 10),
        byte (48 + g.serial.toNat / 100 % 10), byte (48 + g.serial.toNat / 10 % 10),
        byte (48 + g.serial.toNat % 10)] := by
  have hten (n : Nat) : ascii (Nat.repr (n % 10)) = [byte (48 + n % 10)] := ascii_digit _ (Nat.mod_lt _ (by decide))
  have horigin : ascii (Nat.repr (stationNumber g.origin)) = [byte (48 + stationNumber g.origin)] :=
    ascii_digit _ (by unfold stationNumber; omega)
  rw [tagName, fourDigits]
  simp only [ascii_append, hten, horigin]
  rfl

theorem stationOfNumber_eq_some_iff {n : Nat} {k : Station} : stationOfNumber n = some k ↔ n = stationNumber k := by
  constructor
  · intro h
    unfold stationOfNumber at h
    split at h
    all_goals (cases h <;> rfl)
  · rintro rfl
    have hall : ∀ k : Station, stationOfNumber (stationNumber k) = some k := by decide
    exact hall k

theorem tagWord_name (g : Tag) : tagWord (ascii (tagName g)) = some g := by
  have hd (n : Nat) : digit (byte (48 + n % 10)) = some (n % 10) :=
    digit_eq_some_iff.2 ⟨rfl, Nat.mod_lt _ (by decide)⟩
  have ho : digit (byte (48 + stationNumber g.origin)) = some (stationNumber g.origin) :=
    digit_eq_some_iff.2 ⟨rfl, by unfold stationNumber; omega⟩
  have hlt := g.serial.isLt
  have hsum : g.serial.toNat / 1000 % 10 * 1000 + g.serial.toNat / 100 % 10 * 100 +
      g.serial.toNat / 10 % 10 * 10 + g.serial.toNat % 10 = g.serial.toNat := by omega
  rw [ascii_tagName]
  unfold tagWord
  dsimp only
  rw [ho, hd, hd, hd, hd]
  dsimp only
  rw [hsum, if_pos ⟨rfl, hlt⟩, stationOfNumber_eq_some_iff.2 rfl, Option.map_some, BitVec.ofNat_toNat,
    BitVec.setWidth_eq]

theorem tagWord_eq_some_iff {w : List Byte} {g : Tag} : tagWord w = some g ↔ w = ascii (tagName g) := by
  refine ⟨fun h => ?_, fun h => by rw [h]; exact tagWord_name g⟩
  unfold tagWord at h
  split at h
  next o hy a b c d =>
    split at h
    next on an bn cn dn ho ha hb hc hd =>
      dsimp only at h
      split at h
      next hn =>
        obtain ⟨hy, hlt⟩ := hn
        obtain ⟨k, hk, rfl⟩ := Option.map_eq_some_iff.1 h
        obtain ⟨rfl, -⟩ := digit_eq_some_iff.1 ho
        obtain ⟨rfl, ha⟩ := digit_eq_some_iff.1 ha
        obtain ⟨rfl, hb⟩ := digit_eq_some_iff.1 hb
        obtain ⟨rfl, hc⟩ := digit_eq_some_iff.1 hc
        obtain ⟨rfl, hd⟩ := digit_eq_some_iff.1 hd
        have hserial : (BitVec.ofNat 12 (an * 1000 + bn * 100 + cn * 10 + dn)).toNat =
            an * 1000 + bn * 100 + cn * 10 + dn := by
          rw [BitVec.toNat_ofNat]
          exact Nat.mod_eq_of_lt hlt
        have h3 : (an * 1000 + bn * 100 + cn * 10 + dn) / 1000 % 10 = an := by omega
        have h2 : (an * 1000 + bn * 100 + cn * 10 + dn) / 100 % 10 = bn := by omega
        have h1 : (an * 1000 + bn * 100 + cn * 10 + dn) / 10 % 10 = cn := by omega
        have h0 : (an * 1000 + bn * 100 + cn * 10 + dn) % 10 = dn := by omega
        rw [ascii_tagName, hserial, h3, h2, h1, h0, hy, stationOfNumber_eq_some_iff.1 hk]
      · cases h
    · cases h
  · cases h

end Sys2Proof.Proofs
end

