-- ==== Sys2Proof/Proofs/CommandsTyped.lean ====
section
/-! PROOFS. Which command the words of a line name (R196). -/

namespace Sys2Proof.Proofs

open Sys2Proof Sys2Proof.Machine

/-! ## Each command word (R196) -/

section

variable (args : List (List Byte))

theorem commandOf_status : commandOf (ascii "STATUS" :: args) = bare .status .any args := rfl

theorem commandOf_config : commandOf (ascii "CONFIG" :: args) = bare .config .any args := rfl

theorem commandOf_peers : commandOf (ascii "PEERS" :: args) = bare .peers .any args := rfl

theorem commandOf_approach : commandOf (ascii "APPROACH" :: args) = bare .approach .any args := rfl

theorem commandOf_span : commandOf (ascii "SPAN" :: args) = bare .span .entry args := rfl

theorem commandOf_alerts : commandOf (ascii "ALERTS" :: args) = bare .alerts .any args := rfl

theorem commandOf_counts : commandOf (ascii "COUNTS" :: args) = bare .counts .any args := rfl

theorem commandOf_trim : commandOf (ascii "TRIM" :: args) = bare .trim .any args := rfl

theorem commandOf_restart : commandOf (ascii "RESTART" :: args) = bare .restart .any args := rfl

theorem commandOf_clear : commandOf (ascii "CLEAR" :: args) = withOne clearCommand .any args := rfl

theorem commandOf_queue :
    commandOf (ascii "QUEUE" :: args) = withOne (fun x => .queue (laneWord x)) .entry args := rfl

theorem commandOf_forget :
    commandOf (ascii "FORGET" :: args) = withOne (fun x => .forget (tagWord x)) .entry args := rfl

theorem commandOf_release : commandOf (ascii "RELEASE" :: args) = releaseCommand args := rfl

theorem commandOf_health : commandOf [ascii "HEALTH"] = .health := rfl

theorem commandOf_healthWord (x : List Byte) :
    commandOf (ascii "HEALTH" :: x :: args) =
      if x = ascii "STEP" then bare .healthStep .any args else .wrong .any .never := rfl

theorem commandOf_lampReset :
    commandOf (ascii "LAMP" :: ascii "RESET" :: args) = withOne (fun y => .lampReset (laneWord y)) .lamps args := rfl

theorem commandOf_stripRestore :
    commandOf (ascii "STRIP" :: ascii "RESTORE" :: args) =
      withOne (fun y => .stripRestore (stripWord y)) .any args := rfl

theorem releaseCommand_of_two (w k : List Byte) :
    releaseCommand [w, k] =
      if k = ascii "ADMIT" then .releaseAdmit (laneWord w)
      else if k = ascii "REMOVE" then .releaseRemove (laneWord w)
      else .wrong .entry .never := rfl

theorem remove_ne_admit : ascii "REMOVE" ≠ ascii "ADMIT" := by decide

end

/-! ## The words that spell a command -/

section

variable {said : List (List Byte)} {w x : List Byte} {args : List (List Byte)} {i : Instr} {c : PortCommand}
  {role : RoleNeeded}

/-- The row of a command runs it as a line of the port. -/
def runs (i : Instr) (c : PortCommand) : Prop := ∀ s, exec i s = portCommand c s

/-- A command without arguments. -/
theorem runs_bare (hline : commandOf (w :: []) = bare c role []) (hi : runs i c) (h : said = [w]) :
    runs i (commandOf said) := by
  rw [h, hline]
  exact hi

/-- R190, R196: a word that spells a command names the row. -/
theorem runs_of_typedAs (h : typedAs said i) : runs i (commandOf said) := by
  cases i with
  | status => exact runs_bare (commandOf_status []) (fun _ => rfl) h
  | config => exact runs_bare (commandOf_config []) (fun _ => rfl) h
  | peers => exact runs_bare (commandOf_peers []) (fun _ => rfl) h
  | approach => exact runs_bare (commandOf_approach []) (fun _ => rfl) h
  | span => exact runs_bare (commandOf_span []) (fun _ => rfl) h
  | alerts => exact runs_bare (commandOf_alerts []) (fun _ => rfl) h
  | counts => exact runs_bare (commandOf_counts []) (fun _ => rfl) h
  | trim => exact runs_bare (commandOf_trim []) (fun _ => rfl) h
  | restart => exact runs_bare (commandOf_restart []) (fun _ => rfl) h
  | health =>
    rw [show said = [ascii "HEALTH"] from h, commandOf_health]
    exact fun _ => rfl
  | healthStep =>
    rw [show said = [ascii "HEALTH", ascii "STEP"] from h, commandOf_healthWord, if_pos rfl]
    exact fun _ => rfl
  | clearAll =>
    have hall : clearCommand (ascii "ALL") = .clearAll := if_pos rfl
    rw [show said = [ascii "CLEAR", ascii "ALL"] from h, commandOf_clear, withOne, hall]
    exact fun _ => rfl
  | clear y =>
    obtain ⟨w, rfl, hall, hy⟩ := h
    have hsource : y = sourceWord w := Option.ext fun z => (hy z).trans sourceWord_eq_some_iff.symm
    have hclear : clearCommand w = .clear (sourceWord w) := if_neg hall
    rw [commandOf_clear, withOne, hclear, hsource]
    exact fun _ => rfl
  | queue n =>
    obtain ⟨w, rfl, hn⟩ := h
    rw [laneTyped_iff.1 hn, commandOf_queue]
    exact fun _ => rfl
  | releaseAdmit n =>
    obtain ⟨w, rfl, hn⟩ := h
    rw [laneTyped_iff.1 hn, commandOf_release, releaseCommand_of_two, if_pos rfl]
    exact fun _ => rfl
  | releaseRemove n =>
    obtain ⟨w, rfl, hn⟩ := h
    rw [laneTyped_iff.1 hn, commandOf_release, releaseCommand_of_two, if_neg remove_ne_admit, if_pos rfl]
    exact fun _ => rfl
  | lampReset n =>
    obtain ⟨w, rfl, hn⟩ := h
    rw [laneTyped_iff.1 hn, commandOf_lampReset]
    exact fun _ => rfl
  | forget g =>
    obtain ⟨w, rfl, hg⟩ := h
    rw [show g = tagWord w from Option.ext fun z => (hg z).trans tagWord_eq_some_iff.symm, commandOf_forget]
    exact fun _ => rfl
  | stripRestore p =>
    obtain ⟨w, rfl, hp⟩ := h
    rw [show p = stripWord w from Option.ext fun z => (hp z).trans stripWord_eq_some_iff.symm,
      commandOf_stripRestore]
    exact fun _ => rfl
  | _ => exact absurd h id

/-! ## Lines that begin with a command word -/

/-- A command without arguments. -/
theorem bare_cases (c : PortCommand) (role : RoleNeeded) (args : List (List Byte)) :
    args = [] ∨ bare c role args = .wrong role (earlyOf c) := by
  cases args with
  | nil => exact .inl rfl
  | cons => exact .inr rfl

/-- A command with one argument. -/
theorem withOne_cases (f : List Byte → PortCommand) (role : RoleNeeded) (args : List (List Byte)) :
    (∃ w, args = [w]) ∨ withOne f role args = .wrong role .never :=
  match args with
  | [] => .inr rfl
  | [w] => .inl ⟨w, rfl⟩
  | _ :: _ :: _ => .inr rfl

/-- A line spells a command, or is a wrong form of one. -/
def spellsOrWrong (said : List (List Byte)) (role : RoleNeeded) (early : Early) : Prop :=
  (∃ i, typedAs said i) ∨ commandOf said = .wrong role early

/-- R153, R154: what follows RELEASE. -/
theorem release_spells (args : List (List Byte)) : spellsOrWrong (ascii "RELEASE" :: args) .entry .never :=
  match args with
  | [] => .inr (commandOf_release _)
  | [_] => .inr (commandOf_release _)
  | _ :: _ :: _ :: _ => .inr (commandOf_release _)
  | [w, k] => by
    by_cases hadmit : k = ascii "ADMIT"
    · exact .inl ⟨.releaseAdmit (laneWord w), w, by rw [hadmit], laneTyped_iff.2 rfl⟩
    · by_cases hremove : k = ascii "REMOVE"
      · exact .inl ⟨.releaseRemove (laneWord w), w, by rw [hremove], laneTyped_iff.2 rfl⟩
      · exact .inr ((commandOf_release [w, k]).trans
          ((releaseCommand_of_two w k).trans ((if_neg hadmit).trans (if_neg hremove))))

/-- R175: what follows HEALTH. -/
theorem health_spells (args : List (List Byte)) : spellsOrWrong (ascii "HEALTH" :: args) .any .never :=
  match args with
  | [] => .inl ⟨.health, rfl⟩
  | x :: rest => by
    by_cases hstep : x = ascii "STEP"
    · rw [hstep]
      obtain rfl | hwrong := bare_cases .healthStep .any rest
      · exact .inl ⟨.healthStep, rfl⟩
      · exact .inr ((commandOf_healthWord rest (ascii "STEP")).trans ((if_pos rfl).trans hwrong))
    · exact .inr ((commandOf_healthWord rest x).trans (if_neg hstep))

/-- R190: what follows CLEAR. -/
theorem clear_spells (args : List (List Byte)) : spellsOrWrong (ascii "CLEAR" :: args) .any .never := by
  obtain ⟨w, rfl⟩ | hwrong := withOne_cases clearCommand .any args
  · by_cases hall : w = ascii "ALL"
    · exact .inl ⟨.clearAll, by rw [hall]; rfl⟩
    · exact .inl ⟨.clear (sourceWord w), w, rfl, hall, fun _ => sourceWord_eq_some_iff⟩
  · exact .inr ((commandOf_clear args).trans hwrong)

/-- A command with one argument, its form given. -/
theorem withOne_spells {f : List Byte → PortCommand} {role : RoleNeeded} {front : List (List Byte)}
    (hline : commandOf (front ++ args) = withOne f role args)
    (hspells : ∀ w, ∃ i, typedAs (front ++ [w]) i) : spellsOrWrong (front ++ args) role .never := by
  obtain ⟨w, rfl⟩ | hwrong := withOne_cases f role args
  · exact .inl (hspells w)
  · exact .inr (hline.trans hwrong)

/-- A command without arguments, its form given. -/
theorem bare_spells {c : PortCommand} {role : RoleNeeded} {early : Early} {front : List (List Byte)} {i : Instr}
    (hline : commandOf (front ++ args) = bare c role args) (hearly : earlyOf c = early)
    (hspells : typedAs front i) : spellsOrWrong (front ++ args) role early := by
  obtain rfl | hwrong := bare_cases c role args
  · exact .inl ⟨i, by rw [List.append_nil]; exact hspells⟩
  · exact .inr (hline.trans (hearly ▸ hwrong))

/-- R196: a line that begins with a command word spells a command or is a wrong form of it. -/
theorem spellsOrWrong_of_begins {e : List String × RoleNeeded × Early} (he : e ∈ commandWords)
    (h : e.1.map ascii <+: said) : spellsOrWrong said e.2.1 e.2.2 := by
  obtain ⟨args, rfl⟩ := h
  simp only [commandWords, List.map_cons, List.map_nil, List.cons_append, List.nil_append, List.mem_cons,
    List.not_mem_nil, or_false] at he
  obtain rfl | rfl | rfl | rfl | rfl | rfl | rfl | rfl | rfl | rfl | rfl | rfl | rfl | rfl | rfl | rfl := he
  · exact bare_spells (i := .status) (commandOf_status args) rfl rfl
  · exact bare_spells (i := .restart) (commandOf_restart args) rfl rfl
  · exact bare_spells (i := .config) (commandOf_config args) rfl rfl
  · exact bare_spells (i := .peers) (commandOf_peers args) rfl rfl
  · exact bare_spells (i := .approach) (commandOf_approach args) rfl rfl
  · exact bare_spells (i := .alerts) (commandOf_alerts args) rfl rfl
  · exact clear_spells args
  · exact bare_spells (i := .counts) (commandOf_counts args) rfl rfl
  · exact health_spells args
  · exact bare_spells (i := .trim) (commandOf_trim args) rfl rfl
  · exact withOne_spells (commandOf_stripRestore args) fun w =>
      ⟨.stripRestore (stripWord w), w, rfl, fun _ => stripWord_eq_some_iff⟩
  · exact withOne_spells (commandOf_queue args) fun w =>
      ⟨.queue (laneWord w), w, rfl, laneTyped_iff.2 rfl⟩
  · exact bare_spells (i := .span) (commandOf_span args) rfl rfl
  · exact release_spells args
  · exact withOne_spells (commandOf_forget args) fun w =>
      ⟨.forget (tagWord w), w, rfl, fun _ => tagWord_eq_some_iff⟩
  · exact withOne_spells (commandOf_lampReset args) fun w =>
      ⟨.lampReset (laneWord w), w, rfl, laneTyped_iff.2 rfl⟩

theorem ne_of_not_begins {word : String} (h : ¬([word].map ascii <+: w :: args)) : w ≠ ascii word := by
  rintro rfl
  exact h ⟨args, rfl⟩

theorem ne_of_not_begins_two {a b : String} (h : ¬([a, b].map ascii <+: w :: x :: args)) (hw : w = ascii a) :
    x ≠ ascii b := by
  rintro rfl
  exact h ⟨args, by rw [hw]; rfl⟩

/-- R196: a line that begins with no command word. -/
theorem commandOf_unknown (h : ∀ e ∈ commandWords, ¬(e.1.map ascii <+: said)) : commandOf said = .unknown := by
  cases said with
  | nil => rfl
  | cons w args =>
    simp only [commandWords, List.map_cons, List.map_nil, List.cons_append, List.nil_append, List.forall_mem_cons] at h
    obtain ⟨hstatus, hrestart, hconfig, hpeers, happroach, halerts, hclear, hcounts, hhealth, htrim, hstrip,
      hqueue, hspan, hrelease, hforget, hlamp, -⟩ := h
    have hrestart' := ne_of_not_begins hrestart
    unfold commandOf
    dsimp only
    rw [if_neg (ne_of_not_begins hstatus), if_neg (ne_of_not_begins hconfig), if_neg (ne_of_not_begins hpeers),
      if_neg (ne_of_not_begins happroach), if_neg (ne_of_not_begins hqueue), if_neg (ne_of_not_begins hspan),
      if_neg (ne_of_not_begins halerts), if_neg (ne_of_not_begins hclear), if_neg (ne_of_not_begins hcounts),
      if_neg (ne_of_not_begins hhealth), if_neg (ne_of_not_begins htrim), if_neg (ne_of_not_begins hrelease),
      if_neg (ne_of_not_begins hforget)]
    split
    next hword =>
      split
      next y rest => exact if_neg (ne_of_not_begins_two hlamp hword)
      · rfl
    · split
      next hword =>
        split
        next y rest => exact if_neg (ne_of_not_begins_two hstrip hword)
        · rfl
      · rfl

end

end Sys2Proof.Proofs
end

