-- ==== Sys2Proof/Proofs/PortBeside.lean ====
section
/-! PROOFS. What a command does it does whatever the port holds: commands beside another port. -/

namespace Sys2Proof.Proofs

open Sys2Proof Sys2Proof.Machine

/-- The station with another port. -/
def ported (p : Port) (s : State) : State := { s with port := p }

section

variable {p : Port} {s : State}

/-! ## Operations -/

theorem raise_ported (x : AlertSource) : raise x (ported p s) = ported p (raise x s) := by
  cases h : working s with
  | true => rw [raise_of_working x h, raise_of_working (s := ported p s) x h]; rfl
  | false =>
    have hidle {u : State} (hu : working u = false) : raise x u = u := by
      rw [raise, hu, if_neg Bool.false_ne_true]
    rw [hidle h, hidle (u := ported p s) h]

theorem arbiterFrom_ported (ls : List Lane) : arbiterFrom ls (ported p s) = ported p (arbiterFrom ls s) := by
  induction ls generalizing s with
  | nil => rfl
  | cons l rest ih =>
    have hline : stopLine (ported p s) l = stopLine s l := rfl
    have hfits (w : Nat) : fits (ported p s) w = fits s w := rfl
    have hweight (r : Record) : admissionWeight (ported p s) r = admissionWeight s r := rfl
    unfold arbiterFrom
    rw [hline]
    cases (stopLine s l).head with
    | held w since =>
      cases (stopLine s l).queue with
      | nil => rfl
      | cons r behind =>
        dsimp only
        rw [hweight, hfits]
        split
        · exact ih (s := leaveHeld l (setHead l (.admitted (admissionWeight s r)) s))
        · rfl
    | _ => rfl

theorem runArbiter_ported : runArbiter (ported p s) = ported p (runArbiter s) := by
  have hacts : entryActs (ported p s) = entryActs s := rfl
  unfold runArbiter
  rw [hacts]
  split
  · exact arbiterFrom_ported _
  · rfl

theorem insertHeld_ported (now : Clock) (l : Lane) (ks : List Lane) :
    insertHeld (ported p s) now l ks = insertHeld s now l ks := by
  have hheld (k : Lane) : holdTime (ported p s) k = holdTime s k := rfl
  induction ks with
  | nil => rfl
  | cons k ks ih =>
    unfold insertHeld
    rw [hheld, ih]

theorem becomeHeld_ported (l : Lane) (w : Nat) : becomeHeld l w (ported p s) = ported p (becomeHeld l w s) := by
  have hset := insertHeld_ported (p := p) (s := s) s.clock l s.entry.held
  unfold becomeHeld
  dsimp only
  rw [show (ported p s).entry.held = s.entry.held from rfl, show (ported p s).clock = s.clock from rfl, hset]
  rfl

theorem stopCounted_ported (l : Lane) (r : Record) :
    stopCounted l r (ported p s) = ported p (stopCounted l r s) :=
  congrArg (countLane l fun c => { c with stopped := c.stopped + 1 }) (raise_ported _)

theorem evaluateHead_ported (l : Lane) : evaluateHead l (ported p s) = ported p (evaluateHead l s) := by
  have hline : stopLine (ported p s) l = stopLine s l := rfl
  have hfront : frontHead l (ported p s) = frontHead l s := rfl
  rw [evaluateHead_eq, evaluateHead_eq, hline, hfront]
  cases (stopLine s l).queue with
  | nil =>
    cases frontHead l s with
    | held w since => exact becomeHeld_ported l w
    | _ => rfl
  | cons r rest =>
    cases frontHead l s with
    | stop => exact stopCounted_ported (s := setHead l .stop s) l r
    | held w since => exact becomeHeld_ported l w
    | _ => rfl

theorem foldl_ported {α : Type} {f : State → α → State} (hf : ∀ u x, f (ported p u) x = ported p (f u x))
    (l : List α) : l.foldl f (ported p s) = ported p (l.foldl f s) := by
  induction l generalizing s with
  | nil => rfl
  | cons x l ih => rw [List.foldl_cons, List.foldl_cons, hf, ih]

theorem takeRaw_ported (x : AlertSource) : takeRaw (ported p s) x = ported p (takeRaw s x) := by
  have hraw : rawState (ported p s) x = rawState s x := rawState_congr rfl rfl rfl rfl rfl rfl x
  have halert : alertOf (ported p s) x = alertOf s x := rfl
  have htrigger : triggerOf (ported p s) x = triggerOf s x := rfl
  unfold takeRaw
  dsimp only
  rw [hraw, halert, htrigger]
  split
  · rfl
  · split <;> rfl

theorem takeConditions_ported : takeConditions (ported p s) = ported p (takeConditions s) := by
  have hworking : working (ported p s) = working s := rfl
  unfold takeConditions
  rw [hworking]
  split
  · exact foldl_ported (fun _ _ => takeRaw_ported _) _
  · rfl

theorem clearSource_ported (x : AlertSource) : clearSource (ported p s) x = ported p (clearSource s x) := by
  have hraw : rawState (ported p s) x = rawState s x := rawState_congr rfl rfl rfl rfl rfl rfl x
  have htrigger : triggerOf (ported p s) x = triggerOf s x := rfl
  unfold clearSource
  dsimp only
  rw [hraw, htrigger]
  split <;> rfl

theorem clearLost_ported : clearLost (ported p s) = ported p (clearLost s) := by
  have hrecovering : recovering (ported p s) = recovering s := rfl
  have hcommitted : committed (ported p s) = committed s := rfl
  have hspan : (ported p s).entry.span = s.entry.span := rfl
  unfold clearLost
  rw [hrecovering, hcommitted, hspan]
  split <;> rfl

theorem departSpan_ported (keep : SpanEntry → Bool) :
    departSpan keep (ported p s) = ported p (departSpan keep s) := by
  have hspan : (ported p s).entry.span = s.entry.span := rfl
  unfold departSpan
  rw [hspan]
  split
  · rfl
  · exact (congrArg (fun u => runArbiter (takeConditions u)) (clearLost_ported
      (s := { s with entry.span := s.entry.span.filter keep }))).trans
        ((congrArg runArbiter takeConditions_ported).trans runArbiter_ported)

theorem restoreStrip_ported (q : Strip) : restoreStrip q (ported p s) = ported p (restoreStrip q s) :=
  takeConditions_ported (s := setHealth q { healthOf s q with failed := false, silenceRun := 0, clipRun := 0 } s)

theorem removedDeck_ported (l : Lane) (held : Bool) :
    removedDeck l held (ported p s) = ported p (removedDeck l held s) := by
  cases held with
  | true => exact runArbiter_ported (s := turnedAway l s)
  | false => rfl

theorem turnAway_ported (l : Lane) (held : Bool) : turnAway l held (ported p s) = ported p (turnAway l held s) := by
  rw [turnAway_eq, turnAway_eq, removedDeck_ported, evaluateHead_ported]

/-! ## Judgements -/

/-- The judgement of a command, made beside another port. -/
def judgedPorted (p : Port) : Judged → Judged
  | .ok (records, t) => .ok (records, ported p t)
  | .error e => .error e

theorem judgedPorted_if {c : Prop} [Decidable c] {j j' : Judged} {e : ErrorCode} (h : j' = judgedPorted p j) :
    (if c then j' else .error e) = judgedPorted p (if c then j else .error e) := by
  split
  · exact h
  · rfl

theorem judgeReleaseAdmit_ported (n : Nat) :
    judgeReleaseAdmit n (ported p s) = judgedPorted p (judgeReleaseAdmit n s) := by
  refine judgedPorted_if ?_
  rw [show laneArg (ported p s) n = laneArg s n from rfl]
  cases laneArg s n with
  | none => rfl
  | some l =>
    dsimp only
    rw [show stopLine (ported p s) l = stopLine s l from rfl]
    cases (stopLine s l).head with
    | stop =>
      cases (stopLine s l).queue with
      | nil => rfl
      | cons r rest =>
        exact congrArg (prints []) ((congrArg runArbiter (becomeHeld_ported l (admissionWeight s r))).trans
          runArbiter_ported)
    | _ => rfl

theorem judgeReleaseRemove_ported (n : Nat) :
    judgeReleaseRemove n (ported p s) = judgedPorted p (judgeReleaseRemove n s) := by
  refine judgedPorted_if ?_
  rw [show laneArg (ported p s) n = laneArg s n from rfl]
  cases laneArg s n with
  | none => rfl
  | some l =>
    dsimp only
    rw [show stopLine (ported p s) l = stopLine s l from rfl]
    cases (stopLine s l).head with
    | stop => exact congrArg (prints []) (turnAway_ported l false)
    | held w since => exact congrArg (prints []) (turnAway_ported l true)
    | _ => rfl

theorem judgeForget_ported (g : Option Tag) :
    judgeForget g (ported p s) = judgedPorted p (judgeForget g s) := by
  refine judgedPorted_if ?_
  cases g with
  | none => rfl
  | some g =>
    exact judgedPorted_if (congrArg (prints []) (departSpan_ported
      (s := { s with entry.forgotten := s.entry.forgotten + 1 }) _))

theorem judgeHealthStep_ported : judgeHealthStep (ported p s) = judgedPorted p (judgeHealthStep s) := by
  have hnext : nextPresented (ported p s) = nextPresented s := rfl
  have hstate : (ported p s).health.state = s.health.state := rfl
  unfold judgeHealthStep
  rw [hnext, hstate]
  cases s.health.state with
  | idle => rfl
  | _ => cases nextPresented s <;> rfl

/-- The commands that neither print what the port counts nor write it. -/
def worksBesidePort : PortCommand → Prop
  | .clearAll | .clear _ | .healthStep | .releaseAdmit _ | .releaseRemove _ | .forget _ | .lampReset _
  | .stripRestore _ | .unknown | .wrong _ _ => True
  | _ => False

/-- A command that works on the station is judged, and takes place, whatever the port holds. -/
theorem judgeCommand_ported {c : PortCommand} (hc : worksBesidePort c) :
    judgeCommand c (ported p s) = judgedPorted p (judgeCommand c s) := by
  cases c with
  | unknown => rfl
  | wrong role early => exact judgedPorted_if (j := .error .badArg) rfl
  | clearAll => exact congrArg (prints []) (foldl_ported (fun _ _ => clearSource_ported _) _)
  | clear x =>
    cases x with
    | none => rfl
    | some x => exact congrArg (prints []) (clearSource_ported x)
  | healthStep => exact judgeHealthStep_ported
  | releaseAdmit n => exact judgeReleaseAdmit_ported n
  | releaseRemove n => exact judgeReleaseRemove_ported n
  | forget g => exact judgeForget_ported g
  | lampReset n =>
    refine judgedPorted_if ?_
    rw [show laneArg (ported p s) n = laneArg s n from rfl]
    cases laneArg s n <;> rfl
  | stripRestore q =>
    cases q with
    | none => rfl
    | some q => exact judgedPorted_if (judgedPorted_if (congrArg (prints []) (restoreStrip_ported q)))
  | _ => exact absurd hc id

/-- Such a command leaves the port as it was. -/
theorem judgeCommand_port {c : PortCommand} (hc : worksBesidePort c) {records : List PrintedRecord} {t : State}
    (h : judgeCommand c s = .ok (records, t)) : t.port = s.port := by
  have hself := judgeCommand_ported (p := s.port) (s := s) hc
  rw [show ported s.port s = s from rfl, h] at hself
  have hsame : t = ported s.port t := congrArg Prod.snd (Except.ok.inj hself)
  rw [hsame]
  rfl

/-! ## The carriage return taken into account (R195) -/

/-- The port remembers whether the last character was a carriage return. -/
def marked (b : Bool) (s : State) : State := ported { s.port with afterReturn := b } s

theorem marked_touches (b : Bool) (s : State) : changesOnly [.port] s (marked b s) := touches_port s _

/-- The judgement of a command, made after another character. -/
def judgedMarked (b : Bool) : Judged → Judged
  | .ok (records, t) => .ok (records, marked b t)
  | .error e => .error e

theorem judgeCommand_marked_of_works {b : Bool} {c : PortCommand} (hc : worksBesidePort c) :
    judgeCommand c (marked b s) = judgedMarked b (judgeCommand c s) := by
  rw [marked, judgeCommand_ported hc]
  cases h : judgeCommand c s with
  | error e => rfl
  | ok x =>
    obtain ⟨records, t⟩ := x
    have hport := judgeCommand_port hc h
    rw [judgedPorted, judgedMarked, marked, hport]

/-- No command looks at the character before it. -/
theorem judgeCommand_marked (b : Bool) (c : PortCommand) :
    judgeCommand c (marked b s) = judgedMarked b (judgeCommand c s) := by
  cases c with
  | status | config | peers | approach | alerts | counts | health | trim | restart => rfl
  | span =>
    have hentry : (marked b s).cfg.entry = s.cfg.entry := rfl
    simp only [judgeCommand, judgeSpan, hentry]
    split <;> rfl
  | queue n =>
    have hentry : (marked b s).cfg.entry = s.cfg.entry := rfl
    have hlane : laneArg (marked b s) n = laneArg s n := rfl
    simp only [judgeCommand, judgeQueue, hentry, hlane]
    split
    · cases laneArg s n <;> rfl
    · rfl
  | _ => exact judgeCommand_marked_of_works trivial

/-- R196: a line is taken alike after any character. -/
theorem takeLine_marked (b garbled : Bool) (c : PortCommand) :
    takeLine garbled c (marked b s) = marked b (takeLine garbled c s) := by
  have hbegun : beginLine (marked b s) = marked b (beginLine s) := rfl
  have hrespond (j : Judged) (u : State) : respond (judgedMarked b j) (marked b u) = marked b (respond j u) := by
    cases j <;> rfl
  have hallowed : commandAllowed (marked b (beginLine s)) c = commandAllowed (beginLine s) c := rfl
  unfold takeLine
  dsimp only
  rw [hbegun, hallowed, judgeCommand_marked, ← hrespond]
  congr 1
  split
  · rfl
  · split <;> rfl

/-! ## The port once a line is taken (R196) -/

/-- A command keeps what the port holds of the line; only RESTART writes its own mark. -/
def lineKept (s : State) (j : Judged) : Prop :=
  ∀ records t, j = .ok (records, t) → t.port = { s.port with restart := t.port.restart }

theorem judgeCommand_lineKept (c : PortCommand) : lineKept s (judgeCommand c s) := by
  intro records t h
  cases c with
  | status | config | peers | approach | alerts | counts | health | trim | restart =>
    cases h
    rfl
  | span =>
    simp only [judgeCommand, judgeSpan, prints] at h
    split at h
    · cases h
      rfl
    · cases h
  | queue n =>
    simp only [judgeCommand, judgeQueue, prints] at h
    split at h
    · cases hl : laneArg s n with
      | none => simp only [hl] at h; cases h
      | some l => simp only [hl] at h; cases h; rfl
    · cases h
  | _ =>
    have hport : t.port = s.port := by
      refine judgeCommand_port ?_ h
      exact trivial
    rw [hport]

/-- R196: the port after an ungarbled line. -/
theorem takeLine_port (c : PortCommand) :
    (takeLine false c s).port.state = .responding ∧ (takeLine false c s).port.buffer = [] ∧
      (takeLine false c s).port.response.isSome = true ∧
      (takeLine false c s).port.linesTaken = s.port.linesTaken + 1 := by
  have hrespond {j : Judged} (h : lineKept (beginLine s) j) :
      (respond j (beginLine s)).port.state = .responding ∧ (respond j (beginLine s)).port.buffer = [] ∧
        (respond j (beginLine s)).port.response.isSome = true ∧
        (respond j (beginLine s)).port.linesTaken = s.port.linesTaken + 1 := by
    cases j with
    | error e => exact ⟨rfl, rfl, rfl, rfl⟩
    | ok x =>
      obtain ⟨records, t⟩ := x
      have hport := h records t rfl
      have hanswered : (respond (.ok (records, t)) (beginLine s)).port = { t.port with response := some (.ok records) } := rfl
      rw [hanswered, hport]
      exact ⟨rfl, rfl, rfl, rfl⟩
  unfold takeLine
  dsimp only
  rw [if_neg Bool.false_ne_true]
  split
  · exact hrespond (judgeCommand_lineKept c)
  · exact hrespond fun _ _ h => nomatch h

end

end Sys2Proof.Proofs
end

