-- ==== Sys2Proof/Proofs/CharactersTyped.lean ====
section
/-! PROOFS. CHARACTER_RECEIVED: the states of the port, and the lines that end (R195, R196). -/

namespace Sys2Proof.Proofs

open Sys2Proof Sys2Proof.Machine

/-! ## Characters that change the port alone (R195) -/

section

variable {s : State} {c : Byte} {bad b : Bool} {p : Port}

theorem exec_characterReceived (h : s.startup ≠ .reset) :
    exec (.characterReceived c bad) s = .next (settle (marked (!bad && decide (c = 0x0D)) (takeChar c bad s))) :=
  if_neg h

theorem ported_touches (p : Port) (s : State) : changesOnly [.port] s (ported p s) := touches_port s _

/-- A character that writes the port alone. -/
theorem settle_marked_ported (hs : settled s = true) :
    (settle (marked b (ported p s))).port = { p with afterReturn := b } ∧
      changesOnly [.port] s (settle (marked b (ported p s))) := by
  have htouch : changesOnly [.port] s (marked b (ported p s)) :=
    changesOnly_mono (changesOnly_append (ported_touches p s) (marked_touches b _)) (by decide)
  have hquiet : settle (marked b (ported p s)) = marked b (ported p s) := by
    have hdone := done_quiet hs htouch
    exact Host.Outcome.next.inj hdone
  rw [hquiet]
  exact ⟨rfl, htouch⟩

theorem endsLine_iff : endsLine c s = true ↔ c = 0x0D ∨ (c = 0x0A ∧ s.port.afterReturn = false) := by
  simp only [endsLine, Bool.or_eq_true, Bool.and_eq_true, decide_eq_true_eq, Bool.not_eq_true']

theorem takeChar_collecting (h : s.port.state = .collecting) :
    takeChar c bad s = if bad = true then ported { s.port with garbled := true } s else collectChar c s := by
  rw [takeChar, h]
  rfl

theorem takeChar_discarding (h : s.port.state = .discarding) :
    takeChar c bad s = if bad = true then s else if c = 0x0D ∨ c = 0x0A then longLine s else s := by
  rw [takeChar, h]

theorem takeChar_responding (h : s.port.state = .responding) :
    takeChar c bad s = ported { s.port with discarded := s.port.discarded + 1 } s := by
  rw [takeChar, h]
  rfl

theorem collectChar_of_end (h : c = 0x0D ∨ (c = 0x0A ∧ s.port.afterReturn = false)) :
    collectChar c s = endLine s := if_pos (endsLine_iff.2 h)

theorem collectChar_of_other (h : ¬(c = 0x0D ∨ (c = 0x0A ∧ s.port.afterReturn = false))) :
    collectChar c s =
      if c = 0x08 ∨ c = 0x7F then ported { s.port with buffer := s.port.buffer.dropLast } s
      else if 0x20 ≤ c.toNat ∧ c.toNat ≤ 0x7E then storeChar c s
      else s := if_neg fun he => h (endsLine_iff.1 he)

theorem collectChar_printable (hlo : 0x20 ≤ c.toNat) (hhi : c.toNat ≤ 0x7E) : collectChar c s = storeChar c s := by
  rw [collectChar_of_other, if_neg, if_pos ⟨hlo, hhi⟩]
  · rintro (rfl | rfl)
    · exact absurd hlo (by decide)
    · exact absurd hhi (by decide)
  · rintro (rfl | ⟨rfl, -⟩) <;> exact absurd hlo (by decide)

theorem collectChar_takesBack (h : c = 0x08 ∨ c = 0x7F) :
    collectChar c s = ported { s.port with buffer := s.port.buffer.dropLast } s := by
  rw [collectChar_of_other, if_pos h]
  obtain rfl | rfl := h <;> rintro (he | ⟨he, -⟩) <;> exact absurd he (by decide)

/-- Any other character that ends no line is not stored. -/
theorem collectChar_ignored (h : c.toNat < 0x20 ∨ 0x7F < c.toNat) (hback : c ≠ 0x08)
    (hend : ¬(c = 0x0D ∨ (c = 0x0A ∧ s.port.afterReturn = false))) : collectChar c s = s := by
  rw [collectChar_of_other hend, if_neg, if_neg]
  · omega
  · rintro (hc | rfl)
    · exact hback hc
    · exact absurd h (by decide)

/-! ## Lines that end (R195, R196) -/

theorem endLine_of_spaces (h : ∀ x ∈ s.port.buffer, x = 0x20) :
    endLine s = ported { s.port with buffer := [], garbled := false } s :=
  if_pos (List.all_eq_true.2 fun x hx => decide_eq_true (h x hx))

theorem endLine_of_words (h : ∃ x ∈ s.port.buffer, x ≠ 0x20) :
    endLine s = takeLine s.port.garbled (commandOf (wordsTyped s.port.buffer)) s := by
  rw [← words_eq]
  refine if_neg fun hall => ?_
  obtain ⟨x, hx, hne⟩ := h
  exact hne (of_decide_eq_true (List.all_eq_true.1 hall x hx))

/-- R196: a line that is refused. -/
def lineRefused (e : ErrorCode) (s : State) : Port :=
  { s.port with
    state := .responding, buffer := [], garbled := false, response := some (.err e)
    linesTaken := s.port.linesTaken + 1, linesRefused := s.port.linesRefused + 1 }

theorem takeLine_garbled (k : PortCommand) : takeLine true k s = ported (lineRefused .badCmd s) s := rfl

theorem takeLine_unknown (h : s.startup ≠ .reset) :
    takeLine false .unknown s = ported (lineRefused .badCmd s) s := by
  have hallowed : commandAllowed (beginLine s) .unknown = true := by
    have hstart : (beginLine s).startup = s.startup := rfl
    rw [commandAllowed, hstart]
    cases hx : s.startup with
    | reset => exact absurd hx h
    | _ => rfl
  unfold takeLine
  dsimp only
  rw [if_neg Bool.false_ne_true, if_pos hallowed]
  rfl

/-- R186, R196: how a wrong form of a command is refused. -/
theorem takeLine_wrong (h : s.startup ≠ .reset) (role : RoleNeeded) (early : Early) :
    takeLine false (.wrong role early) s = ported (lineRefused (wrongAnswer s role early) s) s := by
  have hallowed : commandAllowed (beginLine s) (.wrong role early) = true ↔
      working s = true ∨ early = .always ∨ (early = .inFault ∧ s.startup = .fault) := by
    have hstart : (beginLine s).startup = s.startup := rfl
    rw [commandAllowed, hstart, working]
    cases hx : s.startup with
    | reset => exact absurd hx h
    | loading => cases early <;> simp [earlyOf]
    | fault => cases early <;> simp [earlyOf]
    | joining => simp
    | running => simp
  have hjudged : (if commandAllowed (beginLine s) (.wrong role early) = true then
      judgeCommand (.wrong role early) (beginLine s) else .error .state) = .error (wrongAnswer s role early) := by
    unfold wrongAnswer
    dsimp only
    by_cases ha : commandAllowed (beginLine s) (.wrong role early) = true
    · rw [if_pos ha, judgeCommand]
      unfold judgeWrong
      dsimp only
      cases role with
      | any => simp [hallowed.1 ha]
      | entry =>
        rw [show (beginLine s).cfg = s.cfg from rfl]
        by_cases hr : s.cfg.entry = true
        · simp [hallowed.1 ha, hr]
        · simp [hr]
      | lamps =>
        rw [show (beginLine s).cfg = s.cfg from rfl]
        by_cases hr : (s.cfg.divert || s.cfg.entry) = true
        · simp only [hallowed.1 ha, hr, if_true, and_self]
        · simp only [hr, and_false, if_false, Bool.false_eq_true]
    · rw [if_neg ha, if_neg fun hand => ha (hallowed.2 hand.1)]
  unfold takeLine
  dsimp only
  rw [if_neg Bool.false_ne_true, hjudged]
  rfl

/-- R196: a line that spells a command does what the command's own row does. -/
theorem exec_typed {i : Instr} (h : s.startup ≠ .reset) (hstate : s.port.state = .collecting)
    (hi : typedAs (wordsTyped s.port.buffer) i) (b : Bool) :
    exec i (marked b s) =
      .next (settle (marked b (takeLine false (commandOf (wordsTyped s.port.buffer)) s))) := by
  have hready : portReady (marked b s) = true := by
    have hsame : portReady (marked b s) = portReady s := rfl
    rw [hsame, portReady, hstate, decide_eq_true rfl, decide_eq_true h]
    rfl
  rw [runs_of_typedAs hi, portCommand, if_pos hready, takeLine_marked]
  rfl

end

/-- Settles O54: by the state of the port, and by the words of a line that ends. -/
theorem charactersFormLines : Obligations.CharactersFormLines := by
  unfold Obligations.CharactersFormLines
  intro s c bad hs hreset
  refine ⟨settle (marked (!bad && decide (c = 0x0D)) (takeChar c bad s)), exec_characterReceived hreset, ?_⟩
  intro after ends
  have hafter {p : Port} (h : takeChar c bad s = ported p s) : after p := by
    have hwritten := settle_marked_ported (b := !bad && decide (c = 0x0D)) (p := p) hs
    rw [← h] at hwritten
    exact hwritten
  have hsame (h : takeChar c bad s = s) : after s.port := hafter (p := s.port) h
  have hcollect (hstate : s.port.state = .collecting) (hbad : bad = false) : takeChar c bad s = collectChar c s := by
    rw [takeChar_collecting hstate, if_neg (by rw [hbad]; exact Bool.false_ne_true)]
  refine ⟨fun hstate hbad => hafter ?_, fun hstate hbad hlo hhi => ⟨fun hroom => hafter ?_, fun hfull => hafter ?_⟩,
    fun hstate hbad hback => hafter ?_, fun hstate hbad hc hback hlf hcr => hsame ?_,
    fun hstate hbad hlf hreturn => hsame ?_, fun hstate hbad hends hspaces => hafter ?_,
    fun hstate hbad hends hword => ?_, fun hstate hbad hends => hafter ?_, fun hstate hother => hsame ?_,
    fun hstate => hafter (takeChar_responding hstate)⟩
  · rw [takeChar_collecting hstate, if_pos hbad]
  · rw [hcollect hstate hbad, collectChar_printable hlo hhi]
    exact if_neg (Nat.not_le.2 hroom)
  · rw [hcollect hstate hbad, collectChar_printable hlo hhi]
    exact if_pos hfull
  · rw [hcollect hstate hbad, collectChar_takesBack hback]
  · rw [hcollect hstate hbad]
    exact collectChar_ignored hc hback fun he => he.elim hcr fun h => hlf h.1
  · rw [hcollect hstate hbad]
    refine collectChar_ignored (.inl (by rw [hlf]; decide)) (by rw [hlf]; decide) fun he => ?_
    obtain hcr | ⟨-, hnone⟩ := he
    · rw [hlf] at hcr
      exact absurd hcr (by decide)
    · rw [hreturn] at hnone
      cases hnone
  · rw [hcollect hstate hbad, collectChar_of_end hends, endLine_of_spaces hspaces]
  · have hline : takeChar c bad s = takeLine s.port.garbled (commandOf (wordsTyped s.port.buffer)) s := by
      rw [hcollect hstate hbad, collectChar_of_end hends, endLine_of_words hword]
    refine ⟨fun hgarbled => hafter ?_, fun hgarbled => ?_⟩
    · rw [hline, hgarbled]
      exact takeLine_garbled _
    · rw [hgarbled] at hline
      have hrefused {e : ErrorCode} (h : takeChar c bad s = ported (lineRefused e s) s) :
          takeChar c bad s = ported
            { s.port with
              state := .responding, buffer := [], response := some (.err e)
              linesTaken := s.port.linesTaken + 1, linesRefused := s.port.linesRefused + 1 } s := by
        rw [h, lineRefused, ← hgarbled]
      have hport : (settle (marked (!bad && decide (c = 0x0D)) (takeChar c bad s))).port =
          (marked (!bad && decide (c = 0x0D)) (takeChar c bad s)).port := settle_changesOnly _ .port (by decide)
      obtain ⟨hresponding, hbuffer, hresponse, htaken⟩ := takeLine_port (s := s) (commandOf (wordsTyped s.port.buffer))
      refine ⟨?_, ?_, ?_, ?_, fun i hi => ?_, fun hnone => hafter (hrefused ?_),
        fun w hw hbegins hno => hafter (hrefused ?_)⟩
      · rw [hport, hline]
        exact hresponding
      · rw [hport, hline]
        exact hbuffer
      · rw [hport, hline]
        exact hresponse
      · rw [hport, hline]
        exact htaken
      · rw [hline, hbad]
        exact exec_typed hreset hstate hi (decide (c = 0x0D))
      · rw [hline, commandOf_unknown hnone]
        exact takeLine_unknown hreset
      · have hwrong := (spellsOrWrong_of_begins hw hbegins).resolve_left fun ⟨i, hi⟩ => hno i hi
        rw [hline, hwrong]
        exact takeLine_wrong hreset _ _
  · rw [takeChar_discarding hstate, if_neg (by rw [hbad]; exact Bool.false_ne_true), if_pos hends]
    rfl
  · rw [takeChar_discarding hstate]
    obtain hbad | ⟨hcr, hlf⟩ := hother
    · exact if_pos hbad
    · rw [if_neg (c := c = 0x0D ∨ c = 0x0A) fun h => h.elim hcr hlf, ite_self]

end Sys2Proof.Proofs
end
